-- ==== Sys2Proof/Word.lean ====
section
/-! DEFINITION. The word types of the Q960 (00_scope.md R1, R2) and their plainest arithmetic. -/

namespace Sys2Proof

/-- A byte of any storage of the package (R1). -/
abbrev Byte := BitVec 8
/-- A 32-bit word: an instruction word, an extension word, a vector element (R71, R209). -/
abbrev Word := BitVec 32
/-- A 64-bit word: an x register, a system register (R124, R147). -/
abbrev DWord := BitVec 64
/-- A fetch line: eight 32-bit lanes (R68). -/
abbrev FetchLine := BitVec 256
/-- An accumulator element (R185). -/
abbrev Acc48 := BitVec 48

/-- Lane i of a fetch line occupies bits [32i+31:32i] (R68). -/
def laneOf (l : FetchLine) (i : Nat) : Word := l.extractLsb' (32 * i) 32

end Sys2Proof
end

