-- ==== Sys2Proof/Machine/Bits.lean ====
section
/-! DEFINITION. Bit fields, sign extension and little-endian bytes (00_scope.md R1). -/

namespace Sys2Proof.Machine

/-- Bits [lo+n-1:lo] of a number. -/
def bits (v lo n : Nat) : Nat := v / 2 ^ lo % 2 ^ n

/-- Bit i of a number. -/
def bit (v i : Nat) : Bool := v.testBit i

/-- 1 for true, 0 for false. -/
def b2n (b : Bool) : Nat := if b then 1 else 0

/-- The integer of the low n bits of a number, as two's complement. -/
def sgn (n v : Nat) : Int := if v % 2 ^ n < 2 ^ (n - 1) then (v % 2 ^ n : Int) else (v % 2 ^ n : Int) - 2 ^ n

/-- The low n bits of an integer. -/
def low (n : Nat) (i : Int) : Nat := (i % 2 ^ n).toNat

/-- The number of a list of bytes, the first least significant (R1). -/
def leNat : List Byte → Nat
  | [] => 0
  | b :: r => b.toNat + 256 * leNat r

/-- The n low bytes of a number, the first least significant (R1). -/
def leBytes : Nat → Nat → List Byte
  | 0, _ => []
  | n + 1, v => BitVec.ofNat 8 v :: leBytes n (v / 256)

/-- The field of n bytes at an offset of a record (R1). -/
def fieldAt (r : List Byte) (off n : Nat) : Nat := leNat ((r.drop off).take n)

/-- Sign extension of the low n bits to 64. -/
def sext64 (n : Nat) (v : Nat) : DWord := BitVec.ofInt 64 (sgn n v)

/-- The numbers from a, n of them. -/
def upFrom (a n : Nat) : List Nat := (List.range n).map (a + ·)

/-- The positions of the set bits of the low n bits of a number, ascending. -/
def setBits (n v : Nat) : List Nat := (List.range n).filter fun i => bit v i

/-- Ceil(a / b). -/
def ceilDiv (a b : Nat) : Nat := (a + b - 1) / b

end Sys2Proof.Machine
end

