-- ==== Sys2Proof/Config.lean ====
section
/-! DEFINITION. What the spec leaves to an implementation, as constants without a body: no proof can see a value of
one of them, so a statement holds whatever they are. Each is named in a log entry under notes/assumptions. -/

namespace Sys2Proof.Config

/-- Which of several steps due in the same clk comes first, where the spec gives no order (05 R99, 16 R377).
The argument is the state's free-value counter. -/
opaque choose : Nat → Nat

/-- How many ticks past the least an engine, a packet or a walk takes: the spec bounds none of them (01 R11, 05 R107). -/
opaque latency : Nat → Nat

/-- A special function of the vector unit at a point whose value the spec only bounds (09 R230, R231): the first
argument is the function's opcode, the second the floating type, the third the input element. -/
opaque sfu : Nat → Nat → Word → Word

/-- A value the spec calls undefined (00 R5), one for every value of the state's free-value counter. -/
opaque freeWord : Nat → DWord

/-- The bytes of the device identity key and of the firmware digests (18 R437), by offset. -/
opaque identityByte : Nat → Byte

/-- The bytes of an SM2 signature over a report (18 R437), by offset in the signature. -/
opaque signatureByte : List Byte → Nat → Byte

end Sys2Proof.Config
end

