-- ==== Sys2Proof/Syntax.lean ====
section
/-! DEFINITION. The steps of the package (spec/opcode_table.json): one constructor of Instr for every row.
Rows with an encoding carry the fields of their lane and extension words (04_lines_and_encodings.md R71 to R75);
rows that are machine events carry nothing: what an event is about (which part, task, command) stands in the event
latch of the state (EvArg), and their docstrings name the fields of the latch they use. -/

namespace Sys2Proof

/-- The queues of a context (R70): the front queue X, which has no entries, and the queues L, C, S and F. -/
inductive Queue where
  | x | l | c | s | f
  deriving DecidableEq, Repr

/-- The token bits and the delay count of an instruction word (R71). -/
structure Hdr where
  /-- WP: waits for a token from the previous queue. -/
  wp : Bool
  /-- WN: waits for a token from the next queue. -/
  wn : Bool
  /-- PP: posts a token to the previous queue. -/
  pp : Bool
  /-- PN: posts a token to the next queue. -/
  pn : Bool
  /-- DLY: the delay count, 0 to 7. -/
  dly : BitVec 3
  deriving DecidableEq, Repr

/-- The common part of the extension word of the copy and H families (R279, R348). -/
structure CExt where
  /-- ACQ: the acquire bit (R287). -/
  acq : Bool
  /-- REL: the release bit (R287). -/
  rel : Bool
  /-- TOK: the completion-token modifier (R103). -/
  tok : Bool
  /-- SR: raise the die semaphore SEM at completion. -/
  sr : Bool
  /-- SEM: the die semaphore (R42). -/
  sem : BitVec 10
  deriving DecidableEq, Repr

/-- What an event of the machine is about: the numbers of the agent and of the object, a register value, flags, a
queue and bytes. The docstring of each event of Instr says which fields it reads. -/
structure EvArg where
  a : Nat := 0
  b : Nat := 0
  c : Nat := 0
  d : Nat := 0
  v : BitVec 64 := 0
  f : Bool := false
  g : Bool := false
  q : Queue := .x
  bytes : List Byte := []
  deriving DecidableEq, Repr

/-- One step of the package: a row of spec/opcode_table.json. -/
inductive Instr where
  /-- ADD: Add two x registers. (R127) -/
  | add (y : BitVec 3) (d : BitVec 5) (a : BitVec 5) (b : BitVec 5)
  /-- SUB: Subtract two x registers. (R127) -/
  | sub (y : BitVec 3) (d : BitVec 5) (a : BitVec 5) (b : BitVec 5)
  /-- AND: Bitwise AND. (R127) -/
  | and (y : BitVec 3) (d : BitVec 5) (a : BitVec 5) (b : BitVec 5)
  /-- OR: Bitwise OR. (R127) -/
  | or (y : BitVec 3) (d : BitVec 5) (a : BitVec 5) (b : BitVec 5)
  /-- XOR: Bitwise XOR. (R127) -/
  | xor (y : BitVec 3) (d : BitVec 5) (a : BitVec 5) (b : BitVec 5)
  /-- ANDN: x[a] AND NOT x[b]. (R127) -/
  | andn (y : BitVec 3) (d : BitVec 5) (a : BitVec 5) (b : BitVec 5)
  /-- SLL: Logical shift left. (R127) -/
  | sll (y : BitVec 3) (d : BitVec 5) (a : BitVec 5) (b : BitVec 5)
  /-- SRL: Logical shift right. (R127) -/
  | srl (y : BitVec 3) (d : BitVec 5) (a : BitVec 5) (b : BitVec 5)
  /-- SRA: Arithmetic shift right. (R127) -/
  | sra (y : BitVec 3) (d : BitVec 5) (a : BitVec 5) (b : BitVec 5)
  /-- MUL: Low 64 bits of the product. (R129) -/
  | mul (y : BitVec 3) (d : BitVec 5) (a : BitVec 5) (b : BitVec 5)
  /-- MULH: High 64 bits of the signed product. (R129) -/
  | mulh (y : BitVec 3) (d : BitVec 5) (a : BitVec 5) (b : BitVec 5)
  /-- MULHU: High 64 bits of the unsigned product. (R129) -/
  | mulhu (y : BitVec 3) (d : BitVec 5) (a : BitVec 5) (b : BitVec 5)
  /-- MIN: Signed minimum. (R127) -/
  | min (y : BitVec 3) (d : BitVec 5) (a : BitVec 5) (b : BitVec 5)
  /-- MAX: Signed maximum. (R127) -/
  | max (y : BitVec 3) (d : BitVec 5) (a : BitVec 5) (b : BitVec 5)
  /-- MINU: Unsigned minimum. (R127) -/
  | minu (y : BitVec 3) (d : BitVec 5) (a : BitVec 5) (b : BitVec 5)
  /-- MAXU: Unsigned maximum. (R127) -/
  | maxu (y : BitVec 3) (d : BitVec 5) (a : BitVec 5) (b : BitVec 5)
  /-- CLZ: Count leading zeros. (R133) -/
  | clz (y : BitVec 3) (d : BitVec 5) (a : BitVec 5)
  /-- CTZ: Count trailing zeros. (R133) -/
  | ctz (y : BitVec 3) (d : BitVec 5) (a : BitVec 5)
  /-- POPC: Population count. (R133) -/
  | popc (y : BitVec 3) (d : BitVec 5) (a : BitVec 5)
  /-- BSWAP: Reverse byte order. (R133) -/
  | bswap (y : BitVec 3) (d : BitVec 5) (a : BitVec 5)
  /-- SEL: Select x[a] or x[b] by a predicate. (R132) -/
  | sel (y : BitVec 3) (d : BitVec 5) (a : BitVec 5) (b : BitVec 5) (c : BitVec 3)
  /-- CMP: Signed compare into a predicate, with an optional combine. (R130) -/
  | cmp (y : BitVec 3) (c : BitVec 2) (k : BitVec 3) (a : BitVec 5) (b : BitVec 5) (m : BitVec 3)
  /-- CMPU: Unsigned compare into a predicate, with an optional combine. (R130) -/
  | cmpu (y : BitVec 3) (c : BitVec 2) (k : BitVec 3) (a : BitVec 5) (b : BitVec 5) (m : BitVec 3)
  /-- ADDSH: x[a] + (x[b] << m). (R127) -/
  | addsh (y : BitVec 3) (d : BitVec 5) (a : BitVec 5) (b : BitVec 5) (s : BitVec 3)
  /-- JALR: Jump to the line in x[a] and write the link. (R140) -/
  | jalr (y : BitVec 3) (d : BitVec 5) (a : BitVec 5)
  /-- TBR: Read TIMEBASE. (R150) -/
  | tbr (y : BitVec 3) (d : BitVec 5)
  /-- SCHT: Read the task's SCHEDTIME. (R151) -/
  | scht (y : BitVec 3) (d : BitVec 5)
  /-- PWAIT: Hold the X stream until a probe slot is not FILLING, then raise its cause if FAILED. (R169) -/
  | pwait (y : BitVec 3) (a : BitVec 5)
  /-- PUNPIN: Decrement a probe slot's pin count. (R169) -/
  | punpin (y : BitVec 3) (a : BitVec 5)
  /-- PINV: Invalidate or doom the probe slot matching a DVA. (R169) -/
  | pinv (y : BitVec 3) (a : BitVec 5)
  /-- PINV_ALL: Invalidate or doom every probe slot. (R169) -/
  | pinvAll (y : BitVec 3)
  /-- END: End fetch for the context. (R143) -/
  | endc (y : BitVec 3)
  /-- ERET: Restore the trap frame and resume at the saved point. (R402) -/
  | eret (y : BitVec 3)
  /-- ADDI: Add a sign-extended immediate. (R128) -/
  | addi (y : BitVec 3) (d : BitVec 5) (a : BitVec 5) (i : BitVec 8)
  /-- ANDI: AND with a sign-extended immediate. (R128) -/
  | andi (y : BitVec 3) (d : BitVec 5) (a : BitVec 5) (i : BitVec 8)
  /-- ORI: OR with a sign-extended immediate. (R128) -/
  | ori (y : BitVec 3) (d : BitVec 5) (a : BitVec 5) (i : BitVec 8)
  /-- XORI: XOR with a sign-extended immediate. (R128) -/
  | xori (y : BitVec 3) (d : BitVec 5) (a : BitVec 5) (i : BitVec 8)
  /-- SLLI: Shift left by an immediate. (R128) -/
  | slli (y : BitVec 3) (d : BitVec 5) (a : BitVec 5) (s : BitVec 6)
  /-- SRLI: Logical shift right by an immediate. (R128) -/
  | srli (y : BitVec 3) (d : BitVec 5) (a : BitVec 5) (s : BitVec 6)
  /-- SRAI: Arithmetic shift right by an immediate. (R128) -/
  | srai (y : BitVec 3) (d : BitVec 5) (a : BitVec 5) (s : BitVec 6)
  /-- CMPI: Signed compare with an immediate into a predicate. (R131) -/
  | cmpi (y : BitVec 3) (c : BitVec 2) (k : BitVec 3) (a : BitVec 5) (i : BitVec 8)
  /-- CMPUI: Unsigned compare with an immediate into a predicate. (R131) -/
  | cmpui (y : BitVec 3) (c : BitVec 2) (k : BitVec 3) (a : BitVec 5) (i : BitVec 8)
  /-- DLY: Hold the X stream for k clk. (R142) -/
  | dly (y : BitVec 3) (a : BitVec 5) (i : BitVec 8)
  /-- TRAP: Raise a TRAP-class cause with TVAL := x[a]. (R144) -/
  | trap (y : BitVec 3) (a : BitVec 5) (c : BitVec 6)
  /-- YIELD: Mark a yield point, and stop if a pre-emption is pending. (R146) -/
  | yield (y : BitVec 3)
  /-- MOVW: Load a sign-extended 32-bit immediate. (R134) -/
  | movw (y : BitVec 3) (d : BitVec 5) (i : BitVec 32)
  /-- MOVHW: Set the high word from an immediate and the low word from x[a]. (R134) -/
  | movhw (y : BitVec 3) (d : BitVec 5) (a : BitVec 5) (i : BitVec 32)
  /-- ADDW: Add a sign-extended 32-bit immediate. (R134) -/
  | addw (y : BitVec 3) (d : BitVec 5) (a : BitVec 5) (i : BitVec 32)
  /-- BFXU: Extract an unsigned bit field. (R136) -/
  | bfxu (y : BitVec 3) (d : BitVec 5) (a : BitVec 5) (xs : BitVec 5) (xr : BitVec 1) (len : BitVec 7) (im : BitVec 6)
  /-- BFXS: Extract a signed bit field. (R136) -/
  | bfxs (y : BitVec 3) (d : BitVec 5) (a : BitVec 5) (xs : BitVec 5) (xr : BitVec 1) (len : BitVec 7) (im : BitVec 6)
  /-- BFI: Insert a bit field. (R137) -/
  | bfi (y : BitVec 3) (d : BitVec 5) (a : BitVec 5) (xs : BitVec 5) (xr : BitVec 1) (len : BitVec 7) (im : BitVec 6)
  /-- FSHL: Funnel shift left. (R138) -/
  | fshl (y : BitVec 3) (d : BitVec 5) (a : BitVec 5) (b : BitVec 5) (xs : BitVec 5) (xr : BitVec 1) (len : BitVec 7) (im : BitVec 6)
  /-- FSHR: Funnel shift right. (R138) -/
  | fshr (y : BitVec 3) (d : BitVec 5) (a : BitVec 5) (b : BitVec 5) (xs : BitVec 5) (xr : BitVec 1) (len : BitVec 7) (im : BitVec 6)
  /-- SRD: Read a system register. (R147) -/
  | srd (y : BitVec 3) (d : BitVec 5) (n : BitVec 12)
  /-- SWR: Write a system register. (R147) -/
  | swr (y : BitVec 3) (a : BitVec 5) (n : BitVec 12)
  /-- JAL: Jump to an absolute line and write the link. (R140) -/
  | jal (y : BitVec 3) (d : BitVec 5) (t : BitVec 13)
  /-- LOOPM: Start a modulo-scheduled loop on the sequencer. (R141) -/
  | loopm (y : BitVec 3) (a : BitVec 5) (n : BitVec 7) (ii : BitVec 7)
  /-- PROBE: Look up the probe table, queueing a fill on a miss, and branch unless HIT. (R167) -/
  | probe (y : BitVec 3) (d : BitVec 5) (a : BitVec 5) (t : BitVec 13)
  /-- BR: Relative branch on a predicate. (R139) -/
  | br (y : BitVec 3) (c : BitVec 3) (g : BitVec 1) (o : BitVec 14)
  /-- VLD: Load a vector register from contiguous rows. (R241) -/
  | vld (h : Hdr) (d : BitVec 5) (a : BitVec 5) (k : BitVec 1) (e : BitVec 1)
  /-- VLDC: Load a vector register by columns. (R241) -/
  | vldc (h : Hdr) (d : BitVec 5) (a : BitVec 5) (b : BitVec 5) (k : BitVec 1) (e : BitVec 1)
  /-- VLDS: Load a vector register with a row stride. (R241) -/
  | vlds (h : Hdr) (d : BitVec 5) (a : BitVec 5) (b : BitVec 5) (k : BitVec 1) (e : BitVec 1)
  /-- VLDB: Broadcast-load a row or an element. (R241) -/
  | vldb (h : Hdr) (d : BitVec 5) (a : BitVec 5) (k : BitVec 1) (t : BitVec 1) (e : BitVec 1)
  /-- VLDG: Gather-load by element indices. (R241) -/
  | vldg (h : Hdr) (d : BitVec 5) (a : BitVec 5) (b : BitVec 5) (k : BitVec 1) (e : BitVec 1)
  /-- VLDM: Load a mask register. (R241) -/
  | vldm (h : Hdr) (d : BitVec 5) (a : BitVec 5)
  /-- VST: Store a vector register as contiguous rows. (R241) -/
  | vst (h : Hdr) (d : BitVec 5) (a : BitVec 5) (k : BitVec 1) (e : BitVec 1)
  /-- VSTC: Store a vector register by columns. (R241) -/
  | vstc (h : Hdr) (d : BitVec 5) (a : BitVec 5) (b : BitVec 5) (k : BitVec 1) (e : BitVec 1)
  /-- VSTS: Store a vector register with a row stride. (R241) -/
  | vsts (h : Hdr) (d : BitVec 5) (a : BitVec 5) (b : BitVec 5) (k : BitVec 1) (e : BitVec 1)
  /-- VSTX: Scatter-store by element indices. (R241) -/
  | vstx (h : Hdr) (d : BitVec 5) (a : BitVec 5) (b : BitVec 5) (k : BitVec 1) (e : BitVec 1)
  /-- VSTM: Store a mask register. (R241) -/
  | vstm (h : Hdr) (d : BitVec 5) (a : BitVec 5)
  /-- TMOV: Move engine-owned scratchpad tiles on the cluster copy engine. (R164) -/
  | tmov (h : Hdr) (d : BitVec 5) (a : BitVec 5) (b : BitVec 5) (t : BitVec 1)
  /-- OWN_E: Hand tiles from the core to the engine. (R163) -/
  | ownE (h : Hdr) (a : BitVec 5) (b : BitVec 5) (t : BitVec 1)
  /-- OWN_C: Hand tiles back to the core after earlier engine commands complete. (R163) -/
  | ownC (h : Hdr) (a : BitVec 5) (b : BitVec 5) (t : BitVec 1)
  /-- FENCE: Wait until earlier accesses and commands are performed within a scope. (R389) -/
  | fence (h : Hdr) (s : BitVec 3)
  /-- RCLAIM: Claim the next free ring slot and return its address. (R360) -/
  | rclaim (h : Hdr) (d : BitVec 5) (b : BitVec 5) (u : BitVec 1)
  /-- RCOMMIT: Commit n claimed ring slots. (R360) -/
  | rcommit (h : Hdr) (a : BitVec 5) (b : BitVec 5) (u : BitVec 1)
  /-- RWAITF: Wait until a ring holds n filled slots. (R360) -/
  | rwaitf (h : Hdr) (a : BitVec 5) (b : BitVec 5) (u : BitVec 1)
  /-- RWAITE: Wait until a ring has n free slots. (R360) -/
  | rwaite (h : Hdr) (a : BitVec 5) (b : BitVec 5) (u : BitVec 1)
  /-- RPOP: Pop n filled ring slots. (R360) -/
  | rpop (h : Hdr) (a : BitVec 5) (b : BitVec 5) (u : BitVec 1)
  /-- RPEEK: Return the address of filled slot i of a ring. (R360) -/
  | rpeek (h : Hdr) (d : BitVec 5) (a : BitVec 5) (b : BitVec 5) (u : BitVec 1)
  /-- BARA: Arrive at a named barrier, returning its generation. (R365) -/
  | bara (h : Hdr) (d : BitVec 5) (a : BitVec 5) (g : BitVec 1)
  /-- BARW: Wait until a named barrier's generation differs from x[b]. (R365) -/
  | barw (h : Hdr) (a : BitVec 5) (b : BitVec 5)
  /-- PBARA: Arrive at a package barrier. (R368) -/
  | pbara (h : Hdr) (a : BitVec 5)
  /-- PBARW: Wait for release of the package barrier phase last joined. (R368) -/
  | pbarw (h : Hdr) (a : BitVec 5)
  /-- SEMW: Wait on a die semaphore and subtract the amount. (R369) -/
  | semw (h : Hdr) (a : BitVec 5) (b : BitVec 5)
  /-- SEMS: Increment a local or remote die semaphore. (R369) -/
  | sems (h : Hdr) (a : BitVec 5) (b : BitVec 5) (g : BitVec 1)
  /-- SEND: Send an active message to a core of the task. (R371) -/
  | send (h : Hdr) (a : BitVec 5) (b : BitVec 5)
  /-- CWWAIT_SENT: Wait until a put counter reaches a threshold. (R302) -/
  | cwwaitSent (h : Hdr) (a : BitVec 5) (b : BitVec 5)
  /-- CWWAIT_ARR: Wait until a local window's arrival counter reaches a threshold. (R302) -/
  | cwwaitArr (h : Hdr) (a : BitVec 5) (b : BitVec 5)
  /-- PBINV: Remove the part's parameter-block cache entry for an address. (R284) -/
  | pbinv (h : Hdr) (a : BitVec 5)
  /-- PBINV_ALL: Remove every parameter-block cache entry of the part. (R284) -/
  | pbinvAll (h : Hdr)
  /-- LDB: Load a sign-extended byte. (R153) -/
  | ldb (h : Hdr) (d : BitVec 5) (a : BitVec 5) (i : BitVec 8)
  /-- LDBU: Load a zero-extended byte. (R153) -/
  | ldbu (h : Hdr) (d : BitVec 5) (a : BitVec 5) (i : BitVec 8)
  /-- LDH: Load a sign-extended half-word. (R153) -/
  | ldh (h : Hdr) (d : BitVec 5) (a : BitVec 5) (i : BitVec 8)
  /-- LDHU: Load a zero-extended half-word. (R153) -/
  | ldhu (h : Hdr) (d : BitVec 5) (a : BitVec 5) (i : BitVec 8)
  /-- LDW: Load a sign-extended word. (R153) -/
  | ldw (h : Hdr) (d : BitVec 5) (a : BitVec 5) (i : BitVec 8)
  /-- LDWU: Load a zero-extended word. (R153) -/
  | ldwu (h : Hdr) (d : BitVec 5) (a : BitVec 5) (i : BitVec 8)
  /-- LDD: Load a double word. (R153) -/
  | ldd (h : Hdr) (d : BitVec 5) (a : BitVec 5) (i : BitVec 8)
  /-- STB: Store a byte. (R153) -/
  | stb (h : Hdr) (d : BitVec 5) (a : BitVec 5) (i : BitVec 8)
  /-- STH: Store a half-word. (R153) -/
  | sth (h : Hdr) (d : BitVec 5) (a : BitVec 5) (i : BitVec 8)
  /-- STW: Store a word. (R153) -/
  | stw (h : Hdr) (d : BitVec 5) (a : BitVec 5) (i : BitVec 8)
  /-- STD: Store a double word. (R153) -/
  | std (h : Hdr) (d : BitVec 5) (a : BitVec 5) (i : BitVec 8)
  /-- BARI: Set a named barrier's expected count. (R365) -/
  | bari (h : Hdr) (a : BitVec 5) (i : BitVec 8)
  /-- CPY: Copy a strided pattern between scratchpad and device memory. (R290) -/
  | cpy (h : Hdr) (a : BitVec 5) (x : CExt)
  /-- CPYT: Enter a copy into the timetable buffer to issue at a SCHEDTIME. (R291) -/
  | cpyt (h : Hdr) (a : BitVec 5) (b : BitVec 5) (x : CExt)
  /-- CACC: Accumulate source elements into destination elements at the port. (R293) -/
  | cacc (h : Hdr) (a : BitVec 5) (x : CExt) (op : BitVec 3) (ty : BitVec 2)
  /-- CACCF: Accumulate at the port and return the old values. (R293) -/
  | caccf (h : Hdr) (a : BitVec 5) (x : CExt) (op : BitVec 3) (ty : BitVec 2)
  /-- CSWP: Atomically swap one element. (R294) -/
  | cswp (h : Hdr) (d : BitVec 5) (a : BitVec 5) (b : BitVec 5) (x : CExt) (sz : BitVec 1) (sp : BitVec 1)
  /-- CCAS: Atomically compare and swap one element. (R294) -/
  | ccas (h : Hdr) (d : BitVec 5) (a : BitVec 5) (b : BitVec 5) (x : CExt) (sz : BitVec 1) (sp : BitVec 1)
  /-- CPSM: Copy a sparsity position set into the matrix side memory. (R297) -/
  | cpsm (h : Hdr) (a : BitVec 5) (x : CExt) (set : BitVec 5)
  /-- CWALK: Walk compressed-sparse-row rows into two rings. (R298) -/
  | cwalk (h : Hdr) (a : BitVec 5) (b : BitVec 5) (x : CExt) (qi : BitVec 6) (qv : BitVec 6) (vsz : BitVec 2)
  /-- CGATH: Gather rows by index. (R299) -/
  | cgath (h : Hdr) (a : BitVec 5) (x : CExt)
  /-- CSCAT: Scatter rows by index. (R299) -/
  | cscat (h : Hdr) (a : BitVec 5) (x : CExt)
  /-- CPUT: Put a pattern into a local or peer window. (R301) -/
  | cput (h : Hdr) (a : BitVec 5) (x : CExt) (pc : BitVec 6)
  /-- HSCAN: Scan a region on one stack for elements above a threshold. (R351) -/
  | hscan (h : Hdr) (a : BitVec 5) (x : CExt)
  /-- HGATH: Gather device rows by index on a stack engine. (R352) -/
  | hgath (h : Hdr) (a : BitVec 5) (x : CExt)
  /-- HRED: Reduce N device regions elementwise. (R352) -/
  | hred (h : Hdr) (a : BitVec 5) (x : CExt)
  /-- HCVT: Quantise to or dequantise from SDBs in device memory. (R353) -/
  | hcvt (h : Hdr) (a : BitVec 5) (x : CExt)
  /-- VADD: Floating-point add. (R216) -/
  | vadd (h : Hdr) (d : BitVec 5) (a : BitVec 5) (b : BitVec 5) (k : BitVec 1) (f : BitVec 2)
  /-- VSUB: Floating-point subtract. (R216) -/
  | vsub (h : Hdr) (d : BitVec 5) (a : BitVec 5) (b : BitVec 5) (k : BitVec 1) (f : BitVec 2)
  /-- VMUL: Floating-point multiply. (R216) -/
  | vmul (h : Hdr) (d : BitVec 5) (a : BitVec 5) (b : BitVec 5) (k : BitVec 1) (f : BitVec 2)
  /-- VFMA: Fused multiply-add a·b + d. (R216) -/
  | vfma (h : Hdr) (d : BitVec 5) (a : BitVec 5) (b : BitVec 5) (k : BitVec 1) (f : BitVec 2)
  /-- VFMS: Fused d − a·b. (R216) -/
  | vfms (h : Hdr) (d : BitVec 5) (a : BitVec 5) (b : BitVec 5) (k : BitVec 1) (f : BitVec 2)
  /-- VMIN: Floating-point minimum. (R216) -/
  | vmin (h : Hdr) (d : BitVec 5) (a : BitVec 5) (b : BitVec 5) (k : BitVec 1) (f : BitVec 2)
  /-- VMAX: Floating-point maximum. (R216) -/
  | vmax (h : Hdr) (d : BitVec 5) (a : BitVec 5) (b : BitVec 5) (k : BitVec 1) (f : BitVec 2)
  /-- VABS: Clear the sign, with a repeat count. (R216) -/
  | vabs (h : Hdr) (d : BitVec 5) (a : BitVec 5) (r : BitVec 3) (k : BitVec 1) (f : BitVec 2)
  /-- VNEG: Invert the sign, with a repeat count. (R216) -/
  | vneg (h : Hdr) (d : BitVec 5) (a : BitVec 5) (r : BitVec 3) (k : BitVec 1) (f : BitVec 2)
  /-- VCLAMP: Clamp between v[b] and v[b+1]. (R216) -/
  | vclamp (h : Hdr) (d : BitVec 5) (a : BitVec 5) (b : BitVec 5) (k : BitVec 1) (f : BitVec 2)
  /-- VCMP: Floating-point compare into a mask. (R221) -/
  | vcmp (h : Hdr) (f : BitVec 2) (v : BitVec 3) (a : BitVec 5) (b : BitVec 5) (c : BitVec 3)
  /-- VSEL: Select elements by a mask. (R222) -/
  | vsel (h : Hdr) (d : BitVec 5) (a : BitVec 5) (b : BitVec 5) (s : BitVec 3)
  /-- VCVT: Convert elements between plain formats. (R224) -/
  | vcvt (h : Hdr) (d : BitVec 5) (a : BitVec 5) (c : BitVec 5) (k : BitVec 1) (m : BitVec 2)
  /-- VQNT: Rotate and quantise scratchpad elements into SDBs. (R227) -/
  | vqnt (h : Hdr) (a : BitVec 5) (b : BitVec 5) (f : BitVec 3)
  /-- VDQNT: Dequantise SDBs into scratchpad elements. (R228) -/
  | vdqnt (h : Hdr) (a : BitVec 5) (b : BitVec 5) (f : BitVec 2)
  /-- VPERM: Permute elements by an index register. (R238) -/
  | vperm (h : Hdr) (d : BitVec 5) (a : BitVec 5) (b : BitVec 5) (k : BitVec 1) (o : BitVec 2)
  /-- VIADD: Integer add. (R218) -/
  | viadd (h : Hdr) (d : BitVec 5) (a : BitVec 5) (b : BitVec 5) (k : BitVec 1) (t : BitVec 2)
  /-- VISUB: Integer subtract. (R218) -/
  | visub (h : Hdr) (d : BitVec 5) (a : BitVec 5) (b : BitVec 5) (k : BitVec 1) (t : BitVec 2)
  /-- VIMUL: Integer multiply. (R218) -/
  | vimul (h : Hdr) (d : BitVec 5) (a : BitVec 5) (b : BitVec 5) (k : BitVec 1) (t : BitVec 2)
  /-- VIMAC8: Widening INT8 multiply-accumulate into four registers. (R219) -/
  | vimac8 (h : Hdr) (d : BitVec 5) (a : BitVec 5) (b : BitVec 5) (k : BitVec 1) (s : BitVec 1) (u : BitVec 1)
  /-- VIMIN: Integer minimum. (R218) -/
  | vimin (h : Hdr) (d : BitVec 5) (a : BitVec 5) (b : BitVec 5) (k : BitVec 1) (t : BitVec 2)
  /-- VIMAX: Integer maximum. (R218) -/
  | vimax (h : Hdr) (d : BitVec 5) (a : BitVec 5) (b : BitVec 5) (k : BitVec 1) (t : BitVec 2)
  /-- VICLAMP: Integer clamp. (R218) -/
  | viclamp (h : Hdr) (d : BitVec 5) (a : BitVec 5) (b : BitVec 5) (k : BitVec 1) (t : BitVec 2)
  /-- VICMP: Integer compare into a mask. (R221) -/
  | vicmp (h : Hdr) (t : BitVec 2) (v : BitVec 3) (a : BitVec 5) (b : BitVec 5) (c : BitVec 3)
  /-- VAND: Bitwise AND. (R218) -/
  | vand (h : Hdr) (d : BitVec 5) (a : BitVec 5) (b : BitVec 5) (k : BitVec 1)
  /-- VOR: Bitwise OR. (R218) -/
  | vor (h : Hdr) (d : BitVec 5) (a : BitVec 5) (b : BitVec 5) (k : BitVec 1)
  /-- VXOR: Bitwise XOR. (R218) -/
  | vxor (h : Hdr) (d : BitVec 5) (a : BitVec 5) (b : BitVec 5) (k : BitVec 1)
  /-- VSHL: Shift left. (R218) -/
  | vshl (h : Hdr) (d : BitVec 5) (a : BitVec 5) (b : BitVec 5) (k : BitVec 1) (s : BitVec 2)
  /-- VSHR: Logical shift right. (R218) -/
  | vshr (h : Hdr) (d : BitVec 5) (a : BitVec 5) (b : BitVec 5) (k : BitVec 1) (s : BitVec 2)
  /-- VSRA: Arithmetic shift right. (R218) -/
  | vsra (h : Hdr) (d : BitVec 5) (a : BitVec 5) (b : BitVec 5) (k : BitVec 1) (s : BitVec 2)
  /-- VRSHR: Rounding shift with saturation. (R220) -/
  | vrshr (h : Hdr) (d : BitVec 5) (a : BitVec 5) (b : BitVec 5) (k : BitVec 1) (r : BitVec 2)
  /-- VMOV: Copy vector registers, with a repeat count. (R223) -/
  | vmov (h : Hdr) (d : BitVec 5) (a : BitVec 5) (r : BitVec 3) (k : BitVec 1)
  /-- VEXP2: Elementwise 2^a. (R230) -/
  | vexp2 (h : Hdr) (d : BitVec 5) (a : BitVec 5) (r : BitVec 3) (k : BitVec 1) (f : BitVec 2)
  /-- VLOG2: Elementwise log2. (R230) -/
  | vlog2 (h : Hdr) (d : BitVec 5) (a : BitVec 5) (r : BitVec 3) (k : BitVec 1) (f : BitVec 2)
  /-- VEXP: Elementwise e^a. (R230) -/
  | vexp (h : Hdr) (d : BitVec 5) (a : BitVec 5) (r : BitVec 3) (k : BitVec 1) (f : BitVec 2)
  /-- VLOG: Elementwise natural log. (R230) -/
  | vlog (h : Hdr) (d : BitVec 5) (a : BitVec 5) (r : BitVec 3) (k : BitVec 1) (f : BitVec 2)
  /-- VRSQRT: Elementwise reciprocal square root. (R230) -/
  | vrsqrt (h : Hdr) (d : BitVec 5) (a : BitVec 5) (r : BitVec 3) (k : BitVec 1) (f : BitVec 2)
  /-- VRCP: Elementwise reciprocal. (R230) -/
  | vrcp (h : Hdr) (d : BitVec 5) (a : BitVec 5) (r : BitVec 3) (k : BitVec 1) (f : BitVec 2)
  /-- VSQRT: Elementwise square root. (R230) -/
  | vsqrt (h : Hdr) (d : BitVec 5) (a : BitVec 5) (r : BitVec 3) (k : BitVec 1) (f : BitVec 2)
  /-- VTANH: Elementwise tanh. (R230) -/
  | vtanh (h : Hdr) (d : BitVec 5) (a : BitVec 5) (r : BitVec 3) (k : BitVec 1) (f : BitVec 2)
  /-- VSIGM: Elementwise sigmoid. (R230) -/
  | vsigm (h : Hdr) (d : BitVec 5) (a : BitVec 5) (r : BitVec 3) (k : BitVec 1) (f : BitVec 2)
  /-- VROTR: Rotate along rows. (R235) -/
  | vrotr (h : Hdr) (d : BitVec 5) (a : BitVec 5) (k : BitVec 1) (s : BitVec 6)
  /-- VROTC: Rotate along columns. (R235) -/
  | vrotc (h : Hdr) (d : BitVec 5) (a : BitVec 5) (k : BitVec 1) (s : BitVec 4)
  /-- VBCR: Broadcast a column along each row. (R235) -/
  | vbcr (h : Hdr) (d : BitVec 5) (a : BitVec 5) (k : BitVec 1) (s : BitVec 6)
  /-- VBCC: Broadcast a row along each column. (R235) -/
  | vbcc (h : Hdr) (d : BitVec 5) (a : BitVec 5) (k : BitVec 1) (s : BitVec 4)
  /-- VREDR: Reduce each row. (R236) -/
  | vredr (h : Hdr) (d : BitVec 5) (a : BitVec 5) (c : BitVec 1) (t : BitVec 2) (o : BitVec 2)
  /-- VREDC: Reduce each column. (R236) -/
  | vredc (h : Hdr) (d : BitVec 5) (a : BitVec 5) (c : BitVec 1) (t : BitVec 2) (o : BitVec 2)
  /-- VMAND: Mask AND. (R222) -/
  | vmand (h : Hdr) (d : BitVec 5) (a : BitVec 5) (b : BitVec 3)
  /-- VMOR: Mask OR. (R222) -/
  | vmor (h : Hdr) (d : BitVec 5) (a : BitVec 5) (b : BitVec 3)
  /-- VMXOR: Mask XOR. (R222) -/
  | vmxor (h : Hdr) (d : BitVec 5) (a : BitVec 5) (b : BitVec 3)
  /-- VMANDN: Mask AND NOT. (R222) -/
  | vmandn (h : Hdr) (d : BitVec 5) (a : BitVec 5) (b : BitVec 3)
  /-- VMNOT: Mask NOT. (R222) -/
  | vmnot (h : Hdr) (d : BitVec 5) (a : BitVec 5)
  /-- VMOVI: Write an immediate to every element. (R223) -/
  | vmovi (h : Hdr) (d : BitVec 5) (k : BitVec 1) (i : BitVec 32)
  /-- VMOVX: Write x[a] to selected elements. (R223) -/
  | vmovx (h : Hdr) (d : BitVec 5) (a : BitVec 5) (k : BitVec 1) (row : BitVec 4) (col : BitVec 6) (mode : BitVec 2)
  /-- MGO: Validate the shadow set and start a dense nest. (R265) -/
  | mgo (h : Hdr)
  /-- MPASS: Perform one dense pass. (R266) -/
  | mpass (h : Hdr) (a : BitVec 5) (b : BitVec 5)
  /-- MWAIT: Wait for the nest, or for all engine work, to finish. (R267) -/
  | mwait (h : Hdr) (e : BitVec 1)
  /-- MZERO: Zero accumulator tiles. (R268) -/
  | mzero (h : Hdr) (a : BitVec 5)
  /-- MDRAIN: Write an accumulator tile to scratchpad. (R269) -/
  | mdrain (h : Hdr) (a : BitVec 5) (b : BitVec 5) (c : BitVec 1) (f : BitVec 2)
  /-- MDRAINQ: Quantise accumulator rows into SDBs through the straddle stream. (R272) -/
  | mdrainq (h : Hdr) (d : BitVec 5) (a : BitVec 5) (b : BitVec 5) (f : BitVec 3)
  /-- MSTREAM: Stream a tile into a pontoon engine port. (R270) -/
  | mstream (h : Hdr) (b : BitVec 5)
  /-- MACCLD: Load an accumulator tile from scratchpad. (R269) -/
  | maccld (h : Hdr) (a : BitVec 5) (b : BitVec 5) (c : BitVec 1) (f : BitVec 2)
  /-- MSTAT: Read matrix status, optionally clearing the flags. (R273) -/
  | mstat (h : Hdr) (d : BitVec 5) (a : BitVec 5) (c : BitVec 1) (s : BitVec 2)
  /-- MSPASS: Perform one sparse pass. (R266) -/
  | mspass (h : Hdr) (a : BitVec 5) (b : BitVec 5)
  /-- MSGO: Validate the shadow set and start a sparse nest. (R265) -/
  | msgo (h : Hdr)
  /-- MCFG: Write half of a shadow nest register. (R264) -/
  | mcfg (h : Hdr) (d : BitVec 5) (half : BitVec 1) (i : BitVec 32)
  /-- MCFGR: Write one or two shadow nest registers from x registers. (R264) -/
  | mcfgr (h : Hdr) (d : BitVec 5) (a : BitVec 5) (b : BitVec 5) (r2 : BitVec 5) (pair : BitVec 1)
  /-- FBIND: Bind a stream or engine port. (R329) -/
  | fbind (y : BitVec 3) (d : BitVec 5) (a : BitVec 5) (h : BitVec 1) (k : BitVec 2)
  /-- FUNBIND: Remove a port binding. (R330) -/
  | funbind (y : BitVec 3) (d : BitVec 5)
  /-- FSTART: Arm the fabric to start at time T. (R326) -/
  | fstart (y : BitVec 3) (a : BitVec 5)
  /-- FPHASE: Wait for the fabric phase to complete and return FST0. (R327) -/
  | fphase (y : BitVec 3) (d : BitVec 5)
  /-- FSTOP: Set the fabric stop time. (R326) -/
  | fstop (y : BitVec 3) (a : BitVec 5)
  /-- FHND: Name or release the die's fabric handler ring. (R331) -/
  | fhnd (y : BitVec 3) (a : BitVec 5)
  /-- FINJ: Write a repaired row over a sink hole. (R332) -/
  | finj (y : BitVec 3) (a : BitVec 5) (b : BitVec 5)
  /-- FSTAT: Read a fabric status register. (R328) -/
  | fstat (y : BitVec 3) (d : BitVec 5) (s : BitVec 3)
  /-- FLOAD: Load a fabric image into the task's pontoons. (R325) -/
  | fload (y : BitVec 3) (a : BitVec 5) (i : BitVec 32)
  /-- RESET: Reset is released and bring-up begins: the boot ROM verifies firmware and every MIXn is checked against the signed mix record. (R20) -/
  | reset
  /-- LINK_TRAINING_DONE: A link finishes UCIe training and the capability exchange; it sets IFV or is marked down, and this may fence a die or fail bring-up. (R20) For: a the pos, b the m, f the up, c the ifv, d the spare. -/
  | linkTrainingDone
  /-- ZERO_FILL_DONE: The buffer dies finish writing zero stripes to every stack, so every stripe is parity-consistent. (R20) -/
  | zeroFillDone
  /-- CLUSTER_POWER_UP: The next cluster leaves gating 2 us after the previous one; after the last, graph queues open and BOOTST reads 6. (R20) -/
  | clusterPowerUp
  /-- DIE_FENCE: Purser firmware moves a die's HEALTH from live to fenced. (R19) For: a the pos. -/
  | dieFence
  /-- DIE_FAILURE: A die fails and its HEALTH becomes lost until reset, ending the tasks that use it with DIE_LOST. (R19) For: a the pos. -/
  | dieFailure
  /-- GQDB_DOORBELL: A write to GQDB adds ADD to PEND, or is ignored and sets BADDB or OVF. (R47) For: a the q, v the val, f the whole. -/
  | gqdbDoorbell
  /-- GRAPH_START: A Ferrymaster with fewer than 32 live graphs starts the entry at HEAD of a queue with PEND > 0, or completes a malformed entry with FAULT. (R48) For: a the q. -/
  | graphStart
  /-- TASK_NODE: A ready TASK node reads its launch record and context block and submits a placement request. (R26) For: a the g, b the n. -/
  | taskNode
  /-- COND_NODE: A COND node reads its predicate word and makes NEXTA or NEXTB ready. (R27) For: a the g, b the n. -/
  | condNode
  /-- LOOP_NODE: A LOOP node updates its counter and makes either the back edge or the exit ready. (R28) For: a the g, b the n. -/
  | loopNode
  /-- WAIT_NODE: A WAIT node completes once its graph semaphore is at least VALUE, subtracting VALUE indivisibly. (R29) For: a the g, b the n. -/
  | waitNode
  /-- SIGNAL_NODE: A SIGNAL node adds VALUE to its graph semaphore, or raises SEM_OVERFLOW. (R29) For: a the g, b the n. -/
  | signalNode
  /-- COPY_NODE: A COPY node runs its parameter block on a buffer-die copy complex chosen by the Ferrymaster. (R30) For: a the g, b the n. -/
  | copyNode
  /-- PROG_NODE: A PROG node starts a routine on a control core with its argument register set to ARG. (R30) For: a the g, b the n. -/
  | progNode
  /-- END_NODE: An END node ends its branch; the graph completes when its last live branch ends. (R25) For: a the g, b the n. -/
  | endNode
  /-- GRAPH_ABORT: An aborted graph fails its parked commands, lets accepted commands complete, then ends its tasks and completes with FAULT. (R289) For: a the g. -/
  | graphAbort
  /-- AGING_STEP: Time passing raises a waiting request's effective priority by one aging step. (R49) For: a the t. -/
  | agingStep
  /-- PLACER_PASS: The placer orders the waiting requests, places the first that fits, reserves units for the highest that does not, and requests pre-emption where allowed. (R50) -/
  | placerPass
  /-- TASK_START: At T0 SCHEDTIME starts from 0 and the slipways of all the task's dies begin. (R59) For: a the t. -/
  | taskStart
  /-- POWER_CLASS_APPLY: The purser applies a changed package power split within 10 us of the placer's report. (R67) For: f the memoryBound. -/
  | powerClassApply
  /-- CMD_NOP: A NOP command record issues once its await is met and completes at once. (R41) For: a the part. -/
  | cmdNop
  /-- CMD_COPY: A COPY command record issues once its await is met and runs its copy. (R41) For: a the part. -/
  | cmdCopy
  /-- CMD_ILOAD: An ILOAD command record issues once its await is met and begins loading lines into a core's instruction store. (R41) For: a the part. -/
  | cmdIload
  /-- CMD_ILOAD_DONE: An ILOAD's lines are in the instruction store, so the record completes and raises its semaphore. (R41) For: a the part, b the rec. -/
  | cmdIloadDone
  /-- CMD_START: A START command record issues once its await is met, and ctx0 of the core begins fetching at its stage's ENTRY. (R41) For: a the part. -/
  | cmdStart
  /-- SEM_INCREMENT_ARRIVAL: An increment reaches a die semaphore from a completion, a link token or a SEMS, and waiters are served in order. (R42) For: a the pos, b the idx, c the amount, d the task. -/
  | semIncrementArrival
  /-- TIDE_HOLD_REQUEST: A second replay, a lane repair or a retrain requests a hold of every task holding phases on the link; the lacking die stops. (R63) For: a the pos, b the m. -/
  | tideHoldRequest
  /-- TIDE_HOLD_REACH: The hold request reaches every die of the task at t + 40, and each die stops before H. (R63) For: a the t. -/
  | tideHoldReach
  /-- TIDE_HOLD_RESUME_NOTICE: The resume notice reaches the dies 40 ticks after the event is handled, and stopped dies advance to H. (R63) For: a the t. -/
  | tideHoldResumeNotice
  /-- TIDE_HOLD_RELEASE: At T_R every die issues H, and HOLDCNT and HOLDTK are updated. (R63) For: a the t. -/
  | tideHoldRelease
  /-- HOLD_EXPIRED: A hold would exceed HOLDLIM, so the task takes the LINK fault HOLD_EXPIRED and its reservations are released. (R64) For: a the t. -/
  | holdExpired
  /-- LINE_FETCH: A context fetches a line and decodes it whole, trapping on the first decoding fault. (R76) For: a the c. -/
  | lineFetch
  /-- LANE_ENQUEUE: An L, C, S or F lane enqueues once the lower X lanes have executed and its source registers are not pending. (R99) For: a the c. -/
  | laneEnqueue
  /-- INSTRUCTION_COMPLETE: An issued instruction writes its destinations or is performed, and posts its PP and PN tokens. (R103) For: a the c, q the q, f the toPrev, g the toNext. -/
  | instructionComplete
  /-- WAIT_SATISFIED: A waiting instruction's condition is met, so it completes and releases its queue. (R101) For: a the c, q the q. -/
  | waitSatisfied
  /-- MODULO_BODY_FETCH: The sequencer fetches and decodes one body line of a LOOPM into its buffer. (R119) For: a the c. -/
  | moduloBodyFetch
  /-- MODULO_STEP: One sequencer step takes effect for the unsquashed slots, oldest iteration first; the last step resumes fetch. (R120) For: a the c. -/
  | moduloStep
  /-- CONTEXT_END: A context that executed END ends once its queues are empty and its instructions have completed; a handler's receive entry is freed. (R116) For: a the c. -/
  | contextEnd
  /-- REGISTER_WRITE: A write to a register field with no behaviour of its own acts by its access code. (R3) For: a the port, b the off, c the width, v the val. -/
  | registerWrite
  /-- SPERR_CLEAR: An SWR with bit 0 set clears SPERR and SPADDR. (R161) For: a the c. -/
  | sperrClear
  /-- PRBCFG_WRITE: An SWR to PRBCFG is checked, then configures or releases the cluster's probe table and resets its slots and counters. (R170) For: a the c, v the val. -/
  | prbcfgWrite
  /-- QCFG_WRITE: An SWR to QCFGk is checked, then sets BASE and clears TAIL, FILL and CLM at every end. (R357) For: a the c, b the k, v the val. -/
  | qcfgWrite
  /-- MSGCFG_WRITE: An SWR to MSGCFG sets the receive-queue base and enable, or raises MSG_BUSY or MSG_FIELD. (R372) For: a the c, v the val. -/
  | msgcfgWrite
  /-- XFACT_RETRY: XFACT with ACT 1 walks a parked command again from its faulting page. (R179) For: a the pos, b the entry. -/
  | xfactRetry
  /-- XFACT_FAIL: XFACT with ACT 2 fails a parked command, which completes with error. (R179) For: a the pos, b the entry. -/
  | xfactFail
  /-- WIN_WRITE: A write to a window register sets its fields, is ignored while VALID, and zeroes ARR when VALID goes from 0 to 1. (R300) For: a the w, b the off, v the val. -/
  | winWrite
  /-- STKCTL_LOSE: Writing LOSE to STKCTL declares the stack lost. (R347) For: a the z. -/
  | stkctlLose
  /-- PCREQ_GO: Writing GO to PCREQ checks the request and gives BADREQ, DENIED or DEFER, or starts a ramp. (R433) For: a the cl, v the val. -/
  | pcreqGo
  /-- PQCTL_QREQ: QREQ moves an idle ACTIVE cluster to QUIESCING, or is refused with ERR. (R435) For: a the cl. -/
  | pqctlQreq
  /-- PQCTL_SAVE: SAVE copies a QUIESCED cluster's state to retention flops and moves it to SAVED. (R435) For: a the cl. -/
  | pqctlSave
  /-- PQCTL_GATE: GATE stops a SAVED cluster's clock and cuts its logic rail, moving it to GATED. (R435) For: a the cl. -/
  | pqctlGate
  /-- PQCTL_WAKE: WAKE returns a QUIESCED or SAVED cluster to ACTIVE, or starts WAKING from GATED. (R435) For: a the cl. -/
  | pqctlWake
  /-- PWRLIM_WRITE: A write to PWRLIM sets the module limit, or is ignored when it lies outside 3,000 to 4,400 W. (R431) For: v the val. -/
  | pwrlimWrite
  /-- THERM_CLEAR: Writing 1 to THERM bit 16 clears HOT and CRIT. (R436) For: a the pos. -/
  | thermClear
  /-- ALMCFG_WRITE: The first write after reset sets the alarm levels; later writes are ignored. (R438) For: v the val. -/
  | almcfgWrite
  /-- ATTEST_REQUEST: Writing 1 to 0x2068 asks the root of trust for a signed attestation report. (R437) -/
  | attestRequest
  /-- ATTEST_REPORT_DONE: The root of trust has written the 384-byte report and sets 0x2068 bit 1. (R437) -/
  | attestReportDone
  /-- PROBE_FILL_COMPLETE: A probe fill ends, and its slot becomes VALID or FAILED with the cause. (R172) For: a the cl, b the slot. -/
  | probeFillComplete
  /-- NEST_ACTIVATE: A queued nest configuration becomes active in the clk after the active nest's last pass retires. (R260) For: a the engine. -/
  | nestActivate
  /-- MATRIX_PASS_START: A pass whose tile, slots, fetch and rate conditions are met starts, makes its checks and schedules its pops. (R253) For: a the engine. -/
  | matrixPassStart
  /-- MATRIX_PASS_RETIRE: A pass writes its tile, performs its pops and triggers any nest drain. (R254) For: a the engine, b the op. -/
  | matrixPassRetire
  /-- MSTREAM_ROW_EMIT: Row m of an MSTREAM enters its engine port at SCHEDTIME s + 4 + m. (R270) For: a the engine, b the op. -/
  | mstreamRowEmit
  /-- COPY_COMPLETE: A copy-family command completes, posts its tokens and raises SEM. (R285) For: a the id. -/
  | copyComplete
  /-- COPY_ERROR_COMPLETE: A command that cannot finish completes with error at its reached offset and writes a fault-log entry. (R288) For: a the id. -/
  | copyErrorComplete
  /-- TIMETABLE_ISSUE: A timed copy issues from the timetable when SCHEDTIME reaches its time, counting SLIP while it waits. (R291) For: a the id. -/
  | timetableIssue
  /-- ACCUMULATE_APPLY: An accumulate, swap or compare-and-swap element is applied indivisibly at its destination port. (R295) For: a the id. -/
  | accumulateApply
  /-- CWALK_SLOT_FILL: A walk claims a free ring slot, fills it with entries and commits it. (R298) For: a the id. -/
  | cwalkSlotFill
  /-- PUT_ARRIVAL: A put reaches its target window and is written and counted in ARR, or completes with error PUT_WINDOW. (R301) For: a the id. -/
  | putArrival
  /-- PUT_ACK: A put's acknowledgement returns to the issuing engine, which increments PCNT and completes the put. (R301) For: a the id. -/
  | putAck
  /-- PONTOON_EXEC: A pontoon executes one slot in a SCHEDTIME clk, rotates the slot's file and emits its row. (R309) For: a the t, b the die, c the pon. -/
  | pontoonExec
  /-- CHAIN_FERRY_FLIT_ARRIVAL: A chain-ferry flit is delivered 20 clk after it leaves, to a pontoon input or a ring sink. (R12) For: a the t, b the qidx. -/
  | chainFerryFlitArrival
  /-- SOURCE_ROW_EMIT: A stream source emits its next row at a delivery-mask clk, or a HOLE with cause LATE. (R329) For: a the t, b the die, c the sp. -/
  | sourceRowEmit
  /-- SINK_ROW_WRITE: A scratchpad sink writes a received row; a hole raises PEND and queues a HOLE record. (R318) For: a the t, b the die, c the sp. -/
  | sinkRowWrite
  /-- ACCUMULATE_SINK_APPLY: An accumulate sink applies a row as a CACC add, or counts a hole in ENGHOLE. (R329) For: a the t, b the die, c the sp. -/
  | accumulateSinkApply
  /-- FABRIC_RECORD_DELIVER: A buffered fault or hole record is written into a free slot of the handler ring and committed. (R317) For: a the t. -/
  | fabricRecordDeliver
  /-- FABRIC_RUNNING: An ARMED fabric becomes RUNNING when SCHEDTIME reaches T. (R324) For: a the t. -/
  | fabricRunning
  /-- FABRIC_DRAIN: A RUNNING fabric becomes DRAIN when SCHEDTIME reaches the stop time. (R324) For: a the t. -/
  | fabricDrain
  /-- FABRIC_PHASE_COMPLETE: The phase completes once drained with PEND 0; the state becomes IDLE and waiting FPHASEs complete. (R327) For: a the t. -/
  | fabricPhaseComplete
  /-- FLOAD_COMPLETE: A fabric image load ends, in IDLE or with an error completion to NOIMG. (R325) For: a the t. -/
  | floadComplete
  /-- DEVICE_MEMORY_READ: The data owner serves a read of a data unit on a live stack. (R340) For: a the dpa, b the len. -/
  | deviceMemoryRead
  /-- STRIPE_WRITE_ACCEPT: The stripe owner accepts a write or reconstructed read of a stripe, one at a time. (R337) For: a the id. -/
  | stripeWriteAccept
  /-- PARTIAL_STRIPE_WRITE: The data owner reads the old bytes, writes the new ones and sends the delta. (R338) For: a the id. -/
  | partialStripeWrite
  /-- PARITY_DELTA_APPLY: The stripe owner XORs a received delta into the parity bytes. (R338) For: a the id. -/
  | parityDeltaApply
  /-- FULL_STRIPE_WRITE: The eleven data units and the parity are written without reads. (R339) For: a the id. -/
  | fullStripeWrite
  /-- RECONSTRUCTED_READ: A read is served as the XOR of the stripe's other eleven units. (R340) For: a the dpa, b the len. -/
  | reconstructedRead
  /-- REFRESH_CHECK_REPORT: A stack reports corrections made by its on-die checks during refresh, and they are added to STKECS. (R343) For: a the z, b the n. -/
  | refreshCheckReport
  /-- STACK_LOSS: A stack is declared lost, HEALTH becomes lost, STKST is set and the module enters degraded mode. (R344) For: a the z, b the cause. -/
  | stackLoss
  /-- STACK_ENGINE_START: A free stack engine takes the oldest queued H command of its stack. (R348) For: a the z. -/
  | stackEngineStart
  /-- H_COMMAND_COMPLETE: An H command completes, posts its tokens and raises SEM. (R350) For: a the id. -/
  | hCommandComplete
  /-- RING_UPDATE_ARRIVAL: A commit or pop sent from one end of a declared ring arrives at the other end and updates FILL. (R361) For: a the part, b the core, c the k. -/
  | ringUpdateArrival
  /-- BARRIER_ARRIVAL: A remote or deferred arrival reaches a named barrier, and the phase may complete. (R365) For: a the id. -/
  | barrierArrival
  /-- PBAR_RELEASE: A package barrier phase is released on every die 40 clk after its last arrival. (R368) For: a the t, b the j. -/
  | pbarRelease
  /-- MESSAGE_TAKE: An active message is taken into the lowest free receive entry and marked ready. (R372) For: a the id. -/
  | messageTake
  /-- HANDLER_START: A ready entry starts a handler in the lowest dormant context with x1, x2 and x3 set. (R372) For: a the part, b the core. -/
  | handlerStart
  /-- TRAP_ENTRY: Once the issued work has drained, the trap frame is saved, the trap registers are set and the handler line is fetched. (R399) For: a the c. -/
  | trapEntry
  /-- PREEMPT_NOTICE: A pre-emption notice reaches every die of a victim task. (R404) For: a the t. -/
  | preemptNotice
  /-- VICTIM_STOPPED: Every context of a victim has stopped, so the task is stopped and SCHEDTIME freezes. (R405) For: a the t. -/
  | victimStopped
  /-- PARTITION_EVICT: Once its writers complete, a stopped part's unit partition is copied to its save slot and freed. (R408) For: a the part, b the core. -/
  | partitionEvict
  /-- FORCED_STOP: A yield-bound count expires while a notice is pending, so the task is forcibly stopped with YIELD_BOUND. (R406) For: a the t. -/
  | forcedStop
  /-- TASK_RESUME: A stopped task is reloaded from its save slots and restarts at a phase-aligned tick. (R409) For: a the t. -/
  | taskResume
  /-- TASK_RERUN: A restartable task ended by HWERR, LINK, MEMERR or a forced stop has its snapshots restored and is placed again. (R414) For: a the t. -/
  | taskRerun
  /-- LINK_CRC_ERROR: A lane takes a CRC error, which may make a lane repair due. (R416) For: a the pos, b the m, c the lane. -/
  | linkCrcError
  /-- LANE_REPAIR_DONE: A lane repair moves a lane to a spare within 1,024 ticks, and the hold or the traffic pause ends. (R416) For: a the pos, b the m. -/
  | laneRepairDone
  /-- LINK_LOCK_LOST: A module loses lock or a lane fails with no spare, making a retrain due. (R417) For: a the pos, b the m. -/
  | linkLockLost
  /-- RETRAIN_TRY_END: A retrain try ends, in success that releases the holds or in failure. (R417) For: a the pos, b the m, f the ok. -/
  | retrainTryEnd
  /-- PART_RETIRE: A part retires once its contexts, commands, engine and fabric are all done. (R420) For: a the part. -/
  | partRetire
  /-- HOST_BAR2_WRITE: A host write through BAR2 writes device memory at HWIN + offset. (R425) For: a the port, b the off, bytes the data. -/
  | hostBar2Write
  /-- HOST_BAR2_READ: A host read through BAR2 reads device memory, or returns all ones where no memory lies. (R425) For: a the port, b the off, c the len. -/
  | hostBar2Read
  /-- SWITCH_TAKEOVER: On loss of SW0, SW1 takes the bell-tree, timebase, trust and placer roots. (R428) -/
  | switchTakeover
  /-- DVFS_VOLTAGE_RISE_DONE: The rail reports in range after a voltage rise, and the frequency change begins. (R433) For: a the cl. -/
  | dvfsVoltageRiseDone
  /-- DVFS_FREQ_SWITCH_DONE: The cluster clock resumes at its new frequency after the FIFO switch. (R433) For: a the cl. -/
  | dvfsFreqSwitchDone
  /-- DVFS_VOLTAGE_FALL_DONE: The voltage fall completes and the request reaches DONE. (R433) For: a the cl. -/
  | dvfsVoltageFallDone
  /-- PCSNAP_CAPTURE: Every 12,500 ticks the ACT and STALL counters are copied into PCSNAP and zeroed. (R434) -/
  | pcsnapCapture
  /-- QUIESCE_DONE: A QUIESCING cluster becomes QUIESCED when all its work has completed. (R435) For: a the cl. -/
  | quiesceDone
  /-- WAKE_DONE: A WAKING cluster has its rail and state restored and becomes ACTIVE. (R435) For: a the cl. -/
  | wakeDone
  /-- THERM_HOT: A die reaches 105 C, HOT is set, and the purser lowers its frequencies. (R436) For: a the pos, b the temp. -/
  | thermHot
  /-- THERM_CRIT: A die reaches 115 C: its clocks stop, it is fenced and its tasks fail with DIE_LOST. (R436) For: a the pos, b the temp. -/
  | thermCrit
  /-- ALARM_RAISE: A security source raises an alarm, and the actions up to its effective level are taken. (R438) For: a the source. -/
  | alarmRaise
  /-- TRANSLATION_WALK_DONE: A translation walk for a page of a copy, stack-engine or fill command ends, and the page is translated or the command is parked on the die's fault-pending list. (R179) For: a the id. -/
  | translationWalkDone
  /-- MATRIX_DRAIN_COMPLETE: A matrix-engine zero, load, drain, quantising drain or stream, including one triggered by a nest, finishes its last row. (R251) For: a the engine, b the op. -/
  | matrixDrainComplete
  /-- TILE_MOVE_COMPLETE: A TMOV writes its last byte, or an OWN.C finds every earlier engine command complete and hands its tiles back to the core, posting any completion token. (R163) For: a the id. -/
  | tileMoveComplete
  /-- PEER_LINK_DOWN: A peer link goes down, or comes back up, changing which puts can reach or acknowledge a peer package. (R301) For: a the port, b the link, f the up. -/
  | peerLinkDown
  /-- ENGINE_INTERNAL_ERROR: An engine or pontoon reports an internal error, raising ENGINE_UE against the task that uses it. (R395) For: a the t, b the pos, c the core. -/
  | engineInternalError
  deriving DecidableEq, Repr

end Sys2Proof
end

