-- ==== Sys2Proof/WellFormed.lean ====
section
/-! DEFINITION. The operand limits that are checked when a line is decoded (04_lines_and_encodings.md R74).
A word whose operands break one of them raises ILLEGAL_OPERAND. -/

namespace Sys2Proof

/-- The amount of a bit-field or funnel-shift form (R135): a literal has no register, a register no literal. -/
def amountOk (xs : BitVec 5) (xr : BitVec 1) (im : BitVec 6) : Bool :=
  if xr = 0 then xs == 0 else im == 0

/-- The length of a bit field is 1 to 64 (R135). -/
def fieldLenOk (len : BitVec 7) : Bool := 1 ≤ len.toNat && len.toNat ≤ 64

/-- The limits of LOOPM (R118, R141): n and II from 1 to 64 and at most four stages. -/
def loopOk (n ii : BitVec 7) : Bool :=
  1 ≤ n.toNat && n.toNat ≤ 64 && 1 ≤ ii.toNat && ii.toNat ≤ 64 && (n.toNat + ii.toNat - 1) / ii.toNat ≤ 4

/-- A field that names a mask register holds 0 to 7 (R213, R240). -/
def maskReg (d : BitVec 5) : Bool := d.toNat < 8

/-- The floating types are 0 F32, 1 BF16 and 2 FP16 (R213). -/
def floatType (f : BitVec 2) : Bool := f.toNat < 3

/-- A repeated form stays within the 32 vector registers (R213); REP holds the count less one. -/
def repOk (d a : BitVec 5) (r : BitVec 3) : Bool := d.toNat + r.toNat ≤ 31 && a.toNat + r.toNat ≤ 31

/-- The conversions of VCVT (R224): codes 0 to 12, the exact ones with no rounding mode. -/
def convOk (c : BitVec 5) (m : BitVec 2) : Bool :=
  c.toNat < 13 && (m == 0 || !(c.toNat == 2 || c.toNat == 3 || c.toNat == 9))

/-- The selection of VMOVX (R223). -/
def moveSelOk (row : BitVec 4) (col : BitVec 6) (mode : BitVec 2) : Bool :=
  match mode.toNat with
  | 0 => row == 0 && col == 0
  | 1 => col == 0
  | 2 => true
  | _ => false

/-- The second register of MCFGR (R264). -/
def pairOk (b r2 : BitVec 5) (pair : BitVec 1) : Bool :=
  if pair = 0 then b == 0 && r2 == 0 else r2.toNat < 10

/-- The stream ports sp0 to sp15 and the engine ports ep0 to ep3 (R323). -/
def portOk (d : BitVec 5) : Bool := d.toNat < 20

/-- With SR = 0 the semaphore field must be 0 (R279). -/
def CExt.ok (x : CExt) : Bool := x.sr || x.sem == 0

/-- The operand limits of every instruction (R74 and the entries it names). An event of the machine has no
operand word and no limit. -/
def Instr.wf : Instr → Bool
  | .cmp _ c _ _ _ m => c.toNat < 3 && m.toNat < 6
  | .cmpu _ c _ _ _ m => c.toNat < 3 && m.toNat < 6
  | .bfxu _ _ _ xs xr len im => amountOk xs xr im && fieldLenOk len
  | .bfxs _ _ _ xs xr len im => amountOk xs xr im && fieldLenOk len
  | .bfi _ _ _ xs xr len im => amountOk xs xr im && fieldLenOk len
  | .fshl _ _ _ _ xs xr len im => amountOk xs xr im && len == 0
  | .fshr _ _ _ _ xs xr len im => amountOk xs xr im && len == 0
  | .loopm _ _ n ii => loopOk n ii
  | .vldm _ d _ => maskReg d
  | .vstm _ d _ => maskReg d
  | .fence _ sc => sc.toNat < 5
  | .bari _ _ i => i != 0
  | .cpy _ _ x => x.ok
  | .cpyt _ _ _ x => x.ok
  | .cacc _ _ x op _ => x.ok && op.toNat < 6
  | .caccf _ _ x op _ => x.ok && op.toNat < 6
  | .cswp _ _ _ _ x _ _ => x.ok
  | .ccas _ _ _ _ x _ _ => x.ok
  | .cpsm _ _ x _ => x.ok
  | .cwalk _ _ _ x _ _ vsz => x.ok && vsz.toNat < 3
  | .cgath _ _ x => x.ok
  | .cscat _ _ x => x.ok
  | .cput _ _ x _ => x.ok
  | .hscan _ _ x => x.ok
  | .hgath _ _ x => x.ok
  | .hred _ _ x => x.ok
  | .hcvt _ _ x => x.ok
  | .vadd _ _ _ _ _ f => floatType f
  | .vsub _ _ _ _ _ f => floatType f
  | .vmul _ _ _ _ _ f => floatType f
  | .vfma _ _ _ _ _ f => floatType f
  | .vfms _ _ _ _ _ f => floatType f
  | .vmin _ _ _ _ _ f => floatType f
  | .vmax _ _ _ _ _ f => floatType f
  | .vabs _ d a r _ f => floatType f && repOk d a r
  | .vneg _ d a r _ f => floatType f && repOk d a r
  | .vclamp _ _ _ b _ f => floatType f && b.toNat < 31
  | .vcmp _ f _ _ _ _ => floatType f
  | .vcvt _ _ _ c _ m => convOk c m
  | .vqnt _ _ _ f => 1 ≤ f.toNat && f.toNat ≤ 4
  | .vdqnt _ _ _ f => floatType f
  | .vperm _ _ _ _ _ o => o.toNat < 2
  | .vimac8 _ d _ _ _ _ _ => d.toNat % 4 == 0
  | .viclamp _ _ _ b _ _ => b.toNat < 31
  | .vicmp _ _ _ _ _ c => c.toNat < 6
  | .vshl _ _ _ _ _ w => w.toNat % 2 == 0
  | .vshr _ _ _ _ _ w => w.toNat % 2 == 0
  | .vsra _ _ _ _ _ w => w.toNat % 2 == 0
  | .vrshr _ _ a _ _ r => r != 0 || a.toNat % 4 == 0
  | .vmov _ d a r _ => repOk d a r
  | .vexp2 _ d a r _ f => floatType f && repOk d a r
  | .vlog2 _ d a r _ f => floatType f && repOk d a r
  | .vexp _ d a r _ f => floatType f && repOk d a r
  | .vlog _ d a r _ f => floatType f && repOk d a r
  | .vrsqrt _ d a r _ f => floatType f && repOk d a r
  | .vrcp _ d a r _ f => floatType f && repOk d a r
  | .vsqrt _ d a r _ f => floatType f && repOk d a r
  | .vtanh _ d a r _ f => floatType f && repOk d a r
  | .vsigm _ d a r _ f => floatType f && repOk d a r
  | .vredr _ _ _ _ _ o => o.toNat < 3
  | .vredc _ _ _ _ _ o => o.toNat < 3
  | .vmand _ d a _ => maskReg d && maskReg a
  | .vmor _ d a _ => maskReg d && maskReg a
  | .vmxor _ d a _ => maskReg d && maskReg a
  | .vmandn _ d a _ => maskReg d && maskReg a
  | .vmnot _ d a => maskReg d && maskReg a
  | .vmovx _ _ _ _ row col mode => moveSelOk row col mode
  | .mdrain _ _ _ c f => c != 0 || f == 0
  | .mdrainq _ _ _ _ f => f.toNat < 5
  | .maccld _ _ _ c f => c != 0 || f == 0
  | .mstat _ _ a c s => (c == 0 || s == 0) && (s == 2 || a == 0)
  | .mcfg _ d _ _ => d.toNat < 10
  | .mcfgr _ d _ b r2 pair => d.toNat < 10 && pairOk b r2 pair
  | .fbind _ d a h k => portOk d && k.toNat < 3 && (d.toNat < 16 || (a == 0 && h == 0 && k == 0))
  | .funbind _ d => portOk d
  | .fstat _ _ s => s.toNat < 5
  | .reset | .linkTrainingDone | .zeroFillDone | .clusterPowerUp | .dieFence | .dieFailure | .gqdbDoorbell
  | .graphStart | .taskNode | .condNode | .loopNode | .waitNode | .signalNode | .copyNode | .progNode
  | .endNode | .graphAbort | .agingStep | .placerPass | .taskStart | .powerClassApply | .cmdNop | .cmdCopy
  | .cmdIload | .cmdIloadDone | .cmdStart | .semIncrementArrival | .tideHoldRequest | .tideHoldReach
  | .tideHoldResumeNotice | .tideHoldRelease | .holdExpired | .lineFetch | .laneEnqueue | .instructionComplete
  | .waitSatisfied | .moduloBodyFetch | .moduloStep | .contextEnd | .registerWrite | .sperrClear | .prbcfgWrite
  | .qcfgWrite | .msgcfgWrite | .xfactRetry | .xfactFail | .winWrite | .stkctlLose | .pcreqGo | .pqctlQreq
  | .pqctlSave | .pqctlGate | .pqctlWake | .pwrlimWrite | .thermClear | .almcfgWrite | .attestRequest
  | .attestReportDone | .probeFillComplete | .nestActivate | .matrixPassStart | .matrixPassRetire
  | .mstreamRowEmit | .copyComplete | .copyErrorComplete | .timetableIssue | .accumulateApply | .cwalkSlotFill
  | .putArrival | .putAck | .pontoonExec | .chainFerryFlitArrival | .sourceRowEmit | .sinkRowWrite
  | .accumulateSinkApply | .fabricRecordDeliver | .fabricRunning | .fabricDrain | .fabricPhaseComplete
  | .floadComplete | .deviceMemoryRead | .stripeWriteAccept | .partialStripeWrite | .parityDeltaApply
  | .fullStripeWrite | .reconstructedRead | .refreshCheckReport | .stackLoss | .stackEngineStart
  | .hCommandComplete | .ringUpdateArrival | .barrierArrival | .pbarRelease | .messageTake | .handlerStart
  | .trapEntry | .preemptNotice | .victimStopped | .partitionEvict | .forcedStop | .taskResume | .taskRerun
  | .linkCrcError | .laneRepairDone | .linkLockLost | .retrainTryEnd | .partRetire | .hostBar2Write
  | .hostBar2Read | .switchTakeover | .dvfsVoltageRiseDone | .dvfsFreqSwitchDone | .dvfsVoltageFallDone
  | .pcsnapCapture | .quiesceDone | .wakeDone | .thermHot | .thermCrit | .alarmRaise | .add .. | .sub ..
  | .and .. | .or .. | .xor .. | .andn .. | .sll .. | .srl .. | .sra .. | .mul .. | .mulh .. | .mulhu ..
  | .min .. | .max .. | .minu .. | .maxu .. | .clz .. | .ctz .. | .popc .. | .bswap .. | .sel .. | .addsh ..
  | .jalr .. | .tbr .. | .scht .. | .pwait .. | .punpin .. | .pinv .. | .pinvAll .. | .endc .. | .eret ..
  | .addi .. | .andi .. | .ori .. | .xori .. | .slli .. | .srli .. | .srai .. | .cmpi .. | .cmpui .. | .dly ..
  | .trap .. | .yield .. | .movw .. | .movhw .. | .addw .. | .srd .. | .swr .. | .jal .. | .probe .. | .br ..
  | .vld .. | .vldc .. | .vlds .. | .vldb .. | .vldg .. | .vst .. | .vstc .. | .vsts .. | .vstx .. | .tmov ..
  | .ownE .. | .ownC .. | .rclaim .. | .rcommit .. | .rwaitf .. | .rwaite .. | .rpop .. | .rpeek .. | .bara ..
  | .barw .. | .pbara .. | .pbarw .. | .semw .. | .sems .. | .send .. | .cwwaitSent .. | .cwwaitArr ..
  | .pbinv .. | .pbinvAll .. | .ldb .. | .ldbu .. | .ldh .. | .ldhu .. | .ldw .. | .ldwu .. | .ldd .. | .stb ..
  | .sth .. | .stw .. | .std .. | .vsel .. | .viadd .. | .visub .. | .vimul .. | .vimin .. | .vimax ..
  | .vand .. | .vor .. | .vxor .. | .vrotr .. | .vrotc .. | .vbcr .. | .vbcc .. | .vmovi .. | .mgo ..
  | .mpass .. | .mwait .. | .mzero .. | .mstream .. | .mspass .. | .msgo .. | .fstart .. | .fphase ..
  | .fstop .. | .fhnd .. | .finj .. | .fload .. | .translationWalkDone | .matrixDrainComplete
  | .tileMoveComplete | .peerLinkDown | .engineInternalError => true

end Sys2Proof
end

