-- ==== Sys2Proof/Decode.lean ====
section
/-! DEFINITION. Decoding and encoding: instruction words (04_lines_and_encodings.md R71 to R75), the opcode maps
(R80 to R85), the profiles (R86) and the checks on a fetched line in their order (R76 to R79). -/

namespace Sys2Proof

/-- The fixed fields of an instruction word (R71): token bits and delay, opcode, operands. -/
structure Fld where
  hdr : Hdr
  opc : BitVec 7
  ops : BitVec 18
  deriving DecidableEq, Repr

/-- The fields of a word (R71). -/
def Fld.ofWord (w : Word) : Fld :=
  ⟨⟨w.getLsbD 31, w.getLsbD 30, w.getLsbD 29, w.getLsbD 28, w.extractLsb' 25 3⟩,
    w.extractLsb' 18 7, w.extractLsb' 0 18⟩

/-- The word of the fields (R71). -/
def Fld.toWord (f : Fld) : Word :=
  (BitVec.ofBool f.hdr.wp ++ BitVec.ofBool f.hdr.wn ++ BitVec.ofBool f.hdr.pp ++ BitVec.ofBool f.hdr.pn ++
    f.hdr.dly ++ f.opc ++ f.ops).setWidth 32

/-- The opcode maps (R80): X, M, vector C, matrix C and F. -/
inductive OpMap where
  | x | m | v | e | f
  deriving DecidableEq, Repr

/-- What an instruction word decodes to in a map. -/
inductive Dec where
  | ok (i : Instr)
  /-- The opcode is not assigned in the map: ILLEGAL_OPCODE. -/
  | badOpcode
  /-- A res0 field is not zero, or an operand breaks its limits: ILLEGAL_OPERAND (R74). -/
  | badOperand
  deriving DecidableEq, Repr

/-- An instruction whose unused fields are zero (R74). -/
def Dec.when (res0 : Bool) (i : Instr) : Dec := if res0 then .ok i else .badOperand

/-- The token bits and the delay of an X or F word with no token bit set. -/
def Hdr.plain (y : BitVec 3) : Hdr := ⟨false, false, false, false, y⟩

/-- A header with no token and no delay. -/
def Hdr.zero : Hdr := Hdr.plain 0

/-- The common fields of an extension word of the copy and H families (R279). -/
def CExt.ofWord (e : Word) : CExt :=
  ⟨e.getLsbD 13, e.getLsbD 12, e.getLsbD 11, e.getLsbD 10, e.extractLsb' 0 10⟩

/-- The low fourteen bits of that extension word. -/
def CExt.toBits (x : CExt) : BitVec 14 :=
  (BitVec.ofBool x.acq ++ BitVec.ofBool x.rel ++ BitVec.ofBool x.tok ++ BitVec.ofBool x.sr ++ x.sem).setWidth 14

/-- Reads the operands of an opcode of the X map (R81). -/
def decX (f : Fld) (e : Word) : Dec :=
  let o := f.ops
  match f.opc.toNat with
  | 0x00 => .when (o.extractLsb' 0 3 == 0#3) (.add f.hdr.dly (o.extractLsb' 13 5) (o.extractLsb' 8 5) (o.extractLsb' 3 5))
  | 0x01 => .when (o.extractLsb' 0 3 == 0#3) (.sub f.hdr.dly (o.extractLsb' 13 5) (o.extractLsb' 8 5) (o.extractLsb' 3 5))
  | 0x02 => .when (o.extractLsb' 0 3 == 0#3) (.and f.hdr.dly (o.extractLsb' 13 5) (o.extractLsb' 8 5) (o.extractLsb' 3 5))
  | 0x03 => .when (o.extractLsb' 0 3 == 0#3) (.or f.hdr.dly (o.extractLsb' 13 5) (o.extractLsb' 8 5) (o.extractLsb' 3 5))
  | 0x04 => .when (o.extractLsb' 0 3 == 0#3) (.xor f.hdr.dly (o.extractLsb' 13 5) (o.extractLsb' 8 5) (o.extractLsb' 3 5))
  | 0x05 => .when (o.extractLsb' 0 3 == 0#3) (.andn f.hdr.dly (o.extractLsb' 13 5) (o.extractLsb' 8 5) (o.extractLsb' 3 5))
  | 0x06 => .when (o.extractLsb' 0 3 == 0#3) (.sll f.hdr.dly (o.extractLsb' 13 5) (o.extractLsb' 8 5) (o.extractLsb' 3 5))
  | 0x07 => .when (o.extractLsb' 0 3 == 0#3) (.srl f.hdr.dly (o.extractLsb' 13 5) (o.extractLsb' 8 5) (o.extractLsb' 3 5))
  | 0x08 => .when (o.extractLsb' 0 3 == 0#3) (.sra f.hdr.dly (o.extractLsb' 13 5) (o.extractLsb' 8 5) (o.extractLsb' 3 5))
  | 0x09 => .when (o.extractLsb' 0 3 == 0#3) (.mul f.hdr.dly (o.extractLsb' 13 5) (o.extractLsb' 8 5) (o.extractLsb' 3 5))
  | 0x0A => .when (o.extractLsb' 0 3 == 0#3) (.mulh f.hdr.dly (o.extractLsb' 13 5) (o.extractLsb' 8 5) (o.extractLsb' 3 5))
  | 0x0B => .when (o.extractLsb' 0 3 == 0#3) (.mulhu f.hdr.dly (o.extractLsb' 13 5) (o.extractLsb' 8 5) (o.extractLsb' 3 5))
  | 0x0C => .when (o.extractLsb' 0 3 == 0#3) (.min f.hdr.dly (o.extractLsb' 13 5) (o.extractLsb' 8 5) (o.extractLsb' 3 5))
  | 0x0D => .when (o.extractLsb' 0 3 == 0#3) (.max f.hdr.dly (o.extractLsb' 13 5) (o.extractLsb' 8 5) (o.extractLsb' 3 5))
  | 0x0E => .when (o.extractLsb' 0 3 == 0#3) (.minu f.hdr.dly (o.extractLsb' 13 5) (o.extractLsb' 8 5) (o.extractLsb' 3 5))
  | 0x0F => .when (o.extractLsb' 0 3 == 0#3) (.maxu f.hdr.dly (o.extractLsb' 13 5) (o.extractLsb' 8 5) (o.extractLsb' 3 5))
  | 0x10 => .when (o.extractLsb' 0 8 == 0#8) (.clz f.hdr.dly (o.extractLsb' 13 5) (o.extractLsb' 8 5))
  | 0x11 => .when (o.extractLsb' 0 8 == 0#8) (.ctz f.hdr.dly (o.extractLsb' 13 5) (o.extractLsb' 8 5))
  | 0x12 => .when (o.extractLsb' 0 8 == 0#8) (.popc f.hdr.dly (o.extractLsb' 13 5) (o.extractLsb' 8 5))
  | 0x13 => .when (o.extractLsb' 0 8 == 0#8) (.bswap f.hdr.dly (o.extractLsb' 13 5) (o.extractLsb' 8 5))
  | 0x14 => .ok (.sel f.hdr.dly (o.extractLsb' 13 5) (o.extractLsb' 8 5) (o.extractLsb' 3 5) (o.extractLsb' 0 3))
  | 0x15 => .ok (.cmp f.hdr.dly (o.extractLsb' 16 2) (o.extractLsb' 13 3) (o.extractLsb' 8 5) (o.extractLsb' 3 5) (o.extractLsb' 0 3))
  | 0x16 => .ok (.cmpu f.hdr.dly (o.extractLsb' 16 2) (o.extractLsb' 13 3) (o.extractLsb' 8 5) (o.extractLsb' 3 5) (o.extractLsb' 0 3))
  | 0x17 => .ok (.addsh f.hdr.dly (o.extractLsb' 13 5) (o.extractLsb' 8 5) (o.extractLsb' 3 5) (o.extractLsb' 0 3))
  | 0x18 => .when (o.extractLsb' 0 8 == 0#8) (.jalr f.hdr.dly (o.extractLsb' 13 5) (o.extractLsb' 8 5))
  | 0x19 => .when (o.extractLsb' 0 13 == 0#13) (.tbr f.hdr.dly (o.extractLsb' 13 5))
  | 0x1A => .when (o.extractLsb' 0 13 == 0#13) (.scht f.hdr.dly (o.extractLsb' 13 5))
  | 0x1B => .when (o.extractLsb' 13 5 == 0#5 && o.extractLsb' 0 8 == 0#8) (.pwait f.hdr.dly (o.extractLsb' 8 5))
  | 0x1C => .when (o.extractLsb' 13 5 == 0#5 && o.extractLsb' 0 8 == 0#8) (.punpin f.hdr.dly (o.extractLsb' 8 5))
  | 0x1D =>
    if o.extractLsb' 0 1 = 0#1 then .when (o.extractLsb' 13 5 == 0#5 && o.extractLsb' 1 7 == 0#7) (.pinv f.hdr.dly (o.extractLsb' 8 5))
    else .when (o.extractLsb' 1 17 == 0#17) (.pinvAll f.hdr.dly)
  | 0x1E => .when (o.extractLsb' 0 18 == 0#18) (.endc f.hdr.dly)
  | 0x1F => .when (o.extractLsb' 0 18 == 0#18) (.eret f.hdr.dly)
  | 0x20 => .ok (.addi f.hdr.dly (o.extractLsb' 13 5) (o.extractLsb' 8 5) (o.extractLsb' 0 8))
  | 0x21 => .ok (.andi f.hdr.dly (o.extractLsb' 13 5) (o.extractLsb' 8 5) (o.extractLsb' 0 8))
  | 0x22 => .ok (.ori f.hdr.dly (o.extractLsb' 13 5) (o.extractLsb' 8 5) (o.extractLsb' 0 8))
  | 0x23 => .ok (.xori f.hdr.dly (o.extractLsb' 13 5) (o.extractLsb' 8 5) (o.extractLsb' 0 8))
  | 0x24 => .when (o.extractLsb' 6 2 == 0#2) (.slli f.hdr.dly (o.extractLsb' 13 5) (o.extractLsb' 8 5) (o.extractLsb' 0 6))
  | 0x25 => .when (o.extractLsb' 6 2 == 0#2) (.srli f.hdr.dly (o.extractLsb' 13 5) (o.extractLsb' 8 5) (o.extractLsb' 0 6))
  | 0x26 => .when (o.extractLsb' 6 2 == 0#2) (.srai f.hdr.dly (o.extractLsb' 13 5) (o.extractLsb' 8 5) (o.extractLsb' 0 6))
  | 0x27 => .ok (.cmpi f.hdr.dly (o.extractLsb' 16 2) (o.extractLsb' 13 3) (o.extractLsb' 8 5) (o.extractLsb' 0 8))
  | 0x28 => .ok (.cmpui f.hdr.dly (o.extractLsb' 16 2) (o.extractLsb' 13 3) (o.extractLsb' 8 5) (o.extractLsb' 0 8))
  | 0x29 => .when (o.extractLsb' 13 5 == 0#5) (.dly f.hdr.dly (o.extractLsb' 8 5) (o.extractLsb' 0 8))
  | 0x2A => .when (o.extractLsb' 13 5 == 0#5 && o.extractLsb' 6 2 == 0#2) (.trap f.hdr.dly (o.extractLsb' 8 5) (o.extractLsb' 0 6))
  | 0x2B => .when (o.extractLsb' 0 18 == 0#18) (.yield f.hdr.dly)
  | 0x40 => .when (o.extractLsb' 0 13 == 0#13) (.movw f.hdr.dly (o.extractLsb' 13 5) (e.extractLsb' 0 32))
  | 0x41 => .when (o.extractLsb' 0 8 == 0#8) (.movhw f.hdr.dly (o.extractLsb' 13 5) (o.extractLsb' 8 5) (e.extractLsb' 0 32))
  | 0x42 => .when (o.extractLsb' 0 8 == 0#8) (.addw f.hdr.dly (o.extractLsb' 13 5) (o.extractLsb' 8 5) (e.extractLsb' 0 32))
  | 0x43 => .when (o.extractLsb' 0 8 == 0#8 && e.extractLsb' 21 11 == 0#11 && e.extractLsb' 6 2 == 0#2) (.bfxu f.hdr.dly (o.extractLsb' 13 5) (o.extractLsb' 8 5) (e.extractLsb' 16 5) (e.extractLsb' 15 1) (e.extractLsb' 8 7) (e.extractLsb' 0 6))
  | 0x44 => .when (o.extractLsb' 0 8 == 0#8 && e.extractLsb' 21 11 == 0#11 && e.extractLsb' 6 2 == 0#2) (.bfxs f.hdr.dly (o.extractLsb' 13 5) (o.extractLsb' 8 5) (e.extractLsb' 16 5) (e.extractLsb' 15 1) (e.extractLsb' 8 7) (e.extractLsb' 0 6))
  | 0x45 => .when (o.extractLsb' 0 8 == 0#8 && e.extractLsb' 21 11 == 0#11 && e.extractLsb' 6 2 == 0#2) (.bfi f.hdr.dly (o.extractLsb' 13 5) (o.extractLsb' 8 5) (e.extractLsb' 16 5) (e.extractLsb' 15 1) (e.extractLsb' 8 7) (e.extractLsb' 0 6))
  | 0x46 => .when (o.extractLsb' 0 3 == 0#3 && e.extractLsb' 21 11 == 0#11 && e.extractLsb' 6 2 == 0#2) (.fshl f.hdr.dly (o.extractLsb' 13 5) (o.extractLsb' 8 5) (o.extractLsb' 3 5) (e.extractLsb' 16 5) (e.extractLsb' 15 1) (e.extractLsb' 8 7) (e.extractLsb' 0 6))
  | 0x47 => .when (o.extractLsb' 0 3 == 0#3 && e.extractLsb' 21 11 == 0#11 && e.extractLsb' 6 2 == 0#2) (.fshr f.hdr.dly (o.extractLsb' 13 5) (o.extractLsb' 8 5) (o.extractLsb' 3 5) (e.extractLsb' 16 5) (e.extractLsb' 15 1) (e.extractLsb' 8 7) (e.extractLsb' 0 6))
  | 0x48 => .when (o.extractLsb' 0 13 == 0#13 && e.extractLsb' 12 20 == 0#20) (.srd f.hdr.dly (o.extractLsb' 13 5) (e.extractLsb' 0 12))
  | 0x49 => .when (o.extractLsb' 13 5 == 0#5 && o.extractLsb' 0 8 == 0#8 && e.extractLsb' 12 20 == 0#20) (.swr f.hdr.dly (o.extractLsb' 8 5) (e.extractLsb' 0 12))
  | 0x4A => .when (o.extractLsb' 0 13 == 0#13 && e.extractLsb' 13 19 == 0#19) (.jal f.hdr.dly (o.extractLsb' 13 5) (e.extractLsb' 0 13))
  | 0x4B => .when (o.extractLsb' 13 5 == 0#5 && o.extractLsb' 0 8 == 0#8 && e.extractLsb' 15 17 == 0#17 && e.extractLsb' 7 1 == 0#1) (.loopm f.hdr.dly (o.extractLsb' 8 5) (e.extractLsb' 0 7) (e.extractLsb' 8 7))
  | 0x4C => .when (o.extractLsb' 0 8 == 0#8 && e.extractLsb' 13 19 == 0#19) (.probe f.hdr.dly (o.extractLsb' 13 5) (o.extractLsb' 8 5) (e.extractLsb' 0 13))
  | 0x60 => .ok (.br f.hdr.dly (o.extractLsb' 15 3) (o.extractLsb' 14 1) (o.extractLsb' 0 14))
  | _ => .badOpcode

/-- Reads the operands of an opcode of the M map (R82). -/
def decM (f : Fld) (e : Word) : Dec :=
  let o := f.ops
  match f.opc.toNat with
  | 0x00 => .when (o.extractLsb' 3 5 == 0#5 && o.extractLsb' 1 1 == 0#1) (.vld f.hdr (o.extractLsb' 13 5) (o.extractLsb' 8 5) (o.extractLsb' 2 1) (o.extractLsb' 0 1))
  | 0x01 => .when (o.extractLsb' 1 1 == 0#1) (.vldc f.hdr (o.extractLsb' 13 5) (o.extractLsb' 8 5) (o.extractLsb' 3 5) (o.extractLsb' 2 1) (o.extractLsb' 0 1))
  | 0x02 => .when (o.extractLsb' 1 1 == 0#1) (.vlds f.hdr (o.extractLsb' 13 5) (o.extractLsb' 8 5) (o.extractLsb' 3 5) (o.extractLsb' 2 1) (o.extractLsb' 0 1))
  | 0x03 => .when (o.extractLsb' 3 5 == 0#5) (.vldb f.hdr (o.extractLsb' 13 5) (o.extractLsb' 8 5) (o.extractLsb' 2 1) (o.extractLsb' 1 1) (o.extractLsb' 0 1))
  | 0x04 => .when (o.extractLsb' 1 1 == 0#1) (.vldg f.hdr (o.extractLsb' 13 5) (o.extractLsb' 8 5) (o.extractLsb' 3 5) (o.extractLsb' 2 1) (o.extractLsb' 0 1))
  | 0x05 => .when (o.extractLsb' 0 8 == 0#8) (.vldm f.hdr (o.extractLsb' 13 5) (o.extractLsb' 8 5))
  | 0x06 => .when (o.extractLsb' 3 5 == 0#5 && o.extractLsb' 1 1 == 0#1) (.vst f.hdr (o.extractLsb' 13 5) (o.extractLsb' 8 5) (o.extractLsb' 2 1) (o.extractLsb' 0 1))
  | 0x07 => .when (o.extractLsb' 1 1 == 0#1) (.vstc f.hdr (o.extractLsb' 13 5) (o.extractLsb' 8 5) (o.extractLsb' 3 5) (o.extractLsb' 2 1) (o.extractLsb' 0 1))
  | 0x08 => .when (o.extractLsb' 1 1 == 0#1) (.vsts f.hdr (o.extractLsb' 13 5) (o.extractLsb' 8 5) (o.extractLsb' 3 5) (o.extractLsb' 2 1) (o.extractLsb' 0 1))
  | 0x09 => .when (o.extractLsb' 1 1 == 0#1) (.vstx f.hdr (o.extractLsb' 13 5) (o.extractLsb' 8 5) (o.extractLsb' 3 5) (o.extractLsb' 2 1) (o.extractLsb' 0 1))
  | 0x0A => .when (o.extractLsb' 0 8 == 0#8) (.vstm f.hdr (o.extractLsb' 13 5) (o.extractLsb' 8 5))
  | 0x0B => .when (o.extractLsb' 1 2 == 0#2) (.tmov f.hdr (o.extractLsb' 13 5) (o.extractLsb' 8 5) (o.extractLsb' 3 5) (o.extractLsb' 0 1))
  | 0x0C =>
    if o.extractLsb' 0 1 = 0#1 then .when (o.extractLsb' 13 5 == 0#5 && o.extractLsb' 2 1 == 0#1) (.ownE f.hdr (o.extractLsb' 8 5) (o.extractLsb' 3 5) (o.extractLsb' 1 1))
    else .when (o.extractLsb' 13 5 == 0#5 && o.extractLsb' 2 1 == 0#1) (.ownC f.hdr (o.extractLsb' 8 5) (o.extractLsb' 3 5) (o.extractLsb' 1 1))
  | 0x0D => .when (o.extractLsb' 3 15 == 0#15) (.fence f.hdr (o.extractLsb' 0 3))
  | 0x0E => .when (o.extractLsb' 8 5 == 0#5 && o.extractLsb' 1 2 == 0#2) (.rclaim f.hdr (o.extractLsb' 13 5) (o.extractLsb' 3 5) (o.extractLsb' 0 1))
  | 0x0F => .when (o.extractLsb' 13 5 == 0#5 && o.extractLsb' 1 2 == 0#2) (.rcommit f.hdr (o.extractLsb' 8 5) (o.extractLsb' 3 5) (o.extractLsb' 0 1))
  | 0x10 => .when (o.extractLsb' 13 5 == 0#5 && o.extractLsb' 1 2 == 0#2) (.rwaitf f.hdr (o.extractLsb' 8 5) (o.extractLsb' 3 5) (o.extractLsb' 0 1))
  | 0x11 => .when (o.extractLsb' 13 5 == 0#5 && o.extractLsb' 1 2 == 0#2) (.rwaite f.hdr (o.extractLsb' 8 5) (o.extractLsb' 3 5) (o.extractLsb' 0 1))
  | 0x12 => .when (o.extractLsb' 13 5 == 0#5 && o.extractLsb' 1 2 == 0#2) (.rpop f.hdr (o.extractLsb' 8 5) (o.extractLsb' 3 5) (o.extractLsb' 0 1))
  | 0x13 => .when (o.extractLsb' 1 2 == 0#2) (.rpeek f.hdr (o.extractLsb' 13 5) (o.extractLsb' 8 5) (o.extractLsb' 3 5) (o.extractLsb' 0 1))
  | 0x14 => .when (o.extractLsb' 1 7 == 0#7) (.bara f.hdr (o.extractLsb' 13 5) (o.extractLsb' 8 5) (o.extractLsb' 0 1))
  | 0x15 => .when (o.extractLsb' 13 5 == 0#5 && o.extractLsb' 0 3 == 0#3) (.barw f.hdr (o.extractLsb' 8 5) (o.extractLsb' 3 5))
  | 0x16 => .when (o.extractLsb' 13 5 == 0#5 && o.extractLsb' 0 8 == 0#8) (.pbara f.hdr (o.extractLsb' 8 5))
  | 0x17 => .when (o.extractLsb' 13 5 == 0#5 && o.extractLsb' 0 8 == 0#8) (.pbarw f.hdr (o.extractLsb' 8 5))
  | 0x18 => .when (o.extractLsb' 13 5 == 0#5 && o.extractLsb' 0 3 == 0#3) (.semw f.hdr (o.extractLsb' 8 5) (o.extractLsb' 3 5))
  | 0x19 => .when (o.extractLsb' 13 5 == 0#5 && o.extractLsb' 1 2 == 0#2) (.sems f.hdr (o.extractLsb' 8 5) (o.extractLsb' 3 5) (o.extractLsb' 0 1))
  | 0x1A => .when (o.extractLsb' 13 5 == 0#5 && o.extractLsb' 0 3 == 0#3) (.send f.hdr (o.extractLsb' 8 5) (o.extractLsb' 3 5))
  | 0x1B =>
    if o.extractLsb' 0 1 = 0#1 then .when (o.extractLsb' 13 5 == 0#5 && o.extractLsb' 1 2 == 0#2) (.cwwaitSent f.hdr (o.extractLsb' 8 5) (o.extractLsb' 3 5))
    else .when (o.extractLsb' 13 5 == 0#5 && o.extractLsb' 1 2 == 0#2) (.cwwaitArr f.hdr (o.extractLsb' 8 5) (o.extractLsb' 3 5))
  | 0x1C =>
    if o.extractLsb' 0 1 = 0#1 then .when (o.extractLsb' 13 5 == 0#5 && o.extractLsb' 1 7 == 0#7) (.pbinv f.hdr (o.extractLsb' 8 5))
    else .when (o.extractLsb' 1 17 == 0#17) (.pbinvAll f.hdr)
  | 0x20 => .ok (.ldb f.hdr (o.extractLsb' 13 5) (o.extractLsb' 8 5) (o.extractLsb' 0 8))
  | 0x21 => .ok (.ldbu f.hdr (o.extractLsb' 13 5) (o.extractLsb' 8 5) (o.extractLsb' 0 8))
  | 0x22 => .ok (.ldh f.hdr (o.extractLsb' 13 5) (o.extractLsb' 8 5) (o.extractLsb' 0 8))
  | 0x23 => .ok (.ldhu f.hdr (o.extractLsb' 13 5) (o.extractLsb' 8 5) (o.extractLsb' 0 8))
  | 0x24 => .ok (.ldw f.hdr (o.extractLsb' 13 5) (o.extractLsb' 8 5) (o.extractLsb' 0 8))
  | 0x25 => .ok (.ldwu f.hdr (o.extractLsb' 13 5) (o.extractLsb' 8 5) (o.extractLsb' 0 8))
  | 0x26 => .ok (.ldd f.hdr (o.extractLsb' 13 5) (o.extractLsb' 8 5) (o.extractLsb' 0 8))
  | 0x27 => .ok (.stb f.hdr (o.extractLsb' 13 5) (o.extractLsb' 8 5) (o.extractLsb' 0 8))
  | 0x28 => .ok (.sth f.hdr (o.extractLsb' 13 5) (o.extractLsb' 8 5) (o.extractLsb' 0 8))
  | 0x29 => .ok (.stw f.hdr (o.extractLsb' 13 5) (o.extractLsb' 8 5) (o.extractLsb' 0 8))
  | 0x2A => .ok (.std f.hdr (o.extractLsb' 13 5) (o.extractLsb' 8 5) (o.extractLsb' 0 8))
  | 0x2B => .when (o.extractLsb' 13 5 == 0#5) (.bari f.hdr (o.extractLsb' 8 5) (o.extractLsb' 0 8))
  | 0x40 => .when (o.extractLsb' 13 5 == 0#5 && o.extractLsb' 0 8 == 0#8 && e.extractLsb' 14 18 == 0#18) (.cpy f.hdr (o.extractLsb' 8 5) (.ofWord e))
  | 0x41 => .when (o.extractLsb' 13 5 == 0#5 && o.extractLsb' 0 3 == 0#3 && e.extractLsb' 14 18 == 0#18) (.cpyt f.hdr (o.extractLsb' 8 5) (o.extractLsb' 3 5) (.ofWord e))
  | 0x42 => .when (o.extractLsb' 13 5 == 0#5 && o.extractLsb' 0 8 == 0#8 && e.extractLsb' 21 11 == 0#11 && e.extractLsb' 14 2 == 0#2) (.cacc f.hdr (o.extractLsb' 8 5) (.ofWord e) (e.extractLsb' 16 3) (e.extractLsb' 19 2))
  | 0x43 => .when (o.extractLsb' 13 5 == 0#5 && o.extractLsb' 0 8 == 0#8 && e.extractLsb' 21 11 == 0#11 && e.extractLsb' 14 2 == 0#2) (.caccf f.hdr (o.extractLsb' 8 5) (.ofWord e) (e.extractLsb' 16 3) (e.extractLsb' 19 2))
  | 0x44 => .when (o.extractLsb' 0 3 == 0#3 && e.extractLsb' 18 14 == 0#14 && e.extractLsb' 14 2 == 0#2) (.cswp f.hdr (o.extractLsb' 13 5) (o.extractLsb' 8 5) (o.extractLsb' 3 5) (.ofWord e) (e.extractLsb' 16 1) (e.extractLsb' 17 1))
  | 0x45 => .when (o.extractLsb' 0 3 == 0#3 && e.extractLsb' 18 14 == 0#14 && e.extractLsb' 14 2 == 0#2) (.ccas f.hdr (o.extractLsb' 13 5) (o.extractLsb' 8 5) (o.extractLsb' 3 5) (.ofWord e) (e.extractLsb' 16 1) (e.extractLsb' 17 1))
  | 0x46 => .when (o.extractLsb' 13 5 == 0#5 && o.extractLsb' 0 8 == 0#8 && e.extractLsb' 21 11 == 0#11 && e.extractLsb' 14 2 == 0#2) (.cpsm f.hdr (o.extractLsb' 8 5) (.ofWord e) (e.extractLsb' 16 5))
  | 0x47 => .when (o.extractLsb' 13 5 == 0#5 && o.extractLsb' 0 3 == 0#3 && e.extractLsb' 30 2 == 0#2 && e.extractLsb' 14 2 == 0#2) (.cwalk f.hdr (o.extractLsb' 8 5) (o.extractLsb' 3 5) (.ofWord e) (e.extractLsb' 16 6) (e.extractLsb' 22 6) (e.extractLsb' 28 2))
  | 0x48 => .when (o.extractLsb' 13 5 == 0#5 && o.extractLsb' 0 8 == 0#8 && e.extractLsb' 14 18 == 0#18) (.cgath f.hdr (o.extractLsb' 8 5) (.ofWord e))
  | 0x49 => .when (o.extractLsb' 13 5 == 0#5 && o.extractLsb' 0 8 == 0#8 && e.extractLsb' 14 18 == 0#18) (.cscat f.hdr (o.extractLsb' 8 5) (.ofWord e))
  | 0x4A => .when (o.extractLsb' 13 5 == 0#5 && o.extractLsb' 0 8 == 0#8 && e.extractLsb' 22 10 == 0#10 && e.extractLsb' 14 2 == 0#2) (.cput f.hdr (o.extractLsb' 8 5) (.ofWord e) (e.extractLsb' 16 6))
  | 0x4B => .when (o.extractLsb' 13 5 == 0#5 && o.extractLsb' 0 8 == 0#8 && e.extractLsb' 14 18 == 0#18) (.hscan f.hdr (o.extractLsb' 8 5) (.ofWord e))
  | 0x4C => .when (o.extractLsb' 13 5 == 0#5 && o.extractLsb' 0 8 == 0#8 && e.extractLsb' 14 18 == 0#18) (.hgath f.hdr (o.extractLsb' 8 5) (.ofWord e))
  | 0x4D => .when (o.extractLsb' 13 5 == 0#5 && o.extractLsb' 0 8 == 0#8 && e.extractLsb' 14 18 == 0#18) (.hred f.hdr (o.extractLsb' 8 5) (.ofWord e))
  | 0x4E => .when (o.extractLsb' 13 5 == 0#5 && o.extractLsb' 0 8 == 0#8 && e.extractLsb' 14 18 == 0#18) (.hcvt f.hdr (o.extractLsb' 8 5) (.ofWord e))
  | _ => .badOpcode

/-- Reads the operands of an opcode of the vector C map (R83). -/
def decV (f : Fld) (e : Word) : Dec :=
  let o := f.ops
  match f.opc.toNat with
  | 0x00 => .ok (.vadd f.hdr (o.extractLsb' 13 5) (o.extractLsb' 8 5) (o.extractLsb' 3 5) (o.extractLsb' 2 1) (o.extractLsb' 0 2))
  | 0x01 => .ok (.vsub f.hdr (o.extractLsb' 13 5) (o.extractLsb' 8 5) (o.extractLsb' 3 5) (o.extractLsb' 2 1) (o.extractLsb' 0 2))
  | 0x02 => .ok (.vmul f.hdr (o.extractLsb' 13 5) (o.extractLsb' 8 5) (o.extractLsb' 3 5) (o.extractLsb' 2 1) (o.extractLsb' 0 2))
  | 0x03 => .ok (.vfma f.hdr (o.extractLsb' 13 5) (o.extractLsb' 8 5) (o.extractLsb' 3 5) (o.extractLsb' 2 1) (o.extractLsb' 0 2))
  | 0x04 => .ok (.vfms f.hdr (o.extractLsb' 13 5) (o.extractLsb' 8 5) (o.extractLsb' 3 5) (o.extractLsb' 2 1) (o.extractLsb' 0 2))
  | 0x05 => .ok (.vmin f.hdr (o.extractLsb' 13 5) (o.extractLsb' 8 5) (o.extractLsb' 3 5) (o.extractLsb' 2 1) (o.extractLsb' 0 2))
  | 0x06 => .ok (.vmax f.hdr (o.extractLsb' 13 5) (o.extractLsb' 8 5) (o.extractLsb' 3 5) (o.extractLsb' 2 1) (o.extractLsb' 0 2))
  | 0x07 => .when (o.extractLsb' 6 2 == 0#2) (.vabs f.hdr (o.extractLsb' 13 5) (o.extractLsb' 8 5) (o.extractLsb' 3 3) (o.extractLsb' 2 1) (o.extractLsb' 0 2))
  | 0x08 => .when (o.extractLsb' 6 2 == 0#2) (.vneg f.hdr (o.extractLsb' 13 5) (o.extractLsb' 8 5) (o.extractLsb' 3 3) (o.extractLsb' 2 1) (o.extractLsb' 0 2))
  | 0x09 => .ok (.vclamp f.hdr (o.extractLsb' 13 5) (o.extractLsb' 8 5) (o.extractLsb' 3 5) (o.extractLsb' 2 1) (o.extractLsb' 0 2))
  | 0x0A => .ok (.vcmp f.hdr (o.extractLsb' 16 2) (o.extractLsb' 13 3) (o.extractLsb' 8 5) (o.extractLsb' 3 5) (o.extractLsb' 0 3))
  | 0x0B => .ok (.vsel f.hdr (o.extractLsb' 13 5) (o.extractLsb' 8 5) (o.extractLsb' 3 5) (o.extractLsb' 0 3))
  | 0x0C => .ok (.vcvt f.hdr (o.extractLsb' 13 5) (o.extractLsb' 8 5) (o.extractLsb' 3 5) (o.extractLsb' 2 1) (o.extractLsb' 0 2))
  | 0x0D => .when (o.extractLsb' 13 5 == 0#5) (.vqnt f.hdr (o.extractLsb' 8 5) (o.extractLsb' 3 5) (o.extractLsb' 0 3))
  | 0x0E => .when (o.extractLsb' 13 5 == 0#5 && o.extractLsb' 2 1 == 0#1) (.vdqnt f.hdr (o.extractLsb' 8 5) (o.extractLsb' 3 5) (o.extractLsb' 0 2))
  | 0x0F => .ok (.vperm f.hdr (o.extractLsb' 13 5) (o.extractLsb' 8 5) (o.extractLsb' 3 5) (o.extractLsb' 2 1) (o.extractLsb' 0 2))
  | 0x10 => .ok (.viadd f.hdr (o.extractLsb' 13 5) (o.extractLsb' 8 5) (o.extractLsb' 3 5) (o.extractLsb' 2 1) (o.extractLsb' 0 2))
  | 0x11 => .ok (.visub f.hdr (o.extractLsb' 13 5) (o.extractLsb' 8 5) (o.extractLsb' 3 5) (o.extractLsb' 2 1) (o.extractLsb' 0 2))
  | 0x12 => .ok (.vimul f.hdr (o.extractLsb' 13 5) (o.extractLsb' 8 5) (o.extractLsb' 3 5) (o.extractLsb' 2 1) (o.extractLsb' 0 2))
  | 0x13 => .ok (.vimac8 f.hdr (o.extractLsb' 13 5) (o.extractLsb' 8 5) (o.extractLsb' 3 5) (o.extractLsb' 2 1) (o.extractLsb' 1 1) (o.extractLsb' 0 1))
  | 0x14 => .ok (.vimin f.hdr (o.extractLsb' 13 5) (o.extractLsb' 8 5) (o.extractLsb' 3 5) (o.extractLsb' 2 1) (o.extractLsb' 0 2))
  | 0x15 => .ok (.vimax f.hdr (o.extractLsb' 13 5) (o.extractLsb' 8 5) (o.extractLsb' 3 5) (o.extractLsb' 2 1) (o.extractLsb' 0 2))
  | 0x16 => .ok (.viclamp f.hdr (o.extractLsb' 13 5) (o.extractLsb' 8 5) (o.extractLsb' 3 5) (o.extractLsb' 2 1) (o.extractLsb' 0 2))
  | 0x17 => .ok (.vicmp f.hdr (o.extractLsb' 16 2) (o.extractLsb' 13 3) (o.extractLsb' 8 5) (o.extractLsb' 3 5) (o.extractLsb' 0 3))
  | 0x18 => .when (o.extractLsb' 0 2 == 0#2) (.vand f.hdr (o.extractLsb' 13 5) (o.extractLsb' 8 5) (o.extractLsb' 3 5) (o.extractLsb' 2 1))
  | 0x19 => .when (o.extractLsb' 0 2 == 0#2) (.vor f.hdr (o.extractLsb' 13 5) (o.extractLsb' 8 5) (o.extractLsb' 3 5) (o.extractLsb' 2 1))
  | 0x1A => .when (o.extractLsb' 0 2 == 0#2) (.vxor f.hdr (o.extractLsb' 13 5) (o.extractLsb' 8 5) (o.extractLsb' 3 5) (o.extractLsb' 2 1))
  | 0x1B => .ok (.vshl f.hdr (o.extractLsb' 13 5) (o.extractLsb' 8 5) (o.extractLsb' 3 5) (o.extractLsb' 2 1) (o.extractLsb' 0 2))
  | 0x1C => .ok (.vshr f.hdr (o.extractLsb' 13 5) (o.extractLsb' 8 5) (o.extractLsb' 3 5) (o.extractLsb' 2 1) (o.extractLsb' 0 2))
  | 0x1D => .ok (.vsra f.hdr (o.extractLsb' 13 5) (o.extractLsb' 8 5) (o.extractLsb' 3 5) (o.extractLsb' 2 1) (o.extractLsb' 0 2))
  | 0x1E => .ok (.vrshr f.hdr (o.extractLsb' 13 5) (o.extractLsb' 8 5) (o.extractLsb' 3 5) (o.extractLsb' 2 1) (o.extractLsb' 0 2))
  | 0x1F => .when (o.extractLsb' 6 2 == 0#2 && o.extractLsb' 0 2 == 0#2) (.vmov f.hdr (o.extractLsb' 13 5) (o.extractLsb' 8 5) (o.extractLsb' 3 3) (o.extractLsb' 2 1))
  | 0x20 => .when (o.extractLsb' 6 2 == 0#2) (.vexp2 f.hdr (o.extractLsb' 13 5) (o.extractLsb' 8 5) (o.extractLsb' 3 3) (o.extractLsb' 2 1) (o.extractLsb' 0 2))
  | 0x21 => .when (o.extractLsb' 6 2 == 0#2) (.vlog2 f.hdr (o.extractLsb' 13 5) (o.extractLsb' 8 5) (o.extractLsb' 3 3) (o.extractLsb' 2 1) (o.extractLsb' 0 2))
  | 0x22 => .when (o.extractLsb' 6 2 == 0#2) (.vexp f.hdr (o.extractLsb' 13 5) (o.extractLsb' 8 5) (o.extractLsb' 3 3) (o.extractLsb' 2 1) (o.extractLsb' 0 2))
  | 0x23 => .when (o.extractLsb' 6 2 == 0#2) (.vlog f.hdr (o.extractLsb' 13 5) (o.extractLsb' 8 5) (o.extractLsb' 3 3) (o.extractLsb' 2 1) (o.extractLsb' 0 2))
  | 0x24 => .when (o.extractLsb' 6 2 == 0#2) (.vrsqrt f.hdr (o.extractLsb' 13 5) (o.extractLsb' 8 5) (o.extractLsb' 3 3) (o.extractLsb' 2 1) (o.extractLsb' 0 2))
  | 0x25 => .when (o.extractLsb' 6 2 == 0#2) (.vrcp f.hdr (o.extractLsb' 13 5) (o.extractLsb' 8 5) (o.extractLsb' 3 3) (o.extractLsb' 2 1) (o.extractLsb' 0 2))
  | 0x26 => .when (o.extractLsb' 6 2 == 0#2) (.vsqrt f.hdr (o.extractLsb' 13 5) (o.extractLsb' 8 5) (o.extractLsb' 3 3) (o.extractLsb' 2 1) (o.extractLsb' 0 2))
  | 0x27 => .when (o.extractLsb' 6 2 == 0#2) (.vtanh f.hdr (o.extractLsb' 13 5) (o.extractLsb' 8 5) (o.extractLsb' 3 3) (o.extractLsb' 2 1) (o.extractLsb' 0 2))
  | 0x28 => .when (o.extractLsb' 6 2 == 0#2) (.vsigm f.hdr (o.extractLsb' 13 5) (o.extractLsb' 8 5) (o.extractLsb' 3 3) (o.extractLsb' 2 1) (o.extractLsb' 0 2))
  | 0x29 => .when (o.extractLsb' 7 1 == 0#1) (.vrotr f.hdr (o.extractLsb' 13 5) (o.extractLsb' 8 5) (o.extractLsb' 6 1) (o.extractLsb' 0 6))
  | 0x2A => .when (o.extractLsb' 7 1 == 0#1 && o.extractLsb' 4 2 == 0#2) (.vrotc f.hdr (o.extractLsb' 13 5) (o.extractLsb' 8 5) (o.extractLsb' 6 1) (o.extractLsb' 0 4))
  | 0x2B => .when (o.extractLsb' 7 1 == 0#1) (.vbcr f.hdr (o.extractLsb' 13 5) (o.extractLsb' 8 5) (o.extractLsb' 6 1) (o.extractLsb' 0 6))
  | 0x2C => .when (o.extractLsb' 7 1 == 0#1 && o.extractLsb' 4 2 == 0#2) (.vbcc f.hdr (o.extractLsb' 13 5) (o.extractLsb' 8 5) (o.extractLsb' 6 1) (o.extractLsb' 0 4))
  | 0x2D => .when (o.extractLsb' 5 3 == 0#3) (.vredr f.hdr (o.extractLsb' 13 5) (o.extractLsb' 8 5) (o.extractLsb' 4 1) (o.extractLsb' 2 2) (o.extractLsb' 0 2))
  | 0x2E => .when (o.extractLsb' 5 3 == 0#3) (.vredc f.hdr (o.extractLsb' 13 5) (o.extractLsb' 8 5) (o.extractLsb' 4 1) (o.extractLsb' 2 2) (o.extractLsb' 0 2))
  | 0x2F => .when (o.extractLsb' 3 5 == 0#5) (.vmand f.hdr (o.extractLsb' 13 5) (o.extractLsb' 8 5) (o.extractLsb' 0 3))
  | 0x30 => .when (o.extractLsb' 3 5 == 0#5) (.vmor f.hdr (o.extractLsb' 13 5) (o.extractLsb' 8 5) (o.extractLsb' 0 3))
  | 0x31 => .when (o.extractLsb' 3 5 == 0#5) (.vmxor f.hdr (o.extractLsb' 13 5) (o.extractLsb' 8 5) (o.extractLsb' 0 3))
  | 0x32 => .when (o.extractLsb' 3 5 == 0#5) (.vmandn f.hdr (o.extractLsb' 13 5) (o.extractLsb' 8 5) (o.extractLsb' 0 3))
  | 0x33 => .when (o.extractLsb' 0 8 == 0#8) (.vmnot f.hdr (o.extractLsb' 13 5) (o.extractLsb' 8 5))
  | 0x40 => .when (o.extractLsb' 3 10 == 0#10 && o.extractLsb' 0 2 == 0#2) (.vmovi f.hdr (o.extractLsb' 13 5) (o.extractLsb' 2 1) (e.extractLsb' 0 32))
  | 0x41 => .when (o.extractLsb' 3 5 == 0#5 && o.extractLsb' 0 2 == 0#2 && e.extractLsb' 12 20 == 0#20) (.vmovx f.hdr (o.extractLsb' 13 5) (o.extractLsb' 8 5) (o.extractLsb' 2 1) (e.extractLsb' 0 4) (e.extractLsb' 4 6) (e.extractLsb' 10 2))
  | _ => .badOpcode

/-- Reads the operands of an opcode of the matrix C map (R84). -/
def decE (f : Fld) (e : Word) : Dec :=
  let o := f.ops
  match f.opc.toNat with
  | 0x00 => .when (o.extractLsb' 0 18 == 0#18) (.mgo f.hdr)
  | 0x01 => .when (o.extractLsb' 13 5 == 0#5 && o.extractLsb' 0 3 == 0#3) (.mpass f.hdr (o.extractLsb' 8 5) (o.extractLsb' 3 5))
  | 0x02 => .when (o.extractLsb' 1 17 == 0#17) (.mwait f.hdr (o.extractLsb' 0 1))
  | 0x03 => .when (o.extractLsb' 13 5 == 0#5 && o.extractLsb' 0 8 == 0#8) (.mzero f.hdr (o.extractLsb' 8 5))
  | 0x04 => .when (o.extractLsb' 13 5 == 0#5) (.mdrain f.hdr (o.extractLsb' 8 5) (o.extractLsb' 3 5) (o.extractLsb' 2 1) (o.extractLsb' 0 2))
  | 0x05 => .ok (.mdrainq f.hdr (o.extractLsb' 13 5) (o.extractLsb' 8 5) (o.extractLsb' 3 5) (o.extractLsb' 0 3))
  | 0x06 => .when (o.extractLsb' 8 10 == 0#10 && o.extractLsb' 0 3 == 0#3) (.mstream f.hdr (o.extractLsb' 3 5))
  | 0x07 => .when (o.extractLsb' 13 5 == 0#5) (.maccld f.hdr (o.extractLsb' 8 5) (o.extractLsb' 3 5) (o.extractLsb' 2 1) (o.extractLsb' 0 2))
  | 0x08 => .when (o.extractLsb' 3 5 == 0#5) (.mstat f.hdr (o.extractLsb' 13 5) (o.extractLsb' 8 5) (o.extractLsb' 2 1) (o.extractLsb' 0 2))
  | 0x09 => .when (o.extractLsb' 13 5 == 0#5 && o.extractLsb' 0 3 == 0#3) (.mspass f.hdr (o.extractLsb' 8 5) (o.extractLsb' 3 5))
  | 0x0A => .when (o.extractLsb' 0 18 == 0#18) (.msgo f.hdr)
  | 0x40 => .when (o.extractLsb' 1 12 == 0#12) (.mcfg f.hdr (o.extractLsb' 13 5) (o.extractLsb' 0 1) (e.extractLsb' 0 32))
  | 0x41 => .when (o.extractLsb' 0 3 == 0#3 && e.extractLsb' 6 26 == 0#26) (.mcfgr f.hdr (o.extractLsb' 13 5) (o.extractLsb' 8 5) (o.extractLsb' 3 5) (e.extractLsb' 0 5) (e.extractLsb' 5 1))
  | _ => .badOpcode

/-- Reads the operands of an opcode of the F map (R85). -/
def decF (f : Fld) (e : Word) : Dec :=
  let o := f.ops
  match f.opc.toNat with
  | 0x00 => .when (o.extractLsb' 3 5 == 0#5) (.fbind f.hdr.dly (o.extractLsb' 13 5) (o.extractLsb' 8 5) (o.extractLsb' 2 1) (o.extractLsb' 0 2))
  | 0x01 => .when (o.extractLsb' 0 13 == 0#13) (.funbind f.hdr.dly (o.extractLsb' 13 5))
  | 0x02 => .when (o.extractLsb' 13 5 == 0#5 && o.extractLsb' 0 8 == 0#8) (.fstart f.hdr.dly (o.extractLsb' 8 5))
  | 0x03 => .when (o.extractLsb' 0 13 == 0#13) (.fphase f.hdr.dly (o.extractLsb' 13 5))
  | 0x04 => .when (o.extractLsb' 13 5 == 0#5 && o.extractLsb' 0 8 == 0#8) (.fstop f.hdr.dly (o.extractLsb' 8 5))
  | 0x05 => .when (o.extractLsb' 13 5 == 0#5 && o.extractLsb' 0 8 == 0#8) (.fhnd f.hdr.dly (o.extractLsb' 8 5))
  | 0x06 => .when (o.extractLsb' 13 5 == 0#5 && o.extractLsb' 0 3 == 0#3) (.finj f.hdr.dly (o.extractLsb' 8 5) (o.extractLsb' 3 5))
  | 0x07 => .when (o.extractLsb' 3 10 == 0#10) (.fstat f.hdr.dly (o.extractLsb' 13 5) (o.extractLsb' 0 3))
  | 0x40 => .when (o.extractLsb' 13 5 == 0#5 && o.extractLsb' 0 8 == 0#8) (.fload f.hdr.dly (o.extractLsb' 8 5) (e.extractLsb' 0 32))
  | _ => .badOpcode

/-- Reads an instruction word and its extension word in a map (R73, R74, R80). -/
def decodeFld (mp : OpMap) (f : Fld) (e : Word) : Dec :=
  let r := match mp with
    | .x => decX f e
    | .m => decM f e
    | .v => decV f e
    | .e => decE f e
    | .f => decF f e
  match r with
  | .ok i => .when i.wf i
  | .badOpcode => .badOpcode
  | .badOperand => .badOperand

/-- Reads an instruction word and its extension word in a map. -/
def decodeOp (mp : OpMap) (w e : Word) : Dec := decodeFld mp (.ofWord w) e

/-- The profiles: the kinds of core that fetch lines (R86). -/
inductive Profile where
  | matrix | vector | gather | control
  deriving DecidableEq, Repr

/-- How a line was reached (R77): by the ordinary flow, by the modulo sequencer, or as the start of a handler. -/
inductive Reach where
  | flow | body | handler
  deriving DecidableEq, Repr

/-- The queue a queue code names (R70). -/
def queueOf : Nat → Option Queue
  | 1 => some .x
  | 2 => some .l
  | 3 => some .c
  | 4 => some .s
  | 6 => some .f
  | _ => none

/-- The queue code of a queue (R70). -/
def Queue.code : Queue → Nat
  | .x => 1
  | .l => 2
  | .c => 3
  | .s => 4
  | .f => 6

/-- The queues a profile has (R86). -/
def Profile.hasQueue : Profile → Queue → Bool
  | .control, .c => false
  | .control, .f => false
  | _, _ => true

/-- The map a queue reads on a profile (R80). -/
def Profile.map : Profile → Queue → OpMap
  | _, .x => .x
  | _, .l => .m
  | _, .s => .m
  | _, .f => .f
  | .matrix, .c => .e
  | _, .c => .v

/-- An opcode is assigned in a map (R81 to R85). -/
def assigned : OpMap → Nat → Bool
  | .x, k => k ≤ 0x2B || (0x40 ≤ k && k ≤ 0x4C) || k == 0x60
  | .m, k => k ≤ 0x1C || (0x20 ≤ k && k ≤ 0x2B) || (0x40 ≤ k && k ≤ 0x4E)
  | .v, k => k ≤ 0x33 || k == 0x40 || k == 0x41
  | .e, k => k ≤ 0x0A || k == 0x40 || k == 0x41
  | .f, k => k ≤ 0x07 || k == 0x40

/-- An opcode that a profile removes (R86). -/
def Profile.removes : Profile → OpMap → Nat → Bool
  | .matrix, .m, k => k ≤ 0x0A
  | .control, .x, k => (0x1B ≤ k && k ≤ 0x1D) || k == 0x2B || k == 0x4C
  | .control, .m, k => k ≤ 0x0C || (0x0E ≤ k && k ≤ 0x17) || k == 0x1A || k == 0x2B
  | _, _, _ => false

/-- The queues an opcode of a map is legal in (R81 to R85): only the M map divides its opcodes (R82). -/
def legalIn : OpMap → Nat → Queue → Bool
  | .m, k, .l => !((0x06 ≤ k && k ≤ 0x0A) || (0x27 ≤ k && k ≤ 0x2A))
  | .m, k, .s => !(k ≤ 0x05 || (0x20 ≤ k && k ≤ 0x26))
  | _, _, _ => true

/-- The transfer instructions (R76): BR, JAL, JALR, LOOPM, END, ERET and YIELD. -/
def isTransfer : OpMap → Nat → Bool
  | .x, k => k == 0x60 || k == 0x4A || k == 0x18 || k == 0x4B || k == 0x1E || k == 0x1F || k == 0x2B
  | _, _ => false

/-- A W-form opcode has OPC[6:5] = 2 (R73). -/
def isWide (k : Nat) : Bool := k / 32 == 2

/-- A decoded lane of a line: its number, its queue and its instruction. -/
structure Lane where
  idx : Nat
  q : Queue
  instr : Instr
  deriving DecidableEq, Repr

/-- The outcome of decoding a line (R76): a pad line, the lanes in ascending order, or the single fault reported,
as its cause code (R79), the lane it names and the queue code of that lane. -/
inductive LineRes where
  | pad
  | lanes (ls : List Lane)
  | fault (cause lane qc : Nat)
  deriving DecidableEq, Repr

/-- The queue code of lane i in the header (R68). -/
def qcOf (l : FetchLine) (i : Nat) : Nat := (l.extractLsb' (4 * i) 4).toNat

/-- The detail code cat(D, lane) of a decoding fault (R79). -/
def detail (d lane : Nat) : Nat := 8 * d + lane

/-- The D part of ILLEGAL_LANE for a queue (R79). -/
def laneFaultD : Queue → Nat
  | .l => 2
  | .c => 3
  | .s => 4
  | .f => 6
  | .x => 0

/-- The checks on one lane that is neither empty nor an extension (R76), in their order. Answers the instruction,
whether it opens an extension and whether it is a transfer, or the cause code. -/
def decodeLane (pf : Profile) (body seen : Bool) (l : FetchLine) (i : Nat) (q : Queue) :
    Except Nat (Instr × Bool × Bool) :=
  let w := laneOf l i
  let k := (w.extractLsb' 18 7).toNat
  let mp := pf.map q
  if !pf.hasQueue q then .error (detail (laneFaultD q) i)
  else if !assigned mp k || pf.removes mp k then .error (detail 7 i)
  else if !legalIn mp k q then .error (detail (laneFaultD q) i)
  else if (q == .x || q == .f) && w.extractLsb' 28 4 != 0#4 then .error (detail 1 i)
  else if isWide k && (i == 7 || qcOf l (i + 1) != 5) then .error (detail 0 i)
  else if isTransfer mp k && (body || seen) then .error (detail 0 i)
  else
    match decodeOp mp w (if isWide k then laneOf l (i + 1) else 0) with
    | .ok ins => .ok (ins, isWide k, isTransfer mp k)
    | .badOpcode => .error (detail 7 i)
    | .badOperand => .error (detail 5 i)

/-- Decodes the lanes from number i on (R76): opens says that lane i - 1 opens an extension, seen that a transfer
stands in a lower lane. -/
def decodeLanes (pf : Profile) (body : Bool) (l : FetchLine) : List Nat → Bool → Bool → List Lane → LineRes
  | [], _, _, acc => .lanes acc.reverse
  | i :: rest, opens, seen, acc =>
    let qc := qcOf l i
    if qc == 0 then decodeLanes pf body l rest false seen acc
    else if qc ≥ 7 then .fault (detail 0 i) i qc
    else if qc == 5 then
      if opens then decodeLanes pf body l rest false seen acc else .fault (detail 0 i) i qc
    else
      match queueOf qc with
      | none => .fault (detail 0 i) i qc
      | some q =>
        match decodeLane pf body seen l i q with
        | .error c => .fault c i qc
        | .ok (ins, wide, tr) => decodeLanes pf body l rest wide (seen || tr) (⟨i, q, ins⟩ :: acc)

/-- Decodes a line as a whole (R76): the kind, the way it was reached (R77), then the lanes. -/
def decodeLine (pf : Profile) (how : Reach) (l : FetchLine) : LineRes :=
  let kind := (l.extractLsb' 0 4).toNat
  if kind == 15 then .pad
  else if kind > 2 then .fault (detail 0 0) 0 0
  else if (kind == 1) != (how == .body) || (how == .handler && kind != 2) then .fault (detail 1 0) 0 0
  else decodeLanes pf (kind == 1) l [1, 2, 3, 4, 5, 6, 7] false false []

/-- The encoding of an instruction: its map, its fields and its extension word, zero where the form has none. -/
structure Enc where
  map : OpMap
  fld : Fld
  ext : Word
  deriving DecidableEq, Repr

/-- An encoding from its parts: the operand field is 18 bits, the extension word 32 (R71, R73). -/
def Enc.of {n k : Nat} (map : OpMap) (hdr : Hdr) (opc : BitVec 7) (ops : BitVec n) (ext : BitVec k) : Enc :=
  ⟨map, ⟨hdr, opc, ops.setWidth 18⟩, ext.setWidth 32⟩

/-- The encoding of an instruction, from the encoding tables of the spec; an event of the machine has none. -/
def encode : Instr → Option Enc
  | .add y d a b => some (.of .x (.plain y) 0x00#7 (d ++ a ++ b ++ 0#3) (0#32))
  | .sub y d a b => some (.of .x (.plain y) 0x01#7 (d ++ a ++ b ++ 0#3) (0#32))
  | .and y d a b => some (.of .x (.plain y) 0x02#7 (d ++ a ++ b ++ 0#3) (0#32))
  | .or y d a b => some (.of .x (.plain y) 0x03#7 (d ++ a ++ b ++ 0#3) (0#32))
  | .xor y d a b => some (.of .x (.plain y) 0x04#7 (d ++ a ++ b ++ 0#3) (0#32))
  | .andn y d a b => some (.of .x (.plain y) 0x05#7 (d ++ a ++ b ++ 0#3) (0#32))
  | .sll y d a b => some (.of .x (.plain y) 0x06#7 (d ++ a ++ b ++ 0#3) (0#32))
  | .srl y d a b => some (.of .x (.plain y) 0x07#7 (d ++ a ++ b ++ 0#3) (0#32))
  | .sra y d a b => some (.of .x (.plain y) 0x08#7 (d ++ a ++ b ++ 0#3) (0#32))
  | .mul y d a b => some (.of .x (.plain y) 0x09#7 (d ++ a ++ b ++ 0#3) (0#32))
  | .mulh y d a b => some (.of .x (.plain y) 0x0A#7 (d ++ a ++ b ++ 0#3) (0#32))
  | .mulhu y d a b => some (.of .x (.plain y) 0x0B#7 (d ++ a ++ b ++ 0#3) (0#32))
  | .min y d a b => some (.of .x (.plain y) 0x0C#7 (d ++ a ++ b ++ 0#3) (0#32))
  | .max y d a b => some (.of .x (.plain y) 0x0D#7 (d ++ a ++ b ++ 0#3) (0#32))
  | .minu y d a b => some (.of .x (.plain y) 0x0E#7 (d ++ a ++ b ++ 0#3) (0#32))
  | .maxu y d a b => some (.of .x (.plain y) 0x0F#7 (d ++ a ++ b ++ 0#3) (0#32))
  | .clz y d a => some (.of .x (.plain y) 0x10#7 (d ++ a ++ 0#8) (0#32))
  | .ctz y d a => some (.of .x (.plain y) 0x11#7 (d ++ a ++ 0#8) (0#32))
  | .popc y d a => some (.of .x (.plain y) 0x12#7 (d ++ a ++ 0#8) (0#32))
  | .bswap y d a => some (.of .x (.plain y) 0x13#7 (d ++ a ++ 0#8) (0#32))
  | .sel y d a b c => some (.of .x (.plain y) 0x14#7 (d ++ a ++ b ++ c) (0#32))
  | .cmp y c k a b m => some (.of .x (.plain y) 0x15#7 (c ++ k ++ a ++ b ++ m) (0#32))
  | .cmpu y c k a b m => some (.of .x (.plain y) 0x16#7 (c ++ k ++ a ++ b ++ m) (0#32))
  | .addsh y d a b s => some (.of .x (.plain y) 0x17#7 (d ++ a ++ b ++ s) (0#32))
  | .jalr y d a => some (.of .x (.plain y) 0x18#7 (d ++ a ++ 0#8) (0#32))
  | .tbr y d => some (.of .x (.plain y) 0x19#7 (d ++ 0#13) (0#32))
  | .scht y d => some (.of .x (.plain y) 0x1A#7 (d ++ 0#13) (0#32))
  | .pwait y a => some (.of .x (.plain y) 0x1B#7 (0#5 ++ a ++ 0#8) (0#32))
  | .punpin y a => some (.of .x (.plain y) 0x1C#7 (0#5 ++ a ++ 0#8) (0#32))
  | .pinv y a => some (.of .x (.plain y) 0x1D#7 (0#5 ++ a ++ 0#8) (0#32))
  | .pinvAll y => some (.of .x (.plain y) 0x1D#7 (1#18) (0#32))
  | .endc y => some (.of .x (.plain y) 0x1E#7 (0#18) (0#32))
  | .eret y => some (.of .x (.plain y) 0x1F#7 (0#18) (0#32))
  | .addi y d a i => some (.of .x (.plain y) 0x20#7 (d ++ a ++ i) (0#32))
  | .andi y d a i => some (.of .x (.plain y) 0x21#7 (d ++ a ++ i) (0#32))
  | .ori y d a i => some (.of .x (.plain y) 0x22#7 (d ++ a ++ i) (0#32))
  | .xori y d a i => some (.of .x (.plain y) 0x23#7 (d ++ a ++ i) (0#32))
  | .slli y d a s => some (.of .x (.plain y) 0x24#7 (d ++ a ++ 0#2 ++ s) (0#32))
  | .srli y d a s => some (.of .x (.plain y) 0x25#7 (d ++ a ++ 0#2 ++ s) (0#32))
  | .srai y d a s => some (.of .x (.plain y) 0x26#7 (d ++ a ++ 0#2 ++ s) (0#32))
  | .cmpi y c k a i => some (.of .x (.plain y) 0x27#7 (c ++ k ++ a ++ i) (0#32))
  | .cmpui y c k a i => some (.of .x (.plain y) 0x28#7 (c ++ k ++ a ++ i) (0#32))
  | .dly y a i => some (.of .x (.plain y) 0x29#7 (0#5 ++ a ++ i) (0#32))
  | .trap y a c => some (.of .x (.plain y) 0x2A#7 (0#5 ++ a ++ 0#2 ++ c) (0#32))
  | .yield y => some (.of .x (.plain y) 0x2B#7 (0#18) (0#32))
  | .movw y d i => some (.of .x (.plain y) 0x40#7 (d ++ 0#13) (i))
  | .movhw y d a i => some (.of .x (.plain y) 0x41#7 (d ++ a ++ 0#8) (i))
  | .addw y d a i => some (.of .x (.plain y) 0x42#7 (d ++ a ++ 0#8) (i))
  | .bfxu y d a xs xr len im => some (.of .x (.plain y) 0x43#7 (d ++ a ++ 0#8) (0#11 ++ xs ++ xr ++ len ++ 0#2 ++ im))
  | .bfxs y d a xs xr len im => some (.of .x (.plain y) 0x44#7 (d ++ a ++ 0#8) (0#11 ++ xs ++ xr ++ len ++ 0#2 ++ im))
  | .bfi y d a xs xr len im => some (.of .x (.plain y) 0x45#7 (d ++ a ++ 0#8) (0#11 ++ xs ++ xr ++ len ++ 0#2 ++ im))
  | .fshl y d a b xs xr len im => some (.of .x (.plain y) 0x46#7 (d ++ a ++ b ++ 0#3) (0#11 ++ xs ++ xr ++ len ++ 0#2 ++ im))
  | .fshr y d a b xs xr len im => some (.of .x (.plain y) 0x47#7 (d ++ a ++ b ++ 0#3) (0#11 ++ xs ++ xr ++ len ++ 0#2 ++ im))
  | .srd y d n => some (.of .x (.plain y) 0x48#7 (d ++ 0#13) (0#20 ++ n))
  | .swr y a n => some (.of .x (.plain y) 0x49#7 (0#5 ++ a ++ 0#8) (0#20 ++ n))
  | .jal y d t => some (.of .x (.plain y) 0x4A#7 (d ++ 0#13) (0#19 ++ t))
  | .loopm y a n ii => some (.of .x (.plain y) 0x4B#7 (0#5 ++ a ++ 0#8) (0#17 ++ ii ++ 0#1 ++ n))
  | .probe y d a t => some (.of .x (.plain y) 0x4C#7 (d ++ a ++ 0#8) (0#19 ++ t))
  | .br y c g o => some (.of .x (.plain y) 0x60#7 (c ++ g ++ o) (0#32))
  | .vld h d a k e => some (.of .m h 0x00#7 (d ++ a ++ 0#5 ++ k ++ 0#1 ++ e) (0#32))
  | .vldc h d a b k e => some (.of .m h 0x01#7 (d ++ a ++ b ++ k ++ 0#1 ++ e) (0#32))
  | .vlds h d a b k e => some (.of .m h 0x02#7 (d ++ a ++ b ++ k ++ 0#1 ++ e) (0#32))
  | .vldb h d a k t e => some (.of .m h 0x03#7 (d ++ a ++ 0#5 ++ k ++ t ++ e) (0#32))
  | .vldg h d a b k e => some (.of .m h 0x04#7 (d ++ a ++ b ++ k ++ 0#1 ++ e) (0#32))
  | .vldm h d a => some (.of .m h 0x05#7 (d ++ a ++ 0#8) (0#32))
  | .vst h d a k e => some (.of .m h 0x06#7 (d ++ a ++ 0#5 ++ k ++ 0#1 ++ e) (0#32))
  | .vstc h d a b k e => some (.of .m h 0x07#7 (d ++ a ++ b ++ k ++ 0#1 ++ e) (0#32))
  | .vsts h d a b k e => some (.of .m h 0x08#7 (d ++ a ++ b ++ k ++ 0#1 ++ e) (0#32))
  | .vstx h d a b k e => some (.of .m h 0x09#7 (d ++ a ++ b ++ k ++ 0#1 ++ e) (0#32))
  | .vstm h d a => some (.of .m h 0x0A#7 (d ++ a ++ 0#8) (0#32))
  | .tmov h d a b t => some (.of .m h 0x0B#7 (d ++ a ++ b ++ 0#2 ++ t) (0#32))
  | .ownE h a b t => some (.of .m h 0x0C#7 (0#5 ++ a ++ b ++ 0#1 ++ t ++ 0#1) (0#32))
  | .ownC h a b t => some (.of .m h 0x0C#7 (0#5 ++ a ++ b ++ 0#1 ++ t ++ 1#1) (0#32))
  | .fence h s => some (.of .m h 0x0D#7 (0#15 ++ s) (0#32))
  | .rclaim h d b u => some (.of .m h 0x0E#7 (d ++ 0#5 ++ b ++ 0#2 ++ u) (0#32))
  | .rcommit h a b u => some (.of .m h 0x0F#7 (0#5 ++ a ++ b ++ 0#2 ++ u) (0#32))
  | .rwaitf h a b u => some (.of .m h 0x10#7 (0#5 ++ a ++ b ++ 0#2 ++ u) (0#32))
  | .rwaite h a b u => some (.of .m h 0x11#7 (0#5 ++ a ++ b ++ 0#2 ++ u) (0#32))
  | .rpop h a b u => some (.of .m h 0x12#7 (0#5 ++ a ++ b ++ 0#2 ++ u) (0#32))
  | .rpeek h d a b u => some (.of .m h 0x13#7 (d ++ a ++ b ++ 0#2 ++ u) (0#32))
  | .bara h d a g => some (.of .m h 0x14#7 (d ++ a ++ 0#7 ++ g) (0#32))
  | .barw h a b => some (.of .m h 0x15#7 (0#5 ++ a ++ b ++ 0#3) (0#32))
  | .pbara h a => some (.of .m h 0x16#7 (0#5 ++ a ++ 0#8) (0#32))
  | .pbarw h a => some (.of .m h 0x17#7 (0#5 ++ a ++ 0#8) (0#32))
  | .semw h a b => some (.of .m h 0x18#7 (0#5 ++ a ++ b ++ 0#3) (0#32))
  | .sems h a b g => some (.of .m h 0x19#7 (0#5 ++ a ++ b ++ 0#2 ++ g) (0#32))
  | .send h a b => some (.of .m h 0x1A#7 (0#5 ++ a ++ b ++ 0#3) (0#32))
  | .cwwaitSent h a b => some (.of .m h 0x1B#7 (0#5 ++ a ++ b ++ 0#3) (0#32))
  | .cwwaitArr h a b => some (.of .m h 0x1B#7 (0#5 ++ a ++ b ++ 1#3) (0#32))
  | .pbinv h a => some (.of .m h 0x1C#7 (0#5 ++ a ++ 0#8) (0#32))
  | .pbinvAll h => some (.of .m h 0x1C#7 (1#18) (0#32))
  | .ldb h d a i => some (.of .m h 0x20#7 (d ++ a ++ i) (0#32))
  | .ldbu h d a i => some (.of .m h 0x21#7 (d ++ a ++ i) (0#32))
  | .ldh h d a i => some (.of .m h 0x22#7 (d ++ a ++ i) (0#32))
  | .ldhu h d a i => some (.of .m h 0x23#7 (d ++ a ++ i) (0#32))
  | .ldw h d a i => some (.of .m h 0x24#7 (d ++ a ++ i) (0#32))
  | .ldwu h d a i => some (.of .m h 0x25#7 (d ++ a ++ i) (0#32))
  | .ldd h d a i => some (.of .m h 0x26#7 (d ++ a ++ i) (0#32))
  | .stb h d a i => some (.of .m h 0x27#7 (d ++ a ++ i) (0#32))
  | .sth h d a i => some (.of .m h 0x28#7 (d ++ a ++ i) (0#32))
  | .stw h d a i => some (.of .m h 0x29#7 (d ++ a ++ i) (0#32))
  | .std h d a i => some (.of .m h 0x2A#7 (d ++ a ++ i) (0#32))
  | .bari h a i => some (.of .m h 0x2B#7 (0#5 ++ a ++ i) (0#32))
  | .cpy h a x => some (.of .m h 0x40#7 (0#5 ++ a ++ 0#8) (0#18 ++ x.toBits))
  | .cpyt h a b x => some (.of .m h 0x41#7 (0#5 ++ a ++ b ++ 0#3) (0#18 ++ x.toBits))
  | .cacc h a x op ty => some (.of .m h 0x42#7 (0#5 ++ a ++ 0#8) (0#11 ++ ty ++ op ++ 0#2 ++ x.toBits))
  | .caccf h a x op ty => some (.of .m h 0x43#7 (0#5 ++ a ++ 0#8) (0#11 ++ ty ++ op ++ 0#2 ++ x.toBits))
  | .cswp h d a b x sz sp => some (.of .m h 0x44#7 (d ++ a ++ b ++ 0#3) (0#14 ++ sp ++ sz ++ 0#2 ++ x.toBits))
  | .ccas h d a b x sz sp => some (.of .m h 0x45#7 (d ++ a ++ b ++ 0#3) (0#14 ++ sp ++ sz ++ 0#2 ++ x.toBits))
  | .cpsm h a x set => some (.of .m h 0x46#7 (0#5 ++ a ++ 0#8) (0#11 ++ set ++ 0#2 ++ x.toBits))
  | .cwalk h a b x qi qv vsz => some (.of .m h 0x47#7 (0#5 ++ a ++ b ++ 0#3) (0#2 ++ vsz ++ qv ++ qi ++ 0#2 ++ x.toBits))
  | .cgath h a x => some (.of .m h 0x48#7 (0#5 ++ a ++ 0#8) (0#18 ++ x.toBits))
  | .cscat h a x => some (.of .m h 0x49#7 (0#5 ++ a ++ 0#8) (0#18 ++ x.toBits))
  | .cput h a x pc => some (.of .m h 0x4A#7 (0#5 ++ a ++ 0#8) (0#10 ++ pc ++ 0#2 ++ x.toBits))
  | .hscan h a x => some (.of .m h 0x4B#7 (0#5 ++ a ++ 0#8) (0#18 ++ x.toBits))
  | .hgath h a x => some (.of .m h 0x4C#7 (0#5 ++ a ++ 0#8) (0#18 ++ x.toBits))
  | .hred h a x => some (.of .m h 0x4D#7 (0#5 ++ a ++ 0#8) (0#18 ++ x.toBits))
  | .hcvt h a x => some (.of .m h 0x4E#7 (0#5 ++ a ++ 0#8) (0#18 ++ x.toBits))
  | .vadd h d a b k f => some (.of .v h 0x00#7 (d ++ a ++ b ++ k ++ f) (0#32))
  | .vsub h d a b k f => some (.of .v h 0x01#7 (d ++ a ++ b ++ k ++ f) (0#32))
  | .vmul h d a b k f => some (.of .v h 0x02#7 (d ++ a ++ b ++ k ++ f) (0#32))
  | .vfma h d a b k f => some (.of .v h 0x03#7 (d ++ a ++ b ++ k ++ f) (0#32))
  | .vfms h d a b k f => some (.of .v h 0x04#7 (d ++ a ++ b ++ k ++ f) (0#32))
  | .vmin h d a b k f => some (.of .v h 0x05#7 (d ++ a ++ b ++ k ++ f) (0#32))
  | .vmax h d a b k f => some (.of .v h 0x06#7 (d ++ a ++ b ++ k ++ f) (0#32))
  | .vabs h d a r k f => some (.of .v h 0x07#7 (d ++ a ++ 0#2 ++ r ++ k ++ f) (0#32))
  | .vneg h d a r k f => some (.of .v h 0x08#7 (d ++ a ++ 0#2 ++ r ++ k ++ f) (0#32))
  | .vclamp h d a b k f => some (.of .v h 0x09#7 (d ++ a ++ b ++ k ++ f) (0#32))
  | .vcmp h f v a b c => some (.of .v h 0x0A#7 (f ++ v ++ a ++ b ++ c) (0#32))
  | .vsel h d a b s => some (.of .v h 0x0B#7 (d ++ a ++ b ++ s) (0#32))
  | .vcvt h d a c k m => some (.of .v h 0x0C#7 (d ++ a ++ c ++ k ++ m) (0#32))
  | .vqnt h a b f => some (.of .v h 0x0D#7 (0#5 ++ a ++ b ++ f) (0#32))
  | .vdqnt h a b f => some (.of .v h 0x0E#7 (0#5 ++ a ++ b ++ 0#1 ++ f) (0#32))
  | .vperm h d a b k o => some (.of .v h 0x0F#7 (d ++ a ++ b ++ k ++ o) (0#32))
  | .viadd h d a b k t => some (.of .v h 0x10#7 (d ++ a ++ b ++ k ++ t) (0#32))
  | .visub h d a b k t => some (.of .v h 0x11#7 (d ++ a ++ b ++ k ++ t) (0#32))
  | .vimul h d a b k t => some (.of .v h 0x12#7 (d ++ a ++ b ++ k ++ t) (0#32))
  | .vimac8 h d a b k s u => some (.of .v h 0x13#7 (d ++ a ++ b ++ k ++ s ++ u) (0#32))
  | .vimin h d a b k t => some (.of .v h 0x14#7 (d ++ a ++ b ++ k ++ t) (0#32))
  | .vimax h d a b k t => some (.of .v h 0x15#7 (d ++ a ++ b ++ k ++ t) (0#32))
  | .viclamp h d a b k t => some (.of .v h 0x16#7 (d ++ a ++ b ++ k ++ t) (0#32))
  | .vicmp h t v a b c => some (.of .v h 0x17#7 (t ++ v ++ a ++ b ++ c) (0#32))
  | .vand h d a b k => some (.of .v h 0x18#7 (d ++ a ++ b ++ k ++ 0#2) (0#32))
  | .vor h d a b k => some (.of .v h 0x19#7 (d ++ a ++ b ++ k ++ 0#2) (0#32))
  | .vxor h d a b k => some (.of .v h 0x1A#7 (d ++ a ++ b ++ k ++ 0#2) (0#32))
  | .vshl h d a b k s => some (.of .v h 0x1B#7 (d ++ a ++ b ++ k ++ s) (0#32))
  | .vshr h d a b k s => some (.of .v h 0x1C#7 (d ++ a ++ b ++ k ++ s) (0#32))
  | .vsra h d a b k s => some (.of .v h 0x1D#7 (d ++ a ++ b ++ k ++ s) (0#32))
  | .vrshr h d a b k r => some (.of .v h 0x1E#7 (d ++ a ++ b ++ k ++ r) (0#32))
  | .vmov h d a r k => some (.of .v h 0x1F#7 (d ++ a ++ 0#2 ++ r ++ k ++ 0#2) (0#32))
  | .vexp2 h d a r k f => some (.of .v h 0x20#7 (d ++ a ++ 0#2 ++ r ++ k ++ f) (0#32))
  | .vlog2 h d a r k f => some (.of .v h 0x21#7 (d ++ a ++ 0#2 ++ r ++ k ++ f) (0#32))
  | .vexp h d a r k f => some (.of .v h 0x22#7 (d ++ a ++ 0#2 ++ r ++ k ++ f) (0#32))
  | .vlog h d a r k f => some (.of .v h 0x23#7 (d ++ a ++ 0#2 ++ r ++ k ++ f) (0#32))
  | .vrsqrt h d a r k f => some (.of .v h 0x24#7 (d ++ a ++ 0#2 ++ r ++ k ++ f) (0#32))
  | .vrcp h d a r k f => some (.of .v h 0x25#7 (d ++ a ++ 0#2 ++ r ++ k ++ f) (0#32))
  | .vsqrt h d a r k f => some (.of .v h 0x26#7 (d ++ a ++ 0#2 ++ r ++ k ++ f) (0#32))
  | .vtanh h d a r k f => some (.of .v h 0x27#7 (d ++ a ++ 0#2 ++ r ++ k ++ f) (0#32))
  | .vsigm h d a r k f => some (.of .v h 0x28#7 (d ++ a ++ 0#2 ++ r ++ k ++ f) (0#32))
  | .vrotr h d a k s => some (.of .v h 0x29#7 (d ++ a ++ 0#1 ++ k ++ s) (0#32))
  | .vrotc h d a k s => some (.of .v h 0x2A#7 (d ++ a ++ 0#1 ++ k ++ 0#2 ++ s) (0#32))
  | .vbcr h d a k s => some (.of .v h 0x2B#7 (d ++ a ++ 0#1 ++ k ++ s) (0#32))
  | .vbcc h d a k s => some (.of .v h 0x2C#7 (d ++ a ++ 0#1 ++ k ++ 0#2 ++ s) (0#32))
  | .vredr h d a c t o => some (.of .v h 0x2D#7 (d ++ a ++ 0#3 ++ c ++ t ++ o) (0#32))
  | .vredc h d a c t o => some (.of .v h 0x2E#7 (d ++ a ++ 0#3 ++ c ++ t ++ o) (0#32))
  | .vmand h d a b => some (.of .v h 0x2F#7 (d ++ a ++ 0#5 ++ b) (0#32))
  | .vmor h d a b => some (.of .v h 0x30#7 (d ++ a ++ 0#5 ++ b) (0#32))
  | .vmxor h d a b => some (.of .v h 0x31#7 (d ++ a ++ 0#5 ++ b) (0#32))
  | .vmandn h d a b => some (.of .v h 0x32#7 (d ++ a ++ 0#5 ++ b) (0#32))
  | .vmnot h d a => some (.of .v h 0x33#7 (d ++ a ++ 0#8) (0#32))
  | .vmovi h d k i => some (.of .v h 0x40#7 (d ++ 0#10 ++ k ++ 0#2) (i))
  | .vmovx h d a k row col mode => some (.of .v h 0x41#7 (d ++ a ++ 0#5 ++ k ++ 0#2) (0#20 ++ mode ++ col ++ row))
  | .mgo h => some (.of .e h 0x00#7 (0#18) (0#32))
  | .mpass h a b => some (.of .e h 0x01#7 (0#5 ++ a ++ b ++ 0#3) (0#32))
  | .mwait h e => some (.of .e h 0x02#7 (0#17 ++ e) (0#32))
  | .mzero h a => some (.of .e h 0x03#7 (0#5 ++ a ++ 0#8) (0#32))
  | .mdrain h a b c f => some (.of .e h 0x04#7 (0#5 ++ a ++ b ++ c ++ f) (0#32))
  | .mdrainq h d a b f => some (.of .e h 0x05#7 (d ++ a ++ b ++ f) (0#32))
  | .mstream h b => some (.of .e h 0x06#7 (0#10 ++ b ++ 0#3) (0#32))
  | .maccld h a b c f => some (.of .e h 0x07#7 (0#5 ++ a ++ b ++ c ++ f) (0#32))
  | .mstat h d a c s => some (.of .e h 0x08#7 (d ++ a ++ 0#5 ++ c ++ s) (0#32))
  | .mspass h a b => some (.of .e h 0x09#7 (0#5 ++ a ++ b ++ 0#3) (0#32))
  | .msgo h => some (.of .e h 0x0A#7 (0#18) (0#32))
  | .mcfg h d half i => some (.of .e h 0x40#7 (d ++ 0#12 ++ half) (i))
  | .mcfgr h d a b r2 pair => some (.of .e h 0x41#7 (d ++ a ++ b ++ 0#3) (0#26 ++ pair ++ r2))
  | .fbind y d a h k => some (.of .f (.plain y) 0x00#7 (d ++ a ++ 0#5 ++ h ++ k) (0#32))
  | .funbind y d => some (.of .f (.plain y) 0x01#7 (d ++ 0#13) (0#32))
  | .fstart y a => some (.of .f (.plain y) 0x02#7 (0#5 ++ a ++ 0#8) (0#32))
  | .fphase y d => some (.of .f (.plain y) 0x03#7 (d ++ 0#13) (0#32))
  | .fstop y a => some (.of .f (.plain y) 0x04#7 (0#5 ++ a ++ 0#8) (0#32))
  | .fhnd y a => some (.of .f (.plain y) 0x05#7 (0#5 ++ a ++ 0#8) (0#32))
  | .finj y a b => some (.of .f (.plain y) 0x06#7 (0#5 ++ a ++ b ++ 0#3) (0#32))
  | .fstat y d s => some (.of .f (.plain y) 0x07#7 (d ++ 0#10 ++ s) (0#32))
  | .fload y a i => some (.of .f (.plain y) 0x40#7 (0#5 ++ a ++ 0#8) (i))
  | .reset | .linkTrainingDone | .zeroFillDone | .clusterPowerUp | .dieFence | .dieFailure | .gqdbDoorbell
  | .graphStart | .taskNode | .condNode | .loopNode | .waitNode | .signalNode | .copyNode | .progNode
  | .endNode | .graphAbort | .agingStep | .placerPass | .taskStart | .powerClassApply | .cmdNop | .cmdCopy
  | .cmdIload | .cmdIloadDone | .cmdStart | .semIncrementArrival | .tideHoldRequest | .tideHoldReach
  | .tideHoldResumeNotice | .tideHoldRelease | .holdExpired | .lineFetch | .laneEnqueue | .instructionComplete
  | .waitSatisfied | .moduloBodyFetch | .moduloStep | .contextEnd | .registerWrite | .sperrClear | .prbcfgWrite
  | .qcfgWrite | .msgcfgWrite | .xfactRetry | .xfactFail | .winWrite | .stkctlLose | .pcreqGo | .pqctlQreq
  | .pqctlSave | .pqctlGate | .pqctlWake | .pwrlimWrite | .thermClear | .almcfgWrite | .attestRequest
  | .attestReportDone | .probeFillComplete | .nestActivate | .matrixPassStart | .matrixPassRetire
  | .mstreamRowEmit | .copyComplete | .copyErrorComplete | .timetableIssue | .accumulateApply | .cwalkSlotFill
  | .putArrival | .putAck | .pontoonExec | .chainFerryFlitArrival | .sourceRowEmit | .sinkRowWrite
  | .accumulateSinkApply | .fabricRecordDeliver | .fabricRunning | .fabricDrain | .fabricPhaseComplete
  | .floadComplete | .deviceMemoryRead | .stripeWriteAccept | .partialStripeWrite | .parityDeltaApply
  | .fullStripeWrite | .reconstructedRead | .refreshCheckReport | .stackLoss | .stackEngineStart
  | .hCommandComplete | .ringUpdateArrival | .barrierArrival | .pbarRelease | .messageTake | .handlerStart
  | .trapEntry | .preemptNotice | .victimStopped | .partitionEvict | .forcedStop | .taskResume | .taskRerun
  | .linkCrcError | .laneRepairDone | .linkLockLost | .retrainTryEnd | .partRetire | .hostBar2Write
  | .hostBar2Read | .switchTakeover | .dvfsVoltageRiseDone | .dvfsFreqSwitchDone | .dvfsVoltageFallDone
  | .pcsnapCapture | .quiesceDone | .wakeDone | .thermHot | .thermCrit | .alarmRaise | .translationWalkDone
  | .matrixDrainComplete | .tileMoveComplete | .peerLinkDown | .engineInternalError => none

/-- The lane word and the extension word of an instruction (R71, R73): the words a line holds for it. -/
def encodeWords (i : Instr) : Option (Word × Word) := (encode i).map fun n => (n.fld.toWord, n.ext)

/-- The instruction of a lane word in the first map that takes it. Table words are written without their queue, and
the maps share their opcodes (R80), so a word may be an instruction of several maps: the order X, matrix C, F, M,
vector C, the narrowest map first, is the model's (DESIGN CHOICE, notes/assumptions/3.md). -/
def decodeAnyMap (w e : Word) : Option (OpMap × Instr) :=
  let try1 (mp : OpMap) : Option (OpMap × Instr) :=
    if (mp == .x || mp == .f) && w.extractLsb' 28 4 != 0#4 then none
    else match decodeOp mp w e with
      | .ok i => some (mp, i)
      | .badOpcode => none
      | .badOperand => none
  (try1 .x) <|> (try1 .e) <|> (try1 .f) <|> (try1 .m) <|> (try1 .v)

/-- The instruction of a table word: the lane word is the low 32 bits, the extension word the next 32. -/
def decodeTableWord (_nbits w : Nat) : Option Instr :=
  (decodeAnyMap (BitVec.ofNat 32 w) (BitVec.ofNat 32 (w / 2 ^ 32))).map Prod.snd

end Sys2Proof
end

