-- ==== Sys2Proof/Machine/Maps.lean ====
section
/-! DEFINITION. Tables by number, as plain data: a list of pairs with the keys rising. The value at a key that is not
listed is the default the reader names. -/

namespace Sys2Proof.Machine

/-- A table from numbers to values. -/
abbrev FMap (α : Type) := List (Nat × α)

/-- The value at a key, or the default. -/
def fget {α : Type} (m : FMap α) (k : Nat) (d : α) : α :=
  match m with
  | [] => d
  | (i, v) :: r => if i = k then v else fget r k d

/-- The value at a key, if it is listed. -/
def fget? {α : Type} (m : FMap α) (k : Nat) : Option α :=
  match m with
  | [] => none
  | (i, v) :: r => if i = k then some v else fget? r k

/-- Sets the value at a key, keeping the keys in rising order. -/
def fset {α : Type} (m : FMap α) (k : Nat) (v : α) : FMap α :=
  match m with
  | [] => [(k, v)]
  | (i, w) :: r => if k < i then (k, v) :: (i, w) :: r else if k = i then (k, v) :: r else (i, w) :: fset r k v

/-- Removes a key. -/
def fdel {α : Type} (m : FMap α) (k : Nat) : FMap α := m.filter fun e => e.1 != k

/-- Sets every key of a list. -/
def fsetAll {α : Type} (m : FMap α) (ks : List Nat) (v : α) : FMap α := ks.foldl (fun m k => fset m k v) m

end Sys2Proof.Machine
end

