-- ==== Sys2Proof/Machine/Positions.lean ====
section
/-! DEFINITION. The positions of the package and the kind of die each holds (01_package.md R8). -/

namespace Sys2Proof.Machine

/-- KIND of a position (R8, R17): 1 SW, 2 MX, 3 VN, 4 BF, 5 SG, 6 stack base, 0 beyond. -/
def kindOf (p : Nat) : Nat :=
  if p < 2 then 1 else if p < 10 then 2 else if p < 14 then 3 else if p < 20 then 4
  else if p < 22 then 5 else if p < 34 then 6 else 0

end Sys2Proof.Machine
end

