-- ==== Sys2Proof/Machine/State.lean ====
section
/-! DEFINITION. The state of the package as plain data: contexts, cores, tasks and parts, engines, stacks, links,
the host's side and the purser's registers, and State.reset. -/

namespace Sys2Proof.Machine

/-- Why the machine can stop. -/
inductive Fault where
  /-- An event of the machine was asked for in a state in which it cannot occur (the command, task or agent it names
  does not stand where the event's rule needs it). Raised by the meanings of the event rows only; a run of step never
  asks for such an event. Safe: nothing is claimed of such a state. -/
  | notEnabled
  deriving DecidableEq, Repr

/-- Why an instruction can have no meaning. -/
inductive Refusal where
  /-- The instruction has no meaning yet. Raised by the arms of exec that name it. Safe. -/
  | notModelled (mnemonic : String)
  deriving DecidableEq, Repr

/-! ## Contexts -/

/-- The six token FIFOs as counts, in the order of R102: L to C, C to S, S to L, C to L, S to C, L to S. -/
structure Toks where
  lc : Nat := 0
  cs : Nat := 0
  sl : Nat := 0
  cl : Nat := 0
  sc : Nat := 0
  ls : Nat := 0
  deriving DecidableEq, Repr

/-- An entry of a queue (R98, R100, R413): the instruction with its captured operands. -/
structure Entry where
  instr : Instr
  q : Queue := .l
  line : Nat := 0
  lane : Nat := 0
  /-- The iteration whose register names the entry uses (R122); 0 outside the modulo sequencer. -/
  rot : Nat := 0
  /-- TOKDONE: the instruction has issued and waits, its tokens and posts are counted (R399). -/
  tokDone : Bool := false
  /-- What a waiting instruction waits for, as it stood when it issued (R267, R273, R327, R389). -/
  wset : List Nat := []
  /-- The faulting entry of a trap frame (R399). -/
  marked : Bool := false
  xa : DWord := 0
  xb : DWord := 0
  xd : DWord := 0
  /-- The clk in which it enqueued. -/
  enq : Nat := 0
  /-- The number of its line among those its context has fetched (R212). -/
  lineNo : Nat := 0
  deriving DecidableEq, Repr

/-- The modulo sequencer of a core (R118 to R123) while it runs. -/
structure Seq where
  /-- The context that owns it, 0 to 7. -/
  ctx : Nat := 0
  /-- The line of the LOOPM. -/
  line : Nat := 0
  n : Nat := 0
  ii : Nat := 1
  trip : Nat := 0
  /-- The body lines fetched into the buffer so far. -/
  body : List (List Lane) := []
  /-- The step being run, and whether its slots have been worked out. -/
  step : Nat := 0
  begun : Bool := false
  /-- The slots of the step that have not fully taken effect, the one in progress first: body line and iteration. -/
  slots : List (Nat × Nat) := []
  /-- The clk in which the step started, and the one in which a lane of it took effect last (R121). -/
  start : Nat := 0
  last : Nat := 0
  deriving DecidableEq, Repr

/-- A trap frame (R399): the state of the interrupted code that the handler must not see. -/
structure Frame where
  ql : List Entry := []
  qc : List Entry := []
  qs : List Entry := []
  qf : List Entry := []
  toks : Toks := {}
  outst : Toks := {}
  re : FMap Nat := []
  rx : FMap Nat := []
  seq : Option Seq := none
  line : Nat := 0
  lane : Nat := 0
  /-- The context had executed END (R116). -/
  ended : Bool := false
  deriving DecidableEq, Repr

/-- A fault waiting to be taken as a trap (R398). -/
structure Pending where
  cause : Nat
  /-- KIND of TCAUSE: 0 decoding, 1 execution, 2 deferred, 3 TRAP instruction. -/
  kind : Nat
  line : Nat
  lane : Nat
  qc : Nat
  val : DWord := 0
  deriving DecidableEq, Repr

/-- What a context is doing: dormant until it is started (R22), running, ended in fetch with work still queued (R116),
or stopped under pre-emption, a failed part or an escalation (R403, R405). -/
inductive Run where
  | dormant | running | draining | stopped
  deriving DecidableEq, Repr

/-- A core context. Its registers, queues, token FIFOs, scoreboard and system registers. -/
structure Ctx where
  run : Run := .dormant
  /-- The part the context runs for, as a key of parts; 0 for none. -/
  part : Nat := 0
  /-- The context has started before in this part (R209). -/
  started : Bool := false
  /-- The line counter (R88): the next line to be fetched. -/
  pc : Nat := 0
  /-- The line whose lanes are taking effect. -/
  line : Nat := 0
  /-- The lanes of that line that have not taken effect. -/
  lanes : List Lane := []
  /-- The line in lanes has started: its room in the queues is reserved (R99). -/
  opened : Bool := false
  /-- Lanes below this number of the next line, or of one that has not started, do not take effect again (R402). -/
  fromLane : Nat := 0
  /-- How the next line, or one that has not started, is reached (R77). -/
  reach : Reach := .flow
  /-- The rotation of the line taking effect (R122). -/
  rot : Nat := 0
  /-- The lanes come from the modulo sequencer. -/
  inBody : Bool := false
  /-- The earliest clk in which the next lane takes effect (R99). -/
  front : Nat := 0
  /-- The clk in which the DLY in progress counts as executed (R142). -/
  dly : Option Nat := none
  /-- The earliest clk of the next X instruction before its delay count (R105). -/
  xnext : Nat := 0
  x : FMap DWord := []
  /-- The clk from which an x register's value can be read (R100). -/
  xrdy : FMap Nat := []
  /-- The queued or issued instructions that still have an x register to write (R100). -/
  xpend : FMap Nat := []
  /-- p0 to p7, p0 in bit 0; p0 reads true whatever bit 0 holds (R124). -/
  p : BitVec 8 := 0
  prdy : FMap Nat := []
  /-- v0 to v31 (R209): 1,024 elements, element (r, c) at 64 r + c. A register that is not listed is zero. -/
  v : FMap (List Word) := []
  /-- vm0 to vm7 (R209): bit (r, c) at 64 r + c. -/
  vm : FMap (BitVec 1024) := []
  /-- RE and RX of the shadow scoreboard (R108); v0 to v31 at 0 to 31, vm0 to vm7 at 32 to 39. -/
  re : FMap Nat := []
  rx : FMap Nat := []
  /-- The clk from which a register whose write has no bound or lands after its bound can be read (R108, R111, R154). -/
  late : FMap Nat := []
  /-- The current RE of a register whose write lands after its bound, but for the delays of R111 (R108). -/
  far : FMap Nat := []
  ql : List Entry := []
  qc : List Entry := []
  qs : List Entry := []
  qf : List Entry := []
  /-- The earliest clk of the next issue of each queue before its delay count, by queue code (R105). -/
  qnext : FMap Nat := []
  /-- The clk from which a held queue head is tried again, by queue code (R101, R109). -/
  qtry : FMap Nat := []
  toks : Toks := {}
  /-- Posts still to be made toward each FIFO (R104). -/
  outst : Toks := {}
  /-- The clk in which the last of what each queue has issued completes, by queue code (R399). -/
  qdone : FMap Nat := []
  /-- The clk in which the last scratchpad access of each queue is performed, by queue code (R362, R367). -/
  acc : FMap Nat := []
  /-- C-queue instructions issued and not yet complete, by the number of their line (R212). -/
  cbusy : List Nat := []
  /-- ISSCTL.SBMODE (R117). -/
  sbmode : Bool := false
  sbstall : DWord := 0
  bkstall : DWord := 0
  lpstall : DWord := 0
  /-- hs1 to hs15 (R149). -/
  hs : FMap DWord := []
  /-- SPCTL.TRAP (R161). -/
  sptrap : Bool := false
  /-- SPERR: VALID, KIND and QUEUE as the register holds them (R161). -/
  sperr : DWord := 0
  spaddr : DWord := 0
  /-- The clk in which SPERR recorded its access (R160). -/
  sperrAt : Nat := 0
  /-- NSTAT (R212). -/
  nstat : BitVec 10 := 0
  /-- TCAUSE.CODE, INTRAP and KIND (R397). -/
  tcode : Nat := 0
  intrap : Bool := false
  tkind : Nat := 0
  tline : Nat := 0
  tlane : Nat := 0
  tqc : Nat := 0
  tskip : Bool := false
  tval : DWord := 0
  tvecLine : BitVec 13 := 0
  tvecEn : Bool := false
  frame : Option Frame := none
  /-- The faults raised and not yet taken (R398). -/
  pend : List Pending := []
  /-- The clk in which fetch and issue have stopped for a fault (R399 step 1). -/
  faultAt : Option Nat := none
  /-- SCHEDTIME of the last yield point (R146), and whether it was reached with a pre-emption pending. -/
  yieldAt : Nat := 0
  yielded : Bool := false
  /-- The number of the current line among those the context has fetched (R212). -/
  lineNo : Nat := 0
  /-- The first clk in which the next line can be fetched (R99, R116). -/
  fetchAt : Nat := 0
  /-- The clks before this one are counted in SBSTALL (R117). -/
  sbUntil : Nat := 0
  /-- The clks before this one are counted in BKSTALL (R117). -/
  bkUntil : Nat := 0
  /-- A routine of a control core (R89): the DVA of line 0 and the root that translates it. -/
  base : Nat := 0
  root : Nat := 0
  /-- The node of a PROG routine, by its number in nodes (R30). -/
  node : Nat := 0
  /-- The package barriers' phases the context joined, by virtual barrier (R368). -/
  pbphase : FMap Nat := []
  /-- The SCHEDTIME at which ctx0 came to its stop under a pre-emption (R405). -/
  stopAt : Option Nat := none
  /-- A command of the routine has completed with error (R46). -/
  cmdBad : Bool := false
  deriving DecidableEq, Repr

/-! ## Cores, parts and tasks -/

/-- What a core keeps for the arbitration of its fetch port and issue slots (R115), by resource: 0 the fetch port,
then the queue codes. -/
structure Slot where
  /-- The first clk in which the resource is free. -/
  free : Nat := 0
  /-- The context that used it last and for how many uses in a row. -/
  last : Nat := 0
  run : Nat := 0
  deriving DecidableEq, Repr

/-- What an instruction that has issued still asks of the banks of its core's unit scratchpad (R112 to R114). -/
structure BankReq where
  ctx : Nat
  q : Queue := .l
  /-- Accesses still to be made, by bank. -/
  left : FMap Nat := []
  /-- Passes of VPERM still to be made, and the clk in which the next is due (R239). -/
  passes : Nat := 0
  due : Nat := 0
  /-- The clk of its last access if no other request delays it. -/
  last : Nat := 0
  /-- The clk in which it lands, and how many clks later it completes (R110). -/
  land : Nat := 0
  tail : Nat := 0
  /-- The register it loads, as the scoreboard names it. -/
  reg : Option Nat := none
  /-- The x register it loads; 0 for none. -/
  x : Nat := 0
  deriving DecidableEq, Repr

/-- What a core keeps of a bank (R114): the context served last and for how many clks in a row; the accesses that its matrix
engine and the other engines ask of it through the engine port, beside an operand fetch; and the clks from which the oldest
request of each has waited. -/
structure Bank where
  slot : Slot := {}
  mx : Nat := 0
  eng : Nat := 0
  mxAt : Nat := 0
  engAt : Nat := 0
  deriving DecidableEq, Repr

/-- A ring register (R355, R356). -/
structure Ring where
  base : Nat := 0
  nslot : Nat := 0
  ssz : Nat := 0
  tail : Nat := 0
  fill : Nat := 0
  clm : Nat := 0
  /-- END: 0 local, 1 producer end, 2 consumer end. -/
  fin : Nat := 0
  /-- Set up from the launch record (R358). -/
  declared : Bool := false
  /-- A consumer register whose producer is the link (R359). -/
  linkFed : Bool := false
  /-- The physical core of the other end of a ring with two ends on one die. -/
  other : Nat := 0
  deriving DecidableEq, Repr

/-- A named barrier (R364). -/
structure Bar where
  exp : Nat := 0
  cnt : Nat := 0
  gen : Nat := 0
  deriving DecidableEq, Repr

/-- A receive entry (R372). -/
structure Recv where
  /-- Ready to start a handler; if not, active in context ctx. -/
  ready : Bool := true
  ctx : Nat := 0
  line : Nat := 0
  len : Nat := 0
  sender : Nat := 0
  /-- The order in which entries were taken. -/
  seq : Nat := 0
  deriving DecidableEq, Repr

/-- What a core holds for one resident part. -/
structure PartCore where
  vcore : Nat := 0
  /-- The unit partition (R156), 0 to 3. -/
  unit : Nat := 0
  rings : FMap Ring := []
  bars : FMap Bar := []
  msgBase : Nat := 0
  msgEn : Bool := false
  /-- The receive entries held, by index 0 to 15. -/
  recv : FMap Recv := []
  /-- The bound engine ports ep0 to ep3 (R329). -/
  eps : FMap Bool := []
  /-- Where the save slot lies in which the part's state stands while its task is stopped (R411). -/
  slot : Nat := 0
  deriving DecidableEq, Repr

/-- A die entry of a launch record (R35). -/
structure DieEntry where
  kind : Nat := 0
  vdie : Nat := 0
  ncore : Nat := 0
  upart : Nat := 0
  cpart : Nat := 0
  dpart : Nat := 0
  nsem : Nat := 0
  ncmd : Nat := 0
  cmdp : Nat := 0
  deriving DecidableEq, Repr

/-- A stage entry of a launch record (R36). -/
structure StageEntry where
  vdie : Nat := 0
  vcore : Nat := 0
  entry : Nat := 0
  deriving DecidableEq, Repr

/-- A ring entry of a launch record (R36). -/
structure RingEntry where
  pstage : Nat := 0
  cstage : Nat := 0
  depth : Nat := 0
  slot : Nat := 0
  qidx : Nat := 0
  mode : Nat := 0
  deriving DecidableEq, Repr

/-- A snapshot range of a launch record (R37). -/
structure SnapRange where
  base : Nat := 0
  len : Nat := 0
  snap : Nat := 0
  inout : Bool := false
  deriving DecidableEq, Repr

/-- A launch record and its context block as read at launch (R33 to R38). -/
structure Launch where
  ver : Nat := 0
  prio : Nat := 0
  memBound : Bool := false
  restart : Bool := false
  taskid : Nat := 0
  fabp : Nat := 0
  yield : Nat := 0
  shape : Nat := 0
  npb : Nat := 0
  dies : List DieEntry := []
  stages : List StageEntry := []
  rings : List RingEntry := []
  snaps : List SnapRange := []
  /-- NPD of the fabric image at FABP, and the phase masks of its links by QIDX (R54, R55, R321). -/
  npd : List Nat := []
  masks : FMap (BitVec 64) := []
  ptroot : Nat := 0
  seeds : FMap DWord := []
  deriving DecidableEq, Repr

/-- The place of one virtual die in a placement (R52, R55). -/
structure Place where
  vdie : Nat := 0
  pos : Nat := 0
  /-- The physical cores of virtual cores 0, 1, ... and the unit partition each gets. -/
  cores : List (Nat × Nat) := []
  /-- The base of the cluster partition in each cluster that holds a core of the entry, by cluster. -/
  cbases : FMap Nat := []
  dbase : Nat := 0
  sem : Nat := 0
  seg : Nat := 0
  /-- The physical pontoons claimed, in ascending order. -/
  pons : List Nat := []
  deriving DecidableEq, Repr

/-- The route and phases of a MODE 1 ring (R54): the switch die of a two-hop route, the link directions with the
phases reserved on each. -/
structure Route where
  qidx : Nat := 0
  /-- The phase mask of the ring when it was placed (R54, R321). -/
  mask : BitVec 64 := 0
  via : Option Nat := none
  /-- The source position of each hop, the module over which it leaves it, and its reserved phases (R474). -/
  hops : List (Nat × Nat × BitVec 64) := []
  deriving DecidableEq, Repr

/-- An arrival at a package barrier that is not yet ordered among the others (R368): its SCHEDTIME clk and its context. -/
structure PArr where
  at_ : Nat := 0
  ctx : Nat := 0
  n : Nat := 0
  line : Nat := 0
  lane : Nat := 0
  deriving DecidableEq, Repr

/-- A package barrier of a task (R368). -/
structure PBar where
  /-- N, the arrivals and the number of the open phase. -/
  n : Nat := 0
  arrived : Nat := 0
  phase : Nat := 0
  /-- The latest arrivals, in the order in which they count, whose clk is not over on every die. -/
  recent : List PArr := []
  /-- The closed phases with the SCHEDTIME clk in which each is released. -/
  release : FMap Nat := []
  /-- The phases released so far. -/
  done : Nat := 0
  deriving DecidableEq, Repr

/-- A tide hold (R63) in progress: S, the events still to be handled, and the tick of its request. -/
structure Hold where
  at_ : Nat := 0
  /-- H, at which every die stops. -/
  stop : Nat := 0
  asked : Nat := 0
  events : Nat := 1
  /-- The module on which it was requested first: position and module. -/
  on : Nat × Nat := (0, 0)
  /-- The dies that stop below H for lack of a flit, by position, with the SCHEDTIME clk before which each stops (R63). -/
  stops : FMap Nat := []
  /-- The tick of the resume notice, after which those dies advance to H (R63). -/
  go : Option Nat := none
  /-- The request has reached every die: SCHEDTIME goes no further than H. -/
  reached : Bool := false
  deriving DecidableEq, Repr

/-- Where a task stands. -/
inductive TaskRun where
  /-- Submitted and waiting for a placement, or stopped by pre-emption and waiting to resume (R409). -/
  | waiting
  /-- Placed, T0 not reached. -/
  | placed
  | running
  /-- Victim of pre-emption: a notice is pending (R404). -/
  | stopping
  | stopped
  /-- Ended under R403 or an abort: its commands drain. -/
  | ending
  deriving DecidableEq, Repr

/-- A tile task. -/
structure Task where
  launch : Launch := {}
  run : TaskRun := .waiting
  /-- Its graph, and its TASK node by its number in nodes. -/
  graph : Nat := 0
  node : Nat := 0
  /-- The graph queue it came from (R50). -/
  queue : Nat := 0
  /-- TIMEBASE of its first submission. -/
  submitted : Nat := 0
  /-- The effective priority the placer knows (R49). -/
  eff : Nat := 0
  /-- The placement; empty while none is held. -/
  places : List Place := []
  routes : List Route := []
  pbs : List Nat := []
  /-- The physical package barriers' state by virtual barrier. -/
  pbars : FMap PBar := []
  /-- Φ of R54 and T0 of R59. -/
  phi : Nat := 0
  t0 : Nat := 0
  started : Bool := false
  /-- SCHEDTIME when it was last stopped, and whether it is stopped (R405). -/
  frozen : Option Nat := none
  /-- Ticks held so far (R60), HOLDCNT and HOLDTK (R65). -/
  held : Nat := 0
  holdcnt : Nat := 0
  holdtk : Nat := 0
  hold : Option Hold := none
  /-- Order of placement (R67). -/
  placedAt : Nat := 0
  attempts : Nat := 1
  /-- The first fault-log entry of the attempt chain: cause and index (R421). -/
  firstFault : Option (Nat × Nat) := none
  /-- The cause that ended the attempt (R414). -/
  endCause : Nat := 0
  failed : Bool := false
  aborted : Bool := false
  /-- The die and the module the log names for that cause (R414). -/
  endAt : Option (Nat × Nat) := none
  /-- Dies and modules a re-run must avoid (R414). -/
  avoidDies : List Nat := []
  avoidMods : List (Nat × Nat) := []
  deriving DecidableEq, Repr

/-- A command record being run: its 32 bytes (R39). -/
abbrev CmdRec := List Byte

/-- The share of a task on one die. -/
structure Part where
  task : Nat := 0
  pos : Nat := 0
  vdie : Nat := 0
  /-- The records of its slipway segment, as copied at part start (R39). -/
  recs : List CmdRec := []
  /-- The next record to issue (R41). -/
  next : Nat := 0
  /-- Records issued and not complete. -/
  busy : List Nat := []
  retired : Bool := false
  /-- The evicted unit partitions (R408), by physical core: their bytes and the owner of each tile. -/
  evicted : FMap (List Byte × List Bool) := []
  /-- Begun: its slipway runs (T0 reached). -/
  begun : Bool := false
  /-- PCNT0 to PCNT63 (R301). -/
  pcnt : FMap DWord := []
  /-- Its identifier in PRBCFG.PART, not 0 and no other part's (R170). -/
  ident : Nat := 0
  deriving DecidableEq, Repr

/-! ## Copy, tile, stack and fill commands -/

/-- A parameter block (R281). -/
structure PBlock where
  ver : Nat := 1
  ssp : Bool := false
  dsp : Bool := false
  len : Nat := 0
  src : DWord := 0
  dst : DWord := 0
  n1 : Nat := 1
  n2 : Nat := 1
  ss1 : BitVec 32 := 0
  ss2 : BitVec 32 := 0
  ds1 : BitVec 32 := 0
  ds2 : BitVec 32 := 0
  aux : DWord := 0
  aux2 : DWord := 0
  deriving DecidableEq, Repr

/-- The kind of a command. -/
inductive CmdKind where
  | cpy | cpyt | cacc | caccf | cswp | ccas | cpsm | cwalk | cgath | cscat | cput
  | tmov | ownc | hscan | hgath | hred | hcvt | record | node | fill | fload
  /-- A row of an accumulate sink that could not be applied at once (R329). -/
  | sink
  /-- A line of a routine whose page does not translate (R46, R89). -/
  | line
  deriving DecidableEq, Repr

/-- A command accepted by an engine and not yet complete. -/
structure Cmd where
  kind : CmdKind := .cpy
  /-- The task and part it belongs to; 0 for a COPY node or a control core. -/
  task : Nat := 0
  part : Nat := 0
  /-- The issuing context, as a key of ctxs, and the queue it came from. -/
  ctx : Nat := 0
  q : Queue := .l
  line : Nat := 0
  lane : Nat := 0
  /-- The engine that accepted it: a cluster engine by its cluster, or 100 + 16 k + x for complex x of buffer die k (R276). -/
  engine : Nat := 0
  /-- The buffer die whose list parks it, and the complex of it that handles the device side (R276). -/
  home : Nat := 14
  cx : Nat := 0
  root : Nat := 0
  /-- The root that translates the destination: that of the window for a put (R301). -/
  droot : Nat := 0
  x : CExt := ⟨false, false, false, false, 0⟩
  b : PBlock := {}
  /-- OP and TY of CACC; SIZE and SPACE of CSWP; SET of CPSM; QI, QV, VSZ of CWALK; PCNT index of CPUT. -/
  op : Nat := 0
  ty : Nat := 0
  arg : Nat := 0
  /-- Captured operand words: CSWP and CCAS operands, TMOV and OWN.C operands, the CPYT time, H fields. -/
  w0 : DWord := 0
  w1 : DWord := 0
  w2 : DWord := 0
  /-- Indices of CGATH and CSCAT; the expected ID of FLOAD. -/
  idx : List Nat := []
  /-- The seed an HCVT reads at issue. -/
  seed : DWord := 0
  /-- The reached offset (R286). -/
  reached : Nat := 0
  /-- It has begun performing: every byte below reached is performed. -/
  ready : Bool := false
  /-- Runs of offsets above reached performed while a lower piece is held by the order of its pages: first and length (R383). -/
  ahead : List (Nat × Nat) := []
  /-- The source bytes from the reached offset on that a copy to device memory has read and not written (R391). -/
  got : List Byte := []
  /-- Parked on a die's fault-pending list with this cause and DVA (R179). -/
  parked : Option (Nat × Nat) := none
  /-- Waiting in the timetable (R291). -/
  timed : Bool := false
  /-- Waits in the H buffer or a stack's queue for an engine (R348). -/
  queued : Bool := false
  /-- A put that has arrived and waits for its acknowledgement. -/
  arrived : Bool := false
  /-- The cause it completes with; 0 for none. -/
  err : Nat := 0
  errDva : Nat := 0
  /-- For a walk: the row, and the entries pushed (R298). -/
  row : Nat := 0
  ent : Nat := 0
  /-- The probe slot a fill fills; for a walk the entries of the row that are pushed. -/
  slot : Nat := 0
  /-- The record index of a slipway COPY; the node of a COPY node, by its number in nodes. -/
  recIx : Nat := 0
  /-- Posts TOK into the trap frame rather than the FIFOs in use (R400). -/
  inFrame : Bool := false
  /-- A fill whose slot has become INVALID (R169). -/
  orphan : Bool := false
  deriving DecidableEq, Repr

/-- The state of a probe slot (R165). -/
inductive SlotState where
  | invalid | filling | valid | failed
  deriving DecidableEq, Repr

/-- A slot of a probe table (R165). -/
structure ProbeSlot where
  st : SlotState := .invalid
  tag : Nat := 0
  pin : Nat := 0
  doomed : Bool := false
  cause : Nat := 0
  deriving DecidableEq, Repr

/-- What a cluster holds: the probe table, the copy engine's parameter-block cache and counters, its power state. -/
structure Cluster where
  sets : Nat := 0
  pbase : Nat := 0
  /-- PRBCFG.PART: the part that holds the table, 0 when free (R170). -/
  ppart : Nat := 0
  slots : FMap ProbeSlot := []
  rrp : FMap Nat := []
  prbhit : DWord := 0
  prbmiss : DWord := 0
  prbfull : DWord := 0
  /-- The parameter-block cache, most recently used first: part, window address, bytes (R283). -/
  pbc : List (Nat × Nat × List Byte) := []
  late : DWord := 0
  slip : DWord := 0
  pbhit : DWord := 0
  /-- The first clk in which the timetable can issue another command. -/
  ttFree : Nat := 0
  /-- PCREQ.F and U as last written, the pending request, PCST (R434). -/
  reqF : Nat := 26
  reqU : Nat := 50
  curF : Nat := 26
  curU : Nat := 50
  pendF : Nat := 26
  pendU : Nat := 50
  /-- STAT of PCST: 0 IDLE to 5 BADREQ. -/
  stat : Nat := 0
  xfifo : Bool := false
  perr : Bool := false
  /-- The tick in which STAT last became DONE (R61). -/
  doneAt : Nat := 0
  act : Nat := 0
  stall : Nat := 0
  snapAct : Nat := 0
  snapStall : Nat := 0
  qstate : Nat := 0
  qerr : Bool := false
  /-- Out of gating (R20). -/
  powered : Bool := false
  /-- The clock below 1.25 GHz (R2, R432): how far the cluster is into its next clk, in 2 * 25 MHz of the reference per
  tick; the present tick brings no clk; the ticks so far that brought none. -/
  phase : Nat := 0
  gap : Bool := false
  lag : Nat := 0
  deriving DecidableEq, Repr

/-! ## Dies, stacks, links -/

/-- A link module of a die (R419). -/
structure Link where
  state : Nat := 0
  spare : Nat := 0
  crcerr : Nat := 0
  repairs : Nat := 0
  retrains : Nat := 0
  /-- Training has come to an end (R20). -/
  trained : Bool := false
  /-- Tries of the retrain in progress (R417). -/
  tries : Nat := 0
  /-- CRC errors of each lane with the tick of each, newest first (R416). -/
  errs : List (Nat × Nat) := []
  /-- The tasks held for the repair or retrain in progress (R416, R417). -/
  holds : List Nat := []
  /-- The lane whose repair is due and waits for the end of a replay (R416). -/
  due : Option Nat := none
  deriving DecidableEq, Repr

/-- What a die holds beyond its clusters: MIX (R17), semaphores (R42), links, parked commands, THERM (R436). -/
structure Die where
  kind : Nat := 0
  rev : Nat := 0
  ifv : Nat := 0
  fused : Bool := false
  /-- HEALTH: 0 live, 1 fenced, 2 lost. -/
  health : Nat := 0
  sems : FMap Nat := []
  /-- Who waits on each semaphore, in the order of R370: 8 * context + queue code, or 2^20 + part for a slipway record. -/
  semw : FMap (List Nat) := []
  links : FMap Link := []
  /-- Parked commands by entry, 0 to 63, with their order (R179). -/
  parked : List (Nat × Nat) := []
  temp : Nat := 0
  hot : Bool := false
  crit : Bool := false
  /-- The highest and lowest interface version the die supports (R430). -/
  ifLo : Nat := 1
  ifHi : Nat := 1
  /-- Lines of 64 bytes of a buffer die's SRAM that hold an uncorrectable error (R343). -/
  sbad : List Nat := []
  deriving DecidableEq, Repr

/-- The registers of a stack (R347). -/
structure Stack where
  ueth : Nat := 0
  lost : Bool := false
  cause : Nat := 0
  ce : DWord := 0
  ue : DWord := 0
  wb : DWord := 0
  ecs : DWord := 0
  rc : DWord := 0
  /-- Lines of 64 bytes whose stored data and check bits are in error, by 16 * unit + line of the unit: true uncorrectable,
  false correctable (R341, R342, R343). -/
  bad : FMap Bool := []
  deriving DecidableEq, Repr

/-- A write to a stripe from its acceptance on (R337, R338): the commands' and the host's writes in progress. -/
structure StripeWrite where
  /-- The data-space address of the first byte, and the bytes. -/
  dpa : Nat := 0
  bytes : List Byte := []
  /-- 0 offered, 1 accepted, 2 data written and the delta on its way. -/
  phase : Nat := 0
  /-- The BAR port it came through (R393). -/
  port : Nat := 0
  /-- The parity delta: byte offset in the stripe's unit and value. -/
  delta : List Byte := []
  deriving DecidableEq, Repr

/-- A context of a stopped part (R407, R413): its state, and its core's sequencer if it ran for it. -/
structure Saved where
  ctx : Ctx := {}
  seq : Option Seq := none
  /-- The x registers that replies have written since (R365). -/
  landed : List Nat := []
  deriving DecidableEq, Repr

/-! ## Graphs and Ferrymasters -/

/-- A graph queue (R44, R47). -/
structure GQ where
  head : Nat := 0
  pend : Nat := 0
  baddb : Bool := false
  ovf : Bool := false
  /-- GQCMP (R427). -/
  cmp : Nat := 0
  deriving DecidableEq, Repr

/-- A node made ready: its graph, index and record as read (R24), or none where the read faulted. -/
structure Ready where
  graph : Nat := 0
  node : Nat := 0
  bytes : Option (List Byte) := none
  deriving DecidableEq, Repr

/-- A live graph (R23, R45). Its nodes in progress stand in nodes. -/
structure Graph where
  q : Nat := 0
  base : Nat := 0
  root : Nat := 0
  cookie : Nat := 0
  gstat : Nat := 0
  /-- Live branches (R25). -/
  branches : Nat := 0
  /-- The counter and limit of each LOOP node (R28). -/
  loops : FMap (Nat × Nat) := []
  /-- A node fault aborts the graph: the node (R31). -/
  abort : Option Nat := none
  deriving DecidableEq, Repr

/-- A Ferrymaster: the ready nodes in order, the WAIT nodes in order, and its graph semaphores (R29). -/
structure Ferry where
  ready : List Ready := []
  waits : List Ready := []
  gs : FMap Nat := []
  hwin : Nat := 0
  pkgid : Nat := 0
  pkgSet : Bool := false
  /-- PEERk: mask and VALID (R429). -/
  peers : FMap (Nat × Bool) := []
  /-- The switch die's peer links, 0 to 7, that are down. -/
  peerDown : List Nat := []
  deriving DecidableEq, Repr

/-- A window for puts (R300). -/
structure Win where
  valid : Bool := false
  base : Nat := 0
  len : Nat := 0
  root : Nat := 0
  arr : DWord := 0
  deriving DecidableEq, Repr

/-- An active message in the network (R371). -/
structure Msg where
  task : Nat := 0
  part : Nat := 0
  core : Nat := 0
  line : Nat := 0
  len : Nat := 0
  sender : Nat := 0
  /-- The issuing context, whose core counts the request (R180). -/
  ctx : Nat := 0
  bytes : List Byte := []
  /-- The tick from which it can be taken. -/
  due : Nat := 0
  deriving DecidableEq, Repr

/-- A synchronisation update on its way (R361, R365, R369): 0 a commit and 1 a pop toward the other end of a ring,
2 a barrier arrival, 3 a semaphore increment. -/
structure Sync where
  kind : Nat := 0
  part : Nat := 0
  core : Nat := 0
  ix : Nat := 0
  amount : Nat := 0
  /-- The issuing context and the x register its reply writes. -/
  ctx : Nat := 0
  line : Nat := 0
  lane : Nat := 0
  d : Nat := 0
  /-- Commands that must complete first (BARA.ENG, SEMS.ENG); a deferred update lists 0 as well, which no command is. -/
  after : List Nat := []
  /-- The tokens the instruction posts when its reply lands. -/
  toPrev : Bool := false
  toNext : Bool := false
  val : DWord := 0
  q : Queue := .l
  deriving DecidableEq, Repr

/-! ## The matrix engine -/

/-- The kinds of operation in engine order (R251). -/
inductive MxKind where
  | pass | zero | load | drain | drainq | stream
  deriving DecidableEq, Repr

/-- An operation in engine order (R251): one that waits for its start, or one that has started and not finished. -/
structure MxOp where
  kind : MxKind := .pass
  /-- The issuing context, as a key of ctxs; with nest the one of the MGO or MSGO, whose line and lane follow. -/
  ctx : Nat := 0
  nest : Bool := false
  line : Nat := 0
  lane : Nat := 0
  started : Bool := false
  /-- The accumulator tiles it reads or writes. -/
  tiles : List Nat := []
  /-- The clk in which it retires or finishes. -/
  fin : Nat := 0
  /-- A pass: its type (5 sparse), whether it treats the accumulator as zero, the rings it pops, its operand bytes and
  the position set it read. -/
  ty : Nat := 0
  zero : Bool := false
  pops : List Nat := []
  a : List Byte := []
  b : List Byte := []
  pos : List Byte := []
  /-- A waiting drain of a nest: its x[b] word, its destination and row stride, and the index of its pass. -/
  word : DWord := 0
  dst : Nat := 0
  rs : Nat := 0
  pix : Nat := 0
  /-- A stream: its port, the rows still to be emitted, and the SCHEDTIME clk of the next. -/
  port : Nat := 0
  rows : List (List Word) := []
  next : Nat := 0
  deriving DecidableEq, Repr

/-- A nest in the active or queued set (R257 to R261). -/
structure Nest where
  /-- N0 to N9. -/
  regs : FMap DWord := []
  sparse : Bool := false
  /-- The MGO or MSGO: its context, line and lane. -/
  ctx : Nat := 0
  line : Nat := 0
  lane : Nat := 0
  /-- The first clk in which it is active. -/
  at_ : Nat := 0
  /-- i0 to i5 of the next pass, its index, and the pops of B so far. -/
  idx : List Nat := [0, 0, 0, 0, 0, 0]
  pass : Nat := 0
  pB : Nat := 0
  /-- Every pass has started. -/
  done : Bool := false
  /-- The place in engine order of the next pass, once the address generator has produced it (R251). -/
  gen : Option Nat := none
  /-- The held copies (R259). -/
  heldA : Option (List Byte) := none
  heldB : Option (List Byte) := none
  deriving DecidableEq, Repr

/-- A row of the MDRAINQ stream (R271). -/
structure MxRow where
  opened : Bool := false
  emit : Nat := 0
  g0 : Nat := 0
  /-- The staged elements; their number is the cursor. -/
  stage : List Word := []
  deriving DecidableEq, Repr

/-- A matrix engine as one part sees it (R248 to R275). -/
structure Mx where
  shadow : FMap DWord := []
  active : Option Nest := none
  queued : Option Nest := none
  /-- The clk from which a queued set can become active (R260). -/
  activateAt : Nat := 0
  /-- The accumulator tiles: element (m, n) at 64 m + n. A tile that is not listed is zero. -/
  acc : FMap (List (BitVec 48)) := []
  /-- The position sets of the side memory (R262), 2,048 bytes each; zero where not listed. -/
  side : FMap (List Byte) := []
  /-- ACCOVF, Q8NEG, QUF, QOF, QNAN (R273). -/
  flags : BitVec 5 := 0
  passes : DWord := 0
  waitclk : DWord := 0
  rows : FMap MxRow := []
  qfmt : Nat := 0
  qtag : Nat := 0
  /-- The operations not finished, by their place in engine order. -/
  ops : FMap MxOp := []
  /-- The first clk in which the fetch of the next pass has ended, once it has begun, and the last clk of the fetch before
  it (R252). -/
  fetch : Option Nat := none
  fetchEnd : Nat := 0
  /-- The lines the fetch still asks of the unit scratchpad, by bank (R252). -/
  reading : FMap Nat := []
  /-- The set of an MGO or MSGO that waits for the queued set, by its context (R260). -/
  taking : FMap (FMap DWord) := []
  /-- The clk of the last start of a pass, and the clks of the latest starts of block-format and INT8 passes. -/
  lastStart : Nat := 0
  starts : List Nat := []
  deriving DecidableEq, Repr

/-! ## The pontoon fabric -/

/-- The presence state of a row (R304). -/
inductive Pres where
  | empty | valid | hole
  deriving DecidableEq, Repr

/-- The origin tag of a hole (R304), with the cause of the fault. -/
structure Origin where
  vdie : Nat := 0
  vpon : Nat := 0
  slot : Nat := 0
  clk : Nat := 0
  cause : Nat := 0
  deriving DecidableEq, Repr

/-- A row (R304). -/
structure Row where
  pres : Pres := .empty
  els : List Word := []
  tag : Origin := {}
  deriving DecidableEq, Repr

/-- The source of an input port (R320): KIND, PORT and ID. -/
structure PonIn where
  kind : Nat := 0
  port : Nat := 0
  id : Nat := 0
  deriving DecidableEq, Repr

/-- A pontoon as its image record loads it (R308, R320). -/
structure Pon where
  ii : Nat := 1
  ins : List PonIn := []
  /-- OUT0 to OUT3: SNK and the stream port. -/
  outs : List (Bool × Nat) := []
  slots : List (BitVec 64) := []
  consts : List (List Word) := []
  /-- The record as loaded (R412). -/
  raw : List Byte := []
  /-- The SCHEDTIME clk after the one it executed last. -/
  next : Nat := 0
  deriving DecidableEq, Repr

/-- A link of an image (R307, R320). -/
structure FLink where
  qidx : Nat := 0
  svdie : Nat := 0
  svpon : Nat := 0
  sport : Nat := 0
  ring : Bool := false
  dvdie : Nat := 0
  dvpon : Nat := 0
  dport : Nat := 0
  mask : BitVec 64 := 0
  deriving DecidableEq, Repr

/-- Where a row on its way goes: an input port of a pontoon, a stream port, or over a link of the image by its place. -/
inductive Dest where
  | pon (vdie vpon port : Nat)
  | sink (vdie sp : Nat)
  | link (ix : Nat)
  deriving DecidableEq, Repr

/-- A row on its way: where to, and the SCHEDTIME clk of its delivery and of its emission. -/
structure Flight where
  dest : Dest
  due : Nat
  sent : Nat
  row : Row
  deriving DecidableEq, Repr

/-- The binding of a stream port (R329). -/
structure SPort where
  /-- KIND: 0 source, 1 scratchpad sink, 2 accumulate sink. -/
  kind : Nat := 0
  w : Bool := false
  b : PBlock := {}
  /-- The binding context, as a key of ctxs. -/
  ctx : Nat := 0
  /-- Rows emitted or received since FSTART. -/
  count : Nat := 0
  /-- The SCHEDTIME clk after the last emission. -/
  next : Nat := 0
  /-- The rows written as holes and not resolved, and whether PEND counts each (R318). -/
  open_ : List (Nat × Bool) := []
  /-- The rows a source has read and not emitted, oldest first; what the read of the next one still asks of the unit
  scratchpad, by bank; and once it has begun, the clk from which it can complete (R330). -/
  ahead : List (List Byte) := []
  reading : FMap Nat := []
  readAt : Option Nat := none
  deriving DecidableEq, Repr

/-- The fabric of a task (R324 to R328). -/
structure Fab where
  /-- 0 NOIMG, 1 LOADING, 2 IDLE, 3 ARMED, 4 RUNNING, 5 DRAIN. -/
  st : Nat := 0
  failed : Bool := false
  /-- NAN, OVF, SAT, ROUTE. -/
  sticky : BitVec 4 := 0
  phase : Nat := 0
  t : DWord := 0
  p : DWord := BitVec.allOnes 64
  faults : Nat := 0
  holes : Nat := 0
  engHole : Nat := 0
  lost : Nat := 0
  miss : Nat := 0
  /-- The loads that have ended. -/
  loads : Nat := 0
  /-- FST0 as it stood when the last phase completed, and when the last load ended. -/
  phaseWord : DWord := 0
  loadWord : DWord := 0
  /-- The tick from which every die of the task has learnt of it (R394). -/
  seenAt : Nat := 0
  /-- The pontoons of the image, by 64 * vdie + vpon, and its links. -/
  pons : FMap Pon := []
  links : List FLink := []
  /-- The files of the slots, by 32 * (64 * vdie + vpon) + slot, f0 first, and the counts of PSPLIT. -/
  files : FMap (List Row) := []
  splits : FMap Nat := []
  /-- The rows on their way. -/
  flights : List Flight := []
  /-- The records that wait for a slot: virtual die, the tick from which it can be delivered, bytes (R317). -/
  buffer : List (Nat × Nat × List Byte) := []
  /-- The handler of a virtual die: its context and ring register (R331). -/
  handlers : FMap (Nat × Nat) := []
  /-- The bytes filled of the slot a ring sink has claimed, by QIDX (R307). -/
  partial_ : FMap Nat := []
  deriving DecidableEq, Repr

/-! ## The whole machine -/

/-- The issue latch: what the instruction being executed was issued with. Set by step, read and answered by exec. -/
structure Iss where
  /-- The context, as a key of ctxs. -/
  ctx : Nat := 0
  q : Queue := .x
  line : Nat := 0
  lane : Nat := 0
  rot : Nat := 0
  xa : DWord := 0
  xb : DWord := 0
  xd : DWord := 0
  /-- The instruction has issued before and waits (R101). -/
  again : Bool := false
  /-- What it waits for, as it stood when it issued. -/
  wset : List Nat := []
  /-- The number of its line among those the context has fetched. -/
  lineNo : Nat := 0
  /-- Answer: the instruction holds its lane or queue and is tried again. -/
  wait : Bool := false
  /-- Answer: the instruction raised a fault and does not complete. -/
  faulted : Bool := false
  deriving DecidableEq, Repr

/-- An event to come: when it is due, the event and what it is about. -/
structure Due where
  at_ : Nat
  ev : Instr
  arg : EvArg := {}
  /-- at_ is a clk of this cluster (R2); none for a tick. -/
  clk : Option Nat := none
  deriving DecidableEq, Repr

/-- A write of a system register that takes effect at the end of the clk (R147). -/
structure SysWrite where
  ctx : Nat
  num : Nat
  val : DWord
  deriving DecidableEq, Repr

/-- The package. -/
structure State where
  /-- TIMEBASE (R59). -/
  tb : Nat := 0
  /-- All bytes of scratchpads, stacks and Ferrymaster blocks, by home key; canonical (Memory.wf). -/
  mem : List Host.Cell := []
  /-- Engine-owned tiles (R159), by home key / 4096. -/
  owned : FMap Bool := []
  /-- Instruction stores (R87), by 8192 * core + line. A line that is not listed is zero. -/
  istore : FMap FetchLine := []
  /-- Contexts by 8 * core + number: cores 0 to 191 are the tile cores, 192 to 207 the control cores of SW0 and SW1,
  208 and 209 their purser cores. -/
  ctxs : FMap Ctx := []
  /-- Arbitration of each core's fetch port and issue slots, by 8 * core + resource. -/
  slots : FMap Slot := []
  /-- What instructions still ask of the banks, by core, the first issued first. -/
  banks : FMap (List BankReq) := []
  /-- The banks, by 64 * core + bank. -/
  bankUse : FMap Bank := []
  /-- The modulo sequencers that run, by core. -/
  seqs : FMap Seq := []
  /-- The writes of system registers of this clk, the first first (R147). -/
  swrs : List SysWrite := []
  tasks : FMap Task := []
  /-- Parts by 32 * task + virtual die. -/
  parts : FMap Part := []
  /-- What the cores hold for parts, by 64 * part + physical core. -/
  pcores : FMap PartCore := []
  /-- The matrix engines, by 64 * part + physical core. -/
  mxs : FMap Mx := []
  /-- The bound stream ports, by 16 * part + port (R306, R329). -/
  sports : FMap SPort := []
  /-- The fabrics, by task. -/
  fabs : FMap Fab := []
  clusters : FMap Cluster := []
  dies : FMap Die := []
  memStacks : FMap Stack := []
  cmds : FMap Cmd := []
  writes : FMap StripeWrite := []
  syncs : FMap Sync := []
  msgs : FMap Msg := []
  graphs : FMap Graph := []
  /-- The records of the TASK, COPY and PROG nodes in progress, by number (R24). -/
  nodes : FMap Ready := []
  /-- The contexts of stopped parts (R407), by 8 * (64 * part + physical core) + number. -/
  saved : FMap Saved := []
  queues : FMap GQ := []
  ferries : FMap Ferry := []
  wins : FMap Win := []
  /-- The translation caches (R178): by task and root, the entries walks have read, by address. -/
  tlb : FMap (FMap Nat) := []
  /-- The next number for a task, graph, command, message or update. -/
  nextId : Nat := 1
  /-- The events to come. -/
  agenda : List Due := []
  /-- BOOTST (R21). -/
  bootStep : Nat := 0
  bootFail : Nat := 0
  bootPos : Nat := 0
  /-- What bring-up checks (R20): whether the first firmware stage verifies, and KIND and REV of every position in the
  signed mix record of the firmware image. -/
  fwGood : Bool := true
  mixRec : List (Nat × Nat) := []
  /-- FMCTL (R51). -/
  ageEn : Bool := true
  ageK : Nat := 6
  ageCap : Nat := 6
  holdLim : Nat := 0x0100
  /-- FMSAVE (R411). -/
  saveBase : Nat := 0
  saveEn : Bool := false
  /-- The queue after which the round robin of R50 goes on. -/
  lastQueue : Nat := 15
  /-- The task whose first feasible placement is reserved until it is placed (R50). -/
  reserver : Option Nat := none
  /-- A reason of R50 for the placer to consider its requests. -/
  placerDue : Bool := false
  /-- The switch die whose Ferrymaster keeps the fault log and the placer (R428). -/
  root : Nat := 0
  /-- FLOGHEAD (R424). -/
  flogHead : Nat := 0
  /-- MSI-X messages sent, newest first: the vectors (R426). -/
  msix : List Nat := []
  /-- The power class applied: true MEMORY (R67), and PWRLIM (R431). -/
  memClass : Bool := false
  pwrlim : Nat := 4400
  /-- Attestation (R437): nonce bytes, report DPA, the request register's bits 1 and 2. -/
  nonce : FMap Byte := []
  reportDpa : Nat := 0
  attestDone : Bool := false
  attestRefused : Bool := false
  keysErased : Bool := false
  /-- The tick at which the last WAKE of a cluster began (R435). -/
  lastWake : Nat := 0
  /-- ALMCFG and whether it has been written, ALMFUSE, debug ports locked, halted (R438). -/
  almcfg : Nat := 0
  almSet : Bool := false
  almfuse : Nat := 15
  dbgLocked : Bool := false
  halted : Bool := false
  /-- The bytes the last read that belongs to no command returned: a host read through BAR2, or a read of device memory
  served by itself (R340, R425). -/
  hostRead : List Byte := []
  /-- The model's own: counts the free values taken (DESIGN CHOICE, notes/assumptions/1.md). -/
  free : Nat := 0
  iss : Iss := {}
  ev : EvArg := {}
  deriving DecidableEq, Repr

/-- The machine right after reset, the queues served before the first placement as if GQ15 had been the last
(DESIGN CHOICE, notes/assumptions/51.md): a full Q960 whose KIND and REV come from its fuses (R8, R17), TIMEBASE 0 (R59), every
cluster at F = 26 and U = 50 (R432), nothing in memory, no link trained and nothing powered. Bring-up (R20) and the first
capture of the power counters (R434) are to come. -/
def State.reset : State :=
  { dies := (List.range 34).map fun p => (p, { kind := kindOf p, rev := 1 })
    mixRec := (List.range 34).map fun p => (kindOf p, 1)
    agenda := [⟨0, .reset, {}, none⟩, ⟨12500, .pcsnapCapture, {}, none⟩] }

end Sys2Proof.Machine
end

