-- ==== Sys2Proof/Machine/Topology.lean ====
section
/-! DEFINITION. The dies of the package, their cores and clusters, and the links (01_package.md R8 to R14, R474). -/

namespace Sys2Proof.Machine

/-- The tile cores of a die of a kind (R8). -/
def tileCores (k : Nat) : Nat :=
  match k with
  | 2 => 4
  | 3 => 32
  | 5 => 16
  | _ => 0

/-- The cores of a cluster of a die of a kind (R8). -/
def clusterCores (k : Nat) : Nat := if k = 2 then 2 else if k = 1 then 8 else 4

/-- The number of a core among all: tile cores in ascending position (R411), then the control cores of SW0 and SW1. -/
def coreAt (pos phys : Nat) : Nat :=
  match kindOf pos with
  | 1 => 192 + 8 * pos + phys
  | 2 => 4 * (pos - 2) + phys
  | 3 => 32 + 32 * (pos - 10) + phys
  | 5 => 160 + 16 * (pos - 20) + phys
  | _ => 210 + phys

/-- The position of a core. -/
def posOf (core : Nat) : Nat :=
  if core < 32 then 2 + core / 4 else if core < 160 then 10 + (core - 32) / 32
  else if core < 192 then 20 + (core - 160) / 16
  else if core < 208 then (core - 192) / 8 else (core - 208) % 2

/-- The physical number of a core on its die; a purser core is 8. -/
def physOf (core : Nat) : Nat :=
  if core < 32 then core % 4 else if core < 160 then (core - 32) % 32
  else if core < 192 then (core - 160) % 16
  else if core < 208 then (core - 192) % 8 else 8

/-- The cluster of a core: 0 to 55 the clusters of compute dies in ascending position, 56 and 57 the control cores of
SW0 and SW1 with the engine they share (R276). -/
def clusterOf (core : Nat) : Nat :=
  if core < 32 then core / 2 else if core < 160 then 16 + (core - 32) / 4
  else if core < 192 then 48 + (core - 160) / 4
  else 56 + posOf core

/-- The first cluster of a die, and how many it has. -/
def clustersOf (pos : Nat) : Nat × Nat :=
  match kindOf pos with
  | 1 => (56 + pos, 1)
  | 2 => (2 * (pos - 2), 2)
  | 3 => (16 + 8 * (pos - 10), 8)
  | 5 => (48 + 4 * (pos - 20), 4)
  | _ => (58, 0)

/-- The position of a cluster. -/
def clusterPos (c : Nat) : Nat :=
  if c < 16 then 2 + c / 2 else if c < 48 then 10 + (c - 16) / 8 else if c < 56 then 20 + (c - 48) / 4 else c - 56

/-- The number of a cluster on its die. -/
def clusterIx (c : Nat) : Nat := c - (clustersOf (clusterPos c)).1

/-- The core, and the context number, of a key of ctxs. -/
def coreOf (ck : Nat) : Nat := ck / 8

/-- The number of a context on its core. -/
def ctxNo (ck : Nat) : Nat := ck % 8

/-- The key of a context. -/
def ctxKey (core k : Nat) : Nat := 8 * core + k

/-- A core is a control core or a purser core. -/
def isControl (core : Nat) : Bool := 192 ≤ core

/-- A core is a matrix core. -/
def isMatrix (core : Nat) : Bool := core < 32

/-- The profile of a core (R86). -/
def profileOf (core : Nat) : Profile :=
  if core < 32 then .matrix else if core < 160 then .vector else if core < 192 then .gather else .control

/-- The unit scratchpad of a core on a die of a kind, in bytes (R156). -/
def unitBytes (k : Nat) : Nat := if k = 2 then 0x400000 else if k = 3 then 0x100000 else if k = 5 then 0x200000 else 0

/-- The cluster scratchpad on a die of a kind (R156). -/
def clusterBytes (k : Nat) : Nat := if k = 3 then 0x800000 else if k = 2 || k = 5 then 0x1000000 else 0

/-- The die scratchpad of a die of a kind (R8). -/
def dieBytes (k : Nat) : Nat :=
  match k with
  | 1 => 0x2000000
  | 2 => 0x4000000
  | 3 => 0x4000000
  | 4 => 0x30000000
  | 5 => 0x8000000
  | _ => 0

/-- The pontoons of a die of a kind (R8). -/
def pontoons (k : Nat) : Nat := if k = 2 || k = 3 then 64 else if k = 1 || k = 5 then 32 else 0

/-- A compute die (01). -/
def isCompute (pos : Nat) : Bool := kindOf pos == 2 || kindOf pos == 3 || kindOf pos == 5

/-- The link modules of a die (R10). -/
def moduleCount (pos : Nat) : Nat :=
  match kindOf pos with
  | 1 => 22
  | 4 => 16
  | 6 => 0
  | 0 => 0
  | _ => 8

/-- The position at the far end of module m of a die (R474). -/
def farEnd (pos m : Nat) : Nat :=
  match kindOf pos with
  | 1 => if m < 2 then 1 - pos else if m < 10 then m else if m < 14 then m else if m < 20 then m else m
  | 4 => if m < 2 then m else if m < 10 then m else if m < 14 then m else m + 6
  | _ => if m < 2 then m else m + 12

/-- The module of the far end that module m of a die joins (R474). -/
def farModule (pos m : Nat) : Nat :=
  let q := farEnd pos m
  match kindOf q with
  | 1 => if kindOf pos == 1 then m else pos
  | 4 => if pos < 14 then pos else pos - 6
  | _ => if kindOf pos == 1 then pos else pos - 12

/-- The modules of a die toward another die (R10, R474): two between the switch dies, else one or none. -/
def modulesTo (pos far : Nat) : List Nat := (List.range (moduleCount pos)).filter fun m => farEnd pos m == far

/-- The first of them. -/
def moduleTo (pos far : Nat) : Option Nat := (modulesTo pos far).head?

/-- The name of a link at its other end. -/
def linkEnd (l : Nat × Nat) : Nat × Nat := (farEnd l.1 l.2, farModule l.1 l.2)

/-- Two names of one link: position and module at either end. -/
def sameLink (a b : Nat × Nat) : Bool := a == b || linkEnd a == b

/-- The buffer die that owns a stack (R9). -/
def bufferOf (z : Nat) : Nat := 14 + z / 2

/-- The home complex's buffer die of a cluster engine (R276). -/
def homeOf (cluster : Nat) : Nat := 14 + (clusterPos cluster + clusterIx cluster) % 6

/-- The home complex of a cluster engine, one of the sixteen of its buffer die (R276). -/
def complexOf (cluster : Nat) : Nat := (clusterPos cluster + 3 * clusterIx cluster) % 16

/-- The number of a complex of a buffer die among the engines: those below 100 are the cluster engines. -/
def complexEngine (pos x : Nat) : Nat := 100 + 16 * (pos - 14) + x

/-- The position of a command's engine: a cluster engine, or a complex of a buffer die. -/
def Cmd.enginePos (c : Cmd) : Nat := if c.engine < 100 then clusterPos c.engine else 14 + (c.engine - 100) / 16

/-! ### Reading the tables of the state -/

/-- A context. A context that has never been touched is dormant with everything zero. -/
def State.ctx (s : State) (ck : Nat) : Ctx := fget s.ctxs ck {}
def State.setCtx (s : State) (ck : Nat) (c : Ctx) : State := { s with ctxs := fset s.ctxs ck c }
def State.task (s : State) (t : Nat) : Task := fget s.tasks t {}
def State.setTask (s : State) (t : Nat) (v : Task) : State := { s with tasks := fset s.tasks t v }
def State.part (s : State) (p : Nat) : Part := fget s.parts p {}
def State.setPart (s : State) (p : Nat) (v : Part) : State := { s with parts := fset s.parts p v }
def State.pcore (s : State) (k : Nat) : PartCore := fget s.pcores k {}
def State.setPcore (s : State) (k : Nat) (v : PartCore) : State := { s with pcores := fset s.pcores k v }
def State.cluster (s : State) (c : Nat) : Cluster := fget s.clusters c {}
def State.setCluster (s : State) (c : Nat) (v : Cluster) : State := { s with clusters := fset s.clusters c v }
def State.die (s : State) (p : Nat) : Die := fget s.dies p {}
def State.setDie (s : State) (p : Nat) (v : Die) : State := { s with dies := fset s.dies p v }
def State.stack (s : State) (z : Nat) : Stack := fget s.memStacks z {}
def State.setStack (s : State) (z : Nat) (v : Stack) : State := { s with memStacks := fset s.memStacks z v }
def State.cmd (s : State) (i : Nat) : Cmd := fget s.cmds i {}
def State.setCmd (s : State) (i : Nat) (v : Cmd) : State := { s with cmds := fset s.cmds i v }
def State.graph (s : State) (g : Nat) : Graph := fget s.graphs g {}
def State.setGraph (s : State) (g : Nat) (v : Graph) : State := { s with graphs := fset s.graphs g v }
def State.queue (s : State) (q : Nat) : GQ := fget s.queues q {}
def State.setQueue (s : State) (q : Nat) (v : GQ) : State := { s with queues := fset s.queues q v }
def State.ferry (s : State) (f : Nat) : Ferry := fget s.ferries f {}
def State.setFerry (s : State) (f : Nat) (v : Ferry) : State := { s with ferries := fset s.ferries f v }
def State.win (s : State) (w : Nat) : Win := fget s.wins w {}
def State.setWin (s : State) (w : Nat) (v : Win) : State := { s with wins := fset s.wins w v }

def State.mx (s : State) (k : Nat) : Mx := fget s.mxs k {}
def State.setMx (s : State) (k : Nat) (v : Mx) : State := { s with mxs := fset s.mxs k v }
def State.fab (s : State) (t : Nat) : Fab := fget s.fabs t {}
def State.setFab (s : State) (t : Nat) (v : Fab) : State := { s with fabs := fset s.fabs t v }
def State.sport (s : State) (k : Nat) : Option SPort := fget? s.sports k
def State.setSport (s : State) (k : Nat) (v : SPort) : State := { s with sports := fset s.sports k v }

/-- The part record of a task on a virtual die. -/
def partKey (task vdie : Nat) : Nat := 32 * task + vdie

/-- The key of what a core holds for a part. -/
def pcoreKey (part phys : Nat) : Nat := 64 * part + phys

/-- The place of a part in its task's placement. -/
def State.place (s : State) (p : Nat) : Place :=
  ((s.task (s.part p).task).places.find? fun l => l.vdie == (s.part p).vdie).getD {}

/-- The die entry of a part. -/
def State.entryOf (s : State) (p : Nat) : DieEntry :=
  ((s.task (s.part p).task).launch.dies.find? fun e => e.vdie == (s.part p).vdie).getD {}

/-- The task a context works for, as a number; 0 on a control core. -/
def State.taskOf (s : State) (ck : Nat) : Nat := (s.part (s.ctx ck).part).task

/-- The core of a context's part record. -/
def State.myPcore (s : State) (ck : Nat) : Nat := pcoreKey (s.ctx ck).part (physOf (coreOf ck))

/-- SCHEDTIME of a task (R60): frozen while it is stopped, else TIMEBASE - T0 - the ticks held. -/
def State.sched (s : State) (t : Nat) : Nat :=
  match (s.task t).frozen with
  | some v => v
  | none => s.tb - (s.task t).t0 - (s.task t).held

/-! ### Tide holds: the clocks of a task's dies (R63) -/

/-- The SCHEDTIME a task would have at a tick without the hold in progress (R60). -/
def Task.base (k : Task) (tb : Nat) : Nat := tb - k.t0 - k.held

/-- The SCHEDTIME clk before which a die stops in a hold: H, or the clk of the flit it lacks. -/
def Hold.stopOf (h : Hold) (pos : Nat) : Nat := fget h.stops pos h.stop

/-- The lowest SCHEDTIME at which a die stops in a hold. -/
def Hold.first (h : Hold) : Nat := (h.stops.map Prod.snd).foldl min h.stop

/-- SCHEDTIME on a die of a held task. After the resume notice the dies below H go on, one clk a tick, and none goes ahead of
the one that stopped first, whose flits it needs (DEDUCED, notes/assumptions/69.md). -/
def Hold.schedOf (h : Hold) (base tb pos : Nat) : Nat :=
  match h.go with
  | none => min base (h.stopOf pos)
  | some g => min h.stop (max (h.stopOf pos) (h.first + (tb - g)))

/-- A die of a held task issues a SCHEDTIME clk in this tick. -/
def Hold.moves (h : Hold) (base tb pos : Nat) : Bool :=
  match h.go with
  | none => base < h.stopOf pos
  | some g => h.stopOf pos ≤ h.first + (tb - g) && h.first + (tb - g) < h.stop

/-- SCHEDTIME of a task on a die (R60, R63). -/
def State.schedAt (s : State) (t pos : Nat) : Nat :=
  match (s.task t).hold with
  | some h => h.schedOf ((s.task t).base s.tb) s.tb pos
  | none => s.sched t

/-- SCHEDTIME of a task on the die that is behind the others (R63). -/
def State.schedLow (s : State) (t : Nat) : Nat :=
  (((s.task t).places.map fun p => s.schedAt t p.pos).foldl min (s.sched t))

/-- SCHEDTIME of a task on the die that is ahead of the others (R63). -/
def State.schedHigh (s : State) (t : Nat) : Nat :=
  match (s.task t).places with
  | [] => s.sched t
  | ps => (ps.map fun p => s.schedAt t p.pos).foldl max 0

/-- SCHEDTIME of a task advances on a die in this tick, whether or not its work goes on (R63). -/
def State.timeRuns (s : State) (t pos : Nat) : Bool :=
  let k := s.task t
  match k.hold with
  | some h => h.moves (k.base s.tb) s.tb pos
  | none => k.frozen.isNone

/-- A task's work on a die goes on in this tick (R63, R404): it runs or is stopping, and no hold stops the die. -/
def State.dieActs (s : State) (t pos : Nat) : Bool :=
  let k := s.task t
  (k.run == .running || k.run == .stopping) && s.timeRuns t pos

/-- The position of a virtual die of a task. -/
def State.posIn (s : State) (t vdie : Nat) : Nat := (s.part (partKey t vdie)).pos

/-- The position of the core a context is on. -/
def posOfCtx (ck : Nat) : Nat := posOf (coreOf ck)

/-- SCHEDTIME as a context sees it (R63, R151): 0 on a control core. -/
def State.schedOf (s : State) (ck : Nat) : Nat :=
  if isControl (coreOf ck) then 0 else s.schedAt (s.taskOf ck) (posOfCtx ck)

/-! ### Modules -/

/-- A module of a die. -/
def State.link (s : State) (pos m : Nat) : Link := fget (s.die pos).links m {}

/-- Changes a module. -/
def State.setLink (s : State) (pos m : Nat) (l : Link) : State :=
  s.setDie pos { s.die pos with links := fset (s.die pos).links m l }

/-- Changes the modules at both ends of a link. -/
def onLink (s : State) (pos m : Nat) (f : Link → Link) : State :=
  let s := s.setLink pos m (f (s.link pos m))
  let q := farEnd pos m
  let n := farModule pos m
  s.setLink q n (f (s.link q n))

/-- A task that ends is held for no link any more. -/
def Die.unheld (d : Die) (t : Nat) : Die :=
  { d with links := d.links.map fun e => (e.1, { e.2 with holds := e.2.holds.filter (· != t) }) }

/-- A fresh number for a task, graph, command, message or update. -/
def State.fresh (s : State) : Nat × State := (s.nextId, { s with nextId := s.nextId + 1 })

/-- The clk of a cluster (R2): the ticks so far but those in which the cluster had no clk. -/
def State.clkOf (s : State) (cl : Nat) : Nat := s.tb - (s.cluster cl).lag

/-- The clk of the core a context is on (R2). -/
def State.clk (s : State) (ck : Nat) : Nat := s.clkOf (clusterOf (coreOf ck))

/-- The clk in which the instruction being executed issues or executes. -/
def State.now (s : State) : Nat := s.clk s.iss.ctx

/-- Puts an event on the agenda, d clks of a cluster from now. -/
def State.afterClk (s : State) (cl d : Nat) (ev : Instr) (arg : EvArg := {}) : State :=
  { s with agenda := s.agenda ++ [⟨s.clkOf cl + d, ev, arg, some cl⟩] }

/-- Puts an event on the agenda, d ticks from now. -/
def State.after (s : State) (d : Nat) (ev : Instr) (arg : EvArg := {}) : State :=
  { s with agenda := s.agenda ++ [⟨s.tb + d, ev, arg, none⟩] }

/-- Puts an event on the agenda after a time the spec does not bound: at least one tick, and how much more is free. -/
def State.later (s : State) (ev : Instr) (arg : EvArg := {}) : State :=
  { s with agenda := s.agenda ++ [⟨s.tb + 1 + Config.latency s.free, ev, arg, none⟩], free := s.free + 1 }

/-- Puts an event on the agenda whose cause crosses a link: at least 12 ticks from now (R12, R394). -/
def State.laterFar (s : State) (ev : Instr) (arg : EvArg := {}) : State :=
  { s with agenda := s.agenda ++ [⟨s.tb + 12 + Config.latency s.free, ev, arg, none⟩], free := s.free + 1 }

/-- Takes the events that satisfy a test off the agenda. -/
def State.cancel (s : State) (f : Due → Bool) : State := { s with agenda := s.agenda.filter fun d => !f d }

/-- A die is present, live and not fused off (R52). -/
def State.live (s : State) (p : Nat) : Bool :=
  (s.die p).kind != 0 && !(s.die p).fused && (s.die p).health == 0

/-- A die is present and neither fused off nor lost. -/
def State.alive (s : State) (p : Nat) : Bool :=
  (s.die p).kind != 0 && !(s.die p).fused && (s.die p).health != 2

/-- A link module is up (R418, R474). -/
def State.linkUp (s : State) (pos m : Nat) : Bool := (fget (s.die pos).links m {}).state != 3

end Sys2Proof.Machine
end

