-- ==== Sys2Proof/Machine/Memory.lean ====
section
/-! DEFINITION. The bytes of the package: the canonical store, the home of every byte, the scratchpad windows and owner
bits (07_scratchpads_and_device_memory.md), the stripe map and the stacks' bytes (14_memory_stacks.md). -/

namespace Sys2Proof.Machine

/-! ### The store -/

/-- The byte at a home key. A byte nothing has written is zero: scratchpads are zero when allocated (R55, R156) and the
stacks are zero-filled at bring-up (R20); the rest is the model's choice (DESIGN CHOICE, notes/assumptions/5.md). -/
def mget (m : List Host.Cell) (k : Nat) : Byte :=
  match m with
  | [] => 0
  | (i, b) :: r => if i = k then b else if k < i then 0 else mget r k

/-- Stores a byte at a home key, keeping the keys rising and listing no zero byte. -/
def mset (m : List Host.Cell) (k : Nat) (b : Byte) : List Host.Cell :=
  match m with
  | [] => if b = 0 then [] else [(k, b)]
  | (i, c) :: r =>
    if i < k then (i, c) :: mset r k b
    else if i = k then (if b = 0 then r else (k, b) :: r)
    else if b = 0 then (i, c) :: r else (k, b) :: (i, c) :: r

/-- The canonical form: keys strictly rising, no zero byte listed. -/
def Memory.wf (m : List Host.Cell) : Bool :=
  match m with
  | [] => true
  | [(_, b)] => b != 0
  | (i, b) :: (j, c) :: r => b != 0 && i < j && Memory.wf ((j, c) :: r)

/-- Zeroes every byte with a key from a on, n of them. -/
def mzero (m : List Host.Cell) (a n : Nat) : List Host.Cell := m.filter fun e => e.1 < a || a + n ≤ e.1

/-! ### Homes -/

/-- A byte of stack z: data and parity units alike (R335). -/
def stackKey (z off : Nat) : Nat := z * 2 ^ 36 + off
/-- A byte of the die scratchpad at a position; a buffer die's is its SRAM window (R175). -/
def dieKey (pos off : Nat) : Nat := 2 ^ 40 + pos * 2 ^ 30 + off
/-- A byte of a cluster scratchpad. -/
def clusKey (c off : Nat) : Nat := 2 ^ 41 + c * 2 ^ 24 + off
/-- A byte of a unit scratchpad. -/
def unitKey (core off : Nat) : Nat := 2 ^ 42 + core * 2 ^ 22 + off
/-- A byte of the rings and the fault log in a Ferrymaster block (R425), which are kept apart from the die scratchpad's bytes
(DESIGN CHOICE, notes/assumptions/87.md). -/
def ferryKey (sw off : Nat) : Nat := 2 ^ 43 + sw * 2 ^ 20 + off

/-- The scratchpad windows a context sees (R66, R158): where each begins and how long it is. -/
structure Windows where
  unit : Nat := 0
  unitLen : Nat := 0
  clus : Nat := 0
  clusLen : Nat := 0
  die : Nat := 0
  dieLen : Nat := 0
  /-- The probe region the part holds in the cluster window: offset and length (R165). -/
  probe : Nat := 0
  probeLen : Nat := 0
  deriving DecidableEq, Repr

/-- The windows of a part on a core (R66, R158). The unit partition k of a core begins at k quarters of its scratchpad. -/
def windowsOf (s : State) (part core : Nat) : Windows :=
  let pl := s.place part
  let e := s.entryOf part
  let pos := posOf core
  let cl := clusterOf core
  let clu := s.cluster cl
  { unit := unitKey core ((s.pcore (pcoreKey part (physOf core))).unit * (unitBytes (kindOf pos) / 4))
    unitLen := e.upart * 0x10000
    clus := clusKey cl (fget pl.cbases cl 0)
    clusLen := e.cpart * 0x10000
    die := dieKey pos pl.dbase
    dieLen := e.dpart * 0x100000
    probe := clu.pbase * 0x10000
    probeLen := if clu.ppart = part then clu.sets * 1024 else 0 }

/-- The windows in which a context of a part works. On a control core only the die window is in range: the whole die
scratchpad of its switch die (R154, R158). -/
def windowsFor (s : State) (part ck : Nat) : Windows :=
  if isControl (coreOf ck) then
    { die := dieKey (posOf (coreOf ck)) 0, dieLen := dieBytes 1 }
  else windowsOf s part (coreOf ck)

/-- The windows of a context. -/
def State.windows (s : State) (ck : Nat) : Windows := windowsFor s (s.ctx ck).part ck

/-- The home of a window address, if it is in range (R158). -/
def homeIn (w : Windows) (a : Nat) : Option Nat :=
  if a < 0x400000 && a < w.unitLen then some (w.unit + a)
  else if 0x1000000 ≤ a && a < 0x2000000 && a - 0x1000000 < w.clusLen then some (w.clus + (a - 0x1000000))
  else if 0x10000000 ≤ a && a < 0x20000000 && a - 0x10000000 < w.dieLen then some (w.die + (a - 0x10000000))
  else none

/-- The tile of a home key. -/
def tileOf (k : Nat) : Nat := k / 4096

/-- A window address lies in the probe region of the part (R165). -/
def inProbe (w : Windows) (a : Nat) : Bool := 0x1000000 + w.probe ≤ a && a < 0x1000000 + w.probe + w.probeLen

/-- A window address has an owner bit that counts (R159): unit and cluster tiles outside the probe region. -/
def ownerChecked (w : Windows) (a : Nat) : Bool := a < 0x2000000 && !inProbe w a

/-- A tile is engine-owned (R159). -/
def State.engineOwned (s : State) (k : Nat) : Bool := fget s.owned (tileOf k) false

/-- How a core access of one byte is judged (R160): its home, or the offence: out of range (0) or not owned (1). -/
def judgeCore (s : State) (w : Windows) (a : Nat) : Nat ⊕ Nat :=
  match homeIn w a with
  | none => .inr 0
  | some k => if ownerChecked w a && s.engineOwned k then .inr 1 else .inl k

/-- How an engine access of one byte is judged (R290): its home, or none where it is out of range or core-owned. -/
def judgeEngine (s : State) (w : Windows) (a : Nat) : Option Nat :=
  match homeIn w a with
  | none => none
  | some k => if ownerChecked w a && !s.engineOwned k then none else some k

/-- The bytes of a core read at an address (R160): an offending byte reads as 0. -/
def scratchBytes (s : State) (w : Windows) (a n : Nat) : List Byte :=
  (upFrom a n).map fun y =>
    match judgeCore s w y with
    | .inl k => mget s.mem k
    | .inr _ => 0

/-- The first offending byte of a core access, with the kind of its offence (R160). -/
def firstOffence (s : State) (w : Windows) (a n : Nat) : Option (Nat × Nat) :=
  match n with
  | 0 => none
  | n + 1 =>
    match judgeCore s w a with
    | .inl _ => firstOffence s w (a + 1) n
    | .inr k => some (a, k)

/-- Stores bytes of a core access; offending bytes are dropped (R160). -/
def scratchStore (s : State) (w : Windows) (a : Nat) : List Byte → State
  | [] => s
  | b :: r =>
    let s' := match judgeCore s w a with
      | .inl k => { s with mem := mset s.mem k b }
      | .inr _ => s
    scratchStore s' w (a + 1) r

/-- The byte an engine reads in a window; a byte out of range reads as 0. -/
def winByte (s : State) (w : Windows) (a : Nat) : Byte := ((homeIn w a).map (mget s.mem)).getD 0

/-- The bytes an engine reads in a window, whatever their owner. -/
def winBytes (s : State) (w : Windows) (a n : Nat) : List Byte := (upFrom a n).map (winByte s w)

/-- Puts the bytes an engine writes in a window, whatever their owner; bytes out of range are dropped. -/
def winPut (s : State) (w : Windows) (a : Nat) : List Byte → State
  | [] => s
  | b :: r =>
    let s' := match homeIn w a with
      | some k => { s with mem := mset s.mem k b }
      | none => s
    winPut s' w (a + 1) r

/-! ### The engine port -/

/-- The lines of the unit window that a run of bytes touches. -/
def runLines (a n : Nat) : List Nat :=
  if n = 0 then [] else (upFrom (a / 64) ((a + n - 1) / 64 - a / 64 + 1)).filter (· < 0x10000)

/-- One more access of an engine waits for a bank, from a clk on (R113). -/
def Bank.asked (u : Bank) (mx : Bool) (clk : Nat) : Bank :=
  if mx then { u with mx := u.mx + 1, mxAt := if u.mx = 0 then clk else u.mxAt }
  else { u with eng := u.eng + 1, engAt := if u.eng = 0 then clk else u.engAt }

/-- The core of a unit window. -/
def Windows.core (w : Windows) : Nat := (w.unit - 2 ^ 42) / 2 ^ 22

/-- The matrix engine's side of the engine port of a core waits for banks, from a clk on. -/
def portWaits (s : State) (core clk : Nat) (bs : List Nat) : State :=
  { s with bankUse := bs.foldl (fun m b =>
      let u := fget m (64 * core + b) {}
      if u.mx = 0 then fset m (64 * core + b) { u with mxAt := clk } else m) s.bankUse }

/-- Lines by bank (R157): how many of them each bank holds. -/
def lineBanks (ls : List Nat) : FMap Nat := ls.foldl (fun m l => fset m (l % 64) (fget m (l % 64) 0 + 1)) []

/-- The engine port asks the banks of a unit scratchpad for the lines of a run of window bytes (R113): for the matrix engine,
or for another engine. -/
def portAsks (s : State) (w : Windows) (mx : Bool) (a n : Nat) : State :=
  let ls := (runLines a n).filter fun l => 64 * l < w.unitLen
  { s with bankUse := ls.foldl (fun m l =>
      let k := 64 * w.core + l % 64
      fset m k ((fget m k {}).asked mx (s.clkOf (clusterOf w.core)))) s.bankUse }

/-- Stores the bytes an engine writes in a window (R113). -/
def winStore (s : State) (w : Windows) (a : Nat) (bs : List Byte) : State := portAsks (winPut s w a bs) w false a bs.length

/-- Sets the owner of a run of tiles by their window addresses (R163). -/
def setOwner (s : State) (w : Windows) (engine : Bool) (a : Nat) : Nat → State
  | 0 => s
  | n + 1 =>
    let s' := match homeIn w a with
      | some k => { s with owned := if engine then fset s.owned (tileOf k) true else fdel s.owned (tileOf k) }
      | none => s
    setOwner s' w engine (a + 4096) n

/-! ### Stripes and stacks -/

/-- The end of the data space: 528 GB (R174). -/
def dataEnd : Nat := 528000000000

/-- The place of a data byte (R336): stripe, parity stack, data stack, byte in the unit. -/
structure Stripe where
  s : Nat
  p : Nat
  z : Nat
  o : Nat
  deriving DecidableEq, Repr

/-- StripeMap of R336. -/
def stripeMap (d : Nat) : Stripe :=
  let n := d / 1024
  let s := n / 11
  let k := n % 11
  let p := s % 12
  ⟨s, p, if k < p then k else k + 1, d % 1024⟩

/-- The stored byte of a unit. -/
def unitByte (s : State) (z u o : Nat) : Byte := mget s.mem (stackKey z (1024 * u + o))

/-- The line of 64 bytes of a stack in which a byte of a unit lies, numbered through the stack (R341). -/
def lineOf (u o : Nat) : Nat := 16 * u + o / 64

/-- What a unit's line stores at a byte is uncorrectable (R342). -/
def lineBad (s : State) (z u o : Nat) : Bool := fget (s.stack z).bad (lineOf u o) false

/-- Some line of a unit is uncorrectable. -/
def unitBad (s : State) (z u : Nat) : Bool := (List.range 16).any fun l => lineBad s z u (64 * l)

/-- A byte cannot be read where it is stored: its stack is lost, or its line is uncorrectable (R342, R345). -/
def erased (s : State) (z u o : Nat) : Bool := (s.stack z).lost || lineBad s z u o

/-- The other eleven stacks of a stripe (R336). -/
def othersOf (z : Nat) : List Nat := (List.range 12).filter (· != z)

/-- The change on its way to the parity of a stripe at a byte: the deltas of the writes whose data is written (R337, R338). -/
def pendingDelta (s : State) (u o : Nat) : Byte :=
  s.writes.foldl (fun b e =>
    let w := e.2
    if w.phase == 2 && w.dpa / 11264 == u && w.dpa % 1024 ≤ o then b ^^^ w.delta.getD (o - w.dpa % 1024) 0 else b) 0

/-- The XOR of the other eleven units of a stripe at a byte as left by the writes accepted before (R337, R340), if they can be
read: of a lost stack's unit the bytes asked for are read, an erased unit of a live stack is rebuilt whole (R342). -/
def rebuild (s : State) (z u o : Nat) : Option Byte :=
  if (othersOf z).any fun y => if (s.stack z).lost then erased s y u o else (s.stack y).lost || unitBad s y u then none
  else some ((othersOf z).foldl (fun b y => b ^^^ unitByte s y u o) (pendingDelta s u o))

/-- A data byte as the stacks store it (R340, R342, R345): none is MEM_UNRECOV. -/
def storedByte (s : State) (d : Nat) : Option Byte :=
  let t := stripeMap d
  if erased s t.z t.s t.o then rebuild s t.z t.s t.o else some (unitByte s t.z t.s t.o)

/-- The byte a write brings to a unit of a lost stack: it is performed at its acceptance (R377). -/
def acceptedByte (s : State) (d : Nat) : Option Byte :=
  if !(s.stack (stripeMap d).z).lost then none
  else
    match s.writes.find? fun e => e.2.phase == 1 && e.2.dpa ≤ d && d < e.2.dpa + e.2.bytes.length with
    | some (_, w) => w.bytes[d - w.dpa]?
    | none => none

/-- A data byte as a reader gets it: none is MEM_UNRECOV. -/
def dataByte (s : State) (d : Nat) : Option Byte := (storedByte s d).map fun b => (acceptedByte s d).getD b

/-- Writes a data byte and its parity (R338, R345): none is MEM_UNRECOV, for a byte whose old value cannot be rebuilt
(R342, R346). -/
def dataStore (s : State) (d : Nat) (b : Byte) : Option State :=
  let t := stripeMap d
  let kd := stackKey t.z (1024 * t.s + t.o)
  let kp := stackKey t.p (1024 * t.s + t.o)
  match storedByte s d with
  | none => none
  | some old =>
    let m := if (s.stack t.z).lost then s.mem else mset s.mem kd b
    let m := if (s.stack t.p).lost then m else mset m kp (mget s.mem kp ^^^ old ^^^ b)
    some { s with mem := m }

/-! ### Device physical addresses -/

/-- What a device physical address names (R174): a data byte, a byte of a buffer die's SRAM, a byte of a Ferrymaster
block, or no memory. -/
inductive Dpa where
  | data (d : Nat)
  | sram (k o : Nat)
  | ferry (sw o : Nat)
  | none
  deriving DecidableEq, Repr

/-- The region of a device physical address (R174). -/
def dpaOf (a : Nat) : Dpa :=
  if a < dataEnd then .data a
  else if 0x100000000000 ≤ a && a < 0x100000000000 + 6 * 0x40000000 then
    let o := a - 0x100000000000
    if o % 0x40000000 < 0x30000000 then .sram (o / 0x40000000) (o % 0x40000000) else .none
  else if 0x1F0000000000 ≤ a && a < 0x1F0000000000 + 2 * 0x80000 then
    let o := a - 0x1F0000000000
    .ferry (o / 0x80000) (o % 0x80000)
  else .none

end Sys2Proof.Machine
end

