-- ==== Sys2Proof/Machine/Operands.lean ====
section
/-! DEFINITION. Operand access of an instruction being executed: x, p, v and vm registers under the names of the modulo
sequencer (05_issue.md R122), the operands a queued instruction captured (R100), and writing results. -/

namespace Sys2Proof.Machine

/-- What a meaning answers. -/
abbrev Res := Host.Outcome State Fault Refusal

/-- The physical register a name xk denotes in iteration i (R122). -/
def physX (rot k : Nat) : Nat := if k < 24 then k else 24 + (k - 24 + 8 - rot % 8) % 8

/-- The physical register a name vk denotes in iteration i (R122). -/
def physV (rot k : Nat) : Nat := if k < 16 then k else 16 + (k - 16 + 16 - rot % 16) % 16

/-- The value of a physical x register; x0 is zero (R124). -/
def Ctx.getX (c : Ctx) (k : Nat) : DWord := if k = 0 then 0 else fget c.x k 0

/-- Writes a physical x register; a write to x0 is discarded (R124). -/
def Ctx.putX (c : Ctx) (k : Nat) (v : DWord) : Ctx := if k = 0 then c else { c with x := fset c.x k v }

/-- The value of a predicate; p0 is true (R124). -/
def Ctx.getP (c : Ctx) (k : Nat) : Bool := k == 0 || c.p.getLsbD k

/-- Writes a predicate; a write to p0 is discarded (R124). -/
def Ctx.putP (c : Ctx) (k : Nat) (b : Bool) : Ctx :=
  if k = 0 then c
  else { c with p := if b then c.p ||| BitVec.twoPow 8 k else c.p &&& ~~~(BitVec.twoPow 8 k) }

/-- The elements of a physical vector register (R209). -/
def Ctx.getV (c : Ctx) (k : Nat) : List Word := fget c.v k []

/-- An element of a vector register's elements; what is not listed is zero. -/
def elem (v : List Word) (i : Nat) : Word := v.getD i 0

/-- A vector register from its elements (R209). -/
def vecOf (f : Nat → Word) : List Word := (List.range 1024).map f

/-- A mask register (R209). -/
def Ctx.getM (c : Ctx) (k : Nat) : BitVec 1024 := fget c.vm k 0

/-- The context of the instruction being executed. -/
def State.cc (s : State) : Ctx := s.ctx s.iss.ctx

/-- Changes the context of the instruction being executed. -/
def State.onCtx (s : State) (f : Ctx → Ctx) : State := s.setCtx s.iss.ctx (f s.cc)

/-- The x operand a field names, of an X instruction (R124, R122). -/
def State.rdX (s : State) (k : BitVec 5) : DWord := s.cc.getX (physX s.iss.rot k.toNat)

/-- The predicate a field names, of an X instruction. -/
def State.rdP (s : State) (k : Nat) : Bool := s.cc.getP k

/-- Writes the destination of an X instruction: it can be read b clks from now, and no earlier than an earlier writer lets it be
(R100, R107). -/
def State.wrX (s : State) (d : BitVec 5) (v : DWord) (b : Nat) : State :=
  let k := physX s.iss.rot d.toNat
  s.onCtx fun c => if k = 0 then c else { c.putX k v with xrdy := fset c.xrdy k (max (fget c.xrdy k 0) (s.now + b)) }

/-- Writes the predicate of a compare, with bound 1 (R126). -/
def State.wrP (s : State) (k : Nat) (b : Bool) : State :=
  s.onCtx fun c => if k = 0 then c else { c.putP k b with prdy := fset c.prdy k (max (fget c.prdy k 0) (s.now + 1)) }

/-- A physical x register stops being pending with the value and the clk from which it can be read (R100). -/
def Ctx.land (c : Ctx) (k : Nat) (v : DWord) (clk : Nat) : Ctx :=
  if k = 0 then c
  else { c.putX k v with xrdy := fset c.xrdy k (max (fget c.xrdy k 0) clk), xpend := fset c.xpend k (fget c.xpend k 0 - 1) }

/-- A physical x register stops being pending and keeps its value (R399). -/
def Ctx.unpend (c : Ctx) (k : Nat) : Ctx :=
  if k = 0 then c else { c with xpend := fset c.xpend k (fget c.xpend k 0 - 1) }

/-- Writes the x destination of a queued instruction, b clks from now (R100, R107). -/
def State.landX (s : State) (d : BitVec 5) (v : DWord) (b : Nat) : State :=
  s.onCtx fun c => c.land (physX s.iss.rot d.toNat) v (s.now + b)

/-- The vector register a field names, i registers on (R122, R215). -/
def State.vix (s : State) (k : BitVec 5) (i : Nat) : Nat := physV s.iss.rot (k.toNat + i)

/-- The elements of the vector register a field names. -/
def State.rdV (s : State) (k : BitVec 5) : List Word := s.cc.getV (s.vix k 0)

/-- Writes a vector register and its scoreboard clks (R108): elementwise writers set RX three clks after RE. -/
def Ctx.putV (c : Ctx) (k : Nat) (v : List Word) (re rx : Nat) : Ctx :=
  { c with v := fset c.v k v, re := fset c.re k re, rx := fset c.rx k rx }

/-- Writes a mask register and its scoreboard clks (R108). -/
def Ctx.putM (c : Ctx) (k : Nat) (m : BitVec 1024) (re rx : Nat) : Ctx :=
  { c with vm := fset c.vm k m, re := fset c.re (32 + k) re, rx := fset c.rx (32 + k) rx }

/-- Writes the vector register a field names, i registers on, for an elementwise (false) or cross-row (true) writer
of bound b (R108). -/
def State.wrV (s : State) (d : BitVec 5) (i : Nat) (v : List Word) (b : Nat) (cross : Bool) : State :=
  s.onCtx fun c => c.putV (s.vix d i) v (s.now + b) (s.now + b + if cross then 0 else 3)

/-- Writes a mask register, elementwise with bound b (R108). -/
def State.wrM (s : State) (d : Nat) (m : BitVec 1024) (b : Nat) : State :=
  s.onCtx fun c => c.putM d m (s.now + b) (s.now + b + 3)

/-- Element i takes part in an instruction with mask bit M (R211). -/
def State.active (s : State) (m : BitVec 1) (i : Nat) : Bool := m == 0 || (s.cc.getM 0).getLsbD i

/-- The elements of a result under the mask (R211): an element that takes no part keeps its value. -/
def State.masked (s : State) (m : BitVec 1) (old : List Word) (f : Nat → Word) : List Word :=
  vecOf fun i => if s.active m i then f i else elem old i

end Sys2Proof.Machine
end

