-- ==== Sys2Proof/Machine/RingOps.lean ====
section
/-! DEFINITION. Ring registers: claims, commits and pops, and telling the other end (15_synchronisation.md R355 to
R362). -/

namespace Sys2Proof.Machine

/-- A ring register of a part on a core (R355). -/
def State.ring (s : State) (pk k : Nat) : Ring := fget (s.pcore pk).rings k {}

/-- Sets it. -/
def State.setRing (s : State) (pk k : Nat) (r : Ring) : State :=
  let p := s.pcore pk
  s.setPcore pk { p with rings := fset p.rings k r }

/-- The free count (R355). -/
def Ring.free (r : Ring) : Nat := r.nslot - r.fill - r.clm

/-- The window address of slot j (R355). -/
def Ring.slot (r : Ring) (j : Nat) : Nat := r.base + 256 * r.ssz * (j % r.nslot)

/-- The window address of the slot a claim takes. -/
def Ring.next (r : Ring) : Nat := r.slot (r.tail + r.fill + r.clm)

/-- Producer operations are allowed at the end (R359). -/
def Ring.produces (r : Ring) : Bool := r.fin != 2 && !r.linkFed

/-- Consumer operations are allowed at the end. -/
def Ring.consumes (r : Ring) : Bool := r.fin != 1

/-- A claim (R360). -/
def Ring.claim (r : Ring) : Ring := { r with clm := r.clm + 1 }

/-- A commit is applied at its end; an engine's or a later claim may have changed the count it was checked against. -/
def Ring.commit (r : Ring) (n : Nat) : Ring :=
  let n := min n r.clm
  { r with clm := r.clm - n, fill := r.fill + n }

/-- A pop is applied at its end. -/
def Ring.pop (r : Ring) (n : Nat) : Ring :=
  let n := min n r.fill
  { r with tail := if r.nslot = 0 then 0 else (r.tail + n) % r.nslot, fill := r.fill - n }

/-- Sends a commit (0) or a pop (1) to the other end of a ring (R361): within 6 clk in one cluster, else unbounded. -/
def ringSend (s : State) (part core k kind n : Nat) (r : Ring) : State :=
  if r.fin = 0 ∨ r.linkFed ∨ n = 0 then s
  else
    let (i, s) := s.fresh
    let s := { s with syncs := fset s.syncs i { kind := kind, part := part, core := r.other, ix := k, amount := n } }
    let pos := (s.part part).pos
    let arg : EvArg := { a := part, b := r.other, c := k }
    if clusterOf (coreAt pos core) = clusterOf (coreAt pos r.other) then s.afterClk (clusterOf (coreAt pos core)) 6 .ringUpdateArrival arg
    else s.later .ringUpdateArrival arg

/-- Commits n slots at an end and tells the other (R361, R362). -/
def ringCommit (s : State) (part core k n : Nat) : State :=
  let pk := pcoreKey part core
  let r := s.ring pk k
  ringSend (s.setRing pk k (r.commit n)) part core k 0 (min n r.clm) r

/-- Pops n slots at an end and tells the other. -/
def ringPop (s : State) (part core k n : Nat) : State :=
  let pk := pcoreKey part core
  let r := s.ring pk k
  ringSend (s.setRing pk k (r.pop n)) part core k 1 (min n r.fill) r

end Sys2Proof.Machine
end

