-- ==== Sys2Proof/Machine/Uses.lean ====
section
/-! DEFINITION. The registers an instruction reads and writes, and its latency bound (05_issue.md R100, R107 to R111):
what the interlock and the shadow scoreboard look at. -/

namespace Sys2Proof.Machine

/-- What an instruction uses. Registers are named as its fields name them. -/
structure Uses where
  /-- The x sources in the fields a, b and d; for a bit-field or funnel form the amount register takes a free one. -/
  xa : Option (BitVec 5) := none
  xb : Option (BitVec 5) := none
  xd : Option (BitVec 5) := none
  /-- A predicate read. -/
  p : Option Nat := none
  /-- The x register a queued instruction writes. -/
  dst : Option (BitVec 5) := none
  /-- Vector registers read: name and clks after issue (R215); written likewise; mask registers read and written. -/
  vr : List (Nat × Nat) := []
  vw : List (Nat × Nat) := []
  mr : List Nat := []
  mw : List Nat := []
  /-- A cross-row reader (R108). -/
  cross : Bool := false
  /-- The latency bound (R107). -/
  bound : Nat := 1
  /-- The clks the instruction holds its issue slot beyond the first (R215). -/
  extra : Nat := 0
  deriving DecidableEq, Repr

/-- vm0 is a source of a masked instruction (R211). -/
def maskSrc (k : BitVec 1) : List Nat := if k = 0 then [] else [0]

/-- The amount register of a bit-field or funnel form (R135). -/
def amountReg (xs : BitVec 5) (xr : BitVec 1) : Option (BitVec 5) := if xr = 0 then none else some xs

/-- The starts of the iterations of a repeated form, in clks after issue (R215): dist is a - d. -/
def repStarts (b : Nat) (dist : Int) (n : Nat) : List Nat :=
  (List.range n).foldl (fun (ts : List Nat) (i : Nat) =>
    match ts.getLast? with
    | none => [0]
    | some t =>
      let j := dist + (i : Int)
      let dep := if 0 ≤ j ∧ j < i then ts.getD j.toNat 0 + b else 0
      ts ++ [max (t + 1) dep]) []

/-- What a repeated form uses (R215). -/
def repUses (d a : BitVec 5) (r : BitVec 3) (k : BitVec 1) (b : Nat) : Uses :=
  let n := r.toNat + 1
  let ts := repStarts b ((a.toNat : Int) - d.toNat) n
  let own := fun i => decide (d.toNat ≤ a.toNat + i ∧ a.toNat + i < d.toNat + i)
  { vr := ((List.range n).filter fun i => !own i).map fun i => (a.toNat + i, ts.getD i 0)
    vw := (List.range n).map fun i => (d.toNat + i, ts.getD i 0)
    mr := maskSrc k, bound := b, extra := ts.getLastD 0 }

/-- Three-register vector form. -/
def v3 (d a b : BitVec 5) (k : BitVec 1) (bd : Nat) : Uses :=
  { vr := [(a.toNat, 0), (b.toNat, 0)], vw := [(d.toNat, 0)], mr := maskSrc k, bound := bd }

/-- Which of the fields d, a and b of an instruction word name vector registers: 4 for d, 2 for a, 1 for b (R413). -/
def vectorFields : Instr → Nat
  | .vadd _ _ _ _ _ _ | .vsub _ _ _ _ _ _ | .vmul _ _ _ _ _ _ | .vmin _ _ _ _ _ _ | .vmax _ _ _ _ _ _
  | .vfma _ _ _ _ _ _ | .vfms _ _ _ _ _ _ | .vclamp _ _ _ _ _ _ | .viclamp _ _ _ _ _ _ | .vsel _ _ _ _ _
  | .vperm _ _ _ _ _ _ | .viadd _ _ _ _ _ _ | .visub _ _ _ _ _ _ | .vimin _ _ _ _ _ _ | .vimax _ _ _ _ _ _
  | .vshl _ _ _ _ _ _ | .vshr _ _ _ _ _ _ | .vsra _ _ _ _ _ _ | .vand _ _ _ _ _ | .vor _ _ _ _ _
  | .vxor _ _ _ _ _ | .vimul _ _ _ _ _ _ | .vimac8 _ _ _ _ _ _ _ | .vrshr _ _ _ _ _ _ => 7
  | .vabs _ _ _ _ _ _ | .vneg _ _ _ _ _ _ | .vmov _ _ _ _ _ | .vexp2 _ _ _ _ _ _ | .vlog2 _ _ _ _ _ _
  | .vrsqrt _ _ _ _ _ _ | .vrcp _ _ _ _ _ _ | .vsqrt _ _ _ _ _ _ | .vexp _ _ _ _ _ _ | .vlog _ _ _ _ _ _ | .vtanh _ _ _ _ _ _
  | .vsigm _ _ _ _ _ _ | .vcvt _ _ _ _ _ _ | .vrotr _ _ _ _ _ | .vbcr _ _ _ _ _ | .vrotc _ _ _ _ _
  | .vbcc _ _ _ _ _ | .vredr _ _ _ _ _ _ | .vredc _ _ _ _ _ _ => 6
  | .vcmp _ _ _ _ _ _ | .vicmp _ _ _ _ _ _ => 3
  | .vld _ _ _ _ _ | .vldb _ _ _ _ _ _ | .vldc _ _ _ _ _ _ | .vlds _ _ _ _ _ _ | .vst _ _ _ _ _
  | .vstc _ _ _ _ _ _ | .vsts _ _ _ _ _ _ | .vmovi _ _ _ _ | .vmovx _ _ _ _ _ _ _ => 4
  | .vldg _ _ _ _ _ _ | .vstx _ _ _ _ _ _ => 5
  | _ => 0

/-- The registers an instruction uses, from its entry in the chapter of its family. -/
def uses : Instr → Uses
  | .add _ _ a b | .sub _ _ a b | .and _ _ a b | .or _ _ a b | .xor _ _ a b | .andn _ _ a b | .sll _ _ a b 
  | .srl _ _ a b | .sra _ _ a b | .min _ _ a b | .max _ _ a b | .minu _ _ a b | .maxu _ _ a b =>
    { xa := some a, xb := some b }
  | .mul _ _ a b | .mulh _ _ a b | .mulhu _ _ a b => { xa := some a, xb := some b, bound := 3 }
  | .addsh _ _ a b _ => { xa := some a, xb := some b }
  | .clz _ _ a | .ctz _ _ a | .popc _ _ a | .bswap _ _ a | .jalr _ _ a => { xa := some a }
  | .sel _ _ a b m => { xa := some a, xb := some b, p := some m.toNat }
  | .cmp _ c k a b _ | .cmpu _ c k a b _ =>
    { xa := some a, xb := some b, p := if c = 0 then none else some k.toNat }
  | .tbr _ _ | .scht _ _ => { bound := 2 }
  | .pwait _ a | .punpin _ a | .pinv _ a => { xa := some a }
  | .pinvAll _ | .endc _ | .eret _ | .yield _ => {}
  | .addi _ _ a _ | .andi _ _ a _ | .ori _ _ a _ | .xori _ _ a _ => { xa := some a }
  | .slli _ _ a _ | .srli _ _ a _ | .srai _ _ a _ => { xa := some a }
  | .cmpi _ _ _ a _ | .cmpui _ _ _ a _ => { xa := some a }
  | .dly _ a _ | .trap _ a _ => { xa := some a }
  | .movw _ _ _ => {}
  | .movhw _ _ a _ | .addw _ _ a _ => { xa := some a }
  | .bfxu _ _ a xs xr _ _ | .bfxs _ _ a xs xr _ _ => { xa := some a, xb := amountReg xs xr }
  | .bfi _ d a xs xr _ _ => { xa := some a, xd := some d, xb := amountReg xs xr }
  | .fshl _ _ a b xs xr _ _ | .fshr _ _ a b xs xr _ _ => { xa := some a, xb := some b, xd := amountReg xs xr }
  | .srd _ _ _ => { bound := 2 }
  | .jal _ _ _ => {}
  | .swr _ a _ => { xa := some a }
  | .loopm _ a _ _ => { xa := some a }
  | .probe _ _ a _ => { xa := some a, bound := 4 }
  | .br _ c _ _ => { p := some c.toNat }
  | .vld _ d a k _ => { xa := some a, vw := [(d.toNat, 0)], mr := maskSrc k, bound := 8 }
  | .vldb _ d a k _ _ => { xa := some a, vw := [(d.toNat, 0)], mr := maskSrc k, bound := 8 }
  | .vldc _ d a b k _ =>
    { xa := some a, xb := some b, vw := [(d.toNat, 0)], mr := maskSrc k, cross := true, bound := 11 }
  | .vlds _ d a b k _ => { xa := some a, xb := some b, vw := [(d.toNat, 0)], mr := maskSrc k, bound := 8 }
  | .vldg _ d a b k _ =>
    { xa := some a, vr := [(b.toNat, 0)], vw := [(d.toNat, 0)], mr := maskSrc k, cross := true, bound := 16 }
  | .vldm _ d a => { xa := some a, mw := [d.toNat], bound := 8 }
  | .vst _ d a k _ => { xa := some a, vr := [(d.toNat, 0)], mr := maskSrc k, bound := 6 }
  | .vstc _ d a b k _ =>
    { xa := some a, xb := some b, vr := [(d.toNat, 0)], mr := maskSrc k, cross := true, bound := 9 }
  | .vsts _ d a b k _ => { xa := some a, xb := some b, vr := [(d.toNat, 0)], mr := maskSrc k, bound := 6 }
  | .vstx _ d a b k _ =>
    { xa := some a, vr := [(d.toNat, 0), (b.toNat, 0)], mr := maskSrc k, cross := true, bound := 14 }
  | .vstm _ d a => { xa := some a, mr := [d.toNat], bound := 6 }
  | .tmov _ d a b _ => { xa := some a, xb := some b, xd := some d, bound := 4 }
  | .ownE _ a b _ | .ownC _ a b _ => { xa := some a, xb := some b, bound := 4 }
  | .fence _ _ => {}
  | .rclaim _ d _ _ => { dst := some d, bound := 2 }
  | .rcommit _ a _ _ | .rwaitf _ a _ _ | .rwaite _ a _ _ | .rpop _ a _ _ => { xa := some a }
  | .rpeek _ d a _ _ => { xa := some a, dst := some d, bound := 2 }
  | .bara _ d a _ => { xa := some a, dst := some d, bound := 2 }
  | .barw _ a b | .semw _ a b | .send _ a b | .cwwaitSent _ a b | .cwwaitArr _ a b =>
    { xa := some a, xb := some b, bound := 4 }
  | .sems _ a b _ => { xa := some a, xb := some b, bound := 4 }
  | .pbara _ a | .pbarw _ a | .pbinv _ a => { xa := some a }
  | .pbinvAll _ => {}
  | .ldb _ d a _ | .ldbu _ d a _ | .ldh _ d a _ | .ldhu _ d a _ | .ldw _ d a _ | .ldwu _ d a _ | .ldd _ d a _ =>
    { xa := some a, dst := some d, bound := 6 }
  | .stb _ d a _ | .sth _ d a _ | .stw _ d a _ | .std _ d a _ => { xa := some a, xd := some d, bound := 4 }
  | .bari _ a _ => { xa := some a }
  | .cpy _ a _ | .cgath _ a _ | .cscat _ a _ | .hscan _ a _ | .hgath _ a _ | .hred _ a _ | .hcvt _ a _ =>
    { xa := some a, bound := 4 }
  | .cacc _ a _ _ _ | .caccf _ a _ _ _ => { xa := some a, bound := 4 }
  | .cpsm _ a _ _ | .cput _ a _ _ => { xa := some a, bound := 4 }
  | .cpyt _ a b _ => { xa := some a, xb := some b, bound := 4 }
  | .cswp _ d a b _ _ _ | .ccas _ d a b _ _ _ => { xa := some a, xb := some b, xd := some d, bound := 4 }
  | .cwalk _ a b _ _ _ _ => { xa := some a, xb := some b, bound := 4 }
  | .vadd _ d a b k _ | .vsub _ d a b k _ | .vmul _ d a b k _ | .vmin _ d a b k _ | .vmax _ d a b k _ =>
    v3 d a b k 4
  | .vfma _ d a b k _ | .vfms _ d a b k _ =>
    { v3 d a b k 5 with vr := [(a.toNat, 0), (b.toNat, 0), (d.toNat, 0)] }
  | .vabs _ d a r k _ | .vneg _ d a r k _ => repUses d a r k 4
  | .vclamp _ d a b k _ => { v3 d a b k 4 with vr := [(a.toNat, 0), (b.toNat, 0), (b.toNat + 1, 0)] }
  | .viclamp _ d a b k _ => { v3 d a b k 2 with vr := [(a.toNat, 0), (b.toNat, 0), (b.toNat + 1, 0)] }
  | .vcmp _ _ v a b _ | .vicmp _ _ v a b _ => { vr := [(a.toNat, 0), (b.toNat, 0)], mw := [v.toNat], bound := 2 }
  | .vsel _ d a b m => { v3 d a b 0 2 with mr := [m.toNat] }
  | .vcvt _ d a _ k _ => { vr := [(a.toNat, 0)], vw := [(d.toNat, 0)], mr := maskSrc k, bound := 4 }
  | .vqnt _ a b _ | .vdqnt _ a b _ => { xa := some a, xb := some b, cross := true, bound := 11 }
  | .vperm _ d a b k _ => { v3 d a b k 24 with cross := true }
  | .viadd _ d a b k _ | .visub _ d a b k _ | .vimin _ d a b k _ | .vimax _ d a b k _ | .vshl _ d a b k _ 
  | .vshr _ d a b k _ | .vsra _ d a b k _ => v3 d a b k 2
  | .vand _ d a b k | .vor _ d a b k | .vxor _ d a b k => v3 d a b k 2
  | .vimul _ d a b k _ => v3 d a b k 4
  | .vimac8 _ d a b k _ _ =>
    { vr := [(a.toNat, 0), (b.toNat, 0)] ++ (upFrom d.toNat 4).map (·, 0), vw := (upFrom d.toNat 4).map (·, 0),
      mr := maskSrc k, bound := 4 }
  | .vrshr _ d a b k r =>
    { vr := (b.toNat, 0) :: (upFrom a.toNat (if r = 0 then 4 else 1)).map (·, 0), vw := [(d.toNat, 0)],
      mr := maskSrc k, bound := 4 }
  | .vmov _ d a r k => repUses d a r k 2
  | .vexp2 _ d a r k _ | .vlog2 _ d a r k _ | .vrsqrt _ d a r k _ | .vrcp _ d a r k _ | .vsqrt _ d a r k _ =>
    repUses d a r k 8
  | .vexp _ d a r k _ | .vlog _ d a r k _ | .vtanh _ d a r k _ | .vsigm _ d a r k _ => repUses d a r k 12
  | .vrotr _ d a k _ | .vbcr _ d a k _ =>
    { vr := [(a.toNat, 0)], vw := [(d.toNat, 0)], mr := maskSrc k, bound := 2 }
  | .vrotc _ d a k _ | .vbcc _ d a k _ =>
    { vr := [(a.toNat, 0)], vw := [(d.toNat, 0)], mr := maskSrc k, cross := true, bound := 5 }
  | .vredr _ d a _ _ _ => { vr := [(a.toNat, 0)], vw := [(d.toNat, 0)], bound := 6 }
  | .vredc _ d a _ _ _ => { vr := [(a.toNat, 0)], vw := [(d.toNat, 0)], cross := true, bound := 10 }
  | .vmand _ d a b | .vmor _ d a b | .vmxor _ d a b | .vmandn _ d a b =>
    { mr := [a.toNat, b.toNat], mw := [d.toNat], bound := 2 }
  | .vmnot _ d a => { mr := [a.toNat], mw := [d.toNat], bound := 2 }
  | .vmovi _ d k _ => { vw := [(d.toNat, 0)], mr := maskSrc k, bound := 2 }
  | .vmovx _ d a k _ _ _ => { xa := some a, vw := [(d.toNat, 0)], mr := maskSrc k, bound := 2 }
  | .mgo _ | .msgo _ => {}
  | .mpass _ a b | .mspass _ a b => { xa := some a, xb := some b, bound := 14 }
  | .mwait _ _ => {}
  | .mzero _ a => { xa := some a }
  | .mdrain _ a b _ _ | .maccld _ a b _ _ => { xa := some a, xb := some b }
  | .mdrainq _ d a b _ => { xa := some a, xb := some b, xd := some d }
  | .mstream _ b => { xb := some b }
  | .mstat _ d a _ _ => { xa := some a, dst := some d, bound := 4 }
  | .mcfg _ _ _ _ => {}
  | .mcfgr _ _ a b _ _ => { xa := some a, xb := some b }
  | .fbind _ _ a _ _ => { xa := some a, bound := 2 }
  | .funbind _ _ => { bound := 2 }
  | .fstart _ a | .fstop _ a | .fhnd _ a => { xa := some a, bound := 2 }
  | .fphase _ d => { dst := some d, bound := 2 }
  | .finj _ a b => { xa := some a, xb := some b, bound := 2 }
  | .fstat _ d _ => { dst := some d, bound := 2 }
  | .fload _ a _ => { xa := some a, bound := 2 }
  | .reset | .linkTrainingDone | .zeroFillDone | .clusterPowerUp | .dieFence | .dieFailure | .gqdbDoorbell
  | .graphStart | .taskNode | .condNode | .loopNode | .waitNode | .signalNode | .copyNode | .progNode
  | .endNode | .graphAbort | .agingStep | .placerPass | .taskStart | .powerClassApply | .cmdNop | .cmdCopy
  | .cmdIload | .cmdIloadDone | .cmdStart | .semIncrementArrival | .tideHoldRequest | .tideHoldReach
  | .tideHoldResumeNotice | .tideHoldRelease | .holdExpired | .lineFetch | .laneEnqueue | .instructionComplete
  | .waitSatisfied | .moduloBodyFetch | .moduloStep | .contextEnd | .registerWrite | .sperrClear | .prbcfgWrite
  | .qcfgWrite | .msgcfgWrite | .xfactRetry | .xfactFail | .winWrite | .stkctlLose | .pcreqGo | .pqctlQreq
  | .pqctlSave | .pqctlGate | .pqctlWake | .pwrlimWrite | .thermClear | .almcfgWrite | .attestRequest
  | .attestReportDone | .probeFillComplete | .nestActivate | .matrixPassStart | .matrixPassRetire
  | .mstreamRowEmit | .copyComplete | .copyErrorComplete | .timetableIssue | .accumulateApply | .cwalkSlotFill
  | .putArrival | .putAck | .pontoonExec | .chainFerryFlitArrival | .sourceRowEmit | .sinkRowWrite
  | .accumulateSinkApply | .fabricRecordDeliver | .fabricRunning | .fabricDrain | .fabricPhaseComplete
  | .floadComplete | .deviceMemoryRead | .stripeWriteAccept | .partialStripeWrite | .parityDeltaApply
  | .fullStripeWrite | .reconstructedRead | .refreshCheckReport | .stackLoss | .stackEngineStart
  | .hCommandComplete | .ringUpdateArrival | .barrierArrival | .pbarRelease | .messageTake | .handlerStart
  | .trapEntry | .preemptNotice | .victimStopped | .partitionEvict | .forcedStop | .taskResume | .taskRerun
  | .linkCrcError | .laneRepairDone | .linkLockLost | .retrainTryEnd | .partRetire | .hostBar2Write
  | .hostBar2Read | .switchTakeover | .dvfsVoltageRiseDone | .dvfsFreqSwitchDone | .dvfsVoltageFallDone
  | .pcsnapCapture | .quiesceDone | .wakeDone | .thermHot | .thermCrit | .alarmRaise | .translationWalkDone
  | .matrixDrainComplete | .tileMoveComplete | .peerLinkDown | .engineInternalError => {}

/-- The x registers an instruction names as sources (R100). -/
def Uses.xsrcs (u : Uses) : List (BitVec 5) := [u.xa, u.xb, u.xd].filterMap id

/-- The cross-row writers and readers (R108). -/
def isCross (i : Instr) : Bool := (uses i).cross

end Sys2Proof.Machine
end

