-- ==== Sys2Proof/Machine/Ops.lean ====
section
/-! DEFINITION. The shared operations of the machine: tokens and completion (05_issue.md), the fault log
(18_retirement_and_surroundings.md R424), failing a part (17_traps_and_preemption.md R403), taking a trap and
returning from one (R397 to R403, R472). -/

namespace Sys2Proof.Machine

/-! ### Tokens -/

/-- The next queue in the ring L, C, S (R102). -/
def nextQ : Queue → Queue
  | .l => .c
  | .c => .s
  | .s => .l
  | q => q

/-- The previous queue in the ring. -/
def prevQ : Queue → Queue
  | .l => .s
  | .c => .l
  | .s => .c
  | q => q

/-- The count of the FIFO from one queue to another (R102). -/
def Toks.count (t : Toks) : Queue → Queue → Nat
  | .l, .c => t.lc
  | .c, .s => t.cs
  | .s, .l => t.sl
  | .c, .l => t.cl
  | .s, .c => t.sc
  | .l, .s => t.ls
  | _, _ => 0

/-- Changes the count of the FIFO from one queue to another. -/
def Toks.upd (t : Toks) (f : Nat → Nat) : Queue → Queue → Toks
  | .l, .c => { t with lc := f t.lc }
  | .c, .s => { t with cs := f t.cs }
  | .s, .l => { t with sl := f t.sl }
  | .c, .l => { t with cl := f t.cl }
  | .s, .c => { t with sc := f t.sc }
  | .l, .s => { t with ls := f t.ls }
  | _, _ => t

/-- Adds two sets of counts. -/
def Toks.add (a b : Toks) : Toks :=
  ⟨a.lc + b.lc, a.cs + b.cs, a.sl + b.sl, a.cl + b.cl, a.sc + b.sc, a.ls + b.ls⟩

/-- TOKST (R117). -/
def Toks.word (t : Toks) : Nat :=
  t.lc + 2 ^ 4 * t.cs + 2 ^ 8 * t.sl + 2 ^ 12 * t.cl + 2 ^ 16 * t.sc + 2 ^ 20 * t.ls

/-- The posts an instruction of a queue makes at completion, as counts (R102). -/
def postsOf (q : Queue) (toPrev toNext : Bool) : Toks :=
  let t : Toks := {}
  let t := if toPrev then t.upd (· + 1) q (prevQ q) else t
  if toNext then t.upd (· + 1) q (nextQ q) else t

/-- A post is made: the count rises and the outstanding post is no longer due (R102, R104). -/
def Ctx.post (c : Ctx) (q : Queue) (toPrev toNext : Bool) : Ctx :=
  let one := fun (t : Toks) (g : Nat → Nat) =>
    let t := if toPrev then t.upd g q (prevQ q) else t
    if toNext then t.upd g q (nextQ q) else t
  { c with toks := one c.toks (· + 1), outst := one c.outst (· - 1) }

/-- An instruction of a queue completes (R103): its posts are made, its flags are set (R212), and an instruction of the C
queue is in progress no longer. -/
def Ctx.complete (c : Ctx) (e : EvArg) : Ctx :=
  let c := c.post e.q e.f e.g
  { c with
    nstat := c.nstat ||| e.v.extractLsb' 0 10
    cbusy := if e.q = .c then c.cbusy.erase e.b else c.cbusy }

/-- A post that goes to the trap frame (R400). -/
def Ctx.postFrame (c : Ctx) (q : Queue) : Ctx :=
  { c with frame := c.frame.map fun f =>
      { f with toks := f.toks.upd (· + 1) q (nextQ q), outst := f.outst.upd (· - 1) q (nextQ q) } }

/-- Counts the posts of an instruction from its issue (R104), unless they are counted already. -/
def State.countPosts (s : State) (h : Hdr) : State :=
  if s.iss.again then s
  else s.onCtx fun c => { c with outst := c.outst.add (postsOf s.iss.q h.pp h.pn) }

/-- The instruction has done its work and completes b clks from now: its posts are due then (R103, R107), and the flags
it raises are set then (R212) (DEDUCED, notes/assumptions/7.md). -/
def State.finish (s : State) (h : Hdr) (b : Nat) (fl : BitVec 10 := 0) : State :=
  let s := s.countPosts h
  let q := s.iss.q
  let s := s.onCtx fun c => { c with
    qdone := fset c.qdone q.code (max (fget c.qdone q.code 0) (s.now + b))
    cbusy := if q = .c then c.cbusy ++ [s.iss.lineNo] else c.cbusy }
  if h.pp || h.pn || q = .c then
    s.afterClk (clusterOf (coreOf s.iss.ctx)) b .instructionComplete
      { a := s.iss.ctx, b := s.iss.lineNo, q := q, f := h.pp, g := h.pn, v := fl.zeroExtend 64 }
  else s

/-- A scratchpad access of the instruction being executed is performed b clks from now (R103, R362). -/
def State.access (s : State) (b : Nat) : State :=
  let q := s.iss.q.code
  s.onCtx fun c => { c with acc := fset c.acc q (max (fget c.acc q 0) (s.now + b)) }

/-- Every earlier access of the queue of the instruction being executed has been performed. -/
def State.accessed (s : State) (clk : Nat) : Bool := fget s.cc.acc s.iss.q.code 0 ≤ clk

/-- An elementwise vector instruction completes with its last rows, which follow row 0, to which its bound applies, three clks
later (R103, R110). -/
def State.finishRows (s : State) (h : Hdr) (b : Nat) (fl : BitVec 10 := 0) : State := s.finish h (b + 3) fl

/-- The instruction has issued and waits: it holds its queue until it is tried again with success (R101). -/
def State.holdQ (s : State) (h : Hdr) : State :=
  let s := s.countPosts h
  { s with iss := { s.iss with wait := true, again := true } }

/-- The instruction does not issue in this clk: nothing is consumed (R106). -/
def State.notYet (s : State) : State := { s with iss := { s.iss with wait := true, again := false } }

/-- The completion-token modifier: the post of the command is counted from its acceptance (R103, R104). -/
def State.countTok (s : State) (tok : Bool) : State :=
  if tok then s.onCtx fun c => { c with outst := c.outst.upd (· + 1) s.iss.q (nextQ s.iss.q) } else s

/-- The key under which a context of a part is kept while its task is stopped (R407). -/
def savedKey (part ck : Nat) : Nat := 8 * pcoreKey part (physOf (coreOf ck)) + ctxNo ck

/-- Changes a context of a part: where its task is stopped, the context as it is kept. -/
def State.onHeld (s : State) (part ck : Nat) (f : Ctx → Ctx) : State :=
  match fget? s.saved (savedKey part ck) with
  | some v => { s with saved := fset s.saved (savedKey part ck) { v with ctx := f v.ctx } }
  | none => if (s.ctx ck).part = part then s.setCtx ck (f (s.ctx ck)) else s

/-- A reply has written an x register of a context that is kept. -/
def State.landed (s : State) (part ck d : Nat) : State :=
  match fget? s.saved (savedKey part ck) with
  | some v => { s with saved := fset s.saved (savedKey part ck) { v with landed := d :: v.landed } }
  | none => s

/-- A command with TOK completes: one token into the FIFO toward the next queue (R103), or into the trap frame where
it was issued before the trap (R400). -/
def State.tokPost (s : State) (part ck : Nat) (q : Queue) (inFrame : Bool) : State :=
  s.onHeld part ck fun c => if inFrame then c.postFrame q else c.post q false true

/-! ### The fault log -/

/-- The fields of a fault-log entry (R424). -/
structure LogEntry where
  task : Nat := 0
  taskid : Nat := 0
  cause : Nat := 0
  origin : Nat := 0
  inTrap : Bool := false
  pos : Nat := 0
  core : Nat := 0xFF
  ctx : Nat := 0xFF
  opc : Nat := 0
  line : Nat := 0
  lane : Nat := 0
  val : DWord := 0
  reached : Nat := 0
  dva : Nat := 0
  deriving DecidableEq, Repr

/-- Stores bytes from a home key on. -/
def storeAt (m : List Host.Cell) (k : Nat) : List Byte → List Host.Cell
  | [] => m
  | b :: r => storeAt (mset m k b) (k + 1) r

/-- The bytes from a home key on. -/
def loadAt (m : List Host.Cell) (k n : Nat) : List Byte := (upFrom k n).map (mget m)

/-- Writes a fault-log entry, advances FLOGHEAD and sends vector 16 (R424, R426). The first entry of a task is kept
for its status (R421). -/
def State.logFault (s : State) (e : LogEntry) : State :=
  let t := s.task e.task
  let attempt := if e.task = 0 then 0 else t.attempts - 1
  let bytes := leBytes 4 e.taskid ++ leBytes 2 e.cause ++ [BitVec.ofNat 8 e.origin] ++
    [BitVec.ofNat 8 (b2n e.inTrap + 2 * attempt), BitVec.ofNat 8 e.pos, BitVec.ofNat 8 e.core, BitVec.ofNat 8 e.ctx,
     BitVec.ofNat 8 e.opc] ++ leBytes 2 e.line ++ [BitVec.ofNat 8 e.lane, 0] ++ leBytes 8 e.val.toNat ++
    leBytes 8 e.reached ++ leBytes 8 e.dva ++ leBytes 8 s.tb ++ List.replicate 16 0
  let ix := s.flogHead % 4096
  let s := { s with
    mem := storeAt s.mem (ferryKey s.root (0x40000 + 64 * ix)) bytes
    flogHead := s.flogHead + 1
    msix := 16 :: s.msix }
  if e.task = 0 then s
  else s.setTask e.task { t with firstFault := some (t.firstFault.getD (e.cause, ix)) }

/-- A cause code: its class and its number (R395). -/
def cause (k d : Nat) : Nat := 64 * k + d

/-! ### Logging against a task -/

/-- A task completes with FAULT whatever else happens (R288). -/
def failTask (s : State) (t : Nat) : State := if t = 0 then s else s.setTask t { s.task t with failed := true }

/-- Logs an entry and fails its task (DEDUCED, notes/assumptions/54.md). -/
def logError (s : State) (e : LogEntry) : State :=
  failTask (s.logFault { e with taskid := (s.task e.task).launch.taskid }) e.task

/-- Logs a cause against a task for a context of it (R365, R368, R369). -/
def logFor (s : State) (t ck line lane opc cause : Nat) : State :=
  let core := coreOf ck
  logError s
    { task := t, cause := cause, origin := 2, pos := posOf core, core := physOf core, ctx := ctxNo ck
      opc := opc, line := line, lane := lane }

/-! ### Named barriers -/

/-- Complete() of R365. -/
def Bar.complete (b : Bar) : Bar := { b with gen := (b.gen + 1) % 2 ^ 32, cnt := b.cnt - b.exp }

/-- An arrival (R365). -/
def Bar.arrive (b : Bar) : Bar :=
  let b := { b with cnt := b.cnt + 1 }
  if b.exp ≠ 0 ∧ b.cnt = b.exp then b.complete else b

/-- A named barrier of a part on a core (R364). -/
def State.bar (s : State) (pk k : Nat) : Bar := fget (s.pcore pk).bars k {}

/-- Sets it. -/
def State.setBar (s : State) (pk k : Nat) (b : Bar) : State :=
  let p := s.pcore pk
  s.setPcore pk { p with bars := fset p.bars k b }

/-- A remote or deferred arrival is made (R365): x[d] of its context lands with the generation, the tokens of BARA are
posted then, and a full count is logged instead. -/
def State.arrival (s : State) (u : Sync) : State :=
  let pk := pcoreKey u.part u.core
  let b := s.bar pk u.ix
  let s := if b.cnt = 65535 then logFor s (s.part u.part).task u.ctx u.line u.lane 0x14 (cause 8 7)
    else s.setBar pk u.ix b.arrive
  let s := (s.onHeld u.part u.ctx fun c => c.land u.d (BitVec.ofNat 64 b.gen) (s.clk u.ctx + 1)).landed u.part u.ctx u.d
  if u.toPrev || u.toNext then s.afterClk (clusterOf (coreOf u.ctx)) 1 .instructionComplete { a := u.ctx, q := u.q, f := u.toPrev, g := u.toNext }
  else s

/-! ### Waiters -/

/-- A waiter leaves every list of a die. -/
def Die.leave (d : Die) (gone : Nat → Bool) : Die :=
  { d with semw := d.semw.map fun e => (e.1, e.2.filter fun w => !gone w) }

/-- The waiters of a part's or a context's kind leave every semaphore (DEDUCED, notes/assumptions/23.md). -/
def leaveSems (s : State) (gone : Nat → Bool) : State := { s with dies := s.dies.map fun e => (e.1, e.2.leave gone) }

/-! ### Ending parts and tasks -/

/-- The parts of a task, as keys of parts. -/
def State.partsOf (s : State) (t : Nat) : List Nat :=
  ((s.task t).places.map fun p => partKey t p.vdie)

/-- The contexts of a part that are not dormant. -/
def State.ctxsOf (s : State) (p : Nat) : List Nat :=
  (s.ctxs.filter fun e => e.2.part == p && e.2.run != .dormant).map Prod.fst

/-- A context stops for good: nothing of it issues or posts any more, its core's sequencer is free. -/
def State.stopCtx (s : State) (ck : Nat) : State :=
  let c := s.ctx ck
  let s := s.setCtx ck { c with run := .stopped, lanes := [], ql := [], qc := [], qs := [], qf := [], pend := [], faultAt := none, dly := none }
  let s := s.cancel fun d => d.ev == .instructionComplete && d.arg.a == ck
  match fget? s.seqs (coreOf ck) with
  | some q => if q.ctx = ctxNo ck then { s with seqs := fdel s.seqs (coreOf ck) } else s
  | none => s

/-- A parked command is failed: it leaves the list and completes with error (R179, R289). -/
def State.failParked (s : State) (i : Nat) : State :=
  let c := s.cmd i
  match c.parked with
  | none => s
  | some (cause, dva) =>
    let s := s.setCmd i { c with parked := none, err := cause, errDva := dva }
    let d := s.die c.home
    let s := s.setDie c.home { d with parked := d.parked.filter fun e => e.2 != i }
    s.after 0 .copyErrorComplete { a := i }

/-- The engine of an ended part: its nests stop, what has not started never starts, and no row of a stream is left
(R403). -/
def Mx.halt (x : Mx) : Mx :=
  { x with active := none, queued := none, fetch := none, reading := [], taking := []
           ops := (x.ops.filter fun e => e.2.started).map fun (e : Nat × MxOp) => (e.1, { e.2 with rows := [] }) }

/-- The fabric of an ended task stops (R403): an image that loads goes on to the end of its load. -/
def Fab.halt (f : Fab) : Fab := { f with st := if f.st = 1 then 1 else 0, flights := [], buffer := [], handlers := [] }

/-- The engines and the fabric of a task stop, and its contexts and slipways wait on no semaphore any more. -/
def haltUnits (s : State) (t : Nat) : State :=
  let mine := fun p => (s.part p).task == t
  let s := leaveSems s fun w => if w < 2 ^ 20 then mine (s.ctx (w / 8)).part else mine (w - 2 ^ 20)
  { s with
    mxs := s.mxs.map fun (e : Nat × Mx) => (e.1, if mine (e.1 / 64) then e.2.halt else e.2)
    fabs := s.fabs.map fun (e : Nat × Fab) => (e.1, if e.1 = t then e.2.halt else e.2) }

/-- SCHEDTIME of a stopped task goes on from where it stopped (R60, R409). -/
def Task.unfreeze (k : Task) (tb : Nat) : Task :=
  match k.frozen with
  | some v => { k with frozen := none, held := tb - k.t0 - v }
  | none => k

/-- Ends every part of a task as a graph abort ends its tasks (R289, R403): its contexts stop, its parked commands
fail, accepted commands go on to completion, nests and the fabric stop, and the parts retire after them. -/
def State.endTask (s : State) (t cause : Nat) (aborted : Bool) : State :=
  let k := s.task t
  if k.run = .ending then s
  else
    let s := s.setTask t { k.unfreeze s.tb with
      run := .ending, endCause := cause, failed := !aborted, aborted := aborted, hold := none }
    let s := { s with dies := s.dies.map fun (e : Nat × Die) => (e.1, e.2.unheld t) }
    let s := (s.partsOf t).foldl (fun (s : State) p => (s.ctxsOf p).foldl State.stopCtx s) s
    let s := { s with msgs := s.msgs.filter fun e => e.2.task != t
                      saved := s.saved.filter fun e => (s.part (e.1 / 512)).task != t }
    let s := haltUnits s t
    let s := (s.cmds.filter fun e => e.2.task == t).foldl (fun s e => s.failParked e.1) s
    { s with placerDue := true }

/-! ### Traps -/

/-- The classes that are delivered to a handler when raised on a lane (R396). -/
def delivered (cause : Nat) : Bool :=
  let k := cause / 64
  k ≤ 5 || (7 ≤ k && k ≤ 9) || k == 15

/-- An operation that waits to start leaves engine order with its instruction (R263, R399). -/
def Mx.withdraw (x : Mx) (ck : Nat) : Mx :=
  let gone := fun (e : Nat × MxOp) => !e.2.started && !e.2.nest && e.2.ctx == ck
  let mine := x.active.isNone && x.ops.any fun e => gone e && e.2.kind == .pass
  { x with ops := x.ops.filter fun e => !gone e
           fetch := if mine then none else x.fetch
           reading := if mine then [] else x.reading
           taking := fdel x.taking ck }

/-- The arrivals at barriers of other cores whose reply a context still waits for (R365)
(DEDUCED, notes/assumptions/27.md). -/
def repliesDue (s : State) (ck : Nat) : List (Nat × Sync) :=
  s.syncs.filter fun e => e.2.kind == 2 && e.2.ctx == ck && e.2.after.isEmpty

/-- The entries of a queue. -/
def Ctx.queue (c : Ctx) : Queue → List Entry
  | .l => c.ql
  | .c => c.qc
  | .s => c.qs
  | .f => c.qf
  | .x => []

/-- Changes the entries of a queue. -/
def Ctx.setQueue (c : Ctx) (q : Queue) (es : List Entry) : Ctx :=
  match q with
  | .l => { c with ql := es }
  | .c => { c with qc := es }
  | .s => { c with qs := es }
  | .f => { c with qf := es }
  | .x => c

/-- What a context still asks of banks is asked no more: what it issued has completed or is gone. -/
def State.dropBanks (s : State) (ck : Nat) : State :=
  { s with
    banks := match (fget s.banks (coreOf ck) []).filter fun r => r.ctx != ctxNo ck with
      | [] => fdel s.banks (coreOf ck)
      | rs => fset s.banks (coreOf ck) rs }

/-- An entry that has issued and is no waiting instruction: what it does is still to be applied (R362). -/
def Entry.applies (e : Entry) : Bool :=
  e.tokDone && match e.instr with
    | .rcommit _ _ _ _ | .rpop _ _ _ _ => true
    | _ => false

/-- Every instruction of a context's queues that has issued has run to completion and written its destinations, but for those
that wait (R399 step 2). -/
def issuedOver (s : State) (ck : Nat) : Bool :=
  let c := s.ctx ck
  (c.qdone.all fun e => e.2 ≤ s.clk ck) && c.cbusy.isEmpty && (repliesDue s ck).isEmpty &&
  ((fget s.banks (coreOf ck) []).all fun r => r.ctx != ctxNo ck) &&
  [Queue.l, .c, .s, .f].all fun q => !((c.queue q).head?).any Entry.applies

/-- The instructions of a context that have issued and wait are withdrawn (R399 step 2): they leave the order of their
semaphore, and the engine order of their core. -/
def State.withdraw (s : State) (ck : Nat) : State :=
  let s := leaveSems s fun w => w / 8 == ck
  { s with mxs := s.mxs.map fun (e : Nat × Mx) => (e.1, e.2.withdraw ck) }

/-- The entries of a queue as a trap frame keeps them: an entry that is a register's writer leaves it pending no more. -/
def Ctx.unpendAll (c : Ctx) (es : List Entry) : Ctx :=
  es.foldl (fun c e =>
    match (uses e.instr).dst with
    | some d => c.unpend (physX e.rot d.toNat)
    | none => c) c

/-- Marks the entry at the head of a queue (R399 step 3). -/
def markHead : List Entry → List Entry
  | [] => []
  | e :: r => { e with marked := true } :: r

/-- The first lane of fetched lines that has not taken effect, as a line and a lane (R398). -/
def Ctx.at_ (c : Ctx) : Nat × Nat :=
  match c.lanes with
  | l :: _ => (c.line, if c.opened then l.idx else c.fromLane)
  | [] => (c.pc, c.fromLane)

/-- The resume point of a fault (R398). -/
def resumePoint (c : Ctx) (p : Pending) : Nat × Nat :=
  match p.kind with
  | 0 => (p.line, 0)
  | 1 => if p.qc = 1 then (p.line, p.lane) else c.at_
  | 2 => c.at_
  | _ => if p.lane ≥ 7 ∨ (c.lanes.drop 1).isEmpty then (c.pc, 0) else (p.line, p.lane + 1)

/-- The sequencer, if it runs for a context (R117, R123). -/
def frameSeq (s : State) (ck : Nat) : Option Seq :=
  match fget? s.seqs (coreOf ck) with
  | some q => if q.ctx = ctxNo ck then some q else none
  | none => none

/-- What a trap keeps of the sequencer, and the lane at which the context resumes: a slot whose last lane has taken effect
is not run again (R123) (DEDUCED, notes/assumptions/40.md). -/
def trapSeq (sq : Option Seq) (last : Bool) (lane : Nat) : Option Seq × Nat :=
  match sq with
  | some q => if last then (some { q with slots := q.slots.drop 1 }, 0) else (some q, lane)
  | none => (none, lane)

/-- The trap frame (R399 step 3): the entries of the queues with the faulting one marked, the token counts, the
scoreboard, the sequencer and the resume point (R398). -/
def trapFrame (c : Ctx) (sq : Option Seq) (p : Pending) : Frame :=
  let r := resumePoint c p
  let t := trapSeq sq (p.kind == 3 && (c.lanes.drop 1).isEmpty) r.2
  let mk := fun (q : Queue) (es : List Entry) => if p.kind = 1 ∧ p.qc = q.code then markHead es else es
  { ql := mk .l c.ql, qc := mk .c c.qc, qs := mk .s c.qs, qf := mk .f c.qf
    toks := c.toks, outst := c.outst, re := c.re, rx := c.rx
    seq := t.1, line := r.1, lane := t.2, ended := c.run == .draining }

/-- The context as its handler finds it (R399 steps 3 and 4): queues and FIFOs empty, the trap registers set, the
handler's line next. -/
def Ctx.trapped (c : Ctx) (p : Pending) (fr : Frame) (clk : Nat) : Ctx :=
  { c with
    run := .running, frame := some fr
    ql := [], qc := [], qs := [], qf := []
    toks := {}, outst := {}
    lanes := [], opened := false, fromLane := 0, reach := .flow, rot := 0, inBody := false, dly := none
    tcode := p.cause, tkind := p.kind, intrap := true
    tline := p.line % 8192, tlane := p.lane, tqc := p.qc, tskip := false, tval := p.val
    pc := c.tvecLine.toNat
    fetchAt := clk + 1, faultAt := none
    pend := c.pend.filter fun q => q.kind == 2 }

/-- Whether the posts of a context's accepted commands go to its trap frame (R400). -/
def State.postInto (s : State) (ck part : Nat) (frame : Bool) : State :=
  { s with cmds := s.cmds.map fun (e : Nat × Cmd) =>
      (e.1, if e.2.ctx = ck ∧ e.2.part = part then { e.2 with inFrame := frame } else e.2) }

/-- The sequencer of a core becomes free where the trap frame keeps its state. -/
def State.freeSeq (s : State) (core : Nat) (fr : Frame) : State :=
  { s with seqs := if fr.seq.isSome then fdel s.seqs core else s.seqs }

/-- Takes a trap whose handler runs (R399): what waits is withdrawn, the frame is saved, the queues and FIFOs are emptied, the
trap registers are set, and the handler's line is fetched in the next clk. Commands accepted before the trap post into the
frame (R400) (DEDUCED, notes/assumptions/35.md). -/
def State.enterTrap (s : State) (ck : Nat) (p : Pending) : State :=
  let s := s.withdraw ck
  let c := s.ctx ck
  let fr := trapFrame c (frameSeq s ck) p
  let d := (c.unpendAll (c.ql ++ c.qc ++ c.qs ++ c.qf)).trapped p fr (s.clk ck)
  ((s.setCtx ck d).freeSeq (coreOf ck) fr).postInto ck c.part true

/-- A PROG routine ends without having executed END (R46, R472): nothing of it is left to wait for but the commands it has
had accepted, and its node completes with FAULT. -/
def State.endRoutine (s : State) (ck : Nat) : State :=
  let s := s.stopCtx ck
  s.setCtx ck { s.ctx ck with
    run := .draining, outst := {}, xpend := [], cbusy := [], qdone := [], frame := none, cmdBad := true }

/-- Changes a context. -/
def State.onCtxOf (s : State) (ck : Nat) (f : Ctx → Ctx) : State := s.setCtx ck (f (s.ctx ck))

/-- A fault that is not delivered, or arises during trap handling, escalates (R403): the context stops, the fault log
receives the cause and the task ends with FAULT. A PROG routine on a control core ends, and the purser's firmware
restarts (R472). -/
def State.escalate (s : State) (ck : Nat) (p : Pending) : State :=
  let s := s.withdraw ck
  let c := s.ctx ck
  let core := coreOf ck
  let t := s.taskOf ck
  let e : LogEntry :=
    { task := t, taskid := (s.task t).launch.taskid, cause := p.cause, inTrap := c.intrap
      pos := posOf core, core := physOf core, ctx := ctxNo ck, line := p.line % 8192, lane := p.lane, val := p.val }
  if isControl core then
    let s := s.logFault { e with task := 0, taskid := 0 }
    if 208 ≤ core then
      (s.stopCtx ck).setCtx ck { ({} : Ctx) with run := .running, base := c.base, root := c.root, front := s.clk ck + 1 }
    else
      (s.endRoutine ck).onCtxOf ck fun c => { c with tcode := p.cause, tkind := p.kind }
  else
    let s := s.logFault e
    let s := s.setCtx ck { s.ctx ck with
      tcode := p.cause, tkind := p.kind, tline := p.line % 8192, tlane := p.lane, tqc := p.qc, tval := p.val }
    let s := s.stopCtx ck
    s.endTask t p.cause false

/-- The earliest fault in program order: lowest line, then lowest lane, deferred faults last (R398). -/
def earliest : List Pending → Option Pending
  | [] => none
  | p :: r =>
    match earliest r with
    | none => some p
    | some q =>
      if p.kind = 2 ∧ q.kind ≠ 2 then some q
      else if q.kind = 2 ∧ p.kind ≠ 2 then some p
      else if q.line < p.line ∨ (q.line = p.line ∧ q.lane < p.lane) then some q else some p

/-- Takes a fault as a trap (R399, R403). -/
def State.takeTrap (s : State) (ck : Nat) (p : Pending) : State :=
  let c := s.ctx ck
  if c.intrap || !c.tvecEn || !delivered p.cause then s.escalate ck p else s.enterTrap ck p

/-- A fault arises in a context (R398): after this clk nothing of the context issues or takes effect until the trap is entered
(R399 step 1). -/
def State.addFault (s : State) (ck : Nat) (p : Pending) : State :=
  s.onCtxOf ck fun c => { c with pend := c.pend ++ [p], faultAt := some (c.faultAt.getD (s.clk ck)) }

/-- The instruction being executed has raised a fault: it does not complete. -/
def State.markFaulted (s : State) : State := { s with iss := { s.iss with faulted := true } }

/-- The instruction being executed raises a fault on its lane (R125, R398): kind 1, or 3 for TRAP. -/
def State.raiseK (s : State) (kind cause : Nat) (val : DWord) : State :=
  s.markFaulted.addFault s.iss.ctx ⟨cause, kind, s.iss.line, s.iss.lane, s.iss.q.code, val⟩

/-- An execution fault of the instruction being executed. -/
def State.raise (s : State) (cause : Nat) (val : DWord := 0) : State := s.raiseK 1 cause val

/-- A decoding fault of a line of a context (R76, R398). -/
def State.decodeFault (s : State) (ck line cause lane qc : Nat) : State :=
  s.addFault ck ⟨cause, 0, line, lane, qc, 0⟩

/-- Re-enqueues the entries of a frame: their destinations are pending again (R402). -/
def Ctx.repend (c : Ctx) (es : List Entry) : Ctx :=
  es.foldl (fun c e =>
    match (uses e.instr).dst with
    | some d =>
      let k := physX e.rot d.toNat
      if k = 0 then c else { c with xpend := fset c.xpend k (fget c.xpend k 0 + 1) }
    | none => c) c

/-- Entries put back into a queue are tried afresh; the mark is taken off. -/
def requeue (es : List Entry) (clk : Nat) : List Entry := es.map fun e => { e with marked := false, enq := clk }

/-- An entry of the frame is not put back: the marked entry, where SKIP is set for an execution fault of a queued
instruction (R402). -/
def Ctx.dropped (c : Ctx) (e : Entry) : Bool := c.tkind == 1 && c.tskip && c.tqc != 1 && e.marked

/-- The line and lane of ERET before a lane past the last is carried to the next line (R402). -/
def Ctx.resumeLane (c : Ctx) (f : Frame) : Nat × Nat :=
  if c.tskip ∧ c.tkind = 0 then (c.tline + 1, 0)
  else if c.tskip ∧ c.tkind = 1 ∧ c.tqc = 1 then (c.tline, c.tlane + 1)
  else (f.line, f.lane)

/-- The context after ERET but for the pending destinations (R402). -/
def Ctx.returned (c : Ctx) (f : Frame) (clk : Nat) : Ctx :=
  let keep := fun (es : List Entry) => requeue (es.filter fun e => !c.dropped e) clk
  let r := c.resumeLane f
  { c with
    ql := keep f.ql, qc := keep f.qc, qs := keep f.qs, qf := keep f.qf
    toks := f.toks, outst := f.outst, re := f.re, rx := f.rx
    frame := none, intrap := false, run := if f.ended then .draining else .running
    pc := if r.2 ≥ 8 then r.1 + 1 else r.1
    fromLane := if r.2 ≥ 8 then 0 else r.2
    reach := .flow, fetchAt := max c.fetchAt (clk + 1) }

/-- The sequencer of a frame runs again: its body is fetched again, and where the X lane to resume at was past the last of
its slot, that slot is over (R123, R402). -/
def Seq.again (q : Seq) (last : Bool) : Seq := { q with body := [], slots := if last then q.slots.drop 1 else q.slots }

/-- The return from a trap (R402). The caller has seen that the queues are empty and every post is made. -/
def State.leaveTrap (s : State) (ck : Nat) : State :=
  let c := s.ctx ck
  match c.frame with
  | none => s
  | some f =>
    let d := c.returned f (s.clk ck)
    let d := d.repend (d.ql ++ d.qc ++ d.qs ++ d.qf)
    let s := (s.setCtx ck d).postInto ck c.part false
    { s with seqs := match f.seq with
      | some q => fset s.seqs (coreOf ck) (q.again ((c.resumeLane f).2 ≥ 8))
      | none => s.seqs }

/-! ### Cause codes (R395) -/

def cSchedViolation : Nat := cause 1 0
def cMisaligned : Nat := cause 2 0
def cOutOfRange : Nat := cause 2 1
def cNotOwned : Nat := cause 2 2
def cOwnRange : Nat := cause 2 3
def cTmovShape : Nat := cause 2 4
def cTmovRange : Nat := cause 2 5
def cBankLimit : Nat := cause 2 6
def cMxRange : Nat := cause 2 7
def cProbeOff : Nat := cause 2 8
def cProbeAddr : Nat := cause 2 9
def cProbeInLoop : Nat := cause 2 10
def cProbeSlot : Nat := cause 2 11
def cPinUnderflow : Nat := cause 2 12
def cProbeBusy : Nat := cause 2 13
def cProbeCfg : Nat := cause 2 14
def cSdbFormat : Nat := cause 3 0
def cFormatMismatch : Nat := cause 3 1
def cTagMismatch : Nat := cause 3 2
def cTagZero : Nat := cause 3 3
def cConvField : Nat := cause 3 4
def cSparsePos : Nat := cause 3 5
def cMxField : Nat := cause 3 6
def cNestCfg : Nat := cause 3 7
def cDrainqState : Nat := cause 3 8
def cCopyField : Nat := cause 4 0
def cCopyRange : Nat := cause 4 1
def cRestartRange : Nat := cause 4 2
def cWalkOrder : Nat := cause 4 3
def cPutWindow : Nat := cause 4 4
def cPutPeer : Nat := cause 4 5
def cHRing : Nat := cause 4 6
def cDvaRange : Nat := cause 5 0
def cPteInvalid : Nat := cause 5 1
def cPteFormat : Nat := cause 5 2
def cOrdReserved : Nat := cause 5 3
def cWriteDenied : Nat := cause 5 4
def cDpaNone : Nat := cause 5 5
def cMemUnrecov : Nat := cause 6 0
def cStackLost : Nat := cause 6 1
def cFabState : Nat := cause 7 0
def cFabLate : Nat := cause 7 1
def cFabField : Nat := cause 7 2
def cFabRange : Nat := cause 7 3
def cFabImage : Nat := cause 7 4
def cFabHole : Nat := cause 7 5
def cStreamUnbound : Nat := cause 7 6
def cRingField : Nat := cause 8 0
def cRingBusy : Nat := cause 8 1
def cRingEnd : Nat := cause 8 2
def cRingFull : Nat := cause 8 3
def cRingNoclaim : Nat := cause 8 4
def cRingEmpty : Nat := cause 8 5
def cBarAddr : Nat := cause 8 6
def cBarState : Nat := cause 8 7
def cPbRange : Nat := cause 8 8
def cPbState : Nat := cause 8 9
def cSemField : Nat := cause 8 10
def cSemOverflow : Nat := cause 8 11
def cMsgField : Nat := cause 8 12
def cMsgBusy : Nat := cause 8 13
def cSysregRo : Nat := cause 9 0
def cSysregNone : Nat := cause 9 1
def cEretNotrap : Nat := cause 9 2
def cYieldBound : Nat := cause 10 0
def cAborted : Nat := cause 10 1
def cRestartLimit : Nat := cause 10 2
def cHoldExpired : Nat := cause 11 0
def cLinkDown : Nat := cause 11 1
def cSpadUe : Nat := cause 12 0
def cIstoreUe : Nat := cause 12 1
def cAccUe : Nat := cause 12 2
def cEngineUe : Nat := cause 12 3
def cDieLost : Nat := cause 12 4
def cNodeKind : Nat := cause 13 0
def cNodeVersion : Nat := cause 13 1
def cNodeField : Nat := cause 13 2
def cLoopLimit : Nat := cause 13 3
def cGraphSem : Nat := cause 13 4
def cCmdOp : Nat := cause 13 5
def cFetchRange : Nat := 0x38

end Sys2Proof.Machine
end

