-- ==== Sys2Proof/Machine/Bringup.lean ====
section
/-! DEFINITION. Bring-up: reset, link training, zero fill, staggered power-up, and fencing a die (01_package.md R18 to
R21; 18_retirement_and_surroundings.md R430). -/

namespace Sys2Proof.Machine

/-- Bring-up fails and stays so until the next reset (R21). -/
def failBoot (s : State) (code pos : Nat) : State := { s with bootStep := 15, bootFail := code, bootPos := pos }

/-- The first position whose KIND or REV differs from the signed mix record (R20). -/
def mixBad (s : State) : Option Nat :=
  (List.range 34).find? fun p => s.mixRec[p]? != some ((s.die p).kind, (s.die p).rev)

/-- A die makes a capability exchange: it is present and not fused off, and no stack (R18). -/
def trains (s : State) (p : Nat) : Bool := (s.die p).kind != 0 && (s.die p).kind != 6 && !(s.die p).fused

/-- The links of the package, each by its lower end: position and module (R10, R474). -/
def allLinks : List (Nat × Nat) :=
  (List.range 22).flatMap fun p => ((List.range (moduleCount p)).filter fun m => p < farEnd p m).map fun m => (p, m)

/-- The links whose two ends train. -/
def trainable (s : State) : List (Nat × Nat) := allLinks.filter fun (p, m) => trains s p && trains s (farEnd p m)

/-- The highest interface version common to two dies (R430). -/
def commonIf (a b : Die) : Option Nat :=
  if max a.ifLo b.ifLo ≤ min a.ifHi b.ifHi then some (min a.ifHi b.ifHi) else none

/-- Starts the training of a link: how long it takes, and the redundant lanes it leaves (R475), are free
(DESIGN CHOICE, notes/assumptions/37.md). -/
def startTraining (s : State) (l : Nat × Nat) : State :=
  let v := commonIf (s.die l.1) (s.die (farEnd l.1 l.2))
  let spare := Config.choose s.free % 16
  { s with free := s.free + 1 }.later .linkTrainingDone
    { a := l.1, b := l.2, f := v.isSome, c := v.getD 0, d := spare }

/-- A die as a reset leaves it: what its fuses say. -/
def Die.reborn (d : Die) : Die := { kind := d.kind, rev := d.rev, fused := d.fused, ifLo := d.ifLo, ifHi := d.ifHi }

/-- The package as a reset leaves it (R20, R21, R59): fuses, firmware, the keys' erasure and the bytes of its memories stay,
everything else has its reset value (DESIGN CHOICE, notes/assumptions/83.md). -/
def State.restarted (s : State) : State :=
  { State.reset with
    mem := s.mem, istore := s.istore, dies := s.dies.map fun (e : Nat × Die) => (e.1, e.2.reborn), fwGood := s.fwGood
    mixRec := s.mixRec, almfuse := s.almfuse, keysErased := s.keysErased, free := s.free
    agenda := State.reset.agenda.filter fun d => d.ev != .reset }

/-- RESET (R20): the boot ROM verifies the first firmware stage, every MIXn is compared with the signed mix record, and
every link begins to train. A reset of a package that has begun its bring-up, or failed it, starts it afresh (R21). -/
def execReset (s : State) : Res :=
  let s := if s.bootStep = 0 then s else s.restarted
  if !s.fwGood then .next (failBoot s 3 0)
  else
    match mixBad s with
    | some p => .next (failBoot s 1 p)
    | none => .next ((trainable s).foldl startTraining { s with bootStep := 2 })

/-- A link of a die that is present has been marked down (R20, R418). -/
def linkLost (s : State) (p m : Nat) : Bool := (fget (s.die p).links m {}).trained && !s.linkUp p m

/-- A compute die has no live link to a buffer die (R20, R418). -/
def cutOff (s : State) (p : Nat) : Bool :=
  isCompute p && (upFrom 2 6).all fun m => !((fget (s.die p).links m {}).trained && s.linkUp p m)

/-- HEALTH goes from live to fenced (R19); the placer considers its requests (R50). -/
def fenceDie (s : State) (p : Nat) : State :=
  let d := s.die p
  if d.kind ≠ 0 ∧ d.health = 0 then { s.setDie p { d with health := 1 } with placerDue := true } else s

/-- One end of a link after training. -/
def endTrained (s : State) (p m : Nat) (up : Bool) (ifv spare : Nat) : State :=
  let d := s.die p
  let l := fget d.links m {}
  s.setDie p { d with
    links := fset d.links m { l with trained := true, state := if up then 0 else 3, spare := spare }
    ifv := if up then ifv else d.ifv }

/-- The step after link training (R20): a die cut off from the buffer dies is fenced, an essential link that is down fails
bring-up, and else the zero fill begins; it takes at least 576 GB / 43.2 TB/s. Where several essential dies have a link down,
POS names the lowest of their positions (DESIGN CHOICE, notes/assumptions/84.md). -/
def afterTraining (s : State) : State :=
  let s := (List.range 22).foldl (fun s p => if trains s p && cutOff s p then fenceDie s p else s) s
  let essential := fun p => p == 0 || kindOf p == 4
  match (List.range 22).find? fun p => essential p && (List.range (moduleCount p)).any (linkLost s p) with
  | some p => failBoot s 2 p
  | none =>
    let s := { s with bootStep := 3 }
    { s.after (16666667 + Config.latency s.free) .zeroFillDone with free := s.free + 1 }

/-- LINK_TRAINING_DONE (R20): the latch names the position, the module, whether the link trained, the version agreed and
the redundant lanes left. -/
def execLinkTrainingDone (s : State) : Res :=
  let e := s.ev
  let q := farEnd e.a e.b
  if s.bootStep ≠ 2 ∨ !((trainable s).contains (e.a, e.b)) ∨ (fget (s.die e.a).links e.b {}).trained then
    .fault .notEnabled
  else
    let s := endTrained s e.a e.b e.f e.c e.d
    let s := endTrained s q (farModule e.a e.b) e.f e.c e.d
    if (trainable s).all fun l => (fget (s.die l.1).links l.2 {}).trained then .next (afterTraining s) else .next s

/-- ZERO_FILL_DONE (R20): every byte of every stack is zero, so every stripe is consistent with its parity. -/
def execZeroFillDone (s : State) : Res :=
  if s.bootStep ≠ 3 then .fault .notEnabled
  else
    .next ({ s with mem := mzero s.mem 0 (stackKey 12 0), bootStep := 4
                    memStacks := s.memStacks.map fun (e : Nat × Stack) => (e.1, { e.2 with bad := [] }) }.after 0 .clusterPowerUp)

/-- The next cluster to leave gating (R20): ascending position, then cluster number, fenced dies skipped. -/
def nextPowerUp (s : State) : Option Nat :=
  (List.range 56).find? fun c => !(s.cluster c).powered && s.live (clusterPos c)

/-- CLUSTER_POWER_UP (R20, R21): the next cluster leaves gating; after the last one the graph queues open. -/
def execClusterPowerUp (s : State) : Res :=
  if s.bootStep ≠ 4 then .fault .notEnabled
  else
    let s := match nextPowerUp s with
      | some c => s.setCluster c { s.cluster c with powered := true }
      | none => s
    match nextPowerUp s with
    | some _ => .next (s.after 2500 .clusterPowerUp)
    | none => .next { s with bootStep := 6 }

/-- DIE_FENCE (R19): the latch names a die that is live. -/
def execDieFence (s : State) : Res :=
  let d := s.die s.ev.a
  if d.kind = 0 ∨ d.fused ∨ d.health ≠ 0 then .fault .notEnabled else .next (fenceDie s s.ev.a)

end Sys2Proof.Machine
end

