-- ==== Sys2Proof/Machine/Float.lean ====
section
/-! DEFINITION. Floating-point values and their formats, exact arithmetic and the one rounding of every result
(08_number_formats.md R183 to R186; 09_vector_elementwise.md R216, R217, R224, R225). -/

namespace Sys2Proof.Machine

/-- A value of a floating-point format: (-1)^neg * m * 2^e where it is finite. -/
inductive FVal where
  | nan
  | inf (neg : Bool)
  | fin (neg : Bool) (m : Nat) (e : Int)
  deriving DecidableEq, Repr

/-- A format: exponent bits, fraction bits and bias (R183, R185, R192). -/
structure Fmt where
  eb : Nat
  fb : Nat
  bias : Nat
  deriving DecidableEq, Repr

def fp32 : Fmt := ⟨8, 23, 127⟩
def bf16 : Fmt := ⟨8, 7, 127⟩
def fp16 : Fmt := ⟨5, 10, 15⟩
def a48f : Fmt := ⟨9, 38, 255⟩
def e5m2 : Fmt := ⟨5, 2, 15⟩
/-- E4M3 has no infinities; its exponent of all ones is a normal one (R192). -/
def e4m3 : Fmt := ⟨4, 3, 7⟩

/-- FT: 0 F32, 1 BF16, 2 FP16 (R213). -/
def fmtOf (ft : Nat) : Fmt := if ft = 0 then fp32 else if ft = 1 then bf16 else fp16

/-- The bits of a format. -/
def Fmt.width (f : Fmt) : Nat := 1 + f.eb + f.fb

/-- The exponent of the unit of the subnormals. -/
def Fmt.emin (f : Fmt) : Int := 1 - (f.bias : Int) - f.fb

/-- The default NaN (R183, R185). -/
def Fmt.nanBits (f : Fmt) : Nat := (2 ^ f.eb - 1) * 2 ^ f.fb + 2 ^ (f.fb - 1)

/-- An infinity. -/
def Fmt.infBits (f : Fmt) (neg : Bool) : Nat := b2n neg * 2 ^ (f.eb + f.fb) + (2 ^ f.eb - 1) * 2 ^ f.fb

/-- The largest finite value. -/
def Fmt.maxBits (f : Fmt) (neg : Bool) : Nat := f.infBits neg - 1

/-- A zero. -/
def Fmt.zeroBits (f : Fmt) (neg : Bool) : Nat := b2n neg * 2 ^ (f.eb + f.fb)

/-- The value of a pattern. -/
def Fmt.value (f : Fmt) (w : Nat) : FVal :=
  let s := bit w (f.eb + f.fb)
  let x := bits w f.fb f.eb
  let r := bits w 0 f.fb
  if x = 2 ^ f.eb - 1 then (if r = 0 then .inf s else .nan)
  else if x = 0 then .fin s r f.emin
  else .fin s (2 ^ f.fb + r) (f.emin + (x - 1 : Nat))

/-- The value of an E4M3 pattern (R192). -/
def e4m3Value (w : Nat) : FVal :=
  let s := bit w 7
  let x := bits w 3 4
  let r := bits w 0 3
  if x = 15 ∧ r = 7 then .nan
  else if x = 0 then .fin s r e4m3.emin
  else .fin s (8 + r) (e4m3.emin + (x - 1 : Nat))

/-! ### Rounding -/

/-- m * 2^k, for k not negative. -/
def shiftUp (m : Nat) (k : Int) : Nat := m * 2 ^ k.toNat

/-- Floor(log2(n / d)) for positive n and d. -/
def floorLog2 (n d : Nat) : Int :=
  let l : Int := (Nat.log2 n : Int) - Nat.log2 d
  if shiftUp d l ≤ shiftUp n (-l) then l else l - 1

/-- n / d rounded to an integer under a mode of R184 (0 RNE, 1 RZ, 2 RU, 3 RD), of a value of the given sign. -/
def roundInt (rm : Nat) (neg : Bool) (n d : Nat) : Nat :=
  let w := n / d
  let r := n % d
  let up := match rm with
    | 0 => d < 2 * r || (2 * r == d && w % 2 == 1)
    | 1 => false
    | 2 => r != 0 && !neg
    | _ => r != 0 && neg
  if up then w + 1 else w

/-- The exact value (n / d) * 2^e as a fraction of the unit 2^q. -/
def inUnits (n d : Nat) (e q : Int) : Nat × Nat := (shiftUp n (e - q), shiftUp d (q - e))

/-- The unit a positive value (n / d) * 2^e of a format is rounded to: its last fraction bit. -/
def Fmt.unit (f : Fmt) (n d : Nat) (e : Int) : Int := max (floorLog2 n d + e - f.fb) f.emin

/-- The pattern of w * 2^q, where w has at most fb + 1 bits or is 2^(fb + 1), and q is the unit it was rounded to. -/
def Fmt.pack (f : Fmt) (neg : Bool) (w : Nat) (q : Int) : Nat :=
  b2n neg * 2 ^ (f.eb + f.fb) + ((q - f.emin).toNat * 2 ^ f.fb + w)

/-- The largest finite value is exceeded by w * 2^q. -/
def Fmt.over (f : Fmt) (w : Nat) (q : Int) : Bool := 2 ^ f.eb - 1 ≤ (f.pack false w q) / 2 ^ f.fb

/-- The flags of NSTAT (R212). -/
abbrev Flags := BitVec 10
def flInv : Flags := 1
def flDz : Flags := 2
def flOvf : Flags := 4
def flUnf : Flags := 8
def flInx : Flags := 16
def flSat : Flags := 32
def flQuf : Flags := 64
def flQof : Flags := 128
def flQnan : Flags := 256
def flQ8neg : Flags := 512

/-- An overflow goes to infinity under RNE, and under RU and RD toward the infinity of its sign (R217, R224). -/
def toInf (rm : Nat) (neg : Bool) : Bool := rm == 0 || (rm == 2 && !neg) || (rm == 3 && neg)

/-- The exact value (-1)^neg * (n / d) * 2^e rounded once to a format, with its flags (R183, R184, R217). An exact zero
gives +0; a value that rounds to zero keeps its sign. -/
def Fmt.round (f : Fmt) (rm : Nat) (neg : Bool) (n d : Nat) (e : Int) : Nat × Flags :=
  if n = 0 then (0, 0)
  else
    let q := f.unit n d e
    let (a, b) := inUnits n d e q
    let w := roundInt rm neg a b
    if f.over w q then (if toInf rm neg then f.infBits neg else f.maxBits neg, flOvf ||| flInx)
    else
      let inx := a % b != 0
      (f.pack neg w q,
        (if inx then flInx else 0) ||| (if inx && w != 0 && w < 2 ^ f.fb then flUnf else 0))

/-- The pattern of a value in a format, rounded; the sign of a zero is kept only where keep is set (R184, R224). -/
def Fmt.ofValue (f : Fmt) (rm : Nat) (keep : Bool) : FVal → Nat × Flags
  | .nan => (f.nanBits, 0)
  | .inf s => (f.infBits s, 0)
  | .fin s m e => if m = 0 then (if keep then f.zeroBits s else 0, 0) else f.round rm s m 1 e

/-! ### Exact arithmetic -/

/-- The sign of a value. -/
def FVal.neg : FVal → Bool
  | .nan => false
  | .inf s => s
  | .fin s _ _ => s

/-- The value with its sign inverted. -/
def FVal.flip : FVal → FVal
  | .nan => .nan
  | .inf s => .inf !s
  | .fin s m e => .fin (!s) m e

/-- The value is zero. -/
def FVal.isZero : FVal → Bool
  | .fin _ m _ => m == 0
  | _ => false

/-- The exact product; 0 times an infinity is NaN. -/
def FVal.mul : FVal → FVal → FVal
  | .fin s m e, .fin t n f => .fin (s != t) (m * n) (e + f)
  | .nan, _ => .nan
  | _, .nan => .nan
  | a, b => if a.isZero || b.isZero then .nan else .inf (a.neg != b.neg)

/-- m * 2^e as an integer number of units 2^q, q at most e. -/
def unitsOf2 (s : Bool) (m : Nat) (e q : Int) : Int :=
  let n : Int := shiftUp m (e - q)
  if s then -n else n

/-- The exact sum: +0 for an exact zero but for two operands -0 (R184); infinities of both signs give NaN. -/
def FVal.add : FVal → FVal → FVal
  | .fin s m e, .fin t n f =>
    let q := min e f
    let v := unitsOf2 s m e q + unitsOf2 t n f q
    if v = 0 then .fin (m == 0 && n == 0 && s && t) 0 q else .fin (v < 0) v.natAbs q
  | .nan, _ => .nan
  | _, .nan => .nan
  | .inf s, .inf t => if s = t then .inf s else .nan
  | .inf s, _ => .inf s
  | _, .inf t => .inf t

/-- The value is NaN. -/
def FVal.isNan : FVal → Bool
  | .nan => true
  | _ => false

/-- The value is NaN or an infinity. -/
def FVal.special : FVal → Bool
  | .fin _ _ _ => false
  | _ => true

/-- Less, of values that are not NaN; -0 equals +0. -/
def FVal.lt : FVal → FVal → Bool
  | .fin s m e, .fin t n f => let q := min e f; unitsOf2 s m e q < unitsOf2 t n f q
  | .inf s, .inf t => s && !t
  | .inf s, .fin _ _ _ => s
  | .fin _ _ _, .inf t => !t
  | _, _ => false

/-- Less with -0 below +0 (R216). -/
def FVal.below (x y : FVal) : Bool := x.lt y || (x.isZero && y.isZero && x.neg && !y.neg)

/-- An operation on operands that are not NaN which gives NaN is invalid (R217); the result is rounded once, and an
exact zero of a sum keeps the sign the sum gives it (R184). -/
def Fmt.result (f : Fmt) (v : FVal) (sum : Bool) : Nat × Flags :=
  match v with
  | .nan => (f.nanBits, flInv)
  | v => f.ofValue 0 sum v

/-- VADD and VSUB on patterns (R216, R217). -/
def fAdd (f : Fmt) (a b : Nat) : Nat × Flags :=
  let x := f.value a
  let y := f.value b
  if x.isNan || y.isNan then (f.nanBits, 0) else f.result (x.add y) true
def fSub (f : Fmt) (a b : Nat) : Nat × Flags :=
  let x := f.value a
  let y := f.value b
  if x.isNan || y.isNan then (f.nanBits, 0) else f.result (x.add y.flip) true
/-- VMUL: an exact zero gives +0 (R184). -/
def fMul (f : Fmt) (a b : Nat) : Nat × Flags :=
  let x := f.value a
  let y := f.value b
  if x.isNan || y.isNan then (f.nanBits, 0) else f.result (x.mul y) false
/-- VFMA and VFMS: a * b + d and d - a * b, rounded once. -/
def fFma (f : Fmt) (minus : Bool) (a b d : Nat) : Nat × Flags :=
  let x := f.value a
  let y := f.value b
  let z := f.value d
  if x.isNan || y.isNan || z.isNan then (f.nanBits, 0)
  else
    let p := x.mul y
    if p.isNan then (f.nanBits, flInv) else f.result (z.add (if minus then p.flip else p)) true
/-- VMIN and VMAX: no rounding, no flag (R217). -/
def fMin (f : Fmt) (a b : Nat) : Nat :=
  let x := f.value a
  let y := f.value b
  if x.isNan || y.isNan then f.nanBits else if y.below x then b else a
def fMax (f : Fmt) (a b : Nat) : Nat :=
  let x := f.value a
  let y := f.value b
  if x.isNan || y.isNan then f.nanBits else if x.below y then b else a
/-- VCLAMP: Min(Max(a, lo), hi). -/
def fClamp (f : Fmt) (a lo hi : Nat) : Nat :=
  if (f.value a).isNan || (f.value lo).isNan || (f.value hi).isNan then f.nanBits else fMin f (fMax f a lo) hi
/-- VABS and VNEG. -/
def fAbs (f : Fmt) (a : Nat) : Nat := if (f.value a).isNan then f.nanBits else a % 2 ^ (f.eb + f.fb)
def fNeg (f : Fmt) (a : Nat) : Nat :=
  if (f.value a).isNan then f.nanBits
  else a % 2 ^ (f.eb + f.fb) + b2n (!bit a (f.eb + f.fb)) * 2 ^ (f.eb + f.fb)

/-- The conditions of VCMP (R221). -/
def fCond (f : Fmt) (k : Nat) (a b : Nat) : Bool :=
  let x := f.value a
  let y := f.value b
  let un := x.isNan || y.isNan
  match k with
  | 0 => !un && !x.lt y && !y.lt x
  | 1 => un || x.lt y || y.lt x
  | 2 => !un && x.lt y
  | 3 => !un && !x.lt y
  | 4 => !un && !y.lt x
  | 5 => !un && y.lt x
  | 6 => !un
  | _ => un

/-! ### Conversions between plain formats (R224, R225) -/

/-- A value rounded to an integer under a mode, with whether it was inexact. -/
def toInt (rm : Nat) (s : Bool) (m : Nat) (e : Int) : Int × Bool :=
  let (a, b) := inUnits m 1 e 0
  let w : Int := roundInt rm s a b
  (if s then -w else w, a % b != 0)

/-- A floating-point value to a signed integer of n bits (R225). -/
def fToInt (n rm : Nat) (v : FVal) : Nat × Flags :=
  let lo : Int := -2 ^ (n - 1)
  let hi : Int := 2 ^ (n - 1) - 1
  match v with
  | .nan => (0, flInv)
  | .inf s => (low n (if s then lo else hi), flInv ||| flSat)
  | .fin s m e =>
    let (w, inx) := toInt rm s m e
    if w < lo then (low n lo, flInv ||| flSat)
    else if hi < w then (low n hi, flInv ||| flSat)
    else (low n w, if inx then flInx else 0)

/-- An integer to a format. -/
def intTo (f : Fmt) (rm : Nat) (i : Int) : Nat × Flags := f.round rm (i < 0) i.natAbs 1 0

/-- VCVT code 12: to an integral FP32, the sign of a zero as the operand's (R184, R224). -/
def fRint (rm : Nat) (w : Nat) : Nat × Flags :=
  match fp32.value w with
  | .nan => (fp32.nanBits, 0)
  | .inf s => (fp32.infBits s, 0)
  | .fin s m e =>
    let (i, inx) := toInt rm s m e
    (if i = 0 then fp32.zeroBits s else (fp32.round 0 s i.natAbs 1 0).1, if inx then flInx else 0)

/-- VCVT by its code (R224), of the 32 bits of an element. The exact codes 2 and 3 keep the sign of a zero. -/
def convert (code rm w : Nat) : Nat × Flags :=
  match code with
  | 0 => bf16.ofValue rm false (fp32.value w)
  | 1 => fp16.ofValue rm false (fp32.value w)
  | 2 => fp32.ofValue 0 true (bf16.value (w % 65536))
  | 3 => fp32.ofValue 0 true (fp16.value (w % 65536))
  | 4 => fp16.ofValue rm false (bf16.value (w % 65536))
  | 5 => bf16.ofValue rm false (fp16.value (w % 65536))
  | 6 => fToInt 32 rm (fp32.value w)
  | 7 => intTo fp32 rm (sgn 32 w)
  | 8 => fToInt 16 rm (fp32.value w)
  | 9 => intTo fp32 0 (sgn 16 w)
  | 10 => intTo bf16 rm (sgn 32 w)
  | 11 => intTo fp16 rm (sgn 32 w)
  | _ => fRint rm w

/-- FP32 to a BF16 or FP16 of the same value under RNE, or unchanged (R203): the path of a dequantising conversion.
The sign of a zero is lost, as for any zero that is rounded (R184). -/
def narrow (ft : Nat) (w : Nat) : Nat :=
  if ft = 0 then w else ((fmtOf ft).ofValue 0 false (fp32.value w)).1

/-! ### The accumulator formats (R185, R186) -/

/-- RoundA48F of an exact value; the flag is ACCOVF (R186). -/
def roundA48F : FVal → Nat × Bool
  | .nan => (a48f.nanBits, false)
  | .inf s => (a48f.infBits s, false)
  | .fin s m e =>
    if m = 0 then (a48f.zeroBits s, false)
    else let (w, fl) := a48f.round 0 s m 1 e; (w, fl &&& flOvf != 0)

/-- The sum of an A48F accumulator and an exact partial (R205). -/
def accAdd (acc : Nat) (p : FVal) : Nat × Bool := roundA48F ((a48f.value acc).add p)

/-- A48F to FP32, BF16 or FP16 under RNE (R186). -/
def a48To (ft acc : Nat) : Nat := ((fmtOf ft).ofValue 0 false (a48f.value acc)).1

/-- The A48I sum, wrapping (R186). -/
def a48iAdd (acc : Nat) (i : Int) : Nat × Bool :=
  let v := sgn 48 acc + i
  (low 48 v, !(-2 ^ 47 ≤ v && v < 2 ^ 47))

/-- A48I to INT32 with saturation (R186). -/
def a48iTo32 (acc : Nat) : Nat × Bool :=
  let v := sgn 48 acc
  if v < -2 ^ 31 then (0x80000000, true) else if 2 ^ 31 ≤ v then (0x7FFFFFFF, true) else (low 32 v, false)

/-- RoundShift of R207: nearest, ties to even, then clamped; with whether the clamp changed it. -/
def roundShift (v : Int) (n : Nat) (lo hi : Int) : Int × Bool :=
  let w := v / 2 ^ n
  let r := v - w * 2 ^ n
  let w := if n = 0 then v else if 2 ^ (n - 1) < r ∨ (r = 2 ^ (n - 1) ∧ w % 2 = 1) then w + 1 else w
  if w < lo then (lo, true) else if hi < w then (hi, true) else (w, false)

end Sys2Proof.Machine
end

