-- ==== Sys2Proof/Machine/Blocks.lean ====
section
/-! DEFINITION. Self-describing blocks, rotation, quantisation and dequantisation (08_number_formats.md R187 to R203). -/

namespace Sys2Proof.Machine

/-! ### Blocks -/

/-- A block as 64 bytes (R187): its format code, tag, scale codes and payloads. -/
def sdbFmt (b : List Byte) : Nat := fieldAt b 0 1 % 16
def sdbTag (b : List Byte) : Nat := fieldAt b 0 1 / 16
def sdbScale (b : List Byte) (g : Nat) : Nat := fieldAt b (1 + g) 1
def sdbGroup (b : List Byte) (g : Nat) : List Nat := ((b.drop (8 + 8 * g)).take 8).map BitVec.toNat

/-- A block no path may read (R188). -/
def badFmt (f : Nat) : Bool := f == 0 || (6 ≤ f && f ≤ 14)

/-- The 4-bit family (R188). -/
def is4bit (f : Nat) : Bool := f == 1 || f == 5

/-- Val(c) of R189 as an integer and a power of two. -/
def scaleVal (c : Nat) : Nat × Int := (4 + c % 4, (c / 4 : Nat) - 33)

/-- Val(c) as a value. -/
def scaleF (c : Nat) : FVal := .fin false (scaleVal c).1 (scaleVal c).2

/-- Esc of R190. -/
def escVal (n : Nat) : Int :=
  let m : Int := (2 + n % 2) * 2 ^ (n / 2 % 4 + 2)
  if n < 8 then m else -m

/-- The two elements of a pair byte (R190). -/
def pairOf (b : Nat) : List Int :=
  let lo := b % 16
  let hi := b / 16 % 16
  if lo = 8 then [escVal hi, 0]
  else if hi = 8 then [0, escVal lo]
  else [sgn 4 lo, sgn 4 hi]

/-- An integer as a value. -/
def intF (i : Int) : FVal := .fin (i < 0) i.natAbs 0

/-- The elements of a group by format (R190 to R193): of Q4X-S the kept values. -/
def groupElems (f : Nat) (p : List Nat) : List FVal :=
  match f with
  | 1 => (p.flatMap pairOf).map intF
  | 5 => (p.flatMap pairOf).map intF
  | 2 => p.map fun b => if b = 128 then intF 0 else intF (sgn 8 b)
  | 3 => p.map e4m3Value
  | _ => p.map e5m2.value

/-- The rotation order of a format (R188). -/
def rotOrder (f : Nat) : Nat := if is4bit f then 16 else 8

/-- The elements of a block along K (R188). -/
def blockLen (f : Nat) : Nat := if f = 5 then 224 else if f = 1 then 112 else 56

/-! ### Rotation -/

/-- SignVector (R196). -/
def signVector (seed : DWord) (g : Nat) : BitVec 16 :=
  let h : BitVec 32 := seed.extractLsb' 0 32 ^^^ BitVec.ofNat 32 g
  let h := h ^^^ h.rotateLeft 7 ^^^ (seed.extractLsb' 32 32).rotateLeft 13
  let h := h + 0x6D2B4E37
  let h := h ^^^ (h >>> 11)
  h.extractLsb' 0 16 ^^^ h.extractLsb' 16 16

/-- One butterfly stage of R195 over the bit k. -/
def butterfly (k : Nat) (x : List Int) : List Int :=
  (List.range x.length).map fun i =>
    if bit i k then x.getD (i - 2 ^ k) 0 - x.getD i 0 else x.getD i 0 + x.getD (i + 2 ^ k) 0

/-- Floor(log2(|x|)) of a value that is not zero. -/
def expOf : FVal → Option Int
  | .fin _ m e => if m = 0 then none else some ((Nat.log2 m : Int) + e)
  | _ => none

/-- The largest of the exponents. -/
def maxExp (xs : List FVal) : Option Int :=
  (xs.filterMap expOf).foldl (fun (b : Option Int) e => some (match b with | some c => max c e | none => e)) none

/-- RoundNE of a value times 2^k. -/
def alignTo (k : Int) : FVal → Int
  | .fin s m e =>
    let (a, b) := inUnits m 1 (e + k) 0
    let w : Int := roundInt 0 s a b
    if s then -w else w
  | _ => 0

/-- Rotate of R195 for a group of finite values: the integers X and the exponent of their unit. -/
def rotate (xs : List FVal) (seed : DWord) (g : Nat) : List Int × Int :=
  match maxExp xs with
  | none => (xs.map fun _ => 0, 0)
  | some e =>
    let d := signVector seed g
    let x := (List.range xs.length).map fun i =>
      let v := alignTo (24 - e) (xs.getD i .nan)
      if d.getLsbD i then -v else v
    ((List.range (Nat.log2 xs.length)).foldl (fun x k => butterfly k x) x, e - 26)

/-! ### Quantisation -/

/-- (n / d) * 2^e is at most m * 2^f. -/
def atMost (n d : Nat) (e : Int) (m : Nat) (f : Int) : Bool :=
  let q := min e f
  shiftUp n (e - q) ≤ shiftUp m (f - q) * d

/-- The scale code for a needed scale (n / d) * 2^e and its flags (R199). -/
def scaleCode (n d : Nat) (e : Int) : Nat × Flags :=
  let fits := fun c => atMost n d e (scaleVal c).1 (scaleVal c).2
  let small := !atMost (5 * d) n (-33 - e) 1 0
  match (upFrom 1 254).find? fits with
  | some c => (c, if small then flQuf else 0)
  | none => (254, flQof)

/-- |y| / s rounded to an integer under RNE, for y = Y * 2^e and s = m * 2^f. -/
def quotient (y : Nat) (e : Int) (m : Nat) (f : Int) : Nat :=
  let (a, b) := inUnits y m (e - f) 0
  roundInt 0 false a b

/-- The escape magnitudes (R200). -/
def escMags : List Nat := [8, 12, 16, 24, 32, 48, 64, 96]

/-- Odd(m) of R199. -/
def oddMag (m : Nat) : Nat := b2n (m == 12 || m == 24 || m == 48 || m == 96)

/-- NearestMag of a / b (R200): a tie goes to the member whose m bit is 0. -/
def nearestMag (a b : Nat) : Nat :=
  let dist := fun (m : Nat) => ((a : Int) - (m * b : Nat)).natAbs
  escMags.foldl (fun best m => if dist m < dist best ∨ (dist m = dist best ∧ oddMag m = 0) then m else best) 8

/-- Bytes of eight pairs of nibbles. -/
def nibBytes (n : List Nat) : List Byte :=
  (List.range 8).map fun i => BitVec.ofNat 8 (n.getD (2 * i) 0 + 16 * n.getD (2 * i + 1) 0)

/-- The lowest index of the largest magnitude. -/
def argMax (y : List Int) : Nat :=
  (List.range y.length).foldl (fun j i => if (y.getD j 0).natAbs < (y.getD i 0).natAbs then i else j) 0

/-- QuantQ4X of R199 from the rotated group: code, payload and flags. -/
def quantQ4 (y : List Int) (e : Int) : Nat × List Byte × Flags :=
  let j := argMax y
  let a1 := (y.getD j 0).natAbs
  let a2 := (List.range 16).foldl (fun m i => if i / 2 = j / 2 then m else max m (y.getD i 0).natAbs) 0
  if a1 = 0 then (0, List.replicate 8 0, 0)
  else
    let (n, d) := if 7 * a1 ≤ 96 * a2 then (a2, 7) else (a1, 96)
    let (c, fl) := scaleCode n d e
    let (m, f) := scaleVal c
    let nib := y.map fun v =>
      let q := min (quotient v.natAbs e m f) 7
      low 4 (if v < 0 then -(q : Int) else q)
    if quotient a1 e m f ≤ 7 then (c, nibBytes nib, fl)
    else
      let (a, b) := inUnits a1 m (e - f) 0
      let g := nearestMag a b
      let neg := decide (y.getD j 0 < 0)
      let nib :=
        if g = 8 ∧ neg ∧ j % 2 = 1 then nib.set j 9
        else
          let x := b2n neg * 8 + (Nat.log2 (g / (2 + oddMag g)) - 2) * 2 + oddMag g
          (nib.set j 8).set (if j % 2 = 0 then j + 1 else j - 1) x
      (c, nibBytes nib, fl)

/-- A magnitude y / s rounded to an 8-bit floating element with f fraction bits and saturated at a pattern (R201); the
exponent field of the format given is one bit wider, so that it does not overflow first. -/
def quantF8 (fmt : Fmt) (top : Nat) (v : Int) (e : Int) (m : Nat) (f : Int) : Nat :=
  let w := min (fmt.round 0 false v.natAbs m (e - f)).1 top
  if w = 0 then 0 else w + if v < 0 then 128 else 0

/-- A group of the 8-bit family from the rotated group (R201). -/
def quantQ8 (fmt : Nat) (y : List Int) (e : Int) : Nat × List Byte × Flags :=
  let a1 := (y.getD (argMax y) 0).natAbs
  if a1 = 0 then (0, List.replicate 8 0, 0)
  else
    let (c, fl) := scaleCode a1 (match fmt with | 2 => 127 | 3 => 448 | _ => 57344) e
    let (m, f) := scaleVal c
    let el := fun (v : Int) =>
      match fmt with
      | 2 =>
        let q : Int := (min (quotient v.natAbs e m f) 127 : Nat)
        low 8 (if v < 0 then -q else q)
      | 3 => quantF8 ⟨5, 3, 7⟩ 0x7E v e m f
      | _ => quantF8 ⟨6, 2, 15⟩ 0x7B v e m f
    (c, y.map fun v => BitVec.ofNat 8 (el v), fl)

/-- A group of N values rotated and quantised (R199, R201): code, payload and flags. -/
def quantGroup (fmt : Nat) (xs : List FVal) (seed : DWord) (g : Nat) : Nat × List Byte × Flags :=
  if xs.any FVal.special then (0xFF, List.replicate 8 0, flQnan)
  else
    let (y, e) := rotate xs seed g
    if fmt = 1 then quantQ4 y e else quantQ8 fmt y e

/-- A block from the values of its elements, its first rotation group being g (R194, R227). -/
def quantBlock (fmt tag : Nat) (xs : List FVal) (seed : DWord) (g : Nat) : List Byte × Flags :=
  let n := rotOrder fmt
  let gs := (List.range 7).map fun j => quantGroup fmt ((xs.drop (n * j)).take n) seed ((g + j) % 2 ^ 32)
  (BitVec.ofNat 8 (fmt + 16 * tag) :: (gs.map fun q => BitVec.ofNat 8 q.1) ++ gs.flatMap fun q => q.2.1,
    gs.foldl (fun f q => f ||| q.2.2) 0)

/-! ### Dequantisation -/

/-- Row i of H times v (R195, R203). -/
def hadamard (v : List FVal) (i : Nat) : FVal :=
  (List.range v.length).foldl (fun s j =>
    let x := v.getD j .nan
    let odd := ((List.range 4).filter fun k => bit i k && bit j k).length % 2 == 1
    s.add (if odd then x.flip else x)) (.fin false 0 0)

/-- A value times a power of two. -/
def FVal.scale (k : Int) : FVal → FVal
  | .fin s m e => .fin s m (e + k)
  | v => v

/-- One rotation group from its scaled values (R203): FP32 patterns. -/
def unrotate (v : List FVal) (tag : Nat) (seed : DWord) (g : Nat) : List Nat :=
  let n := v.length
  let d := signVector seed g
  (List.range n).map fun i =>
    let w := if tag = 0 then v.getD i .nan
      else
        let w := (hadamard v i).scale (if n = 16 then -2 else -1)
        if d.getLsbD i then w.flip else w
    (fp32.ofValue 0 false w).1

/-- Group j of a block as FP32 patterns, its rotation groups beginning at g; positions are those of a Q4X-S group's kept
values among 32 (R193, R203). -/
def dequantGroup (blk : List Byte) (j : Nat) (seed : DWord) (g : Nat) : List Nat × Flags :=
  let f := sdbFmt blk
  let c := sdbScale blk j
  let n := rotOrder f
  if f = 15 then (List.replicate n 0, 0)
  else if c = 0xFF then (List.replicate n fp32.nanBits, flQnan)
  else if c = 0 then (List.replicate n 0, 0)
  else
    let p := sdbGroup blk j
    let v := (groupElems f p).map fun x => x.mul (scaleF c)
    (unrotate v (sdbTag blk) seed g, if f = 2 ∧ p.contains 128 then flQ8neg else 0)

/-- A block as FP32 patterns (R203). An empty block gives n zeros per group, n the rotation order of the family asked
for. -/
def dequantBlock (blk : List Byte) (n : Nat) (seeds : Nat → DWord) (g : Nat) : List Nat × Flags :=
  let gs := (List.range 7).map fun j =>
    if sdbFmt blk = 15 then (List.replicate n 0, (0 : Flags))
    else dequantGroup blk j (seeds (sdbTag blk)) ((g + j) % 2 ^ 32)
  (gs.flatMap Prod.fst, gs.foldl (fun f q => f ||| q.2) 0)

end Sys2Proof.Machine
end

