-- ==== Sys2Proof/Machine/MatrixMath.lean ====
section
/-! DEFINITION. What a matrix pass computes and checks: pass types, operand tiles, block checks and the sums of one pass
(11_matrix_engine.md R248, R249, R256, R262; 08_number_formats.md R204 to R206). -/

namespace Sys2Proof.Machine

/-- A pass of a type counts as block-format (R248): Q4X, 8-bit block and sparse, which is type 5 here. -/
def isBlockPass (ty : Nat) : Bool := ty == 0 || ty == 1 || ty == 5

/-- The bytes of an A tile and of a B tile (R248). -/
def tileBytesA (ty : Nat) : Nat := if ty = 5 then 4096 else 2048
def tileBytesB : Nat := 4096

/-- The 64-byte line i of a tile (R249). -/
def tileLine (t : List Byte) (i : Nat) : List Byte := (t.drop (64 * i)).take 64

/-! ### Checks -/

/-- A block of operand A, or of operand B, is allowed in a pass of a type (R204). -/
def allowedA (ty f : Nat) : Bool :=
  f == 15 || (if ty = 1 then f == 2 || f == 3 || f == 4 else f == 1)
def allowedB (ty f : Nat) : Bool :=
  f == 15 || (if ty = 1 then f == 2 || f == 3 || f == 4 else if ty = 5 then f == 5 else f == 1)

/-- A check that fails: its cause, whether the block belongs to A, and its line in the tile. -/
abbrev BlockFault := Nat × Bool × Nat

/-- Steps 2 and 3 of R204 on one pair of blocks. -/
def pairFault (ty : Nat) (fa ta fb tb ia ib : Nat) : Option BlockFault :=
  if !allowedA ty fa then some (cFormatMismatch, true, ia)
  else if !allowedB ty fb then some (cFormatMismatch, false, ib)
  else if fa ≠ 15 ∧ fb ≠ 15 ∧ ta ≠ tb then some (cTagMismatch, false, ib)
  else none

/-- The checks of a block-format pass on its operand tiles (R204, R256): formats of A then B, then the pairs, m outer. -/
def blockFault (ty : Nat) (a b : List Byte) : Option BlockFault :=
  let per := if ty = 5 then 2 else 1
  let ha := (List.range (32 * per)).map fun i => (sdbFmt (tileLine a i), sdbTag (tileLine a i))
  let hb := (List.range 64).map fun i => (sdbFmt (tileLine b i), sdbTag (tileLine b i))
  match (List.range (32 * per)).find? (fun i => badFmt (ha.getD i (15, 0)).1),
      (List.range 64).find? (fun i => badFmt (hb.getD i (15, 0)).1) with
  | some i, _ => some (cSdbFormat, true, i)
  | none, some i => some (cSdbFormat, false, i)
  | none, none =>
    (List.range 32).findSome? fun m => (List.range 64).findSome? fun n => (List.range per).findSome? fun k =>
      let x := ha.getD (per * m + k) (15, 0)
      let y := hb.getD n (15, 0)
      pairFault ty x.1 x.2 y.1 y.2 (per * m + k) n

/-- The position of kept value k of group h of column n in a position set (R262). -/
def posAt (pos : List Byte) (n h k : Nat) : Nat :=
  let i := 2 * (112 * n + 16 * h + k)
  bits ((pos.getD (i / 8) 0).toNat) (i % 8) 2

/-- The first column with a quad whose two positions are equal (R262). -/
def posFault (pos : List Byte) : Option Nat :=
  (List.range 64).find? fun n => (List.range 7).any fun h => (List.range 8).any fun q =>
    posAt pos n h (2 * q) == posAt pos n h (2 * q + 1)

/-! ### Groups -/

/-- A group of a block as a pass reads it (R205): of an empty block, a NaN group, a zero group, or scale code and
elements. A group of the 8-bit family with an element that is NaN or infinite is a NaN group. -/
inductive MGroup where
  | empty
  | nan
  | zero
  | val (code : Nat) (els : List FVal)
  deriving DecidableEq, Repr

/-- The groups of a block. -/
def groupsOf (blk : List Byte) : List MGroup :=
  let f := sdbFmt blk
  (List.range 7).map fun g =>
    if f = 15 then .empty
    else
      let c := sdbScale blk g
      if c = 0xFF then .nan
      else if c = 0 then .zero
      else
        let els := groupElems f (sdbGroup blk g)
        if els.any FVal.special then .nan else .val c els

/-- A block has a group whose Q8 byte 0x80 is read (R202) (DEDUCED, notes/assumptions/34.md). -/
def q8neg (blk : List Byte) : Bool :=
  sdbFmt blk == 2 && (List.range 7).any fun g =>
    let c := sdbScale blk g
    c != 0 && c != 0xFF && (sdbGroup blk g).contains 128

/-- The exact sum of products of two lists of elements. -/
def dotOf (a b : List FVal) : FVal := (List.zipWith FVal.mul a b).foldl FVal.add (.fin false 0 0)

/-- An exact zero as +0. -/
def FVal.plusZero (v : FVal) : FVal := if v.isZero then .fin false 0 0 else v

/-- The partial of a pair of groups (R205): none leaves the accumulator as it is. A product of 8-bit blocks with a tag
counts twice. -/
def partialOf (twice : Bool) : MGroup → MGroup → Option FVal
  | .empty, _ => none
  | _, .empty => none
  | .nan, _ => some .nan
  | _, .nan => some .nan
  | .zero, _ => none
  | _, .zero => none
  | .val ca a, .val cb b =>
    let p := ((dotOf a b).mul (scaleF ca)).mul (scaleF cb)
    some (if twice then p.scale 1 else p).plusZero

/-- The part of a sparse partial that one A group gives (R205): the exact sum over eight kept values, times the scale of
the A group; none where the group is empty or zero. -/
def sparseHalf (a : MGroup) (kept : List FVal) (pos : Nat → Nat) : Option FVal :=
  match a with
  | .empty => none
  | .zero => none
  | .nan => some .nan
  | .val c els =>
    some ((dotOf ((List.range 8).map fun k => els.getD (4 * (k / 2) + pos k) (.fin false 0 0)) kept).mul (scaleF c))

/-- The partial of a Q4X-S weight group with the two A groups it covers (R205). -/
def sparsePartial (a0 a1 w : MGroup) (pos : Nat → Nat) : Option FVal :=
  match w with
  | .empty => none
  | .nan => if a0 = .empty ∧ a1 = .empty then none else some .nan
  | .zero => if a0 = .nan ∨ a1 = .nan then some .nan else none
  | .val c els =>
    match sparseHalf a0 (els.take 8) pos, sparseHalf a1 (els.drop 8) (fun k => pos (k + 8)) with
    | none, none => none
    | x, y => some (((x.getD (.fin false 0 0)).add (y.getD (.fin false 0 0))).mul (scaleF c)).plusZero

/-! ### Accumulation -/

/-- An accumulator value with ACCOVF of what it has come from. -/
abbrev AccRes := Nat × Bool

/-- Adds a partial to an accumulator (R205). -/
def accPartial (r : AccRes) : Option FVal → AccRes
  | none => r
  | some p => let (w, o) := accAdd r.1 p; (w, r.2 || o)

/-- One element of a pass of 8-bit or 4-bit blocks. -/
def accBlocks (twice : Bool) (acc : Nat) (a b : List MGroup) : AccRes :=
  (List.zipWith (partialOf twice) a b).foldl accPartial (acc, false)

/-- One element of a sparse pass: a has the groups of both A blocks. -/
def accSparse (acc : Nat) (a w : List MGroup) (pos : Nat → Nat → Nat) : AccRes :=
  (List.range 7).foldl (fun r h =>
    accPartial r (sparsePartial (a.getD (2 * h) .empty) (a.getD (2 * h + 1) .empty) (w.getD h .empty) (pos h)))
    (acc, false)

/-- One element of an INT8 pass (R205). -/
def accInt8 (acc : Nat) (a b : List Byte) : AccRes :=
  a48iAdd acc ((List.zipWith (fun x y => sgn 8 x.toNat * sgn 8 y.toNat) a b).foldl (· + ·) 0)

/-- A value truncated toward zero at the bit 2^q, as an integer number of units 2^q. -/
def truncAt (q : Int) : FVal → Int
  | .fin s m e =>
    let w : Int := (shiftUp m (e - q) / 2 ^ (q - e).toNat : Nat)
    if s then -w else w
  | _ => 0

/-- The exact sum of an element of a BF16 or FP16 pass (R206). -/
def floatSum (ps : List FVal) : Option FVal :=
  let hasInf := fun (n : Bool) => ps.any fun p => p == .inf n
  if ps.any FVal.isNan || (hasInf true && hasInf false) then some .nan
  else if hasInf false then some (.inf false)
  else if hasInf true then some (.inf true)
  else
    match maxExp ps with
    | none => none
    | some e =>
      let q := e - 50
      let t := (ps.map (truncAt q)).foldl (· + ·) 0
      some (.fin (t < 0) t.natAbs q)

/-- One element of a BF16 or FP16 pass. -/
def accFloat (acc : Nat) (a b : List FVal) : AccRes :=
  accPartial (acc, false) (floatSum (List.zipWith FVal.mul a b))

/-- The elements of a BF16 or FP16 line (R249). -/
def floatLine (f : Fmt) (l : List Byte) : List FVal := (List.range 32).map fun k => f.value (fieldAt l (2 * k) 2)

/-- Element (m, n) of a pass over operand tiles read as tables: the accumulator's new value. -/
def passTile (ty : Nat) (a b pos : List Byte) (old : Nat → Nat → Nat) : List (BitVec 48) × Bool :=
  let grid := fun (f : Nat → Nat → AccRes) =>
    let rs := (List.range 32).flatMap fun m => (List.range 64).map fun n => f m n
    (rs.map fun r => BitVec.ofNat 48 r.1, rs.any Prod.snd)
  match ty with
  | 2 =>
    let la := (List.range 32).map (tileLine a)
    let lb := (List.range 64).map (tileLine b)
    grid fun m n => accInt8 (old m n) (la.getD m []) (lb.getD n [])
  | 3 =>
    let la := (List.range 32).map fun m => floatLine bf16 (tileLine a m)
    let lb := (List.range 64).map fun n => floatLine bf16 (tileLine b n)
    grid fun m n => accFloat (old m n) (la.getD m []) (lb.getD n [])
  | 4 =>
    let la := (List.range 32).map fun m => floatLine fp16 (tileLine a m)
    let lb := (List.range 64).map fun n => floatLine fp16 (tileLine b n)
    grid fun m n => accFloat (old m n) (la.getD m []) (lb.getD n [])
  | 5 =>
    let la := (List.range 32).map fun m => groupsOf (tileLine a (2 * m)) ++ groupsOf (tileLine a (2 * m + 1))
    let lb := (List.range 64).map fun n => groupsOf (tileLine b n)
    grid fun m n => accSparse (old m n) (la.getD m []) (lb.getD n []) fun h k => posAt pos n h k
  | _ =>
    let ta := (List.range 32).map fun m => sdbTag (tileLine a m)
    let la := (List.range 32).map fun m => groupsOf (tileLine a m)
    let lb := (List.range 64).map fun n => groupsOf (tileLine b n)
    grid fun m n => accBlocks (ty == 1 && ta.getD m 0 != 0) (old m n) (la.getD m []) (lb.getD n [])

/-- Q8NEG of a pass: a block of either operand whose 0x80 is read (R202). -/
def passQ8neg (ty : Nat) (a b : List Byte) : Bool :=
  ty == 1 && ((List.range 32).any (fun m => q8neg (tileLine a m)) || (List.range 64).any fun n => q8neg (tileLine b n))

end Sys2Proof.Machine
end

