-- ==== Sys2Proof/Machine/Tides.lean ====
section
/-! DEFINITION. Tide holds: which tasks a link event holds, where their dies stop, and the request
(03_launch_and_placement.md R62 to R64; 17_traps_and_preemption.md R416, R417). -/

namespace Sys2Proof.Machine

/-- A hop of a route crosses a link. -/
def hopOn (l : Nat × Nat) (h : Nat × Nat × BitVec 64) : Bool := sameLink (h.1, h.2.1) l

/-- A task holds phases on a link (R54, R62). -/
def holdsPhases (k : Task) (l : Nat × Nat) : Bool := k.routes.any fun r => r.hops.any (hopOn l)

/-- The tasks that hold phases on the link of a module. -/
def tasksOn (s : State) (pos m : Nat) : List (Nat × Task) := s.tasks.filter fun e => holdsPhases e.2 (pos, m)

/-- A task can be held: its SCHEDTIME advances, or it is placed and will begin or resume. -/
def Task.holdable (k : Task) : Bool := ((k.run == .running || k.run == .stopping) && k.started) || k.run == .placed

/-- The first tick from one on that is a phase offset, modulo 64 (R59). -/
def phaseTick (from_ phi : Nat) : Nat := from_ + (phi + 64 - from_ % 64) % 64

/-- HOLDLIM in ticks (R51, R64) (DEDUCED, notes/assumptions/71.md). -/
def holdTicks (s : State) : Nat := max 1 s.holdLim * 1024

/-! ### The links packets take (R13, R418) -/

/-- The modules from one die to another that may be used: up at both ends and not excluded (R52, R414). -/
def liveModules (s : State) (avoid : List (Nat × Nat)) (a b : Nat) : List Nat :=
  (modulesTo a b).filter fun m =>
    s.linkUp a m && s.linkUp b (farModule a m) && !avoid.contains (a, m) && !avoid.contains (linkEnd (a, m))

/-- A link between two dies that may be used. -/
def linkLive (s : State) (avoid : List (Nat × Nat)) (a b : Nat) : Bool := !(liveModules s avoid a b).isEmpty

/-- A switch die over which packets go from one die to another that no link joins. -/
def relays (s : State) (a b : Nat) : List Nat := [0, 1].filter fun w => s.alive w && linkLive s [] a w && linkLive s [] w b

/-- Packets can go from one die to another: over a link, or over two links through a switch die. -/
def packetRoute (s : State) (a b : Nat) : Bool := a == b || linkLive s [] a b || !(relays s a b).isEmpty

/-- The links a signal takes from one die to another: the first live one, or those through the first switch die that joins
the two (DEDUCED, notes/assumptions/70.md). -/
def packetPath (s : State) (a b : Nat) : List (Nat × Nat) :=
  if a = b then []
  else
    match liveModules s [] a b with
    | m :: _ => [(a, m)]
    | [] => ((relays s a b).take 1).flatMap fun w =>
        ((liveModules s [] a w).take 1).map (fun m => (a, m)) ++ ((liveModules s [] w b).take 1).map fun m => (w, m)

/-- The packet traffic of a module pauses (R416, R417): for a retrain, and for a repair made without a hold. -/
def Link.paused (l : Link) : Bool := l.state == 2 || (l.state == 1 && l.holds.isEmpty)

/-- A link from one die to another whose packet traffic does not pause. -/
def linkOpen (s : State) (a b : Nat) : Bool := (liveModules s [] a b).any fun m => !(s.link a m).paused

/-- Packets from one die to another are not kept waiting by a pause. -/
def packetOpen (s : State) (a b : Nat) : Bool :=
  a == b || (if linkLive s [] a b then linkOpen s a b
    else (relays s a b).isEmpty || (relays s a b).any fun w => linkOpen s a w && linkOpen s w b)

/-! ### The dies that lack a flit -/

/-- The ticks until the first flit of reserved phases is due that left 20 ticks before (R12), within 40. -/
def dueIn (ph : BitVec 64) (tb : Nat) : Option Nat := (List.range 40).find? fun d => ph.getLsbD ((tb + d + 44) % 64)

/-- The dies that miss the flits of one route at a module of a die, with the SCHEDTIME clk before which each stops: the
receiving die, and the far end of a route that goes on from a switch die, 26 clks later (R12). -/
def routeLacks (r : Route) (pos m sched tb : Nat) (ok : Nat → Bool) : List (Nat × Nat) :=
  r.hops.zipIdx.flatMap fun (h, i) =>
    if linkEnd (h.1, h.2.1) ≠ (pos, m) then []
    else
      match (dueIn h.2.2 tb).filter ok with
      | none => []
      | some d => (pos, sched + d) :: ((r.hops.drop (i + 1)).map fun n => (farEnd n.1 n.2.1, sched + d + 26))

/-- The dies that miss the flits of a task at a module: with replay the one flit due in this tick, else every flit. -/
def lackStops (k : Task) (pos m sched tb : Nat) (replay : Bool) : List (Nat × Nat) :=
  k.routes.flatMap fun r => routeLacks r pos m sched tb fun d => !replay || d == 0

/-- Adds stops below H, the earlier one of a die. -/
def addStops (m : FMap Nat) (stop : Nat) (xs : List (Nat × Nat)) : FMap Nat :=
  xs.foldl (fun m e => if stop ≤ e.2 then m else fset m e.1 (min e.2 (fget m e.1 e.2))) m

/-- The dies one link on from dies that stop: each stops at the first flit that is not sent (R63). -/
def onwardStops (k : Task) (m : FMap Nat) : List (Nat × Nat) :=
  k.routes.flatMap fun r =>
    match r.hops with
    | [h] =>
      match fget? m h.1 with
      | none => []
      | some x => (((upFrom x 64).find? fun j => r.mask.getLsbD (j % 64)).map fun j => (farEnd h.1 h.2.1, j + 20)).toList
    | _ => []

/-- Where the dies of a task stop that lack flits at the ends of a link, or by what those dies do not send. -/
def stopsFor (k : Task) (stop : Nat) (xs : List (Nat × Nat)) : FMap Nat :=
  let m := addStops [] stop xs
  addStops m stop (onwardStops k m)

/-! ### The request -/

/-- Requests a hold of a task on account of a module (R63, R64), with what each die lacks: a hold in progress is joined and
waits for this event too. A task that has not begun or resumed stands where it will begin
(DEDUCED, notes/assumptions/69.md). -/
def holdTask (s : State) (t : Nat) (on : Nat × Nat) (lacks : List (Nat × Nat)) : State :=
  let k := s.task t
  match k.hold with
  | some h =>
    let stops := if h.go.isSome then h.stops else addStops h.stops h.stop (stopsFor k h.stop lacks)
    let s := s.setTask t { k with hold := some { h with events := h.events + 1, stops := stops } }
    s.cancel fun d => d.ev == .tideHoldRelease && d.arg.a == t
  | none =>
    let now := s.sched t
    let placed := k.run == .placed
    let stop := if placed then now else now + 40
    let h : Hold := { at_ := now, stop := stop, asked := s.tb, on := on, stops := if placed then [] else stopsFor k stop lacks }
    let s := s.setTask t { k with hold := some h }
    let s := if placed then s else s.after 40 .tideHoldReach { a := t, b := s.tb }
    s.after (holdTicks s + 1) .holdExpired { a := t, b := s.tb }

/-- The ends of holds are looked for anew once HOLDLIM has changed (R64). -/
def rehold (s : State) : State :=
  (s.tasks.filter fun e => e.2.hold.isSome).foldl (fun s e =>
    match e.2.hold with
    | none => s
    | some h =>
      let s := s.cancel fun d => d.ev == .holdExpired && d.arg.a == e.1
      s.after (h.asked + holdTicks s + 1 - s.tb) .holdExpired { a := e.1, b := h.asked }) s

/-- A task that claims phases on links a repair or retrain is in progress on is held for it (R416, R417)
(DEDUCED, notes/assumptions/69.md). -/
def holdNew (s : State) (t : Nat) : State :=
  let ls := ((s.task t).routes.flatMap Route.hops).map fun h => (h.1, h.2.1)
  (ls.eraseDups.filter fun l => let x := (s.link l.1 l.2).state; x == 1 || x == 2).foldl (fun s l =>
    onLink (holdTask s t l []) l.1 l.2 fun x => { x with holds := x.holds ++ [t] }) s

end Sys2Proof.Machine
end

