-- ==== Sys2Proof/Machine/Scalar.lean ====
section
/-! DEFINITION. Scalar arithmetic of the X map: integer arithmetic and logic, compares and select, counting, wide
immediates, bit fields and funnel shifts (06_scalar_instructions.md R124 to R138). -/

namespace Sys2Proof.Machine

/-- The shift amount of a register: its low six bits (R127). -/
def amt (v : DWord) : Nat := (v.extractLsb' 0 6).toNat

/-- The immediate of ADDI, ANDI, ORI, XORI and CMPI (R128, R131). -/
def imm8 (i : BitVec 8) : DWord := i.signExtend 64

/-- MULH: bits [127:64] of the signed product (R129). -/
def mulHigh (a b : DWord) : DWord := ((a.signExtend 128 * b.signExtend 128).extractLsb' 64 64)

/-- MULHU: bits [127:64] of the unsigned product (R129). -/
def mulHighU (a b : DWord) : DWord := ((a.zeroExtend 128 * b.zeroExtend 128).extractLsb' 64 64)

/-- The count of zero bits above the highest set bit of a number of n bits (R133). -/
def clzN (n v : Nat) : Nat :=
  match n with
  | 0 => 0
  | k + 1 => if v.testBit k then 0 else 1 + clzN k v

/-- The count of zero bits below the lowest set bit of a number of n bits (R133). -/
def ctzN (n v : Nat) : Nat :=
  match n with
  | 0 => 0
  | k + 1 => if v.testBit 0 then 0 else 1 + ctzN k (v / 2)

/-- The count of set bits of a number of n bits (R133). -/
def popN (n v : Nat) : Nat :=
  match n with
  | 0 => 0
  | k + 1 => v % 2 + popN k (v / 2)

/-- BSWAP: byte j becomes byte 7 - j (R133). -/
def byteSwap (v : DWord) : DWord :=
  v.extractLsb' 0 8 ++ v.extractLsb' 8 8 ++ v.extractLsb' 16 8 ++ v.extractLsb' 24 8 ++
    v.extractLsb' 32 8 ++ v.extractLsb' 40 8 ++ v.extractLsb' 48 8 ++ v.extractLsb' 56 8

/-- The conditions of CMP and CMPI (R130, R131): 0 eq, 1 ne, 2 lt, 3 ge, 4 le, 5 gt, of signed or unsigned operands. -/
def cond (signed : Bool) (k : Nat) (a b : DWord) : Bool :=
  let lt := fun (x y : DWord) => if signed then x.slt y else x.ult y
  match k with
  | 0 => a == b
  | 1 => a != b
  | 2 => lt a b
  | 3 => !lt a b
  | 4 => !lt b a
  | _ => lt b a

/-- The combined forms of CMP (R130): 0 sets, 1 and, 2 or. -/
def comb (k : Nat) (old c : Bool) : Bool :=
  match k with
  | 0 => c
  | 1 => old && c
  | _ => old || c

/-- The shift amount of a bit-field or funnel form (R135). -/
def State.fieldAmt (s : State) (xs : BitVec 5) (xr : BitVec 1) (im : BitVec 6) : Nat :=
  if xr = 0 then im.toNat else amt (s.rdX xs)

/-- Mask(len) in 64 bits (R136). -/
def lowMask (len : Nat) : DWord := BitVec.ofNat 64 (2 ^ len - 1)

/-- The field of len bits at s; bits above 63 read as 0 (R136). -/
def fieldOf (v : DWord) (s len : Nat) : DWord := (v >>> s) &&& lowMask len

/-- BFI (R137): the low len bits of a at bit s of d. -/
def insertField (d a : DWord) (s len : Nat) : DWord :=
  let m := lowMask len <<< s
  (d &&& ~~~m) ||| ((a <<< s) &&& m)

/-- FSHL and FSHR (R138) on cat(a, b). -/
def funnelL (a b : DWord) (s : Nat) : DWord := ((a ++ b) <<< s).extractLsb' 64 64
def funnelR (a b : DWord) (s : Nat) : DWord := ((a ++ b) >>> s).extractLsb' 0 64

/-! ### Two-register and immediate forms (R127, R128) -/

def execAdd (_ : BitVec 3) (d a b : BitVec 5) (s : State) : Res := .next (s.wrX d (s.rdX a + s.rdX b) 1)
def execSub (_ : BitVec 3) (d a b : BitVec 5) (s : State) : Res := .next (s.wrX d (s.rdX a - s.rdX b) 1)
def execAnd (_ : BitVec 3) (d a b : BitVec 5) (s : State) : Res := .next (s.wrX d (s.rdX a &&& s.rdX b) 1)
def execOr (_ : BitVec 3) (d a b : BitVec 5) (s : State) : Res := .next (s.wrX d (s.rdX a ||| s.rdX b) 1)
def execXor (_ : BitVec 3) (d a b : BitVec 5) (s : State) : Res := .next (s.wrX d (s.rdX a ^^^ s.rdX b) 1)
def execAndn (_ : BitVec 3) (d a b : BitVec 5) (s : State) : Res := .next (s.wrX d (s.rdX a &&& ~~~(s.rdX b)) 1)
def execSll (_ : BitVec 3) (d a b : BitVec 5) (s : State) : Res := .next (s.wrX d (s.rdX a <<< amt (s.rdX b)) 1)
def execSrl (_ : BitVec 3) (d a b : BitVec 5) (s : State) : Res := .next (s.wrX d (s.rdX a >>> amt (s.rdX b)) 1)
def execSra (_ : BitVec 3) (d a b : BitVec 5) (s : State) : Res :=
  .next (s.wrX d ((s.rdX a).sshiftRight (amt (s.rdX b))) 1)
def execMin (_ : BitVec 3) (d a b : BitVec 5) (s : State) : Res :=
  .next (s.wrX d (if (s.rdX b).slt (s.rdX a) then s.rdX b else s.rdX a) 1)
def execMax (_ : BitVec 3) (d a b : BitVec 5) (s : State) : Res :=
  .next (s.wrX d (if (s.rdX a).slt (s.rdX b) then s.rdX b else s.rdX a) 1)
def execMinu (_ : BitVec 3) (d a b : BitVec 5) (s : State) : Res :=
  .next (s.wrX d (if (s.rdX b).ult (s.rdX a) then s.rdX b else s.rdX a) 1)
def execMaxu (_ : BitVec 3) (d a b : BitVec 5) (s : State) : Res :=
  .next (s.wrX d (if (s.rdX a).ult (s.rdX b) then s.rdX b else s.rdX a) 1)
def execAddsh (_ : BitVec 3) (d a b : BitVec 5) (k : BitVec 3) (s : State) : Res :=
  .next (s.wrX d (s.rdX a + (s.rdX b <<< k.toNat)) 1)

def execMul (_ : BitVec 3) (d a b : BitVec 5) (s : State) : Res := .next (s.wrX d (s.rdX a * s.rdX b) 3)
def execMulh (_ : BitVec 3) (d a b : BitVec 5) (s : State) : Res := .next (s.wrX d (mulHigh (s.rdX a) (s.rdX b)) 3)
def execMulhu (_ : BitVec 3) (d a b : BitVec 5) (s : State) : Res := .next (s.wrX d (mulHighU (s.rdX a) (s.rdX b)) 3)

def execAddi (_ : BitVec 3) (d a : BitVec 5) (i : BitVec 8) (s : State) : Res := .next (s.wrX d (s.rdX a + imm8 i) 1)
def execAndi (_ : BitVec 3) (d a : BitVec 5) (i : BitVec 8) (s : State) : Res := .next (s.wrX d (s.rdX a &&& imm8 i) 1)
def execOri (_ : BitVec 3) (d a : BitVec 5) (i : BitVec 8) (s : State) : Res := .next (s.wrX d (s.rdX a ||| imm8 i) 1)
def execXori (_ : BitVec 3) (d a : BitVec 5) (i : BitVec 8) (s : State) : Res := .next (s.wrX d (s.rdX a ^^^ imm8 i) 1)
def execSlli (_ : BitVec 3) (d a : BitVec 5) (k : BitVec 6) (s : State) : Res := .next (s.wrX d (s.rdX a <<< k.toNat) 1)
def execSrli (_ : BitVec 3) (d a : BitVec 5) (k : BitVec 6) (s : State) : Res := .next (s.wrX d (s.rdX a >>> k.toNat) 1)
def execSrai (_ : BitVec 3) (d a : BitVec 5) (k : BitVec 6) (s : State) : Res :=
  .next (s.wrX d ((s.rdX a).sshiftRight k.toNat) 1)

/-! ### Counting and byte order (R133) -/

def execClz (_ : BitVec 3) (d a : BitVec 5) (s : State) : Res :=
  .next (s.wrX d (BitVec.ofNat 64 (clzN 64 (s.rdX a).toNat)) 1)
def execCtz (_ : BitVec 3) (d a : BitVec 5) (s : State) : Res :=
  .next (s.wrX d (BitVec.ofNat 64 (ctzN 64 (s.rdX a).toNat)) 1)
def execPopc (_ : BitVec 3) (d a : BitVec 5) (s : State) : Res :=
  .next (s.wrX d (BitVec.ofNat 64 (popN 64 (s.rdX a).toNat)) 1)
def execBswap (_ : BitVec 3) (d a : BitVec 5) (s : State) : Res := .next (s.wrX d (byteSwap (s.rdX a)) 1)

/-! ### Select and compare (R130 to R132) -/

def execSel (_ : BitVec 3) (d a b : BitVec 5) (c : BitVec 3) (s : State) : Res :=
  .next (s.wrX d (if s.rdP c.toNat then s.rdX a else s.rdX b) 1)
def execCmp (_ : BitVec 3) (c : BitVec 2) (k : BitVec 3) (a b : BitVec 5) (m : BitVec 3) (s : State) : Res :=
  .next (s.wrP k.toNat (comb c.toNat (s.rdP k.toNat) (cond true m.toNat (s.rdX a) (s.rdX b))))
def execCmpu (_ : BitVec 3) (c : BitVec 2) (k : BitVec 3) (a b : BitVec 5) (m : BitVec 3) (s : State) : Res :=
  .next (s.wrP k.toNat (comb c.toNat (s.rdP k.toNat) (cond false m.toNat (s.rdX a) (s.rdX b))))
def execCmpi (_ : BitVec 3) (c : BitVec 2) (k : BitVec 3) (a : BitVec 5) (i : BitVec 8) (s : State) : Res :=
  .next (s.wrP k.toNat (cond true c.toNat (s.rdX a) (imm8 i)))
def execCmpui (_ : BitVec 3) (c : BitVec 2) (k : BitVec 3) (a : BitVec 5) (i : BitVec 8) (s : State) : Res :=
  .next (s.wrP k.toNat (cond false c.toNat (s.rdX a) (i.zeroExtend 64)))

/-! ### Wide immediates, bit fields and funnel shifts (R134 to R138) -/

def execMovw (_ : BitVec 3) (d : BitVec 5) (i : Word) (s : State) : Res := .next (s.wrX d (i.signExtend 64) 1)
def execMovhw (_ : BitVec 3) (d a : BitVec 5) (i : Word) (s : State) : Res :=
  .next (s.wrX d (i ++ (s.rdX a).extractLsb' 0 32) 1)
def execAddw (_ : BitVec 3) (d a : BitVec 5) (i : Word) (s : State) : Res := .next (s.wrX d (s.rdX a + i.signExtend 64) 1)

def execBfxu (_ : BitVec 3) (d a xs : BitVec 5) (xr : BitVec 1) (len : BitVec 7) (im : BitVec 6) (s : State) : Res :=
  .next (s.wrX d (fieldOf (s.rdX a) (s.fieldAmt xs xr im) len.toNat) 1)
def execBfxs (_ : BitVec 3) (d a xs : BitVec 5) (xr : BitVec 1) (len : BitVec 7) (im : BitVec 6) (s : State) : Res :=
  .next (s.wrX d (sext64 len.toNat (fieldOf (s.rdX a) (s.fieldAmt xs xr im) len.toNat).toNat) 1)
def execBfi (_ : BitVec 3) (d a xs : BitVec 5) (xr : BitVec 1) (len : BitVec 7) (im : BitVec 6) (s : State) : Res :=
  .next (s.wrX d (insertField (s.rdX d) (s.rdX a) (s.fieldAmt xs xr im) len.toNat) 1)
def execFshl (_ : BitVec 3) (d a b xs : BitVec 5) (xr : BitVec 1) (_len : BitVec 7) (im : BitVec 6) (s : State) : Res :=
  .next (s.wrX d (funnelL (s.rdX a) (s.rdX b) (s.fieldAmt xs xr im)) 1)
def execFshr (_ : BitVec 3) (d a b xs : BitVec 5) (xr : BitVec 1) (_len : BitVec 7) (im : BitVec 6) (s : State) : Res :=
  .next (s.wrX d (funnelR (s.rdX a) (s.rdX b) (s.fieldAmt xs xr im)) 1)

end Sys2Proof.Machine
end

