-- ==== Sys2Proof/Machine/Control.lean ====
section
/-! DEFINITION. Control transfer, the X stream's own instructions and the two clocks (06_scalar_instructions.md R139 to
R146, R150, R151; 05_issue.md R118, R119). -/

namespace Sys2Proof.Machine

/-- A transfer instruction has executed: the next line is fetched no earlier than in the clk after it (R116). -/
def State.pauseFetch (s : State) : State := s.onCtx fun c => { c with fetchAt := max c.fetchAt (s.now + 1) }

/-- The next line to be fetched, no earlier than the clk after the transfer (R116). -/
def State.goTo (s : State) (line : Nat) : State :=
  s.onCtx fun c => { c with pc := line, reach := .flow, fromLane := 0, fetchAt := max c.fetchAt (s.now + 1) }

/-- The target of a J-form (R75). -/
def jTarget (line : Nat) (off : BitVec 14) : Int := (line : Int) + off.toInt

/-- BR (R75, R139): the range is judged whether the condition holds or not. -/
def execBr (_ : BitVec 3) (c : BitVec 3) (g : BitVec 1) (off : BitVec 14) (s : State) : Res :=
  let t := jTarget s.iss.line off
  if t < 0 ∨ 8191 < t then .next (s.raise cFetchRange)
  else if s.rdP c.toNat != (g == 1) then .next (s.goTo t.toNat)
  else .next s.pauseFetch

/-- JAL (R140). -/
def execJal (_ : BitVec 3) (d : BitVec 5) (t : BitVec 13) (s : State) : Res :=
  .next ((s.wrX d (BitVec.ofNat 64 (s.iss.line + 1)) 1).goTo t.toNat)

/-- JALR (R140): x[a] is read before the link is written. -/
def execJalr (_ : BitVec 3) (d a : BitVec 5) (s : State) : Res :=
  let t := (s.rdX a).toNat
  if 8191 < t then .next (s.raise cFetchRange)
  else .next ((s.wrX d (BitVec.ofNat 64 (s.iss.line + 1)) 1).goTo t)

/-- LOOPM (R118, R119, R141): it holds its line while another context uses the core's sequencer. -/
def execLoopm (_ : BitVec 3) (a : BitVec 5) (n ii : BitVec 7) (s : State) : Res :=
  let l := s.iss.line
  let core := coreOf s.iss.ctx
  let trip := ((s.rdX a).extractLsb' 0 32).toNat
  if 8191 < l + n.toNat then .next (s.raise cFetchRange)
  else
    match fget? s.seqs core with
    | some _ => .next s.notYet
    | none =>
      let s := s.goTo (l + n.toNat + 1)
      if trip = 0 then .next s
      else
        let q : Seq := { ctx := ctxNo s.iss.ctx, line := l, n := n.toNat, ii := ii.toNat, trip := trip }
        .next { s with seqs := fset s.seqs core q }

/-- The X instruction being executed goes on until a later clk: it holds its line till then (R99). -/
def State.goOn (s : State) : State := { s with iss := { s.iss with wait := true, again := true } }

/-- DLY (R142): it begins in the clk t in which it is executed first and counts as executed k clks on; until then it holds the
X stream. -/
def execDly (_ : BitVec 3) (a : BitVec 5) (i : BitVec 8) (s : State) : Res :=
  let k := i.toNat + if a = 0 then 0 else min (s.rdX a).toNat 65535
  let last := s.cc.dly.getD (s.now + k)
  if last ≤ s.now then .next (s.onCtx fun c => { c with dly := none })
  else .next ((s.onCtx fun c => { c with dly := some last, front := max c.front last }).goOn)

/-- END (R116, R143): fetch ends; in trap handling the trap is unhandled and is raised again, to escalate. -/
def execEndc (_ : BitVec 3) (s : State) : Res :=
  let c := s.cc
  if c.intrap then
    .next (s.markFaulted.addFault s.iss.ctx ⟨c.tcode, 1, c.tline, c.tlane, c.tqc, c.tval⟩)
  else .next (s.onCtx fun c => { c with run := .draining })

/-- TRAP (R144): raises its code in the TRAP class and counts as executed. -/
def execTrap (_ : BitVec 3) (a : BitVec 5) (code : BitVec 6) (s : State) : Res :=
  .next (s.raiseK 3 (cause 15 code.toNat) (s.rdX a))

/-- No entry in a queue of the context and no post due (R402). -/
def Ctx.quiet (c : Ctx) : Bool :=
  c.ql.isEmpty && c.qc.isEmpty && c.qs.isEmpty && c.qf.isEmpty && c.cbusy.isEmpty && c.outst == {}

/-- ERET (R145, R402). -/
def execEret (_ : BitVec 3) (s : State) : Res :=
  let c := s.cc
  let core := coreOf s.iss.ctx
  if !c.intrap then .next (s.raise cEretNotrap)
  else if !c.quiet then .next s.notYet
  else
    match (c.frame.getD {}).seq, fget? s.seqs core with
    | some _, some _ => .next s.notYet
    | _, _ => .next (s.leaveTrap s.iss.ctx)

/-- YIELD (R146): a yield point of ctx0; with a pre-emption pending the context stops at the line's end. -/
def execYield (_ : BitVec 3) (s : State) : Res :=
  if ctxNo s.iss.ctx ≠ 0 then .next s.pauseFetch
  else
    let t := s.taskOf s.iss.ctx
    let st := (s.fab t).st
    let stop := (s.task t).run == .stopping && (st == 0 || st == 2)
    .next (s.pauseFetch.onCtx fun c => { c with yieldAt := s.schedOf s.iss.ctx, yielded := stop })

/-- TBR (R150). -/
def execTbr (_ : BitVec 3) (d : BitVec 5) (s : State) : Res := .next (s.wrX d (BitVec.ofNat 64 s.tb) 2)

/-- SCHT (R151): 0 on a control core. -/
def execScht (_ : BitVec 3) (d : BitVec 5) (s : State) : Res :=
  .next (s.wrX d (BitVec.ofNat 64 (s.schedOf s.iss.ctx)) 2)

end Sys2Proof.Machine
end

