-- ==== Sys2Proof/Machine/System.lean ====
section
/-! DEFINITION. System registers: SRD, SWR and the writes with behaviour of their own (06_scalar_instructions.md R147 to
R149; 01_package.md R17; 03_launch_and_placement.md R58, R65; 05_issue.md R117; 07 R161, R170, R171; 09 R212;
15_synchronisation.md R356 to R358, R372; 17_traps_and_preemption.md R397). -/

namespace Sys2Proof.Machine

/-- MIXn (R17, R18). -/
def mixWord (d : Die) : Nat :=
  if d.kind = 0 then 0
  else if d.fused then d.kind + 2 ^ 8 * d.rev + 2 ^ 24 + 2 ^ 25
  else d.kind + 2 ^ 8 * d.rev + 2 ^ 16 * d.ifv + 2 ^ 25 * d.health

/-- The bits of a list of numbers. -/
def maskOf (l : List Nat) : Nat := l.foldl (fun m i => m ||| 2 ^ i) 0

/-- VSELF of a context (R58). -/
def vself (s : State) (ck : Nat) : Nat :=
  let p := s.part (s.ctx ck).part
  p.pos + 2 ^ 8 * p.vdie + 2 ^ 16 * physOf (coreOf ck) + 2 ^ 24 * (s.pcore (s.myPcore ck)).vcore + 2 ^ 32 * ctxNo ck

/-- VDIEk (R58). -/
def vdieWord (s : State) (t k : Nat) : Nat :=
  match (s.task t).places.find? fun p => p.vdie == k with
  | some p => p.pos + 2 ^ 8 + 2 ^ 32 * maskOf (p.cores.map Prod.fst)
  | none => 0

/-- VPONk (R58). -/
def vponWord (s : State) (t k : Nat) : Nat :=
  match (s.task t).places.find? fun p => p.vdie == k with
  | some p => maskOf p.pons
  | none => 0

/-- The sequencer of a context's core, if it runs for that context (R117). -/
def State.mySeq (s : State) (ck : Nat) : Option Seq := frameSeq s ck

/-- LOOPST (R117). It reads zero while the sequencer does not run for the context (DESIGN CHOICE, notes/assumptions/8.md). -/
def loopst (s : State) (ck : Nat) : Nat :=
  match s.mySeq ck with
  | some q => 1 + 2 ^ 8 * q.n + 2 ^ 16 * q.ii + 2 ^ 24 * q.step
  | none => 0

/-- LOOPT (R117). -/
def loopt (s : State) (ck : Nat) : Nat :=
  match s.mySeq ck with
  | some q => q.trip
  | none => 0

/-- The command kinds that count against their core's limit (R180). -/
def CmdKind.counts : CmdKind → Bool
  | .hscan | .hgath | .hred | .hcvt | .record | .node | .fload | .line | .sink => false
  | .cpy | .cpyt | .cacc | .caccf | .cswp | .ccas | .cpsm | .cwalk | .cgath | .cscat | .cput | .tmov | .ownc | .fill =>
    true

/-- SPOUT: the outstanding requests of a core (R180, R181). -/
def outstanding (s : State) (core : Nat) : Nat :=
  (s.cmds.filter fun e => e.2.kind.counts && !e.2.orphan && coreOf e.2.ctx == core).length +
  (s.msgs.filter fun e => coreOf e.2.ctx == core).length

/-- The context's part holds the probe table of its cluster (R171). -/
def holdsProbe (s : State) (ck : Nat) : Bool :=
  let p := (s.ctx ck).part
  p != 0 && (s.cluster (clusterOf (coreOf ck))).ppart == p

/-- PRBCFG (R170). -/
def prbcfg (s : State) (c : Cluster) : Nat := c.sets + 2 ^ 16 * c.pbase + 2 ^ 32 * (s.part c.ppart).ident

/-- QCFGk (R356). -/
def Ring.cfg (r : Ring) : Nat := r.base + 2 ^ 32 * r.nslot + 2 ^ 48 * r.ssz

/-- QSTk (R356). -/
def Ring.st (r : Ring) : Nat := r.tail + 2 ^ 13 * r.fill + 2 ^ 26 * r.clm + 2 ^ 39 * r.fin

/-- MSGCFG (R372). -/
def PartCore.msgcfg (p : PartCore) : Nat := p.msgBase + 2 ^ 32 * b2n p.msgEn

/-- MSGST (R372). -/
def PartCore.msgst (p : PartCore) : Nat :=
  p.recv.length + 2 ^ 8 * maskOf ((p.recv.filter fun e => !e.2.ready).map fun e => e.2.ctx)

/-- ISSCTL to LOOPT (R117). -/
def readIssue (s : State) (ck : Nat) : Nat → Nat
  | 0x100 => b2n (s.ctx ck).sbmode
  | 0x101 => (s.ctx ck).sbstall.toNat
  | 0x102 => (s.ctx ck).bkstall.toNat
  | 0x103 => (s.ctx ck).lpstall.toNat
  | 0x104 => (s.ctx ck).toks.word
  | 0x105 => loopst s ck
  | _ => loopt s ck

/-- TCAUSE to TVEC (R397). -/
def readTrap (c : Ctx) : Nat → Nat
  | 0x110 => c.tcode + 2 ^ 16 * b2n c.intrap + 2 ^ 17 * c.tkind
  | 0x111 => c.tline
  | 0x112 => c.tlane
  | 0x113 => c.tqc + 2 ^ 4 * b2n c.tskip
  | 0x114 => c.tval.toNat
  | _ => c.tvecLine.toNat + 2 ^ 16 * b2n c.tvecEn

/-- SPCTL to PRBFULL (R161, R171). -/
def readScratch (s : State) (ck : Nat) : Nat → Nat
  | 0x130 => b2n (s.ctx ck).sptrap
  | 0x131 => (s.ctx ck).sperr.toNat
  | 0x132 => (s.ctx ck).spaddr.toNat
  | 0x133 => outstanding s (coreOf ck)
  | 0x134 => prbcfg s (s.cluster (clusterOf (coreOf ck)))
  | 0x135 => if holdsProbe s ck then (s.cluster (clusterOf (coreOf ck))).prbhit.toNat else 0
  | 0x136 => if holdsProbe s ck then (s.cluster (clusterOf (coreOf ck))).prbmiss.toNat else 0
  | _ => if holdsProbe s ck then (s.cluster (clusterOf (coreOf ck))).prbfull.toNat else 0

/-- The groups of system registers (R148). -/
inductive SysReg where
  | mix | vself | vdie | vpon | hold | issue | trap | seed | scratch | nstat | ring | msg | none
  deriving DecidableEq, Repr

/-- The group of a number (R148). -/
def sysReg (n : Nat) : SysReg :=
  if 0x040 ≤ n && n ≤ 0x061 then .mix
  else if n = 0x07E then .vself
  else if 0x080 ≤ n && n ≤ 0x095 then .vdie
  else if 0x0A0 ≤ n && n ≤ 0x0B5 then .vpon
  else if n = 0x0C0 || n = 0x0C1 then .hold
  else if 0x100 ≤ n && n ≤ 0x106 then .issue
  else if 0x110 ≤ n && n ≤ 0x115 then .trap
  else if 0x121 ≤ n && n ≤ 0x12F then .seed
  else if 0x130 ≤ n && n ≤ 0x137 then .scratch
  else if n = 0x140 then .nstat
  else if 0x200 ≤ n && n ≤ 0x27F then .ring
  else if n = 0x280 || n = 0x281 then .msg
  else .none

/-- The group of a number as a core sees it: a control core lacks 0x07E to 0x0C1, 0x121 to 0x14F and 0x200 to 0x2FF, a
matrix core lacks NSTAT (R148, R212). -/
def sysRegOf (core n : Nat) : SysReg :=
  let g := sysReg n
  if isControl core && ((0x07E ≤ n && n ≤ 0x0C1) || (0x121 ≤ n && n ≤ 0x14F) || 0x200 ≤ n) then .none
  else if isMatrix core && g == .nstat then .none
  else g

/-- The value of a system register (R147). A number that is not assigned has no value: SYSREG_NONE. -/
def sysRead (s : State) (ck n : Nat) : Option DWord :=
  let c := s.ctx ck
  let t := s.taskOf ck
  (match sysRegOf (coreOf ck) n with
   | .mix => some (mixWord (s.die (n - 0x040)))
   | .vself => some (vself s ck)
   | .vdie => some (vdieWord s t (n - 0x080))
   | .vpon => some (vponWord s t (n - 0x0A0))
   | .hold => some (if n = 0x0C0 then (s.task t).holdcnt else (s.task t).holdtk)
   | .issue => some (readIssue s ck n)
   | .trap => some (readTrap c n)
   | .seed => some (fget c.hs (n - 0x120) 0).toNat
   | .scratch => some (readScratch s ck n)
   | .nstat => some c.nstat.toNat
   | .ring =>
     let r := fget (s.pcore (s.myPcore ck)).rings ((n - 0x200) / 2) {}
     some (if n % 2 = 0 then r.cfg else r.st)
   | .msg => some (let p := s.pcore (s.myPcore ck); if n = 0x280 then p.msgcfg else p.msgst)
   | .none => Option.none).map (BitVec.ofNat 64)

/-- A region of SETS KiB from 64 KiB unit BASE lies in the part's cluster partition (R170). -/
def probeFits (s : State) (ck sets base : Nat) : Bool :=
  base * 0x10000 + sets * 1024 ≤ (s.windows ck).clusLen

/-- The fault of an SWR to PRBCFG, if it has one (R170): cause and TVAL. -/
def prbcfgFault (s : State) (ck : Nat) (v : DWord) : Option (Nat × DWord) :=
  let c := s.cluster (clusterOf (coreOf ck))
  let sets := bits v.toNat 0 11
  let base := bits v.toNat 16 16
  if c.ppart ≠ 0 ∧ c.ppart ≠ (s.ctx ck).part then some (cProbeBusy, 0)
  else if c.slots.any (fun e => e.2.st == .filling || e.2.pin != 0) then some (cProbeBusy, 0)
  else if sets ≠ 0 ∧ (1024 < sets ∨ 2 ^ sets.log2 ≠ sets ∨ ¬ probeFits s ck sets base) then some (cProbeCfg, 0)
  else none

/-- What an SWR to PRBCFG writes (R170). -/
def writePrbcfg (s : State) (ck : Nat) (v : DWord) : State :=
  let cl := clusterOf (coreOf ck)
  let sets := bits v.toNat 0 11
  s.setCluster cl { s.cluster cl with
    sets := sets, pbase := bits v.toNat 16 16, ppart := if sets = 0 then 0 else (s.ctx ck).part, slots := [], rrp := []
    prbhit := 0, prbmiss := 0, prbfull := 0 }

/-- The window of an address (R66): 0 unit, 1 cluster, 2 die, 3 none. -/
def windowOf (a : Nat) : Nat :=
  if a < 0x400000 then 0 else if 0x1000000 ≤ a ∧ a < 0x2000000 then 1
  else if 0x10000000 ≤ a ∧ a < 0x20000000 then 2 else 3

/-- BASE lies in a window that every end of the ring can reach (R358). -/
def ringBaseOk (r : Ring) (core base : Nat) : Bool :=
  let w := windowOf base
  if r.fin = 2 && !r.linkFed then
    if clusterOf (coreAt (posOf core) r.other) = clusterOf core then w == 1 || w == 2 else w == 2
  else w != 3

/-- Clears a ring's state and gives it a base (R357). -/
def Ring.restart (r : Ring) (base : Nat) : Ring := { r with base := base, tail := 0, fill := 0, clm := 0 }

/-- The key of what the other end's core holds for the part. -/
def otherEnd (s : State) (ck : Nat) (r : Ring) : Nat := pcoreKey (s.ctx ck).part r.other

/-- A ring with two ends on one die, seen from its consumer end (R357). -/
def Ring.twoEnds (r : Ring) : Bool := r.fin == 2 && !r.linkFed

/-- The slot count and size an SWR to QCFGk gives a ring: those of its record where it has one (R358). -/
def qcfgSize (r : Ring) (w : Nat) : Nat × Nat := if r.declared then (r.nslot, r.ssz) else (bits w 32 13, bits w 48 7)

/-- The fault of an SWR to QCFGk, if it has one (R357, R358): cause and TVAL. -/
def qcfgFault (s : State) (ck k : Nat) (v : DWord) : Option (Nat × DWord) :=
  let r := fget (s.pcore (s.myPcore ck)).rings k {}
  let w := v.toNat
  let base := bits w 0 32
  let (nslot, ssz) := qcfgSize r w
  let o := fget (s.pcore (otherEnd s ck r)).rings k {}
  if r.fin = 1 then some (cRingEnd, v)
  else if r.fill ≠ 0 ∨ r.clm ≠ 0 ∨ (r.twoEnds ∧ (o.fill ≠ 0 ∨ o.clm ≠ 0)) then some (cRingBusy, v)
  else if (nslot ≠ 0 ∧ (ssz < 1 ∨ 64 < ssz)) ∨ 4096 < nslot ∨ base % 256 ≠ 0 ∨ bits w 45 3 ≠ 0 ∨ bits w 55 9 ≠ 0 then
    some (cRingField, v)
  else if !ringBaseOk r (coreOf ck) base then some (cRingField, v)
  else none

/-- What an SWR to QCFGk writes (R357, R358). -/
def writeQcfg (s : State) (ck k : Nat) (v : DWord) : State :=
  let pk := s.myPcore ck
  let p := s.pcore pk
  let r := fget p.rings k {}
  let base := bits v.toNat 0 32
  let (nslot, ssz) := qcfgSize r v.toNat
  let s := s.setPcore pk { p with rings := fset p.rings k { (r.restart base) with nslot := nslot, ssz := ssz } }
  if r.twoEnds then
    let ok := otherEnd s ck r
    let op := s.pcore ok
    s.setPcore ok { op with rings := fset op.rings k ((fget op.rings k {}).restart base) }
  else s

/-- The fault of an SWR to MSGCFG, if it has one (R372): cause and TVAL. -/
def msgcfgFault (s : State) (ck : Nat) (v : DWord) : Option (Nat × DWord) :=
  if (s.pcore (s.myPcore ck)).recv ≠ [] then some (cMsgBusy, v)
  else if bits v.toNat 0 32 % 16384 ≠ 0 ∨ bits v.toNat 33 31 ≠ 0 then some (cMsgField, v)
  else none

/-- What an SWR to MSGCFG writes (R372). -/
def writeMsgcfg (s : State) (ck : Nat) (v : DWord) : State :=
  let pk := s.myPcore ck
  s.setPcore pk { s.pcore pk with msgBase := bits v.toNat 0 32, msgEn := bit v.toNat 32 }

/-- An SWR to SPERR with bit 0 set clears SPERR and SPADDR (R161). -/
def clearSperr (s : State) (ck : Nat) : State := s.setCtx ck { s.ctx ck with sperr := 0, spaddr := 0 }

/-- The numbers of the issue, trap, scratchpad and other registers with a writable field (R117, R147, R161, R397). -/
def writable : SysReg → Nat → Bool
  | .issue, n => n == 0x100
  | .trap, n => n == 0x113 || n == 0x115
  | .seed, _ | .nstat, _ => true
  | .scratch, n => n == 0x130 || n == 0x131 || n == 0x134
  | .ring, n => n % 2 == 0
  | .msg, n => n == 0x280
  | _, _ => false

/-- The fault of an SWR, if it has one (R147): cause and TVAL. A register without a writable field raises SYSREG_RO, a
number that is not assigned SYSREG_NONE. -/
def sysFault (s : State) (ck n : Nat) (v : DWord) : Option (Nat × DWord) :=
  let g := sysRegOf (coreOf ck) n
  if g = .none then some (cSysregNone, 0)
  else if !writable g n then some (cSysregRo, 0)
  else if n = 0x134 then prbcfgFault s ck v
  else if g = .ring then qcfgFault s ck ((n - 0x200) / 2) v
  else if n = 0x280 then msgcfgFault s ck v
  else Option.none

/-- What an SWR that has no fault writes (R147). -/
def sysWrite (s : State) (ck n : Nat) (v : DWord) : State :=
  let c := s.ctx ck
  match sysRegOf (coreOf ck) n with
  | .issue => s.setCtx ck { c with sbmode := v.getLsbD 0 }
  | .trap =>
    s.setCtx ck (if n = 0x113 then { c with tskip := v.getLsbD 4 }
      else { c with tvecLine := v.extractLsb' 0 13, tvecEn := v.getLsbD 16 })
  | .seed => s.setCtx ck { c with hs := fset c.hs (n - 0x120) v }
  | .scratch =>
    if n = 0x130 then s.setCtx ck { c with sptrap := v.getLsbD 0 }
    else if n = 0x131 then if v.getLsbD 0 then clearSperr s ck else s
    else writePrbcfg s ck v
  | .nstat => s.setCtx ck { c with nstat := c.nstat &&& ~~~(v.extractLsb' 0 10) }
  | .ring => writeQcfg s ck ((n - 0x200) / 2) v
  | .msg => writeMsgcfg s ck v
  | .mix | .vself | .vdie | .vpon | .hold | .none => s

/-- An SWR without a fault takes effect (R109, R147): one of ISSCTL at once, any other at the end of the clk. -/
def swrTaken (s : State) (ck n : Nat) (v : DWord) : State :=
  if n = 0x100 then sysWrite s ck n v else { s with swrs := s.swrs ++ [⟨ck, n, v⟩] }

/-- The end of a clk for the writes of system registers (R147). A context that is gone writes nothing. -/
def endSwrs (s : State) : State :=
  s.swrs.foldl (fun s w => if (fget? s.ctxs w.ctx).isSome then sysWrite s w.ctx w.num w.val else s) { s with swrs := [] }

/-- An SRD or SWR of NSTAT waits for the C instructions that enqueued before its line (R212). -/
def nstatBusy (s : State) (ck : Nat) : Bool :=
  let c := s.ctx ck
  c.cbusy.any (· < c.lineNo) || c.qc.any fun e => e.lineNo < c.lineNo

/-- SRD (R147). -/
def execSrd (_ : BitVec 3) (d : BitVec 5) (n : BitVec 12) (s : State) : Res :=
  let ck := s.iss.ctx
  match sysRead s ck n.toNat with
  | none => .next (s.raise cSysregNone)
  | some v => if n = 0x140 && nstatBusy s ck then .next s.notYet else .next (s.wrX d v 2)

/-- SWR (R147) (DEDUCED, notes/assumptions/38.md). -/
def execSwr (_ : BitVec 3) (a : BitVec 5) (n : BitVec 12) (s : State) : Res :=
  let ck := s.iss.ctx
  if n = 0x140 && sysRegOf (coreOf ck) 0x140 != .none && nstatBusy s ck then .next s.notYet
  else
    match sysFault s ck n.toNat (s.rdX a) with
    | none => .next (swrTaken s ck n.toNat (s.rdX a))
    | some (cause, v) => .next (s.raise cause v)

/-- The write of a system register by an event: what an SWR of a context that runs does by the end of its clk. -/
def swrEvent (s : State) (ck n : Nat) (v : DWord) : Res :=
  if (s.ctx ck).run ≠ .running then .fault .notEnabled
  else
    let s := { s with iss := { s.iss with ctx := ck, q := .x, line := (s.ctx ck).line, lane := 0 } }
    match sysFault s ck n v with
    | none => .next (sysWrite s ck n v)
    | some (cause, v) => .next (s.raise cause v)

/-- SPERR_CLEAR (R161): the latch names the context. -/
def execSperrClear (s : State) : Res := swrEvent s s.ev.a 0x131 1

/-- PRBCFG_WRITE (R170): the latch names the context and the value. -/
def execPrbcfgWrite (s : State) : Res := swrEvent s s.ev.a 0x134 s.ev.v

/-- QCFG_WRITE (R357): the latch names the context, the ring and the value. -/
def execQcfgWrite (s : State) : Res :=
  if 63 < s.ev.b then .fault .notEnabled else swrEvent s s.ev.a (0x200 + 2 * s.ev.b) s.ev.v

/-- MSGCFG_WRITE (R372): the latch names the context and the value. -/
def execMsgcfgWrite (s : State) : Res := swrEvent s s.ev.a 0x280 s.ev.v

end Sys2Proof.Machine
end

