-- ==== Sys2Proof/Machine/Registers.lean ====
section
/-! DEFINITION. The registers of the die register blocks and Ferrymaster blocks as they read, and the doorbell of a graph
queue (03_launch_and_placement.md R44 to R51; 07 R179; 12_copy_engines.md R292, R300; 14_memory_stacks.md R347;
17 R411, R419; 18_retirement_and_surroundings.md R424 to R438, R471). -/

namespace Sys2Proof.Machine

/-! ### Die register blocks -/

/-- DCAP (R430): command records and fabric images of version 1 (DESIGN CHOICE, notes/assumptions/12.md). -/
def dcap : Nat := 0x0202

/-- BOOTST (R21). -/
def bootst (s : State) : Nat := s.bootStep + 2 ^ 8 * s.bootFail + 2 ^ 16 * s.bootPos

/-- The oldest parked entry of a die: index in the list and command (R179). -/
def oldestParked (s : State) (pos : Nat) : Option (Nat × Nat) := (s.die pos).parked.head?

/-- The fault of a parked command. -/
def parkedFault (s : State) (i : Nat) : Nat × Nat := ((s.cmd i).parked).getD (0, 0)

/-- XFCNT to XFINFO (R179). -/
def readParked (s : State) (pos off : Nat) : Nat :=
  match oldestParked s pos with
  | none => 0
  | some (entry, i) =>
    if off = 0x600 then (s.die pos).parked.length
    else if off = 0x608 then (parkedFault s i).2 % 2 ^ 57
    else if off = 0x610 then
      entry + 2 ^ 6 * (parkedFault s i).1 + 2 ^ 32 * (s.task (s.cmd i).task).launch.taskid
    else 0

/-- The timetable of a cluster's engine: its commands (R291). -/
def timetable (s : State) (cl : Nat) : List (Nat × Cmd) := s.cmds.filter fun e => e.2.timed && e.2.engine == cl

/-- TTCNT to PBHIT of engine j of a die (R292). The counters of a buffer die's complexes stay zero: only CPYT enters a
timetable, that of its cluster's engine, and blocks named by DVA are never cached (R283, R291). -/
def readEngine (s : State) (pos j k : Nat) : Nat :=
  let (first, n) := clustersOf pos
  if n ≤ j then 0
  else
    let c := s.cluster (first + j)
    match k with
    | 0 => (timetable s (first + j)).length
    | 1 => c.late.toNat
    | 2 => c.slip.toNat
    | _ => c.pbhit.toNat

/-- STKCTL to STKRC (R347). -/
def readStack (s : State) (z k : Nat) : Nat :=
  let t := s.stack z
  match k with
  | 0 => t.ueth
  | 1 => 2 * b2n t.lost + 4 * t.cause
  | 2 => t.ce.toNat
  | 3 => t.ue.toNat
  | 4 => t.wb.toNat
  | 5 => t.ecs.toNat
  | 6 => t.rc.toNat
  | _ => 0

/-- LNKST of a module (R419). A module whose far die is fused off reads STATE 3 (R474). -/
def readLink (fused : Bool) (l : Link) : Nat :=
  (if fused then 3 else l.state) + 2 ^ 2 * l.spare + 2 ^ 8 * l.crcerr + 2 ^ 32 * l.repairs + 2 ^ 48 * l.retrains

/-- PCREQ, PCST, PCSNAP and PQCTL of a cluster (R434, R435). -/
def readPower (c : Cluster) (k : Nat) : Nat :=
  match k with
  | 0 => c.reqF + 2 ^ 8 * c.reqU
  | 1 => c.curF + 2 ^ 8 * c.curU + 2 ^ 16 * c.stat + 2 ^ 19 * b2n c.xfifo + 2 ^ 20 * b2n c.perr
  | 2 => c.snapAct + 2 ^ 32 * c.snapStall
  | 3 => 2 ^ 4 * c.qstate + 2 ^ 7 * b2n c.qerr
  | _ => 0

/-- THERM (R436). -/
def readTherm (d : Die) : Nat := d.temp + 2 ^ 8 * b2n d.hot + 2 ^ 9 * b2n d.crit

/-- The words of a window (R300). -/
def readWin (w : Win) (k : Nat) : Nat :=
  match k with
  | 0 => b2n w.valid + w.base
  | 1 => w.len
  | 2 => w.root
  | _ => w.arr.toNat

/-- Eight bytes of a table of bytes. -/
def eightOf (f : Nat → Byte) (o : Nat) : Nat := leNat ((upFrom o 8).map f)

/-- The trust registers of SW0 (R437, R438). The nonce and the report address read back what was written. -/
def readTrust (s : State) (off : Nat) : Nat :=
  if off < 0x2040 then eightOf Config.identityByte (off - 0x2000)
  else if off < 0x2060 then eightOf (fun i => fget s.nonce i 0) (off - 0x2040)
  else if off = 0x2060 then s.reportDpa
  else if off = 0x2068 then 2 * b2n s.attestDone + 4 * b2n s.attestRefused
  else if off = 0x2100 then s.almcfg
  else if off = 0x2108 then s.almfuse
  else 0

/-- The registers a die keeps whatever its kind: DCAP, parked commands, engines, links, clusters, THERM. -/
def readDieCommon (s : State) (pos off : Nat) : Nat :=
  if off = 0x008 then dcap
  else if 0x600 ≤ off && off < 0x618 then readParked s pos off
  else if 0x700 ≤ off && off < 0x800 then readEngine s pos ((off - 0x700) / 32) ((off - 0x700) % 32 / 8)
  else if 0xC00 ≤ off && off < 0xC00 + 8 * moduleCount pos then
    let m := (off - 0xC00) / 8
    readLink (s.die (farEnd pos m)).fused (fget (s.die pos).links m {})
  else if 0x1000 ≤ off && off < 0x1000 + 0x40 * (clustersOf pos).2 && isCompute pos then
    readPower (s.cluster ((clustersOf pos).1 + (off - 0x1000) / 0x40)) ((off - 0x1000) % 0x40 / 8)
  else if off = 0x1800 then readTherm (s.die pos)
  else 0

/-- Eight bytes of a die register block, at an offset that is a multiple of 8. A word without a register reads zero. -/
def readDie (s : State) (pos off : Nat) : Nat :=
  let v := readDieCommon s pos off
  if v ≠ 0 then v
  else if kindOf pos = 4 ∧ 0xB00 ≤ off ∧ off < 0xB80 then
    readStack s (2 * (pos - 14) + (off - 0xB00) / 0x40) ((off - 0xB00) % 0x40 / 8)
  else if pos = 0 ∧ off = 0x040 then bootst s
  else if pos = s.root ∧ off = 0x1900 then s.pwrlim
  else if pos = s.root ∧ 0x2000 ≤ off ∧ off ≤ 0x2108 then readTrust s off
  else if pos = s.root ∧ 0x4000 ≤ off ∧ off < 0x6000 then readWin (s.win ((off - 0x4000) / 32)) ((off - 0x4000) % 32 / 8)
  else 0

/-- A position's block answers: its die is present, not fused off and not lost (R471), and is a logic die. -/
def blockAnswers (s : State) (pos : Nat) : Bool := s.alive pos && kindOf pos != 6

/-! ### Ferrymaster blocks -/

/-- The queue at place j of a Ferrymaster. -/
def queueAt (sw j : Nat) : Nat := 8 * sw + j

/-- The two words of a graph-queue group (R47). -/
def readQueueGroup (g : GQ) (hi : Bool) : Nat :=
  if hi then b2n g.baddb + 2 * b2n g.ovf else 2 ^ 32 * (g.head + 2 ^ 8 * g.pend)

/-- Eight bytes of the registers of a Ferrymaster block, at a multiple of 8. The placer's registers and FLOGHEAD are in
the block of the switch die that holds those roles (R51, R411, R424, R428). -/
def readFerry (s : State) (sw off : Nat) : Nat :=
  let f := s.ferry sw
  let r := decide (sw = s.root)
  if off = 0x000 ∧ r then b2n s.ageEn + 2 ^ 4 * s.ageK + 2 ^ 8 * s.ageCap + 2 ^ 16 * s.holdLim
  else if off = 0x008 ∧ r then 0x0001 + 2 ^ 16 * 0x0001 + 2 ^ 32 * 0x02
  else if off = 0x010 ∧ r then s.saveBase + 2 ^ 63 * b2n s.saveEn
  else if off = 0x020 ∧ r then s.flogHead % 2 ^ 64
  else if off = 0x030 then f.hwin
  else if off = 0x038 then f.pkgid
  else if 0x100 ≤ off ∧ off < 0x180 then readQueueGroup (s.queue (queueAt sw ((off - 0x100) / 16))) (off % 16 == 8)
  else if 0x200 ≤ off ∧ off < 0x240 then (s.queue (queueAt sw ((off - 0x200) / 8))).cmp
  else if 0x20000 ≤ off ∧ off < 0x28000 then
    let (m, v) := fget f.peers ((off - 0x20000) / 8) (0, false)
    m + 2 ^ 16 * b2n v
  else 0

/-- A place of a Ferrymaster block that holds bytes: completion rings, graph-queue rings and the fault log (R425). -/
def ferryBytes (off : Nat) : Bool :=
  (0x10000 ≤ off && off < 0x18000) || (0x30000 ≤ off && off < 0x80000)

/-- The Ferrymaster of a switch die works: the die is live (R44, R471). -/
def ferryLive (s : State) (sw : Nat) : Bool := s.live sw

/-- A byte of a Ferrymaster block as BAR0 returns it (R425). -/
def ferryByte (s : State) (sw off : Nat) : Byte :=
  if !ferryLive s sw then 0
  else if ferryBytes off then mget s.mem (ferryKey sw off)
  else BitVec.ofNat 8 (readFerry s sw (off / 8 * 8) / 256 ^ (off % 8))

/-! ### Doorbells -/

/-- A graph queue exists: its switch die is live (R44). -/
def queueLive (s : State) (q : Nat) : Bool := q < 16 && s.live (q / 8)

/-- The host graph queues (R44). -/
def isHostQueue (q : Nat) : Bool := q % 8 < 4

/-- A write to GQDB (R47). Before bring-up is done a host queue's doorbell is ignored (R21). A write that does not cover
the register whole posts nothing and sets BADDB. -/
def doorbell (s : State) (q : Nat) (v : Nat) (whole : Bool) : State :=
  let g := s.queue q
  let add := bits v 0 9
  if !queueLive s q then s
  else if isHostQueue q && s.bootStep != 6 then s
  else if !whole then s.setQueue q { g with baddb := true }
  else if add = 0 ∨ 256 < add then s.setQueue q { g with baddb := true }
  else if 256 < g.pend + add then s.setQueue q { g with ovf := true }
  else s.setQueue q { g with pend := g.pend + add }

/-- A host write through a BAR port, earlier than a number, is not performed: its data is not written, or on a lost stack it is
not accepted (R377, R393). -/
def portBusy (s : State) (port i : Nat) : Bool :=
  s.writes.any fun e => e.1 < i && e.2.port == port &&
    (e.2.phase == 0 || (e.2.phase == 1 && !(s.stack (stripeMap e.2.dpa).z).lost))

/-- GQDB_DOORBELL (R47, R393): the latch names the queue, the value written and whether the write covers the register. It takes
effect once every earlier write through its port is performed. -/
def execGqdbDoorbell (s : State) : Res :=
  if !queueLive s s.ev.a ∨ portBusy s (s.ev.a / 8) s.nextId then .fault .notEnabled
  else .next (doorbell s s.ev.a s.ev.v.toNat s.ev.f)

/-- The graph-queue entry or doorbell a Ferrymaster offset belongs to: a queue's ring, or its GQDB register. -/
def ringQueueAt (sw off : Nat) : Option Nat :=
  if 0x30000 ≤ off ∧ off < 0x40000 then some (queueAt sw ((off - 0x30000) / 0x2000)) else none

/-- The queue whose GQDB a Ferrymaster offset lies in. -/
def gqdbAt (sw off : Nat) : Option Nat :=
  if 0x100 ≤ off ∧ off < 0x180 ∧ off % 16 < 4 then some (queueAt sw ((off - 0x100) / 16)) else none

end Sys2Proof.Machine
end

