-- ==== Sys2Proof/Machine/Translate.lean ====
section
/-! DEFINITION. Device memory: bytes by device physical address, page walks and accesses by device virtual address
(07_scratchpads_and_device_memory.md R174 to R177), and the stacks' own handling of errors on a read
(14_memory_stacks.md R341 to R346). -/

namespace Sys2Proof.Machine

/-! ### Bytes by device physical address -/

/-- The byte at a device physical address, or the cause of the failure (R174, R343, R346). -/
def devByte (s : State) (a : Nat) : Nat ⊕ Byte :=
  match dpaOf a with
  | .data d =>
    match dataByte s d with
    | some b => .inr b
    | none => .inl cMemUnrecov
  | .sram k o =>
    if !s.alive (14 + k) || (s.die (14 + k)).sbad.contains (o / 64) then .inl cMemUnrecov
    else .inr (mget s.mem (dieKey (14 + k) o))
  | .ferry sw o => .inr (ferryByte s sw o)
  | .none => .inl cDpaNone

/-- A byte of a doorbell or an entry of a device graph queue written from the device side (R47): entries take the byte,
everything else of the window drops it. Doorbells are rung by whole writes (devStore). -/
def ferryPut (s : State) (sw o : Nat) (b : Byte) : State :=
  match ringQueueAt sw o with
  | some q => if isHostQueue q || !queueLive s q then s else { s with mem := mset s.mem (ferryKey sw o) b }
  | none => s

/-- Stores a byte at a device physical address. -/
def devPut (s : State) (a : Nat) (b : Byte) : Nat ⊕ State :=
  match dpaOf a with
  | .data d =>
    match dataStore s d b with
    | some s => .inr s
    | none => .inl cMemUnrecov
  | .sram k o => if s.alive (14 + k) then .inr { s with mem := mset s.mem (dieKey (14 + k) o) b } else .inl cMemUnrecov
  | .ferry sw o => .inr (ferryPut s sw o b)
  | .none => .inl cDpaNone

/-- What a store has done: the state, how many bytes it stored, and the cause that stopped it. -/
structure Put where
  s : State
  n : Nat := 0
  bad : Option Nat := none

/-- Stores bytes from an address on until one fails. -/
def devPuts (s : State) (a n : Nat) : List Byte → Put
  | [] => ⟨s, n, none⟩
  | b :: r =>
    match devPut s a b with
    | .inl c => ⟨s, n, some c⟩
    | .inr s => devPuts s (a + 1) (n + 1) r

/-- Rings the doorbells of the device queues whose GQDB a run of bytes touches (R47). -/
def ringDoorbells (s : State) (sw o : Nat) (bs : List Byte) : State :=
  (List.range 8).foldl (fun s j =>
    let g := 0x100 + 16 * j
    if isHostQueue j || g + 4 ≤ o || o + bs.length ≤ g then s
    else doorbell s (queueAt sw j) (leNat ((bs.drop (g - o)).take 4)) (o ≤ g && g + 4 ≤ o + bs.length)) s

/-- Lines of a buffer die's SRAM that n bytes from byte o on write whole hold no error any more (R343). -/
def sramWritten (s : State) (pos o n : Nat) : State :=
  let d := s.die pos
  if d.sbad.isEmpty then s
  else s.setDie pos { d with sbad := d.sbad.filter fun l => 64 * l < o || o + n < 64 * l + 64 }

/-- Stores a run of bytes that lies in one page, as one access. -/
def devStore (s : State) (a : Nat) (bs : List Byte) : Put :=
  let p := devPuts s a 0 bs
  match dpaOf a with
  | .ferry sw o => { p with s := ringDoorbells p.s sw o bs }
  | .sram k o => { p with s := sramWritten p.s (14 + k) o p.n }
  | _ => p

/-- The bytes from an address on until one fails. -/
def devBytes (s : State) : Nat → Nat → List Byte × Option Nat
  | _, 0 => ([], none)
  | a, n + 1 =>
    match devByte s a with
    | .inl c => ([], some c)
    | .inr b =>
      let (r, e) := devBytes s (a + 1) n
      (b :: r, e)

/-! ### Page walks -/

/-- A page of a valid leaf from an address on: the device physical address of the byte, the bytes up to the page's end,
and the leaf's ORD (R176). -/
structure Page where
  dpa : Nat
  left : Nat
  ord : Nat
  deriving DecidableEq, Repr

/-- How a level indexes the address (R176): the lowest bit, the width of the index, the alignment a non-leaf entry's
table must have. -/
def levelOf : Nat → Nat × Nat × Nat
  | 1 => (48, 9, 0x200000)
  | 2 => (30, 18, 0x1000)
  | 3 => (21, 9, 0x100)
  | _ => (16, 5, 1)

/-- An entry of a table: eight bytes, read at once (R176). An entry that was valid when a walk last read it and has been changed
since is used in its old or its new form, a free choice (R178) (DESIGN CHOICE, notes/assumptions/10.md). -/
def pteAt (s : State) (root a : Nat) : Nat ⊕ Nat :=
  match devBytes s a 8 with
  | (bs, none) =>
    let e := leNat bs
    match fget? (fget s.tlb root []) a with
    | none => .inr e
    | some old => .inr (if old = e ∨ Config.choose (s.free + a) % 2 = 0 then e else old)
  | (_, some c) => .inl c

/-- The walk from a level on (R176, R177). -/
def walkFrom (s : State) (root a : Nat) (write : Bool) : Nat → Nat → Nat → Nat ⊕ Page
  | 0, _, _ => .inl cPteFormat
  | fuel + 1, level, table =>
    let (lo, w, align) := levelOf level
    match pteAt s root (table + 8 * bits a lo w) with
    | .inl c => .inl c
    | .inr e =>
      let dpa := bits e 8 40 * 256
      let leaf := bit e 1
      let ord := bits e 2 2
      if !bit e 0 then .inl cPteInvalid
      else if bits e 48 16 ≠ 0 ∨ bits e 5 3 ≠ 0 then .inl cPteFormat
      else if (leaf ∧ level = 1) ∨ (¬leaf ∧ level = 4) then .inl cPteFormat
      else if leaf then
        if dpa % 2 ^ lo ≠ 0 then .inl cPteFormat
        else if ord = 3 then .inl cOrdReserved
        else if write ∧ ¬bit e 4 then .inl cWriteDenied
        else .inr ⟨dpa + a % 2 ^ lo, 2 ^ lo - a % 2 ^ lo, ord⟩
      else if ord ≠ 0 ∨ bit e 4 then .inl cPteFormat
      else if dpa % align ≠ 0 then .inl cPteFormat
      else walkFrom s root a write fuel (level + 1) dpa

/-- The root under which a task's addresses translate (R38), tagged with the task as the caches' entries are (R178). The
root of a graph or a window has no tag. -/
def taskRoot (s : State) (t : Nat) : Nat := 2 ^ 64 * t + (s.task t).launch.ptroot

/-- The top table of a root, without its tag. -/
def tableOf (root : Nat) : Nat := root % 2 ^ 64

/-- Translates a device virtual address under a root (R176, R177). -/
def walk (s : State) (root a : Nat) (write : Bool) : Nat ⊕ Page :=
  if a / 2 ^ 57 ≠ 0 then .inl cDvaRange else walkFrom s root a write 4 1 (tableOf root)

/-- A byte at a device virtual address. -/
def dvaByte (s : State) (root a : Nat) : Nat ⊕ Byte :=
  match walk s root a false with
  | .inl c => .inl c
  | .inr p => devByte s p.dpa

/-- The bytes from a device virtual address on until one fails, and the failure with its address. -/
def dvaBytes (s : State) (root : Nat) : Nat → Nat → List Byte × Option (Nat × Nat)
  | _, 0 => ([], none)
  | a, n + 1 =>
    match dvaByte s root a with
    | .inl c => ([], some (c, a))
    | .inr b =>
      let (r, e) := dvaBytes s root (a + 1) n
      (b :: r, e)

/-! ### Parked commands -/

/-- The lowest free entry of a die's fault-pending list (R179). -/
def freeEntry (d : Die) : Option Nat := (List.range 64).find? fun i => d.parked.all fun e => e.1 != i

/-- Parks a command on its die's list, or fails it at once where the list is full (R179). -/
def State.park (s : State) (i cause dva : Nat) : State :=
  let c := s.cmd i
  let d := s.die c.home
  match freeEntry d with
  | none => (s.setCmd i { c with err := cause, errDva := dva, parked := none }).after 0 .copyErrorComplete { a := i }
  | some k =>
    (s.setDie c.home { d with parked := d.parked ++ [(k, i)] }).setCmd i { c with parked := some (cause, dva) }

/-- A command leaves its die's list. -/
def State.unpark (s : State) (i : Nat) : State :=
  let c := s.cmd i
  let d := s.die c.home
  (s.setDie c.home { d with parked := d.parked.filter fun e => e.2 != i }).setCmd i { c with parked := none }

/-! ### Walks -/

/-- A tick put in its place among ticks in rising order. -/
def insertTick (t : Nat) : List Nat → List Nat
  | [] => [t]
  | u :: us => if t ≤ u then t :: u :: us else u :: insertTick t us

/-- The walks that run or wait on a die, by the ticks in which they end, the first first. -/
def walksOn (s : State) (home : Nat) : List Nat :=
  ((s.agenda.filter fun d => d.ev == .translationWalkDone && (s.cmd d.arg.a).home == home).map Due.at_).foldr insertTick []

/-- A command's walk begins: at once, or, with 64 walks on its die's walker, once the one 64 places before it has ended (R178). -/
def startWalk (s : State) (i : Nat) : State :=
  let ws := walksOn s (s.cmd i).home
  if ws.length < 64 then s.laterFar .translationWalkDone { a := i }
  else
    let at_ := max s.tb (ws.getD (ws.length - 64) 0)
    { s with agenda := s.agenda ++ [⟨at_ + 12 + Config.latency s.free, .translationWalkDone, { a := i }, none⟩], free := s.free + 1 }

/-! ### Stacks -/

/-- Declares a stack lost (R344): HEALTH of its position, which the placer looks at (R50), and STKST. -/
def loseStack (s : State) (z cause : Nat) : State :=
  let t := s.stack z
  if t.lost then s
  else
    let s := s.setStack z { t with lost := true, cause := cause }
    { s.setDie (22 + z) { s.die (22 + z) with health := 2 } with placerDue := true }

/-- Counts an uncorrectable error of a stack; the threshold may declare the stack lost (R342, R344). -/
def countUe (s : State) (z : Nat) : State :=
  let t := s.stack z
  let t := { t with ue := t.ue + 1, wb := t.wb + 1, rc := t.rc + 1 }
  let s := s.setStack z t
  if t.ueth ≠ 0 ∧ t.ueth ≤ t.ue.toNat then loseStack s z 3 else s

/-- Writes the rebuilt bytes of a unit back (R342). -/
def writeBack (s : State) (z u : Nat) : State :=
  { s with mem := (List.range 1024).foldl (fun m o =>
      match rebuild s z u o with
      | some b => mset m (stackKey z (1024 * u + o)) b
      | none => m) s.mem }

/-- The lines of a unit in which n bytes from byte o on lie, by the number of their first byte. -/
def eccLines (o n : Nat) : List Nat := ((List.range 16).map (64 * ·)).filter fun l => l < o + n && o < l + 64

/-- Lines of a unit are read: a correctable error is corrected, counted and scrubbed (R341). -/
def scrub (u : Nat) (ls : List Nat) (s : State) (z : Nat) : State :=
  ls.foldl (fun s l =>
    let t := s.stack z
    if !t.lost && fget? t.bad (lineOf u l) == some false then
      s.setStack z { t with ce := t.ce + 1, bad := fdel t.bad (lineOf u l) }
    else s) s

/-- The errors of a unit are gone: it has been written whole (R343). -/
def Stack.clean (t : Stack) (u : Nat) : Stack := { t with bad := t.bad.filter fun e => e.1 / 16 != u }

/-- n bytes of a unit from byte o on are read: correctable errors of their lines are corrected and scrubbed (R341); an erased
unit is rebuilt whole and written back (R342); a unit of a lost stack is served by reconstruction (R345, R347). A
reconstruction reads the other units' lines, which are scrubbed as well (DEDUCED, notes/assumptions/81.md). -/
def readUnit (s : State) (z u o n : Nat) : State :=
  let ls := eccLines o n
  if (s.stack z).lost then
    if ls.any fun l => (rebuild s z u l).isNone then s
    else
      let s := (othersOf z).foldl (scrub u ls) s
      s.setStack z { s.stack z with rc := (s.stack z).rc + 1 }
  else
    let s := scrub u ls s z
    if !ls.any fun l => lineBad s z u l then s
    else if (rebuild s z u 0).isNone then s
    else
      let s := (othersOf z).foldl (scrub u (eccLines 0 1024)) (writeBack s z u)
      countUe (s.setStack z ((s.stack z).clean u)) z

/-- The parity bytes of n data bytes stand on a live stack and cannot be read (R342). -/
def parityBad (s : State) (t : Stripe) (n : Nat) : Bool :=
  !(s.stack t.p).lost && (eccLines t.o n).any fun l => lineBad s t.p t.s l

/-- The parity bytes of a stripe are read for a partial write of n bytes, whose data can be read (R338, R341, R342). No delta
goes to a lost stack (R345) (DEDUCED, notes/assumptions/43.md). -/
def parityRead (s : State) (d n : Nat) : State :=
  let t := stripeMap d
  if (s.stack t.p).lost || (dataByte s d).isNone then s else readUnit s t.p t.s t.o n

/-- The pieces of a run of device physical addresses by data unit: where each begins and how long it is. -/
def unitPieces (d n : Nat) : List (Nat × Nat) :=
  ((List.range (n / 1024 + 2)).map fun k =>
    let a := if k = 0 then d else (d / 1024 + k) * 1024
    (a, min (d + n) ((a / 1024 + 1) * 1024) - a)).filter fun p => p.2 != 0 && p.1 < d + n && p.1 < dataEnd

/-- A run of device physical addresses is read: every data unit it lies on (R341, R342). -/
def readRun (s : State) (d n : Nat) : State :=
  (unitPieces d n).foldl (fun s p => readUnit s (stripeMap p.1).z (stripeMap p.1).s (stripeMap p.1).o p.2) s

/-- Joins a run of device physical addresses to the runs after it where they are contiguous. -/
def joinRun (d k : Nat) : List (Nat × Nat) → List (Nat × Nat)
  | (d', k') :: r => if d' = d + k then (d, k + k') :: r else (d, k) :: (d', k') :: r
  | [] => [(d, k)]

/-- The device physical addresses of a run of n bytes at a device virtual address, up to the first page that does not
translate. The fuel is the number of pages. -/
def runsOf (s : State) (root : Nat) (write : Bool) : Nat → Nat → Nat → List (Nat × Nat) × Option (Nat × Nat)
  | 0, _, _ => ([], none)
  | _ + 1, _, 0 => ([], none)
  | fuel + 1, a, n =>
    match walk s root a write with
    | .inl c => ([], some (c, a))
    | .inr p =>
      let k := min p.left n
      let (r, e) := runsOf s root write fuel (a + k) (n - k)
      (joinRun p.dpa k r, e)

/-- The runs of n bytes at a device virtual address. -/
def runs (s : State) (root : Nat) (write : Bool) (a n : Nat) : List (Nat × Nat) × Option (Nat × Nat) :=
  runsOf s root write (n / 0x10000 + 2) a n

/-- Reads runs of device physical addresses for the device virtual address a on: the bytes up to the first failure. -/
def readRuns : State → Nat → List (Nat × Nat) → List Byte × Option (Nat × Nat) × State
  | s, _, [] => ([], none, s)
  | s, a, (d, k) :: r =>
    let s := readRun s d k
    match devBytes s d k with
    | (bs, some c) => (bs, some (c, a + bs.length), s)
    | (bs, none) =>
      let (cs, e, s) := readRuns s (a + k) r
      (bs ++ cs, e, s)

/-! ### The translation caches -/

/-- The entries a walk reads: the address of each and, where it is valid, its value (R176). -/
def entriesOf (s : State) (root a : Nat) : Nat → Nat → Nat → List (Nat × Option Nat)
  | 0, _, _ => []
  | fuel + 1, level, table =>
    let (lo, w, _) := levelOf level
    let at_ := table + 8 * bits a lo w
    match pteAt s root at_ with
    | .inl _ => [(at_, none)]
    | .inr e =>
      if !bit e 0 then [(at_, none)]
      else (at_, some e) :: if bit e 1 then [] else entriesOf s root a fuel (level + 1) (bits e 8 40 * 256)

/-- The entries the walks of a run of n bytes read that the caches do not hold. -/
def walkReads (s : State) (root a n : Nat) : List (Nat × Option Nat) :=
  let pages := ((List.range (n / 0x10000 + 2)).map fun k => if k = 0 then a else (a / 0x10000 + k) * 0x10000).filter (· < a + n)
  (pages.flatMap fun y => entriesOf s root y 4 1 (tableOf root)).foldl (fun es e =>
    if (fget? (fget s.tlb root []) e.1).isSome || es.contains e then es else es ++ [e]) []

/-- The walks of a run of n bytes read their entries (R341, R342); those of a task's walks that are valid stay in the caches
(R178). -/
def notePages (s : State) (root a n : Nat) : State :=
  let es := walkReads s root a n
  let s := es.foldl (fun s e => readRun s e.1 8) s
  if root < 2 ^ 64 then s
  else { s with tlb := fset s.tlb root (es.foldl (fun m e => match e.2 with
      | some v => fset m e.1 v
      | none => m) (fget s.tlb root [])) }

/-- A task retires: what the caches hold for it is discarded (R178). -/
def dropPages (s : State) (t : Nat) : State := { s with tlb := s.tlb.filter fun e => e.1 / 2 ^ 64 != t }

/-- Reads n bytes at a device virtual address: the bytes up to the first failure, with its cause and address. -/
def dvaLoad (s : State) (root a n : Nat) : List Byte × Option (Nat × Nat) × State :=
  let (rs, e) := runs s root false a n
  let s := notePages s root a n
  let (bs, e', s) := readRuns s a rs
  (bs, e'.orElse fun _ => e, s)

end Sys2Proof.Machine
end

