-- ==== Sys2Proof/Machine/Front.lean ====
section
/-! DEFINITION. The front end of a context: fetching and decoding lines, enqueuing lanes, the modulo sequencer, what holds
an instruction at a queue's head (04_lines_and_encodings.md R76 to R78, R87 to R89; 05_issue.md R98 to R123). -/

namespace Sys2Proof.Machine

/-! ### Whether a context may act -/

/-- A line boundary: every lane of the line has taken effect, and the next has not started; in a loop, every slot of the step
(R123, R142, R405) (DEDUCED, notes/assumptions/41.md). -/
def atBoundary (s : State) (ck : Nat) : Bool :=
  ((s.ctx ck).lanes.isEmpty || !(s.ctx ck).opened) &&
  match frameSeq s ck with
  | some q => !q.begun || q.slots.isEmpty
  | none => true

/-- A context whose fetched line has not started, as it stands before the fetch. -/
def Ctx.unfetch (c : Ctx) : Ctx :=
  if c.lanes.isEmpty || c.opened then c else { c with lanes := [], pc := if c.inBody then c.pc else c.line }

/-- The fabric of a task is IDLE or has no image (R333, R405). -/
def fabStill (s : State) (t : Nat) : Bool := (s.fab t).st == 0 || (s.fab t).st == 2

/-- A context of a task that is stopping has come to its stop (R405): at a line boundary where the task has no
chain-ferry rings or the context is a handler's, else where ctx0 has executed YIELD with the notice pending. -/
def halted (s : State) (ck : Nat) : Bool :=
  let t := s.task (s.taskOf ck)
  let c := s.ctx ck
  t.run == .stopping && !isControl (coreOf ck) && atBoundary s ck && fabStill s (s.taskOf ck) &&
  (t.launch.yield == 0 || ctxNo ck != 0 || c.yielded || c.run != .running)

/-- A cluster has its clock: out of gating, neither saved nor gated, not paused, its die not at CRIT (R20, R433, R435,
R436). A control core's cluster has its clock at all times. -/
def hasClock (s : State) (cl : Nat) : Bool :=
  let c := s.cluster cl
  !(s.die (clusterPos cl)).crit && (56 ≤ cl || (c.powered && c.qstate == 0 && !c.xfifo))

/-- The cluster of a core has its clock. -/
def clocked (s : State) (core : Nat) : Bool := hasClock s (clusterOf core)

/-- A cluster at the next tick, which brings a clk of it or not (R2, R432): at F the clock makes 24 + F clks in 50 ticks,
and none while it stands (DESIGN CHOICE, notes/assumptions/42.md). -/
def Cluster.advance (c : Cluster) (on : Bool) : Cluster :=
  let n := c.phase + 24 + c.curF
  if on && 50 ≤ n then { c with phase := n - 50, gap := false }
  else { c with phase := if on then n else c.phase, gap := true, lag := c.lag + 1 }

/-- Every context of a task that is stopping has come to its stop (R405) (DEDUCED, notes/assumptions/60.md). -/
def taskStill (s : State) (t : Nat) : Bool :=
  (s.task t).run == .stopping && fabStill s t &&
  s.ctxs.all fun e => s.taskOf e.1 != t || e.2.run == .dormant || isControl (coreOf e.1) || halted s e.1

/-- A context may act in this tick. -/
def mayAct (s : State) (ck : Nat) : Bool :=
  !s.halted && clocked s (coreOf ck) && !(s.cluster (clusterOf (coreOf ck))).gap && s.alive (posOf (coreOf ck)) && !halted s ck &&
  (isControl (coreOf ck) || s.dieActs (s.taskOf ck) (posOfCtx ck))

/-! ### Fetching -/

/-- The bits of a line of a tile core's instruction store as they stand in the clk of its fetch: of a fetch and an ILOAD
that race, whichever comes first (DESIGN CHOICE, notes/assumptions/36.md). A line no ILOAD has written is zero (R87). -/
def storeLine (s : State) (core line : Nat) : FetchLine := fget s.istore (8192 * core + line) 0

/-- A line from its 32 bytes, the first the lowest (R68). -/
def lineOfBytes (bs : List Byte) : FetchLine := BitVec.ofNat 256 (leNat bs)

/-- A line of a routine of a control core, from device memory (R89): the bits, or the cause and address that failed. -/
def routineLine (s : State) (c : Ctx) (line : Nat) : (Nat × Nat) ⊕ FetchLine :=
  match dvaBytes s c.root (c.base + 32 * line) 32 with
  | (bs, none) => .inr (lineOfBytes bs)
  | (_, some e) => .inl e

/-- The line a context fetches next: its bits, or the failure of a routine's fetch. -/
def fetchBits (s : State) (ck : Nat) : (Nat × Nat) ⊕ FetchLine :=
  let c := s.ctx ck
  if isControl (coreOf ck) then routineLine s c c.pc else .inr (storeLine s (coreOf ck) c.pc)

/-- Parks the fetch of a routine's line whose page does not translate (R46, R179). -/
def parkFetch (s : State) (ck cause dva : Nat) : State :=
  let (i, s) := s.fresh
  let s := s.setCmd i { kind := .line, ctx := ck, home := homeOf (clusterOf (coreOf ck)), cx := complexOf (clusterOf (coreOf ck)), errDva := dva }
  s.park i cause dva

/-- A routine's fetch waits on a fault-pending list. -/
def fetchParked (s : State) (ck : Nat) : Bool := s.cmds.any fun e => e.2.kind == .line && e.2.ctx == ck

/-- Every queue has room for the lanes of a line that go to it (R99). -/
def Ctx.room (c : Ctx) (ls : List Lane) : Bool :=
  [Queue.l, .c, .s, .f].all fun q => (c.queue q).length + (ls.filter fun l => l.q == q).length ≤ 32

/-- The line in lanes has started, or can: the queues have room for all of it (R99). -/
def Ctx.startable (c : Ctx) : Bool := c.opened || c.room c.lanes

/-- A line is fetched (R99): its lanes from number k on take effect from a clk on. One without lanes has taken effect then. -/
def Ctx.startLine (c : Ctx) (at_ line : Nat) (ls : List Lane) : Ctx :=
  let c := { c with line := line, lanes := ls, opened := false, lineNo := c.lineNo + 1, front := max c.front at_ }
  if ls.isEmpty then { c with fromLane := 0, reach := .flow, fetchAt := max c.fetchAt at_ } else c

/-- Fetches and decodes the next line of a context (R76, R88): its lanes take effect from the next clk on (R99)
(DEDUCED, notes/assumptions/39.md). -/
def fetchLine (s : State) (ck : Nat) : State :=
  let c := s.ctx ck
  let core := coreOf ck
  if 8191 < c.pc then s.decodeFault ck c.pc cFetchRange 0 0
  else
    match fetchBits s ck with
    | .inl (cause, dva) =>
      if cause / 64 = 5 then parkFetch s ck cause dva
      else s.decodeFault ck c.pc cause 0 0
    | .inr l =>
      let start := fun (ls : List Lane) =>
        s.setCtx ck { c.startLine (s.clk ck + 1) c.pc (ls.filter fun l => c.fromLane ≤ l.idx) with
          pc := c.pc + 1, rot := 0, inBody := false }
      match decodeLine (profileOf core) c.reach l with
      | .fault cause lane qc => s.decodeFault ck c.pc cause lane qc
      | .pad => start []
      | .lanes ls => start ls

/-! ### Enqueuing -/

/-- The operand a field captures (R100). -/
def Ctx.capture (c : Ctx) (rot : Nat) : Option (BitVec 5) → DWord
  | some k => c.getX (physX rot k.toNat)
  | none => 0

/-- The x register an instruction of a queue leaves pending (R100). -/
def Ctx.pendX (c : Ctx) (rot : Nat) : Option (BitVec 5) → Ctx
  | some d =>
    let k := physX rot d.toNat
    if k = 0 then c else { c with xpend := fset c.xpend k (fget c.xpend k 0 + 1) }
  | none => c

/-- A lane enqueues with the operands it captures (R78, R100). -/
def Ctx.enqueue (c : Ctx) (clk : Nat) (l : Lane) : Ctx :=
  let u := uses l.instr
  let e : Entry :=
    { instr := l.instr, q := l.q, line := c.line, lane := l.idx, rot := c.rot
      xa := c.capture c.rot u.xa, xb := c.capture c.rot u.xb, xd := c.capture c.rot u.xd, enq := clk, lineNo := c.lineNo }
  (c.setQueue l.q (c.queue l.q ++ [e])).pendX c.rot u.dst

/-- The lane at the front of a context takes effect: its line has started, and the next lane follows. -/
def Ctx.popLane (c : Ctx) : Ctx := { c with lanes := c.lanes.drop 1, opened := true, fromLane := 0, reach := .flow }

/-- The number of steps (R119). -/
def Seq.steps (q : Seq) : Nat := (q.trip - 1) * q.ii + q.n

/-- The sequencer after the slot in progress has fully taken effect in a clk (R120). -/
def Seq.slotDone (q : Seq) (clk : Nat) : Seq := { q with slots := q.slots.drop 1, last := clk }

/-- When the front end of a context goes on after the last lane of a line: a line is fetched in that clk (R99), the body of a
loop from the next clk on (R141); the next slot of a step and what follows the last step come in that clk, another step in
the next (R119 to R121). -/
def Seq.goesOnAt (q : Option Seq) (inBody : Bool) (clk : Nat) : Nat :=
  match q with
  | none => clk
  | some q => if inBody && (!q.slots.isEmpty || q.steps ≤ q.step + 1) then clk else clk + 1

/-- The books after a lane has taken effect. -/
def afterLane (s : State) (ck : Nat) : State :=
  let c := s.ctx ck
  if !c.lanes.isEmpty then s
  else
    let q := (frameSeq s ck).map fun q => if c.inBody then q.slotDone (s.clk ck) else q
    let s := s.setCtx ck { c with fetchAt := max c.fetchAt (Seq.goesOnAt q c.inBody c.front) }
    match q with
    | some q => { s with seqs := fset s.seqs (coreOf ck) q }
    | none => s

/-- The lane at the front of a context enqueues (R99). -/
def enqueueLane (s : State) (ck : Nat) : State :=
  let c := s.ctx ck
  match c.lanes with
  | [] => s
  | l :: _ =>
    let c := { (c.enqueue (s.clk ck) l).popLane with front := max c.front (s.clk ck) }
    afterLane (s.setCtx ck c) ck

/-! ### The modulo sequencer -/

/-- The unsquashed slots of a step, oldest iteration first (R120). -/
def Seq.slotsOf (q : Seq) (t : Nat) : List (Nat × Nat) :=
  (((List.range q.n).filter fun j => j ≤ t && (t - j) % q.ii == 0).map fun j => (j, (t - j) / q.ii)).reverse.filter
    fun e => e.2 < q.trip

/-- Fetches and decodes one line of the body into the buffer (R119). -/
def fetchBody (s : State) (ck : Nat) : State :=
  let core := coreOf ck
  match frameSeq s ck with
  | none => s
  | some q =>
    let line := q.line + 1 + q.body.length
    let bits := if isControl core then routineLine s (s.ctx ck) line else .inr (storeLine s core line)
    match bits with
    | .inl (cause, dva) =>
      if cause / 64 = 5 then parkFetch s ck cause dva else s.decodeFault ck line cause 0 0
    | .inr l =>
      let put := fun (ls : List Lane) =>
        let s := { s with seqs := fset s.seqs core { q with body := q.body ++ [ls] } }
        s.setCtx ck { s.ctx ck with fetchAt := s.clk ck + 1 }
      match decodeLine (profileOf core) .body l with
      | .pad => put []
      | .lanes ls => put ls
      | .fault cause lane qc => s.decodeFault ck line cause lane qc

/-- Starts the first slot left of the running step, as a line (R120). -/
def loadSlot (s : State) (ck : Nat) (q : Seq) : State :=
  let c := s.ctx ck
  match q.slots with
  | [] => s
  | (j, i) :: _ =>
    let ls := (q.body.getD j []).filter fun l => c.fromLane ≤ l.idx
    let s := s.setCtx ck { c.startLine (s.clk ck) (q.line + 1 + j) ls with rot := i, inBody := true }
    if ls.isEmpty then afterLane s ck else s

/-- Begins a step (R120, R121). A step without slots lasts one clk; the slots of a step follow each other in one clk. -/
def beginStep (s : State) (ck : Nat) (q : Seq) : State :=
  let q := { q with begun := true, slots := q.slotsOf q.step, start := s.clk ck }
  let s := { s with seqs := fset s.seqs (coreOf ck) q }
  let s := if q.slots.isEmpty then s.setCtx ck { s.ctx ck with fetchAt := s.clk ck + 1 } else s
  loadSlot s ck q

/-- Fetch resumes after the loop (R119). -/
def leaveLoop (s : State) (ck : Nat) (q : Seq) : State :=
  let s := { s with seqs := fdel s.seqs (coreOf ck) }
  s.setCtx ck { s.ctx ck with pc := q.line + q.n + 1, rot := 0, inBody := false, reach := .flow }

/-- The sequencer goes on: the next slot of the step, or the next step, or the end of the loop (R119 to R121). -/
def stepLoop (s : State) (ck : Nat) : State :=
  match frameSeq s ck with
  | none => s
  | some q =>
    if !q.begun then beginStep s ck q
    else if !q.slots.isEmpty then loadSlot s ck q
    else
      let q := { q with step := q.step + 1, begun := false }
      if q.steps ≤ q.step then leaveLoop s ck q else beginStep s ck q

/-- A clk of a step beyond its first, in which the context could act (R121). -/
def stepHeld (s : State) (ck : Nat) (q : Seq) : Bool :=
  q.begun && q.body.length == q.n && q.start < s.clk ck && (!q.slots.isEmpty || q.last == s.clk ck) && mayAct s ck &&
  (s.ctx ck).faultAt.isNone

/-- LPSTALL of every context whose loop runs, at the end of a clk (R121). -/
def countLoops (s : State) : State :=
  s.seqs.foldl (fun s e =>
    let ck := ctxKey e.1 e.2.ctx
    if stepHeld s ck e.2 then s.onCtxOf ck fun c => { c with lpstall := c.lpstall + 1 } else s) s

/-! ### What holds the head of a queue -/

/-- The header of an instruction: its token bits and delay count (R71). -/
def hdrOf (i : Instr) : Hdr := ((encode i).map fun e => e.fld.hdr).getD Hdr.zero

/-- The completion-token modifier of a command (R103). -/
def tokOf : Instr → Bool
  | .tmov _ _ _ _ t | .ownE _ _ _ t | .ownC _ _ _ t => t == 1
  | .cpy _ _ x | .cgath _ _ x | .cscat _ _ x | .hscan _ _ x | .hgath _ _ x | .hred _ _ x | .hcvt _ _ x => x.tok
  | .cpyt _ _ _ x => x.tok
  | .cacc _ _ x _ _ | .caccf _ _ x _ _ | .cpsm _ _ x _ | .cput _ _ x _ => x.tok
  | .cswp _ _ _ _ x _ _ | .ccas _ _ _ _ x _ _ | .cwalk _ _ _ x _ _ _ => x.tok
  | _ => false

/-- The token conditions of a queue's head (R102, R104). -/
def tokensHold (c : Ctx) (e : Entry) : Bool :=
  let h := hdrOf e.instr
  let q := e.q
  let own := (postsOf q h.pp h.pn).add (postsOf q false (tokOf e.instr))
  e.tokDone ||
  ((!h.wp || 1 ≤ c.toks.count (prevQ q) q) && (!h.wn || 1 ≤ c.toks.count (nextQ q) q) &&
    [prevQ q, nextQ q].all fun r => c.toks.count q r + c.outst.count q r + own.count q r ≤ 15)

/-- Takes the tokens an instruction waited for (R102). -/
def Ctx.takeTokens (c : Ctx) (e : Entry) : Ctx :=
  let h := hdrOf e.instr
  let t := if h.wp then c.toks.upd (· - 1) (prevQ e.q) e.q else c.toks
  { c with toks := if h.wn then t.upd (· - 1) (nextQ e.q) e.q else t }

/-- A schedule violation (R109): the register as TVAL numbers it, and how many clks too early. A reader is held to what the
writer's bound implies, a writer to the current RE. -/
def violation (c : Ctx) (e : Entry) (clk : Nat) : Option (Nat × Nat) :=
  let u := uses e.instr
  let tab := if u.cross then c.rx else c.re
  let early := fun (m : FMap Nat) (k at_ : Nat) => fget m k 0 - at_
  let reads := (u.vr.map fun (k, o) => (physV e.rot k, o)) ++ u.mr.map fun k => (32 + k, 0)
  let writes := (u.vw.map fun (k, o) => (physV e.rot k, o)) ++ u.mw.map fun k => (32 + k, 0)
  let now := fun (k : Nat) => max (fget c.re k 0) (fget c.far k 0)
  let name := fun (k : Nat) => if k < 32 then 2 ^ 8 + k else 2 ^ 9 + (k - 32)
  match reads.find? fun (k, o) => clk + o < fget tab k 0 with
  | some (k, o) => some (name k, early tab k (clk + o))
  | none =>
    match writes.find? fun (k, o) => clk + o + u.bound < now k with
    | some (k, o) => some (name k, now k - (clk + o))
    | none => none

/-- The clk until which a reader waits for a register whose write lands after its bound (R111, R154). -/
def heldUntil (c : Ctx) (e : Entry) : Nat :=
  let u := uses e.instr
  let ks := (u.vr.map fun (k, o) => fget c.late (physV e.rot k) 0 - o) ++ u.mr.map fun k => fget c.late (32 + k) 0
  ks.foldl max 0

/-- TVAL of SCHED_VIOLATION (R109). -/
def violationVal (k n : Nat) : DWord := BitVec.ofNat 64 (k + 2 ^ 32 * n)

/-- In STALL mode the head is tried again in the next clk, and the clk counts once in SBSTALL (R109, R117). -/
def Ctx.stall (c : Ctx) (q : Queue) (clk : Nat) : Ctx :=
  let c := { c with qtry := fset c.qtry q.code (clk + 1) }
  if clk < c.sbUntil then c else { c with sbstall := c.sbstall + 1, sbUntil := clk + 1 }

/-- The x and p registers a lane names as sources have no pending write, from this clk on (R99, R100): none while the
writer has not issued. -/
def sourcesReady (c : Ctx) (l : Lane) : Option Nat :=
  let u := uses l.instr
  let ks := u.xsrcs.map fun k => physX c.rot k.toNat
  let ks := ks.filter (· != 0)
  if ks.any fun k => fget c.xpend k 0 != 0 then none
  else
    let r := (ks.map fun k => fget c.xrdy k 0).foldl max 0
    some (match u.p with
      | some p => max r (if p = 0 then 0 else fget c.prdy p 0)
      | none => r)

/-- The clk from which the lane at the front of a context can take effect (R99, R105), or a DLY in progress does (R142). -/
def laneDue (c : Ctx) (l : Lane) : Option Nat :=
  if c.dly.isSome then some c.front
  else (sourcesReady c l).map fun r =>
    max (max c.front r) (if l.q == .x then c.xnext + (hdrOf l.instr).dly.toNat else 0)

/-- The clk from which the head of a queue can be tried (R105, R106). -/
def headDue (c : Ctx) (e : Entry) : Nat :=
  max (max e.enq (fget c.qtry e.q.code 0)) (if e.tokDone then 0 else fget c.qnext e.q.code 0 + (hdrOf e.instr).dly.toNat)

/-! ### Arbitration -/

/-- What a core keeps for a resource: 0 the fetch port, then the queue codes. -/
def State.slot (s : State) (core r : Nat) : Slot := fget s.slots (8 * core + r) {}

/-- The winner of a resource among contexts of a core that can use it in the same clk (R115). -/
def arbiter (t : Slot) (ks : List Nat) : Option Nat :=
  let excluded := fun k => t.last == k && 8 ≤ t.run
  let hs := ks.filter fun k => k != 0
  match hs.foldl (fun (b : Option Nat) k => if excluded k then b else some (match b with | some j => min j k | none => k)) none with
  | some k => some k
  | none => if ks.contains 0 then some 0 else hs.head?

/-- A context uses a resource in this clk, for n clks (R115). -/
def State.useSlot (s : State) (ck r n : Nat) : State :=
  let core := coreOf ck
  let t := s.slot core r
  let k := ctxNo ck
  { s with slots := fset s.slots (8 * core + r) ⟨s.clk ck + n, k, if t.last = k then t.run + n else n⟩ }

/-! ### The events of the front end -/

/-- LINE_FETCH (R76): the latch names the context, which stands at a line boundary outside a loop. -/
def execLineFetch (s : State) : Res :=
  let ck := s.ev.a
  let c := s.ctx ck
  if c.run ≠ .running ∨ !c.lanes.isEmpty ∨ c.faultAt.isSome ∨ (frameSeq s ck).isSome then .fault .notEnabled
  else .next (fetchLine s ck)

/-- LANE_ENQUEUE (R99): the latch names the context, whose front lane is one of a queue, with room for its line. -/
def execLaneEnqueue (s : State) : Res :=
  let ck := s.ev.a
  match (s.ctx ck).lanes with
  | [] => .fault .notEnabled
  | l :: _ => if l.q = .x ∨ !(s.ctx ck).startable then .fault .notEnabled else .next (enqueueLane s ck)

/-- MODULO_BODY_FETCH (R119): the latch names the context whose loop's buffer is not full. -/
def execModuloBodyFetch (s : State) : Res :=
  match frameSeq s s.ev.a with
  | some q => if q.body.length < q.n then .next (fetchBody s s.ev.a) else .fault .notEnabled
  | none => .fault .notEnabled

/-- MODULO_STEP (R120): the latch names the context whose loop's buffer is full and whose last slot has taken effect. -/
def execModuloStep (s : State) : Res :=
  match frameSeq s s.ev.a with
  | some q =>
    if q.body.length < q.n ∨ !(s.ctx s.ev.a).lanes.isEmpty then .fault .notEnabled else .next (stepLoop s s.ev.a)
  | none => .fault .notEnabled

/-- INSTRUCTION_COMPLETE (R103): the latch names the context, the queue, the posts and the flags. -/
def execInstructionComplete (s : State) : Res :=
  .next (s.setCtx s.ev.a ((s.ctx s.ev.a).complete s.ev))

end Sys2Proof.Machine
end

