-- ==== Sys2Proof/Machine/Surround.lean ====
section
/-! DEFINITION. What surrounds the work: writes to the die register blocks and Ferrymaster blocks, the clusters'
operating points and quiesce states, heat, the root of trust and the alarms (18_retirement_and_surroundings.md R425 to
R438; 07 R179; 12_copy_engines.md R300; 14_memory_stacks.md R347; 24_program_power.md R467). -/

namespace Sys2Proof.Machine

/-! ### Parked commands -/

/-- The command at an entry of a die's fault-pending list. -/
def parkedAt (s : State) (pos entry : Nat) : Option Nat :=
  ((s.die pos).parked.find? fun e => e.1 == entry).map Prod.snd

/-- XFACT with ACT 1 (R179): the command walks again from the faulting page. A routine fetches its line again. -/
def retryParked (s : State) (pos entry : Nat) : State :=
  match parkedAt s pos entry with
  | none => s
  | some i =>
    let s := s.unpark i
    if (s.cmd i).kind = .line then { s with cmds := fdel s.cmds i }
    else startWalk s i

/-- XFACT with ACT 2 (R179): the command completes with error. A failed fetch of a routine's line ends the routine. -/
def failEntry (s : State) (pos entry : Nat) : State :=
  match parkedAt s pos entry with
  | none => s
  | some i => s.failParked i

/-- A write to XFACT (R179): ACT 0 and 3 are ignored. -/
def writeXfact (s : State) (pos v : Nat) : State :=
  match bits v 6 2 with
  | 1 => retryParked s pos (bits v 0 6)
  | 2 => failEntry s pos (bits v 0 6)
  | _ => s

/-! ### Operating points -/

/-- The voltage floor of F (R432): the smallest U with 0.005 U ≥ 0.25 · 25 F / 650, which is 25 F / 13. -/
def floorOf (f : Nat) : Nat := ceilDiv (25 * f) 13

/-- A task holds streams (R61). -/
def Task.holdsStreams (t : Task) : Bool := t.launch.rings.any (fun r => r.mode == 1) || t.launch.fabp != 0

/-- A place has a core on a cluster. -/
def Place.onCluster (p : Place) (cl : Nat) : Bool :=
  p.cores.any fun e => clusterOf (coreAt p.pos e.1) == cl && isCompute p.pos

/-- A cluster holds a part of a task that holds streams (R61). -/
def clusterStreams (s : State) (cl : Nat) : Bool :=
  s.tasks.any fun e => e.2.holdsStreams && e.2.places.any fun p => p.onCluster cl

/-- The pause of a cluster's clock while its FIFO is switched, at most 1,250 ticks (R433). -/
def pauseTicks (s : State) : Nat := Config.latency s.free % 1250 + 1

/-- Step 4 of R433: a fall of the voltage, or the end. -/
def voltageFall (s : State) (cl : Nat) : State :=
  let c := s.cluster cl
  if c.pendU < c.curU then s.after ((c.curU - c.pendU) * 625) .dvfsVoltageFallDone { a := cl }
  else s.setCluster cl { c with stat := 2, doneAt := s.tb }

/-- Step 3 of R433: the clock pauses and the frequency is changed. -/
def switchFreq (s : State) (cl : Nat) : State :=
  let c := s.cluster cl
  if c.pendF = c.curF then voltageFall s cl
  else
    let d := pauseTicks s
    let s := { s with free := s.free + 1 }
    (s.setCluster cl { c with xfifo := true }).after d .dvfsFreqSwitchDone { a := cl }

/-- Step 2 of R433: a rise of the voltage at 10 mV per µs, 625 ticks a code, then the frequency. -/
def startRamp (s : State) (cl : Nat) : State :=
  let c := s.cluster cl
  let s := s.setCluster cl { c with stat := 1 }
  if c.curU < c.pendU then s.after ((c.pendU - c.curU) * 625) .dvfsVoltageRiseDone { a := cl }
  else switchFreq s cl

/-- A checked request starts, or waits for the cluster (R433 step 1, R435). -/
def admitRequest (s : State) (cl : Nat) : State :=
  let c := s.cluster cl
  if clusterStreams s cl || c.qstate != 0 then s.setCluster cl { c with stat := 4 }
  else startRamp s cl

/-- A write to PCREQ with GO (R433). -/
def pcreqGo (s : State) (cl f u : Nat) : State :=
  let c := s.cluster cl
  if c.stat = 1 then s.setCluster cl { c with perr := true }
  else if 26 < f ∨ 50 < u then s.setCluster cl { c with stat := 5 }
  else if u < floorOf f then s.setCluster cl { c with stat := 3 }
  else admitRequest (s.setCluster cl { c with pendF := f, pendU := u }) cl

/-- A deferred request is acted on once nothing holds it (R433, R435). -/
def powerKick (s : State) (cl : Nat) : State :=
  if (s.cluster cl).stat = 4 ∧ !clusterStreams s cl ∧ (s.cluster cl).qstate = 0 then startRamp s cl else s

/-- In the clk after the task that holds streams has retired, the requests held for it are acted on (R433). -/
def releaseDeferred (s : State) : State := s.clusters.foldl (fun s e => powerKick s e.1) s

/-- The purser lowers the frequency of a cluster (R431, R433, R436): to which lower F, and to which U from its floor to the
present one, is free (DESIGN CHOICE, notes/assumptions/86.md). -/
def purserLower (s : State) (cl : Nat) : State :=
  let c := s.cluster cl
  if c.curF = 0 then s
  else
    let f := Config.choose s.free % c.curF
    let u := floorOf f + Config.choose (s.free + 1) % (c.curU + 1 - floorOf f)
    let s := { s with free := s.free + 2 }
    pcreqGo (s.setCluster cl { s.cluster cl with reqF := f, reqU := u }) cl f u

/-- The watts of the module limit that MX and VN clusters may draw, less the switch dies' measured power (R431). -/
def coreShare (lim sw : Nat) (memory : Bool) : Nat := (lim - sw) * (if memory then 52 else 74) / 100

/-- The watts that BF dies, stacks and SG clusters may draw (R431). -/
def sideShare (lim sw : Nat) (memory : Bool) : Nat := (lim - sw) * (if memory then 48 else 26) / 100

/-- A cluster of an MX or a VN die. -/
def isCoreCluster (cl : Nat) : Bool := cl < 48

/-- The purser keeps the shares of the class (R431): where what it measures is above a share it lowers clusters of that share,
none that holds a part of a task that holds streams. What it measures, and which clusters it lowers, is free
(DESIGN CHOICE, notes/assumptions/86.md). -/
def keepShares (s : State) : State :=
  let sw := Config.latency s.free
  let above := fun (cl : Nat) =>
    if isCoreCluster cl then coreShare s.pwrlim sw s.memClass < Config.latency (s.free + 1)
    else sideShare s.pwrlim sw s.memClass < Config.latency (s.free + 2)
  let cls := (List.range 56).filter fun cl =>
    (s.cluster cl).powered && !clusterStreams s cl && above cl && Config.choose (s.free + 3 + cl) % 2 == 1
  cls.foldl purserLower { s with free := s.free + 59 }

/-- PCREQ_GO (R433): the latch names the cluster and the value written. -/
def execPcreqGo (s : State) : Res :=
  let cl := s.ev.a
  if 56 ≤ cl then .fault .notEnabled
  else
    let f := bits s.ev.v.toNat 0 5
    let u := bits s.ev.v.toNat 8 6
    .next (pcreqGo (s.setCluster cl { s.cluster cl with reqF := f, reqU := u }) cl f u)

/-- DVFS_VOLTAGE_RISE_DONE (R433): the latch names the cluster, which is ramping. -/
def execDvfsVoltageRiseDone (s : State) : Res :=
  let c := s.cluster s.ev.a
  if c.stat ≠ 1 then .fault .notEnabled
  else .next (switchFreq (s.setCluster s.ev.a { c with curU := c.pendU }) s.ev.a)

/-- DVFS_FREQ_SWITCH_DONE (R433): the latch names the cluster whose clock is paused. -/
def execDvfsFreqSwitchDone (s : State) : Res :=
  let c := s.cluster s.ev.a
  if c.stat ≠ 1 then .fault .notEnabled
  else .next (voltageFall (s.setCluster s.ev.a { c with curF := c.pendF, xfifo := false }) s.ev.a)

/-- DVFS_VOLTAGE_FALL_DONE (R433): the latch names the cluster. -/
def execDvfsVoltageFallDone (s : State) : Res :=
  let c := s.cluster s.ev.a
  if c.stat ≠ 1 then .fault .notEnabled
  else .next (s.setCluster s.ev.a { c with curU := c.pendU, stat := 2, doneAt := s.tb })

/-! ### Quiesce states -/

/-- A context of a part on the cluster is running (R435). -/
def clusterBusy (s : State) (cl : Nat) : Bool :=
  s.ctxs.any fun e => clusterOf (coreOf e.1) == cl && (e.2.run == .running || e.2.run == .draining) &&
    (isControl (coreOf e.1) || s.dieActs (s.taskOf e.1) (posOfCtx e.1))

/-- The cluster of a matrix engine, by its key in mxs. -/
def mxCluster (s : State) (k : Nat) : Nat := clusterOf (coreAt (s.part (k / 64)).pos (k % 64))

/-- Every command, fill and engine operation of a cluster has completed (R435). -/
def clusterDrained (s : State) (cl : Nat) : Bool :=
  (s.cmds.all fun e => e.2.engine != cl) &&
  s.mxs.all fun e => mxCluster s e.1 != cl || e.2.ops.all fun o => !o.2.started

/-- The state a write of PQCTL leads to (R435), if the write is allowed: bit 0 QREQ, 1 SAVE, 2 GATE, 3 WAKE. -/
def pqNext (s : State) (cl : Nat) (q : Nat) : Nat → Option Nat
  | 1 => if q = 0 ∧ !clusterBusy s cl then some 1 else none
  | 2 => if q = 2 then some 3 else none
  | 4 => if q = 3 then some 4 else none
  | 8 => if q = 2 ∨ q = 3 then some 0 else if q = 4 then some 5 else none
  | _ => none

/-- WAKING starts no sooner than 2 µs after any other cluster's wake, and takes at most 20 µs (R435). -/
def startWake (s : State) (cl : Nat) : State :=
  let at_ := max s.tb (s.lastWake + 2500)
  let d := at_ - s.tb + Config.latency s.free % 25000 + 1
  { s with lastWake := at_, free := s.free + 1 }.after d .wakeDone { a := cl }

/-- A write to PQCTL (R435, R467): a 1 in ERR clears it; more than one of bits [3:0], or one that is not allowed, is
refused with ERR. -/
def writePqctl (s : State) (cl v : Nat) : State :=
  let c := s.cluster cl
  let c := if bit v 7 then { c with qerr := false } else c
  let s := s.setCluster cl c
  let cmd := v % 16
  if cmd = 0 then s
  else
    match pqNext s cl c.qstate cmd with
    | none => s.setCluster cl { c with qerr := true }
    | some n =>
      let s := s.setCluster cl { c with qstate := n }
      if n = 5 then startWake s cl
      else if n = 0 then powerKick { s with placerDue := true } cl
      else s

/-- A PQCTL event of a cluster: refused with ERR where the state does not allow it (R435). -/
def pqEvent (s : State) (v : Nat) : Res :=
  if 56 ≤ s.ev.a then .fault .notEnabled else .next (writePqctl s s.ev.a v)

/-- PQCTL_QREQ (R435): the latch names the cluster. -/
def execPqctlQreq (s : State) : Res := pqEvent s 1
/-- PQCTL_SAVE (R435). -/
def execPqctlSave (s : State) : Res := pqEvent s 2
/-- PQCTL_GATE (R435). -/
def execPqctlGate (s : State) : Res := pqEvent s 4
/-- PQCTL_WAKE (R435). -/
def execPqctlWake (s : State) : Res := pqEvent s 8

/-- QUIESCE_DONE (R435): the latch names a QUIESCING cluster whose work is done. -/
def execQuiesceDone (s : State) : Res :=
  let c := s.cluster s.ev.a
  if c.qstate ≠ 1 ∨ !clusterDrained s s.ev.a then .fault .notEnabled
  else .next (s.setCluster s.ev.a { c with qstate := 2 })

/-- WAKE_DONE (R435): the latch names a WAKING cluster. -/
def execWakeDone (s : State) : Res :=
  let c := s.cluster s.ev.a
  if c.qstate ≠ 5 then .fault .notEnabled
  else .next (powerKick { s.setCluster s.ev.a { c with qstate := 0 } with placerDue := true } s.ev.a)

/-- PCSNAP_CAPTURE (R434): every 12,500 ticks the live counters are copied and zeroed. -/
def execPcsnapCapture (s : State) : Res :=
  let s := { s with clusters := s.clusters.map fun (e : Nat × Cluster) =>
    (e.1, { e.2 with snapAct := e.2.act % 2 ^ 32, snapStall := e.2.stall % 2 ^ 32, act := 0, stall := 0 }) }
  .next (s.after (12500 - s.tb % 12500) .pcsnapCapture)

/-! ### The module limit, heat -/

/-- A write to PWRLIM (R431): values outside 3,000 to 4,400 are ignored; the shares follow a new limit. -/
def writePwrlim (s : State) (v : Nat) : State :=
  if 3000 ≤ v ∧ v ≤ 4400 then keepShares { s with pwrlim := v } else s

/-- PWRLIM_WRITE (R431): the latch names the value. -/
def execPwrlimWrite (s : State) : Res := .next (writePwrlim s (bits s.ev.v.toNat 0 13))

/-- THERM_CLEAR (R436): the latch names the position. -/
def execThermClear (s : State) : Res :=
  .next (s.setDie s.ev.a { s.die s.ev.a with hot := false, crit := false })

/-- The clusters of a die. -/
def dieClusters (pos : Nat) : List Nat := if isCompute pos then upFrom (clustersOf pos).1 (clustersOf pos).2 else []

/-- THERM_HOT (R436): the latch names the position and the temperature. The purser lowers the die's clusters under R433. -/
def execThermHot (s : State) : Res :=
  let s := s.setDie s.ev.a { s.die s.ev.a with temp := s.ev.b % 256, hot := true }
  .next ((dieClusters s.ev.a).foldl purserLower s)

/-! ### Trust -/

/-- The report of R437 up to its signature: version, nonce, digests, MIX0 to MIX33, TIMEBASE
(DESIGN CHOICE, notes/assumptions/78.md). -/
def reportBody (s : State) : List Byte :=
  leBytes 4 1 ++ leBytes 4 0 ++ (List.range 32).map (fun i => fget s.nonce i 0) ++
  (List.range 96).map (fun i => Config.identityByte (64 + i)) ++
  (List.range 34).flatMap (fun n => leBytes 4 (mixWord (s.die n))) ++ leBytes 8 s.tb ++ List.replicate 40 0

/-- A request for a report (R437, R438): with the keys erased it is refused. -/
def attestRequest (s : State) : State :=
  if s.keysErased then { s with attestRefused := true } else s.later .attestReportDone

/-- ATTEST_REQUEST (R437). -/
def execAttestRequest (s : State) : Res := .next (attestRequest s)

/-- ATTEST_REPORT_DONE (R437): the report is written and bit 1 set. -/
def execAttestReportDone (s : State) : Res :=
  let body := reportBody s
  let sig := (List.range 64).map (Config.signatureByte body)
  .next { (devStore s s.reportDpa (body ++ sig)).s with attestDone := true }

/-- A write to ALMCFG: the first after reset counts (R438). -/
def writeAlmcfg (s : State) (v : Nat) : State :=
  if s.almSet then s else { s with almcfg := v % 2 ^ 12, almSet := true }

/-- ALMCFG_WRITE (R438): the latch names the value. -/
def execAlmcfgWrite (s : State) : Res := .next (writeAlmcfg s s.ev.v.toNat)

/-- The level of a source (R438): 0 means log. -/
def almLevel (s : State) (i : Nat) : Nat := max 1 (bits s.almcfg (3 * i) 3)

/-- A level is enabled (R438). -/
def almEnabled (s : State) (k : Nat) : Bool := k == 1 || bit s.almfuse (k - 1)

/-- The level a source acts at: the highest enabled one that does not exceed its configured level. -/
def almActs (s : State) (i : Nat) : Nat :=
  ([4, 3, 2, 1].find? fun k => k ≤ almLevel s i && almEnabled s k).getD 1

/-- ALARM_RAISE (R438): the latch names the source, 0 to 3. Every action up to the level is taken. -/
def execAlarmRaise (s : State) : Res :=
  let i := s.ev.a
  if 3 < i then .fault .notEnabled
  else
    let k := almActs s i
    let s := s.logFault { cause := cause 14 i, origin := 4, pos := s.root }
    let s := { s with msix := 17 :: s.msix }
    let s := if 2 ≤ k then { s with dbgLocked := true } else s
    let s := if 3 ≤ k then { s with keysErased := true } else s
    .next (if 4 ≤ k then { s with halted := true } else s)

/-! ### Register writes -/

/-- A field of n bits at lo after a write of the bits of mask (R3). -/
def fld (old mask v lo n : Nat) : Nat :=
  (List.range n).foldl (fun r i => r + 2 ^ i * (if bit mask (lo + i) then bits v (lo + i) 1 else bits old i 1)) 0

/-- The words of a window after a write (R300): ignored while VALID, and ARR is zeroed when VALID rises. -/
def writeWin (s : State) (w k mask v : Nat) : State :=
  let x := s.win w
  match k with
  | 0 =>
    let valid := fld (b2n x.valid) mask v 0 1 == 1
    let x' := if x.valid then x else { x with base := fld (x.base / 2 ^ 16) mask v 16 41 * 2 ^ 16 }
    s.setWin w { x' with valid := valid, arr := if valid && !x.valid then 0 else x.arr }
  | 1 => if x.valid then s else s.setWin w { x with len := fld x.len mask v 0 32 }
  | 2 => if x.valid then s else s.setWin w { x with root := fld (x.root / 2 ^ 12) mask v 12 36 * 2 ^ 12 }
  | _ => s

/-- WIN_WRITE (R300): the latch names the window, the offset in it and the value. -/
def execWinWrite (s : State) : Res :=
  if 255 < s.ev.a then .fault .notEnabled
  else .next (writeWin s s.ev.a (s.ev.b / 8) (2 ^ 64 - 1) s.ev.v.toNat)

/-- A write to STKCTL (R347). -/
def writeStkctl (s : State) (z mask v : Nat) : State :=
  let t := s.stack z
  let s := s.setStack z { t with ueth := fld t.ueth mask v 0 16 }
  if bit mask 16 && bit v 16 then loseStack s z 4 else s

/-- STKCTL_LOSE (R347): the latch names the stack. -/
def execStkctlLose (s : State) : Res :=
  if 11 < s.ev.a then .fault .notEnabled else .next (loseStack s s.ev.a 4)

/-- A write to PCREQ, PCST or PQCTL of a cluster (R434, R467). -/
def writePower (s : State) (cl k mask v : Nat) : State :=
  let c := s.cluster cl
  match k with
  | 0 =>
    let f := fld c.reqF mask v 0 5
    let u := fld c.reqU mask v 8 6
    let s := s.setCluster cl { c with reqF := f, reqU := u }
    if bit mask 16 && bit v 16 then pcreqGo s cl f u else s
  | 1 => if bit mask 20 && bit v 20 then s.setCluster cl { c with perr := false } else s
  | 3 => writePqctl s cl (v &&& mask)
  | _ => s

/-- Bytes of a table after a write of the bytes a mask covers. -/
def writeBytes (m : FMap Byte) (o mask v : Nat) : FMap Byte :=
  (List.range 8).foldl (fun m i => if bit mask (8 * i) then fset m (o + i) (BitVec.ofNat 8 (v / 256 ^ i)) else m) m

/-- A write to the trust registers (R437, R438). -/
def writeTrust (s : State) (off mask v : Nat) : State :=
  if 0x2040 ≤ off ∧ off < 0x2060 then { s with nonce := writeBytes s.nonce (off - 0x2040) mask v }
  else if off = 0x2060 then { s with reportDpa := fld s.reportDpa mask v 0 64 }
  else if off = 0x2068 then (if bit mask 0 && bit v 0 then attestRequest s else s)
  else if off = 0x2100 then (if mask = 0 then s else writeAlmcfg s (v &&& mask))
  else s

/-- A write of the bits of mask to eight bytes of a die register block (R3). A word without a register ignores it. -/
def writeDie (s : State) (pos off mask v : Nat) : State :=
  if off = 0x618 then writeXfact s pos (v &&& mask)
  else if isCompute pos ∧ 0x1000 ≤ off ∧ off < 0x1000 + 0x40 * (clustersOf pos).2 then
    writePower s ((clustersOf pos).1 + (off - 0x1000) / 0x40) ((off - 0x1000) % 0x40 / 8) mask v
  else if off = 0x1800 then
    (if bit mask 16 && bit v 16 then s.setDie pos { s.die pos with hot := false, crit := false } else s)
  else if kindOf pos = 4 ∧ 0xB00 ≤ off ∧ off < 0xB80 ∧ (off - 0xB00) % 0x40 = 0 then
    writeStkctl s (2 * (pos - 14) + (off - 0xB00) / 0x40) mask v
  else if pos = s.root ∧ off = 0x1900 then
    (if mask % 2 ^ 13 = 0 then s else writePwrlim s (fld s.pwrlim mask v 0 13))
  else if pos = s.root ∧ 0x2040 ≤ off ∧ off ≤ 0x2100 then writeTrust s off mask v
  else if pos = s.root ∧ 0x4000 ≤ off ∧ off < 0x6000 then writeWin s ((off - 0x4000) / 32) ((off - 0x4000) % 32 / 8) mask v
  else s

/-- A write to the error bits of a graph queue (R47). -/
def writeGqerr (s : State) (q mask v : Nat) : State :=
  let g := s.queue q
  s.setQueue q { g with baddb := g.baddb && !(bit mask 0 && bit v 0), ovf := g.ovf && !(bit mask 1 && bit v 1) }

/-- A write of the bits of mask to eight bytes of a graph-queue group (R47): GQDB is rung by a write that covers it. -/
def writeQueueGroup (s : State) (q : Nat) (hi : Bool) (mask v : Nat) : State :=
  if !queueLive s q then s
  else if hi then writeGqerr s q mask v
  else if mask % 2 ^ 32 = 0 then s
  else doorbell s q (v % 2 ^ 32) (mask % 2 ^ 32 == 2 ^ 32 - 1)

/-- A write to the registers of a Ferrymaster block. -/
def writeFerry (s : State) (sw off mask v : Nat) : State :=
  let f := s.ferry sw
  let r := decide (sw = s.root)
  if off = 0x000 ∧ r then
    rehold { s with ageEn := fld (b2n s.ageEn) mask v 0 1 == 1, ageK := fld s.ageK mask v 4 4
                    ageCap := fld s.ageCap mask v 8 3, holdLim := fld s.holdLim mask v 16 16 }
  else if off = 0x010 ∧ r then
    { s with saveBase := fld (s.saveBase / 2 ^ 22) mask v 22 26 * 2 ^ 22, saveEn := fld (b2n s.saveEn) mask v 63 1 == 1 }
  else if off = 0x030 then s.setFerry sw { f with hwin := fld (f.hwin / 2 ^ 34) mask v 34 14 * 2 ^ 34 }
  else if off = 0x038 ∧ !f.pkgSet ∧ mask % 2 ^ 12 ≠ 0 then
    s.setFerry sw { f with pkgid := fld f.pkgid mask v 0 12, pkgSet := true }
  else if 0x100 ≤ off ∧ off < 0x180 then writeQueueGroup s (queueAt sw ((off - 0x100) / 16)) (off % 16 == 8) mask v
  else if 0x20000 ≤ off ∧ off < 0x28000 then
    let k := (off - 0x20000) / 8
    let (m, w) := fget f.peers k (0, false)
    s.setFerry sw { f with peers := fset f.peers k (fld m mask v 0 16, fld (b2n w) mask v 16 1 == 1) }
  else s

/-! ### BAR0 -/

/-- Eight bytes of BAR0 at a multiple of 8, through the port of a switch die (R425, R471). -/
def bar0Read (s : State) (port o : Nat) : Nat :=
  let pos := o / 0x100000
  let off := o % 0x100000
  if !blockAnswers s pos then 0
  else if off < 0x80000 then readDie s pos off
  else if pos = port then leNat ((upFrom (off - 0x80000) 8).map (ferryByte s port))
  else 0

/-- A host write of the bytes a mask covers to eight bytes of the Ferrymaster block of its own port. The graph-queue
rings take the bytes; the completion rings and the fault log are the Ferrymaster's (R425). -/
def ferryHostWrite (s : State) (port off mask v : Nat) : State :=
  if !ferryLive s port then s
  else if 0x30000 ≤ off ∧ off < 0x40000 then
    { s with mem := (List.range 8).foldl (fun m i =>
        if bit mask (8 * i) then mset m (ferryKey port (off + i)) (BitVec.ofNat 8 (v / 256 ^ i)) else m) s.mem }
  else writeFerry s port off mask v

/-- A write of the bits of mask to eight bytes of BAR0 at a multiple of 8 (R425, R471). -/
def bar0Write (s : State) (port o mask v : Nat) : State :=
  let pos := o / 0x100000
  let off := o % 0x100000
  if !blockAnswers s pos then s
  else if off < 0x80000 then writeDie s pos off mask v
  else if pos = port then ferryHostWrite s port (off - 0x80000) mask v
  else s

/-- The bits of n bytes from byte k of eight. -/
def byteMask (k n : Nat) : Nat := (2 ^ (8 * n) - 1) * 2 ^ (8 * k) % 2 ^ 64

/-- REGISTER_WRITE (R3): the latch names the port, the BAR0 offset, the width in bytes and the value. A write that
crosses a multiple of 8 is two. It is performed once every earlier write through its port is (R393). -/
def execRegisterWrite (s : State) : Res :=
  let o := s.ev.b
  let n := s.ev.c
  let k := o % 8
  if 1 < s.ev.a ∨ n = 0 ∨ 8 < n ∨ 0x4000000 < o + n ∨ portBusy s s.ev.a s.nextId then .fault .notEnabled
  else
    let v := s.ev.v.toNat
    let s := bar0Write s s.ev.a (o - k) (byteMask k (min n (8 - k))) (v * 2 ^ (8 * k) % 2 ^ 64)
    .next (if 8 < k + n then bar0Write s s.ev.a (o - k + 8) (byteMask 0 (k + n - 8)) (v / 2 ^ (8 * (8 - k))) else s)

/-- XFACT_RETRY (R179): the latch names the die and the entry. -/
def execXfactRetry (s : State) : Res :=
  match parkedAt s s.ev.a s.ev.b with
  | none => .fault .notEnabled
  | some _ => .next (retryParked s s.ev.a s.ev.b)

/-- XFACT_FAIL (R179): the latch names the die and the entry. -/
def execXfactFail (s : State) : Res :=
  match parkedAt s s.ev.a s.ev.b with
  | none => .fault .notEnabled
  | some _ => .next (failEntry s s.ev.a s.ev.b)

/-! ### BAR2 -/

/-- The bytes a host read of device memory returns: all ones where no memory lies (R425). What is read of a byte that cannot
be rebuilt is free (DESIGN CHOICE, notes/assumptions/14.md). -/
def hostBytes (s : State) (a n : Nat) : List Byte :=
  (upFrom a n).map fun y =>
    match devByte s y with
    | .inr b => b
    | .inl c => if c = cDpaNone then 0xFF else (Config.freeWord (s.free + (y - a))).setWidth 8

/-- A byte of a run is served by reconstruction while a write of its stripe is in progress (R337). -/
def awaitsStripe (s : State) (a n : Nat) : Bool :=
  (upFrom a n).any fun y => y < dataEnd && erased s (stripeMap y).z (stripeMap y).s (stripeMap y).o &&
    s.writes.any fun e => e.2.phase != 0 && (stripeMap e.2.dpa).s == (stripeMap y).s

/-- HOST_BAR2_READ (R337, R341, R342, R425): the latch names the port, the offset and the length; the bytes stand in hostRead. -/
def execHostBar2Read (s : State) : Res :=
  if 1 < s.ev.a ∨ !s.alive s.ev.a ∨ 2 ^ 34 < s.ev.b + s.ev.c then .fault .notEnabled
  else if awaitsStripe s ((s.ferry s.ev.a).hwin + s.ev.b) s.ev.c then .fault .notEnabled
  else
    let a := (s.ferry s.ev.a).hwin + s.ev.b
    let s := readRun s a s.ev.c
    .next { s with hostRead := hostBytes s a s.ev.c, free := s.free + s.ev.c }

end Sys2Proof.Machine
end

