-- ==== Sys2Proof/Machine/Stacks.lean ====
section
/-! DEFINITION. Writes to stripes step by step, reads served by the data owner or by reconstruction, and the loss of a
stack (14_memory_stacks.md R337 to R347; 18_retirement_and_surroundings.md R425). -/

namespace Sys2Proof.Machine

/-- The bytes of a stripe's data units (R336). -/
def stripeBytes : Nat := 11264

/-- A write covers a stripe whole (R339). -/
def StripeWrite.full (w : StripeWrite) : Bool := w.bytes.length == stripeBytes

/-- The stripe of a write. -/
def StripeWrite.stripe (w : StripeWrite) : Nat := w.dpa / stripeBytes

/-- Splits the bytes of a write at the ends of stripes where it covers them whole, else at the ends of units. The fuel
bounds the pieces. -/
def splitWrite : Nat → Nat → List Byte → List StripeWrite
  | 0, _, _ => []
  | _ + 1, _, [] => []
  | fuel + 1, d, bs =>
    let n := if d % stripeBytes = 0 ∧ stripeBytes ≤ bs.length then stripeBytes else min (1024 - d % 1024) bs.length
    { dpa := d, bytes := bs.take n } :: splitWrite fuel (d + n) (bs.drop n)

/-- Offers the pieces of a write through a BAR port to their stripe owners (R337). -/
def offerWrites (s : State) (port : Nat) (ws : List StripeWrite) : State :=
  ws.foldl (fun s w =>
    let (i, s) := s.fresh
    { s with writes := fset s.writes i { w with port := port } }.later .stripeWriteAccept { a := i }) s

/-- Stores bytes that no stripe holds, dropping those without memory (R425). -/
def storePlain (s : State) (a : Nat) : List Byte → State
  | [] => s
  | b :: r =>
    let s' := match dpaOf a with
      | .sram k o => if s.alive (14 + k) then { s with mem := mset s.mem (dieKey (14 + k) o) b } else s
      | _ => s
    storePlain s' (a + 1) r

/-- The lines of SRAM that a write of n bytes covers whole hold no error any more (R343). -/
def plainWritten (s : State) (a n : Nat) : State :=
  match dpaOf a with
  | .sram k o => if s.alive (14 + k) then sramWritten s (14 + k) o n else s
  | _ => s

/-- The bytes of a write that fall on a Ferrymaster window act as writes to its BAR0 block: eight bytes at a time, with the
bytes that are written (R174, R425). -/
def storeFerry (s : State) (a : Nat) (bs : List Byte) : State :=
  (upFrom (a / 8) ((a + bs.length + 7) / 8 - a / 8)).foldl (fun s k =>
    match dpaOf (8 * k) with
    | .ferry sw o =>
      let lo := max a (8 * k)
      let part := (bs.drop (lo - a)).take (8 * k + 8 - lo)
      ferryHostWrite s sw o (byteMask (lo % 8) part.length) (leNat part * 2 ^ (8 * (lo % 8)))
    | _ => s) s

/-- HOST_BAR2_WRITE (R393, R425): the latch names the port, the offset and the bytes. Data-space bytes go to their stripe
owners, which take them after the earlier writes of the port; others are performed once those are. -/
def execHostBar2Write (s : State) : Res :=
  let a := (s.ferry s.ev.a).hwin + s.ev.b
  let bs := s.ev.bytes
  if 1 < s.ev.a ∨ !s.alive s.ev.a ∨ 2 ^ 34 < s.ev.b + bs.length ∨ (dataEnd < a + bs.length ∧ portBusy s s.ev.a s.nextId) then
    .fault .notEnabled
  else
    let data := bs.take (dataEnd - a)
    let rest := bs.drop (dataEnd - a)
    let s := offerWrites s s.ev.a (splitWrite (data.length + 1) a data)
    let b := a + data.length
    .next (storeFerry (plainWritten (storePlain s b rest) b rest.length) b rest)

/-- Another write of the stripe is accepted and not complete (R337). -/
def stripeBusy (s : State) (i : Nat) (sameUnit : Bool) (w : StripeWrite) : Bool :=
  s.writes.any fun e => e.1 != i && e.2.phase != 0 && e.2.stripe == w.stripe &&
    (!sameUnit || e.2.full || e.2.dpa / 1024 == w.dpa / 1024)

/-- A write that takes part alone: a full stripe, or a partial write whose old bytes are reconstructed (R337, R345). -/
def needsAlone (s : State) (w : StripeWrite) : Bool :=
  let t := stripeMap w.dpa
  w.full || (s.stack t.z).lost || unitBad s t.z t.s

/-- STRIPE_WRITE_ACCEPT (R337): the latch names the write. A write that cannot be accepted yet is offered again,
as is one whose port has an earlier write that is not performed (R393). -/
def execStripeWriteAccept (s : State) : Res :=
  let i := s.ev.a
  match fget? s.writes i with
  | none => .fault .notEnabled
  | some w =>
    if w.phase ≠ 0 then .fault .notEnabled
    else if stripeBusy s i (!needsAlone s w) w ∨ portBusy s w.port i then .next (s.after 1 .stripeWriteAccept { a := i })
    else
      let s := { s with writes := fset s.writes i { w with phase := 1 } }
      .next (s.later (if w.full then .fullStripeWrite else .partialStripeWrite) { a := i })

/-- A write ends. -/
def dropWrite (s : State) (i : Nat) : State := { s with writes := fdel s.writes i }

/-- The old bytes of a partial write, if all of them can be had (R338, R345). -/
def oldBytes (s : State) (w : StripeWrite) : Option (List Byte) := (upFrom w.dpa w.bytes.length).mapM (storedByte s)

/-- PARTIAL_STRIPE_WRITE (R338, R345): the latch names an accepted write. The data owner reads the old bytes, writes the
new ones on a live stack and sends the delta where the parity's stack is live. -/
def execPartialStripeWrite (s : State) : Res :=
  let i := s.ev.a
  match fget? s.writes i with
  | none => .fault .notEnabled
  | some w =>
    if w.phase ≠ 1 ∨ w.full then .fault .notEnabled
    else
      let t := stripeMap w.dpa
      let s := readUnit s t.z t.s t.o w.bytes.length
      match oldBytes s w with
      | none => .next (dropWrite s i)
      | some old =>
        let key := stackKey t.z (1024 * t.s + t.o)
        let s := if (s.stack t.z).lost then s else { s with mem := storeAt s.mem key w.bytes }
        if (s.stack t.p).lost then .next (dropWrite s i)
        else
          let delta := List.zipWith (· ^^^ ·) old w.bytes
          .next ({ s with writes := fset s.writes i { w with phase := 2, delta := delta } }.later .parityDeltaApply
            { a := i })

/-- PARITY_DELTA_APPLY (R338, R341, R342): the latch names a write whose delta is on its way. The parity bytes are read, the
delta is added and they are written back; parity that cannot be rebuilt is not written. -/
def execParityDeltaApply (s : State) : Res :=
  let i := s.ev.a
  match fget? s.writes i with
  | none => .fault .notEnabled
  | some w =>
    if w.phase ≠ 2 then .fault .notEnabled
    else
      let t := stripeMap w.dpa
      let n := w.delta.length
      let s := if (s.stack t.p).lost then s else readUnit s t.p t.s t.o n
      let key := stackKey t.p (1024 * t.s + t.o)
      let par := List.zipWith (· ^^^ ·) (loadAt s.mem key n) w.delta
      let s := if (s.stack t.p).lost || parityBad s t n then s else { s with mem := storeAt s.mem key par }
      .next (dropWrite s i)

/-- Data unit k of a full write. -/
def unitOfWrite (w : StripeWrite) (k : Nat) : List Byte := (w.bytes.drop (1024 * k)).take 1024

/-- Writes one unit of a stripe with new check bits: an error that stood in it is gone (R343). A lost stack takes
nothing (R345). -/
def writeUnit (s : State) (z u : Nat) (bs : List Byte) : State :=
  if (s.stack z).lost then s
  else
    let s := { s with mem := storeAt s.mem (stackKey z (1024 * u)) bs }
    s.setStack z ((s.stack z).clean u)

/-- FULL_STRIPE_WRITE (R339): the latch names an accepted write of a whole stripe. -/
def execFullStripeWrite (s : State) : Res :=
  let i := s.ev.a
  match fget? s.writes i with
  | none => .fault .notEnabled
  | some w =>
    if w.phase ≠ 1 ∨ !w.full then .fault .notEnabled
    else
      let u := w.stripe
      let p := u % 12
      let par := (List.range 11).foldl (fun a k => List.zipWith (· ^^^ ·) a (unitOfWrite w k)) (List.replicate 1024 0)
      let s := (List.range 11).foldl (fun s k => writeUnit s (if k < p then k else k + 1) u (unitOfWrite w k)) s
      .next (dropWrite (writeUnit s p u par) i)

/-- A read of n bytes of a unit is served by reconstruction: its stack is lost, or a line of the bytes is uncorrectable
(R340). -/
def readErased (s : State) (t : Stripe) (n : Nat) : Bool :=
  (s.stack t.z).lost || (eccLines t.o n).any fun l => lineBad s t.z t.s l

/-- DEVICE_MEMORY_READ (R340): the latch names the address and the length, within one data unit of a live stack. -/
def execDeviceMemoryRead (s : State) : Res :=
  let t := stripeMap s.ev.a
  if dataEnd < s.ev.a + s.ev.b ∨ 1024 < t.o + s.ev.b ∨ readErased s t s.ev.b then .fault .notEnabled
  else
    let bs := (upFrom s.ev.a s.ev.b).filterMap (dataByte s)
    .next { readUnit s t.z t.s t.o s.ev.b with hostRead := bs }

/-- RECONSTRUCTED_READ (R340): the latch names the address and the length, within one data unit that is lost or meets an
uncorrectable error, and no accepted write of the stripe is in progress (R337). -/
def execReconstructedRead (s : State) : Res :=
  let t := stripeMap s.ev.a
  let w : StripeWrite := { dpa := s.ev.a }
  if dataEnd < s.ev.a + s.ev.b ∨ 1024 < t.o + s.ev.b ∨ !readErased s t s.ev.b ∨ stripeBusy s 0 false w then .fault .notEnabled
  else
    match (upFrom s.ev.a s.ev.b).mapM (dataByte s) with
    | none => .fault .notEnabled
    | some bs => .next { readUnit s t.z t.s t.o s.ev.b with hostRead := bs }

/-- REFRESH_CHECK_REPORT (R343): the latch names the stack and the number of corrections. -/
def execRefreshCheckReport (s : State) : Res :=
  let t := s.stack s.ev.a
  .next (s.setStack s.ev.a { t with ecs := t.ecs + BitVec.ofNat 64 s.ev.b })

/-- STACK_LOSS (R344): the latch names the stack and the cause, 1 to 4. -/
def execStackLoss (s : State) : Res :=
  if 11 < s.ev.a ∨ s.ev.b = 0 ∨ 4 < s.ev.b then .fault .notEnabled else .next (loseStack s s.ev.a s.ev.b)

end Sys2Proof.Machine
end

