-- ==== Sys2Proof/Machine/Scratch.lean ====
section
/-! DEFINITION. Scalar scratchpad loads and stores (06_scalar_instructions.md R152 to R155), offending accesses
(07_scratchpads_and_device_memory.md R160, R161) and the probe table (R165 to R173). -/

namespace Sys2Proof.Machine

/-! ### Offending accesses -/

/-- SPERR holds an S access of this clk, and an L access offends: the L access is the one reported (R160). -/
def overtakes (c : Ctx) (q : Queue) (clk : Nat) : Bool := q == .l && c.sperrAt == clk && c.sperr.toNat / 4 == Queue.s.code

/-- The sticky flag of an offence in a clk (R160, R161): the first one is kept, of an L and an S access of one clk the L's. -/
def stickyOffence (c : Ctx) (q : Queue) (clk y kind : Nat) : Ctx :=
  if c.sperr.getLsbD 0 && !overtakes c q clk then c
  else { c with sperr := BitVec.ofNat 64 (1 + 2 * kind + 4 * q.code), spaddr := BitVec.ofNat 64 y, sperrAt := clk }

/-- Judges an access of the instruction being executed by its first offending byte (R160): the state with the sticky
flag, and the trap under SPCTL.TRAP. -/
def State.offend (s : State) (o : Option (Nat × Nat)) : State × Option (Nat × DWord) :=
  match o with
  | none => (s, none)
  | some (y, kind) =>
    let s' := s.onCtx fun c => stickyOffence c s.iss.q s.now y kind
    if s.cc.sptrap then (s', some (if kind = 0 then cOutOfRange else cNotOwned, BitVec.ofNat 64 y)) else (s', none)

/-! ### Scalar loads and stores -/

/-- The effective address (R153). -/
def eaOf (a : DWord) (i : BitVec 8) (size : Nat) : DWord := a + i.signExtend 64 * BitVec.ofNat 64 size

/-- Sign or zero extension of a value of size bytes (R152). -/
def extendTo (v size : Nat) (signed : Bool) : DWord := if signed then sext64 (8 * size) v else BitVec.ofNat 64 v

/-- The bound of an access (R107, R154): of the unit window the given one, of another window none. -/
def accessBound (s : State) (a b : Nat) : Nat × State :=
  if a < 0x1000000 then (b, s) else (1 + Config.latency s.free, { s with free := s.free + 1 })

/-- A register address of the purser's die window (R465). -/
def purserReg (a size : Nat) : Option Nat :=
  if 0x10000000 ≤ a ∧ a + 8 ≤ 0x14000000 ∧ size = 8 ∧ a % 8 = 0 then some (a - 0x10000000) else none

/-- The offence of a scalar access, if any: the purser's core reaches registers only (R465). -/
def scalarOffence (s : State) (a size : Nat) : Option (Nat × Nat) :=
  if 208 ≤ coreOf s.iss.ctx then (if (purserReg a size).isSome then none else some (a, 0))
  else firstOffence s (s.windows s.iss.ctx) a size

/-- The value a scalar load reads. -/
def scalarRead (s : State) (a size : Nat) : Nat :=
  if 208 ≤ coreOf s.iss.ctx then
    match purserReg a size with
    | some o => bar0Read s (posOf (coreOf s.iss.ctx)) o
    | none => 0
  else leNat (scratchBytes s (s.windows s.iss.ctx) a size)

/-- A scalar load (R153). -/
def loadScalar (h : Hdr) (d : BitVec 5) (i : BitVec 8) (size : Nat) (signed : Bool) (s : State) : Res :=
  let ea := eaOf s.iss.xa i size
  let a := ea.toNat
  if a % size ≠ 0 then .next (s.raise cMisaligned ea)
  else
    match s.offend (scalarOffence s a size) with
    | (s, some (cause, val)) => .next (s.raise cause val)
    | (s, none) =>
      let v := scalarRead s a size
      let (b, s) := accessBound s a 6
      .next (((s.landX d (extendTo v size signed) b).access b).finish h b)

/-- LDB (R152, R153). -/
def execLdb (h : Hdr) (d _a : BitVec 5) (i : BitVec 8) (s : State) : Res := loadScalar h d i 1 true s
/-- LDBU. -/
def execLdbu (h : Hdr) (d _a : BitVec 5) (i : BitVec 8) (s : State) : Res := loadScalar h d i 1 false s
/-- LDH. -/
def execLdh (h : Hdr) (d _a : BitVec 5) (i : BitVec 8) (s : State) : Res := loadScalar h d i 2 true s
/-- LDHU. -/
def execLdhu (h : Hdr) (d _a : BitVec 5) (i : BitVec 8) (s : State) : Res := loadScalar h d i 2 false s
/-- LDW. -/
def execLdw (h : Hdr) (d _a : BitVec 5) (i : BitVec 8) (s : State) : Res := loadScalar h d i 4 true s
/-- LDWU. -/
def execLdwu (h : Hdr) (d _a : BitVec 5) (i : BitVec 8) (s : State) : Res := loadScalar h d i 4 false s
/-- LDD. -/
def execLdd (h : Hdr) (d _a : BitVec 5) (i : BitVec 8) (s : State) : Res := loadScalar h d i 8 false s

/-- The bytes a scalar store leaves (R153, R465). -/
def scalarWrite (s : State) (a size : Nat) (v : DWord) : State :=
  if 208 ≤ coreOf s.iss.ctx then
    match purserReg a size with
    | some o => bar0Write s (posOf (coreOf s.iss.ctx)) o (2 ^ 64 - 1) v.toNat
    | none => s
  else scratchStore s (s.windows s.iss.ctx) a (leBytes size v.toNat)

/-- A scalar store (R153). -/
def storeScalar (h : Hdr) (i : BitVec 8) (size : Nat) (s : State) : Res :=
  let ea := eaOf s.iss.xa i size
  let a := ea.toNat
  if a % size ≠ 0 then .next (s.raise cMisaligned ea)
  else
    match s.offend (scalarOffence s a size) with
    | (s, some (cause, val)) => .next (s.raise cause val)
    | (s, none) =>
      let s := scalarWrite s a size s.iss.xd
      let (b, s) := accessBound s a 4
      .next ((s.access b).finish h b)

/-- STB (R152, R153). -/
def execStb (h : Hdr) (_d _a : BitVec 5) (i : BitVec 8) (s : State) : Res := storeScalar h i 1 s
/-- STH. -/
def execSth (h : Hdr) (_d _a : BitVec 5) (i : BitVec 8) (s : State) : Res := storeScalar h i 2 s
/-- STW. -/
def execStw (h : Hdr) (_d _a : BitVec 5) (i : BitVec 8) (s : State) : Res := storeScalar h i 4 s
/-- STD. -/
def execStd (h : Hdr) (_d _a : BitVec 5) (i : BitVec 8) (s : State) : Res := storeScalar h i 8 s

/-! ### The probe table -/

/-- The window address of slot k of a probe table (R165). -/
def slotAddr (c : Cluster) (k : Nat) : Nat := 0x1000000 + c.pbase * 0x10000 + 256 * k

/-- A slot matches a block (R166). -/
def ProbeSlot.hits (p : ProbeSlot) (blk : Nat) : Bool := (p.st == .filling || p.st == .valid) && p.tag == blk && !p.doomed

/-- The way of a set that matches a block. -/
def probeHit (c : Cluster) (set blk : Nat) : Option Nat :=
  (List.range 4).find? fun w => (fget c.slots (4 * set + w) {}).hits blk

/-- The way a miss takes (R167): the first from RRP, cyclically, that is unpinned and not FILLING. -/
def probeVictim (c : Cluster) (set : Nat) : Option Nat :=
  ((List.range 4).map fun i => (fget c.rrp set 0 + i) % 4).find? fun w =>
    let p := fget c.slots (4 * set + w) {}
    p.pin == 0 && p.st != .filling

/-- A slot of the executing context's probe table. -/
def Cluster.slot (c : Cluster) (k : Nat) : ProbeSlot := fget c.slots k {}
def Cluster.setSlot (c : Cluster) (k : Nat) (p : ProbeSlot) : Cluster := { c with slots := fset c.slots k p }

/-- The next line is fetched no earlier than four clks after a PROBE, at its target where it branches (R167); the loop of a LOOPM
in a lower lane of its line does not run then. -/
def probeNext (s : State) (branch : Bool) (target : BitVec 13) : State :=
  let s := s.onCtx fun c => { c with fetchAt := max c.fetchAt (s.now + 4) }
  if branch then { s.goTo target.toNat with seqs := if (frameSeq s s.iss.ctx).isSome then fdel s.seqs (coreOf s.iss.ctx) else s.seqs }
  else s

/-- Queues a fill of a slot (R167, R172). -/
def queueFill (s : State) (ck cl k blk : Nat) : State :=
  let (i, s) := s.fresh
  let s := s.setCmd i
    { kind := .fill, task := s.taskOf ck, part := (s.ctx ck).part, ctx := ck, engine := cl, home := homeOf cl, cx := complexOf cl, slot := k
      root := taskRoot s (s.taskOf ck), errDva := 256 * blk }
  s.laterFar .probeFillComplete { a := cl, b := k }

/-- PROBE (R167). -/
def execProbe (_ : BitVec 3) (d a : BitVec 5) (t : BitVec 13) (s : State) : Res :=
  let ck := s.iss.ctx
  let cl := clusterOf (coreOf ck)
  let c := s.cluster cl
  let v := (s.rdX a).toNat
  let blk := bits v 8 49
  let set := blk % c.sets
  if !holdsProbe s ck ∨ c.sets = 0 then .next (s.raise cProbeOff)
  else if v / 2 ^ 57 ≠ 0 then .next (s.raise cProbeAddr (s.rdX a))
  else
    match probeHit c set blk with
    | some w =>
      let k := 4 * set + w
      let p := c.slot k
      let full := p.pin == 255
      if s.cc.inBody ∧ (full ∨ p.st ≠ .valid) then .next (s.raise cProbeInLoop)
      else if full then
        .next (probeNext ((s.setCluster cl { c with prbfull := c.prbfull + 1 }).wrX d 0 4) true t)
      else
        let c := c.setSlot k { p with pin := p.pin + 1 }
        let c := if p.st = .valid then { c with prbhit := c.prbhit + 1 } else c
        .next (probeNext ((s.setCluster cl c).wrX d (BitVec.ofNat 64 (slotAddr c k)) 4) (p.st == .filling) t)
    | none =>
      if s.cc.inBody then .next (s.raise cProbeInLoop)
      else
        match probeVictim c set with
        | none => .next (probeNext ((s.setCluster cl { c with prbfull := c.prbfull + 1 }).wrX d 0 4) true t)
        | some w =>
          let k := 4 * set + w
          if 1024 ≤ outstanding s (coreOf ck) then .next s.notYet
          else
            let c := c.setSlot k { st := .filling, tag := blk, pin := 1 }
            let c := { c with rrp := fset c.rrp set ((w + 1) % 4), prbmiss := c.prbmiss + 1 }
            let s := queueFill (s.setCluster cl c) ck cl k blk
            .next (probeNext (s.wrX d (BitVec.ofNat 64 (slotAddr c k)) 4) true t)

/-- The slot an address names (R168). -/
def slotOf (c : Cluster) (v : Nat) : Option Nat :=
  let base := slotAddr c 0
  if base ≤ v ∧ v < base + 1024 * c.sets ∧ v % 256 = 0 then some ((v - base) / 256) else none

/-- PWAIT (R169). -/
def execPwait (_ : BitVec 3) (a : BitVec 5) (s : State) : Res :=
  let ck := s.iss.ctx
  let c := s.cluster (clusterOf (coreOf ck))
  if !holdsProbe s ck ∨ c.sets = 0 then .next (s.raise cProbeOff)
  else
    match slotOf c (s.rdX a).toNat with
    | none => .next (s.raise cProbeSlot)
    | some k =>
      match (c.slot k).st with
      | .filling => .next s.notYet
      | .failed => .next (s.raise (c.slot k).cause (BitVec.ofNat 64 (256 * (c.slot k).tag)))
      | _ => .next s

/-- A slot whose pin count has come to 0 (R169): a DOOMED or FAILED one becomes INVALID. -/
def ProbeSlot.unpinned (p : ProbeSlot) : ProbeSlot := if p.pin = 0 ∧ (p.doomed ∨ p.st = .failed) then {} else p

/-- The fill of a slot that has become INVALID goes on without it (R169) (DEDUCED, notes/assumptions/17.md). -/
def orphanFill (s : State) (cl k : Nat) : State :=
  { s with cmds := s.cmds.map fun (e : Nat × Cmd) =>
      (e.1, if e.2.kind = .fill ∧ e.2.engine = cl ∧ e.2.slot = k then { e.2 with orphan := true } else e.2) }

/-- PUNPIN (R169). -/
def execPunpin (_ : BitVec 3) (a : BitVec 5) (s : State) : Res :=
  let ck := s.iss.ctx
  let cl := clusterOf (coreOf ck)
  let c := s.cluster cl
  if !holdsProbe s ck ∨ c.sets = 0 then .next (s.raise cProbeOff)
  else
    match slotOf c (s.rdX a).toNat with
    | none => .next (s.raise cProbeSlot)
    | some k =>
      let p := c.slot k
      if p.pin = 0 then .next (s.raise cPinUnderflow)
      else
        let q := ({ p with pin := p.pin - 1 } : ProbeSlot).unpinned
        let s := s.setCluster cl (c.setSlot k q)
        .next (if p.st = .filling ∧ q.st = .invalid then orphanFill s cl k else s)

/-- What PINV does to a slot (R169). -/
def ProbeSlot.invalidate (p : ProbeSlot) : ProbeSlot :=
  if p.pin = 0 ∧ (p.st = .valid ∨ p.st = .failed) then {}
  else if p.pin ≠ 0 ∨ p.st = .filling then { p with doomed := true }
  else p

/-- PINV (R169). -/
def execPinv (_ : BitVec 3) (a : BitVec 5) (s : State) : Res :=
  let ck := s.iss.ctx
  let cl := clusterOf (coreOf ck)
  let c := s.cluster cl
  let blk := bits (s.rdX a).toNat 8 49
  if !holdsProbe s ck ∨ c.sets = 0 then .next (s.raise cProbeOff)
  else
    match probeHit c (blk % c.sets) blk with
    | none => .next s
    | some w =>
      let k := 4 * (blk % c.sets) + w
      .next (s.setCluster cl (c.setSlot k (c.slot k).invalidate))

/-- PINV.ALL (R169). -/
def execPinvAll (_ : BitVec 3) (s : State) : Res :=
  let ck := s.iss.ctx
  let cl := clusterOf (coreOf ck)
  let c := s.cluster cl
  if !holdsProbe s ck ∨ c.sets = 0 then .next (s.raise cProbeOff)
  else .next (s.setCluster cl { c with slots := c.slots.map fun e => (e.1, e.2.invalidate) })

/-- A slot whose fill has ended (R172). -/
def ProbeSlot.filled (p : ProbeSlot) (cause : Option Nat) : ProbeSlot :=
  if p.doomed ∧ p.pin = 0 then {}
  else
    match cause with
    | none => { p with st := .valid }
    | some c => { p with st := .failed, cause := c }

end Sys2Proof.Machine
end

