-- ==== Sys2Proof/Machine/Rings.lean ====
section
/-! DEFINITION. What the counters of a part are built on: ring registers and their operations, die semaphores and what is
logged against a task (15_synchronisation.md R355 to R363, R369, R370; 02_describing_work.md R42; 12_copy_engines.md
R288). -/

namespace Sys2Proof.Machine

/-! ### Semaphores -/

/-- The count of a physical semaphore (R42). -/
def semCount (s : State) (pos i : Nat) : Nat := fget (s.die pos).sems i 0

/-- Sets it. -/
def semSet (s : State) (pos i v : Nat) : State :=
  let d := s.die pos
  s.setDie pos { d with sems := fset d.sems i v }

/-- Adds to a semaphore; none where the count would pass 2^32 - 1 (R42). -/
def semAdd (s : State) (pos i n : Nat) : Option State :=
  let v := semCount s pos i + n
  if 2 ^ 32 ≤ v then none else some (semSet s pos i v)

/-- Who waits on a semaphore, in order (R370). -/
def semWaiters (s : State) (pos i : Nat) : List Nat := fget (s.die pos).semw i []

/-- Sets the waiters of a semaphore. -/
def setWaiters (s : State) (pos i : Nat) (l : List Nat) : State :=
  let d := s.die pos
  s.setDie pos { d with semw := if l.isEmpty then fdel d.semw i else fset d.semw i l }

/-- A waiter tries a semaphore (R369, R370): it takes its amount if it is first and the count suffices, else it waits in
the order it came. -/
def semTry (s : State) (pos i who amount : Nat) : State × Bool :=
  let w := semWaiters s pos i
  let w' := if w.contains who then w else w ++ [who]
  if w'.head? = some who ∧ amount ≤ semCount s pos i then
    (setWaiters (semSet s pos i (semCount s pos i - amount)) pos i (w'.filter (· != who)), true)
  else (setWaiters s pos i w', false)

/-- The position and the physical number of semaphore i of a part (R42). -/
def semHome (s : State) (part i : Nat) : Nat × Nat := ((s.part part).pos, (s.place part).sem + i)

/-- Raises a semaphore of a part at a completion (R285); an overflow is logged against the task (R42). -/
def raiseSem (s : State) (part i : Nat) : State :=
  let (pos, k) := semHome s part i
  match semAdd s pos k 1 with
  | some s => s
  | none => logError s { task := (s.part part).task, cause := cSemOverflow, origin := 2, pos := pos }

/-! ### Ring slots -/

/-- An engine's store into a ring slot, judged as an access of the context it works for (R363)
(DEDUCED, notes/assumptions/19.md). -/
def engineStoreFor (s : State) (part ck : Nat) (q : Queue) (a : Nat) (bs : List Byte) : State :=
  let w := windowsFor s part ck
  let s := match firstOffence s w a bs.length with
    | none => s
    | some (y, kind) => s.onHeld part ck fun c => stickyOffence c q (s.clk ck) y kind
  portAsks (scratchStore s w a bs) w false a bs.length

/-- The store of an engine for a context that stands on its core. -/
def engineStore (s : State) (ck : Nat) (q : Queue) (a : Nat) (bs : List Byte) : State :=
  engineStoreFor s (s.ctx ck).part ck q a bs

/-- An engine's read of a ring slot, judged likewise. -/
def engineLoadFor (s : State) (part ck : Nat) (q : Queue) (a n : Nat) : List Byte × State :=
  let w := windowsFor s part ck
  let s' := match firstOffence s w a n with
    | none => s
    | some (y, kind) => s.onHeld part ck fun c => stickyOffence c q (s.clk ck) y kind
  (scratchBytes s w a n, portAsks s' w false a n)

/-- The read of an engine for a context that stands on its core. -/
def engineLoad (s : State) (ck : Nat) (q : Queue) (a n : Nat) : List Byte × State := engineLoadFor s (s.ctx ck).part ck q a n

/-- RING_UPDATE_ARRIVAL (R361): the latch names the part, the core of the receiving end and the ring; the update sent
first is applied. -/
def execRingUpdateArrival (s : State) : Res :=
  let mine := fun (e : Nat × Sync) =>
    e.2.kind < 2 && e.2.part == s.ev.a && e.2.core == s.ev.b && e.2.ix == s.ev.c
  match s.syncs.find? mine with
  | none => .fault .notEnabled
  | some (i, u) =>
    let pk := pcoreKey s.ev.a s.ev.b
    let r := s.ring pk s.ev.c
    let r := if u.kind = 0 then { r with fill := r.fill + u.amount } else r.pop u.amount
    .next { s.setRing pk s.ev.c r with syncs := fdel s.syncs i }

end Sys2Proof.Machine
end

