-- ==== Sys2Proof/Machine/Sfu.lean ====
section
/-! DEFINITION. The special-function unit (09_vector_elementwise.md R230 to R232). The spec bounds each result and fixes
some: the square root, the points R231 promises and the special inputs of R232 are computed; every other result is a free
value kept within the bound of R231, chosen so that each function is monotonic (DESIGN CHOICE, notes/assumptions/20.md). -/

namespace Sys2Proof.Machine

/-- The integer square root of n < 4^k. -/
def isqrt (k n : Nat) : Nat :=
  (List.range k).foldl (fun r i =>
    let t := r + 2 ^ (k - 1 - i)
    if t * t ≤ n then t else r) 0

/-- An approximation (-1)^neg * (n / d) * 2^e of an exact value that is not zero, good to one part in 2^36. -/
structure Approx where
  neg : Bool := false
  n : Nat := 1
  d : Nat := 1
  e : Int := 0
  /-- The approximation is exact, and R231 promises the exact result where the format can hold it. -/
  forced : Bool := false
  deriving DecidableEq, Repr

/-- Floor(ln 2 * 2^192) and Floor(log2(e) * 2^192). -/
def ln2Fix : Nat := 0xb17217f7d1cf79abc9e3b39803f2f6af40f343267298b62d
def log2eFix : Nat := 0x171547652b82fe1777d0ffda0d23a7d11d6aef551bad2b4b1

/-- 2^(2^-i) in 128 fraction bits, for i from 1 to 64. -/
def rootsOf2 : List Nat :=
  ((List.range 64).foldl (fun (l : List Nat × Nat) _ =>
    let c := isqrt 130 (l.2 * 2 ^ 128)
    (l.1 ++ [c], c)) ([], 2 ^ 129)).1

/-- 2^t for t in units of 2^-64, as a number and a power of two. -/
def pow2Fix (t : Int) : Nat × Int :=
  let f := (t % 2 ^ 64).toNat
  let m := (List.range 64).foldl (fun m i => if bit f (63 - i) then m * rootsOf2.getD i 0 / 2 ^ 128 else m) (2 ^ 128)
  (m, t / 2 ^ 64 - 128)

/-- m * 2^e in units of 2^-64, rounded down in magnitude. -/
def fix64 (s : Bool) (m : Nat) (e : Int) : Int :=
  let v : Int := (shiftUp m (e + 64) / shiftUp 1 (-e - 64) : Nat)
  if s then -v else v

/-- x * log2(e) in units of 2^-64. -/
def timesLog2e (s : Bool) (m : Nat) (e : Int) : Int :=
  let v : Int := (shiftUp (m * log2eFix) (e - 128) / shiftUp 1 (128 - e) : Nat)
  if s then -v else v

/-- The magnitude of a value is at least 2^k. -/
def atLeast2 (m : Nat) (e k : Int) : Bool := k ≤ (Nat.log2 m : Int) + e

/-- log2 of m * 2^e in units of 2^-80. -/
def log2Fix (m : Nat) (e : Int) : Int :=
  let k := Nat.log2 m
  let y := m * 2 ^ 192 / 2 ^ k
  let r := (List.range 80).foldl (fun (l : Nat × Nat) _ =>
    let z := l.2 * l.2 / 2 ^ 192
    if 2 ^ 193 ≤ z then (2 * l.1 + 1, z / 2) else (2 * l.1, z)) (0, y)
  ((k : Int) + e) * 2 ^ 80 + r.1

/-- e^x: far outside every format's range for |x| from 2^10 on. -/
def expApprox (s : Bool) (m : Nat) (e : Int) : Nat × Int :=
  if atLeast2 m e 10 then (1, if s then -1400 else 1400) else pow2Fix (timesLog2e s m e)

/-- The exact value of a function at a finite x that is not zero (R230), for the inputs R232 does not list. -/
def approxOf (op : Nat) (s : Bool) (m : Nat) (e : Int) : Approx :=
  match op with
  | 0x20 =>
    if atLeast2 m e 10 then { e := if s then -1400 else 1400 }
    else
      let (a, b) := pow2Fix (fix64 s m e)
      let whole := shiftUp m e % shiftUp 1 (-e) == 0
      { n := a, e := b, forced := whole }
  | 0x21 =>
    let v := log2Fix m e
    { neg := v < 0, n := v.natAbs, e := -80, forced := m == 2 ^ Nat.log2 m }
  | 0x22 => let (a, b) := expApprox s m e; { n := a, e := b }
  | 0x23 =>
    let v := log2Fix m e
    { neg := v < 0, n := v.natAbs * ln2Fix, e := -272, forced := v == 0 }
  | 0x24 =>
    -- 1 / sqrt(m 2^e), by the square root of 2^400 / m of an even exponent
    let (m, e) := if e % 2 = 0 then (m, e) else (2 * m, e - 1)
    let q := 2 ^ 400 / m
    let r := isqrt 201 q
    { n := r, e := -200 - e / 2, forced := r * r * m == 2 ^ 400 }
  | 0x25 => { neg := s, n := 1, d := m, e := -e, forced := m == 2 ^ Nat.log2 m }
  | 0x27 =>
    if atLeast2 m e 6 then { neg := s }
    else if atLeast2 m e (-12) then
      let (a, b) := pow2Fix (2 * timesLog2e false m e)
      let one := shiftUp 1 (-b)
      { neg := s, n := a - one, d := a + one }
    else { neg := s, n := m * (shiftUp 3 (-2 * e) - m * m), d := 3, e := 3 * e }
  | _ =>
    let (a, b) := expApprox true m e
    let one := shiftUp 1 (-b)
    if s then { n := a, d := one + a } else { n := one, d := one + a }

/-- The bound of R231 in ulps. -/
def sfuUlps (op : Nat) : Nat := if op = 0x22 ∨ op = 0x23 ∨ op = 0x27 ∨ op = 0x28 then 2 else 1

/-- A magnitude pattern may be the result where the exact value is a (R231, R232): within the bound, in ulps at that value;
on its side of the results promised between its neighbours, which monotonicity keeps; not below what the bound leaves to
the values under the last power of two; never above 1 for tanh and sigmoid, and 1 itself where the value lies within 1/256
ulp of it. -/
def Approx.allows (f : Fmt) (op : Nat) (a : Approx) (w : Nat) : Bool :=
  match f.value w with
  | .fin _ m e =>
    let u := f.unit a.n a.d a.e
    let k := floorLog2 a.n a.d + a.e
    let ub := f.unit 1 1 (k - 1)
    let q := min (min (min e u) (min a.e ub)) (min k 0)
    let at_ := fun (x : Int) => shiftUp 1 (x - q) * a.d
    let v := shiftUp m (e - q) * a.d
    let x := shiftUp a.n (a.e - q)
    let far := (v - x) + (x - v)
    let whole := x / at_ 0
    let one := (op = 0x27 ∨ op = 0x28) → v ≤ at_ 0 ∧ ((at_ 0 - x) * 256 < at_ u → v = at_ 0)
    let powers := (op = 0x20 ∨ op = 0x24 ∨ op = 0x25) →
      (ub ≤ k → at_ k ≤ v) ∧ (ub ≤ k + 1 → v ≤ at_ (k + 1))
    let wholes := op = 0x21 → whole * at_ 0 ≤ v ∧ v ≤ (whole + 1) * at_ 0
    let lower := v < at_ k → at_ k - v < sfuUlps op * at_ ub
    decide (far < sfuUlps op * at_ u ∧ one ∧ powers ∧ wholes ∧ lower)
  | _ => false

/-- The place of an input pattern in the order of the inputs. -/
def inputOrd (top w : Nat) : Int := if w / top % 2 = 1 then -((w % top : Nat) : Int) else (w % top : Nat)

/-- The magnitude of a result grows with the input (R231). -/
def rising (op : Nat) (s neg : Bool) : Bool :=
  match op with
  | 0x21 | 0x23 => !neg
  | 0x24 => false
  | 0x25 => s
  | 0x27 => !s
  | _ => true

/-- The input from which on the results reach a magnitude, for a sign of the result: a free value, one for each magnitude, so
that the function is monotonic (DESIGN CHOICE, notes/assumptions/20.md). -/
def reaches (f : Fmt) (ft op w : Nat) (s neg : Bool) (y : Nat) : Bool :=
  let top := 2 ^ (f.eb + f.fb)
  let t := inputOrd top (Config.sfu op ft (BitVec.ofNat 32 (y + b2n neg * top))).toNat
  if rising op s neg then t ≤ inputOrd top w else inputOrd top w ≤ t

/-- The result at a finite input that is not zero, as a pattern: of the magnitudes allowed, the greatest that is reached, else
the least. -/
def sfuFinite (f : Fmt) (ft op w : Nat) (s : Bool) (m : Nat) (e : Int) : Nat :=
  let a := approxOf op s m e
  let (near, fl) := f.round 0 false a.n a.d a.e
  let top := 2 ^ (f.eb + f.fb)
  let near := if near = f.infBits false then f.maxBits false else near
  let ys := (upFrom (near - 5) 9).filter fun y => y ≤ f.maxBits false && a.allows f op y
  let mag :=
    if a.n = 0 then 0
    else if (f.bias : Int) + 1 ≤ floorLog2 a.n a.d + a.e then f.infBits false
    else if a.forced && fl &&& flInx == 0 then near
    else ((ys.reverse.find? (reaches f ft op w s a.neg)).orElse fun _ => ys.head?).getD near
  mag + b2n a.neg * top

/-- The square root of m * 2^e, correctly rounded (R231). -/
def sqrtBits (f : Fmt) (m : Nat) (e : Int) : Nat :=
  let (m, e) := if e % 2 = 0 then (m, e) else (2 * m, e - 1)
  let n := m * 2 ^ 80
  let r := isqrt 60 n
  (f.round 0 false (2 * r + b2n (r * r != n)) 1 (e / 2 - 41)).1

/-- A special function by its opcode, type and input pattern, with its flags (R230 to R232). -/
def sfu (op ft w : Nat) : Nat × Flags :=
  let f := fmtOf ft
  let one := f.bias * 2 ^ f.fb
  match f.value w with
  | .nan => (f.nanBits, 0)
  | .inf s =>
    match op with
    | 0x20 | 0x22 => (if s then 0 else f.infBits false, 0)
    | 0x21 | 0x23 | 0x26 => if s then (f.nanBits, flInv) else (f.infBits false, 0)
    | 0x24 => if s then (f.nanBits, flInv) else (0, 0)
    | 0x25 => (f.zeroBits s, 0)
    | 0x27 => (one + f.zeroBits s, 0)
    | _ => (if s then 0 else one, 0)
  | .fin s m e =>
    if m = 0 then
      match op with
      | 0x20 | 0x22 => (one, 0)
      | 0x21 | 0x23 => (f.infBits true, flDz)
      | 0x24 | 0x25 => (f.infBits s, flDz)
      | 0x26 | 0x27 => (f.zeroBits s, 0)
      | _ => (one - 2 ^ f.fb, 0)
    else if s ∧ (op = 0x21 ∨ op = 0x23 ∨ op = 0x24 ∨ op = 0x26) then (f.nanBits, flInv)
    else if op = 0x26 then (sqrtBits f m e, 0)
    else
      let r := sfuFinite f ft op w s m e
      (r, if r % 2 ^ (f.eb + f.fb) = f.infBits false then flOvf else 0)

end Sys2Proof.Machine
end

