-- ==== Sys2Proof/Machine/Vector.lean ====
section
/-! DEFINITION. Elementwise vector instructions: floating-point, integer, compares, masks, moves, conversions and special
functions (09_vector_elementwise.md R209 to R225, R230 to R233). -/

namespace Sys2Proof.Machine

/-! ### Shared forms -/

/-- What the elements of a result become under the mask (R211), with the flags of the elements written. -/
def State.lanes (s : State) (m : BitVec 1) (old : List Word) (f : Nat → Nat × Flags) : List Word × Flags :=
  let r := (List.range 1024).map fun i => if s.active m i then f i else ((elem old i).toNat, 0)
  (r.map fun e => BitVec.ofNat 32 e.1, r.foldl (fun g e => g ||| e.2) 0)

/-- An instruction that computes every element of one destination register: every source is read first (R214). -/
def vecOp (h : Hdr) (d : BitVec 5) (k : BitVec 1) (b : Nat) (f : Nat → Nat × Flags) (s : State) : Res :=
  let (v, fl) := s.lanes k (s.rdV d) f
  .next ((s.wrV d 0 v b false).finishRows h b fl)

/-- Element i of the register a field names, n registers on, as a number. -/
def State.el (s : State) (a : BitVec 5) (n i : Nat) : Nat := (elem (s.cc.getV (s.vix a n)) i).toNat

/-- An element as a floating type reads it (R210). -/
def asFt (ft w : Nat) : Nat := if ft = 0 then w else w % 65536

/-- A value without flags. -/
def plain (v : Nat) : Nat × Flags := (v, 0)

/-- A floating-point instruction of two sources (R216). -/
def floatOp (h : Hdr) (d a b : BitVec 5) (k : BitVec 1) (ft : BitVec 2) (g : Fmt → Nat → Nat → Nat × Flags)
    (s : State) : Res :=
  let t := ft.toNat
  vecOp h d k 4 (fun i => g (fmtOf t) (asFt t (s.el a 0 i)) (asFt t (s.el b 0 i))) s

/-- The iterations of a repeated form (R215): each sees the writes of the earlier ones (DEDUCED, notes/assumptions/9.md). -/
def repRun (d a : BitVec 5) (k : BitVec 1) (b : Nat) (f : Nat → Nat × Flags) : List (Nat × Nat) → State × Flags → State × Flags
  | [], p => p
  | (i, t) :: r, (s, fl) =>
    let src := s.cc.getV (s.vix a i)
    let (v, g) := s.lanes k (s.cc.getV (s.vix d i)) fun j => f (elem src j).toNat
    repRun d a k b f r (s.wrV d i v (b + t) false, fl ||| g)

/-- A repeated form of one source (R215). -/
def repOp (h : Hdr) (d a : BitVec 5) (n : BitVec 3) (k : BitVec 1) (b : Nat) (f : Nat → Nat × Flags) (s : State) : Res :=
  let ts := repStarts b ((a.toNat : Int) - d.toNat) (n.toNat + 1)
  let (s, fl) := repRun d a k b f ((List.range (n.toNat + 1)).zip ts) (s, 0)
  .next (s.finishRows h (ts.getLastD 0 + b) fl)

/-! ### Floating point (R216, R217) -/

def execVadd (h : Hdr) (d a b : BitVec 5) (k : BitVec 1) (f : BitVec 2) (s : State) : Res := floatOp h d a b k f fAdd s
def execVsub (h : Hdr) (d a b : BitVec 5) (k : BitVec 1) (f : BitVec 2) (s : State) : Res := floatOp h d a b k f fSub s
def execVmul (h : Hdr) (d a b : BitVec 5) (k : BitVec 1) (f : BitVec 2) (s : State) : Res := floatOp h d a b k f fMul s
def execVmin (h : Hdr) (d a b : BitVec 5) (k : BitVec 1) (f : BitVec 2) (s : State) : Res :=
  floatOp h d a b k f (fun t x y => plain (fMin t x y)) s
def execVmax (h : Hdr) (d a b : BitVec 5) (k : BitVec 1) (f : BitVec 2) (s : State) : Res :=
  floatOp h d a b k f (fun t x y => plain (fMax t x y)) s

/-- VFMA and VFMS: the destination is a source too. -/
def fmaOp (h : Hdr) (minus : Bool) (d a b : BitVec 5) (k : BitVec 1) (ft : BitVec 2) (s : State) : Res :=
  let t := ft.toNat
  vecOp h d k 5 (fun i => fFma (fmtOf t) minus (asFt t (s.el a 0 i)) (asFt t (s.el b 0 i)) (asFt t (s.el d 0 i))) s

def execVfma (h : Hdr) (d a b : BitVec 5) (k : BitVec 1) (f : BitVec 2) (s : State) : Res := fmaOp h false d a b k f s
def execVfms (h : Hdr) (d a b : BitVec 5) (k : BitVec 1) (f : BitVec 2) (s : State) : Res := fmaOp h true d a b k f s

def execVabs (h : Hdr) (d a : BitVec 5) (r : BitVec 3) (k : BitVec 1) (f : BitVec 2) (s : State) : Res :=
  repOp h d a r k 4 (fun w => plain (fAbs (fmtOf f.toNat) (asFt f.toNat w))) s
def execVneg (h : Hdr) (d a : BitVec 5) (r : BitVec 3) (k : BitVec 1) (f : BitVec 2) (s : State) : Res :=
  repOp h d a r k 4 (fun w => plain (fNeg (fmtOf f.toNat) (asFt f.toNat w))) s

/-- VCLAMP: the bounds are v[b] and v[b + 1]. -/
def execVclamp (h : Hdr) (d a b : BitVec 5) (k : BitVec 1) (f : BitVec 2) (s : State) : Res :=
  let t := f.toNat
  vecOp h d k 4 (fun i =>
    plain (fClamp (fmtOf t) (asFt t (s.el a 0 i)) (asFt t (s.el b 0 i)) (asFt t (s.el b 1 i)))) s

/-! ### Integers (R218 to R220) -/

/-- An integer result wrapped or saturated to IT (R213, R218): 0 I32, 1 I32 saturating, 2 I16, 3 I16 saturating. -/
def fitIt (it : Nat) (v : Int) : Nat × Flags :=
  let n := if it < 2 then 32 else 16
  if it % 2 = 0 then (low n v, 0)
  else
    let lo : Int := -2 ^ (n - 1)
    let hi : Int := 2 ^ (n - 1) - 1
    if v < lo then (low n lo, flSat) else if hi < v then (low n hi, flSat) else (low n v, 0)

/-- An element as IT reads it. -/
def asIt (it w : Nat) : Int := if it < 2 then sgn 32 w else sgn 16 w

/-- An element as CT reads it (R213): 0 I32, 1 U32, 2 I16, 3 U16. -/
def asCt (ct w : Nat) : Int :=
  match ct with
  | 0 => sgn 32 w
  | 1 => (w % 2 ^ 32 : Nat)
  | 2 => sgn 16 w
  | _ => (w % 2 ^ 16 : Nat)

/-- The bits of a result of CT. -/
def ctBits (ct : Nat) (v : Int) : Nat := low (if ct < 2 then 32 else 16) v

/-- An arithmetic instruction of IT. -/
def intOp (h : Hdr) (d a b : BitVec 5) (k : BitVec 1) (it : BitVec 2) (bd : Nat) (g : Int → Int → Int) (s : State) : Res :=
  vecOp h d k bd (fun i => fitIt it.toNat (g (asIt it.toNat (s.el a 0 i)) (asIt it.toNat (s.el b 0 i)))) s

def execViadd (h : Hdr) (d a b : BitVec 5) (k : BitVec 1) (t : BitVec 2) (s : State) : Res := intOp h d a b k t 2 (· + ·) s
def execVisub (h : Hdr) (d a b : BitVec 5) (k : BitVec 1) (t : BitVec 2) (s : State) : Res := intOp h d a b k t 2 (· - ·) s
def execVimul (h : Hdr) (d a b : BitVec 5) (k : BitVec 1) (t : BitVec 2) (s : State) : Res := intOp h d a b k t 4 (· * ·) s

/-- A comparing instruction of CT. -/
def ctOp (h : Hdr) (d a b : BitVec 5) (k : BitVec 1) (ct : BitVec 2) (g : Int → Int → Int) (s : State) : Res :=
  let c := ct.toNat
  vecOp h d k 2 (fun i => plain (ctBits c (g (asCt c (s.el a 0 i)) (asCt c (s.el b 0 i))))) s

def execVimin (h : Hdr) (d a b : BitVec 5) (k : BitVec 1) (t : BitVec 2) (s : State) : Res := ctOp h d a b k t min s
def execVimax (h : Hdr) (d a b : BitVec 5) (k : BitVec 1) (t : BitVec 2) (s : State) : Res := ctOp h d a b k t max s

/-- VICLAMP: Min(Max(a, lo), hi), the bounds v[b] and v[b + 1]. -/
def execViclamp (h : Hdr) (d a b : BitVec 5) (k : BitVec 1) (t : BitVec 2) (s : State) : Res :=
  let c := t.toNat
  vecOp h d k 2 (fun i => plain (ctBits c (min (max (asCt c (s.el a 0 i)) (asCt c (s.el b 0 i))) (asCt c (s.el b 1 i))))) s

/-- A bitwise or shifting instruction. -/
def bitOp (h : Hdr) (d a b : BitVec 5) (k : BitVec 1) (g : Word → Word → Word) (s : State) : Res :=
  vecOp h d k 2 (fun i => plain (g (elem (s.rdV a) i) (elem (s.rdV b) i)).toNat) s

def execVand (h : Hdr) (d a b : BitVec 5) (k : BitVec 1) (s : State) : Res := bitOp h d a b k (· &&& ·) s
def execVor (h : Hdr) (d a b : BitVec 5) (k : BitVec 1) (s : State) : Res := bitOp h d a b k (· ||| ·) s
def execVxor (h : Hdr) (d a b : BitVec 5) (k : BitVec 1) (s : State) : Res := bitOp h d a b k (· ^^^ ·) s

/-- A shift by SW (R218): 0 on 32 bits by b[4:0], 2 on bits [15:0] by b[3:0]. -/
def shiftSw (sw : BitVec 2) (g : (n : Nat) → BitVec n → Nat → BitVec n) (x y : Word) : Word :=
  if sw = 0 then g 32 x (y.extractLsb' 0 5).toNat
  else (g 16 (x.extractLsb' 0 16) (y.extractLsb' 0 4).toNat).zeroExtend 32

def execVshl (h : Hdr) (d a b : BitVec 5) (k : BitVec 1) (w : BitVec 2) (s : State) : Res :=
  bitOp h d a b k (shiftSw w fun _ x n => x <<< n) s
def execVshr (h : Hdr) (d a b : BitVec 5) (k : BitVec 1) (w : BitVec 2) (s : State) : Res :=
  bitOp h d a b k (shiftSw w fun _ x n => x >>> n) s
def execVsra (h : Hdr) (d a b : BitVec 5) (k : BitVec 1) (w : BitVec 2) (s : State) : Res :=
  bitOp h d a b k (shiftSw w fun _ x n => x.sshiftRight n) s

/-- One accumulation of VIMAC8 (R219): byte j of the sources into an INT32. -/
def mac8 (sat au : Bool) (j x y acc : Nat) : Nat × Flags :=
  let p := bits x (8 * j) 8
  let a : Int := if au then (p : Int) else sgn 8 p
  let v := sgn 32 acc + a * sgn 8 (bits y (8 * j) 8)
  fitIt (if sat then 1 else 0) v

/-- VIMAC8 (R219): every source is read before the four destinations are written. -/
def execVimac8 (h : Hdr) (d a b : BitVec 5) (k : BitVec 1) (sat : BitVec 1) (au : BitVec 1) (s : State) : Res :=
  let r := (List.range 4).map fun j =>
    s.lanes k (s.cc.getV (s.vix d j)) fun i => mac8 (sat == 1) (au == 1) j (s.el a 0 i) (s.el b 0 i) (s.el d j i)
  let s' := (List.range 4).foldl (fun t j => t.wrV d j ((r.getD j ([], 0)).1) 4 false) s
  .next (s'.finishRows h 4 (r.foldl (fun g e => g ||| e.2) 0))

/-- One rounding shift with the range of n bits (R207, R220). -/
def shiftTo (n : Nat) (v : Int) (amount : Nat) : Int × Flags :=
  let (w, c) := roundShift v amount (-2 ^ (n - 1)) (2 ^ (n - 1) - 1)
  (w, if c then flSat else 0)

/-- VRSHR (R220) at one element: sources by register. -/
def rshrElem (dr : Nat) (src : Nat → Nat) (amount : Nat) : Nat × Flags :=
  match dr with
  | 0 =>
    let r := (List.range 4).map fun j => shiftTo 8 (sgn 32 (src j)) amount
    ((r.zipIdx.map fun (e, j) => low 8 e.1 * 2 ^ (8 * j)).foldl (· + ·) 0, r.foldl (fun g e => g ||| e.2) 0)
  | 1 => let (w, f) := shiftTo 8 (sgn 32 (src 0)) amount; (low 32 w, f)
  | 2 => let (w, f) := shiftTo 16 (sgn 32 (src 0)) amount; (low 16 w, f)
  | _ => let (w, f) := shiftTo 32 (sgn 32 (src 0)) amount; (low 32 w, f)

def execVrshr (h : Hdr) (d a b : BitVec 5) (k : BitVec 1) (r : BitVec 2) (s : State) : Res :=
  vecOp h d k 4 (fun i => rshrElem r.toNat (fun j => s.el a j i) (bits (s.el b 0 i) 0 6)) s

/-! ### Compares, selects and masks (R221, R222) -/

/-- Writes a mask register with the bits of a test (R221). -/
def maskOp (h : Hdr) (d : Nat) (g : Nat → Bool) (s : State) : Res :=
  let m := BitVec.ofNat 1024 ((List.range 1024).foldl (fun n i => if g i then n + 2 ^ i else n) 0)
  .next ((s.wrM d m 2).finishRows h 2)

def execVcmp (h : Hdr) (f : BitVec 2) (v : BitVec 3) (a b : BitVec 5) (c : BitVec 3) (s : State) : Res :=
  let t := f.toNat
  maskOp h v.toNat (fun i => fCond (fmtOf t) c.toNat (asFt t (s.el a 0 i)) (asFt t (s.el b 0 i))) s

/-- The conditions of VICMP (R221). -/
def iCond (k : Nat) (a b : Int) : Bool :=
  match k with
  | 0 => a == b
  | 1 => a != b
  | 2 => a < b
  | 3 => b ≤ a
  | 4 => a ≤ b
  | _ => b < a

def execVicmp (h : Hdr) (t : BitVec 2) (v : BitVec 3) (a b : BitVec 5) (c : BitVec 3) (s : State) : Res :=
  maskOp h v.toNat (fun i => iCond c.toNat (asCt t.toNat (s.el a 0 i)) (asCt t.toNat (s.el b 0 i))) s

/-- VSEL (R222). -/
def execVsel (h : Hdr) (d a b : BitVec 5) (m : BitVec 3) (s : State) : Res :=
  vecOp h d 0 2 (fun i => plain (if (s.cc.getM m.toNat).getLsbD i then s.el a 0 i else s.el b 0 i)) s

/-- A mask instruction (R222). -/
def maskBits (h : Hdr) (d : BitVec 5) (m : BitVec 1024) (s : State) : Res := .next ((s.wrM d.toNat m 2).finishRows h 2)

def execVmand (h : Hdr) (d a : BitVec 5) (b : BitVec 3) (s : State) : Res :=
  maskBits h d (s.cc.getM a.toNat &&& s.cc.getM b.toNat) s
def execVmor (h : Hdr) (d a : BitVec 5) (b : BitVec 3) (s : State) : Res :=
  maskBits h d (s.cc.getM a.toNat ||| s.cc.getM b.toNat) s
def execVmxor (h : Hdr) (d a : BitVec 5) (b : BitVec 3) (s : State) : Res :=
  maskBits h d (s.cc.getM a.toNat ^^^ s.cc.getM b.toNat) s
def execVmandn (h : Hdr) (d a : BitVec 5) (b : BitVec 3) (s : State) : Res :=
  maskBits h d (s.cc.getM a.toNat &&& ~~~(s.cc.getM b.toNat)) s
def execVmnot (h : Hdr) (d a : BitVec 5) (s : State) : Res := maskBits h d (~~~(s.cc.getM a.toNat)) s

/-! ### Moves and conversions (R223 to R225) -/

def execVmov (h : Hdr) (d a : BitVec 5) (r : BitVec 3) (k : BitVec 1) (s : State) : Res := repOp h d a r k 2 plain s

def execVmovi (h : Hdr) (d : BitVec 5) (k : BitVec 1) (i : Word) (s : State) : Res :=
  vecOp h d k 2 (fun _ => plain i.toNat) s

/-- The elements a VMOVX selects (R223): MODE 0 all, 1 a row, 2 an element. -/
def selected (mode row col i : Nat) : Bool := mode == 0 || (i / 64 == row && (mode == 1 || i % 64 == col))

def execVmovx (h : Hdr) (d _a : BitVec 5) (k : BitVec 1) (row : BitVec 4) (col : BitVec 6) (mode : BitVec 2)
    (s : State) : Res :=
  vecOp h d k 2 (fun i =>
    plain (if selected mode.toNat row.toNat col.toNat i then s.iss.xa.toNat % 2 ^ 32 else s.el d 0 i)) s

/-- VCVT (R224, R225). -/
def execVcvt (h : Hdr) (d a c : BitVec 5) (k : BitVec 1) (m : BitVec 2) (s : State) : Res :=
  vecOp h d k 4 (fun i => convert c.toNat m.toNat (s.el a 0 i)) s

/-! ### Special functions (R230 to R232) -/

/-- A special function of bound b, by its opcode. -/
def sfuOp (op b : Nat) (h : Hdr) (d a : BitVec 5) (r : BitVec 3) (k : BitVec 1) (f : BitVec 2) (s : State) : Res :=
  repOp h d a r k b (fun w => sfu op f.toNat (asFt f.toNat w)) s

def execVexp2 (h : Hdr) (d a : BitVec 5) (r : BitVec 3) (k : BitVec 1) (f : BitVec 2) (s : State) : Res :=
  sfuOp 0x20 8 h d a r k f s
def execVlog2 (h : Hdr) (d a : BitVec 5) (r : BitVec 3) (k : BitVec 1) (f : BitVec 2) (s : State) : Res :=
  sfuOp 0x21 8 h d a r k f s
def execVexp (h : Hdr) (d a : BitVec 5) (r : BitVec 3) (k : BitVec 1) (f : BitVec 2) (s : State) : Res :=
  sfuOp 0x22 12 h d a r k f s
def execVlog (h : Hdr) (d a : BitVec 5) (r : BitVec 3) (k : BitVec 1) (f : BitVec 2) (s : State) : Res :=
  sfuOp 0x23 12 h d a r k f s
def execVrsqrt (h : Hdr) (d a : BitVec 5) (r : BitVec 3) (k : BitVec 1) (f : BitVec 2) (s : State) : Res :=
  sfuOp 0x24 8 h d a r k f s
def execVrcp (h : Hdr) (d a : BitVec 5) (r : BitVec 3) (k : BitVec 1) (f : BitVec 2) (s : State) : Res :=
  sfuOp 0x25 8 h d a r k f s
def execVsqrt (h : Hdr) (d a : BitVec 5) (r : BitVec 3) (k : BitVec 1) (f : BitVec 2) (s : State) : Res :=
  sfuOp 0x26 8 h d a r k f s
def execVtanh (h : Hdr) (d a : BitVec 5) (r : BitVec 3) (k : BitVec 1) (f : BitVec 2) (s : State) : Res :=
  sfuOp 0x27 12 h d a r k f s
def execVsigm (h : Hdr) (d a : BitVec 5) (r : BitVec 3) (k : BitVec 1) (f : BitVec 2) (s : State) : Res :=
  sfuOp 0x28 12 h d a r k f s

end Sys2Proof.Machine
end

