-- ==== Sys2Proof/Machine/Copy.lean ====
section
/-! DEFINITION. Copy commands: parameter blocks, patterns, acceptance, the order of a stream, and performing bytes
(12_copy_engines.md R276 to R303; 16_memory_consistency.md R375 to R387). -/

namespace Sys2Proof.Machine

/-! ### Patterns -/

/-- A stride of 32 bits, signed (R281). -/
def strideOf (v : BitVec 32) : Int := v.toInt

/-- An address of 64 bits that wraps (R282). -/
def wrap64 (i : Int) : Nat := (i % 2 ^ 64).toNat

/-- The kinds that move rows by index (R299). -/
def CmdKind.indexed : CmdKind → Bool
  | .cgath | .cscat => true
  | _ => false

/-- The bytes of a command's pattern. -/
def Cmd.total (c : Cmd) : Nat := if c.kind.indexed then c.b.n1 * c.b.len else c.b.n2 * c.b.n1 * c.b.len

/-- The address of byte e of a side (R282): base, strides, rows per plane, row length. -/
def patAt (base : DWord) (s1 s2 : BitVec 32) (n1 len e : Nat) : Nat :=
  let r := e / len
  wrap64 ((base.toNat : Int) + (r / n1 : Nat) * strideOf s2 + (r % n1 : Nat) * strideOf s1 + (e % len : Nat))

/-- The address of byte e of the rows of an indexed side (R299). -/
def idxAt (base : DWord) (s1 : BitVec 32) (idx : List Nat) (len e : Nat) : Nat :=
  wrap64 ((base.toNat : Int) + (idx.getD (e / len) 0 : Nat) * strideOf s1 + (e % len : Nat))

/-- The source and destination addresses of byte e of a command. -/
def Cmd.srcAt (c : Cmd) (e : Nat) : Nat :=
  if c.kind = .cgath then idxAt c.b.src c.b.ss1 c.idx c.b.len e else patAt c.b.src c.b.ss1 c.b.ss2 c.b.n1 c.b.len e
def Cmd.dstAt (c : Cmd) (e : Nat) : Nat :=
  if c.kind = .cscat then idxAt c.b.dst c.b.ds1 c.idx c.b.len e else patAt c.b.dst c.b.ds1 c.b.ds2 c.b.n1 c.b.len e

/-- The bounding interval of a side (R164, R290): its lowest and highest byte, as integers. -/
def extentOf (base : DWord) (s1 s2 : BitVec 32) (n1 n2 len : Nat) : Int × Int :=
  let a : Int := ((n1 - 1 : Nat) : Int) * strideOf s1
  let b : Int := ((n2 - 1 : Nat) : Int) * strideOf s2
  ((base.toNat : Int) + min 0 a + min 0 b, (base.toNat : Int) + max 0 a + max 0 b + len - 1)

/-- The bounding interval of the rows of an indexed side. -/
def idxExtent (base : DWord) (s1 : BitVec 32) (idx : List Nat) (len : Nat) : Int × Int :=
  let rows := idx.map fun (i : Nat) => (base.toNat : Int) + (i : Int) * strideOf s1
  (rows.foldl min (rows.headD 0), rows.foldl max (rows.headD 0) + len - 1)

/-- The bounding intervals of the source and destination of a command. -/
def Cmd.srcSpan (c : Cmd) : Int × Int :=
  if c.kind = .cgath then idxExtent c.b.src c.b.ss1 c.idx c.b.len
  else extentOf c.b.src c.b.ss1 c.b.ss2 c.b.n1 (if c.kind.indexed then 1 else c.b.n2) c.b.len
def Cmd.dstSpan (c : Cmd) : Int × Int :=
  if c.kind = .cscat then idxExtent c.b.dst c.b.ds1 c.idx c.b.len
  else extentOf c.b.dst c.b.ds1 c.b.ds2 c.b.n1 (if c.kind.indexed then 1 else c.b.n2) c.b.len

/-! ### Scratchpad sides -/

/-- An interval of window addresses is in range (R158): both ends lie in one window. -/
def spanInRange (w : Windows) (lo hi : Int) : Bool :=
  0 ≤ lo && lo ≤ hi &&
  match homeIn w lo.toNat, homeIn w hi.toNat with
  | some a, some b => b == a + (hi - lo).toNat
  | _, _ => false

/-- The addresses of an interval at which the owner can change: its first, the tile starts, the end of the probe
region. -/
def ownerPoints (w : Windows) (lo hi : Nat) : List Nat :=
  let starts := (List.range (hi / 4096 - lo / 4096)).map fun k => (lo / 4096 + 1 + k) * 4096
  let fin := 0x1000000 + w.probe + w.probeLen
  lo :: starts ++ if lo < fin && fin ≤ hi then [fin] else []

/-- Every tile an interval touches outside the probe region is engine-owned (R159, R290). -/
def spanEngine (s : State) (w : Windows) (lo hi : Nat) : Bool :=
  (ownerPoints w lo hi).all fun a => (judgeEngine s w a).isSome

/-- An interval an engine may use (R290). -/
def spanOk (s : State) (w : Windows) (p : Int × Int) : Bool :=
  spanInRange w p.1 p.2 && spanEngine s w p.1.toNat p.2.toNat

/-- Two intervals have a byte in common (DEDUCED, notes/assumptions/18.md). -/
def spansMeet (p q : Int × Int) : Bool := p.1 ≤ q.2 && q.1 ≤ p.2

/-- The intervals of the rows of an indexed side, each judged by itself (R299). -/
def rowsOk (s : State) (w : Windows) (base : DWord) (s1 : BitVec 32) (idx : List Nat) (len : Nat) : Bool :=
  idx.all fun i =>
    let a := (wrap64 ((base.toNat : Int) + (i : Int) * strideOf s1) : Int)
    spanOk s w (a, a + len - 1)

/-- The scratchpad side of a command passes its check. -/
def Cmd.srcOk (s : State) (w : Windows) (c : Cmd) : Bool :=
  if c.kind = .cgath then rowsOk s w c.b.src c.b.ss1 c.idx c.b.len else spanOk s w c.srcSpan
def Cmd.dstOk (s : State) (w : Windows) (c : Cmd) : Bool :=
  if c.kind = .cscat then rowsOk s w c.b.dst c.b.ds1 c.idx c.b.len else spanOk s w c.dstSpan

/-! ### Parameter blocks -/

/-- The fields of a block (R281). -/
def blockOf (r : List Byte) : PBlock :=
  let f := fun o n => fieldAt r o n
  { ver := f 0 1, ssp := bit (f 1 1) 0, dsp := bit (f 1 1) 1, len := f 4 4
    src := BitVec.ofNat 64 (f 8 8), dst := BitVec.ofNat 64 (f 16 8), n1 := f 24 2, n2 := f 26 2
    ss1 := BitVec.ofNat 32 (f 32 4), ss2 := BitVec.ofNat 32 (f 36 4)
    ds1 := BitVec.ofNat 32 (f 40 4), ds2 := BitVec.ofNat 32 (f 44 4)
    aux := BitVec.ofNat 64 (f 48 8), aux2 := BitVec.ofNat 64 (f 56 8) }

/-- VER is 1 and the res0 fields are zero (R281). -/
def blockPlain (r : List Byte) : Bool :=
  fieldAt r 0 1 == 1 && fieldAt r 1 1 < 4 && fieldAt r 2 2 == 0 && fieldAt r 28 4 == 0

/-- LEN, N1 and N2 are in range (R281). -/
def PBlock.shaped (b : PBlock) : Bool := 1 ≤ b.len && b.len ≤ 2 ^ 24 && 1 ≤ b.n1 && 1 ≤ b.n2

/-- The cached bytes of a block (R283). -/
def cacheFind (c : Cluster) (part a : Nat) : Option (List Byte) :=
  (c.pbc.find? fun e => e.1 == part && e.2.1 == a).map fun e => e.2.2

/-- The cache after a command has used a block: the entry becomes the most recently used of sixteen (R283, R292). -/
def Cluster.useBlock (c : Cluster) (part a : Nat) (r : List Byte) : Cluster :=
  let hit := (cacheFind c part a).isSome
  { c with
    pbc := ((part, a, r) :: c.pbc.filter fun e => !(e.1 == part && e.2.1 == a)).take 16
    pbhit := c.pbhit + if hit then 1 else 0 }

/-- The bytes of a window address whatever their owner, if all are in range (R282). -/
def winRead (w : Windows) (s : State) (a n : Nat) : Option (List Byte) :=
  if (upFrom a n).all fun y => (homeIn w y).isSome then some (winBytes s w a n) else none

/-- The bytes of the block at a window address: from the cache, else from scratchpad (R283). -/
def blockBytes (s : State) (ck a : Nat) : Option (List Byte) :=
  match cacheFind (s.cluster (clusterOf (coreOf ck))) (s.ctx ck).part a with
  | some r => some r
  | none => winRead (s.windows ck) s a 64

/-! ### Acceptance -/

/-- The root that translates a context's commands (R38, R46). -/
def State.rootOf (s : State) (ck : Nat) : Nat :=
  if isControl (coreOf ck) then (s.ctx ck).root else taskRoot s (s.taskOf ck)

/-- The number of semaphores a context's commands may name: NSEM of its part, the 1,024 of its die on a control core
(R42, R369). -/
def State.semLimit (s : State) (ck : Nat) : Nat :=
  if isControl (coreOf ck) then 1024 else (s.entryOf (s.ctx ck).part).nsem

/-- SEM of a command is out of range (R303). -/
def semBad (s : State) (ck : Nat) (x : CExt) : Bool := x.sr && s.semLimit ck ≤ x.sem.toNat

/-- The command a copy instruction of the context in the latch stands for. -/
def State.newCmd (s : State) (kind : CmdKind) (x : CExt) : Cmd :=
  let ck := s.iss.ctx
  let cl := clusterOf (coreOf ck)
  { kind := kind, task := s.taskOf ck, part := (s.ctx ck).part, ctx := ck, q := s.iss.q, line := s.iss.line
    lane := s.iss.lane, engine := cl, home := homeOf cl, cx := complexOf cl, root := s.rootOf ck, droot := s.rootOf ck, x := x }

/-- The first check that fails, in order: its cause. -/
def firstBad : List (Bool × Nat) → Option Nat
  | [] => none
  | (b, c) :: r => if b then some c else firstBad r

/-- The core has as many requests outstanding as it may have (R181). -/
def atLimit (s : State) : Bool := 1024 ≤ outstanding s (coreOf s.iss.ctx)

/-- Accepts a command (R277): it becomes outstanding and its completion post is counted. -/
def acceptCmd (s : State) (c : Cmd) : Nat × State :=
  let (i, s) := s.fresh
  (i, (s.setCmd i c).countTok c.x.tok)

/-- Accepts a command whose device side crosses links and starts it (R276). -/
def startCmd (s : State) (c : Cmd) : State :=
  let (i, s) := acceptCmd s c
  startWalk s i

/-- The element size of an accumulate (R293). -/
def accSize (ty : Nat) : Nat := if ty = 1 then 8 else if ty = 3 then 2 else 4

/-- A value is a multiple of an element size. -/
def multOf (n : Nat) (v : Nat) : Bool := v % n == 0

/-- LEN, SRC, DST and the strides are multiples of an element size (R293). -/
def PBlock.elemAligned (b : PBlock) (n : Nat) : Bool :=
  multOf n b.len && multOf n b.src.toNat && multOf n b.dst.toNat &&
  [b.ss1, b.ss2, b.ds1, b.ds2].all fun v => multOf n v.toNat

/-- An interval lies in one in/out snapshot range (R296). -/
def inSnapshot (t : Task) (p : Int × Int) : Bool :=
  t.launch.snaps.any fun r => r.inout && (r.base : Int) ≤ p.1 && p.2 < (r.base : Int) + r.len

/-- A restartable task's read-modify-write of device memory leaves its snapshot ranges (R296). -/
def restartBad (s : State) (c : Cmd) (p : Int × Int) : Bool :=
  c.part != 0 && (s.task c.task).launch.restart && !inSnapshot (s.task c.task) p

/-- The fields a command of a pattern must leave zero, or must not use so (R290, R293, R299, R301). -/
def fieldsBad (c : Cmd) : Bool :=
  match c.kind with
  | .cacc | .caccf =>
    5 < c.op || (2 ≤ c.ty && 2 < c.op) || (c.kind == .cacc && c.b.aux != 0) || c.b.aux2 != 0
  | .cgath | .cscat => c.b.n2 != 1 || c.b.ss2 != 0 || c.b.ds2 != 0 || c.b.aux2 != 0
  | .cput => c.b.dsp || c.b.aux.toNat / 2 ^ 20 != 0 || c.b.aux2 != 0
  | _ => c.b.aux != 0 || c.b.aux2 != 0

/-- Element addresses a command leaves misaligned (R293, R299). -/
def elemsBad (c : Cmd) : Bool :=
  match c.kind with
  | .cacc => !c.b.elemAligned (accSize c.ty)
  | .caccf => !c.b.elemAligned (accSize c.ty) || !multOf (accSize c.ty) c.b.aux.toNat
  | .cgath | .cscat => !multOf 4 c.b.aux.toNat
  | _ => false

/-- A command of a pattern with the bytes of its block, and its indices if it has any (R299). -/
def Cmd.withBlock (c : Cmd) (s : State) (w : Windows) (r : List Byte) : Cmd :=
  let b := blockOf r
  let idx := if c.kind.indexed then (List.range b.n1).map fun i => leNat (winBytes s w (b.aux.toNat + 4 * i) 4) else []
  { c with b := b, idx := idx }

/-- The scratchpad sides of a command break R290, or its other operands R293 or R299. -/
def rangesBad (s : State) (w : Windows) (c : Cmd) : Bool :=
  (c.b.ssp && !c.srcOk s w) || (c.b.dsp && !c.dstOk s w) ||
  (c.b.ssp && c.b.dsp && spansMeet c.srcSpan c.dstSpan) ||
  match c.kind with
  | .caccf => !spanOk s w (c.b.aux.toNat, c.b.aux.toNat + c.total - 1)
  | .cgath | .cscat => !spanOk s w (c.b.aux.toNat, c.b.aux.toNat + 4 * c.b.n1 - 1)
  | _ => false

/-- The checks at acceptance of a command of a pattern, in the order of R303: a cause, or the command
(DEDUCED, notes/assumptions/24.md). -/
def judgePattern (s : State) (c : Cmd) (a : Nat) : Nat ⊕ (Cmd × List Byte) :=
  let w := s.windows c.ctx
  match (if a % 64 = 0 then blockBytes s c.ctx a else none) with
  | none => .inl (if a % 64 = 0 then cCopyRange else cMisaligned)
  | some r =>
    let c := c.withBlock s w r
    let acc := c.kind == .cacc || c.kind == .caccf
    match firstBad
      [(!blockPlain r || !c.b.shaped || semBad s c.ctx c.x || fieldsBad c, cCopyField),
       (elemsBad c, cMisaligned),
       (rangesBad s w c, cCopyRange),
       (acc && !c.b.dsp && restartBad s c c.dstSpan, cRestartRange)] with
    | some cause => .inl cause
    | none => .inr (c, r)

/-- Accepts and starts a command of a pattern (R277, R283). -/
def execPattern (h : Hdr) (c : Cmd) (s : State) : Res :=
  let a := s.iss.xa.toNat
  match judgePattern s c a with
  | .inl cause => .next (s.raise cause)
  | .inr (c, r) =>
    if atLimit s then .next s.notYet
    else
      let s := s.setCluster c.engine ((s.cluster c.engine).useBlock c.part a r)
      .next ((startCmd s c).finish h 4)

/-- CPY (R290). -/
def execCpy (h : Hdr) (_a : BitVec 5) (x : CExt) (s : State) : Res := execPattern h (s.newCmd .cpy x) s

/-- CACC (R293). -/
def execCacc (h : Hdr) (_a : BitVec 5) (x : CExt) (op : BitVec 3) (ty : BitVec 2) (s : State) : Res :=
  execPattern h { s.newCmd .cacc x with op := op.toNat, ty := ty.toNat } s

/-- CACCF (R293). -/
def execCaccf (h : Hdr) (_a : BitVec 5) (x : CExt) (op : BitVec 3) (ty : BitVec 2) (s : State) : Res :=
  execPattern h { s.newCmd .caccf x with op := op.toNat, ty := ty.toNat } s

/-- CGATH (R299). -/
def execCgath (h : Hdr) (_a : BitVec 5) (x : CExt) (s : State) : Res := execPattern h (s.newCmd .cgath x) s

/-- CSCAT (R299). -/
def execCscat (h : Hdr) (_a : BitVec 5) (x : CExt) (s : State) : Res := execPattern h (s.newCmd .cscat x) s

/-- CPUT (R301). -/
def execCput (h : Hdr) (_a : BitVec 5) (x : CExt) (pc : BitVec 6) (s : State) : Res :=
  execPattern h { s.newCmd .cput x with arg := pc.toNat } s

/-- CPYT (R291): a full timetable holds it; a time already reached issues it at once and counts in LATE. -/
def execCpyt (h : Hdr) (_a _b : BitVec 5) (x : CExt) (s : State) : Res :=
  let a := s.iss.xa.toNat
  match judgePattern s (s.newCmd .cpyt x) a with
  | .inl cause => .next (s.raise cause)
  | .inr (c, r) =>
    let cl := c.engine
    if atLimit s ∨ 256 ≤ (timetable s cl).length then .next s.notYet
    else
      let s := s.setCluster cl ((s.cluster cl).useBlock c.part a r)
      if s.iss.xb.toNat ≤ s.schedOf c.ctx then
        let s := s.setCluster cl { s.cluster cl with late := (s.cluster cl).late + 1 }
        .next ((startCmd s c).finish h 4)
      else
        let (_, s) := acceptCmd s { c with timed := true, w0 := s.iss.xb }
        .next (s.finish h 4)

/-- The size of a swap (R294). -/
def swapSize (sz : BitVec 1) : Nat := if sz = 0 then 4 else 8

/-- CSWP and CCAS (R294): the operand words are read at acceptance. -/
def execSwap (kind : CmdKind) (h : Hdr) (x : CExt) (sz sp : BitVec 1) (s : State) : Res :=
  let n := swapSize sz
  let ck := s.iss.ctx
  let w := s.windows ck
  let ta := s.iss.xa.toNat
  let ob := s.iss.xb.toNat
  let rd := s.iss.xd.toNat
  let on := if kind = .ccas then 2 * n else n
  let words := winRead w s ob on
  let c := { s.newCmd kind x with
    op := n, ty := sp.toNat, w0 := s.iss.xa, w1 := s.iss.xd
    idx := [leNat ((words.getD []).take n), leNat ((words.getD []).drop n)] }
  match firstBad
    [(semBad s ck x, cCopyField),
     (!multOf n ta || !multOf n ob || !multOf n rd, cMisaligned),
     (words.isNone || !spanOk s w (rd, rd + n - 1) || (sp == 1 && !spanOk s w (ta, ta + n - 1)), cCopyRange),
     (sp == 0 && restartBad s c (ta, ta + n - 1), cRestartRange)] with
  | some cause => .next (s.raise cause)
  | none => if atLimit s then .next s.notYet else .next ((startCmd s c).finish h 4)

/-- CSWP. -/
def execCswp (h : Hdr) (_d _a _b : BitVec 5) (x : CExt) (sz sp : BitVec 1) (s : State) : Res := execSwap .cswp h x sz sp s
/-- CCAS. -/
def execCcas (h : Hdr) (_d _a _b : BitVec 5) (x : CExt) (sz sp : BitVec 1) (s : State) : Res := execSwap .ccas h x sz sp s

/-- CPSM (R297). -/
def execCpsm (h : Hdr) (_a : BitVec 5) (x : CExt) (set : BitVec 5) (s : State) : Res :=
  let ck := s.iss.ctx
  let a := s.iss.xa.toNat
  let c := { s.newCmd .cpsm x with arg := set.toNat, w0 := s.iss.xa }
  match firstBad
    [(!isMatrix (coreOf ck) || semBad s ck x, cCopyField),
     (!multOf 256 a, cMisaligned),
     (!spanOk s (s.windows ck) (a, a + 2047), cCopyRange)] with
  | some cause => .next (s.raise cause)
  | none => if atLimit s then .next s.notYet else .next ((startCmd s c).finish h 4)

/-- The element size of the values of a walk (R298). -/
def walkSize (vsz : Nat) : Nat := if vsz = 0 then 4 else if vsz = 1 then 2 else 8

/-- Entry r of an array of a walk: n bytes from a base. -/
def walkRead (s : State) (c : Cmd) (base : DWord) (n r : Nat) : List Byte × Option (Nat × Nat) × State :=
  let a := wrap64 ((base.toNat : Int) + (n * r : Nat))
  if c.b.ssp then (winBytes s (windowsFor s c.part c.ctx) a n, none, portAsks s (windowsFor s c.part c.ctx) false a n)
  else dvaLoad s c.root a n

/-- The arrays of a walk in scratchpad are in range and engine-owned: the row pointers it reads, and the entries between
the first and the last of them (R303). -/
def walkOk (s : State) (w : Windows) (c : Cmd) (first last vsz : Nat) : Bool :=
  let rp := fun r => leNat (walkRead s c c.b.src 4 r).1
  let span := fun (base : DWord) (n lo hi : Nat) =>
    hi ≤ lo || spanOk s w ((base.toNat : Int) + (n * lo : Nat), (base.toNat : Int) + (n * hi : Nat) - 1)
  !c.b.ssp || first == last ||
    (span c.b.src 4 first (last + 1) && span c.b.aux 4 (rp first) (rp last) && span c.b.aux2 vsz (rp first) (rp last))

/-- CWALK (R298) (DEDUCED, notes/assumptions/16.md). -/
def execCwalk (h : Hdr) (_a _b : BitVec 5) (x : CExt) (qi qv : BitVec 6) (vsz : BitVec 2) (s : State) : Res :=
  let ck := s.iss.ctx
  let w := s.windows ck
  let a := s.iss.xa.toNat
  let first := bits s.iss.xb.toNat 0 32
  let last := bits s.iss.xb.toNat 32 32
  let v := walkSize vsz.toNat
  match (if a % 64 = 0 then blockBytes s ck a else none) with
  | none => .next (s.raise (if a % 64 = 0 then cCopyRange else cMisaligned))
  | some r =>
    let b := blockOf r
    let c := { s.newCmd .cwalk x with
      b := b, op := qi.toNat, ty := qv.toNat, arg := v, w0 := BitVec.ofNat 64 last, row := first
      w1 := BitVec.ofNat 64 first }
    let ri := s.ring (s.myPcore ck) qi.toNat
    let rv := s.ring (s.myPcore ck) qv.toNat
    let plain := blockPlain r && b.len == 0 && b.dst == 0 && b.n1 == 0 && b.n2 == 0 && !b.dsp &&
      b.ss1 == 0 && b.ss2 == 0 && b.ds1 == 0 && b.ds2 == 0
    match firstBad
      [(profileOf (coreOf ck) != .gather || !plain || semBad s ck x || last < first ||
          256 * ri.ssz / 4 != 256 * rv.ssz / v, cCopyField),
       (ri.nslot == 0 || rv.nslot == 0, cRingField),
       (!ri.produces || !rv.produces, cRingEnd),
       (!walkOk s w c first last v, cCopyRange)] with
    | some cause => .next (s.raise cause)
    | none =>
      if atLimit s then .next s.notYet
      else
        let s := s.setCluster c.engine ((s.cluster c.engine).useBlock c.part a r)
        .next ((startCmd s c).finish h 4)

/-! ### PBINV -/

/-- PBINV (R284). -/
def execPbinv (h : Hdr) (_a : BitVec 5) (s : State) : Res :=
  let cl := clusterOf (coreOf s.iss.ctx)
  let c := s.cluster cl
  let mine := fun (e : Nat × Nat × List Byte) => e.1 == s.cc.part && e.2.1 == s.iss.xa.toNat
  .next ((s.setCluster cl { c with pbc := c.pbc.filter fun e => !mine e }).finish h 4)

/-- PBINV.ALL (R284). -/
def execPbinvAll (h : Hdr) (s : State) : Res :=
  let cl := clusterOf (coreOf s.iss.ctx)
  let c := s.cluster cl
  .next ((s.setCluster cl { c with pbc := c.pbc.filter fun e => e.1 != s.cc.part }).finish h 4)

/-! ### OWN and TMOV -/

/-- The tiles of base to base + len - 1 lie in the unit or the cluster partition, outside the probe region (R163). -/
def ownOk (w : Windows) (base len : Nat) : Bool :=
  spanInRange w base (base + len - 1 : Nat) && base < 0x2000000 &&
    (w.probeLen == 0 || !spansMeet (base, (base + len - 1 : Nat))
      ((0x1000000 + w.probe : Nat), (0x1000000 + w.probe + w.probeLen - 1 : Nat)))

/-- The cause OWN raises, if any (R163). -/
def ownCause (s : State) : Option Nat :=
  let base := s.iss.xa.toNat
  let len := s.iss.xb.toNat
  if base % 4096 ≠ 0 ∨ len % 4096 ≠ 0 then some cMisaligned
  else if !ownOk (s.windows s.iss.ctx) base len then some cOwnRange
  else none

/-- A completion token posted at acceptance (R103): the command is complete then. -/
def tokAtOnce (s : State) (tok : BitVec 1) : State :=
  if tok = 0 then s
  else (s.countTok true).afterClk (clusterOf (coreOf s.iss.ctx)) 4 .instructionComplete { a := s.iss.ctx, q := s.iss.q, g := true }

/-- OWN.E (R163): the tiles become the engine's at acceptance. -/
def execOwnE (h : Hdr) (_a _b : BitVec 5) (t : BitVec 1) (s : State) : Res :=
  let len := s.iss.xb.toNat
  if len = 0 then .next ((tokAtOnce s t).finish h 4)
  else
    match ownCause s with
    | some c => .next (s.raise c (if c = cMisaligned then s.iss.xa else 0))
    | none =>
      let s := setOwner s (s.windows s.iss.ctx) true s.iss.xa.toNat (len / 4096)
      .next ((tokAtOnce s t).finish h 4)

/-- The extension of a command that has none. -/
def tokExt (t : BitVec 1) : CExt := ⟨false, false, t == 1, false, 0⟩

/-- OWN.C (R163): it enters the engine's command order. -/
def execOwnC (h : Hdr) (_a _b : BitVec 5) (t : BitVec 1) (s : State) : Res :=
  let len := s.iss.xb.toNat
  if len = 0 then .next ((tokAtOnce s t).finish h 4)
  else
    match ownCause s with
    | some c => .next (s.raise c (if c = cMisaligned then s.iss.xa else 0))
    | none =>
      if atLimit s then .next s.notYet
      else
        let (i, s) := acceptCmd s { s.newCmd .ownc (tokExt t) with w0 := s.iss.xa, w1 := s.iss.xb }
        .next ((s.later .tileMoveComplete { a := i }).finish h 4)

/-- The shape of a TMOV as a block: addresses, counts and strides in bytes (R164). -/
def tmovBlock (s : State) : PBlock :=
  let a := s.iss.xa.toNat
  let b := s.iss.xb.toNat
  let d := s.iss.xd.toNat
  let st := fun lo => BitVec.ofNat 32 (256 * bits d lo 16)
  { ssp := true, dsp := true, len := 256 * bits b 0 12, n1 := bits b 12 12, n2 := bits b 24 12
    src := BitVec.ofNat 64 (bits a 0 32), dst := BitVec.ofNat 64 (bits a 32 32)
    ss1 := st 0, ds1 := st 16, ss2 := st 32, ds2 := st 48 }

/-- The first 256-byte block of an interval an engine may not use (R164). -/
def firstBadBlock (s : State) (w : Windows) (lo n : Nat) : Option Nat :=
  ((List.range n).map fun k => lo + 256 * k).find? fun a => (judgeEngine s w a).isNone

/-- TMOV_RANGE (R164): the first offending byte of the source range, then of the destination range, then the first byte
the two have in common. -/
def tmovRange (s : State) (w : Windows) (b : PBlock) : Option Nat :=
  let span := fun (base : DWord) (s1 s2 : BitVec 32) =>
    (base.toNat, ((b.n2 - 1) * s2.toNat + (b.n1 - 1) * s1.toNat + b.len) / 256)
  let (sl, sn) := span b.src b.ss1 b.ss2
  let (dl, dn) := span b.dst b.ds1 b.ds2
  match firstBadBlock s w sl sn with
  | some a => some a
  | none =>
    match firstBadBlock s w dl dn with
    | some a => some a
    | none => if overlap' sl (256 * sn) dl (256 * dn) then some (max sl dl) else none
where
  overlap' (a m b n : Nat) : Bool := a < b + n && b < a + m

/-- TMOV (R164). -/
def execTmov (h : Hdr) (_d _a _b : BitVec 5) (t : BitVec 1) (s : State) : Res :=
  let b := tmovBlock s
  if b.len = 0 ∨ b.n1 = 0 ∨ b.n2 = 0 ∨ s.iss.xb.toNat / 2 ^ 36 ≠ 0 then .next (s.raise cTmovShape)
  else if b.src.toNat % 256 ≠ 0 ∨ b.dst.toNat % 256 ≠ 0 then .next (s.raise cMisaligned)
  else
    match tmovRange s (s.windows s.iss.ctx) b with
    | some a => .next (s.raise cTmovRange (BitVec.ofNat 64 a))
    | none =>
      if atLimit s then .next s.notYet
      else
        let (i, s) := acceptCmd s { s.newCmd .tmov (tokExt t) with b := b }
        .next ((s.later .tileMoveComplete { a := i }).finish h 4)

/-! ### The order of a stream -/

/-- The kinds that belong to a stream (R375). -/
def CmdKind.streamed : CmdKind → Bool
  | .fill | .line | .fload | .sink => false
  | _ => true

/-- The stream of a command (R278): its context's, its sequencer's, or its own for a COPY node. -/
def Cmd.stream (c : Cmd) (i : Nat) : Nat :=
  match c.kind with
  | .record => 2 ^ 70 + c.part
  | .node => 2 ^ 71 + i
  | _ => 2048 * c.part + c.ctx

/-- The commands of a stream accepted before a command and not complete. -/
def earlierIn (s : State) (i : Nat) (c : Cmd) : List Cmd :=
  (s.cmds.filter fun e => e.1 < i && e.2.kind.streamed && e.2.stream e.1 == c.stream i).map Prod.snd

/-- A run of bytes a command touches: address, length, whether it writes, and the root that translates it; or a run of
window addresses of its context. -/
structure Touch where
  a : Nat
  n : Nat
  write : Bool
  root : Nat
  scratch : Bool := false
  deriving DecidableEq, Repr

/-- The rows, or parts of rows, of offsets e to e + n - 1. The fuel bounds the rows. -/
def rowPieces (len : Nat) : Nat → Nat → Nat → List (Nat × Nat)
  | 0, _, _ => []
  | _ + 1, _, 0 => []
  | fuel + 1, e, n =>
    let k := min n (len - e % len)
    (e, k) :: rowPieces len fuel (e + k) (n - k)

/-- The kinds of accumulate-on-write, whose elements keep acceptance order on every page and in scratchpad (R295). -/
def CmdKind.atPort : CmdKind → Bool
  | .cacc | .caccf | .cswp | .ccas => true
  | _ => false

/-- The bytes of offsets e to e + n - 1 of a command of a pattern that an order can concern: its device bytes, and the scratchpad
elements it updates at their port (R295). A put's destination is ordered by REL and ACQ only (R301). -/
def patTouches (c : Cmd) (e n : Nat) : List Touch :=
  (rowPieces c.b.len (n + 1) e n).flatMap fun (e, k) =>
    (if c.b.ssp then [] else [⟨c.srcAt e, k, false, c.root, false⟩]) ++
    (if c.kind == .cput then []
     else if !c.b.dsp then [⟨c.dstAt e, k, true, c.droot, false⟩]
     else if c.kind.atPort then [⟨c.dstAt e, k, true, 0, true⟩] else [])

/-- The size of an element of an H command (R349): TY 0 to 2 have 4 bytes. -/
def hSize (ty : Nat) : Nat := if ty < 3 then 4 else 2

/-- The device bytes an H command still touches, as intervals (R350, R384). -/
def hTouches (s : State) (c : Cmd) : List Touch :=
  let t := fun (a : Nat) n w => (⟨a, n, w, c.root, false⟩ : Touch)
  let src := c.b.src.toNat
  let dst := c.b.dst.toNat
  match c.kind with
  | .hscan => [t src c.b.len false, t dst (64 + 16 * c.b.aux.toNat) true]
  | .hgath =>
    let idx := (dvaLoad s c.root c.b.aux.toNat (4 * c.b.aux2.toNat)).1
    t c.b.aux.toNat (4 * c.b.aux2.toNat) false :: t dst (c.b.len * c.b.aux2.toNat) true ::
      (List.range (idx.length / 4)).map fun i => t (wrap64 (src + fieldAt idx (4 * i) 4 * c.b.len : Nat)) c.b.len false
  | .hred =>
    t dst c.b.len true ::
      (List.range c.b.aux.toNat).map fun (j : Nat) => t (wrap64 (src + (j : Int) * c.b.aux2.toInt)) c.b.len false
  | .hcvt =>
    let kb := if (if c.op = 0 then bits c.w0.toNat 0 4 == 1 else !bit c.w0.toNat 8) then 112 else 56
    let elems := hSize (if c.ty = 0 then 0 else 3) * kb * c.b.len
    (if c.w1 = 0 then [] else [t c.w1.toNat 8 true]) ++
      if c.op = 0 then [t src elems false, t dst (64 * c.b.len) true]
      else [t src (64 * c.b.len) false, t dst elems true]
  | _ => []

/-- The device bytes a walk still reads (R298): row pointers, and the entries from its place to the last row's end. -/
def walkTouches (s : State) (c : Cmd) : List Touch :=
  let rp := fun r => leNat (walkRead s c c.b.src 4 r).1
  let lo := rp c.row + c.slot
  let n := rp c.w0.toNat - lo
  let t := fun (base : DWord) k j m => (⟨wrap64 ((base.toNat : Int) + (k * j : Nat)), k * m, false, c.root, false⟩ : Touch)
  if c.b.ssp then [] else [t c.b.src 4 c.row (c.w0.toNat + 1 - c.row), t c.b.aux 4 lo n, t c.b.aux2 c.arg lo n]

/-- The element a swap updates (R294). -/
def swapTouch (c : Cmd) : Touch := ⟨c.w0.toNat, c.op, true, if c.ty = 0 then c.root else 0, c.ty != 0⟩

/-- The bytes a command still touches that an order can concern. -/
def Cmd.touches (s : State) (c : Cmd) : List Touch :=
  match c.kind with
  | .cpy | .cpyt | .cacc | .caccf | .cgath | .cscat | .cput | .record | .node => patTouches c c.reached (c.total - c.reached)
  | .cswp | .ccas => [swapTouch c]
  | .cwalk => walkTouches s c
  | .hscan | .hgath | .hred | .hcvt => hTouches s c
  | .cpsm | .tmov | .ownc | .fill | .fload | .line | .sink => []

/-- ORD of the pages of a run (R176): none for a page that does not translate. Scratchpad has none of the kinds: it orders
nothing here. -/
def Touch.ords (s : State) (t : Touch) : List (Option Nat) :=
  if t.scratch then [some 0]
  else
    let starts := t.a :: ((List.range (t.n / 0x10000 + 1)).map fun k => (t.a / 0x10000 + 1 + k) * 0x10000).filter
      fun a => a < t.a + t.n
    starts.map fun a =>
      match walk s t.root a t.write with
      | .inl _ => none
      | .inr p => some p.ord

/-- A run lies on a strongly ordered page, or on a page that does not translate (R179, R380). -/
def Touch.strong (s : State) (t : Touch) : Bool := (t.ords s).any fun o => o == some 2 || o == none

/-- The device physical addresses of two runs meet: one byte can have two device virtual addresses. -/
def sameBytes (s : State) (t u : Touch) : Bool :=
  (runs s t.root t.write t.a t.n).1.any fun p => (runs s u.root u.write u.a u.n).1.any fun q =>
    p.1 < q.1 + q.2 && q.1 < p.1 + p.2

/-- Two runs meet where one of them writes. -/
def Touch.meets (s : State) (t u : Touch) : Bool :=
  t.scratch == u.scratch && (t.write || u.write) &&
  ((t.root == u.root && t.a < u.a + u.n && u.a < t.a + t.n) || (!t.scratch && sameBytes s t u))

/-- A piece of a command may be performed now (R179, R287, R295, R380): a strongly ordered one waits behind the earlier ones of
its stream and behind every earlier parked command. -/
def mayPerform (s : State) (i : Nat) (c : Cmd) (ts : List Touch) : Bool :=
  let es := earlierIn s i c
  !(c.x.rel && !es.isEmpty) && !es.any (fun e => e.x.acq) &&
  (!ts.any (fun t => (t.ords s).any (· == some 2)) ||
    !es.any fun e => e.parked.isSome || (e.touches s).any (Touch.strong s)) &&
  !ts.any fun t => es.any fun e => (e.touches s).any fun u =>
    t.meets s u && ((c.kind.atPort && e.kind.atPort) || (t.ords s).any (· != some 0))

/-- The walks of a run read an entry by reconstruction in whose stripe a write is in progress (R337). -/
def walksBusy (s : State) (t : Touch) : Bool :=
  (walkReads s t.root t.a t.n).any fun e => e.1 < dataEnd && erased s (stripeMap e.1).z (stripeMap e.1).s (stripeMap e.1).o &&
    stripeBusy s 0 false { dpa := e.1 }

/-- A stripe a run writes, or reads by reconstruction, has a write in progress (R337). -/
def stripesBusy (s : State) (t : Touch) : Bool :=
  !t.scratch && (walksBusy s t || (runs s t.root t.write t.a t.n).1.any fun (d, k) =>
    (List.range (k / 1024 + 2)).any fun j =>
      let a := (d / 1024 + j) * 1024
      a < d + k && a < dataEnd &&
        (t.write || (s.stack (stripeMap a).z).lost || unitBad s (stripeMap a).z (stripeMap a).s) &&
        stripeBusy s 0 false { dpa := a })

/-! ### Performing bytes -/

/-- What performing has come to: the state, the bytes performed, and the failure. -/
structure Adv where
  s : State
  n : Nat := 0
  bad : Option (Nat × Nat) := none

/-- Writes a full stripe (R339): the eleven units and the parity, without reading them. -/
def putStripe (s : State) (w : StripeWrite) : State :=
  let u := w.stripe
  let p := u % 12
  let par := (List.range 11).foldl (fun a k => List.zipWith (· ^^^ ·) a (unitOfWrite w k)) (List.replicate 1024 0)
  let s := (List.range 11).foldl (fun s k => writeUnit s (if k < p then k else k + 1) u (unitOfWrite w k)) s
  writeUnit s p u par

/-- The pieces of a run as they are written: with two stacks lost no stripe is written whole, since every write to a data unit
of a lost stack fails (R346). -/
def piecesFor (s : State) (ws : List StripeWrite) : List StripeWrite :=
  if ((List.range 12).filter fun z => (s.stack z).lost).length < 2 then ws
  else ws.flatMap fun w =>
    if !w.full then [w]
    else (List.range 11).map fun k => { dpa := w.dpa + 1024 * k, bytes := unitOfWrite w k }

/-- Writes the pieces of a run of data bytes, the device virtual address of the first being a (R338, R339). -/
def putPieces : State → Nat → Nat → List StripeWrite → Adv
  | s, _, n, [] => ⟨s, n, none⟩
  | s, a, n, w :: r =>
    if w.full then putPieces (putStripe s w) (a + w.bytes.length) (n + w.bytes.length) r
    else
      let t := stripeMap w.dpa
      let n' := w.bytes.length
      let s := parityRead (readUnit s t.z t.s t.o n') w.dpa n'
      if parityBad s t n' then ⟨s, n, some (cMemUnrecov, a)⟩
      else
        let p := devPuts s w.dpa 0 w.bytes
        match p.bad with
        | some c => ⟨p.s, n + p.n, some (c, a + p.n)⟩
        | none => putPieces p.s (a + p.n) (n + p.n) r

/-- Writes bytes to a run of device physical addresses. -/
def putRun (s : State) (a d : Nat) (bs : List Byte) : Adv :=
  let data := bs.take (dataEnd - d)
  let r := putPieces s a 0 (piecesFor s (splitWrite (data.length + 1) d data))
  match r.bad with
  | some _ => r
  | none =>
    let rest := bs.drop (dataEnd - d)
    let p := devStore r.s (d + data.length) rest
    ⟨p.s, r.n + p.n, p.bad.map fun c => (c, a + r.n + p.n)⟩

/-- Writes bytes to runs of device physical addresses, those of the device virtual address a on. -/
def putRuns : State → Nat → Nat → List (Nat × Nat) → List Byte → Adv
  | s, _, n, [], _ => ⟨s, n, none⟩
  | s, a, n, (d, k) :: r, bs =>
    let p := putRun s a d (bs.take k)
    match p.bad with
    | some e => ⟨p.s, n + p.n, some e⟩
    | none => putRuns p.s (a + k) (n + p.n) r (bs.drop k)

/-- Stores bytes at a device virtual address as a command does. -/
def dvaPut (s : State) (root a : Nat) (bs : List Byte) : Adv :=
  let (rs, e) := runs s root true a bs.length
  let r := putRuns (notePages s root a bs.length) a 0 rs bs
  { r with bad := r.bad.orElse fun _ => e }

/-- A window byte of a buffer die's SRAM holds an uncorrectable error (R343). -/
def winBad (s : State) (w : Windows) (a : Nat) : Bool :=
  match homeIn w a with
  | none => false
  | some k =>
    let pos := (k - 2 ^ 40) / 2 ^ 30
    2 ^ 40 ≤ k && k < 2 ^ 41 && kindOf pos == 4 && (s.die pos).sbad.contains (k % 2 ^ 30 / 64)

/-- The bytes of a side: window bytes whatever their owner, or device bytes, up to a failure. -/
def sideRead (s : State) (w : Windows) (scratch : Bool) (root a n : Nat) : List Byte × Option (Nat × Nat) × State :=
  if scratch then
    match (upFrom a n).find? (winBad s w) with
    | none => (winBytes s w a n, none, portAsks s w false a n)
    | some y => (winBytes s w a (y - a), some (cMemUnrecov, y), s)
  else dvaLoad s root a n

/-- The lines of a buffer die's SRAM that a window run writes whole hold no error any more (R343). -/
def winWritten (s : State) (w : Windows) (a n : Nat) : State :=
  match homeIn w a with
  | none => s
  | some k =>
    let pos := (k - 2 ^ 40) / 2 ^ 30
    if 2 ^ 40 ≤ k ∧ k < 2 ^ 41 ∧ kindOf pos = 4 then sramWritten s pos (k % 2 ^ 30) n else s

/-- Stores the bytes of a side. -/
def sideWrite (s : State) (w : Windows) (scratch : Bool) (root a : Nat) (bs : List Byte) : Adv :=
  if scratch then ⟨winWritten (winStore s w a bs) w a bs.length, bs.length, none⟩ else dvaPut s root a bs

/-- The source bytes of a piece: those it has read already, then those it reads now. -/
def Cmd.source (c : Cmd) (s : State) (w : Windows) (e n : Nat) : List Byte × Option (Nat × Nat) × State :=
  let k := (c.got.drop (e - c.reached)).take n
  if k.length = n then (k, none, s)
  else
    let (bs, bad, s) := sideRead s w c.b.ssp c.root (c.srcAt (e + k.length)) (n - k.length)
    (k ++ bs, bad, s)

/-- Performs the n bytes of a piece of a row from offset e on. -/
def movePiece (s : State) (w : Windows) (c : Cmd) (e n : Nat) : Adv :=
  let (bs, bad, s) := c.source s w e n
  let r := sideWrite s w c.b.dsp c.droot (c.dstAt e) bs
  { r with bad := r.bad.orElse fun _ => bad }

/-- Performs pieces in ascending offset until one fails (R286) (DEDUCED, notes/assumptions/82.md). -/
def movePieces (w : Windows) (c : Cmd) : List (Nat × Nat) → Adv → Adv
  | [], r => r
  | (e, n) :: ps, r =>
    match r.bad with
    | some _ => r
    | none =>
      let p := movePiece r.s w c e n
      movePieces w c ps { p with n := r.n + p.n }

/-- The windows a command's scratchpad side is in. -/
def Cmd.windows (s : State) (c : Cmd) : Windows :=
  if c.kind = .record then { windowsOf s c.part 0 with unitLen := 0, clusLen := 0
                                                       die := dieKey (s.part c.part).pos (s.place c.part).dbase }
  else windowsFor s c.part c.ctx

/-- The row offsets at which a full stripe begins in the row a byte of a command lies in (R339). -/
def fullSpans (s : State) (c : Cmd) (e : Nat) : List Nat :=
  let row := e / c.b.len * c.b.len
  let (_, out) := (runs s c.droot true (c.dstAt row) c.b.len).1.foldl (fun (p : Nat × List Nat) (d, k) =>
    let first := (stripeBytes - d % stripeBytes) % stripeBytes
    let n := if d + k ≤ dataEnd then (k - first) / stripeBytes else 0
    (p.1 + k, p.2 ++ (List.range n).map fun j => p.1 + first + stripeBytes * j)) (0, [])
  out.map fun o => row + o

/-- A device byte lies in the lines of a routine that runs (R89). -/
def inRoutine (s : State) (root a : Nat) : Bool :=
  match walk s root a true with
  | .inl _ => false
  | .inr p => s.ctxs.any fun e =>
    isControl (coreOf e.1) && (e.2.run == .running || e.2.run == .draining) &&
      (runs s e.2.root false e.2.base 0x40000).1.any fun (d, k) => d ≤ p.dpa && p.dpa < d + k

/-- A command may be interrupted before byte e: no aligned eight-byte word of device memory, no line of a routine that runs and
no full stripe is cut (R89, R339, R377). -/
def mayCut (s : State) (c : Cmd) (e : Nat) : Bool :=
  let line := c.dstAt e != c.dstAt (e - 1) + 1 || c.dstAt e % 32 == 0 || !inRoutine s c.droot (c.dstAt e)
  let word := fun (f : Nat → Nat) => f e != f (e - 1) + 1 || f e % 8 == 0
  (c.b.ssp || word c.srcAt) && (c.b.dsp || (word c.dstAt && line)) &&
  (c.b.dsp || (fullSpans s c (e - 1)).all fun o => e ≤ o || o + stripeBytes ≤ e)

/-- The first offset from e on at which a command may be interrupted, or its end. -/
def cutFrom (s : State) (c : Cmd) (e : Nat) : Nat → Nat
  | 0 => e
  | fuel + 1 => if mayCut s c e then e else cutFrom s c (e + 1) fuel

/-- The offsets from e to e + n - 1 at which a side of a command comes to another page. -/
def pageStarts (c : Cmd) (e n : Nat) : List Nat :=
  (rowPieces c.b.len (n + 1) e n).flatMap fun (o, k) =>
    o :: [c.srcAt o, c.dstAt o].flatMap fun a =>
      ((List.range (k / 0x10000 + 1)).map fun j => o + (0x10000 - a % 0x10000) + 0x10000 * j).filter (· < o + k)

/-- The byte of an offset lies, on either side, on a strongly ordered page or on one that does not translate. -/
def strongAt (s : State) (c : Cmd) (e : Nat) : Bool := (patTouches c e 1).any (Touch.strong s)

/-- The end of the piece of a command that begins at offset e, at most n bytes on: a command is split where it comes to a page
of another order (R286, R383), and where a run performed ahead begins. -/
def pieceEnd (s : State) (c : Cmd) (e n : Nat) : Nat :=
  (((pageStarts c e n).filter fun o => strongAt s c o != strongAt s c e) ++ c.ahead.map Prod.fst).foldl
    (fun m o => if e < o then min m o else m) (e + n)

/-- How far a command goes in one step from an offset: the spec fixes no pace, so the number of bytes is free. -/
def cutOf (s : State) (c : Cmd) (e : Nat) : Nat :=
  let o := e + 1 + Config.latency s.free
  pieceEnd s c e ((if c.total ≤ o then c.total else cutFrom s c o (c.total - o)) - e)

/-- How far a command goes in one step. -/
def nextCut (s : State) (c : Cmd) : Nat := cutOf s c c.reached

/-- The bytes of a command performed in one step from an offset (DESIGN CHOICE, notes/assumptions/11.md). -/
def moveFrom (s : State) (c : Cmd) (e : Nat) : Adv :=
  let n := cutOf s c e - e
  let r := movePieces (c.windows s) c (rowPieces c.b.len (n + 1) e n) ⟨s, 0, none⟩
  { r with s := { r.s with free := r.s.free + 1 } }

/-- The bytes a command performs next. -/
def moveOn (s : State) (c : Cmd) : Adv := moveFrom s c c.reached

/-- A command has met a failure: a translation fault parks it, anything else ends it with error (R179, R288). -/
def failCmd (s : State) (i : Nat) (bad : Nat × Nat) : State :=
  if bad.1 / 64 = 5 then s.park i bad.1 bad.2
  else
    (s.setCmd i { s.cmd i with err := bad.1, errDva := bad.2 }).after 0 .copyErrorComplete { a := i }

/-! ### Accumulate-on-write -/

/-- Op of R293 on patterns of esz bytes. -/
def accOp (op ty old src : Nat) : Nat :=
  let n := 8 * accSize ty
  if 2 ≤ ty then
    let f := if ty = 2 then fp32 else bf16
    match op with
    | 0 => (fAdd f old src).1
    | 1 => fMax f old src
    | _ => fMin f old src
  else
    match op with
    | 0 => (old + src) % 2 ^ n
    | 1 => if sgn n old < sgn n src then src else old
    | 2 => if sgn n src < sgn n old then src else old
    | 3 => old &&& src
    | 4 => old ||| src
    | _ => old ^^^ src

/-- One element of a command applied at its destination port (R293, R294): the old value and the state. -/
structure Port where
  s : State
  old : Nat := 0
  bad : Option (Nat × Nat) := none

/-- Reads, combines and writes n bytes at an address of a side. -/
def applyAt (s : State) (w : Windows) (scratch : Bool) (root a n : Nat) (f : Nat → Nat) : Port :=
  match sideRead s w scratch root a n with
  | (_, some e, s) => ⟨s, 0, some e⟩
  | (bs, none, s) =>
    let old := leNat bs
    let r := sideWrite s w scratch root a (leBytes n (f old))
    ⟨r.s, old, r.bad⟩

/-- The next element of CACC or CACCF. -/
def accElement (s : State) (c : Cmd) : Port :=
  let w := c.windows s
  let n := accSize c.ty
  match sideRead s w c.b.ssp c.root (c.srcAt c.reached) n with
  | (_, some e, s) => ⟨s, 0, some e⟩
  | (bs, none, s) =>
    let p := applyAt s w c.b.dsp c.droot (c.dstAt c.reached) n fun old => accOp c.op c.ty old (leNat bs)
    if c.kind = .caccf ∧ p.bad.isNone then
      { p with s := winStore p.s w (c.b.aux.toNat + c.reached) (leBytes n p.old) }
    else p

/-- The element of CSWP or CCAS. -/
def swapElement (s : State) (c : Cmd) : Port :=
  let w := c.windows s
  let x := c.idx.getD 0 0
  let f := fun old => if c.kind = .cswp then x else if old = x then c.idx.getD 1 0 else old
  let p := applyAt s w (c.ty == 1) c.root c.w0.toNat c.op f
  if p.bad.isNone then { p with s := winStore p.s w c.w1.toNat (leBytes c.op p.old) } else p

/-- The device bytes of a command's next element. -/
def elemTouches (c : Cmd) : List Touch :=
  if c.kind = .cswp ∨ c.kind = .ccas then [swapTouch c]
  else patTouches c c.reached (accSize c.ty)

/-- A command that waits is tried again in the next tick. -/
def tryAgain (s : State) (ev : Instr) (i : Nat) : State := s.after 1 ev { a := i }

/-- ACCUMULATE_APPLY (R293 to R295): the latch names the command, whose next element is applied. -/
def execAccumulateApply (s : State) : Res :=
  let i := s.ev.a
  let c := s.cmd i
  if (fget? s.cmds i).isNone ∨ !c.kind.atPort ∨ c.parked.isSome ∨ c.err ≠ 0 then .fault .notEnabled
  else if !mayPerform s i c (elemTouches c) || (elemTouches c).any (stripesBusy s) then
    .next (tryAgain s .accumulateApply i)
  else
    let swap := c.kind == .cswp || c.kind == .ccas
    let p := if swap then swapElement s c else accElement s c
    match p.bad with
    | some e => .next (failCmd p.s i e)
    | none =>
      let c := { c with reached := c.reached + (if swap then c.op else accSize c.ty), ready := true }
      let s := p.s.setCmd i c
      if swap ∨ c.total ≤ c.reached then .next (s.later .copyComplete { a := i })
      else .next (s.after 1 .accumulateApply { a := i })

/-! ### Walks -/

/-- The entries of one slot of a walk: the state after their reads, indices and values, the position after them, and how it
ended. -/
structure WalkRun where
  s : State
  es : List (Nat × Nat) := []
  row : Nat
  off : Nat
  done : Bool := false
  bad : Option (Nat × Nat) := none

/-- The next n entries of a walk from a row and an entry of it (R298). -/
def walkEntries (s : State) (c : Cmd) : Nat → Nat → Nat → List (Nat × Nat) → WalkRun
  | 0, row, off, es => { s := s, es := es, row := row, off := off, done := row == c.w0.toNat }
  | n + 1, row, off, es =>
    let stop := fun s bad => ({ s := s, es := es, row := row, off := off, bad := some bad } : WalkRun)
    if row = c.w0.toNat then { s := s, es := es, row := row, off := off, done := true }
    else
      match walkRead s c c.b.src 4 row with
      | (_, some e, s) => stop s e
      | (a, none, s) =>
        match walkRead s c c.b.src 4 (row + 1) with
        | (_, some e, s) => stop s e
        | (b, none, s) =>
          if leNat b < leNat a then stop s (cWalkOrder, 0)
          else if leNat a + off < leNat b then
            match walkRead s c c.b.aux 4 (leNat a + off) with
            | (_, some e, s) => stop s e
            | (ci, none, s) =>
              match walkRead s c c.b.aux2 c.arg (leNat a + off) with
              | (_, some e, s) => stop s e
              | (v, none, s) => walkEntries s c n row (off + 1) (es ++ [(leNat ci, leNat v)])
          else walkEntries s c n (row + 1) 0 (es ++ [(0xFFFFFFFF, 0)])

/-- Entries a walk has pushed are written into the slots it has claimed, from place k of a slot on; with the first of them
the slots are claimed (R298). -/
def pushEntries (s : State) (c : Cmd) (k : Nat) (es : List (Nat × Nat)) : State :=
  let pk := pcoreKey c.part (physOf (coreOf c.ctx))
  let put := fun (s : State) (q size : Nat) (bs : List Byte) =>
    let r := s.ring pk q
    let s := engineStoreFor s c.part c.ctx c.q (r.slot (r.tail + r.fill + r.clm - b2n (k != 0)) + size * k) bs
    if k = 0 then s.setRing pk q (s.ring pk q).claim else s
  if es.isEmpty then s
  else
    let s := put s c.op 4 (es.flatMap fun e => leBytes 4 e.1)
    put s c.ty c.arg (es.flatMap fun e => leBytes c.arg e.2)

/-- CWALK_SLOT_FILL (R298): the latch names the walk. With a free slot in both rings, the entries of the next slots are pushed
and the slots committed once they are full; the last open slots are padded. A walk that is stopped within a slot keeps what
it has pushed there. -/
def execCwalkSlotFill (s : State) : Res :=
  let i := s.ev.a
  let c := s.cmd i
  let core := physOf (coreOf c.ctx)
  let pk := pcoreKey c.part core
  let ri := s.ring pk c.op
  let rv := s.ring pk c.ty
  let n := 256 * ri.ssz / 4
  let k := c.ent % n
  let ts := c.touches s
  if (fget? s.cmds i).isNone ∨ c.kind ≠ .cwalk ∨ c.parked.isSome ∨ c.err ≠ 0 then .fault .notEnabled
  else if c.row = c.w0.toNat then .next (s.later .copyComplete { a := i })
  else if (k = 0 ∧ (ri.free = 0 ∨ rv.free = 0)) ∨ !mayPerform s i c ts || ts.any (stripesBusy s) then
    .next (tryAgain s .cwalkSlotFill i)
  else
    let r := walkEntries s c (n - k) c.row c.slot []
    let s := r.s
    let at_ := { c with row := r.row, slot := r.off, ent := c.ent + r.es.length, reached := c.ent + r.es.length, ready := true }
    match r.bad with
    | some bad => .next (failCmd ((pushEntries s c k r.es).setCmd i at_) i bad)
    | none =>
      let s := pushEntries s c k (r.es ++ List.replicate (n - k - r.es.length) (0xFFFFFFFF, 0))
      let s := ringCommit s c.part core c.op 1
      let s := ringCommit s c.part core c.ty 1
      .next ((s.setCmd i at_).later (if r.done then .copyComplete else .cwalkSlotFill) { a := i })

/-! ### Puts -/

/-- The window, the package and the counter of a put (R301). -/
def putWindow (c : Cmd) : Nat := bits c.b.aux.toNat 0 8
def putPkg (c : Cmd) : Nat := bits c.b.aux.toNat 8 12

/-- A put names this package (R301). -/
def putLocal (s : State) (c : Cmd) : Bool :=
  putPkg c == 0 || ((s.ferry 0).pkgSet && putPkg c == (s.ferry 0).pkgid) ||
    ((s.ferry 1).pkgSet && putPkg c == (s.ferry 1).pkgid)

/-- The pattern of a put leaves its window (R301). -/
def putOutside (w : Win) (c : Cmd) : Bool :=
  let p := c.dstSpan
  !w.valid || p.1 < 0 || ((0x10000 * w.len : Nat) : Int) ≤ p.2

/-- A peer link is up: links 0 to 7 are those of SW0, 8 to 15 those of SW1 (R429) (DESIGN CHOICE, notes/assumptions/66.md). -/
def peerLinkUp (s : State) (l : Nat) : Bool := s.alive (l / 8) && !(s.ferry (l / 8)).peerDown.contains (l % 8)

/-- A put to a package can leave, and its acknowledgement return (R429). -/
def peerReaches (s : State) (k : Nat) : Bool :=
  s.ferries.any fun e => (fget? e.2.peers k).any fun p => p.2 && (setBits 16 p.1).any (peerLinkUp s)

/-- Reads the pieces of the source of a put to a peer until one fails. -/
def sourcePieces (w : Windows) (c : Cmd) : List (Nat × Nat) → Adv → Adv
  | [], r => r
  | (e, n) :: ps, r =>
    let (bs, bad, s) := sideRead r.s w c.b.ssp c.root (c.srcAt e) n
    match bad with
    | some _ => ⟨s, r.n + bs.length, bad⟩
    | none => sourcePieces w c ps ⟨s, r.n + n, none⟩

/-- The part of the source of a put to a peer that is read in one step; how much that is is free. -/
def putRead (s : State) (c : Cmd) : Adv :=
  let n := nextCut s c - c.reached
  let r := sourcePieces (c.windows s) c (rowPieces c.b.len (n + 1) c.reached n) ⟨s, 0, none⟩
  { r with s := { r.s with free := r.s.free + 1 } }

/-- The source bytes of a put that are read next, as runs of device memory. -/
def putTouches (s : State) (c : Cmd) : List Touch := patTouches c c.reached (nextCut s c - c.reached)

/-- A put to a peer (R301): its source is read, then it has left the package; what the peer answers is free
(DESIGN CHOICE, notes/assumptions/15.md). -/
def putAway (s : State) (i : Nat) (c : Cmd) : State :=
  if !peerReaches s (putPkg c) then failCmd s i (cPutPeer, 0)
  else if (putTouches s c).any (stripesBusy s) then tryAgain s .putArrival i
  else
    let r := putRead s c
    let c := { c with reached := c.reached + r.n, ready := true }
    let s := r.s.setCmd i c
    match r.bad with
    | some bad => failCmd s i bad
    | none =>
      if c.reached < c.total then s.later .putArrival { a := i }
      else
        let refused := Config.choose s.free % 2 == 1
        let s := s.setCmd i { c with arrived := true, w2 := if refused then BitVec.ofNat 64 cPutWindow else 0 }
        { s with free := s.free + 1 }.laterFar .putAck { a := i }

/-- A put of a peer package arrives (R301, R375, R386): the latch gives the window, the offset and the bytes. It is checked, written
and counted, or not counted; its acknowledgement goes to the peer. -/
def peerPut (s : State) : Res :=
  let w := s.win s.ev.a
  let a := w.base + s.ev.b
  if !w.valid || 0x10000 * w.len < s.ev.b + s.ev.bytes.length then .next s
  else if stripesBusy s ⟨a, s.ev.bytes.length, true, w.root, false⟩ then .fault .notEnabled
  else
    let r := dvaPut s w.root a s.ev.bytes
    match r.bad with
    | some _ => .next r.s
    | none => .next (r.s.setWin s.ev.a { (r.s.win s.ev.a) with arr := w.arr + 1 })

/-- PUT_ARRIVAL (R301): the latch names the put, or gives one of a peer package. At a local window it is checked and written, and counted once all its
bytes are performed; a put to a peer leaves the package. -/
def execPutArrival (s : State) : Res :=
  let i := s.ev.a
  let c := s.cmd i
  if s.ev.f then peerPut s
  else if (fget? s.cmds i).isNone ∨ c.kind ≠ .cput ∨ c.parked.isSome ∨ c.err ≠ 0 ∨ c.arrived then .fault .notEnabled
  else if !putLocal s c then .next (putAway s i c)
  else
    let w := s.win (putWindow c)
    if !c.ready && putOutside w c then .next (failCmd s i (cPutWindow, 0))
    else
      let c := if c.ready then c
        else { c with ready := true, droot := w.root, b := { c.b with dst := c.b.dst + BitVec.ofNat 64 w.base } }
      let n := nextCut s c - c.reached
      let dst := (rowPieces c.b.len (n + 1) c.reached n).map fun (e, k) => (⟨c.dstAt e, k, true, c.droot, false⟩ : Touch)
      if (patTouches c c.reached n ++ dst).any (stripesBusy s) then .next (tryAgain (s.setCmd i c) .putArrival i)
      else
        let r := moveOn s c
        let c := { c with reached := c.reached + r.n }
        let s := r.s.setCmd i c
        match r.bad with
        | some bad => .next (failCmd s i bad)
        | none =>
          if c.reached < c.total then .next (s.later .putArrival { a := i })
          else
            let k := putWindow c
            let s := s.setWin k { s.win k with arr := (s.win k).arr + 1 }
            .next ((s.setCmd i { c with arrived := true }).laterFar .putAck { a := i })

/-! ### TRANSLATION_WALK_DONE -/

/-- The kinds that move bytes of a pattern. -/
def CmdKind.moves : CmdKind → Bool
  | .cpy | .cpyt | .cgath | .cscat | .record | .node => true
  | _ => false

/-- The bytes a mover performs next from an offset, as runs of device memory. -/
def touchesFrom (s : State) (c : Cmd) (e : Nat) : List Touch := patTouches c e (cutOf s c e - e)

/-- A mover may perform its next bytes from an offset now. -/
def mayMove (s : State) (i : Nat) (c : Cmd) (e : Nat) : Bool :=
  let ts := touchesFrom s c e
  mayPerform s i c ts && !ts.any (stripesBusy s)

/-- The offset after the runs performed ahead that begin at one. The fuel is their number. -/
def pastAhead (ahead : List (Nat × Nat)) : Nat → Nat → Nat
  | 0, e => e
  | fuel + 1, e =>
    match ahead.find? fun p => p.1 ≤ e && e < p.1 + p.2 with
    | some p => pastAhead ahead fuel (p.1 + p.2)
    | none => e

/-- A mover with its reached offset past what it has performed ahead. -/
def Cmd.caughtUp (c : Cmd) : Cmd := { c with reached := pastAhead c.ahead c.ahead.length c.reached }

/-- A mover after n more bytes from its reached offset on. -/
def Cmd.moved (c : Cmd) (n : Nat) : Cmd :=
  let d := { c with reached := c.reached + n, ready := true }.caughtUp
  { d with got := c.got.drop (d.reached - c.reached) }

/-- A copy from scratchpad to device memory may read its source ahead of its writes (R391): it has source bytes left to read,
and the pieces they belong to need not wait (R287, R380). Whether it does is free. -/
def readsAhead (s : State) (i : Nat) (c : Cmd) : Bool :=
  (c.kind == .cpy || c.kind == .cpyt) && c.b.ssp && !c.b.dsp && c.ahead.isEmpty && c.reached + c.got.length < c.total &&
  Config.choose s.free % 2 == 1 && mayMove s i c (c.reached + c.got.length)

/-- Reads source bytes ahead, as many as a step would move. -/
def readAhead (s : State) (c : Cmd) : State × Cmd :=
  let e := c.reached + c.got.length
  let n := cutOf s c e - e
  let (bs, s) := (rowPieces c.b.len (n + 1) e n).foldl (fun (r : List Byte × State) p =>
    let (bs, _, s) := sideRead r.2 (c.windows s) true c.root (c.srcAt p.1) p.2
    (r.1 ++ bs, s)) ([], s)
  ({ s with free := s.free + 1 }, { c with got := c.got ++ bs })

/-- The offset of a later piece of a held command that its own pages let go first (R383): the pieces below it translate, and it
has no byte in common with them. -/
def aheadFrom (s : State) (i : Nat) (c : Cmd) : Option Nat :=
  ((pageStarts c c.reached (c.total - c.reached)).map fun o => pastAhead c.ahead c.ahead.length o).find? fun o =>
    let below := patTouches c c.reached (o - c.reached)
    c.reached < o && o < c.total && !strongAt s c o && below.all (fun t => (t.ords s).all Option.isSome) &&
    !((touchesFrom s c o).any fun t => below.any (t.meets s)) && mayMove s i c o

/-- A walk of a mover has ended (R179): source bytes are read ahead (R391), or its next bytes are performed, or it is parked;
while they are held, a piece above them may be performed (R383). -/
def moveWalked (s : State) (i : Nat) (c : Cmd) : State :=
  if readsAhead s i c then
    let (s, c) := readAhead s c
    tryAgain (s.setCmd i c) .translationWalkDone i
  else if mayMove s i c c.reached then
    let r := moveOn s c
    let c := c.moved r.n
    let s := r.s.setCmd i c
    match r.bad with
    | some bad => failCmd s i bad
    | none => s.later (if c.total ≤ c.reached then .copyComplete else .translationWalkDone) { a := i }
  else
    match aheadFrom s i c with
    | none => tryAgain s .translationWalkDone i
    | some o =>
      let r := moveFrom s c o
      tryAgain (r.s.setCmd i { c with ahead := (o, r.n) :: c.ahead }) .translationWalkDone i

/-- CPSM writes nothing on the device side; its set is written at completion (R297). -/
def psmWalked (s : State) (i : Nat) (c : Cmd) : State :=
  if mayPerform s i c [] then s.later .copyComplete { a := i } else tryAgain s .translationWalkDone i

/-- The source of a put is read at the issuing side; it leaves when its stream's order lets it (R287, R301). -/
def putWalked (s : State) (i : Nat) (c : Cmd) : State :=
  if c.ready then s.later .putArrival { a := i }
  else if mayPerform s i c (patTouches c c.reached (c.total - c.reached)) then s.laterFar .putArrival { a := i }
  else tryAgain s .translationWalkDone i

end Sys2Proof.Machine
end

