-- ==== Sys2Proof/Machine/VectorAxes.lean ====
section
/-! DEFINITION. Row and column operations and permutes (10_vector_axes_and_access.md R234 to R239). -/

namespace Sys2Proof.Machine

/-- A rotate or broadcast: element (r, c) comes from the element a map names (R235). -/
def moveOp (h : Hdr) (d a : BitVec 5) (k : BitVec 1) (b : Nat) (cross : Bool) (src : Nat → Nat → Nat × Nat)
    (s : State) : Res :=
  let (v, _) := s.lanes k (s.rdV d) fun i =>
    let (r, c) := src (i / 64) (i % 64)
    plain (s.el a 0 (64 * r + c))
  let s := s.wrV d 0 v b cross
  .next (if cross then s.finish h b else s.finishRows h b)

/-- VROTR. -/
def execVrotr (h : Hdr) (d a : BitVec 5) (k : BitVec 1) (n : BitVec 6) (s : State) : Res :=
  moveOp h d a k 2 false (fun r c => (r, (c + 64 - n.toNat) % 64)) s
/-- VROTC. -/
def execVrotc (h : Hdr) (d a : BitVec 5) (k : BitVec 1) (n : BitVec 4) (s : State) : Res :=
  moveOp h d a k 5 true (fun r c => ((r + 16 - n.toNat) % 16, c)) s
/-- VBCR. -/
def execVbcr (h : Hdr) (d a : BitVec 5) (k : BitVec 1) (n : BitVec 6) (s : State) : Res :=
  moveOp h d a k 2 false (fun r _ => (r, n.toNat)) s
/-- VBCC. -/
def execVbcc (h : Hdr) (d a : BitVec 5) (k : BitVec 1) (n : BitVec 4) (s : State) : Res :=
  moveOp h d a k 5 true (fun _ c => (n.toNat, c)) s

/-- One level of the tree of R236. -/
def reduceLevel (op : Nat → Nat → Nat × Flags) : List Nat → List Nat × Flags
  | a :: b :: r =>
    let (v, f) := op a b
    let (vs, g) := reduceLevel op r
    (v :: vs, f ||| g)
  | r => (r, 0)

/-- Reduce of R236 over 2^levels elements. -/
def reduceTree (op : Nat → Nat → Nat × Flags) : Nat → List Nat × Flags → Nat × Flags
  | 0, (e, f) => (e.headD 0, f)
  | n + 1, (e, f) =>
    let (e', g) := reduceLevel op e
    reduceTree op n (e', f ||| g)

/-- Op of R236 by OP (0 SUM, 1 MAX, 2 MIN) and TY (0 F32, 1 BF16, 2 FP16, 3 I32). -/
def reduceOp (op ty a b : Nat) : Nat × Flags :=
  if ty = 3 then
    match op with
    | 0 => (low 32 (sgn 32 a + sgn 32 b), 0)
    | 1 => (low 32 (max (sgn 32 a) (sgn 32 b)), 0)
    | _ => (low 32 (min (sgn 32 a) (sgn 32 b)), 0)
  else
    match op with
    | 0 => fAdd (fmtOf ty) a b
    | 1 => plain (fMax (fmtOf ty) a b)
    | _ => plain (fMin (fmtOf ty) a b)

/-- An element as TY reads it. -/
def asTy (ty w : Nat) : Nat := if ty = 1 ∨ ty = 2 then w % 65536 else w

/-- The result of each line of a reduction, with the flags: line l takes the elements at at_ l 0, at_ l 1, ... -/
def reduceLines (s : State) (a : BitVec 5) (op ty lines levels : Nat) (at_ : Nat → Nat → Nat) : List (Nat × Flags) :=
  (List.range lines).map fun l =>
    reduceTree (reduceOp op ty) levels ((List.range (2 ^ levels)).map fun j => asTy ty (s.el a 0 (at_ l j)), 0)

/-- VREDR (R236). -/
def execVredr (h : Hdr) (d a : BitVec 5) (bc : BitVec 1) (t : BitVec 2) (o : BitVec 2) (s : State) : Res :=
  let rs := reduceLines s a o.toNat t.toNat 16 6 fun r c => 64 * r + c
  let v := vecOf fun i => if bc = 1 ∨ i % 64 = 0 then BitVec.ofNat 32 (rs.getD (i / 64) (0, 0)).1 else 0
  .next ((s.wrV d 0 v 6 false).finishRows h 6 (rs.foldl (fun g e => g ||| e.2) 0))

/-- VREDC (R236). -/
def execVredc (h : Hdr) (d a : BitVec 5) (bc : BitVec 1) (t : BitVec 2) (o : BitVec 2) (s : State) : Res :=
  let rs := reduceLines s a o.toNat t.toNat 64 4 fun c r => 64 * r + c
  let v := vecOf fun i => if bc = 1 ∨ i < 64 then BitVec.ofNat 32 (rs.getD (i % 64) (0, 0)).1 else 0
  .next ((s.wrV d 0 v 10 true).finish h 10 (rs.foldl (fun g e => g ||| e.2) 0))

/-- The element VPERM takes for an index at row r (R238); none gives 0. -/
def permSrc (row : Bool) (r i : Nat) : Option Nat :=
  if bit i 31 then none else some (if row then 64 * r + bits i 0 6 else bits i 0 10)

/-- VPERM (R238). Its passes ask the banks once it has issued (R239, bankRequest). -/
def execVperm (h : Hdr) (d a b : BitVec 5) (k : BitVec 1) (o : BitVec 2) (s : State) : Res :=
  let (v, _) := s.lanes k (s.rdV d) fun i =>
    match permSrc (o == 1) (i / 64) (s.el b 0 i) with
    | none => plain 0
    | some j => plain (s.el a 0 j)
  .next ((s.wrV d 0 v 24 true).finish h 24)

end Sys2Proof.Machine
end

