-- ==== Sys2Proof/Machine/VectorMemory.lean ====
section
/-! DEFINITION. Vector loads and stores (10_vector_axes_and_access.md R240 to R247) and the conversion unit: VQNT and
VDQNT (09_vector_elementwise.md R226 to R229). -/

namespace Sys2Proof.Machine

/-! ### Vector loads and stores -/

/-- The element width in bytes (R240). -/
def esz (w : BitVec 1) : Nat := if w = 0 then 4 else 2

/-- An address, wrapping in 64 bits (R241). -/
def addr64 (n : Nat) : Nat := n % 2 ^ 64

/-- The addresses of the elements that take part, with their index, ascending (R211, R241, R242). -/
def takers (s : State) (k : BitVec 1) (e : Nat → Nat) : List (Nat × Nat) :=
  ((List.range 1024).filter (s.active k)).map fun i => (i, addr64 (e i))

/-- The offending byte of lowest address among accesses of n bytes (R160, R245). -/
def lowestOffence (s : State) (w : Windows) (n : Nat) (as : List Nat) : Option (Nat × Nat) :=
  (as.filterMap fun a => firstOffence s w a n).foldl
    (fun (b : Option (Nat × Nat)) e => some (match b with | some c => if e.1 < c.1 then e else c | none => e)) none

/-- The lines of the unit window that accesses touch (R244). -/
def unitLines (as : List Nat) : List Nat := ((as.filter (· < 0x400000)).map (· / 64)).eraseDups

/-- BANK_LIMIT (R244): the lowest byte address of the lowest bank over the limit. -/
def overLimit (as : List Nat) (limit : Nat) : Option Nat :=
  let ls := unitLines as
  match (List.range 64).find? fun b => limit < (ls.filter fun l => l % 64 == b).length with
  | none => none
  | some b =>
    (as.filter fun a => a < 0x400000 && a / 64 % 64 == b).foldl
      (fun (m : Option Nat) a => some (match m with | some c => min a c | none => a)) none

/-- The checks of a vector access in the order of R245: the values that must be multiples, the bank limit, the offending
bytes. Answers the state with the sticky flag, and the fault. -/
def vecChecks (s : State) (aligned : List (DWord × Nat)) (limit n : Nat) (as : List Nat) :
    State × Option (Nat × DWord) :=
  match aligned.find? fun e => e.1.toNat % e.2 != 0 with
  | some (v, _) => (s, some (cMisaligned, v))
  | none =>
    match (if limit = 0 then none else overLimit as limit) with
    | some a => (s, some (cBankLimit, BitVec.ofNat 64 a))
    | none => s.offend (lowestOffence s (s.windows s.iss.ctx) n as)

/-- The clks an access takes: its bound if every address lies in the unit window, else as long as the scratchpads take
(R154, R245). -/
def vecBound (s : State) (as : List Nat) (b : Nat) : Nat × State :=
  if as.all (· < 0x1000000) then (b, s) else (1 + Config.latency s.free, { s with free := s.free + 1 })

/-- A register whose load lands after its bound: RE moves to the clk after it lands, and it is read from then on (R108). -/
def State.setLate (s : State) (k b t : Nat) : State :=
  if t ≤ b then s
  else s.onCtx fun c => { c with
    late := fset c.late k (max (fget c.late k 0) (s.now + t + 1)), far := fset c.far k (max (fget c.far k 0) (s.now + t + 1)) }

/-- A vector load (R241 to R246). -/
def vecLoad (h : Hdr) (d : BitVec 5) (k w : BitVec 1) (b : Nat) (cross : Bool) (aligned : List (DWord × Nat)) (limit : Nat)
    (e : Nat → Nat) (s : State) : Res :=
  let n := esz w
  let as := takers s k e
  match vecChecks s aligned limit n (as.map Prod.snd) with
  | (s, some (cause, val)) => .next (s.raise cause val)
  | (s, none) =>
    let win := s.windows s.iss.ctx
    let old := s.rdV d
    let v := vecOf fun i =>
      if s.active k i then BitVec.ofNat 32 (leNat (scratchBytes s win (addr64 (e i)) n)) else elem old i
    let (t, s) := vecBound s (as.map Prod.snd) b
    let s := (s.wrV d 0 v b cross).setLate (s.vix d 0) b t
    .next (if cross then (s.access t).finish h t else (s.access (t + 3)).finishRows h t)

/-- A vector store: the elements are written in ascending order (R246). -/
def vecStore (h : Hdr) (d : BitVec 5) (k w : BitVec 1) (b : Nat) (cross : Bool) (aligned : List (DWord × Nat)) (limit : Nat)
    (e : Nat → Nat) (s : State) : Res :=
  let n := esz w
  let as := takers s k e
  match vecChecks s aligned limit n (as.map Prod.snd) with
  | (s, some (cause, val)) => .next (s.raise cause val)
  | (s, none) =>
    let win := s.windows s.iss.ctx
    let v := s.rdV d
    let s := as.foldl (fun s e => scratchStore s win e.2 (leBytes n (elem v e.1).toNat)) s
    let (t, s) := vecBound s (as.map Prod.snd) b
    .next (if cross then (s.access t).finish h t else (s.access (t + 3)).finishRows h t)

/-- E(r, c) of the contiguous and strided forms: rows S bytes apart (R241). -/
def rowAddr (s : State) (w : BitVec 1) (stride : Nat) (i : Nat) : Nat :=
  s.iss.xa.toNat + stride * (i / 64) + esz w * (i % 64)
/-- E(r, c) of the column forms. -/
def colAddr (s : State) (w : BitVec 1) (i : Nat) : Nat :=
  s.iss.xa.toNat + s.iss.xb.toNat * (i % 64) + esz w * (i / 64)
/-- E(r, c) of the indexed forms: bits [23:0] of the index element. -/
def idxAddr (s : State) (b : BitVec 5) (w : BitVec 1) (i : Nat) : Nat :=
  s.iss.xa.toNat + esz w * bits (s.el b 0 i) 0 24

/-- What the column forms must be multiples of (R243). -/
def colAlign (w : BitVec 1) : Nat := if w = 0 then 64 else 32

/-- VLD. -/
def execVld (h : Hdr) (d _a : BitVec 5) (k w : BitVec 1) (s : State) : Res :=
  vecLoad h d k w 8 false [(s.iss.xa, 64)] 0 (rowAddr s w (64 * esz w)) s
/-- VLDS. -/
def execVlds (h : Hdr) (d _a _b : BitVec 5) (k w : BitVec 1) (s : State) : Res :=
  vecLoad h d k w 8 false [(s.iss.xa, 64), (s.iss.xb, 64)] 4 (rowAddr s w s.iss.xb.toNat) s
/-- VLDC. -/
def execVldc (h : Hdr) (d _a _b : BitVec 5) (k w : BitVec 1) (s : State) : Res :=
  vecLoad h d k w 11 true [(s.iss.xa, colAlign w), (s.iss.xb, colAlign w)] 4 (colAddr s w) s
/-- VLDB: a row, or with ELT an element. -/
def execVldb (h : Hdr) (d _a : BitVec 5) (k t w : BitVec 1) (s : State) : Res :=
  if t = 0 then vecLoad h d k w 8 false [(s.iss.xa, 64)] 0 (rowAddr s w 0) s
  else vecLoad h d k w 8 false [(s.iss.xa, esz w)] 0 (fun _ => s.iss.xa.toNat) s
/-- VLDG. -/
def execVldg (h : Hdr) (d _a b : BitVec 5) (k w : BitVec 1) (s : State) : Res :=
  vecLoad h d k w 16 true [(s.iss.xa, esz w)] 8 (idxAddr s b w) s
/-- VST. -/
def execVst (h : Hdr) (d _a : BitVec 5) (k w : BitVec 1) (s : State) : Res :=
  vecStore h d k w 6 false [(s.iss.xa, 64)] 0 (rowAddr s w (64 * esz w)) s
/-- VSTS. -/
def execVsts (h : Hdr) (d _a _b : BitVec 5) (k w : BitVec 1) (s : State) : Res :=
  vecStore h d k w 6 false [(s.iss.xa, 64), (s.iss.xb, 64)] 4 (rowAddr s w s.iss.xb.toNat) s
/-- VSTC. -/
def execVstc (h : Hdr) (d _a _b : BitVec 5) (k w : BitVec 1) (s : State) : Res :=
  vecStore h d k w 9 true [(s.iss.xa, colAlign w), (s.iss.xb, colAlign w)] 4 (colAddr s w) s
/-- VSTX. -/
def execVstx (h : Hdr) (d _a b : BitVec 5) (k w : BitVec 1) (s : State) : Res :=
  vecStore h d k w 14 true [(s.iss.xa, esz w)] 8 (idxAddr s b w) s

/-- The addresses of the sixteen rows of a mask (R241). -/
def maskRows (s : State) : List Nat := (List.range 16).map fun r => addr64 (s.iss.xa.toNat + 8 * r)

/-- VLDM. -/
def execVldm (h : Hdr) (d _a : BitVec 5) (s : State) : Res :=
  match vecChecks s [(s.iss.xa, 64)] 0 8 (maskRows s) with
  | (s, some (cause, val)) => .next (s.raise cause val)
  | (s, none) =>
    let m := leNat ((maskRows s).flatMap fun a => scratchBytes s (s.windows s.iss.ctx) a 8)
    let (t, s) := vecBound s (maskRows s) 8
    .next (((s.wrM d.toNat (BitVec.ofNat 1024 m) 8).setLate (32 + d.toNat) 8 t |>.access (t + 3)).finishRows h t)

/-- VSTM. -/
def execVstm (h : Hdr) (d _a : BitVec 5) (s : State) : Res :=
  match vecChecks s [(s.iss.xa, 64)] 0 8 (maskRows s) with
  | (s, some (cause, val)) => .next (s.raise cause val)
  | (s, none) =>
    let m := (s.cc.getM d.toNat).toNat
    let win := s.windows s.iss.ctx
    let s' := (maskRows s).zipIdx.foldl (fun t (a, r) => scratchStore t win a (leBytes 8 (bits m (64 * r) 64))) s
    let (t, s') := vecBound s' (maskRows s) 6
    .next ((s'.access (t + 3)).finishRows h t)

/-! ### The conversion unit -/

/-- The operand fields of VQNT and VDQNT (R226). -/
structure Conv where
  src : Nat
  dst : Nat
  n : Nat
  tag : Nat
  st : Nat
  krem : Nat
  g0 : Nat
  deriving DecidableEq, Repr

def convOf (s : State) : Conv :=
  let a := s.iss.xa.toNat
  let b := s.iss.xb.toNat
  ⟨bits a 0 32, bits a 32 32, bits b 0 7, bits b 8 4, bits b 12 2, bits b 16 16, bits b 32 32⟩

/-- The number of blocks lies in 1 to 64. -/
def Conv.countOk (c : Conv) : Bool := 1 ≤ c.n && c.n ≤ 64

/-- Two ranges have a byte in common. -/
def overlap (a m b n : Nat) : Bool := a < b + n && b < a + m

/-- The lowest offence of a list of ranges (R160). -/
def rangesOffence (s : State) (w : Windows) : List (Nat × Nat) → Option (Nat × Nat)
  | [] => none
  | (a, n) :: r =>
    match firstOffence s w a n, rangesOffence s w r with
    | some e, some f => some (if f.1 < e.1 then f else e)
    | some e, none => some e
    | none, o => o

/-- Element size of a type: 4 for F32, 2 else. -/
def ftSize (ft : Nat) : Nat := if ft = 0 then 4 else 2

/-- The values of the elements of block k of a VQNT (R227): the missing ones are +0. -/
def convValues (s : State) (w : Windows) (c : Conv) (kb k : Nat) : List FVal :=
  let z := ftSize c.st
  (List.range kb).map fun e =>
    let i := k * kb + e
    if i < c.krem then (fmtOf c.st).value (leNat (scratchBytes s w (c.src + z * i) z)) else .fin false 0 0

/-- VQNT (R227, R229). -/
def execVqnt (h : Hdr) (_a _b : BitVec 5) (f : BitVec 3) (s : State) : Res :=
  let c := convOf s
  let fmt := f.toNat
  let kb := blockLen fmt
  let z := ftSize c.st
  let b := s.iss.xb.toNat
  if !c.countOk || c.st == 3 || bit b 7 || bits b 14 2 != 0 then .next (s.raise cConvField)
  else if c.tag = 0 then .next (s.raise cTagZero)
  else if c.src % z ≠ 0 then .next (s.raise cMisaligned (BitVec.ofNat 64 c.src))
  else if c.dst % 64 ≠ 0 then .next (s.raise cMisaligned (BitVec.ofNat 64 c.dst))
  else if overlap c.src (z * c.n * kb) c.dst (64 * c.n) then .next (s.raise cConvField)
  else
    let w := s.windows s.iss.ctx
    let ranges := (List.range c.n).flatMap fun k =>
      [(c.src + z * (k * kb), z * (min ((k + 1) * kb) c.krem - k * kb)), (c.dst + 64 * k, 64)]
    match s.offend (rangesOffence s w ranges) with
    | (s, some (cause, val)) => .next (s.raise cause val)
    | (s, none) =>
      let seed := fget s.cc.hs c.tag 0
      let bs := (List.range c.n).map fun k => quantBlock fmt c.tag (convValues s w c kb k) seed (c.g0 + 7 * k)
      let s' := bs.zipIdx.foldl (fun t (e, k) => scratchStore t w (c.dst + 64 * k) e.1) s
      let (t, s') := vecBound s' [c.src, c.dst] (11 + c.n)
      .next (s'.finish h t (bs.foldl (fun g e => g ||| e.2) 0))

/-- What VDQNT says of a block's format (R228): its cause, if it may not be converted. -/
def dqntCause (fam fmt : Nat) : Option Nat :=
  if badFmt fmt then some cSdbFormat
  else if fmt = 15 then none
  else if fmt = 5 ∨ (fmt = 1) ≠ (fam = 0) then some cConvField
  else none

/-- VDQNT (R228, R229) (DEDUCED, notes/assumptions/22.md). -/
def execVdqnt (h : Hdr) (_a _b : BitVec 5) (f : BitVec 2) (s : State) : Res :=
  let c := convOf s
  let b := s.iss.xb.toNat
  let ft := f.toNat
  let fam := bits b 12 1
  let kb := if fam = 0 then 112 else 56
  let z := ftSize ft
  if !c.countOk || bits b 7 5 != 0 || bits b 13 19 != 0 then .next (s.raise cConvField)
  else if c.src % 64 ≠ 0 then .next (s.raise cMisaligned (BitVec.ofNat 64 c.src))
  else if c.dst % z ≠ 0 then .next (s.raise cMisaligned (BitVec.ofNat 64 c.dst))
  else if overlap c.src (64 * c.n) c.dst (z * c.n * kb) then .next (s.raise cConvField)
  else
    let w := s.windows s.iss.ctx
    let first := firstOffence s w c.src (64 * c.n)
    let first := if first.isSome && s.cc.sptrap then rangesOffence s w [(c.src, 64 * c.n), (c.dst, z * c.n * kb)] else first
    match s.offend first with
    | (s, some (cause, val)) => .next (s.raise cause val)
    | (s, none) =>
      let blks := (List.range c.n).map fun k => scratchBytes s w (c.src + 64 * k) 64
      match blks.findSome? fun blk => dqntCause fam (sdbFmt blk) with
      | some cause => .next (s.raise cause)
      | none =>
        match s.offend (firstOffence s w c.dst (z * c.n * kb)) with
        | (s, some (cause, val)) => .next (s.raise cause val)
        | (s, none) =>
          let seeds := fun t => fget s.cc.hs t 0
          let rs := blks.zipIdx.map fun (blk, k) => dequantBlock blk (kb / 7) seeds (c.g0 + 7 * k)
          let s' := rs.zipIdx.foldl (fun t (r, k) =>
            scratchStore t w (c.dst + z * kb * k) (r.1.flatMap fun v => leBytes z (narrow ft v))) s
          let (t, s') := vecBound s' [c.src, c.dst] (11 + c.n)
          .next (s'.finish h t (rs.foldl (fun g r => g ||| r.2) 0))

end Sys2Proof.Machine
end

