-- ==== Sys2Proof/Machine/StackEngines.lean ====
section
/-! DEFINITION. The commands that run on the stacks' base dies: H blocks, the H buffer and the stacks' queues, HSCAN,
HGATH, HRED and HCVT (14_memory_stacks.md R348 to R354), and the release of a command's waiters (12_copy_engines.md
R285). -/

namespace Sys2Proof.Machine

/-! ### The release of waiters -/

/-- Raises the semaphore a command names (R285): that of its part, or of the switch die for a control core's command. -/
def raiseFor (s : State) (c : Cmd) : State :=
  let i := c.x.sem.toNat
  if c.part ≠ 0 then raiseSem s c.part i
  else
    let pos := posOf (coreOf c.ctx)
    match semAdd s pos i 1 with
    | some s => s
    | none => logError s { cause := cSemOverflow, origin := 2, pos := pos }

/-- A command posts its token and raises SEM (R285). -/
def releaseWaiters (s : State) (c : Cmd) : State :=
  let s := if c.x.tok then s.tokPost c.part c.ctx c.q c.inFrame else s
  if c.x.sr then raiseFor s c else s

/-! ### Acceptance -/

/-- The kinds that run on stack engines. -/
def CmdKind.onStack : CmdKind → Bool
  | .hscan | .hgath | .hred | .hcvt => true
  | _ => false

/-- The element size of an HCVT's elements (R349): TY 0 F32, 1 BF16, 2 FP16. -/
def cvtSize (ty : Nat) : Nat := if ty = 0 then 4 else 2

/-- The elements along K of the blocks of an HCVT (R227, R228). -/
def cvtLen (c : Cmd) : Nat :=
  if c.op = 0 then blockLen (bits c.w0.toNat 0 4) else if bit c.w0.toNat 8 then 56 else 112

/-- A command with the fields of its H block (R349): MODE, TY, STK, PARM, CREC. -/
def Cmd.withH (c : Cmd) (r : List Byte) : Cmd :=
  let f := fun o n => fieldAt r o n
  { c with
    b := { ver := f 0 1, len := f 4 4, src := BitVec.ofNat 64 (f 8 8), dst := BitVec.ofNat 64 (f 16 8)
           aux := BitVec.ofNat 64 (f 24 8), aux2 := BitVec.ofNat 64 (f 32 8) }
    arg := f 1 1, ty := f 2 1, op := f 3 1, w0 := BitVec.ofNat 64 (f 40 8), w1 := BitVec.ofNat 64 (f 48 8)
    home := bufferOf (f 1 1) }

/-- A number lies in a range. -/
def within (lo hi v : Nat) : Bool := lo ≤ v && v ≤ hi

/-- Fields of an HSCAN block out of range (R349, R351). -/
def scanFieldsBad (c : Cmd) : Bool :=
  4 < c.ty || 2 < c.op || !multOf (hSize c.ty) c.b.len || !within 1 (2 ^ 24) c.b.aux.toNat || c.b.aux2 != 0 ||
  c.w1 != 0 || c.w0.toNat / 2 ^ (8 * hSize c.ty) != 0 || (c.op == 2 && c.ty == 1)

/-- Fields of an HGATH block out of range. -/
def gathFieldsBad (c : Cmd) : Bool :=
  c.ty != 0 || c.op != 0 || !multOf 64 c.b.len || !within 64 65536 c.b.len || !within 1 (2 ^ 24) c.b.aux2.toNat ||
  c.w0 != 0 || c.w1 != 0

/-- The first byte of source region j of an HRED. -/
def regionAt (c : Cmd) (j : Nat) : Nat := wrap64 ((c.b.src.toNat : Int) + (j : Int) * c.b.aux2.toInt)

/-- The destination of an HRED meets a source region (R352). -/
def redMeets (c : Cmd) : Bool :=
  (List.range c.b.aux.toNat).any fun j => overlap c.b.dst.toNat c.b.len (regionAt c j) c.b.len

/-- Fields of an HRED block out of range, or regions that meet. -/
def redFieldsBad (c : Cmd) : Bool :=
  !(c.ty == 0 || c.ty == 2 || c.ty == 3) || 1 < c.op || !multOf (hSize c.ty) c.b.len || !within 1 4096 c.b.aux.toNat ||
  c.w0 != 0 || c.w1 != 0 || redMeets c

/-- Fields of an HCVT block out of range (R349, R353). -/
def cvtFieldsBad (c : Cmd) : Bool :=
  2 < c.ty || 1 < c.op || !within 1 (2 ^ 24) c.b.len || c.b.aux2 != 0 || bits c.w0.toNat 9 23 != 0 ||
  isControl (coreOf c.ctx) ||
  if c.op = 0 then !within 1 4 (bits c.w0.toNat 0 4) else c.b.aux != 0

/-- Fields of an H block out of range. -/
def hFieldsBad (s : State) (c : Cmd) (r : List Byte) : Bool :=
  c.b.ver != 1 || 11 < c.arg || fieldAt r 56 8 != 0 || semBad s c.ctx c.x ||
  match c.kind with
  | .hscan => scanFieldsBad c
  | .hgath => gathFieldsBad c
  | .hred => redFieldsBad c
  | _ => cvtFieldsBad c

/-- An address of an H block is misaligned (R349). -/
def hMisaligned (c : Cmd) : Bool :=
  let src := c.b.src.toNat
  let dst := c.b.dst.toNat
  match c.kind with
  | .hscan => !multOf (hSize c.ty) src || !multOf 64 dst
  | .hgath => !multOf 64 src || !multOf 64 dst || !multOf 4 c.b.aux.toNat
  | .hred =>
    !multOf (hSize c.ty) src || !multOf (hSize c.ty) dst || (1 < c.b.aux.toNat && !multOf (hSize c.ty) c.b.aux2.toNat)
  | _ =>
    (if c.op = 0 then !multOf (cvtSize c.ty) src || !multOf 64 dst else !multOf 64 src || !multOf (cvtSize c.ty) dst) ||
    !multOf 8 c.w1.toNat

/-- The cluster engine's H buffer is full (R348). -/
def bufferFull (s : State) (cl : Nat) : Bool :=
  16 ≤ (s.cmds.filter fun e => e.2.kind.onStack && e.2.queued && !e.2.arrived && e.2.engine == cl).length

/-- The commands in the queue of a stack (R348). -/
def stackQueue (s : State) (z : Nat) : List (Nat × Cmd) :=
  s.cmds.filter fun e => e.2.kind.onStack && e.2.queued && e.2.arrived && e.2.arg == z

/-- The commands the engines of a stack run. -/
def stackRunning (s : State) (z : Nat) : Nat :=
  (s.cmds.filter fun e => e.2.kind.onStack && !e.2.queued && e.2.arg == z).length

/-- The buffer of a cluster engine passes its commands, in order, to the queues of their stacks while there is room
(R348): they reach it no sooner than a link takes. -/
def passBuffer (s : State) : List Nat → State
  | [] => s
  | i :: r =>
    let c := s.cmd i
    if 64 ≤ (stackQueue s c.arg).length then s
    else passBuffer ((s.setCmd i { c with arrived := true, row := s.tb + 12 }).laterFar .stackEngineStart { a := c.arg }) r

/-- The commands in the H buffer of a cluster engine, oldest first. -/
def bufferOfEngine (s : State) (cl : Nat) : List Nat :=
  (s.cmds.filter fun e => e.2.kind.onStack && e.2.queued && !e.2.arrived && e.2.engine == cl).map Prod.fst

/-- Every engine's buffer passes its commands on: a queue has room again. -/
def passBuffers (s : State) : State :=
  let es := ((s.cmds.filter fun e => e.2.kind.onStack && e.2.queued && !e.2.arrived).map fun e => e.2.engine).eraseDups
  es.foldl (fun s cl => passBuffer s (bufferOfEngine s cl)) s

/-- Accepts an H command (R348, R349, R354). -/
def execH (kind : CmdKind) (h : Hdr) (x : CExt) (s : State) : Res :=
  let ck := s.iss.ctx
  let a := s.iss.xa.toNat
  match (if a % 64 = 0 then winRead (s.windows ck) s a 64 else none) with
  | none => .next (s.raise (if a % 64 = 0 then cCopyRange else cMisaligned))
  | some r =>
    let c := (s.newCmd kind x).withH r
    let acc := kind == .hred && c.op == 1
    match firstBad
      [(hFieldsBad s c r, cCopyField),
       (hMisaligned c, cMisaligned),
       (acc && restartBad s c (c.b.dst.toNat, (c.b.dst.toNat : Int) + c.b.len - 1), cRestartRange),
       (kind == .hcvt && c.op == 0 && bits c.w0.toNat 4 4 == 0, cTagZero),
       ((s.stack c.arg).lost, cStackLost)] with
    | some cause => .next (s.raise cause)
    | none =>
      if bufferFull s c.engine then .next s.notYet
      else
        let seeds := (List.range 16).map fun k => (fget s.cc.hs k 0).toNat
        let (_, s) := acceptCmd s { c with queued := true, idx := if kind = .hcvt then seeds else [] }
        .next ((passBuffer s (bufferOfEngine s c.engine)).finish h 4)

/-- HSCAN (R351). -/
def execHscan (h : Hdr) (_a : BitVec 5) (x : CExt) (s : State) : Res := execH .hscan h x s
/-- HGATH (R352). -/
def execHgath (h : Hdr) (_a : BitVec 5) (x : CExt) (s : State) : Res := execH .hgath h x s
/-- HRED (R352). -/
def execHred (h : Hdr) (_a : BitVec 5) (x : CExt) (s : State) : Res := execH .hred h x s
/-- HCVT (R353). -/
def execHcvt (h : Hdr) (_a : BitVec 5) (x : CExt) (s : State) : Res := execH .hcvt h x s

/-- STACK_ENGINE_START (R348): the latch names a stack with a free engine and a queued command. -/
def execStackEngineStart (s : State) : Res :=
  let z := s.ev.a
  match stackQueue s z with
  | [] => .fault .notEnabled
  | (i, c) :: _ =>
    if 4 ≤ stackRunning s z ∨ s.tb < c.row then .fault .notEnabled
    else
      .next (passBuffers (startWalk (s.setCmd i { c with queued := false, row := 0 }) i))

/-! ### Running -/

/-- The units of work of an H command (R349): elements, rows or blocks (DEDUCED, notes/assumptions/28.md). -/
def hUnits (c : Cmd) : Nat :=
  match c.kind with
  | .hscan | .hred => c.b.len / hSize c.ty
  | .hgath => c.b.aux2.toNat
  | _ => c.b.len

/-- What one unit of work has come to: the command with its progress, the state, and the failure. -/
structure HStep where
  s : State
  c : Cmd
  bad : Option (Nat × Nat) := none

/-- The value of an element pattern of a floating type of R349: 2 F32, 3 BF16, 4 FP16. -/
def hFloat (ty v : Nat) : FVal := (fmtOf (ty - 2)).value v

/-- An element matches (R351). -/
def scanMatch (ty mode v t : Nat) : Bool :=
  if ty = 0 then
    let x := sgn 32 v
    let y := sgn 32 t
    if mode = 0 then y < x else if mode = 1 then y ≤ x else y < (x.natAbs : Int)
  else if ty = 1 then if mode = 0 then t < v else t ≤ v
  else
    let x := hFloat ty v
    let y := hFloat ty t
    let x := if mode = 2 ∧ x.neg then x.flip else x
    if mode = 1 then !x.isNan && !y.isNan && !x.lt y else y.lt x

/-- An address of the region lies on the command's stack (R351). -/
def onStk (s : State) (c : Cmd) (a : Nat) : Nat ⊕ Bool :=
  match walk s c.root a false with
  | .inl e => .inl e
  | .inr p =>
    match dpaOf p.dpa with
    | .data d => .inr ((stripeMap d).z == c.arg)
    | .none => .inl cDpaNone
    | _ => .inr false

/-- One element of HSCAN (R351): c.ent counts the hits and c.slot the entries stored. -/
def scanStep (s : State) (c : Cmd) : HStep :=
  let n := hSize c.ty
  let a := wrap64 ((c.b.src.toNat : Int) + (n * c.reached : Nat))
  let done := { c with reached := c.reached + 1 }
  match onStk s c a with
  | .inl e => ⟨s, c, some (e, a)⟩
  | .inr false => ⟨s, done, none⟩
  | .inr true =>
    match dvaLoad s c.root a n with
    | (_, some e, s) => ⟨s, c, some e⟩
    | (bs, none, s) =>
      let v := leNat bs
      if !scanMatch c.ty c.op v c.w0.toNat then ⟨s, done, none⟩
      else if c.b.aux.toNat ≤ c.slot then ⟨s, { done with ent := c.ent + 1 }, none⟩
      else
        let r := dvaPut s c.root (c.b.dst.toNat + 64 + 16 * c.slot) (leBytes 8 c.reached ++ leBytes 8 v)
        match r.bad with
        | some e => ⟨s, c, some e⟩
        | none => ⟨r.s, { done with ent := c.ent + 1, slot := c.slot + 1 }, none⟩

/-- The header of the result ring (R351). -/
def scanHeader (c : Cmd) : List Byte :=
  leBytes 8 c.ent ++ leBytes 8 c.slot ++ leBytes 8 (b2n (c.slot < c.ent)) ++ List.replicate 40 0

/-- The ring of an HSCAN lies in the SRAM window of its stack's buffer die (R351). -/
def ringPlaced (s : State) (c : Cmd) : Option (Nat × Nat) :=
  let dst := c.b.dst.toNat
  match runs s c.root true dst (64 + 16 * c.b.aux.toNat) with
  | (_, some e) => some e
  | (rs, none) =>
    let ok := rs.all fun (d, n) =>
      match dpaOf d, dpaOf (d + n - 1) with
      | .sram k _, .sram j _ => k == c.arg / 2 && j == k
      | _, _ => false
    if ok then none else some (cHRing, dst)

/-- Reads bytes, then writes bytes of them: a unit is performed whole or not at all. -/
def hMove (s : State) (c c' : Cmd) (a n d : Nat) (f : List Byte → List Byte) : HStep :=
  match dvaLoad s c.root a n with
  | (_, some e, s) => ⟨s, c, some e⟩
  | (bs, none, s) =>
    let r := dvaPut s c.root d (f bs)
    match r.bad with
    | some e => ⟨s, c, some e⟩
    | none => ⟨r.s, c', none⟩

/-- One row of HGATH (R352). -/
def gathStep (s : State) (c : Cmd) : HStep :=
  match dvaLoad s c.root (c.b.aux.toNat + 4 * c.reached) 4 with
  | (_, some e, s) => ⟨s, c, some e⟩
  | (ib, none, s) =>
    hMove s c { c with reached := c.reached + 1 } (wrap64 ((c.b.src.toNat : Int) + (leNat ib * c.b.len : Nat))) c.b.len
      (c.b.dst.toNat + c.reached * c.b.len) id

/-- Add of R352. -/
def redAdd (ty a b : Nat) : Nat :=
  if ty = 0 then (a + b) % 2 ^ 32 else (fAdd (fmtOf (ty - 2)) a b).1

/-- The sum as it is written: every NaN is the default NaN (R352). -/
def redOut (ty v : Nat) : Nat :=
  if ty = 0 then v else if (hFloat ty v).isNan then (fmtOf (ty - 2)).nanBits else v

/-- The element e of the regions of a list, added to a sum in order (DEDUCED, notes/assumptions/29.md). -/
def redSum (c : Cmd) : List Nat → Option Nat → State → (Nat ⊕ (Nat × Nat)) × State
  | [], acc, s => (.inl (acc.getD 0), s)
  | a :: r, acc, s =>
    let n := hSize c.ty
    match dvaLoad s c.root (wrap64 ((a : Int) + (n * c.reached : Nat))) n with
    | (_, some e, s) => (.inr e, s)
    | (bs, none, s) => redSum c r (some (match acc with | some v => redAdd c.ty v (leNat bs) | none => leNat bs)) s

/-- One element of HRED (R352). -/
def redStep (s : State) (c : Cmd) : HStep :=
  let n := hSize c.ty
  let d := wrap64 ((c.b.dst.toNat : Int) + (n * c.reached : Nat))
  let regions := (List.range c.b.aux.toNat).map (regionAt c)
  match redSum c (if c.op = 1 then c.b.dst.toNat :: regions else regions) none s with
  | (.inr e, s) => ⟨s, c, some e⟩
  | (.inl v, s) =>
    let r := dvaPut s c.root d (leBytes n (redOut c.ty v))
    match r.bad with
    | some e => ⟨s, c, some e⟩
    | none => ⟨r.s, { c with reached := c.reached + 1 }, none⟩

/-- Flags of a conversion are kept for the completion record. -/
def Cmd.flag (c : Cmd) (f : Flags) : Cmd := { c with w2 := c.w2 ||| f.zeroExtend 64 }

/-- One block of HCVT quantise (R227, R353). -/
def quantStep (s : State) (c : Cmd) : HStep :=
  let z := cvtSize c.ty
  let p := c.w0.toNat
  let kb := cvtLen c
  let first := c.reached * kb
  let n := min kb (c.b.aux.toNat - first)
  match dvaLoad s c.root (wrap64 ((c.b.src.toNat : Int) + (z * first : Nat))) (z * n) with
  | (_, some e, s) => ⟨s, c, some e⟩
  | (bs, none, s) =>
    let xs := (List.range kb).map fun e =>
      if e < n then (fmtOf c.ty).value (fieldAt bs (z * e) z) else .fin false 0 0
    let tag := bits p 4 4
    let (blk, fl) := quantBlock (bits p 0 4) tag xs (BitVec.ofNat 64 (c.idx.getD tag 0)) (bits p 32 32 + 7 * c.reached)
    let r := dvaPut s c.root (wrap64 ((c.b.dst.toNat : Int) + (64 * c.reached : Nat))) blk
    match r.bad with
    | some e => ⟨s, c, some e⟩
    | none => ⟨r.s, { c.flag fl with reached := c.reached + 1 }, none⟩

/-- One block of HCVT dequantise (R203, R353): it is checked as it is read. -/
def dequantStep (s : State) (c : Cmd) : HStep :=
  let z := cvtSize c.ty
  let p := c.w0.toNat
  let kb := cvtLen c
  let a := wrap64 ((c.b.src.toNat : Int) + (64 * c.reached : Nat))
  match dvaLoad s c.root a 64 with
  | (_, some e, s) => ⟨s, c, some e⟩
  | (blk, none, s) =>
    match dqntCause (bits p 8 1) (sdbFmt blk) with
    | some cause => ⟨s, c, some (cause, a)⟩
    | none =>
      let seeds := fun t => BitVec.ofNat 64 (c.idx.getD t 0)
      let (vs, fl) := dequantBlock blk (kb / 7) seeds (bits p 32 32 + 7 * c.reached)
      let d := wrap64 ((c.b.dst.toNat : Int) + (z * kb * c.reached : Nat))
      let r := dvaPut s c.root d (vs.flatMap fun v => leBytes z (narrow c.ty v))
      match r.bad with
      | some e => ⟨s, c, some e⟩
      | none => ⟨r.s, { c.flag fl with reached := c.reached + 1 }, none⟩

/-- One unit of work of an H command. -/
def hStep (s : State) (c : Cmd) : HStep :=
  match c.kind with
  | .hscan => scanStep s c
  | .hgath => gathStep s c
  | .hred => redStep s c
  | _ => if c.op = 0 then quantStep s c else dequantStep s c

/-- An H command may stop before its next unit: no aligned eight-byte word of device memory that it reads or writes is cut
(R377). -/
def hCut (c : Cmd) : Bool :=
  let whole := fun (size a : Nat) => (a + size * c.reached) % 8 == 0
  match c.kind with
  | .hscan => whole (hSize c.ty) c.b.src.toNat
  | .hred =>
    let regions := (List.range c.b.aux.toNat).map (regionAt c)
    (c.b.dst.toNat :: regions).all (whole (hSize c.ty))
  | .hgath => true
  | _ =>
    let size := cvtSize c.ty * cvtLen c
    if c.op = 0 then whole size c.b.src.toNat else whole size c.b.dst.toNat

/-- At least n units of work, as far as a word is not cut and work is left. The fuel is the number of units. -/
def hRun : Nat → Nat → State → Cmd → HStep
  | 0, _, s, c => ⟨s, c, none⟩
  | fuel + 1, n, s, c =>
    if hUnits c ≤ c.reached ∨ (n = 0 ∧ hCut c) then ⟨s, c, none⟩
    else
      let r := hStep s c
      match r.bad with
      | some _ => r
      | none => hRun fuel (n - 1) r.s r.c

/-- The completion record of an HCVT (R353): QUF, QOF, QNAN and Q8NEG in bits 0 to 3. -/
def crecBytes (c : Cmd) : List Byte := leBytes 8 (bits c.w2.toNat 6 4)

/-- What an H command writes once its units are done: the ring's header, or the completion record. -/
def hLast (s : State) (c : Cmd) : Adv :=
  match c.kind with
  | .hscan => dvaPut s c.root c.b.dst.toNat (scanHeader c)
  | .hcvt => if c.w1 = 0 then ⟨s, 0, none⟩ else dvaPut s c.root c.w1.toNat (crecBytes c)
  | _ => ⟨s, 0, none⟩

/-- A walk of an H command has ended (R350): its next units are done, or it is parked on the buffer die's list. How many
units go in one step is free. -/
def hWalked (s : State) (i : Nat) (c : Cmd) : State :=
  if (s.stack c.arg).lost then failCmd s i (cStackLost, 0)
  else if !mayPerform s i c (c.touches s) || (c.touches s).any (stripesBusy s) then tryAgain s .translationWalkDone i
  else
    match (if c.kind = .hscan ∧ !c.ready then ringPlaced s c else none) with
    | some bad => failCmd s i bad
    | none =>
      let r := hRun (hUnits c - c.reached) (1 + Config.latency s.free) s { c with ready := true }
      let s := { r.s.setCmd i r.c with free := s.free + 1 }
      match r.bad with
      | some bad => failCmd s i bad
      | none =>
        if r.c.reached < hUnits r.c then s.later .translationWalkDone { a := i }
        else
          let l := hLast s r.c
          match l.bad with
          | some bad => failCmd s i bad
          | none => l.s.later .hCommandComplete { a := i }

/-- H_COMMAND_COMPLETE (R350, R354): the latch names a command whose work is done; one whose stack is lost by now completes with
error. -/
def execHCommandComplete (s : State) : Res :=
  let i := s.ev.a
  let c := s.cmd i
  if (fget? s.cmds i).isNone ∨ !c.kind.onStack ∨ c.queued ∨ c.parked.isSome ∨ c.err ≠ 0 ∨ c.reached < hUnits c then
    .fault .notEnabled
  else if (s.stack c.arg).lost then .next (failCmd s i (cStackLost, 0))
  else .next ((releaseWaiters { s with cmds := fdel s.cmds i } c).after 1 .stackEngineStart { a := c.arg })

end Sys2Proof.Machine
end

