-- ==== Sys2Proof/Machine/Sync.lean ====
section
/-! DEFINITION. Synchronisation instructions: rings, named and package barriers, die semaphores, active messages and the
waits on put counters (15_synchronisation.md R355 to R374; 12_copy_engines.md R302). -/

namespace Sys2Proof.Machine

/-- A waiting instruction that has issued (R101): it completes in this clk, or holds its queue. -/
def State.waitFor (s : State) (h : Hdr) (met : Bool) : State := if met then s.finish h 0 else s.holdQ h

/-! ### Rings -/

/-- The ring number of a ring instruction (R360). -/
def ringNo (b : BitVec 5) (u : BitVec 1) : Nat := b.toNat + 32 * u.toNat

/-- The count of a ring instruction (R360). -/
def ringCount (s : State) (a : BitVec 5) : Nat := if a = 0 then 1 else bits s.iss.xa.toNat 0 32

/-- The checks every ring instruction makes first (R360): the cause that fails. -/
def ringCheck (r : Ring) (n : Nat) (producer : Bool) : Option Nat :=
  if r.nslot = 0 ∨ r.nslot < n then some cRingField
  else if !(if producer then r.produces else r.consumes) then some cRingEnd
  else none

/-- The key of the rings of the context in the latch. -/
def State.ringKey (s : State) : Nat := s.myPcore s.iss.ctx

/-- RCLAIM (R360). -/
def execRclaim (h : Hdr) (d b : BitVec 5) (u : BitVec 1) (s : State) : Res :=
  let q := ringNo b u
  let r := s.ring s.ringKey q
  match ringCheck r 0 true with
  | some c => .next (s.raise c (BitVec.ofNat 64 q))
  | none =>
    if r.free = 0 then .next (s.raise cRingFull (BitVec.ofNat 64 q))
    else .next (((s.setRing s.ringKey q r.claim).landX d (BitVec.ofNat 64 r.next) 2).finish h 2)

/-- RCOMMIT and RPOP: checked at issue, applied in the clk after it, or after the last earlier access of the queue has been
performed (R360, R362) (DEDUCED, notes/assumptions/25.md). -/
def ringApply (h : Hdr) (a b : BitVec 5) (u : BitVec 1) (producer : Bool) (s : State) : Res :=
  let q := ringNo b u
  let r := s.ring s.ringKey q
  let n := ringCount s a
  let core := physOf (coreOf s.iss.ctx)
  if s.iss.again then
    if !s.accessed (s.now - 1) then .next (s.holdQ h)
    else .next ((if producer then ringCommit s s.cc.part core q n else ringPop s s.cc.part core q n).finish h 0)
  else
    match ringCheck r n producer with
    | some c => .next (s.raise c (BitVec.ofNat 64 q))
    | none =>
      if n = 0 then .next (s.finish h 0)
      else if producer ∧ r.clm < n then .next (s.raise cRingNoclaim (BitVec.ofNat 64 q))
      else if !producer ∧ r.fill < n then .next (s.raise cRingEmpty (BitVec.ofNat 64 q))
      else .next (s.holdQ h)

/-- RCOMMIT (R360, R362). -/
def execRcommit (h : Hdr) (a b : BitVec 5) (u : BitVec 1) (s : State) : Res := ringApply h a b u true s
/-- RPOP (R360, R362). -/
def execRpop (h : Hdr) (a b : BitVec 5) (u : BitVec 1) (s : State) : Res := ringApply h a b u false s

/-- RWAITF and RWAITE (R360). -/
def ringWait (h : Hdr) (a b : BitVec 5) (u : BitVec 1) (producer : Bool) (s : State) : Res :=
  let q := ringNo b u
  let r := s.ring s.ringKey q
  let n := ringCount s a
  match (if s.iss.again then none else ringCheck r n producer) with
  | some c => .next (s.raise c (BitVec.ofNat 64 q))
  | none => .next (s.waitFor h (n ≤ if producer then r.free else r.fill))

/-- RWAITF (R360). -/
def execRwaitf (h : Hdr) (a b : BitVec 5) (u : BitVec 1) (s : State) : Res := ringWait h a b u false s
/-- RWAITE (R360). -/
def execRwaite (h : Hdr) (a b : BitVec 5) (u : BitVec 1) (s : State) : Res := ringWait h a b u true s

/-- RPEEK (R360). -/
def execRpeek (h : Hdr) (d a b : BitVec 5) (u : BitVec 1) (s : State) : Res :=
  let q := ringNo b u
  let r := s.ring s.ringKey q
  let i := if a = 0 then 0 else s.iss.xa.toNat
  match ringCheck r 0 false with
  | some c => .next (s.raise c (BitVec.ofNat 64 q))
  | none =>
    if r.fill ≤ i then .next (s.raise cRingEmpty (BitVec.ofNat 64 q))
    else .next ((s.landX d (BitVec.ofNat 64 (r.slot (r.tail + i))) 2).finish h 2)

/-! ### Named barriers -/

/-- The physical core a barrier address names and the index (R364): none where it breaks R364. A core slot names a core
of the cluster that the part holds (DEDUCED, notes/assumptions/26.md). -/
def barAddr (s : State) (v : Nat) : Option (Nat × Nat) :=
  let core := coreOf s.iss.ctx
  let n := clusterCores (kindOf (posOf core))
  let slot := bits v 9 2
  let k := physOf core / n * n + slot
  if v / 2 ^ 11 ≠ 0 ∨ n ≤ slot then none
  else if (s.place s.cc.part).cores.any fun e => e.1 == k then some (k, bits v 0 9)
  else none

/-- The barrier address of BARI and BARW names the issuing core (R364). -/
def ownBar (s : State) : Option Nat :=
  match barAddr s s.iss.xa.toNat with
  | some (k, i) => if k = physOf (coreOf s.iss.ctx) then some i else none
  | none => none

/-- BARI (R365). -/
def execBari (h : Hdr) (_a : BitVec 5) (i : BitVec 8) (s : State) : Res :=
  match ownBar s with
  | none => .next (s.raise cBarAddr s.iss.xa)
  | some k =>
    let b := s.bar s.ringKey k
    if b.exp ≠ 0 ∧ b.cnt ≠ 0 then .next (s.raise cBarState s.iss.xa)
    else
      let b := { b with exp := i.toNat }
      .next ((s.setBar s.ringKey k (if b.exp ≤ b.cnt then b.complete else b)).finish h 0)

/-- The commands a context has accepted and not seen complete (R365). -/
def commandsOf (s : State) (ck : Nat) : List Nat :=
  (s.cmds.filter fun e => e.2.ctx == ck && e.2.part == (s.ctx ck).part && e.2.kind.streamed && e.2.kind != .record && e.2.kind != .node).map Prod.fst

/-- An update sent from the lane of the instruction in the latch. -/
def State.newSync (s : State) (kind : Nat) : Sync :=
  { kind := kind, part := s.cc.part, ctx := s.iss.ctx, line := s.iss.line, lane := s.iss.lane, q := s.iss.q }

/-- BARA (R365, R366): the arrival of the barrier's own core is made at issue, that of another core on its way, and with
ENG once the context's earlier commands have completed. -/
def execBara (h : Hdr) (d _a : BitVec 5) (g : BitVec 1) (s : State) : Res :=
  match barAddr s s.iss.xa.toNat with
  | none => .next (s.raise cBarAddr s.iss.xa)
  | some (core, k) =>
    let u := { s.newSync 2 with core := core, ix := k, d := physX s.iss.rot d.toNat }
    let (i, s') := s.fresh
    if g = 1 then
      .next (({ s' with syncs := fset s'.syncs i { u with after := 0 :: commandsOf s s.iss.ctx } }).finish h 0)
    else if core = physOf (coreOf s.iss.ctx) then
      let b := s.bar s.ringKey k
      if b.cnt = 65535 then .next (s.raise cBarState s.iss.xa)
      else .next (((s.setBar s.ringKey k b.arrive).landX d (BitVec.ofNat 64 b.gen) 2).finish h 2)
    else
      .next (({ s' with syncs := fset s'.syncs i { u with toPrev := h.pp, toNext := h.pn } }.later .barrierArrival
        { a := i }).countPosts h)

/-- An update may be made: the commands it waits for have completed (R365, R369). -/
def syncReady (s : State) (u : Sync) : Bool := u.after.all fun i => (fget? s.cmds i).isNone

/-- BARRIER_ARRIVAL (R365): the latch names the arrival. -/
def execBarrierArrival (s : State) : Res :=
  match fget? s.syncs s.ev.a with
  | none => .fault .notEnabled
  | some u =>
    if u.kind ≠ 2 ∨ !syncReady s u then .fault .notEnabled
    else .next ({ s with syncs := fdel s.syncs s.ev.a }.arrival u)

/-- BARW (R365). -/
def execBarw (h : Hdr) (_a _b : BitVec 5) (s : State) : Res :=
  match ownBar s with
  | none => .next (s.raise cBarAddr s.iss.xa)
  | some k => .next (s.waitFor h ((s.bar s.ringKey k).gen != bits s.iss.xb.toNat 0 32))

/-! ### Package barriers -/

/-- A package barrier of a task. -/
def State.pbar (s : State) (t j : Nat) : PBar := fget (s.task t).pbars j {}

/-- Sets it. -/
def State.setPbar (s : State) (t j : Nat) (b : PBar) : State :=
  s.setTask t { s.task t with pbars := fset (s.task t).pbars j b }

/-- An arrival comes before another: by clk, then by die position, core and context number (R368), which the key of ctxs
follows. -/
def PArr.before (e a : PArr) : Bool := e.at_ < a.at_ || (e.at_ == a.at_ && e.ctx < a.ctx)

/-- An arrival is kept in its place among the latest (R368). -/
def PBar.add (b : PBar) (a : PArr) : PBar :=
  { b with recent := b.recent.filter (·.before a) ++ [a] ++ b.recent.filter (fun e => !e.before a) }

/-- Counts one arrival (R368): its context has joined the open phase, and a count that disagrees is logged. -/
def countArrival (s : State) (t j : Nat) (a : PArr) : State :=
  let b := s.pbar t j
  let n := if b.arrived = 0 then a.n else b.n
  let s := if a.n = n then s else logFor s t a.ctx a.line a.lane 0x16 cPbState
  let c := s.ctx a.ctx
  let s := s.setCtx a.ctx { c with pbphase := fset c.pbphase j b.phase }
  if b.arrived + 1 = n then
    s.setPbar t j { b with n := n, arrived := 0, phase := b.phase + 1, release := fset b.release b.phase (a.at_ + 40) }
  else s.setPbar t j { b with n := n, arrived := b.arrived + 1 }

/-- Counts in their order the arrivals of the clks that are over on every die of the task (R63, R368). -/
def orderArrivals (s : State) (t j : Nat) : State :=
  let b := s.pbar t j
  let past := fun (a : PArr) => a.at_ < s.schedLow t
  (b.recent.filter past).foldl (fun s a => countArrival s t j a) (s.setPbar t j { b with recent := b.recent.filter (!past ·) })

/-- The operand of a package barrier breaks R367. -/
def pbBad (s : State) (v : Nat) (arrive : Bool) : Bool :=
  (s.task (s.taskOf s.iss.ctx)).launch.npb ≤ bits v 0 6 || bits v 6 10 != 0 || bits v 32 32 != 0 ||
  (arrive && bits v 16 16 == 0)

/-- PBARA (R367, R368): it issues only once every earlier access of its queue has been performed. -/
def execPbara (h : Hdr) (_a : BitVec 5) (s : State) : Res :=
  let v := s.iss.xa.toNat
  if pbBad s v true then .next (s.raise cPbRange s.iss.xa)
  else if !s.accessed s.now then .next s.notYet
  else
    let t := s.taskOf s.iss.ctx
    let j := bits v 0 6
    let s := orderArrivals s t j
    let a : PArr := ⟨s.schedOf s.iss.ctx, s.iss.ctx, bits v 16 16, s.iss.line, s.iss.lane⟩
    .next ((s.setPbar t j ((s.pbar t j).add a)).finish h 0)

/-- The phase a context joined last has been released, or it has joined none (R368). -/
def pbReleased (s : State) (t j : Nat) : Bool :=
  let b := s.pbar t j
  if b.recent.any fun a => a.ctx == s.iss.ctx then false
  else
    match fget? s.cc.pbphase j with
    | none => true
    | some p => p < b.done || (fget? b.release p).any (· ≤ s.schedOf s.iss.ctx)

/-- PBARW (R367, R368). -/
def execPbarw (h : Hdr) (_a : BitVec 5) (s : State) : Res :=
  let v := s.iss.xa.toNat
  if !s.iss.again && pbBad s v false then .next (s.raise cPbRange s.iss.xa)
  else
    let t := s.taskOf s.iss.ctx
    let j := bits v 0 6
    let s := orderArrivals s t j
    .next (s.waitFor h (pbReleased s t j))

/-- The first phase of a package barrier that is due for release (R368). -/
def releaseDue (s : State) (t j : Nat) : Bool :=
  match (s.pbar t j).release with
  | (_, clk) :: _ => clk ≤ s.schedLow t
  | [] => false

/-- PBAR_RELEASE (R368): the latch names the task and the barrier, whose oldest closed phase is released. -/
def execPbarRelease (s : State) : Res :=
  let t := s.ev.a
  let j := s.ev.b
  let s := orderArrivals s t j
  if !releaseDue s t j then .fault .notEnabled
  else
    let b := s.pbar t j
    .next (s.setPbar t j { b with release := b.release.drop 1, done := b.done + 1 })

/-! ### Die semaphores -/

/-- The position and the physical semaphore an index of the context in the latch names (R42, R369). -/
def semOf (s : State) (i : Nat) : Nat × Nat :=
  if isControl (coreOf s.iss.ctx) then (posOf (coreOf s.iss.ctx), i) else semHome s s.cc.part i

/-- An amount is out of range (R369). -/
def amountBad (v : Nat) : Bool := v == 0 || 2 ^ 32 ≤ v

/-- SEMW (R369, R370). -/
def execSemw (h : Hdr) (_a _b : BitVec 5) (s : State) : Res :=
  let i := s.iss.xa.toNat
  let n := s.iss.xb.toNat
  if !s.iss.again && (i / 2 ^ 10 != 0 || s.semLimit s.iss.ctx ≤ i || amountBad n) then .next (s.raise cSemField s.iss.xa)
  else
    let (pos, k) := semOf s i
    let (s, met) := semTry s pos k (8 * s.iss.ctx + s.iss.q.code) n
    .next (s.waitFor h met)

/-- The part a SEMS names and whether the names are in range (R369). -/
def semsTarget (s : State) (v : Nat) : Option Nat :=
  let remote := bit v 21
  let vd := bits v 16 5
  let t := s.taskOf s.iss.ctx
  let i := bits v 0 10
  if bits v 10 6 ≠ 0 ∨ v / 2 ^ 22 ≠ 0 then none
  else if remote then
    if isControl (coreOf s.iss.ctx) then none
    else
      match (s.task t).launch.dies.find? fun e => e.vdie == vd with
      | some e => if i < e.nsem then some (partKey t vd) else none
      | none => none
  else if vd ≠ 0 ∨ s.semLimit s.iss.ctx ≤ i then none
  else some s.cc.part

/-- The position and physical semaphore an index of a part names; a control core's are its die's. -/
def semsHome (s : State) (part i : Nat) : Nat × Nat := if part = 0 then semOf s i else semHome s part i

/-- SEMS (R369): a local increment is made at acceptance, a remote one on its way, and with ENG once the context's earlier
commands have completed. -/
def execSems (h : Hdr) (_a _b : BitVec 5) (g : BitVec 1) (s : State) : Res :=
  let v := s.iss.xa.toNat
  let n := s.iss.xb.toNat
  match (if amountBad n then none else semsTarget s v) with
  | none => .next (s.raise cSemField s.iss.xa)
  | some p =>
    let (pos, k) := semsHome s p (bits v 0 10)
    let (i, s') := s.fresh
    let u := { s.newSync 3 with part := p, core := pos, ix := k, amount := n }
    let arg : EvArg := { a := pos, b := k, c := n, d := s.taskOf s.iss.ctx, v := BitVec.ofNat 64 i }
    if g = 1 then
      .next ({ s' with syncs := fset s'.syncs i { u with after := 0 :: commandsOf s s.iss.ctx } }.finish h 4)
    else if bit v 21 then
      let s' := { s' with syncs := fset s'.syncs i u }
      .next ((if pos = posOf (coreOf s.iss.ctx) then s'.later .semIncrementArrival arg
        else s'.laterFar .semIncrementArrival arg).finish h 4)
    else
      match semAdd s pos k n with
      | none => .next (s.raise cSemOverflow s.iss.xa)
      | some s => .next (s.finish h 4)

/-- SEM_INCREMENT_ARRIVAL (R42, R369): the latch names the position, the semaphore, the amount and the task; where the
increment is one on its way, its number stands in v. One that has waited for commands leaves for another die now (R394). An
overflow is logged and the increment discarded. -/
def execSemIncrementArrival (s : State) : Res :=
  let e := s.ev
  let i := e.v.toNat
  let u := fget? s.syncs i
  let leaves := u.any fun u => !u.after.isEmpty && u.core != posOf (coreOf u.ctx)
  if 33 < e.a ∨ 1023 < e.b ∨ (i ≠ 0 ∧ !u.any fun u => u.kind == 3 && syncReady s u) then .fault .notEnabled
  else if leaves then
    .next ({ s with syncs := fset s.syncs i { u.getD (s.newSync 3) with after := [] } }.laterFar .semIncrementArrival e)
  else
    let s := { s with syncs := fdel s.syncs i }
    match semAdd s e.a e.b e.c, u with
    | some s, _ => .next s
    | none, some u => .next (logFor s (s.part u.part).task u.ctx u.line u.lane 0x19 cSemOverflow)
    | none, none => .next (logError s { task := e.d, cause := cSemOverflow, origin := 2, pos := e.a })

/-! ### Active messages -/

/-- The part and physical core a SEND names (R371). -/
def sendTarget (s : State) (b : Nat) : Option (Nat × Nat) :=
  let t := s.taskOf s.iss.ctx
  let vd := bits b 16 5
  match (s.task t).places.find? fun p => p.vdie == vd with
  | none => none
  | some p =>
    match p.cores[bits b 24 5]? with
    | none => none
    | some (k, _) => some (partKey t vd, k)

/-- The fields of a SEND are in range (R371). -/
def sendOk (a b : Nat) : Bool :=
  bits a 0 32 < 0x400000 && bits a 0 6 == 0 && a / 2 ^ 45 == 0 && within 64 1024 (bits b 0 16) && bits b 0 6 == 0 &&
  bits b 21 3 == 0 && b / 2 ^ 29 == 0

/-- SEND (R371): the payload is read at acceptance. -/
def execSend (h : Hdr) (_a _b : BitVec 5) (s : State) : Res :=
  let a := s.iss.xa.toNat
  let b := s.iss.xb.toNat
  match (if sendOk a b then sendTarget s b else none) with
  | none => .next (s.raise cMsgField s.iss.xa)
  | some (part, core) =>
    let w := s.windows s.iss.ctx
    let len := bits b 0 16
    match s.offend (firstOffence s w (bits a 0 32) len) with
    | (s, some (cause, val)) => .next (s.raise cause val)
    | (s', none) =>
      if atLimit s then .next s.notYet
      else
        let (i, s') := s'.fresh
        let far := (s.part part).pos ≠ posOf (coreOf s.iss.ctx)
        let m : Msg :=
          { task := s.taskOf s.iss.ctx, part := part, core := core, line := bits a 32 13, len := len
            sender := (s.part s.cc.part).vdie * 256 + (s.pcore s.ringKey).vcore, ctx := s.iss.ctx
            bytes := scratchBytes s w (bits a 0 32) len
            due := s.tb + (if far then 12 else 1) + Config.latency s.free }
        .next ({ s' with msgs := fset s'.msgs i m, free := s'.free + 1 }.finish h 4)

/-- The lowest free receive entry (R372). -/
def freeRecv (p : PartCore) : Option Nat := (List.range 16).find? fun i => (fget? p.recv i).isNone

/-- The parts of a task stand on their cores: it is not stopped (R407). -/
def Task.resident (t : Task) : Bool := t.run != .stopped && t.run != .placed

/-- A message can be taken (R371, R372): its core takes messages, an entry is free, and no earlier message of the same
context waits for the core (DEDUCED, notes/assumptions/65.md). -/
def canTake (s : State) (i : Nat) (m : Msg) : Bool :=
  let p := s.pcore (pcoreKey m.part m.core)
  p.msgEn && (s.task m.task).resident && (freeRecv p).isSome &&
  s.msgs.all fun e => i ≤ e.1 || e.2.ctx != m.ctx || e.2.part != m.part || e.2.core != m.core

/-- MESSAGE_TAKE (R372): the latch names the message (DEDUCED, notes/assumptions/31.md). -/
def execMessageTake (s : State) : Res :=
  let i := s.ev.a
  match fget? s.msgs i with
  | none => .fault .notEnabled
  | some m =>
    let pk := pcoreKey m.part m.core
    let p := s.pcore pk
    match (if canTake s i m then freeRecv p else none) with
    | none => .fault .notEnabled
    | some k =>
      let w := windowsOf s m.part (coreAt (s.part m.part).pos m.core)
      let s := winStore s w (p.msgBase + 1024 * k) m.bytes
      let r : Recv := { line := m.line, len := m.len, sender := m.sender, seq := s.nextId }
      .next { s.setPcore pk { p with recv := fset p.recv k r } with
        msgs := fdel s.msgs i, nextId := s.nextId + 1 }

/-- The ready entry that was taken first (R372). -/
def firstReady (p : PartCore) : Option (Nat × Recv) :=
  (p.recv.filter fun e => e.2.ready).foldl (fun (b : Option (Nat × Recv)) e =>
    match b with
    | some f => if e.2.seq < f.2.seq then some e else b
    | none => some e) none

/-- The lowest-numbered dormant handler context of a core (R372). -/
def dormantCtx (s : State) (core : Nat) : Option Nat :=
  (upFrom 1 7).find? fun k => (s.ctx (ctxKey core k)).run == .dormant

/-- The seeds a context starts with (R38, R149). -/
def seedsOf (s : State) (part : Nat) : FMap DWord := (s.task (s.part part).task).launch.seeds

/-- A context begins to run at a line (R22, R116, R124, R209, R397): its front end, queues and trap registers start afresh. Its
registers are zero; only a handler context that has run in its part finds them as its last run left them
(DEDUCED, notes/assumptions/30.md). -/
def Ctx.begin_ (c : Ctx) (handler : Bool) (part line clk : Nat) (seeds : FMap DWord) : Ctx :=
  let old := handler && c.started && c.part == part
  let d : Ctx := { run := .running, part := part, started := true, pc := line, front := clk, xnext := clk, fetchAt := clk }
  if old then
    { d with
      x := c.x, p := c.p, v := c.v, vm := c.vm, re := c.re, rx := c.rx, late := c.late, hs := c.hs
      tvecLine := c.tvecLine, tvecEn := c.tvecEn, nstat := c.nstat, pbphase := c.pbphase }
  else { d with hs := seeds }

/-- HANDLER_START (R372): the latch names the part and the core. -/
def execHandlerStart (s : State) : Res :=
  let pk := pcoreKey s.ev.a s.ev.b
  let p := s.pcore pk
  let core := coreAt (s.part s.ev.a).pos s.ev.b
  match (if s.dieActs (s.part s.ev.a).task (s.part s.ev.a).pos then firstReady p else none), dormantCtx s core with
  | some (i, r), some k =>
    let ck := ctxKey core k
    let c := { (s.ctx ck).begin_ true s.ev.a r.line (s.clk ck) (seedsOf s s.ev.a) with reach := .handler }
    let c := ((c.putX 1 (BitVec.ofNat 64 (p.msgBase + 1024 * i))).putX 2 (BitVec.ofNat 64 r.len)).putX 3
      (BitVec.ofNat 64 r.sender)
    let p := { p with recv := fset p.recv i { r with ready := false, ctx := k } }
    .next ((s.setCtx ck c).setPcore pk p)
  | _, _ => .fault .notEnabled

/-! ### Put counters -/

/-- CWWAIT.SENT (R302). -/
def execCwwaitSent (h : Hdr) (_a _b : BitVec 5) (s : State) : Res :=
  let v := s.iss.xa.toNat
  if 63 < v then .next (s.raise cCopyField)
  else .next (s.waitFor h (s.iss.xb.toNat ≤ (fget (s.part s.cc.part).pcnt v 0).toNat))

/-- CWWAIT.ARR (R302). -/
def execCwwaitArr (h : Hdr) (_a _b : BitVec 5) (s : State) : Res :=
  let v := s.iss.xa.toNat
  if 255 < v then .next (s.raise cCopyField)
  else if !s.iss.again && !(s.win v).valid then .next (s.raise cPutWindow)
  else .next (s.waitFor h (s.iss.xb.toNat ≤ (s.win v).arr.toNat))

end Sys2Proof.Machine
end

