-- ==== Sys2Proof/Machine/Matrix.lean ====
section
/-! DEFINITION. The matrix engine: engine order, passes and their fetches, the loop nest, accumulator set-up, drains and
status (11_matrix_engine.md R248 to R275). The rows of a stream enter the fabric in Fabric.lean. -/

namespace Sys2Proof.Machine

/-! ### The engine of a context -/

/-- The part and the physical core of an engine's key. -/
def enginePart (k : Nat) : Nat := k / 64
def enginePhys (k : Nat) : Nat := k % 64

/-- The cluster of a matrix engine. -/
def engineCluster (s : State) (k : Nat) : Nat := clusterOf (coreAt (s.part (enginePart k)).pos (enginePhys k))

/-- The clk of a matrix engine (R2). -/
def State.engineClk (s : State) (k : Nat) : Nat := s.clkOf (engineCluster s k)

/-- A register of a configuration set (R257). -/
def cfgOf (m : FMap DWord) (k : Nat) : Nat := (fget m k 0).toNat

/-- Operations enter engine order one after another (R251). -/
def enterOrder (s : State) (k : Nat) (op : MxOp) : Nat × State :=
  let (i, s) := s.fresh
  let x := s.mx k
  (i, s.setMx k { x with ops := fset x.ops i op })

/-- Changes an operation. -/
def setOp (s : State) (k i : Nat) (op : MxOp) : State :=
  let x := s.mx k
  s.setMx k { x with ops := fset x.ops i op }

/-- An operation has finished. -/
def dropOp (s : State) (k i : Nat) : State :=
  let x := s.mx k
  s.setMx k { x with ops := fdel x.ops i }

/-- Two operations use one tile (R251). -/
def MxOp.meets (a b : MxOp) : Bool := a.tiles.any b.tiles.contains

/-- Every earlier operation on its tiles has finished, but that a pass waits for no pass (R251). -/
def Mx.tileFree (x : Mx) (i : Nat) (op : MxOp) : Bool :=
  x.ops.all fun e => i ≤ e.1 || !e.2.meets op || (e.2.kind == .pass && op.kind == .pass)

/-- A nest is active or queued. -/
def Mx.nesting (x : Mx) : Bool := x.active.isSome || x.queued.isSome

/-- The operation of a context that waits to start. -/
def Mx.waitingOp (x : Mx) (ck : Nat) : Option (Nat × MxOp) :=
  x.ops.find? fun e => !e.2.started && !e.2.nest && e.2.ctx == ck

/-- A tile of the accumulator memory (R250). -/
def Mx.tile (x : Mx) (t : Nat) : List (BitVec 48) := fget x.acc t []

/-- An element of a tile. -/
def accAt (t : List (BitVec 48)) (m n : Nat) : Nat := (t.getD (64 * m + n) 0).toNat

/-- Judges accesses of a context other than through the latch (R255): the sticky flag, and the trap under
SPCTL.TRAP. -/
def judgeFor (s : State) (ck : Nat) (o : Option (Nat × Nat)) : State × Option (Nat × DWord) :=
  match o with
  | none => (s, none)
  | some (y, kind) =>
    let s' := s.setCtx ck (stickyOffence (s.ctx ck) .c (s.clk ck) y kind)
    if (s.ctx ck).sptrap then (s', some (if kind = 0 then cOutOfRange else cNotOwned, BitVec.ofNat 64 y)) else (s', none)

/-! ### Passes -/

/-- What a pass is asked to do (R256): its type (5 sparse), offsets and rings of the operands, its tile, whether it takes
the accumulator as zero, its pops, its position set, which operands it reads afresh, and its index in a nest. -/
structure PassArgs where
  ty : Nat := 0
  offA : Nat := 0
  offB : Nat := 0
  qa : Nat := 0
  qb : Nat := 0
  tile : Nat := 0
  zero : Bool := false
  popA : Bool := false
  popB : Bool := false
  set : Nat := 0
  freshA : Bool := true
  freshB : Bool := true
  pix : Nat := 0
  deriving DecidableEq, Repr

/-- The rings a pass pops, each at most once (R259). -/
def PassArgs.pops (p : PassArgs) : List Nat :=
  (if p.popA then [p.qa] else []) ++ (if p.popB && !(p.popA && p.qa == p.qb) then [p.qb] else [])

/-- The pops of a ring scheduled by passes that have started and not retired (R254). -/
def Mx.scheduled (x : Mx) (q : Nat) : Nat :=
  (x.ops.filter fun e => e.2.kind == .pass && e.2.started && e.2.pops.contains q).length

/-- The slot at the read cursor of a ring is committed (R254). -/
def slotReady (s : State) (k q : Nat) : Bool := (s.mx k).scheduled q < (s.ring k q).fill

/-- The operand slots of a pass are committed (R253). A held operand that is not popped needs none. A ring with no slots
holds no pass back: the pass raises MX_RANGE. -/
def PassArgs.committed (s : State) (k : Nat) (p : PassArgs) : Bool :=
  let ok := fun q => (s.ring k q).nslot == 0 || slotReady s k q
  (!(p.freshA || p.popA) || ok p.qa) && (!(p.freshB || p.popB) || ok p.qb)

/-- The first byte of an operand tile: the slot at the cursor and the offset (R254). -/
def tileAt (s : State) (k q off : Nat) : Nat :=
  let r := s.ring k q
  (if r.nslot = 0 then r.base else r.slot (r.tail + (s.mx k).scheduled q)) + off

/-- A tile leaves its slot (R254). -/
def tileOut (s : State) (k q off n : Nat) : Bool :=
  let r := s.ring k q
  r.nslot == 0 || 256 * r.ssz < off + n

/-- A fresh tile lies in another window, and arrives with no bound (R252). -/
def PassArgs.outside (s : State) (k : Nat) (p : PassArgs) : Bool :=
  (p.freshA && 0x1000000 ≤ tileAt s k p.qa p.offA) || (p.freshB && 0x1000000 ≤ tileAt s k p.qb p.offB)

/-- The fresh lines of a pass in the unit window (R252). -/
def PassArgs.lines (s : State) (k : Nat) (p : PassArgs) : List Nat :=
  (if p.freshA then runLines (tileAt s k p.qa p.offA) (tileBytesA p.ty) else []) ++
  (if p.freshB then runLines (tileAt s k p.qb p.offB) tileBytesB else [])

/-- The operation a pass is in engine order. -/
def PassArgs.op (p : PassArgs) (ck : Nat) (nest : Bool) : MxOp :=
  { kind := .pass, ctx := ck, nest := nest, tiles := [p.tile], ty := p.ty, zero := p.zero, pops := p.pops, pix := p.pix }

/-! ### The loop nest -/

/-- The fields of a level register (R258). -/
def lvlCount (v : Nat) : Nat := bits v 0 16
def lvlSA (v : Nat) : Int := sgn 12 (bits v 16 12)
def lvlSB (v : Nat) : Int := sgn 12 (bits v 28 12)
def lvlSC (v : Nat) : Nat := bits v 40 6
def lvlSD (v : Nat) : Int := sgn 12 (bits v 52 12)

/-- Level k of a set. -/
def level (m : FMap DWord) (k : Nat) : Nat := cfgOf m (4 + k)

/-- Bits of the level registers. -/
def lvlPopA (v : Nat) : Bool := bit v 46
def lvlPopB (v : Nat) : Bool := bit v 47
def lvlHoldA (v : Nat) : Bool := bit v 48
def lvlHoldB (v : Nat) : Bool := bit v 49
def lvlZero (v : Nat) : Bool := bit v 50
def lvlDrain (v : Nat) : Bool := bit v 51

/-- Some level has a bit (R259). -/
def someLevel (m : FMap DWord) (f : Nat → Bool) (at_ : Nat → Bool) : Bool :=
  (List.range 6).any fun k => f (level m k) && at_ k

/-- First(k) and Last(k) of R259. -/
def Nest.first (n : Nest) (k : Nat) : Bool := (List.range k).all fun j => n.idx.getD j 0 == 0
def Nest.last (n : Nest) (k : Nat) : Bool :=
  (List.range k).all fun j => n.idx.getD j 0 + 1 == lvlCount (level n.regs j)

/-- The highest level that holds an operand. -/
def holdLevel (m : FMap DWord) (f : Nat → Bool) : Option Nat := (List.range 6).reverse.find? fun k => f (level m k)

/-- An operand is read afresh (R259, R274): no level holds it, or this is the first pass of the holding level's
iteration, or no copy is held. -/
def Nest.fresh (n : Nest) (f : Nat → Bool) (held : Option (List Byte)) : Bool :=
  match holdLevel n.regs f with
  | none => true
  | some h => n.first h || held.isNone

/-- An offset with its strides, in 32 bits (R259). -/
def Nest.offset (n : Nest) (base : Nat) (f : Nat → Int) : Nat :=
  low 32 ((base : Int) + ((List.range 6).map fun k => 256 * ((n.idx.getD k 0 : Nat) : Int) * f (level n.regs k)).foldl (· + ·) 0)

/-- The next pass of a nest (R259). -/
def Nest.args (n : Nest) : PassArgs :=
  let c := cfgOf n.regs 0
  let o := cfgOf n.regs 1
  { ty := if n.sparse then 5 else bits c 0 3
    offA := n.offset (bits o 0 32) lvlSA
    offB := n.offset (bits o 32 32) lvlSB
    qa := bits c 8 6
    qb := bits c 16 6
    tile := (bits c 24 6 + ((List.range 6).map fun k => n.idx.getD k 0 * lvlSC (level n.regs k)).foldl (· + ·) 0) % 64
    zero := someLevel n.regs lvlZero n.first
    popA := someLevel n.regs lvlPopA n.last
    popB := someLevel n.regs lvlPopB n.last
    set := (bits c 32 5 + n.pB) % 32
    freshA := n.fresh lvlHoldA n.heldA
    freshB := n.fresh lvlHoldB n.heldB
    pix := n.pass }

/-- The drain after the next pass of a nest, if there is one (R259): DKIND and the destination. -/
def Nest.drain (n : Nest) : Option (Nat × Nat) :=
  if someLevel n.regs lvlDrain n.last then
    some (bits (cfgOf n.regs 0) 40 2, n.offset (bits (cfgOf n.regs 3) 0 32) lvlSD)
  else none

/-- The loop indices after a pass, i0 varying fastest; none after the last. -/
def nextIdx (cs : List Nat) : List Nat → Option (List Nat)
  | [] => none
  | i :: r =>
    match cs with
    | [] => none
    | c :: cr => if i + 1 < c then some ((i + 1) :: r) else (nextIdx cr r).map (0 :: ·)

/-- The nest after its next pass has started with copies of the operands read. -/
def Nest.advance (n : Nest) (a b : List Byte) : Nest :=
  let p := n.args
  let cs := (List.range 6).map fun k => lvlCount (level n.regs k)
  let n := { n with gen := none, heldA := some a, heldB := some b, pass := n.pass + 1, pB := n.pB + b2n p.popB }
  match nextIdx cs n.idx with
  | some i => { n with idx := i }
  | none => { n with done := true }

/-! ### Fetch and start -/

/-- The next pass in engine order (R251, R252): the one the active nest has produced, else the earliest MPASS or MSPASS that
waits while no nest is active or queued. -/
def Mx.nextPass (x : Mx) : Option (Nat × PassArgs × MxOp) :=
  match x.active with
  | some n => n.gen.map fun i => (i, n.args, n.args.op n.ctx true)
  | none =>
    if x.queued.isSome then none
    else
      (x.ops.find? fun e => e.2.kind == .pass && !e.2.started).map fun (i, op) =>
        let c := op.word.toNat
        (i, { ty := op.ty, offA := op.dst, offB := op.rs, qa := bits c 8 6, qb := bits c 16 6, tile := bits c 24 6
              zero := bit c 30, popA := bit c 32, popB := bit c 33, set := bits c 40 5 }, op)

/-- The address generator of the active nest produces its next pass, when the pass before it has started: the pass enters
engine order, and its drain directly after it (R251, R259) (DEDUCED, notes/assumptions/33.md). -/
def produce (s : State) (k clk : Nat) : State :=
  match (s.mx k).active with
  | none => s
  | some n =>
    if n.done || n.gen.isSome || clk < n.at_ then s
    else
      let p := n.args
      let (i, s) := enterOrder s k (p.op n.ctx true)
      let s := match n.drain with
        | none => s
        | some (d, dst) =>
          (enterOrder s k
            { kind := if d = 0 then .drain else if d = 1 then .stream else .drainq
              ctx := n.ctx, nest := true, line := n.line, lane := n.lane, tiles := [p.tile], word := fget n.regs 2 0
              dst := dst, rs := bits (cfgOf n.regs 3) 32 32, pix := n.pass }).2
      let x := s.mx k
      s.setMx k { x with active := some { n with gen := some i } }

/-- What the active nest has produced and not started is taken back: the next pass and its drain. -/
def Mx.takenBack (x : Mx) : Mx :=
  match x.active with
  | none => x
  | some n =>
    match n.gen with
    | none => x
    | some i =>
      { x with active := some { n with gen := none }, ops := x.ops.filter fun e => e.1 < i || !e.2.nest
               fetch := none, reading := [] }

/-- The engine's fetch asks the banks of its core, from a clk on (R113, R252). -/
def fetchAsks (s : State) (k clk : Nat) (ls : List Nat) : State :=
  let m := lineBanks ls
  portWaits (s.setMx k { (s.mx k) with reading := m }) (coreAt (s.part (enginePart k)).pos (enginePhys k)) clk (m.map Prod.fst)

/-- The fetch of the next pass begins, no earlier than a clk (R252): it ends when its last line in the unit window has its
bank, and the lines of other windows have arrived (DEDUCED, notes/assumptions/33.md). -/
def beginFetch (s : State) (k clk : Nat) : State :=
  let s := produce s k clk
  let x := s.mx k
  match x.fetch, x.nextPass with
  | none, some (_, p, _) =>
    if !p.committed s k then s
    else
      let ls := p.lines s k
      let out := p.outside s k
      if ls.isEmpty ∧ !out then s.setMx k { x with fetch := some (max clk (x.lastStart + 1)) }
      else
        let b := max clk (x.fetchEnd + 1)
        let s := s.setMx k { x with fetch := some (if out then b + 1 + Config.latency s.free else b + 1) }
        fetchAsks { s with free := s.free + b2n out } k b ls
  | _, _ => s

/-- Rule 1 of R253 for the next pass. -/
def Mx.passTileFree (x : Mx) (i : Nat) (op : MxOp) : Bool :=
  x.ops.all fun e => i ≤ e.1 || e.2.kind == .pass || !e.2.meets op

/-- Rules 2 to 4 of R253, and that no pass starts in the same clk as another. -/
def passDue (s : State) (k : Nat) (p : PassArgs) : Bool :=
  let x := s.mx k
  p.committed s k && x.reading.isEmpty && x.fetch.any (· ≤ s.engineClk k) && x.lastStart != s.engineClk k &&
  (p.ty == 3 || p.ty == 4 || (x.starts.filter fun c => s.engineClk k ≤ c + 7).length < 7)

/-- The tile bytes a pass reads (R255): an offending byte reads as 0. -/
def tileRead (s : State) (ck a n : Nat) : List Byte := scratchBytes s (s.windows ck) a n

/-- The address and index a pass reports in TVAL (R256). -/
def passVal (pix a : Nat) : DWord := BitVec.ofNat 64 (a % 2 ^ 32 + 2 ^ 32 * (pix % 2 ^ 32))

/-- What starting a pass comes to: the fault, or the operand bytes and positions. -/
structure PassRead where
  a : List Byte := []
  b : List Byte := []
  pos : List Byte := []
  deriving DecidableEq, Repr

/-- The checks of a pass at its start, in order (R254 to R256, R262): held copies are not read again. -/
def passChecks (s : State) (k ck : Nat) (p : PassArgs) (heldA heldB : List Byte) :
    State × ((Nat × DWord) ⊕ PassRead) :=
  let na := tileBytesA p.ty
  let aa := tileAt s k p.qa p.offA
  let ab := tileAt s k p.qb p.offB
  let fault := fun (s : State) c a => (s, .inl (c, passVal p.pix a))
  if (s.ring k p.qa).fin = 1 ∨ (s.ring k p.qb).fin = 1 then fault s cRingEnd aa
  else if p.freshA && tileOut s k p.qa p.offA na then fault s cMxRange aa
  else if p.freshB && tileOut s k p.qb p.offB tileBytesB then fault s cMxRange ab
  else
    let w := s.windows ck
    let off := (if p.freshA then firstOffence s w aa na else none).orElse fun _ =>
      if p.freshB then firstOffence s w ab tileBytesB else none
    match judgeFor s ck off with
    | (s, some (c, v)) => fault s c v.toNat
    | (s, none) =>
      let a := if p.freshA then tileRead s ck aa na else heldA
      let b := if p.freshB then tileRead s ck ab tileBytesB else heldB
      let pos := if p.ty = 5 then fget (s.mx k).side p.set [] else []
      match (if isBlockPass p.ty then blockFault p.ty a b else none) with
      | some (c, isA, i) => fault s c ((if isA then aa else ab) + 64 * i)
      | none =>
        match (if p.ty = 5 then posFault pos else none) with
        | some n => fault s cSparsePos (ab + 64 * n)
        | none => (s, .inr ⟨a, b, pos⟩)

/-- A pass starts: it is in flight, its pops are scheduled, it retires 14 clks on, and the next fetch can begin. -/
def passStart (s : State) (k i : Nat) (op : MxOp) (r : PassRead) : State :=
  let x := s.mx k
  let op := { op with started := true, a := r.a, b := r.b, pos := r.pos, fin := s.engineClk k + 14 }
  let x := { x with
    ops := fset x.ops i op, fetch := none, lastStart := s.engineClk k
    starts := if op.ty = 3 ∨ op.ty = 4 then x.starts else (s.engineClk k :: x.starts).take 8 }
  (s.setMx k x).afterClk (engineCluster s k) 14 .matrixPassRetire { a := k, b := i }

/-- A nest fault stops the nest (R261): both sets are discarded, and the fault is raised in the context of the MGO at its
next line boundary; where the context has ended the fault escalates (DEDUCED, notes/assumptions/32.md). -/
def nestFault (s : State) (k : Nat) (n : Nest) (f : Nat × DWord) : State :=
  let s := s.setMx k { (s.mx k).takenBack with active := none, queued := none, fetch := none }
  let c := s.ctx n.ctx
  let p : Pending := ⟨f.1, 2, n.line, n.lane, Queue.c.code, f.2⟩
  if (c.run == .running || c.run == .draining) && c.part == enginePart k then
    s.setCtx n.ctx { c with pend := c.pend ++ [p] }
  else s.escalate n.ctx p

/-- The engine may work: its part's task acts and its cluster has its clock (R63, R253). -/
def engineActs (s : State) (k : Nat) : Bool :=
  let p := s.part (enginePart k)
  !s.halted && s.dieActs p.task p.pos && clocked s (coreAt p.pos (enginePhys k)) && !(s.cluster (engineCluster s k)).gap && s.alive p.pos

/-- The next pass of the active nest may start in this clk. Pre-emption stops a nest between passes (R274). -/
def nestDue (s : State) (k : Nat) : Bool :=
  let x := s.mx k
  match x.active, x.nextPass with
  | some _, some (i, p, op) =>
    engineActs s k && !taskStill s (s.part (enginePart k)).task && x.passTileFree i op && passDue s k p
  | _, _ => false

/-- MATRIX_PASS_START (R253, R259): the latch names the engine, whose active nest's next pass starts. -/
def execMatrixPassStart (s : State) : Res :=
  let k := s.ev.a
  match (s.mx k).active, (s.mx k).nextPass with
  | some n, some (i, p, op) =>
    if !nestDue s k then .fault .notEnabled
    else
      match passChecks s k n.ctx p (n.heldA.getD []) (n.heldB.getD []) with
      | (s, .inl f) => .next (nestFault s k n f)
      | (s, .inr r) =>
        let s := passStart s k i op r
        let x := s.mx k
        let s := s.setMx k { x with active := some (n.advance r.a r.b) }
        .next (beginFetch s k (s.engineClk k))
  | _, _ => .fault .notEnabled

/-- The nest whose last pass has retired is over; a queued set becomes active in the next clk (R260). -/
def nestOver (s : State) (k : Nat) : State :=
  let x := s.mx k
  match x.active with
  | some n =>
    if n.done && x.ops.all fun e => !(e.2.kind == .pass && e.2.nest) then
      s.setMx k { x with active := none, activateAt := s.engineClk k + 1, fetch := none }
    else s
  | none => s

/-- MATRIX_PASS_RETIRE (R253, R254, R256): the latch names the engine and the pass. Its tile is written, its pops are
performed. -/
def execMatrixPassRetire (s : State) : Res :=
  let k := s.ev.a
  let x := s.mx k
  match fget? x.ops s.ev.b with
  | none => .fault .notEnabled
  | some op =>
    if op.kind ≠ .pass ∨ !op.started then .fault .notEnabled
    else
      let t := op.tiles.headD 0
      let old := x.tile t
      let (acc, ovf) := passTile op.ty op.a op.b op.pos fun m n => if op.zero then 0 else accAt old m n
      let fl : BitVec 5 := BitVec.ofNat 5 (b2n ovf + 2 * b2n (passQ8neg op.ty op.a op.b))
      let s := s.setMx k { x with
        acc := fset x.acc t acc, flags := x.flags ||| fl, passes := x.passes + 1, ops := fdel x.ops s.ev.b }
      let s := op.pops.foldl (fun s q => ringPop s (enginePart k) (enginePhys k) q 1) s
      .next (nestOver s k)

/-- NEST_ACTIVATE (R260): the latch names an engine with a queued set and no active one. -/
def execNestActivate (s : State) : Res :=
  let k := s.ev.a
  let x := s.mx k
  match x.active, x.queued with
  | none, some n =>
    if s.engineClk k < x.activateAt ∨ !engineActs s k ∨ taskStill s (s.part (enginePart k)).task then .fault .notEnabled
    else .next (s.setMx k { x with active := some { n with at_ := s.engineClk k }, queued := none })
  | _, _ => .fault .notEnabled

/-! ### Zeroes, loads and drains -/

/-- The element size and the width in memory of a drain format (R269). -/
def drainSize (f : Nat) : Nat := if f = 1 then 2 else if f = 3 then 8 else 4

/-- An element as a drain writes it, and ACCOVF (R186, R269). -/
def drainElem (f acc : Nat) : Nat × Bool :=
  match f with
  | 0 => (a48To 0 acc, false)
  | 1 => (a48To 1 acc, false)
  | 2 => a48iTo32 acc
  | _ => ((sext64 48 acc).toNat, false)

/-- An element as a load reads it (R269). -/
def loadElem (f v : Nat) : BitVec 48 :=
  match f with
  | 0 => BitVec.ofNat 48 (a48f.ofValue 0 true (fp32.value v)).1
  | 1 => BitVec.ofNat 48 (a48f.ofValue 0 true (bf16.value v)).1
  | 2 => BitVec.ofNat 48 (low 48 (sgn 32 v))
  | _ => BitVec.ofNat 48 v

/-- The bytes of row m of a drained tile, with ACCOVF. -/
def drainRow (f : Nat) (t : List (BitVec 48)) (m : Nat) : List Byte × Bool :=
  let es := (List.range 64).map fun n => drainElem f (accAt t m n)
  (es.flatMap fun e => leBytes (drainSize f) e.1, es.any Prod.snd)

/-- What an operation that starts comes to: a fault, or the state and its length in clks. -/
abbrev Started := State × ((Nat × DWord) ⊕ Nat)

/-- The first offending byte of runs of bytes. -/
def runsOffence (s : State) (w : Windows) (rs : List (Nat × Nat)) : Option (Nat × Nat) :=
  rs.findSome? fun (a, n) => firstOffence s w a n

/-- The length of an operation that reaches scratchpad: its bound in the unit window, none in another (R154, R263). -/
def reachBound (s : State) (as : List Nat) (b : Nat) : Nat × State :=
  if as.all (· < 0x1000000) then (b, s) else (b + Config.latency s.free, { s with free := s.free + 1 })

/-- Writes runs of bytes of a drain, judged as accesses of a context (R255). -/
def drainWrite (s : State) (ck : Nat) (ws : List (Nat × List Byte)) (b : Nat) : Started :=
  let w := s.windows ck
  match judgeFor s ck (runsOffence s w (ws.map fun e => (e.1, e.2.length))) with
  | (s, some f) => (s, .inl f)
  | (s, none) =>
    let s := ws.foldl (fun s e => scratchStore s w e.1 e.2) s
    let s := ws.foldl (fun s e => portAsks s w true e.1 e.2.length) s
    let (b, s) := reachBound s (ws.map Prod.fst) b
    (s, .inr b)

/-- Sets sticky flags of MXST (R273). -/
def mxFlag (s : State) (k : Nat) (f : BitVec 5) : State :=
  let x := s.mx k
  s.setMx k { x with flags := x.flags ||| f }

/-- A drain of a tile (R269). -/
def drainTile (s : State) (k ck tile f dst rs : Nat) : Started :=
  let t := (s.mx k).tile tile
  let rows := (List.range 32).map fun m => (dst + rs * m, drainRow f t m)
  match drainWrite s ck (rows.map fun e => (e.1, e.2.1)) (8 + 32 * if f = 3 then 2 else 1) with
  | (s, .inl e) => (s, .inl e)
  | (s, .inr b) => (if rows.any fun e => e.2.2 then mxFlag s k 1 else s, .inr b)

/-- A load of a tile (R269). -/
def loadTile (s : State) (k ck tile f src rs : Nat) : Started :=
  let w := s.windows ck
  let n := 64 * drainSize f
  let as := (List.range 32).map fun m => src + rs * m
  match judgeFor s ck (runsOffence s w (as.map fun a => (a, n))) with
  | (s, some e) => (s, .inl e)
  | (s, none) =>
    let t := as.flatMap fun a =>
      let r := scratchBytes s w a n
      (List.range 64).map fun e => loadElem f (fieldAt r (drainSize f * e) (drainSize f))
    let x := s.mx k
    let s := as.foldl (fun s a => portAsks s w true a n) (s.setMx k { x with acc := fset x.acc tile t })
    let (b, s) := reachBound s as (8 + 32 * if f = 3 then 2 else 1)
    (s, .inr b)

/-- The rows of a stream (R270) and ACCOVF. -/
def streamRows (t : List (BitVec 48)) (sf : Bool) : List (List Word) × Bool :=
  let es := (List.range 32).map fun m => (List.range 64).map fun n => drainElem (if sf then 2 else 0) (accAt t m n)
  (es.map fun r => r.map fun e => BitVec.ofNat 32 e.1, es.any fun r => r.any Prod.snd)

/-! ### MDRAINQ -/

/-- Kb of a format (R271). -/
def quantLen (f : Nat) : Nat := if f = 1 then 112 else 56

/-- What draining rows has come to. -/
structure QRun where
  rows : FMap MxRow
  out : List (Nat × List Byte) := []
  fl : Flags := 0

/-- A row of the MDRAINQ stream. -/
def rowOf (m : FMap MxRow) (k : Nat) : MxRow := fget m k {}

/-- Emit(m) of R272. -/
def emitBlock (q : QRun) (m f tag : Nat) (seed : DWord) (dst rs : Nat) : QRun :=
  let r := rowOf q.rows m
  let xs := (r.stage ++ List.replicate (quantLen f - r.stage.length) 0).map fun (w : Word) => fp32.value w.toNat
  let (blk, fl) := quantBlock f tag xs seed ((r.g0 + 7 * r.emit) % 2 ^ 32)
  { rows := fset q.rows m { r with emit := (r.emit + 1) % 2 ^ 32, stage := [] }
    out := q.out ++ [(dst + rs * m + 64 * r.emit, blk)], fl := q.fl ||| fl }

/-- Stages an element of a row. -/
def stageElem (q : QRun) (m f tag : Nat) (seed : DWord) (dst rs : Nat) (v : Word) : QRun :=
  let r := rowOf q.rows m
  let q := { q with rows := fset q.rows m { r with stage := r.stage ++ [v] } }
  if r.stage.length + 1 = quantLen f then emitBlock q m f tag seed dst rs else q

/-- One row of R272. -/
def drainqRow (t : List (BitVec 48)) (f tag cols : Nat) (close : Bool) (seed : DWord) (dst rs : Nat) (q : QRun) (m : Nat) :
    QRun :=
  let q := (List.range cols).foldl (fun q n =>
    stageElem q m f tag seed dst rs (BitVec.ofNat 32 (a48To 0 (accAt t m n)))) q
  if close then
    let q := if (rowOf q.rows m).stage.isEmpty then q else emitBlock q m f tag seed dst rs
    { q with rows := fset q.rows m { rowOf q.rows m with opened := false, emit := 0 } }
  else q

/-- The x[b] word of MDRAINQ has a field out of range (R271, R272). -/
def drainqBad (v : Nat) : Bool :=
  bits v 6 2 != 0 || bit v 11 || bit v 23 || bits v 26 6 != 0 || !within 1 4 (bits v 8 3) || 64 < bits v 16 7 ||
  (bits v 16 7 == 0 && !bit v 24 && !bit v 25)

/-- MDRAINQ on rows row0 to row0 + nr - 1 (R272): every check is made before any state changes. -/
def drainQuant (s : State) (k ck tile v row0 nr dst rs : Nat) : Started :=
  let x := s.mx k
  let f := bits v 8 3
  let tag := bits v 12 4
  let opening := bit v 24
  let inRange := fun m => row0 ≤ m && m < row0 + nr
  let opened := fun m => (rowOf x.rows m).opened
  let same := x.qfmt == f && x.qtag == tag
  let all := List.range 32
  if opening && tag == 0 then (s, .inl (cTagZero, 0))
  else if opening && (all.any (fun m => inRange m && opened m) || (!same && all.any fun m => !inRange m && opened m)) then
    (s, .inl (cDrainqState, 0))
  else if !opening && (!same || all.any fun m => inRange m && !opened m) then (s, .inl (cDrainqState, 0))
  else
    let rows := if opening then
        (upFrom row0 nr).foldl (fun m r => fset m r { opened := true, g0 := bits v 32 32 }) x.rows
      else x.rows
    let seed := fget (s.ctx ck).hs tag 0
    let q := (upFrom row0 nr).foldl (drainqRow (x.tile tile) f tag (bits v 16 7) (bit v 25) seed dst rs) { rows := rows }
    match drainWrite s ck q.out (12 + q.out.length) with
    | (s, .inl e) => (s, .inl e)
    | (s, .inr b) =>
      let x := s.mx k
      let fl : BitVec 5 := BitVec.ofNat 5 (4 * (q.fl.toNat / 64 % 8))
      (s.setMx k { x with rows := q.rows, qfmt := f, qtag := tag, flags := x.flags ||| fl }, .inr b)

/-! ### Starting what waits -/

/-- An operation other than a pass starts: its effect, and the clk in which it finishes. -/
def opStarts (k i : Nat) (op : MxOp) (st : Started) : Started :=
  match st with
  | (s, .inl f) => (s, .inl f)
  | (s, .inr b) =>
    let x := s.mx k
    let op := { (fget x.ops i op) with started := true, fin := s.engineClk k + b }
    ((setOp s k i op).afterClk (engineCluster s k) b .matrixDrainComplete { a := k, b := i }, .inr b)

/-- A stream starts (R270): its rows enter the fabric from SCHEDTIME s + 4 on. -/
def streamStart (s : State) (k i : Nat) (op : MxOp) (tile v : Nat) : Started :=
  let port := bits v 8 2
  if !fget (s.pcore k).eps port false then (s, .inl (cStreamUnbound, 0))
  else
    let (rows, ovf) := streamRows ((s.mx k).tile tile) (bit v 6)
    let s := if ovf then mxFlag s k 1 else s
    (setOp s k i { op with port := port, rows := rows, next := s.schedAt (s.part (enginePart k)).task (s.part (enginePart k)).pos + 4 }, .inr 36)

/-- The next drain of a nest that may start. -/
def Mx.dueDrain (x : Mx) : Option (Nat × MxOp) :=
  x.ops.find? fun e => e.2.nest && !e.2.started && e.2.kind != .pass && x.tileFree e.1 e.2

/-- Starts a drain of a nest (R259): it acts as the instruction DKIND names. -/
def nestDrain (s : State) (k i : Nat) (op : MxOp) : State :=
  let t := op.tiles.headD 0
  let v := op.word.toNat
  let st := match op.kind with
    | .drain => drainTile s k op.ctx t (bits v 6 2) op.dst op.rs
    | .stream => streamStart s k i op t v
    | _ => drainQuant s k op.ctx t v 0 32 op.dst op.rs
  match opStarts k i op st with
  | (s, .inr _) => s
  | (s, .inl f) =>
    let s := dropOp s k i
    nestFault s k { ctx := op.ctx, line := op.line, lane := op.lane } (f.1, BitVec.ofNat 64 (f.2.toNat % 2 ^ 32 + 2 ^ 32 * (op.pix % 2 ^ 32)))

/-- Starts the drains of a nest that may start; the fuel bounds them. -/
def nestDrains (k : Nat) : Nat → State → State
  | 0, s => s
  | n + 1, s =>
    match (s.mx k).dueDrain with
    | none => s
    | some (i, op) => nestDrains k n (nestDrain s k i op)

/-- WAITCLK counts a clk in which the next pass has met rule 1 but not rules 2 to 4 (R253). -/
def countWait (s : State) (k : Nat) : State :=
  let x := s.mx k
  match x.nextPass with
  | none => s
  | some (i, p, op) =>
    if x.passTileFree i op && !passDue s k p && x.lastStart != s.engineClk k then s.setMx k { x with waitclk := x.waitclk + 1 } else s

/-- What an engine does at the end of a clk: drains of a nest start, the next pass's fetch begins, WAITCLK counts. -/
def engineClk (s : State) (k : Nat) : State :=
  if !engineActs s k then s
  else
    let s := nestDrains k (s.mx k).ops.length s
    let s := countWait s k
    beginFetch s k (s.engineClk k + 1)

/-- What every engine does at the end of a clk. -/
def engineTick (s : State) : State := (s.mxs.map Prod.fst).foldl engineClk s

/-- MATRIX_DRAIN_COMPLETE (R251): the latch names the engine and the operation, which has written or read its last row; a
stream held with its task waits for its rows. -/
def execMatrixDrainComplete (s : State) : Res :=
  let k := s.ev.a
  match fget? (s.mx k).ops s.ev.b with
  | none => .fault .notEnabled
  | some op =>
    if op.kind = .pass ∨ !op.started then .fault .notEnabled
    else if !op.rows.isEmpty then .next (s.afterClk (engineCluster s k) 1 .matrixDrainComplete s.ev)
    else .next (dropOp s k s.ev.b)

/-! ### Instructions -/

/-- The engine of the context in the latch. -/
def State.engine (s : State) : Nat := s.myPcore s.iss.ctx

/-- The operation of the instruction in the latch in engine order: it enters when the instruction issues (R251). -/
def myOp (s : State) (op : MxOp) : Nat × State :=
  let k := s.engine
  match (s.mx k).waitingOp s.iss.ctx with
  | some (i, _) => (i, s)
  | none => enterOrder s k op

/-- An instruction whose operation starts when it may (R263): a check that fails raises at the start. -/
def startWhen (h : Hdr) (s : State) (op : MxOp) (may : State → Nat → Bool) (go : State → Nat → Started) : Res :=
  let (i, s) := myOp s op
  if !may s i then .next (s.holdQ h)
  else
    match go s i with
    | (s, .inl f) => .next (s.raise f.1 f.2)
    | (s, .inr b) => .next (s.finish h b)

/-- A drain, load or stream waits for its tile only. -/
def whenTileFree (k : Nat) (op : MxOp) (s : State) (i : Nat) : Bool := (s.mx k).tileFree i op

/-- Checks of a starting instruction, in order: the cause and the value. -/
def startCheck (s : State) (cs : List (Bool × Nat × DWord)) (go : State → Started) : Started :=
  match cs.find? fun c => c.1 with
  | some c => (s, .inl c.2)
  | none => go s

/-- MPASS and MSPASS (R253, R256, R266). -/
def matrixPass (h : Hdr) (sparse : Bool) (s : State) : Res :=
  let k := s.engine
  let ck := s.iss.ctx
  let c := s.iss.xb.toNat
  let offA := bits s.iss.xa.toNat 0 32
  let offB := bits s.iss.xa.toNat 32 32
  let bad := (if sparse then bits c 0 3 != 0 else 4 < bits c 0 3 || bits c 40 5 != 0) ||
    bits c 3 5 != 0 || bits c 14 2 != 0 || bits c 22 2 != 0 || bit c 31 || bits c 34 6 != 0 || bits c 45 19 != 0
  let ty := if sparse then 5 else bits c 0 3
  let op : MxOp := { kind := .pass, ctx := ck, tiles := [bits c 24 6], ty := ty, zero := bit c 30, word := s.iss.xb
                     dst := offA, rs := offB }
  let (i, s) := myOp s op
  let x := s.mx k
  match x.nextPass with
  | none => .next (s.holdQ h)
  | some (j, p, _) =>
    if x.nesting ∨ j ≠ i ∨ !x.passTileFree i op ∨ !passDue s k p then .next (s.holdQ h)
    else if bad then .next (s.raise cMxField)
    else if offA % 256 ≠ 0 ∨ offB % 256 ≠ 0 then .next (s.raise cMisaligned)
    else
      match passChecks s k ck p [] [] with
      | (s, .inl f) => .next (s.raise f.1 f.2)
      | (s, .inr r) => .next ((beginFetch (passStart s k i { op with pops := p.pops } r) k (s.engineClk k)).finish h 14)

/-- MPASS (R266). -/
def execMpass (h : Hdr) (_a _b : BitVec 5) (s : State) : Res := matrixPass h false s
/-- MSPASS (R266). -/
def execMspass (h : Hdr) (_a _b : BitVec 5) (s : State) : Res := matrixPass h true s

/-- MZERO (R268). -/
def execMzero (h : Hdr) (_a : BitVec 5) (s : State) : Res :=
  let k := s.engine
  let v := s.iss.xa.toNat
  let n := bits v 8 7
  let ts := (List.range n).map fun i => (bits v 0 6 + i) % 64
  let op : MxOp := { kind := .zero, ctx := s.iss.ctx, tiles := ts }
  startWhen h s op (fun s i => (s.mx k).tileFree i op && !(s.mx k).nesting) fun s i =>
    startCheck s [(bits v 6 2 != 0 || v / 2 ^ 15 != 0 || !within 1 64 n, cMxField, 0)] fun s =>
      let x := s.mx k
      opStarts k i op (s.setMx k { x with acc := x.acc.filter fun e => !ts.contains e.1 }, .inr (1 + n))

/-- The fields of MDRAIN and MACCLD are out of range (R269). -/
def drainBad (v : Nat) (chk : BitVec 1) (f : BitVec 2) : Bool := v / 2 ^ 8 != 0 || (chk == 1 && bits v 6 2 != f.toNat)

/-- MDRAIN and MACCLD (R269). -/
def drainOrLoad (h : Hdr) (kind : MxKind) (chk : BitVec 1) (f : BitVec 2) (s : State) : Res :=
  let k := s.engine
  let ck := s.iss.ctx
  let v := s.iss.xb.toNat
  let addr := bits s.iss.xa.toNat 0 32
  let rs := bits s.iss.xa.toNat 32 32
  let op : MxOp := { kind := kind, ctx := ck, tiles := [bits v 0 6] }
  startWhen h s op (whenTileFree k op) fun s i =>
    startCheck s [(drainBad v chk f, cMxField, 0), (addr % 64 != 0 || rs % 64 != 0, cMisaligned, 0)] fun s =>
      let st := if kind = .drain then drainTile s k ck (bits v 0 6) (bits v 6 2) addr rs
        else loadTile s k ck (bits v 0 6) (bits v 6 2) addr rs
      opStarts k i op st

/-- MDRAIN (R269). -/
def execMdrain (h : Hdr) (_a _b : BitVec 5) (c : BitVec 1) (f : BitVec 2) (s : State) : Res :=
  drainOrLoad h .drain c f s
/-- MACCLD (R269). -/
def execMaccld (h : Hdr) (_a _b : BitVec 5) (c : BitVec 1) (f : BitVec 2) (s : State) : Res :=
  drainOrLoad h .load c f s

/-- MDRAINQ (R271, R272). -/
def execMdrainq (h : Hdr) (_d _a _b : BitVec 5) (f : BitVec 3) (s : State) : Res :=
  let k := s.engine
  let ck := s.iss.ctx
  let v := s.iss.xb.toNat
  let d := s.iss.xd.toNat
  let row0 := bits d 0 5
  let nr := bits d 8 6
  let dst := bits s.iss.xa.toNat 0 32
  let rs := bits s.iss.xa.toNat 32 32
  let bad := drainqBad v || (f != 0 && f.toNat != bits v 8 3) || bits d 5 3 != 0 || d / 2 ^ 14 != 0 ||
    !within 1 32 nr || 32 < row0 + nr
  let op : MxOp := { kind := .drainq, ctx := ck, tiles := if bits v 16 7 = 0 then [] else [bits v 0 6] }
  startWhen h s op (whenTileFree k op) fun s i =>
    startCheck s [(bad, cMxField, 0), (dst % 64 != 0 || rs % 64 != 0, cMisaligned, 0)] fun s =>
      let st := drainQuant s k ck (bits v 0 6) v row0 nr dst rs
      opStarts k i op st

/-- MSTREAM (R270). -/
def execMstream (h : Hdr) (_b : BitVec 5) (s : State) : Res :=
  let k := s.engine
  let v := s.iss.xb.toNat
  let op : MxOp := { kind := .stream, ctx := s.iss.ctx, tiles := [bits v 0 6] }
  startWhen h s op (whenTileFree k op) fun s i =>
    startCheck s [(bit v 7 || v / 2 ^ 10 != 0, cMxField, 0)] fun s =>
      let st := streamStart s k i op (bits v 0 6) v
      opStarts k i op st

/-- A DRN word that its drain would reject, or may not have in a nest (R260). -/
def drnBad (d v : Nat) : Bool :=
  match d with
  | 0 => v / 2 ^ 8 != 0
  | 1 => bit v 7 || v / 2 ^ 10 != 0
  | _ => drainqBad v || bit v 24 || bit v 25

/-- A hold at level h with a stride or a pop of that operand below it (R260). -/
def holdBad (m : FMap DWord) (hold pop : Nat → Bool) (stride : Nat → Int) : Bool :=
  (List.range 6).any fun h => hold (level m h) &&
    (List.range h).any fun j => stride (level m j) != 0 || pop (level m j)

/-- MGO and MSGO refuse a set (R260). -/
def nestBad (m : FMap DWord) (sparse : Bool) : Bool :=
  let c := cfgOf m 0
  let d := bits c 40 2
  let pt := bits c 0 3
  (List.range 6).any (fun k => lvlCount (level m k) == 0) ||
  bits c 3 5 != 0 || bits c 14 2 != 0 || bits c 22 2 != 0 || bits c 30 2 != 0 || bits c 37 3 != 0 || bits c 42 22 != 0 ||
  d == 3 || (if sparse then pt != 0 else 4 < pt) ||
  bits (cfgOf m 1) 0 32 % 256 != 0 || bits (cfgOf m 1) 32 32 % 256 != 0 ||
  bits (cfgOf m 3) 32 32 % 64 != 0 || (d != 1 && bits (cfgOf m 3) 0 32 % 64 != 0) ||
  drnBad d (cfgOf m 2) || holdBad m lvlHoldA lvlPopA lvlSA || holdBad m lvlHoldB lvlPopB lvlSB ||
  (sparse && (List.range 6).any fun k => lvlSB (level m k) != 0)

/-- MGO and MSGO (R260, R265): the set is judged and copied at issue, and accepted into the active or the queued set, which
it waits for. An accepted set is active from the next clk, and its first fetch begins after that. -/
def goNest (h : Hdr) (sparse : Bool) (s : State) : Res :=
  let k := s.engine
  let x := s.mx k
  let ck := s.iss.ctx
  let regs := if s.iss.again then fget x.taking ck x.shadow else x.shadow
  let n : Nest := { regs := regs, sparse := sparse, ctx := ck, line := s.iss.line, lane := s.iss.lane
                    at_ := s.engineClk k + 2 }
  let y := { x with taking := fdel x.taking ck }
  if nestBad regs sparse then .next (s.raise cNestCfg)
  else
    match x.active, x.queued with
    | none, none => .next ((s.setMx k { y with active := some n, fetch := none, reading := [] }).finish h 1)
    | some _, none => .next ((s.setMx k { y with queued := some n }).finish h 1)
    | _, some _ => .next ((s.setMx k { x with taking := fset x.taking ck regs }).holdQ h)

/-- MGO (R265). -/
def execMgo (h : Hdr) (s : State) : Res := goNest h false s
/-- MSGO (R265). -/
def execMsgo (h : Hdr) (s : State) : Res := goNest h true s

/-- The place in engine order at which the instruction in the latch issued. -/
def marker (s : State) : Nat := s.iss.wset.headD s.nextId

/-- Notes the place in engine order at the first issue. -/
def noteMarker (s : State) : State :=
  if s.iss.again then s else { s with iss := { s.iss with wset := [s.nextId] }, nextId := s.nextId + 1 }

/-- MWAIT (R267). -/
def execMwait (h : Hdr) (e : BitVec 1) (s : State) : Res :=
  let s := noteMarker s
  let x := s.mx s.engine
  let idle := x.ops.all fun o => !o.2.nest && marker s ≤ o.1
  .next (s.waitFor h (!x.nesting && (e == 1 || idle)))

/-- MXST (R273). -/
def mxst (x : Mx) : Nat :=
  x.flags.toNat + 2 ^ 8 * b2n x.active.isSome + 2 ^ 9 * b2n x.queued.isSome +
  2 ^ 10 * b2n (x.rows.any fun e => e.2.opened) + 2 ^ 16 * x.qfmt + 2 ^ 20 * x.qtag

/-- ROWST of a row (R273). -/
def rowst (r : MxRow) : Nat := r.stage.length + 2 ^ 7 * b2n r.opened + 2 ^ 8 * r.emit

/-- MSTAT (R273). -/
def execMstat (h : Hdr) (d _a : BitVec 5) (c : BitVec 1) (sel : BitVec 2) (s : State) : Res :=
  let k := s.engine
  let s := noteMarker s
  let x := s.mx k
  let busy := x.ops.any fun o => !o.2.nest && o.1 < marker s
  if (sel == 0 || sel == 2) && busy then .next (s.holdQ h)
  else
    let v := match sel.toNat with
      | 0 => BitVec.ofNat 64 (mxst x)
      | 1 => x.passes
      | 2 => BitVec.ofNat 64 (rowst (rowOf x.rows (bits s.iss.xa.toNat 0 5)))
      | _ => x.waitclk
    let s := if c = 1 ∧ sel = 0 then s.setMx k { x with flags := 0 } else s
    .next ((s.landX d v 4).finish h 4)

/-- Writes a shadow register (R264). -/
def setShadow (s : State) (r : Nat) (v : DWord) : State :=
  let x := s.mx s.engine
  s.setMx s.engine { x with shadow := fset x.shadow r v }

/-- MCFG (R264). -/
def execMcfg (h : Hdr) (d : BitVec 5) (half : BitVec 1) (i : BitVec 32) (s : State) : Res :=
  let old := fget (s.mx s.engine).shadow d.toNat 0
  let v : DWord := if half = 0 then old.extractLsb' 32 32 ++ i else i ++ old.extractLsb' 0 32
  .next ((setShadow s d.toNat v).finish h 1)

/-- MCFGR (R264). -/
def execMcfgr (h : Hdr) (d _a _b r2 : BitVec 5) (pair : BitVec 1) (s : State) : Res :=
  let s := setShadow s d.toNat s.iss.xa
  .next ((if pair = 1 then setShadow s r2.toNat s.iss.xb else s).finish h 1)

end Sys2Proof.Machine
end

