-- ==== Sys2Proof/Machine/Pontoon.lean ====
section
/-! DEFINITION. Pontoons: rows, slot words, operations, row faults and their policies, records, and fabric images
(13_pontoon_fabric.md R304 to R321). -/

namespace Sys2Proof.Machine

/-! ### Rows and slot words -/

/-- A row that is there (R304). -/
def Row.of (els : List Word) : Row := { pres := .valid, els := els }

/-- The zero row of selector 24 (R310). -/
def zeroRow : Row := Row.of (List.replicate 64 0)

/-- The hole value of a type (R304): 0 F32, 1 BF16, 2 FP16, 3 I32. -/
def holeValue (ty : Nat) : Word :=
  match ty with
  | 0 => 0x7FC00000
  | 1 => 0x00007FC0
  | 2 => 0x00007E00
  | _ => 0x80000000

/-- A hole of a type with its origin (R304). -/
def holeRow (ty : Nat) (tag : Origin) : Row := { pres := .hole, els := List.replicate 64 (holeValue ty), tag := tag }

/-- Element c of a row as a number. -/
def Row.at_ (r : Row) (c : Nat) : Nat := (r.els.getD c 0).toNat

/-- The bytes of a row: four of each element, or with W = 1 the low two (R329). -/
def Row.bytes (r : Row) (w : Bool) : List Byte := (List.range 64).flatMap fun c => leBytes (if w then 2 else 4) (r.at_ c)

/-- A row from its bytes (R329). -/
def rowOfBytes (bs : List Byte) (w : Bool) : Row :=
  let n := if w then 2 else 4
  Row.of ((List.range 64).map fun c => BitVec.ofNat 32 (fieldAt bs (n * c) n))

/-- The fields of a slot word (R310). -/
def slotOp (w : Nat) : Nat := bits w 0 5
def slotTy (w : Nat) : Nat := bits w 5 2
def slotSel (w i : Nat) : Nat := bits w (8 + 5 * i) 5
def slotOut (w : Nat) : Nat := bits w 23 4
def slotPol (w : Nat) : Nat := bits w 27 2
def slotParam (w : Nat) : Nat := bits w 32 8

/-- How many of A, B and C an operation uses (R311). -/
def slotUses (op : Nat) : Nat :=
  match op with
  | 0 => 0
  | 5 | 10 | 11 => 3
  | 2 | 3 | 4 | 6 | 7 | 13 | 18 | 20 | 21 | 22 | 23 => 2
  | _ => 1

/-- A selector names an operand (R310). -/
def selOk (k : Nat) : Bool := k < 12 || (16 ≤ k && k ≤ 24)

/-- PARAM of an operation is one it gives a meaning (R311) (DEDUCED, notes/assumptions/45.md). -/
def paramOk (op ty p : Nat) : Bool :=
  match op with
  | 10 => p < 6
  | 12 => p < 16 && p % 4 != ty
  | 13 => ty == 3
  | 17 => p < 8
  | _ => p == 0

/-- A slot word is valid (R310, R311). -/
def slotOk (w : Nat) : Bool :=
  let op := slotOp w
  w / 2 ^ 40 == 0 && bits w 29 3 == 0 && bits w 7 1 == 0 && slotPol w != 3 && op < 24 &&
  ((List.range 3).all fun i => if i < slotUses op then selOk (slotSel w i) else slotSel w i == 0) &&
  paramOk op (slotTy w) (slotParam w)

/-! ### Operations (R311) -/

/-- The code of VCVT from a type to another (R224), for types of which neither is a 16-bit float going to I32. -/
def pcvtCode (ty to_ : Nat) : Nat :=
  match ty, to_ with
  | 0, 1 => 0
  | 0, 2 => 1
  | 0, _ => 6
  | 1, 0 => 2
  | 1, _ => 4
  | 2, 0 => 3
  | 2, _ => 5
  | _, 0 => 7
  | _, 1 => 10
  | _, _ => 11

/-- PCVT of an element (R224, R225): a 16-bit float goes to I32 through the FP32 of the same value. -/
def pcvt (ty to_ rm v : Nat) : Nat × Bool :=
  let v := if to_ = 3 ∧ (ty = 1 ∨ ty = 2) then (convert (pcvtCode ty 0) 0 v).1 else v
  let (r, fl) := convert (if to_ = 3 then 6 else pcvtCode ty to_) rm v
  (r, fl &&& flSat != 0)

/-- The range of PRSHR (R311). -/
def rshrRange (k : Nat) : Int × Int :=
  match k with
  | 0 => (-128, 127)
  | 1 => (0, 255)
  | 2 => (-32768, 32767)
  | _ => (-2 ^ 31, 2 ^ 31 - 1)

/-- An arithmetic operation on a floating type; f is F0. -/
def floatElem (op ty a b c f : Nat) : Nat :=
  let t := fmtOf ty
  match op with
  | 2 => (fAdd t a b).1
  | 3 => (fSub t a b).1
  | 4 => (fMul t a b).1
  | 5 => (fFma t false a b c).1
  | 6 => fMax t a b
  | 7 => fMin t a b
  | 8 => fAbs t a
  | 9 => fNeg t a
  | 11 => fClamp t a b c
  | 14 => (fAdd t f a).1
  | _ => fMax t f a

/-- An arithmetic operation on I32, exact; f is F0. -/
def intElem (op : Nat) (a b c f : Int) : Int :=
  match op with
  | 2 => a + b
  | 3 => a - b
  | 4 => a * b
  | 5 => a * b + c
  | 6 => max a b
  | 7 => min a b
  | 8 => (a.natAbs : Int)
  | 9 => -a
  | 11 => min (max a b) c
  | 14 => f + a
  | _ => max f a

/-- Cond of PCSEL (R221). -/
def pcond (ty k a b : Nat) : Bool := if ty = 3 then iCond k (sgn 32 a) (sgn 32 b) else fCond (fmtOf ty) k a b

/-- PCOUNT counts an element (R311). -/
def counts (ty a : Nat) : Bool := if ty = 3 then a != 0 else !((fmtOf ty).value a).isZero

/-- An element of the result of an operation, and whether it was changed by clamping (R315). -/
def pelem (op ty p a b c f : Nat) : Nat × Bool :=
  let t := fun v => asFt (if ty = 3 then 0 else ty) v
  match op with
  | 1 | 17 | 18 | 19 | 20 => (a, false)
  | 10 => (if pcond ty (p % 8) (t a) (t b) then a else c, false)
  | 12 => pcvt ty (p % 4) (p / 4) (t a)
  | 13 =>
    let (lo, hi) := rshrRange (p / 64)
    let (r, k) := roundShift (sgn 32 a) (p % 64) lo hi
    (low 32 r, k)
  | 16 => ((f + b2n (counts ty (t a))) % 2 ^ 32, false)
  | 21 => (a &&& b, false)
  | 22 => (a ||| b, false)
  | 23 => (a ^^^ b, false)
  | _ =>
    if ty = 3 then (low 32 (intElem op (sgn 32 a) (sgn 32 b) (sgn 32 c) (sgn 32 f)), false)
    else (floatElem op ty (t a) (t b) (t c) (t f), false)

/-- The type of the elements of a result. -/
def resTy (op ty p : Nat) : Nat := if op = 16 then 3 else if op = 12 then p % 4 else ty

/-- The operands an element of a result was computed from, as rows. -/
def pontoonSources (op : Nat) (a b c f : Row) : List Row :=
  ([a, b, c].take (slotUses op)) ++ if op = 14 ∨ op = 15 then [f] else []

/-- What an operation comes to (R309): the elements, and the row fault with its emask. -/
structure PonRes where
  els : List Word
  fault : Option (Nat × Nat) := none
  deriving DecidableEq, Repr

/-- The elements, of 64, that meet a test, as a mask. -/
def emask (g : Nat → Bool) : Nat := (List.range 64).foldl (fun m c => if g c then m + 2 ^ c else m) 0

/-- Op(w, A, B, C, F) of R309: the elements, and the lowest cause met with its mask (R315). An EMPTY F0 reads as the zero
row, in PAMAX as A (DEDUCED, notes/assumptions/44.md). -/
def ponOp (w : Nat) (a b c f0 : Row) : PonRes :=
  let op := slotOp w
  let ty := slotTy w
  let p := slotParam w
  let f := if f0.pres = .empty then (if op = 15 then a else zeroRow) else f0
  let rs := (List.range 64).map fun k => pelem op ty p (a.at_ k) (b.at_ k) (c.at_ k) (f.at_ k)
  let t := resTy op ty p
  let val := fun (ty v : Nat) => (fmtOf ty).value (asFt ty v)
  let res := fun k => val t (rs.getD k (0, false)).1
  let finite := fun (v : FVal) => !v.special
  let nan := if t = 3 then 0 else emask fun k => (res k).isNan
  let ovf := if t = 3 then 0
    else emask fun k => (res k).special && !(res k).isNan &&
      (pontoonSources op a b c f).all fun r => ty == 3 || finite (val ty (r.at_ k))
  let sat := emask fun k => (rs.getD k (0, false)).2
  let route := if op = 20 ∧ slotOut w &&& (b.at_ 0 % 16) = 0 then 2 ^ 64 - 1 else 0
  { els := rs.map fun e => BitVec.ofNat 32 e.1
    fault := [(1, nan), (2, ovf), (3, sat), (4, route)].find? fun e => e.2 != 0 }

/-! ### Executing a slot (R309, R312 to R314, R319) -/

/-- What an execution has done: res, the row emitted and the ports it goes to, and the row fault with its operands. -/
structure PonStep where
  res : Row := {}
  out : Row := {}
  ports : Nat := 0
  /-- A row was sent by PSPLIT. -/
  split : Bool := false
  /-- Cause, emask, and the elements of the result, of A and of B. -/
  fault : Option (Nat × Nat × List Word × List Word × List Word) := none
  deriving DecidableEq, Repr

/-- The port PSPLIT sends row n to: the (n mod k)-th of the k set bits (R314). -/
def splitPort (mask n : Nat) : Nat :=
  let ks := setBits 4 mask
  match ks[n % ks.length]? with
  | some k => 2 ^ k
  | none => 0

/-- The ports a row is emitted to (R309, R314). -/
def portsOf (w n : Nat) (b : Row) (diverted : Bool) : Nat :=
  let m := slotOut w
  match slotOp w with
  | 19 => splitPort m n
  | 20 => if diverted then m else m &&& (b.at_ 0 % 16)
  | _ => m

/-- An operand of an execution (R310). -/
def operandOf (k : Nat) (file consts : List Row) (port : Nat → Row) : Row :=
  if k < 8 then file.getD k {}
  else if k < 12 then port (k - 8)
  else if k < 24 then consts.getD (k - 16) zeroRow
  else zeroRow

/-- Exec of R309 but for the rotation: a slot word, its file, the constant rows, the rows at the ports, the rows PSPLIT
has sent, and the origin tag of this execution. An execution that meets an EMPTY operand raises no row fault (R315), and the
HOLE of one with an empty selection of PROUTE goes to every port (R314). -/
def ponExec (w : Nat) (file consts : List Row) (port : Nat → Row) (n : Nat) (tag : Origin) : PonStep :=
  let op := slotOp w
  let get := fun i => if i < slotUses op then operandOf (slotSel w i) file consts port else zeroRow
  let a := get 0
  let b := get 1
  let c := get 2
  let f0 := file.getD 0 {}
  let used := [a, b, c].take (slotUses op)
  let holes := (used ++ if op = 14 ∨ op = 15 ∨ op = 16 then [f0] else []).filter fun r => r.pres == .hole
  let none_ := if op = 18 then a.pres == .empty && b.pres == .empty else used.any fun r => r.pres == .empty
  let (res, fault, diverted) : Row × Option (Nat × Nat × List Word × List Word × List Word) × Bool :=
    if none_ then ({}, none, false)
    else
      match holes with
      | h :: _ => (h, none, false)
      | [] =>
        let r := ponOp w (if op = 18 ∧ a.pres = .empty then b else a) b c f0
        match r.fault with
        | none => (Row.of r.els, none, false)
        | some (cause, m) =>
          let off := List.replicate 64 (0 : Word)
          let fl := (cause, m, r.els, if slotUses op < 1 then off else a.els, if slotUses op < 2 then off else b.els)
          if used.any fun r => r.pres == .empty then (Row.of r.els, none, false)
          else if slotPol w = 2 then
            (holeRow (slotTy w) { tag with cause := cause }, some fl, op == 20 && slotOut w &&& (b.at_ 0 % 16) == 0)
          else (Row.of r.els, some fl, false)
  let out := if op = 17 then file.getD (slotParam w % 8) {} else res
  { res := res, out := out, fault := fault, split := op == 19 && out.pres != .empty
    ports := if out.pres = .empty then 0 else portsOf w n b diverted }

/-- The file after an execution: it rotates (R309). -/
def rotateFile (file : List Row) (res : Row) : List Row := (res :: (file ++ List.replicate 8 ({} : Row)).take 7)

/-! ### Records (R316) -/

/-- The elements of a row in a record. -/
def recordRow (els : List Word) : List Byte := (Row.of els).bytes false

/-- A FAULT record: origin, opcode, emask, and the result and operands as read. -/
def faultRecord (tag : Origin) (op m : Nat) (res a b : List Word) : List Byte :=
  [0, BitVec.ofNat 8 tag.cause, BitVec.ofNat 8 tag.vdie, BitVec.ofNat 8 tag.vpon, BitVec.ofNat 8 tag.slot,
    BitVec.ofNat 8 op, 0, 0] ++ leBytes 8 tag.clk ++ leBytes 8 m ++ List.replicate 232 0 ++
  recordRow res ++ recordRow a ++ recordRow b

/-- A HOLE record: the origin tag, the sink's stream port and virtual die, and the row of the sink. -/
def holeRecord (tag : Origin) (sport svdie srow : Nat) : List Byte :=
  [1, BitVec.ofNat 8 tag.cause, BitVec.ofNat 8 tag.vdie, BitVec.ofNat 8 tag.vpon, BitVec.ofNat 8 tag.slot, 0, 0, 0] ++
  leBytes 8 tag.clk ++ leBytes 8 0 ++ [BitVec.ofNat 8 sport, BitVec.ofNat 8 svdie] ++ List.replicate 6 0 ++
  leBytes 8 srow ++ List.replicate 984 0

/-! ### Fabric images (R320, R321) -/

/-- An image: header fields, links and pontoons. -/
structure Image where
  ver : Nat := 0
  npon : Nat := 0
  id : Nat := 0
  nlink : Nat := 0
  npd : List Nat := []
  links : List FLink := []
  /-- Virtual die, virtual pontoon and the record. -/
  pons : List (Nat × Nat × Pon) := []
  deriving DecidableEq, Repr

/-- The header of an image. -/
def imageHead (h : List Byte) : Image :=
  { ver := fieldAt h 0 2, npon := fieldAt h 2 2, id := fieldAt h 4 4, nlink := fieldAt h 8 2
    npd := (List.range 22).map fun k => fieldAt h (10 + k) 1 }

/-- The header keeps R320. -/
def imageHeadOk (h : List Byte) : Bool :=
  fieldAt h 0 2 == 1 && fieldAt h 2 2 ≤ 896 && fieldAt h 8 2 ≤ 64 && fieldAt h 32 32 == 0

/-- The length of an image. -/
def Image.len (i : Image) : Nat := 64 + 32 * i.nlink + 2320 * i.npon

/-- The link record at an offset. -/
def linkOf (r : List Byte) : FLink :=
  let f := fun o => fieldAt r o 1
  { qidx := f 0, svdie := f 1, svpon := f 2, sport := f 3, ring := f 4 == 1, dvdie := f 5, dvpon := f 6, dport := f 7
    mask := BitVec.ofNat 64 (fieldAt r 8 8) }

/-- The fields of a link record are in range (R320). -/
def linkFieldsOk (r : List Byte) : Bool :=
  let f := fun o => fieldAt r o 1
  f 0 < 64 && f 3 < 4 && f 4 < 2 && f 7 < 4 && (f 4 == 0 || (f 6 == 0 && f 7 == 0)) && fieldAt r 16 16 == 0

/-- The pontoon record at an offset. -/
def pontoonOf (r : List Byte) : Pon :=
  { raw := r
    ii := fieldAt r 2 1
    ins := (List.range 4).map fun k => let v := fieldAt r (4 + 2 * k) 2; ⟨bits v 0 3, bits v 3 2, bits v 5 6⟩
    outs := (List.range 4).map fun k => let v := fieldAt r (12 + k) 1; (bit v 4, v % 16)
    slots := (List.range 32).map fun k => BitVec.ofNat 64 (fieldAt r (16 + 8 * k) 8)
    consts := (List.range 8).map fun k => (List.range 64).map fun c => BitVec.ofNat 32 (fieldAt r (272 + 256 * k + 4 * c) 4) }

/-- The fields of a pontoon record are in range (R310, R320). -/
def pontoonFieldsOk (r : List Byte) : Bool :=
  1 ≤ fieldAt r 2 1 && fieldAt r 2 1 ≤ 32 && fieldAt r 3 1 == 0 &&
  ((List.range 4).all fun k =>
    let v := fieldAt r (4 + 2 * k) 2
    bits v 0 3 ≤ 4 && bits v 11 5 == 0 && (bits v 0 3 != 2 || bits v 5 6 < 16)) &&
  ((List.range 4).all fun k => fieldAt r (12 + k) 1 < 32) &&
  ((List.range 32).all fun k => slotOk (fieldAt r (16 + 8 * k) 8))

/-- The link records of an image, as bytes. -/
def linkRecords (i : Image) (bs : List Byte) : List (List Byte) :=
  (List.range i.nlink).map fun k => (bs.drop (64 + 32 * k)).take 32

/-- The pontoon records of an image, as bytes. -/
def pontoonRecords (i : Image) (bs : List Byte) : List (List Byte) :=
  (List.range i.npon).map fun k => (bs.drop (64 + 32 * i.nlink + 2320 * k)).take 2320

/-- The image in bytes whose header keeps R320. -/
def imageOf (bs : List Byte) : Image :=
  let i := imageHead bs
  { i with
    links := (linkRecords i bs).map linkOf
    pons := (pontoonRecords i bs).map fun r => (fieldAt r 0 1, fieldAt r 1 1, pontoonOf r) }

/-- The fields of every record of an image are in range. -/
def imageFieldsOk (bs : List Byte) : Bool :=
  let i := imageHead bs
  imageHeadOk bs && (linkRecords i bs).all linkFieldsOk && (pontoonRecords i bs).all pontoonFieldsOk

/-- The ring entry of MODE 1 with a QIDX (R36). -/
def streamRing (l : Launch) (qidx : Nat) : Option RingEntry := l.rings.find? fun r => r.mode == 1 && r.qidx == qidx

/-- The virtual die of a stage. -/
def stageDie (l : Launch) (k : Nat) : Nat := ((l.stages[k]?).map StageEntry.vdie).getD 0

/-- A link names a MODE 1 ring that joins its dies, and a source pontoon of the image (R321). -/
def linkJoins (l : Launch) (i : Image) (k : FLink) : Bool :=
  match streamRing l k.qidx with
  | some r => stageDie l r.pstage == k.svdie && stageDie l r.cstage == k.dvdie && k.svpon < i.npd.getD k.svdie 0
  | none => false

/-- The virtual die is one of the launch record. -/
def hasDie (l : Launch) (v : Nat) : Bool := l.dies.any fun e => e.vdie == v

/-- A pontoon of the image. -/
def Image.pon (i : Image) (v p : Nat) : Option Pon := (i.pons.find? fun e => e.1 == v && e.2.1 == p).map fun e => e.2.2

/-- The source of an input port of a pontoon (R321). -/
def inputOk (l : Launch) (i : Image) (v p k : Nat) (n : PonIn) : Bool :=
  match n.kind with
  | 1 => n.id < i.npd.getD v 0
  | 3 => (l.dies.find? fun e => e.vdie == v).any fun e => e.kind == 2 && n.id < e.ncore
  | 4 => i.links.any fun f => !f.ring && f.dvdie == v && f.dvpon == p && f.dport == k && f.qidx == n.id
  | _ => true

/-- The stream sinks that output ports feed: virtual die and port. -/
def Image.sinks (i : Image) : List (Nat × Nat) :=
  i.pons.flatMap fun (v, _, p) => (p.outs.filter Prod.fst).map fun o => (v, o.2)

/-- A link is wired at both ends (R321): its destination port names it, its source port is no stream sink. -/
def linkWired (i : Image) (k : FLink) : Bool :=
  ((i.pon k.svdie k.svpon).all fun p => !(p.outs.getD k.sport (false, 0)).1) &&
  (k.ring || (i.pon k.dvdie k.dvpon).any fun p =>
    let n := p.ins.getD k.dport {}
    n.kind == 4 && n.id == k.qidx)

/-- No element of a list comes twice. -/
def distinct {α : Type} [BEq α] : List α → Bool
  | [] => true
  | a :: r => !r.contains a && distinct r

/-- The rules of R321 that the image and the launch record decide. -/
def Image.ok (l : Launch) (i : Image) : Bool :=
  ((List.range 22).all fun v => i.npd.getD v 0 == 0 || hasDie l v) &&
  (i.pons.all fun (v, p, _) => hasDie l v && p < i.npd.getD v 0) &&
  distinct (i.pons.map fun (v, p, _) => (v, p)) &&
  (i.pons.all fun (v, p, r) => (List.range 4).all fun k => inputOk l i v p k (r.ins.getD k {})) &&
  distinct i.sinks && i.links.all fun k => linkJoins l i k && linkWired i k

end Sys2Proof.Machine
end

