-- ==== Sys2Proof/Machine/Fabric.lean ====
section
/-! DEFINITION. The fabric of a task: stream commands, the clocks of its pontoons, links, sources, sinks, records and
phases (13_pontoon_fabric.md R304 to R334). -/

namespace Sys2Proof.Machine

/-! ### Errors of commands (R288, R424) -/

/-- The opcode of a command (R85, R279, R323). -/
def opcodeOf : CmdKind → Nat
  | .cpy => 0x40 | .cpyt => 0x41 | .cacc => 0x42 | .caccf => 0x43 | .cswp => 0x44 | .ccas => 0x45 | .cpsm => 0x46
  | .cwalk => 0x47 | .cgath => 0x48 | .cscat => 0x49 | .cput => 0x4A | .tmov => 0x0B | .ownc => 0x0C
  | .hscan => 0x4B | .hgath => 0x4C | .hred => 0x4D | .hcvt => 0x4E | .fload => 0x40 | .sink => 0x42
  | .record | .node | .fill | .line => 0

/-- The bytes of an element of a command (R282): the unit of its reached offset. -/
def elemBytes (c : Cmd) : Nat :=
  match c.kind with
  | .cacc | .caccf => accSize c.ty
  | .cswp | .ccas => c.op
  | _ => 1

/-- The fault-log entry of a command that completes with error (R288, R424). A record of a slipway and a COPY node have no
core. -/
def cmdError (s : State) (c : Cmd) : LogEntry :=
  let core := coreOf c.ctx
  let noCore := c.kind == .record || c.kind == .node
  { task := c.task, cause := c.err, origin := 1, opc := opcodeOf c.kind, line := if noCore then 0 else c.line
    lane := if noCore then 0 else c.lane, pos := if c.kind = .record then (s.part c.part).pos else if c.kind = .node then c.home else posOf core
    core := if noCore then 0xFF else physOf core, ctx := if noCore then 0xFF else ctxNo c.ctx
    reached := c.reached / elemBytes c, dva := c.errDva }

/-! ### The fabric of a task -/

/-- The task of the context in the latch. -/
def State.myTask (s : State) : Nat := s.taskOf s.iss.ctx

/-- The bound stream ports of a task, with their keys. -/
def taskPorts (s : State) (t : Nat) : List (Nat × SPort) := s.sports.filter fun e => (s.part (e.1 / 16)).task == t

/-- PEND: the holes at scratchpad sinks that are counted and not resolved (R318, R328). -/
def fabPend (s : State) (t : Nat) : Nat :=
  ((taskPorts s t).map fun e => (e.2.open_.filter Prod.snd).length).foldl (· + ·) 0

/-- FST0 (R328). -/
def fst0 (s : State) (t : Nat) : DWord :=
  let f := s.fab t
  BitVec.ofNat 64 (f.st + 2 ^ 3 * b2n f.failed + 2 ^ 4 * f.sticky.toNat + 2 ^ 8 * (fabPend s t % 2 ^ 16) +
    2 ^ 32 * (f.phase % 2 ^ 32))

/-- FST0 to FST4 (R328). -/
def fst (s : State) (t sel : Nat) : DWord :=
  let f := s.fab t
  match sel with
  | 0 => fst0 s t
  | 1 => f.t
  | 2 => f.p
  | 3 => BitVec.ofNat 64 (f.faults % 2 ^ 32 + 2 ^ 32 * (f.holes % 2 ^ 32))
  | _ => BitVec.ofNat 64 (f.engHole % 2 ^ 32 + 2 ^ 32 * (f.lost % 2 ^ 16) + 2 ^ 48 * (f.miss % 2 ^ 16))

/-- Changes the fabric of a task. -/
def onFab (s : State) (t : Nat) (g : Fab → Fab) : State := s.setFab t (g (s.fab t))

/-- A row that is discarded counts in MISS and fails the phase (R307, R318, R329). -/
def missRow (s : State) (t : Nat) : State := onFab s t fun f => { f with miss := f.miss + 1, failed := true }

/-- A record is buffered, or dropped where the buffer is full or its die has no handler (R317). How long its packets take
is free. -/
def queueRecord (s : State) (t vdie : Nat) (r : List Byte) : State :=
  let f := s.fab t
  if (fget? f.handlers vdie).isNone ∨ 16 ≤ f.buffer.length then
    onFab s t fun f => { f with lost := f.lost + 1, failed := true }
  else { onFab s t fun f => { f with buffer := f.buffer ++ [(vdie, s.tb + 1 + Config.latency s.free, r)] } with
         free := s.free + 1 }

/-! ### Rows on their way (R305, R307) -/

/-- The input ports of a virtual die that a source feeds. -/
def fedBy (f : Fab) (vdie : Nat) (src : PonIn → Bool) : List Dest :=
  f.pons.flatMap fun (k, p) =>
    if k / 64 = vdie then ((p.ins.zipIdx.filter fun e => src e.1).map fun e => Dest.pon vdie (k % 64) e.2) else []

/-- Rows put on their way. Rows at input ports of a virtual die in clks of it that are over are gone. -/
def sendRows (f : Fab) (v now : Nat) (fs : List Flight) : Fab :=
  let stale := fun (x : Flight) => match x.dest with
    | .pon w _ _ => w == v && x.due < now
    | _ => false
  { f with flights := f.flights.filter (fun x => !stale x) ++ fs }

/-- A row from a stream port or an engine port enters the fabric in clk t: it is delivered in t + 1 (R305). -/
def emitPort (s : State) (task vdie now : Nat) (src : PonIn → Bool) (r : Row) : State :=
  onFab s task fun f => sendRows f vdie now ((fedBy f vdie src).map fun d => ⟨d, now + 1, now, r⟩)

/-- The clks a link takes (R13, R305): 0 on one die, 20 for one hop, 46 for two. -/
def linkClks (k : Task) (qidx : Nat) : Nat :=
  match ((k.routes.find? fun r => r.qidx == qidx).map fun r => r.hops.length).getD 1 with
  | 0 => 0
  | 1 => 20
  | _ => 46

/-- The links from an output port, by their place in the image. -/
def linksFrom (f : Fab) (v p k : Nat) : List (Nat × FLink) :=
  (f.links.zipIdx.filter fun e => e.1.svdie == v && e.1.svpon == p && e.1.sport == k).map fun e => (e.2, e.1)

/-- A row emitted on one output port of a pontoon in clk t (R305, R307). Only a row that finds its phase leaves on a link. -/
def emitOut (s : State) (task v p k now : Nat) (r : Row) : State :=
  let f := s.fab task
  let ins := (fedBy f v fun n => n.kind == 1 && n.id == p && n.port == k).map fun d => (⟨d, now + 1, now, r⟩ : Flight)
  let out := ((fget f.pons (64 * v + p) {}).outs.getD k (false, 0))
  let sinks := if out.1 then [(⟨.sink v out.2, now + 1 + Config.latency s.free, now, r⟩ : Flight)] else []
  let ls := linksFrom f v p k
  let leaves := ls.filter fun e => e.2.mask.getLsbD ((now + 1) % 64)
  let across := leaves.map fun e => (⟨.link e.1, now + 1 + linkClks (s.task task) e.2.qidx, now, r⟩ : Flight)
  let s := { onFab s task fun f => sendRows f v now (ins ++ sinks ++ across) with free := s.free + sinks.length }
  (List.range (ls.length - leaves.length)).foldl (fun s _ => missRow s task) s

/-- A task's fabric moves on on a virtual die in this tick (R63): the task runs and no hold stops the die. -/
def fabActs (s : State) (t v : Nat) : Bool := !s.halted && s.dieActs t (s.posIn t v)

/-- SCHEDTIME on a virtual die. -/
def fabTime (s : State) (t v : Nat) : Nat := s.schedAt t (s.posIn t v)

/-- The first flight that satisfies a test. -/
def flightOf (f : Fab) (g : Flight → Bool) : Option Flight := f.flights.find? g

/-- A flight is over. -/
def dropFlight (s : State) (t : Nat) (x : Flight) : State := onFab s t fun f => { f with flights := f.flights.erase x }

/-! ### Engine ports (R270, R305) -/

/-- MSTREAM_ROW_EMIT (R270): the latch names the engine and the stream, whose next row enters its engine port. -/
def execMstreamRowEmit (s : State) : Res :=
  let k := s.ev.a
  let part := enginePart k
  let p := s.part part
  match fget? (s.mx k).ops s.ev.b with
  | none => .fault .notEnabled
  | some op =>
    match op.rows with
    | [] => .fault .notEnabled
    | r :: rest =>
      let now := s.schedAt p.task p.pos
      if !op.started ∨ now < op.next ∨ !engineActs s k then .fault .notEnabled
      else
        let s := setOp s k s.ev.b { op with rows := rest, next := op.next + 1 }
        let vc := (s.pcore k).vcore
        .next (emitPort s p.task p.vdie now (fun n => n.kind == 3 && n.port == op.port && n.id == vc) (Row.of r))

/-! ### Pontoons (R308, R309, R326) -/

/-- A pontoon may execute its clk: the fabric runs, its links have delivered what is due. -/
def ponDue (s : State) (t v : Nat) (p : Pon) : Bool :=
  let f := s.fab t
  let now := fabTime s t v
  f.st == 4 && fabActs s t v && f.t.toNat ≤ now && now < f.p.toNat && p.next ≤ now &&
  !f.flights.any fun x => x.due ≤ now && match x.dest with
    | .link i => (f.links[i]?).any fun l => l.dvdie == v
    | _ => false

/-- A row fault is handled (R319): FLAG sets a sticky flag, DIVERT counts and queues a FAULT record. -/
def rowFault (s : State) (t w : Nat) (tag : Origin) (e : Nat × Nat × List Word × List Word × List Word) : State :=
  let (cause, m, r, a, b) := e
  match slotPol w with
  | 1 => onFab s t fun f => { f with sticky := f.sticky ||| BitVec.ofNat 4 (2 ^ (cause - 1)) }
  | 2 =>
    let s := onFab s t fun f => { f with faults := f.faults + 1 }
    queueRecord s t tag.vdie (faultRecord { tag with cause := cause } (slotOp w) m r a b)
  | _ => s

/-- PONTOON_EXEC (R309): the latch names the task and the pontoon (64 times its virtual die plus its number), which
executes slot t mod II. -/
def execPontoonExec (s : State) : Res :=
  let t := s.ev.a
  let k := s.ev.b
  match fget? (s.fab t).pons k with
  | none => .fault .notEnabled
  | some p =>
    if !ponDue s t (k / 64) p then .fault .notEnabled
    else
      let now := fabTime s t (k / 64)
      let slot := now % p.ii
      let f := s.fab t
      let w := (p.slots.getD slot 0).toNat
      let here := fun (x : Flight) => match x.dest with
        | .pon v q _ => 64 * v + q == k && x.due ≤ now
        | _ => false
      let port := fun i => ((f.flights.find? fun x => here x && x.due == now && x.dest == .pon (k / 64) (k % 64) i).map
        Flight.row).getD {}
      let s := onFab s t fun f => { f with
        pons := fset f.pons k { p with next := now + 1 }, flights := f.flights.filter fun x => !here x }
      if slotOp w = 0 then .next s
      else
        let fk := 32 * k + slot
        let file := fget f.files fk (List.replicate 8 {})
        let n := fget f.splits fk 0
        let tag : Origin := ⟨k / 64, k % 64, slot, now, 0⟩
        let r := ponExec w file (p.consts.map Row.of) port n tag
        let s := onFab s t fun f => { f with
          files := fset f.files fk (rotateFile file r.res), splits := fset f.splits fk (n + b2n r.split) }
        let s := match r.fault with
          | some e => rowFault s t w tag e
          | none => s
        .next ((setBits 4 r.ports).foldl (fun s i => emitOut s t (k / 64) (k % 64) i now r.out) s)

/-! ### Links (R307, R318) -/

/-- The part and physical core of a stage. -/
def stageCore (s : State) (t k : Nat) : Nat × Nat :=
  match (s.task t).launch.stages[k]? with
  | some e =>
    match (s.task t).places.find? fun p => p.vdie == e.vdie with
    | some p => (partKey t e.vdie, ((p.cores[e.vcore]?).map Prod.fst).getD 0)
    | none => (partKey t e.vdie, 0)
  | none => (0, 0)

/-- A row arrives at a ring sink (R307, R318): it fills the next 256 bytes of the slot claimed
(DEDUCED, notes/assumptions/46.md). -/
def ringRow (s : State) (t : Nat) (l : FLink) (r : Row) : State :=
  match streamRing (s.task t).launch l.qidx with
  | none => s
  | some e =>
    let (part, core) := stageCore s t e.cstage
    let pk := pcoreKey part core
    let q := s.ring pk l.qidx
    let n := fget (s.fab t).partial_ l.qidx 0
    if n = 0 ∧ (q.nslot = 0 ∨ q.free = 0) then missRow s t
    else
      let s := if n = 0 then s.setRing pk l.qidx q.claim else s
      let ck := ctxKey (coreAt (s.part part).pos core) 0
      let s := engineStoreFor s part ck .f (q.slot (q.tail + q.fill) + n) (r.bytes false)
      let s := if r.pres = .hole then onFab s t fun f => { f with failed := true } else s
      let n := n + 256
      if 256 * q.ssz ≤ n then
        ringCommit (onFab s t fun f => { f with partial_ := fdel f.partial_ l.qidx }) part core l.qidx 1
      else onFab s t fun f => { f with partial_ := fset f.partial_ l.qidx n }

/-- The phase drains at ring sinks (R307): a partly filled slot toward which no row is on its way any more is committed. -/
def commitPartial (s : State) (t : Nat) : State :=
  let f := s.fab t
  let busy := fun q => f.flights.any fun x => match x.dest with
    | .link i => (f.links[i]?).any fun l => l.ring && l.qidx == q
    | _ => false
  let go := f.partial_.filter fun e => !busy e.1
  go.foldl (fun s e =>
    match streamRing (s.task t).launch e.1 with
    | none => s
    | some r =>
      let (part, core) := stageCore s t r.cstage
      ringCommit s part core e.1 1) (onFab s t fun f => { f with partial_ := f.partial_.filter fun e => busy e.1 })

/-- CHAIN_FERRY_FLIT_ARRIVAL (R12, R305, R307): the latch names the task and the link, whose oldest row is due. -/
def execChainFerryFlitArrival (s : State) : Res :=
  let t := s.ev.a
  let f := s.fab t
  match flightOf f (fun x => x.dest == .link s.ev.b), f.links[s.ev.b]? with
  | some x, some l =>
    let now := fabTime s t l.dvdie
    if now < x.due ∨ !fabActs s t l.dvdie then .fault .notEnabled
    else
      let s := dropFlight s t x
      if l.ring then
        let s := ringRow s t l x.row
        .next (if f.st = 5 then commitPartial s t else s)
      else if f.st = 5 then .next s
      else .next (onFab s t fun f => sendRows f l.dvdie now [⟨.pon l.dvdie l.dvpon l.dport, x.due, x.sent, x.row⟩])
  | _, _ => .fault .notEnabled

/-! ### Sources (R329, R330) -/

/-- The bytes of a row of a binding. -/
def SPort.rowLen (p : SPort) : Nat := if p.w then 128 else 256

/-- The rows of a binding's pattern. -/
def SPort.rows (p : SPort) : Nat := p.b.n2 * p.b.n1 * p.b.len / p.rowLen

/-- Row m of a binding's pattern, as addresses and lengths. -/
def SPort.pieces (p : SPort) (m : Nat) : List (Nat × Nat) :=
  (rowPieces p.b.len (p.rowLen + 1) (m * p.rowLen) p.rowLen).map fun (e, n) =>
    (if p.kind = 0 then patAt p.b.src p.b.ss1 p.b.ss2 p.b.n1 p.b.len e
      else patAt p.b.dst p.b.ds1 p.b.ds2 p.b.n1 p.b.len e, n)

/-- Writes bytes to pieces on behalf of the binding context of a part, offending bytes dropped (R330). -/
def writePieces (s : State) (part ck : Nat) : List (Nat × Nat) → List Byte → State
  | [], _ => s
  | (a, n) :: r, bs => writePieces (engineStoreFor s part ck .f a (bs.take n)) part ck r (bs.drop n)

/-- A source emits in this clk (R329). -/
def sourceDue (s : State) (t v : Nat) (p : SPort) : Bool :=
  let f := s.fab t
  let now := fabTime s t v
  p.kind == 0 && f.st == 4 && fabActs s t v && now < f.p.toNat && p.next ≤ now && p.count < p.rows &&
  f.t.toNat + p.b.aux2.toNat ≤ now && p.b.aux.getLsbD (now % 64)

/-- A row that was not read when due (R315, R316, R330): a HOLE with cause LATE and a FAULT record. No slot made it, so its
slot, its opcode, its type and the elements of its record are free. -/
def lateRow (s : State) (t vdie now : Nat) : Row × State :=
  let w := fun i => (Config.freeWord (s.free + i)).toNat
  let tag : Origin := ⟨vdie, 0xFF, w 0 % 256, now, 5⟩
  let els := (List.range 64).map fun i => BitVec.ofNat 32 (w (3 + i))
  let s := { onFab s t fun f => { f with faults := f.faults + 1 } with free := s.free + 67 }
  (holeRow (w 1 % 4) tag, queueRecord s t vdie (faultRecord tag (w 2 % 256) (2 ^ 64 - 1) els [] []))

/-- SOURCE_ROW_EMIT (R329, R330): the latch names the part and the stream port. A row whose read has not completed is late. -/
def execSourceRowEmit (s : State) : Res :=
  let key := 16 * s.ev.a + s.ev.b
  let part := s.part s.ev.a
  let t := part.task
  match s.sport key with
  | none => .fault .notEnabled
  | some p =>
    if !sourceDue s t part.vdie p then .fault .notEnabled
    else
      let now := fabTime s t part.vdie
      let emitted := { p with count := p.count + 1, next := now + 1 }
      let (r, s) := match p.ahead with
        | [] => lateRow (s.setSport key { emitted with readAt := none, reading := [] }) t part.vdie now
        | bs :: rest => (rowOfBytes bs p.w, s.setSport key { emitted with ahead := rest })
      .next (emitPort s t part.vdie now (fun n => n.kind == 2 && n.id == s.ev.b) r)

/-- A source has read its next row: the accesses are judged and performed now (R330). -/
def rowRead (s : State) (key : Nat) (p : SPort) : State :=
  let m := p.count + p.ahead.length
  let (bs, s) := (p.pieces m).foldl (fun (r : List Byte × State) e =>
    let w := windowsFor r.2 (key / 16) p.ctx
    let s := match firstOffence r.2 w e.1 e.2 with
      | none => r.2
      | some (y, kind) => r.2.onHeld (key / 16) p.ctx fun c => stickyOffence c .f (r.2.clk p.ctx) y kind
    (r.1 ++ scratchBytes s w e.1 e.2, s)) ([], s)
  s.setSport key { p with ahead := p.ahead ++ [bs], readAt := none }

/-- A source begins to read its next row (R330): its lines in the unit window ask the banks, others arrive with no bound
(R154). -/
def beginRow (s : State) (key : Nat) (p : SPort) : State :=
  let ps := p.pieces (p.count + p.ahead.length)
  let m := lineBanks (ps.flatMap fun e => runLines e.1 e.2)
  let far := ps.any fun e => 0x1000000 ≤ e.1
  let clk := s.clk p.ctx + 1
  portWaits { s.setSport key { p with reading := m, readAt := some (clk + if far then Config.latency s.free else 0) } with
    free := s.free + b2n far } (coreOf p.ctx) clk (m.map Prod.fst)

/-- A source at the end of a clk (R330): a read completes, and the next begins, at most 32 rows ahead. That it begins at once up
to 16 rows ahead, and from there on at a free time, is the model's choice (DESIGN CHOICE, notes/assumptions/91.md). -/
def sourceClk (s : State) (key : Nat) (p : SPort) : State :=
  let t := (s.part (key / 16)).task
  let cl := clusterOf (coreOf p.ctx)
  let st := (s.fab t).st
  if p.kind ≠ 0 ∨ (st ≠ 3 ∧ st ≠ 4) ∨ !fabActs s t (s.part (key / 16)).vdie ∨ !hasClock s cl ∨ (s.cluster cl).gap then s
  else
    let s := if p.reading.isEmpty && p.readAt.any (· ≤ s.clk p.ctx) then rowRead s key p else s
    let p := (s.sport key).getD p
    let n := p.ahead.length
    if p.readAt.isSome ∨ 32 ≤ n ∨ p.rows ≤ p.count + n then s
    else if n < 16 then beginRow s key p
    else
      let go := Config.choose s.free % 2 == 1
      let s := { s with free := s.free + 1 }
      if go then beginRow s key p else s

/-- What the stream sources do at the end of a clk. -/
def sourceTick (s : State) : State :=
  s.sports.foldl (fun s e => match s.sport e.1 with
    | some p => sourceClk s e.1 p
    | none => s) s

/-! ### Sinks (R318, R329) -/

/-- The row that has waited longest for a stream port, if it has reached it. -/
def sinkFlight (s : State) (t vdie sp : Nat) : Option Flight :=
  match flightOf (s.fab t) fun x => x.dest == .sink vdie sp with
  | some x => if x.due ≤ fabTime s t vdie then some x else none
  | none => none

/-- A hole is written at a scratchpad sink (R318). -/
def sinkHole (s : State) (t vdie sp key m : Nat) (r : Row) : State :=
  let handled := (fget? (s.fab t).handlers vdie).isSome
  let s := onFab s t fun f => { f with holes := f.holes + 1, failed := f.failed || !handled }
  let s := match s.sport key with
    | some p => s.setSport key { p with open_ := p.open_ ++ [(m, handled)] }
    | none => s
  if handled then queueRecord s t vdie (holeRecord r.tag sp vdie m) else s

/-- SINK_ROW_WRITE (R318): the latch names the part and the stream port, whose oldest row is written; a row at a port that
is not bound as a sink, or beyond the pattern, is discarded. -/
def execSinkRowWrite (s : State) : Res :=
  let part := s.part s.ev.a
  let t := part.task
  let key := 16 * s.ev.a + s.ev.b
  match sinkFlight s t part.vdie s.ev.b with
  | none => .fault .notEnabled
  | some x =>
    let p := (s.sport key).getD {}
    if (s.sport key).any fun p => p.kind == 2 then .fault .notEnabled
    else
      let s := dropFlight s t x
      if p.kind ≠ 1 then .next (missRow s t)
      else
        let m := p.count
        let s := s.setSport key { p with count := m + 1 }
        if p.rows ≤ m then .next (missRow s t)
        else
          let s := writePieces s s.ev.a p.ctx (p.pieces m) (x.row.bytes p.w)
          .next (if x.row.pres = .hole then sinkHole s t part.vdie s.ev.b key m x.row else s)

/-- Applies the elements of a row of an accumulate sink from the reached one on (R293, R329): a CACC add of each. -/
def sinkElems (w : Windows) (c : Cmd) : Nat → Nat → Adv → Adv
  | 0, _, r => r
  | n + 1, i, r =>
    let e := 256 * c.slot + 4 * i
    let a := patAt c.b.dst c.b.ds1 c.b.ds2 c.b.n1 c.b.len e
    let p := applyAt r.s w false c.root a 4 fun old => accOp 0 c.ty old (c.idx.getD i 0)
    match p.bad with
    | some bad => ⟨p.s, i, some bad⟩
    | none => sinkElems w c n (i + 1) ⟨p.s, i + 1, none⟩

/-- A row of an accumulate sink as a command, with the SCHEDTIME at which it was emitted. -/
def sinkCmd (s : State) (part sp : Nat) (p : SPort) (m : Nat) (r : Row) (sent : Nat) : Cmd :=
  let root := taskRoot s (s.part part).task
  { kind := .sink, task := (s.part part).task, part := part, ctx := p.ctx, engine := clusterOf (coreOf p.ctx)
    home := homeOf (clusterOf (coreOf p.ctx)), cx := complexOf (clusterOf (coreOf p.ctx)), root := root, droot := root, b := p.b
    ty := p.b.aux.toNat, arg := sp, slot := m, w1 := BitVec.ofNat 64 sent, idx := (List.range 64).map r.at_ }

/-- The device bytes of a row of an accumulate sink. -/
def sinkTouches (c : Cmd) : List Touch :=
  (rowPieces c.b.len 257 (256 * c.slot) 256).map fun (e, n) =>
    ⟨patAt c.b.dst c.b.ds1 c.b.ds2 c.b.n1 c.b.len e, n, true, c.root, false⟩

/-- Earlier rows of an accumulate sink that are not applied (R295). -/
def sinkHeld (s : State) (part sp i : Nat) : Bool :=
  s.cmds.any fun e => e.1 < i && e.2.kind == .sink && e.2.part == part && e.2.arg == sp

/-- ACCUMULATE_SINK_APPLY (R318, R329): the latch names the part and the stream port, whose oldest row is applied; a hole
is not. A row that fails to translate waits as a command that is parked. -/
def execAccumulateSinkApply (s : State) : Res :=
  let part := s.part s.ev.a
  let t := part.task
  let key := 16 * s.ev.a + s.ev.b
  match sinkFlight s t part.vdie s.ev.b, s.sport key with
  | some x, some p =>
    if p.kind ≠ 2 ∨ sinkHeld s s.ev.a s.ev.b s.nextId then .fault .notEnabled
    else
      let c := sinkCmd s s.ev.a s.ev.b p p.count x.row x.sent
      if p.count < p.rows && (sinkTouches c).any (stripesBusy s) then .fault .notEnabled
      else
        let s := (dropFlight s t x).setSport key { p with count := p.count + 1 }
        if p.rows ≤ p.count then .next (missRow s t)
        else if x.row.pres = .hole then
          .next (onFab s t fun f => { f with engHole := f.engHole + 1, failed := true })
        else
          let r := sinkElems (windowsFor s s.ev.a p.ctx) c 64 0 ⟨s, 0, none⟩
          match r.bad with
          | none => .next r.s
          | some bad =>
            let (i, s) := r.s.fresh
            .next (failCmd (s.setCmd i { c with reached := r.n }) i bad)
  | _, _ => .fault .notEnabled

/-- A walk of a parked row of an accumulate sink has ended: the rest of it is applied. -/
def sinkWalked (s : State) (i : Nat) (c : Cmd) : State :=
  if (sinkTouches c).any (stripesBusy s) then tryAgain s .translationWalkDone i
  else
    let r := sinkElems (windowsFor s c.part c.ctx) c (64 - c.reached) c.reached ⟨s, c.reached, none⟩
    match r.bad with
    | none => { r.s with cmds := fdel r.s.cmds i }
    | some bad => failCmd (r.s.setCmd i { c with reached := r.n }) i bad

/-! ### Records (R317) -/

/-- FABRIC_RECORD_DELIVER (R317): the latch names the task and the virtual die, whose oldest buffered record goes into a
free slot of the handler ring; without a handler it is dropped. -/
def execFabricRecordDeliver (s : State) : Res :=
  let t := s.ev.a
  let f := s.fab t
  match f.buffer.find? fun e => e.1 == s.ev.b with
  | none => .fault .notEnabled
  | some (v, due, bs) =>
    if s.tb < due then .fault .notEnabled
    else
      let drop := fun (s : State) => onFab s t fun f => { f with buffer := f.buffer.erase (v, due, bs) }
      match fget? f.handlers v with
      | none => .next (onFab (drop s) t fun f => { f with lost := f.lost + 1, failed := true })
      | some (ck, q) =>
        let p := partKey t v
        let pk := pcoreKey p (physOf (coreOf ck))
        let r := s.ring pk q
        if r.nslot = 0 ∨ r.free = 0 then .fault .notEnabled
        else
          let s := engineStoreFor (drop s) p ck .f r.next bs
          .next (ringCommit (s.setRing pk q r.claim) p (physOf (coreOf ck)) q 1)

/-! ### Phases (R324, R327) -/

/-- The task of a fabric runs. -/
def fabRuns (s : State) (t : Nat) : Bool := !s.halted && ((s.task t).run == .running || (s.task t).run == .stopping)

/-- FABRIC_RUNNING (R324): the latch names the task, whose SCHEDTIME has reached T on a die. -/
def execFabricRunning (s : State) : Res :=
  let t := s.ev.a
  if (s.fab t).st ≠ 3 ∨ s.schedHigh t < (s.fab t).t.toNat ∨ !fabRuns s t then .fault .notEnabled
  else .next (onFab s t fun f => { f with st := 4 })

/-- FABRIC_DRAIN (R324, R326): the latch names the task, whose SCHEDTIME has reached the stop time on every die. Rows toward input ports
are discarded, and ring sinks commit what is partly filled (R307). -/
def execFabricDrain (s : State) : Res :=
  let t := s.ev.a
  if (s.fab t).st ≠ 4 ∨ s.schedLow t < (s.fab t).p.toNat ∨ !fabRuns s t then .fault .notEnabled
  else
    let s := onFab s t fun f => { f with
      st := 5
      flights := f.flights.filter fun x => match x.dest with
        | .pon _ _ _ => false
        | .link i => (f.links[i]?).any FLink.ring
        | .sink _ _ => true }
    .next (commitPartial s t)

/-- The phase is complete (R327). -/
def phaseDone (s : State) (t : Nat) : Bool :=
  let f := s.fab t
  f.st == 5 && f.flights.all (fun x => match x.dest with
    | .pon _ _ _ => true
    | _ => false) && fabPend s t == 0 && f.buffer.isEmpty &&
  !s.cmds.any fun e => e.2.kind == .sink && e.2.task == t

/-- A phase or a load of a task has ended: a task of several dies learns of it over links, in no fewer than the 12 ticks of a
module (R12, R324, R394) (DEDUCED, notes/assumptions/90.md). -/
def fabEnds (s : State) (t : Nat) : State :=
  if (s.task t).places.length ≤ 1 then onFab s t fun f => { f with seenAt := s.tb }
  else { onFab s t fun f => { f with seenAt := s.tb + 12 + Config.latency s.free } with free := s.free + 1 }

/-- FABRIC_PHASE_COMPLETE (R327): the latch names the task. The FPHASEs that wait see the word it leaves. -/
def execFabricPhaseComplete (s : State) : Res :=
  let t := s.ev.a
  if !phaseDone s t then .fault .notEnabled
  else
    let s := onFab s t fun f => { f with st := 2, phase := f.phase + 1 }
    .next (fabEnds (onFab s t fun f => { f with phaseWord := fst0 s t }) t)

/-! ### Loading an image (R325) -/

/-- A load ends: the waiting FPHASEs see the word it leaves. -/
def loadEnds (s : State) (t st : Nat) : State :=
  let s := onFab s t fun f => { f with st := st, loads := f.loads + 1 }
  fabEnds (onFab s t fun f => { f with loadWord := fst0 s t }) t

/-- The classes that end the task of a command that completes with them (R396, R403). -/
def endsTask (cause : Nat) : Bool := cause / 64 == 6 || cause / 64 == 11 || cause / 64 == 12

/-- The entry of a failed command is logged and its task fails; a class that fails the part ends the task. A routine of a
control core keeps that a command of it has failed (R46). -/
def logCmd (s : State) (c : Cmd) : State :=
  let s := logError s (cmdError s c)
  if c.task ≠ 0 then (if endsTask c.err then s.endTask c.task c.err false else s)
  else if isControl (coreOf c.ctx) ∧ c.kind ≠ .node then s.onCtxOf c.ctx fun x => { x with cmdBad := true }
  else s

/-- A load ends with error: the state is NOIMG, and the entry is that of any failed command (R288, R325, R396). -/
def loadFails (s : State) (i cause dva : Nat) : State :=
  let c := { s.cmd i with err := cause, errDva := dva }
  let s := { s with cmds := fdel s.cmds i }
  let s := onFab s c.task fun f => { f with pons := [], links := [] }
  logCmd (loadEnds s c.task 0) c

/-- The phases a task holds for a ring are those of its placement (R321). -/
def masksHeld (k : Task) (i : Image) : Bool :=
  i.links.all fun l =>
    let held := ((k.routes.find? fun r => r.qidx == l.qidx).map Route.mask).getD (BitVec.allOnes 64)
    l.mask &&& ~~~held == 0

/-- No NPD exceeds the pontoons claimed (R321). -/
def npdClaimed (k : Task) (i : Image) : Bool :=
  (List.range 22).all fun v =>
    i.npd.getD v 0 ≤ ((k.places.find? fun p => p.vdie == v).map fun p => p.pons.length).getD 0

/-- The pontoons of an image are loaded (R325). -/
def loadImage (s : State) (t : Nat) (i : Image) : State :=
  onFab s t fun f => { f with
    pons := i.pons.foldl (fun m (v, p, r) => fset m (64 * v + p) r) [], links := i.links, files := [], splits := [] }

/-- Reads the image of a load and judges it (R321, R325). -/
def readImage (s : State) (c : Cmd) : (Nat × Nat) ⊕ Image × State :=
  let a := c.w0.toNat
  match dvaLoad s c.root a 64 with
  | (_, some e, _) => .inl e
  | (h, none, s) =>
    if !imageHeadOk h ∨ (imageHead h).id ≠ c.idx.headD 0 then .inl (cFabImage, 0)
    else
      match dvaLoad s c.root a (imageHead h).len with
      | (_, some e, _) => .inl e
      | (bs, none, s) =>
        let i := imageOf bs
        let k := s.task c.task
        if imageFieldsOk bs && i.ok k.launch && masksHeld k i && npdClaimed k i then .inr (i, s)
        else .inl (cFabImage, 0)

/-- The load of a command goes on. -/
def loadWalked (s : State) (i : Nat) (c : Cmd) : State :=
  match readImage s c with
  | .inl (cause, dva) => if cause / 64 = 5 then s.park i cause dva else loadFails s i cause dva
  | .inr (img, s) => loadEnds (loadImage { s with cmds := fdel s.cmds i } c.task img) c.task 2

/-- FLOAD_COMPLETE (R325): the latch names the load. -/
def execFloadComplete (s : State) : Res :=
  let c := s.cmd s.ev.a
  if (fget? s.cmds s.ev.a).isNone ∨ c.kind ≠ .fload ∨ c.parked.isSome ∨ c.err ≠ 0 then .fault .notEnabled
  else .next (loadWalked s s.ev.a c)

/-! ### Stream commands (R323 to R332) -/

/-- A command is refused in the present state of the fabric (R324). -/
def fabRefuses (s : State) (ok : List Nat) : Bool := !ok.contains (s.fab s.myTask).st

/-- A stream command that needs no token completes at acceptance. -/
def State.accept (s : State) (y : BitVec 3) : State := s.finish (Hdr.plain y) 2

/-- FLOAD (R325). -/
def execFload (y : BitVec 3) (_a : BitVec 5) (i : Word) (s : State) : Res :=
  if fabRefuses s [0, 2] then .next (s.raise cFabState)
  else
    let c := { s.newCmd .fload (tokExt 0) with w0 := s.iss.xa, idx := [i.toNat] }
    let (k, s) := acceptCmd s c
    .next (((onFab s c.task fun f => { f with st := 1 }).laterFar .floadComplete { a := k }).accept y)

/-- The fields of a block that a binding may not use so (R329). -/
def bindBad (kind : Nat) (w : Bool) (r : List Byte) : Bool :=
  let b := blockOf r
  let n := b.n1 * b.n2 * b.len
  !blockPlain r || !b.shaped || n % (if w then 128 else 256) != 0 ||
  match kind with
  | 0 => !b.ssp || b.dst != 0 || b.ds1 != 0 || b.ds2 != 0 || b.aux2.toNat / 2 ^ 16 != 0
  | 1 => !b.dsp || b.src != 0 || b.ss1 != 0 || b.ss2 != 0 || b.aux != 0 || b.aux2 != 0
  | _ => w || b.dsp || !(b.aux == 0 || b.aux == 2) || b.aux2 != 0

/-- Every byte of an interval is in range and core-owned, or in the die window (R330). -/
def spanCore (s : State) (w : Windows) (lo hi : Nat) : Bool :=
  spanInRange w lo hi && (ownerPoints w lo hi).all fun a => match judgeCore s w a with
    | .inl _ => true
    | .inr _ => false

/-- A scratchpad pattern of a binding is in range (R330). -/
def bindReach (s : State) (p : SPort) : Bool :=
  let w := s.windows p.ctx
  p.kind == 2 || (List.range (p.b.n2 * p.b.n1)).all fun r =>
    let a := if p.kind = 0 then patAt p.b.src p.b.ss1 p.b.ss2 p.b.n1 p.b.len (r * p.b.len)
      else patAt p.b.dst p.b.ds1 p.b.ds2 p.b.n1 p.b.len (r * p.b.len)
    spanCore s w a (a + p.b.len - 1)

/-- Binds or releases an engine port. -/
def setEnginePort (s : State) (k : Nat) (on : Bool) : State :=
  let pk := s.myPcore s.iss.ctx
  let p := s.pcore pk
  s.setPcore pk { p with eps := if on then fset p.eps k true else fdel p.eps k }

/-- FBIND (R329, R330). -/
def execFbind (y : BitVec 3) (d _a : BitVec 5) (h : BitVec 1) (k : BitVec 2) (s : State) : Res :=
  let ck := s.iss.ctx
  let a := s.iss.xa.toNat
  if fabRefuses s [0, 1, 2] then .next (s.raise cFabState)
  else if 16 ≤ d.toNat then
    if !isMatrix (coreOf ck) then .next (s.raise cFabField) else .next ((setEnginePort s (d.toNat - 16) true).accept y)
  else if a % 64 ≠ 0 then .next (s.raise cFabField)
  else
    match winRead (s.windows ck) s a 64 with
    | none => .next (s.raise cFabRange)
    | some r =>
      let p : SPort := { kind := k.toNat, w := h == 1, b := blockOf r, ctx := ck }
      if bindBad k.toNat p.w r then .next (s.raise cFabField)
      else if !bindReach s p then .next (s.raise cFabRange)
      else .next ((s.setSport (16 * s.cc.part + d.toNat) p).accept y)

/-- FUNBIND (R324, R330). -/
def execFunbind (y : BitVec 3) (d : BitVec 5) (s : State) : Res :=
  if fabRefuses s [0, 1, 2] then .next (s.raise cFabState)
  else if 16 ≤ d.toNat then .next ((setEnginePort s (d.toNat - 16) false).accept y)
  else .next ({ s with sports := fdel s.sports (16 * s.cc.part + d.toNat) }.accept y)

/-- FSTART (R326). -/
def execFstart (y : BitVec 3) (_a : BitVec 5) (s : State) : Res :=
  let t := s.myTask
  if fabRefuses s [2] then .next (s.raise cFabState)
  else if s.iss.xa.toNat < s.schedOf s.iss.ctx + 64 then .next (s.raise cFabLate)
  else
    let mine := fun (e : Nat × SPort) => (s.part (e.1 / 16)).task == t
    let s := { s with sports := s.sports.map fun e =>
      (e.1, if mine e then { e.2 with count := 0, next := 0, open_ := [], ahead := [], reading := [], readAt := none } else e.2) }
    .next ((onFab s t fun f => { f with
      st := 3, t := s.iss.xa, p := BitVec.allOnes 64, failed := false, sticky := 0, faults := 0, holes := 0
      engHole := 0, lost := 0, miss := 0, files := [], splits := []
      pons := f.pons.map fun (e : Nat × Pon) => (e.1, { e.2 with next := 0 })
      flights := f.flights.filter fun x => match x.dest with
        | .pon _ _ _ => false
        | _ => true }).accept y)

/-- FSTOP (R324, R326). -/
def execFstop (y : BitVec 3) (_a : BitVec 5) (s : State) : Res :=
  let t := s.myTask
  let f := s.fab t
  let p := s.iss.xa
  if fabRefuses s [3, 4] ∨ (f.st = 4 ∧ f.p ≠ BitVec.allOnes 64) then .next (s.raise cFabState)
  else if p.toNat < s.schedOf s.iss.ctx + 64 ∨ p.toNat ≤ f.t.toNat then .next (s.raise cFabLate)
  else .next ((onFab s t fun f => { f with p := p }).accept y)

/-- FPHASE (R324, R327): it completes at once in NOIMG and IDLE, else when the phase or the load ends, and its die has learnt
of it. -/
def execFphase (y : BitVec 3) (d : BitVec 5) (s : State) : Res :=
  let t := s.myTask
  let f := s.fab t
  let w := if s.iss.again then s.iss.wset else []
  let done := fun (v : DWord) => Host.Outcome.next ((s.landX d v 2).finish (Hdr.plain y) 2)
  if s.tb < f.seenAt then .next (s.holdQ (Hdr.plain y))
  else if !w.isEmpty && w.getD 0 0 < f.phase then done f.phaseWord
  else if !w.isEmpty && w.getD 1 0 < f.loads then done f.loadWord
  else if f.st = 0 ∨ f.st = 2 then done (fst0 s t)
  else if !w.isEmpty then .next (s.holdQ (Hdr.plain y))
  else .next ({ s with iss := { s.iss with wset := [f.phase, f.loads] } }.holdQ (Hdr.plain y))

/-- FHND (R331). -/
def execFhnd (y : BitVec 3) (_a : BitVec 5) (s : State) : Res :=
  let v := s.iss.xa.toNat
  let t := s.myTask
  let vdie := (s.part s.cc.part).vdie
  let r := s.ring (s.myPcore s.iss.ctx) (bits v 0 6)
  if v / 2 ^ 7 ≠ 0 then .next (s.raise cFabField)
  else if bit v 6 then .next ((onFab s t fun f => { f with handlers := fdel f.handlers vdie }).accept y)
  else if 256 * r.ssz < 1024 then .next (s.raise cFabField)
  else if !r.produces then .next (s.raise cRingEnd s.iss.xa)
  else .next ((onFab s t fun f => { f with handlers := fset f.handlers vdie (s.iss.ctx, bits v 0 6) }).accept y)

/-- FINJ (R332): the row is read whole at acceptance, and the write is performed then. -/
def execFinj (y : BitVec 3) (_a _b : BitVec 5) (s : State) : Res :=
  let t := s.myTask
  let v := s.iss.xb.toNat
  let m := bits v 0 32
  let key := 16 * s.cc.part + bits v 32 4
  if fabRefuses s [4, 5] then .next (s.raise cFabState)
  else
    match s.sport key with
    | none => .next (s.raise cFabField)
    | some p =>
      if v / 2 ^ 37 ≠ 0 ∨ p.kind ≠ 1 ∨ (p.open_.all fun e => e.1 != m) ∨ s.iss.xa.toNat % p.rowLen ≠ 0 then
        .next (s.raise cFabField)
      else
        let (bs, s) := engineLoad s s.iss.ctx .f s.iss.xa.toNat p.rowLen
        let s := s.setSport key { p with open_ := p.open_.filter fun e => e.1 != m }
        if bit v 36 then .next ((onFab s t fun f => { f with failed := true }).accept y)
        else .next ((writePieces s s.cc.part p.ctx (p.pieces m) bs).accept y)

/-- FSTAT (R328). -/
def execFstat (y : BitVec 3) (d : BitVec 5) (k : BitVec 3) (s : State) : Res :=
  .next ((s.landX d (fst s s.myTask k.toNat) 2).finish (Hdr.plain y) 2)

end Sys2Proof.Machine
end

