-- ==== Sys2Proof/Machine/Fence.lean ====
section
/-! DEFINITION. FENCE: what it waits for within each scope (16_memory_consistency.md R376, R388 to R392). -/

namespace Sys2Proof.Machine

/-- A window address lies in storage of a scope below package (R66, R376): 0 unit, 1 cluster, 2 die. -/
def inScope (sc a : Nat) : Bool := a < 0x1000000 || (1 ≤ sc && a < 0x10000000) || 2 ≤ sc

/-- The window addresses a command reads and writes from, one for each side in scratchpad;
of CGATH and CSCAT one for each row that is not performed. -/
def scratchSides (s : State) (c : Cmd) : List Nat :=
  match c.kind with
  | .cgath | .cscat =>
    let rows := ((List.range c.b.n1).map fun r => r * c.b.len).filter fun e => c.reached < e + c.b.len
    (if c.b.ssp then rows.map c.srcAt else []) ++ if c.b.dsp then rows.map c.dstAt else []
  | .cpy | .cpyt | .cacc | .cput =>
    (if c.b.ssp then [c.b.src.toNat] else []) ++ if c.b.dsp && c.kind != .cput then [c.b.dst.toNat] else []
  | .caccf =>
    (if c.b.ssp then [c.b.src.toNat] else []) ++ (if c.b.dsp then [c.b.dst.toNat] else []) ++ [c.b.aux.toNat]
  | .cswp | .ccas => c.w1.toNat :: if c.ty = 1 then [c.w0.toNat] else []
  | .cpsm | .ownc => [c.w0.toNat]
  | .tmov => [c.b.src.toNat, c.b.dst.toNat]
  | .cwalk =>
    let pk := pcoreKey c.part (physOf (coreOf c.ctx))
    (if c.b.ssp then [c.b.src.toNat] else []) ++ [(s.ring pk c.op).base, (s.ring pk c.ty).base]
  | .hscan | .hgath | .hred | .hcvt | .record | .node | .fill | .fload | .sink | .line => []

/-- Every scratchpad byte of a command is performed, whether or not it has completed: a copy to device memory has read its source
(R391). -/
def Cmd.performed (c : Cmd) : Bool :=
  match c.kind with
  | .cpy | .cpyt | .cacc | .caccf | .cgath | .cscat | .cput => c.total ≤ c.reached + c.got.length
  | .cswp | .ccas => c.op ≤ c.reached
  | _ => false

/-- A peer link is up (R429). -/
def peerUp (s : State) : Bool :=
  s.ferries.any fun e => e.2.peers.any fun p => p.2.2 && (setBits 16 p.2.1).any (peerLinkUp s)

/-- The signals a command sends lie within a scope (R389): its token goes to its own context's queue, its semaphore is one of
its die; for a control core its own die's agents count in every scope (R392). -/
def signalsIn (sc : Nat) (c : Cmd) : Bool := c.x.tok || (c.x.sr && (2 ≤ sc || isControl (coreOf c.ctx)))

/-- A command holds no fence of a scope any longer (R389, R390). The side memory a CPSM writes is of the unit scope (R376). -/
def fenceCmd (s : State) (sc : Nat) (c : Cmd) : Bool :=
  if sc < 3 then
    !signalsIn sc c && c.kind != .cpsm && (c.performed || !(scratchSides s c).any (inScope sc))
  else c.kind == .cput && c.arrived && !signalsIn sc c && (putLocal s c || sc == 3 || !peerUp s)

/-- A core lies within a scope of the core of a context. -/
def coreInScope (sc me core : Nat) : Bool :=
  3 ≤ sc || (posOf me == posOf core && (sc == 2 || (clusterOf me == clusterOf core && (sc == 1 || me == core))))

/-- A message holds no fence: its target lies outside the scope, in which no die that is fenced lies (R376). -/
def fenceMsg (s : State) (sc me : Nat) (m : Msg) : Bool :=
  !s.alive (s.part m.part).pos || !coreInScope sc me (coreAt (s.part m.part).pos m.core)

/-- An increment holds no fence: its die lies outside the scope; for a control core its own die's agents count in every
scope (R392). -/
def fenceSync (s : State) (sc me : Nat) (u : Sync) : Bool :=
  !s.alive u.core || (sc < 3 && !((sc == 2 || isControl me) && u.core == posOf me))

/-- An item of Wset is done within a scope (R389). -/
def fenceItem (s : State) (ck sc i : Nat) : Bool :=
  match fget? s.cmds i, fget? s.msgs i, fget? s.syncs i with
  | some c, _, _ => fenceCmd s sc c
  | none, some m, _ => fenceMsg s sc (coreOf ck) m
  | none, none, some u => fenceSync s sc (coreOf ck) u
  | none, none, none => true

/-- A row on its way holds a fence: it goes to a sink, or over a link to a ring sink, within the scope (R390). -/
def fenceRow (s : State) (ck sc t : Nat) (x : Flight) : Bool :=
  let me := (s.part (s.ctx ck).part).vdie
  match x.dest with
  | .pon _ _ _ => false
  | .sink v sp => s.alive (s.posIn t v) &&
    (3 ≤ sc || (v == me &&
      (s.sport (16 * partKey t v + sp)).any fun p =>
        p.kind == 1 && inScope sc p.b.dst.toNat && coreInScope sc (coreOf ck) (coreOf p.ctx)))
  | .link i => ((s.fab t).links[i]?).any fun l => l.ring && s.alive (s.posIn t l.dvdie) && (3 ≤ sc || (sc == 2 && l.dvdie == me))

/-- The rows a task's fabric emitted before a SCHEDTIME are at their sinks (R389). -/
def fenceRows (s : State) (ck sc mark : Nat) : Bool :=
  let t := s.taskOf ck
  (s.fab t).flights.all (fun x => mark ≤ x.sent || !fenceRow s ck sc t x) &&
  (sc < 3 || !s.cmds.any fun e => e.2.kind == .sink && e.2.task == t && e.2.w1.toNat < mark)

/-- Wset of R389: the commands, messages and increments of a context under way. -/
def fenceSet (s : State) (ck : Nat) : List Nat :=
  commandsOf s ck ++ ((s.msgs.filter fun e => e.2.ctx == ck && e.2.task == s.taskOf ck).map Prod.fst) ++
  (s.syncs.filter fun e => e.2.kind == 3 && e.2.ctx == ck && (s.part e.2.part).task == s.taskOf ck).map Prod.fst

/-- FENCE (R388, R389). What it waits for is kept from its issue on: the SCHEDTIME of its clk, and the items. -/
def execFence (h : Hdr) (sc : BitVec 3) (s : State) : Res :=
  let ck := s.iss.ctx
  let w := if s.iss.again then s.iss.wset else s.schedOf ck :: fenceSet s ck
  let met := s.accessed s.now && (w.drop 1).all (fenceItem s ck sc.toNat) && fenceRows s ck sc.toNat (w.headD 0)
  .next ({ s with iss := { s.iss with wset := w } }.waitFor h met)

end Sys2Proof.Machine
end

