-- ==== Sys2Proof/Machine/Graph.lean ====
section
/-! DEFINITION. Task graphs: starting a graph, the nodes a Ferrymaster runs itself, node faults and the completion of a
graph (02_describing_work.md R23 to R31; 03_launch_and_placement.md R44 to R48; 18_retirement_and_surroundings.md R422,
R423, R427). -/

namespace Sys2Proof.Machine

/-! ### Records of nodes -/

/-- The successor index that means no node (R23). -/
def noNode : Nat := 0xFFFF

/-- The fields of a node record (R23). -/
def nodeKind (r : List Byte) : Nat := fieldAt r 0 1
def nodeFlags (r : List Byte) : Nat := fieldAt r 2 2
def nodeA (r : List Byte) : Nat := fieldAt r 4 2
def nodeB (r : List Byte) : Nat := fieldAt r 6 2
/-- n bytes of the body at an offset of the record. -/
def nodeBody (r : List Byte) (o n : Nat) : Nat := fieldAt r o n

/-- A device virtual address of a record: bits [63:57] are zero and it is aligned (R25). -/
def dvaField (a align : Nat) : Bool := a < 2 ^ 57 && a % align == 0

/-- The body and the flags of a record keep the table of R25 (DEDUCED, notes/assumptions/58.md). -/
def nodeBodyOk (r : List Byte) : Bool :=
  let b := nodeBody r
  let f := nodeFlags r
  match nodeKind r with
  | 1 => f < 2 && dvaField (b 8 8) 64 && dvaField (b 16 8) 8 && b 24 8 == 0
  | 2 => f < 6 && dvaField (b 8 8) 8 && b 24 8 == 0
  | 3 => f == 0 && dvaField (b 8 8) 4 && 1 ≤ b 20 4 && b 24 8 == 0
  | 4 => f == 0 && b 8 2 < 4096 && b 10 2 == 0 && 1 ≤ b 12 4 && b 16 16 == 0
  | 5 => f == 0 && b 8 2 < 4096 && b 10 2 == 0 && 1 ≤ b 12 4 && b 16 16 == 0
  | 6 => f == 0 && dvaField (b 8 8) 1 && b 16 16 == 0
  | 7 => f == 0 && dvaField (b 8 8) 256 && b 24 8 == 0
  | _ => f == 0 && b 8 24 == 0

/-- The successors a kind needs are there (R25, R27, R28). -/
def nodeNextOk (r : List Byte) : Bool :=
  let k := nodeKind r
  k == 8 || (nodeA r != noNode && !((k == 2 || k == 3) && nodeB r == noNode))

/-- The fault of a node record, if it has one (R23 to R25, R31). -/
def nodeCause (r : List Byte) : Option Nat :=
  if nodeKind r = 0 ∨ 8 < nodeKind r then some cNodeKind
  else if fieldAt r 1 1 ≠ 1 then some cNodeVersion
  else if !nodeBodyOk r || !nodeNextOk r then some cNodeField
  else none

/-! ### Graphs -/

/-- The Ferrymaster that walks a graph (R44). -/
def Graph.sw (g : Graph) : Nat := g.q / 8

/-- A node, by graph and index, is one of the Ferrymaster's. -/
def Ready.of (g : Nat) (r : Ready) : Bool := r.graph == g

/-- The status of a TASK node is written to STAT (R26), if it is not 0; whether that could be done. -/
def putStat (s : State) (root : Nat) (r : List Byte) (status : Nat) : State × Bool :=
  let stat := nodeBody r 16 8
  if stat = 0 then (s, true)
  else
    let w := dvaPut s root stat (leBytes 4 status)
    (w.s, w.bad.isNone)

/-- A TASK node that is ready as its graph is aborted completes with ABORTED (R421). -/
def abortReady (s : State) (root sw : Nat) (n : Ready) : State :=
  match putStat s root (n.bytes.getD []) 4 with
  | (s, true) => s
  | (s, false) => s.logFault { cause := cNodeField, origin := 3, pos := sw }

/-- Aborts a graph (R26, R31): none of its nodes is ready or waits any longer, and no successor is made ready
(DEDUCED, notes/assumptions/64.md). -/
def abortGraph (s : State) (g node : Nat) : State :=
  let k := s.graph g
  let s := s.setGraph g { k with abort := some (k.abort.getD node) }
  let s := ((s.ferry k.sw).ready.filter fun r => r.of g && nodeKind (r.bytes.getD []) == 1).foldl
    (fun s n => abortReady s k.root k.sw n) s
  let f := s.ferry k.sw
  s.setFerry k.sw { f with ready := f.ready.filter fun r => !r.of g, waits := f.waits.filter fun r => !r.of g }

/-- A node fault (R31, R396): it is logged and aborts its graph. -/
def nodeFault (s : State) (g node cause : Nat) : State :=
  abortGraph (s.logFault { cause := cause, origin := 3, pos := (s.graph g).sw }) g node

/-- Reads bytes under a root, if all of them can be read. What a node's reader meets with a memory error ends as a malformed
field, as with a failed translation (R46) (DEDUCED, notes/assumptions/48.md). -/
def rootRead (s : State) (root a n : Nat) : Option (List Byte) × State :=
  match dvaLoad s root a n with
  | (bs, none, s) => (some bs, s)
  | (_, some _, s) => (none, s)

/-- Makes a node ready (R24): its record is read once, and a fault of the record is raised. -/
def makeReady (s : State) (g node : Nat) : State :=
  let k := s.graph g
  if k.abort.isSome then s
  else
    match rootRead s k.root (k.base + 32 * node) 32 with
    | (none, s) => nodeFault s g node cNodeField
    | (some r, s) =>
      match nodeCause r with
      | some c => nodeFault s g node c
      | none =>
        let f := s.ferry k.sw
        s.setFerry k.sw { f with ready := f.ready ++ [⟨g, node, some r⟩] }

/-- A branch of a graph more, or less. -/
def addBranch (s : State) (g : Nat) : State :=
  s.setGraph g { s.graph g with branches := (s.graph g).branches + 1 }

/-- Makes the successors of a node ready (R25). -/
def makeNext (s : State) (g : Nat) (r : List Byte) : State :=
  let s := makeReady s g (nodeA r)
  if nodeB r = noNode ∨ (s.graph g).abort.isSome then s else makeReady (addBranch s g) g (nodeB r)

/-! ### The completion of a graph (R422, R423, R427) -/

/-- The graph status word (R423). -/
def graphStatus (abort : Option Nat) : Nat :=
  match abort with
  | none => 0
  | some n => 1 + 2 ^ 8 * (n % 2 ^ 16)

/-- Writes GSTAT, the completion entry, and sends the message of a host queue, in this order (R422, R426, R427). A GSTAT that
does not translate is not written. -/
def writeCompletion (s : State) (q cookie gstat root status : Nat) : State :=
  let s := if gstat = 0 then s else (dvaPut s root gstat (leBytes 4 status)).s
  let sw := q / 8
  if !s.alive sw then s
  else
    let c := s.queue q
    let a := ferryKey sw (0x10000 + 0x1000 * (q % 8) + 16 * (c.cmp % 256))
    let s := { s with mem := storeAt s.mem a (leBytes 4 cookie ++ leBytes 4 status ++ leBytes 8 s.tb) }
    let s := s.setQueue q { s.queue q with cmp := c.cmp + 1 }
    if isHostQueue q then { s with msix := q :: s.msix } else s

/-- A graph completes (DEDUCED, notes/assumptions/47.md). -/
def completeGraph (s : State) (g : Nat) : State :=
  let k := s.graph g
  let s := writeCompletion s k.q k.cookie k.gstat k.root (graphStatus k.abort)
  { s with graphs := fdel s.graphs g }

/-! ### Nodes in progress -/

/-- A TASK, COPY or PROG node is in progress from here on (R26, R30). -/
def beginNode (s : State) (r : Ready) : Nat × State :=
  let (i, s) := s.fresh
  (i, { s with nodes := fset s.nodes i r })

/-- The node of a number. -/
def State.node (s : State) (i : Nat) : Ready := fget s.nodes i { graph := 0, node := 0 }

/-- A node in progress completes (R25, R26, R30): with status OK, or with CONT, its successors are made ready; else its
graph is aborted. -/
def nodeDone (s : State) (i : Nat) (ok : Bool) : State :=
  match fget? s.nodes i with
  | none => s
  | some n =>
    let r := n.bytes.getD []
    let s := { s with nodes := fdel s.nodes i }
    if (s.graph n.graph).abort.isSome then s
    else if ok ∨ (nodeKind r = 1 ∧ bit (nodeFlags r) 0) then makeNext s n.graph r
    else abortGraph s n.graph n.node

/-- A node in progress raises a fault (R31, R46). -/
def nodeFails (s : State) (i cause : Nat) : State :=
  let n := s.node i
  nodeFault { s with nodes := fdel s.nodes i } n.graph n.node cause

/-! ### Starting a graph (R45, R48) -/

/-- The graphs a Ferrymaster has live. -/
def liveGraphs (s : State) (sw : Nat) : Nat := (s.graphs.filter fun e => e.2.sw == sw).length

/-- The queue a Ferrymaster serves next (R48): all entries of the lowest pending queue come before those of the next
(DEDUCED, notes/assumptions/88.md). -/
def nextQueue (s : State) (sw : Nat) : Option Nat :=
  ((List.range 8).map (queueAt sw)).find? fun q => queueLive s q && 0 < (s.queue q).pend

/-- The entry of a queue at HEAD (R45). -/
def headEntry (s : State) (q : Nat) : List Byte :=
  loadAt s.mem (ferryKey (q / 8) (0x30000 + 0x2000 * (q % 8) + 32 * (s.queue q).head)) 32

/-- A page-table root: 4 KiB aligned, bits [63:48] zero. -/
def rootOk (a : Nat) : Bool := a % 4096 == 0 && a < 2 ^ 48

/-- An entry that runs (R48). -/
def entryOk (e : List Byte) : Bool :=
  dvaField (fieldAt e 0 8) 32 && rootOk (fieldAt e 24 8) && fieldAt e 8 2 != noNode && fieldAt e 10 2 == 0 &&
    fieldAt e 16 8 < 2 ^ 57

/-- GRAPH_START (R48): the latch names the queue, which its Ferrymaster serves next. -/
def execGraphStart (s : State) : Res :=
  let q := s.ev.a
  let sw := q / 8
  if s.bootStep ≠ 6 ∨ nextQueue s sw ≠ some q ∨ 32 ≤ liveGraphs s sw then .fault .notEnabled
  else
    let e := headEntry s q
    let c := s.queue q
    let s := s.setQueue q { c with head := (c.head + 1) % 256, pend := c.pend - 1 }
    let root := fieldAt e 24 8
    let gstat := fieldAt e 16 8
    let cookie := fieldAt e 12 4
    if !entryOk e then
      .next (writeCompletion s q cookie (if rootOk root then gstat else 0) root (graphStatus (some noNode)))
    else
      let (g, s) := s.fresh
      let k : Graph := { q := q, base := fieldAt e 0 8, root := root, cookie := cookie, gstat := gstat, branches := 1 }
      .next (makeReady (s.setGraph g k) g (fieldAt e 8 2))

/-! ### The nodes a Ferrymaster runs in order -/

/-- The kind of a ready node. -/
def Ready.kind (r : Ready) : Nat := nodeKind (r.bytes.getD [])

/-- The first ready node of a Ferrymaster that is no TASK (R48). -/
def nextNode (s : State) (sw : Nat) : Option Ready := (s.ferry sw).ready.find? fun r => r.kind != 1

/-- A ready node is taken. -/
def takeNode (s : State) (sw : Nat) (r : Ready) : State :=
  let f := s.ferry sw
  s.setFerry sw { f with ready := f.ready.erase r }

/-- Runs the next node of the Ferrymaster the latch names, which must be of a kind. -/
def runNode (s : State) (kind : Nat) (go : State → Ready → List Byte → State) : Res :=
  match nextNode s s.ev.a with
  | none => .fault .notEnabled
  | some r => if r.kind = kind ∧ s.alive s.ev.a then .next (go (takeNode s s.ev.a r) r (r.bytes.getD [])) else .fault .notEnabled

/-- The test of a COND node (R27). -/
def condTest (op p c : Nat) : Bool :=
  match op with
  | 0 => p == c
  | 1 => p != c
  | 2 => p < c
  | 3 => c ≤ p
  | 4 => sgn 64 p < sgn 64 c
  | _ => sgn 64 c ≤ sgn 64 p

/-- COND_NODE (R27): the latch names the Ferrymaster. -/
def execCondNode (s : State) : Res :=
  runNode s 2 fun s n r =>
    match rootRead s (s.graph n.graph).root (nodeBody r 8 8) 8 with
    | (none, s) => nodeFault s n.graph n.node cNodeField
    | (some w, s) =>
      makeReady s n.graph (if condTest (nodeFlags r) (leNat w) (nodeBody r 16 8) then nodeA r else nodeB r)

/-- Lim of a LOOP node that enters its loop (R28), if its count word can be read. -/
def loopLimit (s : State) (g : Nat) (r : List Byte) : Option Nat × State :=
  if nodeBody r 8 8 = 0 then (some (min (nodeBody r 16 4) (nodeBody r 20 4)), s)
  else
    match rootRead s (s.graph g).root (nodeBody r 8 8) 4 with
    | (none, s) => (none, s)
    | (some w, s) => (some (min (leNat w) (nodeBody r 20 4)), s)

/-- One run of a LOOP node whose limit is known (R28). -/
def loopRun (s : State) (n : Ready) (r : List Byte) (c lim : Nat) : State :=
  let k := s.graph n.graph
  let again := c + 1 < lim
  let s := s.setGraph n.graph { k with loops := fset k.loops n.node (if again then c + 1 else 0, lim) }
  makeReady s n.graph (if again then nodeA r else nodeB r)

/-- LOOP_NODE (R28): the latch names the Ferrymaster. -/
def execLoopNode (s : State) : Res :=
  runNode s 3 fun s n r =>
    let k := s.graph n.graph
    match fget? k.loops n.node with
    | none =>
      if 64 ≤ k.loops.length then nodeFault s n.graph n.node cLoopLimit
      else
        match loopLimit s n.graph r with
        | (none, s) => nodeFault s n.graph n.node cNodeField
        | (some lim, s) => loopRun s n r 0 lim
    | some (c, lim) =>
      if c ≠ 0 then loopRun s n r c lim
      else
        match loopLimit s n.graph r with
        | (none, s) => nodeFault s n.graph n.node cNodeField
        | (some lim, s) => loopRun s n r 0 lim

/-- The semaphore and the value of a WAIT or SIGNAL node (R29). -/
def Ready.gs (n : Ready) : Nat := nodeBody (n.bytes.getD []) 8 2
def Ready.value (n : Ready) : Nat := nodeBody (n.bytes.getD []) 12 4

/-- The first of a list of waiting nodes whose semaphore suffices and for whose semaphore no earlier one waits (R29). -/
def waiterMet (gs : FMap Nat) : List Nat → List Ready → Option Ready
  | _, [] => none
  | seen, n :: r =>
    if !seen.contains n.gs && n.value ≤ fget gs n.gs 0 then some n else waiterMet gs (n.gs :: seen) r

/-- WAIT_NODE (R29): the latch names the Ferrymaster. A waiting node whose semaphore suffices takes its value and
completes; else the next node, a WAIT, begins to wait. -/
def execWaitNode (s : State) : Res :=
  let sw := s.ev.a
  let f := s.ferry sw
  match waiterMet f.gs [] f.waits with
  | some n =>
    let f := { f with waits := f.waits.erase n, gs := fset f.gs n.gs (fget f.gs n.gs 0 - n.value) }
    .next (makeNext (s.setFerry sw f) n.graph (n.bytes.getD []))
  | none =>
    runNode s 4 fun s n _ =>
      let f := s.ferry sw
      s.setFerry sw { f with waits := f.waits ++ [n] }

/-- SIGNAL_NODE (R29): the latch names the Ferrymaster. -/
def execSignalNode (s : State) : Res :=
  runNode s 5 fun s n r =>
    let f := s.ferry s.ev.a
    let v := fget f.gs n.gs 0 + n.value
    if 2 ^ 32 ≤ v then nodeFault s n.graph n.node cGraphSem
    else makeNext (s.setFerry s.ev.a { f with gs := fset f.gs n.gs v }) n.graph r

/-- The buffer dies a COPY node can run on. -/
def liveBuffers (s : State) : List Nat := (upFrom 14 6).filter s.live

/-- COPY_NODE (R30, R276): the latch names the Ferrymaster. Which complex of which buffer die runs the copy is free
(DEDUCED, notes/assumptions/73.md). -/
def execCopyNode (s : State) : Res :=
  runNode s 6 fun s n r =>
    let bs := liveBuffers s
    let pos := bs.getD (Config.choose s.free % bs.length) 14
    let x := Config.choose (s.free + 1) % 16
    let s := { s with free := s.free + 2 }
    let root := (s.graph n.graph).root
    let (k, s) := beginNode s n
    let (i, s) := s.fresh
    let c : Cmd :=
      { kind := .node, engine := complexEngine pos x, home := pos, cx := x, root := root, droot := root, w0 := BitVec.ofNat 64 (nodeBody r 8 8)
        recIx := k, slot := 1 }
    startWalk (s.setCmd i c) i

/-- A control core of a switch die with no routine (R30): the lowest dormant one of the Ferrymaster's own die
(DESIGN CHOICE, notes/assumptions/59.md). -/
def freeControl (s : State) (sw : Nat) : Option Nat :=
  (upFrom (192 + 8 * sw) 8).find? fun c => (s.ctx (ctxKey c 0)).run == .dormant

/-- PROG_NODE (R30, R89): the latch names the Ferrymaster, one of whose control cores runs no routine. ARG is in x1
(DEDUCED, notes/assumptions/13.md). -/
def execProgNode (s : State) : Res :=
  match freeControl s s.ev.a with
  | none => .fault .notEnabled
  | some core =>
    runNode s 7 fun s n r =>
      let root := (s.graph n.graph).root
      let (k, s) := beginNode s n
      let ck := ctxKey core 0
      let c : Ctx :=
        { run := .running, base := nodeBody r 8 8, root := root, node := k, started := true
          front := s.clk ck, xnext := s.clk ck, fetchAt := s.clk ck
          x := [(1, BitVec.ofNat 64 (nodeBody r 16 8))] }
      s.setCtx ck c

/-- END_NODE (R25): the latch names the Ferrymaster. The branch ends, and with the last one the graph. -/
def execEndNode (s : State) : Res :=
  runNode s 8 fun s n _ =>
    let k := s.graph n.graph
    let s := s.setGraph n.graph { k with branches := k.branches - 1 }
    if k.branches ≤ 1 then completeGraph s n.graph else s

end Sys2Proof.Machine
end

