-- ==== Sys2Proof/Machine/Launch.lean ====
section
/-! DEFINITION. Launch records and context blocks, the TASK node, and the status of a task (02_describing_work.md R26, R33
to R38; 03_launch_and_placement.md R56; 13_pontoon_fabric.md R321; 18_retirement_and_surroundings.md R421, R422). -/

namespace Sys2Proof.Machine

/-! ### The arrays of a launch record -/

/-- Record i of n-byte records from an offset on. -/
def recordAt (r : List Byte) (off n i : Nat) : List Byte := (r.drop (off + n * i)).take n

/-- The numbers of die, stage, ring entries and snapshot ranges (R33). -/
def launchCounts (h : List Byte) : Nat × Nat × Nat × Nat := (fieldAt h 30 1, fieldAt h 31 1, fieldAt h 32 1, fieldAt h 33 1)

/-- The length of a launch record. -/
def launchLen (h : List Byte) : Nat :=
  let (d, g, r, n) := launchCounts h
  64 + 32 * d + 8 * g + 16 * r + 32 * n

/-- A die entry (R35). -/
def dieEntryOf (r : List Byte) : DieEntry :=
  let f := fieldAt r
  { kind := f 0 1, vdie := f 1 1, ncore := f 2 1, upart := f 4 2, cpart := f 6 2, dpart := f 8 2, nsem := f 10 2
    ncmd := f 12 4, cmdp := f 16 8 }

/-- A die entry keeps R35. -/
def dieEntryOk (r : List Byte) : Bool :=
  let e := dieEntryOf r
  1 ≤ e.kind && e.kind ≤ 5 && e.vdie < 22 && e.ncore ≤ tileCores e.kind &&
  (tileCores e.kind != 0 || (e.upart == 0 && e.cpart == 0)) && fieldAt r 3 1 == 0 &&
  e.upart * 0x10000 ≤ unitBytes e.kind / 4 && e.nsem ≤ 1024 && 1 ≤ e.ncmd && e.ncmd ≤ 4096 && dvaField e.cmdp 32 &&
  fieldAt r 24 8 == 0

/-- A stage entry (R36). -/
def stageEntryOf (r : List Byte) : StageEntry := { vdie := fieldAt r 0 1, vcore := fieldAt r 1 1, entry := fieldAt r 2 2 }

/-- A stage entry keeps R36. -/
def stageEntryOk (ds : List DieEntry) (r : List Byte) : Bool :=
  let e := stageEntryOf r
  (ds.any fun d => d.vdie == e.vdie && e.vcore < d.ncore) && e.entry ≤ 8191 && fieldAt r 4 4 == 0

/-- A ring entry (R36). -/
def ringEntryOf (r : List Byte) : RingEntry :=
  { pstage := fieldAt r 0 1, cstage := fieldAt r 1 1, depth := fieldAt r 2 2, slot := fieldAt r 4 2, qidx := fieldAt r 6 1
    mode := fieldAt r 7 1 }

/-- The virtual core of a stage. -/
def stageAt (ss : List StageEntry) (k : Nat) : Nat × Nat := ((ss[k]?).map fun e => (e.vdie, e.vcore)).getD (0, 0)

/-- A ring entry keeps R34 and R36. -/
def ringEntryOk (ss : List StageEntry) (yield : Nat) (r : List Byte) : Bool :=
  let e := ringEntryOf r
  e.pstage < ss.length && e.cstage < ss.length && 1 ≤ e.depth && e.depth ≤ 4096 && 1 ≤ e.slot && e.slot ≤ 64 &&
  e.qidx < 64 && e.mode < 2 && fieldAt r 8 8 == 0 &&
  (e.mode == 1 || (stageAt ss e.pstage).1 == (stageAt ss e.cstage).1) && (e.mode == 0 || yield != 0)

/-- The ring registers a ring takes: virtual core and index (R358). -/
def ringEnds (ss : List StageEntry) (e : RingEntry) : List (Nat × Nat × Nat) :=
  let p := stageAt ss e.pstage
  let c := stageAt ss e.cstage
  (c.1, c.2, e.qidx) :: if e.mode = 0 ∧ p ≠ c then [(p.1, p.2, e.qidx)] else []

/-- A snapshot range (R37). -/
def snapRangeOf (r : List Byte) : SnapRange :=
  { base := fieldAt r 0 8, len := fieldAt r 8 8, snap := fieldAt r 16 8, inout := fieldAt r 24 1 == 1 }

/-- A snapshot range keeps R37. -/
def snapRangeOk (r : List Byte) : Bool :=
  let e := snapRangeOf r
  e.base < 2 ^ 57 && e.snap < 2 ^ 57 && e.len != 0 && e.len % 256 == 0 && fieldAt r 24 1 < 2 && fieldAt r 25 7 == 0

/-! ### The whole record -/

/-- The fields of the header keep R33 and R52. -/
def launchHeadOk (h : List Byte) : Bool :=
  let f := fieldAt h
  let (d, g, r, n) := launchCounts h
  f 2 1 < 8 && f 3 1 < 4 && dvaField (f 8 8) 256 && dvaField (f 16 8) 64 && bits (f 28 2) 8 2 != 3 && f 28 2 < 2 ^ 10 &&
  1 ≤ d && d ≤ 22 && g ≤ 64 && r ≤ 64 && n ≤ 8 && f 34 1 ≤ 64 && f 35 29 == 0 && launchLen h ≤ 4096

/-- A launch record in its bytes, without what its context block and its fabric image give. -/
def launchOf (b : List Byte) : Launch :=
  let f := fieldAt b
  let (d, g, r, n) := launchCounts b
  let o1 := 64 + 32 * d
  let o2 := o1 + 8 * g
  let o3 := o2 + 16 * r
  { ver := f 0 2, prio := f 2 1, memBound := bit (f 3 1) 0, restart := bit (f 3 1) 1, taskid := f 4 4, fabp := f 16 8
    yield := f 24 4, shape := f 28 2, npb := f 34 1
    dies := (List.range d).map fun i => dieEntryOf (recordAt b 64 32 i)
    stages := (List.range g).map fun i => stageEntryOf (recordAt b o1 8 i)
    rings := (List.range r).map fun i => ringEntryOf (recordAt b o2 16 i)
    snaps := (List.range n).map fun i => snapRangeOf (recordAt b o3 32 i) }

/-- Every entry of a launch record keeps its rules (R34 to R37, R358). -/
def launchEntriesOk (b : List Byte) : Bool :=
  let l := launchOf b
  let (d, g, r, n) := launchCounts b
  let o1 := 64 + 32 * d
  let o2 := o1 + 8 * g
  let o3 := o2 + 16 * r
  ((List.range d).all fun i => dieEntryOk (recordAt b 64 32 i)) && distinct (l.dies.map DieEntry.vdie) &&
  ((List.range g).all fun i => stageEntryOk l.dies (recordAt b o1 8 i)) &&
  distinct (l.stages.map fun e => (e.vdie, e.vcore)) &&
  ((List.range r).all fun i => ringEntryOk l.stages l.yield (recordAt b o2 16 i)) &&
  distinct (l.rings.flatMap (ringEnds l.stages)) &&
  ((List.range n).all fun i => snapRangeOk (recordAt b o3 32 i))

/-- A context block keeps R34 and R38. -/
def contextBlockOk (c : List Byte) : Bool := rootOk (fieldAt c 0 8) && (c.drop 128).all (· == 0)

/-- A launch with the fields of its context block (R38). -/
def Launch.withContext (l : Launch) (c : List Byte) : Launch :=
  { l with
    ptroot := fieldAt c 0 8
    seeds := (upFrom 1 15).map fun k => (k, BitVec.ofNat 64 (fieldAt c (8 * k) 8)) }

/-- The header and the link records of the image at FABP keep the rules the placer judges (R321). -/
def imageHeadFits (l : Launch) (b : List Byte) : Bool :=
  let i := imageHead b
  let i := { i with links := (linkRecords i b).map linkOf }
  ((List.range 22).all fun v => i.npd.getD v 0 == 0 || hasDie l v) && (linkRecords i b).all linkFieldsOk &&
  i.links.all (linkJoins l i)

/-- A launch whose image cannot be read: where that is for want of memory it goes on as without an image, and the first walk
from PTROOT raises DPA_NONE (R34); else it may not be used (DEDUCED, notes/assumptions/48.md). -/
def imageUnread (l : Launch) (cause : Nat) : Option Launch := if cause = cDpaNone then some l else none

/-- A launch with what the placer reads of the image at FABP (R54, R55, R321), if it may be used. Of two link records of one
QIDX the mask of the last holds (DESIGN CHOICE, notes/assumptions/50.md). -/
def withImage (s : State) (l : Launch) : Option Launch × State :=
  if l.fabp = 0 then (some l, s)
  else
    match dvaLoad s l.ptroot l.fabp 64 with
    | (_, some e, s) => (imageUnread l e.1, s)
    | (h, none, s) =>
      if !imageHeadOk h then (none, s)
      else
        match dvaLoad s l.ptroot l.fabp (64 + 32 * (imageHead h).nlink) with
        | (_, some e, s) => (imageUnread l e.1, s)
        | (b, none, s) =>
          if !imageHeadFits l b then (none, s)
          else
            let i := imageHead b
            let ks := (linkRecords i b).map linkOf
            (some { l with npd := i.npd, masks := ks.foldl (fun m k => fset m k.qidx k.mask) [] }, s)

/-- Reads a launch record, its context block and its image header (R33, R34, R38, R46): none raises NODE_FIELD, and a
version that is not accepted is answered by itself (R56). -/
def readLaunch (s : State) (root a : Nat) : (Option Nat ⊕ Launch) × State :=
  match rootRead s root a 64 with
  | (none, s) => (.inl none, s)
  | (some h, s) =>
    if fieldAt h 0 2 ≠ 1 then (.inl (some (fieldAt h 0 2)), s)
    else if !launchHeadOk h then (.inl none, s)
    else
      match rootRead s root a (launchLen h) with
      | (none, s) => (.inl none, s)
      | (some b, s) =>
        match rootRead s root (fieldAt h 8 8) 256 with
        | (none, s) => (.inl none, s)
        | (some c, s) =>
          if !launchEntriesOk b || !contextBlockOk c then (.inl none, s)
          else
            match withImage s ((launchOf b).withContext c) with
            | (none, s) => (.inl none, s)
            | (some l, s) => (.inr l, s)

/-! ### The status of a task (R421) -/

/-- The attempts in a status word. -/
def attemptBits (k : Task) : Nat := 2 ^ 30 * (k.attempts - 1)

/-- OK, FAULT or ABORTED of a task that retires. -/
def Task.status (k : Task) : Nat :=
  if k.aborted then 4
  else if k.failed then
    let (c, i) := k.firstFault.getD (0, 0)
    1 + 2 ^ 8 * c + 2 ^ 18 * (i % 2 ^ 12) + attemptBits k
  else attemptBits k

/-- VERSION. -/
def versionStatus (ver : Nat) : Nat := 3 + 2 ^ 8 * ver

/-- NOFIT with the kind of the die entry that cannot be placed. -/
def nofitStatus (k : Task) (kind : Nat) : Nat := 2 + 2 ^ 8 * (k.launch.shape % 256) + 2 ^ 16 * kind

/-- A TASK node completes with a status (R26, R46, R422): STAT is written, then the successors are made ready. -/
def completeTaskNode (s : State) (node status : Nat) : State :=
  let n := s.node node
  match putStat s (s.graph n.graph).root (n.bytes.getD []) status with
  | (s, true) => nodeDone s node (status % 256 = 0)
  | (s, false) => nodeFails s node cNodeField

/-- A task is over. -/
def dropTask (s : State) (t status : Nat) : State :=
  let k := s.task t
  completeTaskNode { s with tasks := fdel s.tasks t, fabs := fdel s.fabs t, placerDue := true } k.node status

/-! ### The TASK node -/

/-- The first ready TASK node of a Ferrymaster. -/
def nextTask (s : State) (sw : Nat) : Option Ready := (s.ferry sw).ready.find? fun r => r.kind == 1

/-- TASK_NODE (R26, R33, R49): the latch names the Ferrymaster, whose next TASK node becomes a placement request
(DEDUCED, notes/assumptions/48.md). -/
def execTaskNode (s : State) : Res :=
  let sw := s.ev.a
  match nextTask s sw with
  | none => .fault .notEnabled
  | some n =>
    if !s.alive sw then .fault .notEnabled
    else
      let s := takeNode s sw n
      let g := s.graph n.graph
      match readLaunch s g.root (nodeBody (n.bytes.getD []) 8 8) with
      | (.inl none, s) => .next (nodeFault s n.graph n.node cNodeField)
      | (.inl (some v), s) =>
        let (i, s) := beginNode s n
        .next (completeTaskNode s i (versionStatus v))
      | (.inr l, s) =>
        let (i, s) := beginNode s n
        let (t, s) := s.fresh
        .next { s.setTask t { launch := l, graph := n.graph, node := i, queue := g.q, submitted := s.tb, eff := l.prio } with
                placerDue := true }

end Sys2Proof.Machine
end

