-- ==== Sys2Proof/Machine/Placement.lean ====
section
/-! DEFINITION. The placer: effective priorities, the order of requests, the search for a placement with its routes and
phases, its claims, pre-emption requests and the power class (03_launch_and_placement.md R49 to R67;
17_traps_and_preemption.md R404, R409). -/

namespace Sys2Proof.Machine

/-! ### What is held -/

/-- A place that is held: its task, the task's number, the place and the die entry. -/
structure Held where
  task : Nat
  k : Task
  pl : Place
  e : DieEntry
  deriving DecidableEq, Repr

/-- The die entry of a place. -/
def Task.entry (k : Task) (pl : Place) : DieEntry := (k.launch.dies.find? fun e => e.vdie == pl.vdie).getD {}

/-- The places of a task, as held. -/
def heldOf (t : Nat) (k : Task) : List Held := k.places.map fun pl => ⟨t, k, pl, k.entry pl⟩

/-- The places held by the tasks a test admits. -/
def heldBy (s : State) (f : Nat → Task → Bool) : List Held :=
  (s.tasks.filter fun e => f e.1 e.2).flatMap fun e => heldOf e.1 e.2

/-- A task runs on its cores and uses its pontoons: it is not stopped (R52, R407). -/
def Held.runs (h : Held) : Bool := h.k.run != .stopped

/-- The unit partitions a place holds on its cores, without those evicted (R408). -/
def unitsOf (s : State) (h : Held) : List (Nat × Nat) :=
  h.pl.cores.filter fun e => (fget? (s.part (partKey h.task h.pl.vdie)).evicted e.1).isNone

/-- First fit (R55): the lowest multiple of a step at which n units lie clear of the blocks held, up to a limit. -/
def firstFit (held : List (Nat × Nat)) (n cap : Nat) : Option Nat :=
  let free := fun o => o + n ≤ cap && held.all fun b => n == 0 || b.2 == 0 || o + n ≤ b.1 || b.1 + b.2 ≤ o
  (0 :: held.map fun b => b.1 + b.2).foldl (fun (r : Option Nat) o =>
    if free o then some (match r with | some p => min p o | none => o) else r) none

/-- First fit from the top downward (R175): the highest place at which n units lie clear. -/
def lastFit (held : List (Nat × Nat)) (n cap : Nat) : Option Nat :=
  let free := fun o => o + n ≤ cap && held.all fun b => n == 0 || b.2 == 0 || o + n ≤ b.1 || b.1 + b.2 ≤ o
  ((if n ≤ cap then [cap - n] else []) ++ (held.filter fun b => n ≤ b.1).map fun b => b.1 - n).foldl
    (fun (r : Option Nat) o => if free o then some (match r with | some p => max p o | none => o) else r) none

/-! ### One die (R52, R53, R55) -/

/-- A cluster takes new work: out of gating, and in no quiesce state (R20, R435). -/
def clusterOpen (s : State) (cl : Nat) : Bool := (s.cluster cl).powered && (s.cluster cl).qstate == 0

/-- The lowest free unit partition of a core, where no other task runs on it. -/
def coreFree (s : State) (hs : List Held) (pos k : Nat) (ideal : Bool) : Option Nat :=
  let here := hs.filter fun h => h.pl.pos == pos
  if here.any (fun h => h.runs && h.pl.cores.any fun e => e.1 == k) then none
  else if !ideal && !clusterOpen s (clusterOf (coreAt pos k)) then none
  else (List.range 4).find? fun u => !here.any fun h => (unitsOf s h).contains (k, u)

/-- The lowest-numbered free cores of a die with the partition each gets. -/
def freeCores (s : State) (hs : List Held) (pos n : Nat) (ideal : Bool) : List (Nat × Nat) :=
  ((List.range (tileCores (kindOf pos))).filterMap fun k => (coreFree s hs pos k ideal).map fun u => (k, u)).take n

/-- The clusters of a list of cores of a die. -/
def clustersFor (pos : Nat) (cores : List (Nat × Nat)) : List Nat :=
  (cores.map fun e => clusterOf (coreAt pos e.1)).eraseDups

/-- The cluster partition of an entry in every cluster (R55). -/
def clusterBases (hs : List Held) (e : DieEntry) : List Nat → Option (FMap Nat)
  | [] => some []
  | cl :: r =>
    let held := hs.filterMap fun h => (fget? h.pl.cbases cl).map fun b => (b, h.e.cpart * 0x10000)
    match firstFit held (e.cpart * 0x10000) (clusterBytes e.kind), clusterBases hs e r with
    | some b, some m => some (fset m cl b)
    | _, _ => none

/-- A place for a die entry at a position (R55): cores, partitions, semaphores, slipway segment, pontoons. -/
def fitDie (s : State) (hs : List Held) (e : DieEntry) (npd pos : Nat) (ideal : Bool) : Option Place :=
  let here := hs.filter fun h => h.pl.pos == pos
  let cores := freeCores s hs pos e.ncore ideal
  let dies := here.map fun h => (h.pl.dbase, h.e.dpart * 0x100000)
  let die := if e.kind = 4 then lastFit dies (e.dpart * 0x100000) (dieBytes e.kind)
    else firstFit dies (e.dpart * 0x100000) (dieBytes e.kind)
  let sem := firstFit (here.map fun h => (h.pl.sem, h.e.nsem)) e.nsem 1024
  let seg := firstFit ((here.filter fun h => !(s.part (partKey h.task h.pl.vdie)).retired).map fun h => (h.pl.seg, h.e.ncmd))
    e.ncmd 4096
  let used := (here.filter Held.runs).flatMap fun h => h.pl.pons
  let pons := ((List.range (pontoons e.kind)).filter fun p => !used.contains p).take npd
  if cores.length < e.ncore ∨ pons.length < npd then none
  else
    match clusterBases here e (clustersFor pos cores), die, sem, seg with
    | some cb, some d, some m, some g =>
      some { vdie := e.vdie, pos := pos, cores := cores, cbases := cb, dbase := d, sem := m, seg := g, pons := pons }
    | _, _, _, _ => none

/-! ### Routes and phases (R13, R52, R54) -/

/-- The routes between two positions in the order of R53, each by its switch die, if any, and its hops: over each module that
joins the two, the lower first, or through a switch die (DEDUCED, notes/assumptions/50.md). -/
def routesFor (s : State) (k : Task) (a b : Nat) : List (Option Nat × List (Nat × Nat)) :=
  let live := liveModules s k.avoidMods
  let sel := bits k.launch.shape 8 2
  if a = b then [(none, [])]
  else if (moduleTo a b).isSome then (live a b).map fun m => (none, [(a, m)])
  else
    ([0, 1].filter fun w => (sel == 0 || w == sel - 1) && s.live w && !k.avoidDies.contains w).flatMap fun w =>
      (live a w).flatMap fun m => (live w b).map fun n => (some w, [(a, m), (w, n)])

/-- The phases of each hop of a route at a phase offset (R54). -/
def hopPhases (mask : BitVec 64) (hops : List (Nat × Nat)) (phi : Nat) : List (Nat × Nat × BitVec 64) :=
  hops.zipIdx.map fun (h, i) => (h.1, h.2, mask.rotateLeft ((phi + 26 * i) % 64))

/-- Two lists of reserved phases have a phase of one link direction in common. -/
def phasesMeet (xs ys : List (Nat × Nat × BitVec 64)) : Bool :=
  xs.any fun x => ys.any fun y => x.1 == y.1 && x.2.1 == y.2.1 && x.2.2 &&& y.2.2 != 0

/-- No phase is needed twice. -/
def phasesClear : List (Nat × Nat × BitVec 64) → Bool
  | [] => true
  | x :: r => !phasesMeet [x] r && phasesClear r

/-- The mask of a ring (R54). -/
def Launch.maskOf (l : Launch) (q : Nat) : BitVec 64 := fget l.masks q (BitVec.allOnes 64)

/-- The position of a virtual die in a placement. -/
def posIn (ps : List Place) (v : Nat) : Nat := ((ps.find? fun p => p.vdie == v).map Place.pos).getD 0

/-- A route chosen for a ring, its phases not yet fixed. -/
structure Chosen where
  qidx : Nat
  mask : BitVec 64
  via : Option Nat
  hops : List (Nat × Nat)

/-- The phases of chosen routes at a phase offset. -/
def chosenPhases (cs : List Chosen) (phi : Nat) : List (Nat × Nat × BitVec 64) :=
  cs.flatMap fun c => hopPhases c.mask c.hops phi

/-- Routes for the rings, and the lowest phase offset at which they fit (R53, R54): the first in order. -/
def placeRoutes (s : State) (k : Task) (ps : List Place) (held : List (Nat × Nat × BitVec 64)) :
    List RingEntry → List Nat → List Chosen → Option (List Chosen × Nat)
  | [], phis, cs => phis.head?.map fun phi => (cs, phi)
  | r :: rs, phis, cs =>
    let at_ := fun i => posIn ps (stageAt k.launch.stages i).1
    (routesFor s k (at_ r.pstage) (at_ r.cstage)).findSome? fun (via, hops) =>
      let cs' := cs ++ [⟨r.qidx, k.launch.maskOf r.qidx, via, hops⟩]
      let phis' := phis.filter fun phi =>
        let xs := chosenPhases cs' phi
        phasesClear xs && !phasesMeet xs held
      if phis'.isEmpty then none else placeRoutes s k ps held rs phis' cs'

/-! ### A whole placement -/

/-- A placement: places, routes, package barriers, phase offset. -/
structure Plan where
  places : List Place
  routes : List Route
  pbs : List Nat
  phi : Nat
  deriving DecidableEq, Repr

/-- The phases other tasks hold (R54). -/
def heldPhases (hs : List Task) : List (Nat × Nat × BitVec 64) := hs.flatMap fun k => k.routes.flatMap Route.hops

/-- Completes a placement whose dies are chosen: barriers, routes and phases. -/
def finishPlan (s : State) (k : Task) (others : List Task) (ps : List Place) : Option Plan :=
  let used := others.flatMap Task.pbs
  let pbs := ((List.range 64).filter fun b => !used.contains b).take k.launch.npb
  if pbs.length < k.launch.npb then none
  else
    (placeRoutes s k ps (heldPhases others) (k.launch.rings.filter fun r => r.mode == 1) (List.range 64) []).map
      fun (cs, phi) =>
        { places := ps, pbs := pbs, phi := phi
          routes := cs.map fun c => { qidx := c.qidx, mask := c.mask, via := c.via, hops := hopPhases c.mask c.hops phi } }

/-- A position may be used for an entry: a live die of its kind, not excluded, not reserved, not used by the task (R50, R52,
R414). -/
def posOk (s : State) (k : Task) (taken : List Nat) (e : DieEntry) (ps : List Place) (pos : Nat) : Bool :=
  kindOf pos == e.kind && s.live pos && !k.avoidDies.contains pos && !taken.contains pos && ps.all fun p => p.pos != pos

/-- The pontoons a virtual die needs (R55). -/
def Launch.npdOf (l : Launch) (v : Nat) : Nat := l.npd.getD v 0

/-- The first placement in the order of R53 without the dies taken: entries in order, positions from the lowest. -/
def placeDies (s : State) (k : Task) (others : List Task) (hs : List Held) (taken : List Nat) (ideal : Bool) :
    List DieEntry → List Place → Option Plan
  | [], ps => finishPlan s k others ps
  | e :: r, ps =>
    (List.range 22).findSome? fun pos =>
      if !posOk s k taken e ps pos then none
      else
        match fitDie s hs e (k.launch.npdOf e.vdie) pos ideal with
        | some pl => placeDies s k others hs taken ideal r (ps ++ [pl])
        | none => none

/-- Inserts a die entry in the order of VDIE. -/
def insertEntry (e : DieEntry) : List DieEntry → List DieEntry
  | [] => [e]
  | f :: r => if e.vdie ≤ f.vdie then e :: f :: r else f :: insertEntry e r

/-- The die entries in ascending VDIE (R53). -/
def Launch.entries (l : Launch) : List DieEntry := l.dies.foldr insertEntry []

/-- The first placement beside the tasks of a list, on dies that are not taken (R53). -/
def search (s : State) (k : Task) (others : List (Nat × Task)) (taken : List Nat) : Option Plan :=
  placeDies s k (others.map Prod.snd) (others.flatMap fun e => heldOf e.1 e.2) taken false k.launch.entries []

/-- The first placement with every live unit free (R50, R56). -/
def idealPlan (s : State) (k : Task) : Option Plan := placeDies s k [] [] [] true k.launch.entries []

/-- KIND of the first die entry that cannot be placed even alone, or 0 (R421). -/
def nofitKind (s : State) (k : Task) : Nat :=
  ((k.launch.entries.find? fun e =>
    (List.range 22).all fun pos => !posOk s k [] e [] pos || (fitDie s [] e (k.launch.npdOf e.vdie) pos true).isNone).map
      DieEntry.kind).getD 0

/-! ### The order of requests (R49, R50) -/

/-- The effective priority of a request (R49). -/
def effPrio (s : State) (k : Task) : Nat :=
  let p := k.launch.prio
  if s.ageEn then max p (min s.ageCap (p + (s.tb - k.submitted) / 1250 / 2 ^ s.ageK)) else p

/-- A task waits for the placer (R50, R409). -/
def Task.requests (k : Task) : Bool := k.run == .waiting || k.run == .stopped

/-- One request comes before another (R50, R409): by effective priority, then by the round robin of the queues, a stopped task
by its first submission alone, then by first submission (DEDUCED, notes/assumptions/52.md). -/
def before (s : State) (a b : Nat × Task) : Bool :=
  let key := fun (k : Task) => (k.queue + 31 - s.lastQueue) % 16
  let stopped := a.2.run == .stopped || b.2.run == .stopped
  let ea := effPrio s a.2
  let eb := effPrio s b.2
  if ea ≠ eb then eb < ea
  else if !stopped ∧ key a.2 ≠ key b.2 then key a.2 < key b.2
  else if a.2.submitted ≠ b.2.submitted then a.2.submitted < b.2.submitted
  else a.1 < b.1

/-- Inserts a request in order. -/
def insertReq (s : State) (a : Nat × Task) : List (Nat × Task) → List (Nat × Task)
  | [] => [a]
  | b :: r => if before s a b then a :: b :: r else b :: insertReq s a r

/-- The requests in the order in which the placer considers them (R50); those of an aborted graph are not considered. -/
def requestOrder (s : State) : List (Nat × Task) :=
  (s.tasks.filter fun e => e.2.requests && (s.graph e.2.graph).abort.isNone).foldr (insertReq s) []

/-- AGING_STEP (R49, R50): the latch names a waiting request whose effective priority has risen. -/
def execAgingStep (s : State) : Res :=
  let k := s.task s.ev.a
  let e := effPrio s k
  if (fget? s.tasks s.ev.a).isNone ∨ !k.requests ∨ e ≤ k.eff then .fault .notEnabled
  else .next { s.setTask s.ev.a { k with eff := e } with placerDue := true }

/-! ### The power class (R67) -/

/-- The MX and VN clusters a task holds. -/
def classClusters (k : Task) : Nat :=
  ((k.places.filter fun p => kindOf p.pos == 2 || kindOf p.pos == 3).map fun p => (clustersFor p.pos p.cores).length).foldl
    (· + ·) 0

/-- The power class of the package: that of the placed task with the most clusters, the earlier placed at a tie. A stopped
task counts as placed (DEDUCED, notes/assumptions/89.md). -/
def powerClass (s : State) : Bool :=
  let placed := (s.tasks.filter fun e => !e.2.places.isEmpty).map Prod.snd
  let best := placed.foldl (fun (b : Option Task) k =>
    match b with
    | none => some k
    | some j =>
      if classClusters j < classClusters k ∨ (classClusters j = classClusters k ∧ k.placedAt < j.placedAt) then some k
      else b) none
  (best.map fun k => k.launch.memBound).getD false

/-- Reports a changed class, which is applied within 10 µs (R67). -/
def reportClass (s : State) : State :=
  if powerClass s = s.memClass then s
  else { s with free := s.free + 1 }.after (1 + Config.latency s.free % 12500) .powerClassApply

/-- POWER_CLASS_APPLY (R67, R431): the purser divides the module limit by the class. -/
def execPowerClassApply (s : State) : Res := .next (keepShares { s with memClass := powerClass s })

/-! ### Claiming a placement (R55, R59, R61, R358) -/

/-- Zeroes a partition, whose tiles become core-owned (R55, R156). -/
def zeroBlock (s : State) (key n : Nat) : State :=
  { s with mem := mzero s.mem key n, owned := s.owned.filter fun e => e.1 < key / 4096 || (key + n) / 4096 ≤ e.1 }

/-- Zeroes what a place claims. -/
def zeroPlace (s : State) (pl : Place) (e : DieEntry) : State :=
  let s := pl.cores.foldl (fun s (c : Nat × Nat) =>
    zeroBlock s (unitKey (coreAt pl.pos c.1) (c.2 * (unitBytes e.kind / 4))) (e.upart * 0x10000)) s
  let s := pl.cbases.foldl (fun s c => zeroBlock s (clusKey c.1 c.2) (e.cpart * 0x10000)) s
  let s := zeroBlock s (dieKey pl.pos pl.dbase) (e.dpart * 0x100000)
  let d := s.die pl.pos
  let mine := fun (x : Nat) => pl.sem ≤ x && x < pl.sem + e.nsem
  s.setDie pl.pos { d with sems := d.sems.filter fun x => !mine x.1, semw := d.semw.filter fun x => !mine x.1 }

/-- The ring registers the launch record declares on a virtual core (R358). -/
def declaredRings (l : Launch) (ps : List Place) (v c : Nat) : FMap Ring :=
  let phys := fun (x : Nat × Nat) => (((ps.find? fun p => p.vdie == x.1).bind fun p => p.cores[x.2]?).map Prod.fst).getD 0
  l.rings.foldl (fun m e =>
    let p := stageAt l.stages e.pstage
    let k := stageAt l.stages e.cstage
    let r : Ring := { nslot := e.depth, ssz := e.slot, declared := true }
    let m := if k = (v, c) then
        fset m e.qidx { r with fin := if e.mode = 0 ∧ p = k then 0 else 2, linkFed := e.mode == 1, other := phys p }
      else m
    if e.mode = 0 ∧ p ≠ k ∧ p = (v, c) then fset m e.qidx { r with fin := 1, other := phys k } else m) []

/-- The lowest identifier no part has (R170) (DESIGN CHOICE, notes/assumptions/85.md). -/
def freeIdent (s : State) : Nat :=
  ((upFrom 1 (s.parts.length + 1)).find? fun i => s.parts.all fun e => e.2.ident != i).getD 1

/-- Sets up a part and what its cores hold for it. -/
def setUpPart (s : State) (t : Nat) (l : Launch) (ps : List Place) (pl : Place) : State :=
  let p := partKey t pl.vdie
  let s := s.setPart p { task := t, pos := pl.pos, vdie := pl.vdie, ident := freeIdent s }
  pl.cores.zipIdx.foldl (fun s (c, j) =>
    s.setPcore (pcoreKey p c.1) { vcore := j, unit := c.2, rings := declaredRings l ps pl.vdie j }) s

/-- The purser requests F = 26 and U = 50 for a cluster of a task that holds streams, unless a ramp is in progress (R61, R433):
the request is not deferred for that task. -/
def fullSpeed (s : State) (cl : Nat) : State :=
  let c := s.cluster cl
  if c.stat = 1 ∨ (c.curF = 26 ∧ c.curU = 50) then s
  else
    let s := s.setCluster cl { c with reqF := 26, reqU := 50, pendF := 26, pendU := 50 }
    if c.qstate ≠ 0 then s.setCluster cl { s.cluster cl with stat := 4 } else startRamp s cl

/-- The clusters of a list of places. -/
def planClusters (ps : List Place) : List Nat := ps.flatMap fun p => clustersFor p.pos p.cores

/-- Claims a placement for a request (R55, R59). -/
def claimPlan (s : State) (t : Nat) (p : Plan) : State :=
  let k := s.task t
  let l := k.launch
  let t0 := phaseTick (s.tb + 64) p.phi
  let (n, s) := s.fresh
  let s := p.places.foldl (fun s pl => zeroPlace s pl (k.entry pl)) s
  let s := s.setTask t { k with
    run := .placed, places := p.places, routes := p.routes, pbs := p.pbs, pbars := [], phi := p.phi, t0 := t0
    started := false, frozen := none, held := 0, holdcnt := 0, holdtk := 0, hold := none, placedAt := n
    failed := false, endCause := 0 }
  let s := p.places.foldl (fun s pl => setUpPart s t l p.places pl) s
  let s := if k.holdsStreams then (planClusters p.places).foldl fullSpeed s else s
  reportClass (holdNew ({ s with lastQueue := k.queue }.after (t0 - s.tb) .taskStart { a := t }) t)

/-! ### Resuming a stopped task (R408, R409) -/

/-- The place on which a stopped part resumes: the same cores, but for an evicted partition the lowest-numbered core of
its cluster with a free one. -/
def resumeCores (s : State) (hs : List Held) (h : Held) : List (Nat × Nat) → List (Nat × Nat) → Option (List (Nat × Nat))
  | [], acc => some acc
  | (k, u) :: r, acc =>
    let cl := clusterOf (coreAt h.pl.pos k)
    let taken := fun c => acc.any (fun e => e.1 == c) || r.any fun e => e.1 == c
    if (fget? (s.part (partKey h.task h.pl.vdie)).evicted k).isNone then
      if (hs.any fun x => x.runs && x.pl.pos == h.pl.pos && x.pl.cores.any fun e => e.1 == k) || !clusterOpen s cl then none
      else resumeCores s hs h r (acc ++ [(k, u)])
    else
      match (List.range (tileCores (kindOf h.pl.pos))).findSome? fun c =>
        if clusterOf (coreAt h.pl.pos c) = cl ∧ !taken c then (coreFree s hs h.pl.pos c false).map fun v => (c, v) else none with
      | some e => resumeCores s hs h r (acc ++ [e])
      | none => none

/-- The places on which a stopped task can resume beside others (R409): its kept units are free, and its dies live and not
taken (DEDUCED, notes/assumptions/52.md). -/
def resumePlaces (s : State) (t : Nat) (k : Task) (others : List (Nat × Task)) (taken : List Nat) : Option (List Place) :=
  let hs := others.flatMap fun e => heldOf e.1 e.2
  (heldOf t k).foldr (fun h r =>
    let used := (hs.filter fun x => x.runs && x.pl.pos == h.pl.pos).flatMap fun x => x.pl.pons
    let pons := ((List.range (pontoons h.e.kind)).filter fun p => !used.contains p).take h.pl.pons.length
    match r, resumeCores s hs h h.pl.cores [] with
    | some ps, some cs =>
      if pons.length < h.pl.pons.length ∨ !s.live h.pl.pos ∨ taken.contains h.pl.pos then none
      else some ({ h.pl with cores := cs, pons := pons } :: ps)
    | _, _ => none) (some [])

/-- A table with its keys renamed. -/
def rekey {α : Type} (m : FMap α) (f : Nat → Nat) : FMap α := m.foldl (fun r e => fset r (f e.1) e.2) []

/-- A nest with its context renamed. -/
def Nest.rename (n : Nest) (g : Nat → Nat) : Nest := { n with ctx := g n.ctx }

/-- The physical cores of a part that stands stopped are renamed (R408): everything held for it follows. -/
def renameCores (s : State) (p : Nat) (f : Nat → Nat) : State :=
  let k := s.part p
  let g := fun (ck : Nat) => ctxKey (coreAt k.pos (f (physOf (coreOf ck)))) (ctxNo ck)
  let at_ := fun (n key : Nat) => if key / n / 64 = p then n * pcoreKey p (f (key / n % 64)) + key % n else key
  { s with
    pcores := (rekey s.pcores (at_ 1)).map fun (e : Nat × PartCore) =>
      (e.1, if e.1 / 64 = p then { e.2 with rings := e.2.rings.map fun r => (r.1, { r.2 with other := f r.2.other }) } else e.2)
    mxs := (rekey s.mxs (at_ 1)).map fun (e : Nat × Mx) =>
      (e.1, if e.1 / 64 = p then { e.2 with active := e.2.active.map (Nest.rename · g), queued := e.2.queued.map (Nest.rename · g) }
        else e.2)
    saved := rekey s.saved (at_ 8)
    sports := s.sports.map fun (e : Nat × SPort) => (e.1, if e.1 / 16 = p then { e.2 with ctx := g e.2.ctx } else e.2)
    fabs := s.fabs.map fun (e : Nat × Fab) =>
      (e.1, if e.1 = k.task then { e.2 with handlers := e.2.handlers.map fun h =>
        (h.1, if h.1 = k.vdie then (g h.2.1, h.2.2) else h.2) } else e.2)
    msgs := s.msgs.map fun (e : Nat × Msg) => (e.1, { e.2 with
      core := if e.2.part = p then f e.2.core else e.2.core
      ctx := if e.2.task = k.task ∧ posOf (coreOf e.2.ctx) = k.pos then g e.2.ctx else e.2.ctx })
    syncs := s.syncs.map fun (e : Nat × Sync) => (e.1, { e.2 with
      core := if e.2.part = p ∧ e.2.kind < 3 then f e.2.core else e.2.core
      ctx := if (s.part e.2.part).task = k.task ∧ posOf (coreOf e.2.ctx) = k.pos ∧ 2 ≤ e.2.kind then g e.2.ctx else e.2.ctx }) }

/-- Where the slot of a unit partition of a core begins (R411). -/
def slotDpa (s : State) (core unit : Nat) : Nat := s.saveBase + 0x400000 * (4 * core + unit)

/-- The bytes of a save slot as they are read back (R409); a byte that cannot be read is as it was kept
(DEDUCED, notes/assumptions/56.md). -/
def slotRead (s : State) (a : Nat) (kept : List Byte) : List Byte × State :=
  let s := readRun s a kept.length
  (kept.zipIdx.map fun (b, i) => match devByte s (a + i) with
    | .inr c => c
    | .inl _ => b, s)

/-- An evicted partition is copied back into the partition its part gets (R408). -/
def restorePartition (s : State) (core unit : Nat) (bs : List Byte) (own : List Bool) : State :=
  let key := unitKey core (unit * (unitBytes (kindOf (posOf core)) / 4))
  { s with
    mem := storeAt s.mem key bs
    owned := own.zipIdx.foldl (fun m (o, i) => if o then fset m (key / 4096 + i) true else fdel m (key / 4096 + i)) s.owned }

/-- The owner bits of the tiles of a partition, the first lowest. -/
def ownerMask (own : List Bool) : Nat := own.zipIdx.foldl (fun m e => m + b2n e.1 * 2 ^ e.2) 0

/-- A part takes the cores it resumes on (R408, R409). Virtual core j keeps its number where its core has moved
(DEDUCED, notes/assumptions/76.md). -/
def takeCores (s : State) (t : Nat) (old new : Place) : State :=
  let p := partKey t old.vdie
  let moved := (old.cores.map Prod.fst).zip new.cores
  let f := fun k => ((moved.find? fun e => e.1 == k).map fun e => e.2.1).getD k
  let ev := (s.part p).evicted
  let s := renameCores s p f
  let s := moved.foldl (fun s e =>
    let pk := pcoreKey p e.2.1
    let s := s.setPcore pk { s.pcore pk with unit := e.2.2 }
    match fget? ev e.1 with
    | some (bs, own) =>
      let slot := (s.pcore pk).slot
      let (bs, s) := slotRead s (slot + 0x280000) bs
      let (ob, s) := slotRead s (slot + 32) (leBytes 32 (ownerMask own))
      restorePartition s (coreAt old.pos e.2.1) e.2.2 bs ((List.range own.length).map fun i => bit (leNat ob) i)
    | none => s) s
  s.setPart p { s.part p with evicted := [] }

/-- A stopped task is given its units again (R409): it restarts at the first tick at least 64 after its last die is ready
at which (T - SCHEDTIME) mod 64 = Φ. How long the reload takes is free (DEDUCED, notes/assumptions/76.md). -/
def claimResume (s : State) (t : Nat) (ps : List Place) : State :=
  let k := s.task t
  let ready := s.tb + Config.latency s.free
  let at_ := phaseTick (ready + 64) ((k.phi + s.sched t) % 64)
  let s := { s with free := s.free + 1, lastQueue := k.queue }
  let s := (k.places.zip ps).foldl (fun s e => takeCores s t e.1 e.2) s
  let s := s.setTask t { k with run := .placed, places := ps }
  holdNew (s.after (at_ - s.tb) .taskResume { a := t }) t

/-! ### Pre-emption requests (R404) -/

/-- Two blocks have a unit in common. -/
def blocksMeet (a n b m : Nat) : Bool := n != 0 && m != 0 && a < b + m && b < a + n

/-- A held place holds units of a placement's place. -/
def placesMeet (h : Held) (pl : Place) (e : DieEntry) : Bool :=
  h.pl.pos == pl.pos &&
  ((h.runs && h.pl.cores.any fun c => pl.cores.any fun d => c.1 == d.1) ||
   h.pl.cores.any (fun c => pl.cores.contains c) ||
   h.pl.cbases.any (fun c => (fget? pl.cbases c.1).any fun b => blocksMeet c.2 (h.e.cpart * 0x10000) b (e.cpart * 0x10000)) ||
   blocksMeet h.pl.dbase h.e.dpart pl.dbase e.dpart || blocksMeet h.pl.sem h.e.nsem pl.sem e.nsem ||
   blocksMeet h.pl.seg h.e.ncmd pl.seg e.ncmd || (h.runs && h.pl.pons.any fun p => pl.pons.contains p))

/-- A task holds units of a placement (R404). -/
def holdsUnits (t : Nat) (u k : Task) (p : Plan) : Bool :=
  ((heldOf t u).any fun h => p.places.any fun pl => placesMeet h pl (k.entry pl)) ||
  u.pbs.any (fun b => p.pbs.contains b) ||
  phasesMeet (u.routes.flatMap Route.hops) (p.routes.flatMap Route.hops)

/-- A notice to stop is on its way to a task. -/
def noticed (s : State) (t : Nat) : Bool := s.agenda.any fun d => d.ev == .preemptNotice && d.arg.a == t

/-- Sends a notice, which arrives within 40 ticks (R404). -/
def sendNotice (s : State) (t : Nat) : State :=
  if noticed s t then s
  else { s with free := s.free + 1 }.after (1 + Config.latency s.free % 40) .preemptNotice { a := t }

/-- The placement a request would get if every task of lower PRIO were absent (R404). -/
def planWithout (s : State) (t : Nat) (k : Task) : Option Plan :=
  let others := s.tasks.filter fun e => e.1 != t && !e.2.places.isEmpty && k.launch.prio ≤ e.2.launch.prio
  if k.run = .waiting then search s k others []
  else (resumePlaces s t k others []).map fun ps => { places := ps, routes := k.routes, pbs := k.pbs, phi := k.phi }

/-- Requests pre-emption for a request that does not fit (R50, R404, R411). -/
def preemptFor (s : State) (t : Nat) (k : Task) : State :=
  if !s.saveEn then s
  else
    match planWithout s t k with
    | none => s
    | some p =>
      (s.tasks.filter fun e =>
        e.1 != t && (e.2.run == .running || e.2.run == .placed) && e.2.launch.prio < k.launch.prio &&
          holdsUnits e.1 e.2 k p).foldl (fun s e => sendNotice s e.1) s

/-! ### The pass (R50, R56) -/

/-- The task that stands for a reservation (R50): it holds the units of a placement. -/
def reservation (k : Task) (p : Plan) : Task :=
  { k with run := .placed, places := p.places, routes := p.routes, pbs := p.pbs }

/-- The task that stands for the reservation of a request: its first feasible placement were every live unit free, or what a
stopped task keeps (DEDUCED, notes/assumptions/51.md). -/
def reserves (s : State) (t : Nat) (k : Task) : Option (Nat × Task) :=
  if k.run = .waiting then (idealPlan s k).map fun p => (t, reservation k p) else some (t, { k with run := .placed })

/-- The request that holds the reservation, as the task that stands for it, while it still waits (R50). -/
def reserved (s : State) : Option (Nat × Task) :=
  match s.reserver with
  | none => none
  | some t =>
    let k := s.task t
    if k.requests && (s.graph k.graph).abort.isNone then reserves s t k else none

/-- A request is placed, or its task resumes, where it fits beside the tasks of a list on dies that are not taken. -/
def placeRequest (s : State) (t : Nat) (k : Task) (others : List (Nat × Task)) (taken : List Nat) : Option State :=
  if k.run = .waiting then (search s k others taken).map (claimPlan s t)
  else (resumePlaces s t k others taken).map (claimResume s t)

/-- Tries the requests in order, beside the units and the dies reserved (R50): the first that fits is placed. The first that
does not fit may have others pre-empted, and reserves its placement where none is reserved. -/
def tryRequests (s : State) (res : Option (Nat × Task)) (first : Bool) : List (Nat × Task) → State
  | [] => s
  | (t, k) :: r =>
    let held := s.tasks.filter fun e => e.1 != t && !e.2.places.isEmpty
    let other := res.filter fun e => e.1 != t
    match placeRequest s t k (held ++ other.toList) (other.toList.flatMap fun e => e.2.places.map Place.pos) with
    | some u => { u with placerDue := true, reserver := if s.reserver = some t then none else s.reserver }
    | none =>
      let s := if first then preemptFor s t k else s
      if res.isSome then tryRequests s res false r
      else tryRequests { s with reserver := some t } (reserves s t k) false r

/-- Rejects the waiting requests that no placement fits even with every live unit free (R56). -/
def rejectNofit (s : State) : State :=
  ((s.tasks.filter fun e => e.2.run == .waiting && (s.graph e.2.graph).abort.isNone).filter fun e =>
    (idealPlan s e.2).isNone).foldl (fun s e => dropTask s e.1 (nofitStatus e.2 (nofitKind s e.2))) s

/-- PLACER_PASS (R50): the placer considers its requests. -/
def execPlacerPass (s : State) : Res :=
  if !s.placerDue ∨ !s.alive s.root then .fault .notEnabled
  else
    let s := rejectNofit { s with placerDue := false }
    let s := { s with tasks := s.tasks.map fun (e : Nat × Task) =>
      (e.1, if e.2.requests then { e.2 with eff := effPrio s e.2 } else e.2) }
    let res := reserved s
    .next (tryRequests { s with reserver := res.map Prod.fst } res true (requestOrder s))

end Sys2Proof.Machine
end

