-- ==== Sys2Proof/Machine/Completion.lean ====
section
/-! DEFINITION. The end of a page walk, and the completion of commands, with or without error (07_scratchpads_and_device_memory.md
R163, R164, R179; 12_copy_engines.md R281, R285 to R289, R291, R297, R301; 14_memory_stacks.md R353; 17 R418; 03 R46). -/

namespace Sys2Proof.Machine

/-! ### Packet routes (R418) -/

/-- A command's engine reaches its home complex, or its stack's buffer die (R276, R348). -/
def Cmd.routed (s : State) (c : Cmd) : Bool := packetRoute s c.enginePos c.home

/-- The fill that is due for a slot. -/
def fillOf (s : State) (cl k : Nat) : Option (Nat × Cmd) :=
  s.cmds.find? fun e => e.2.kind == .fill && e.2.engine == cl && e.2.slot == k

/-- What a fill brings to its slot (R172): the bytes, or the cause of its failure; with no route to its home complex none can
be read (R418). -/
def fillBytes (s : State) (f : Cmd) : (Nat ⊕ List Byte) × State :=
  if !f.routed s then (.inl cLinkDown, s)
  else
    match dvaLoad s f.root f.errDva 256 with
    | (bs, none, s) => (.inr bs, s)
    | (_, some (cause, _), s) => (.inl cause, s)

/-- PROBE_FILL_COMPLETE (R172): the latch names the cluster and the slot. The block's 256 bytes are read and the slot
becomes VALID, or FAILED with the cause. A fill whose slot has become INVALID leaves only its bytes, and those only while the
slot is (DEDUCED, notes/assumptions/17.md). -/
def execProbeFillComplete (s : State) : Res :=
  let cl := s.ev.a
  let k := s.ev.b
  match fillOf s cl k with
  | none => .fault .notEnabled
  | some (i, f) =>
    if f.routed s && stripesBusy s ⟨f.errDva, 256, false, f.root, false⟩ then
      .next (s.after 1 .probeFillComplete { a := cl, b := k })
    else
      let c := s.cluster cl
      let p := c.slot k
      let put := fun (s : State) bs => winStore s (windowsOf s f.part (coreOf f.ctx)) (slotAddr c k) bs
      match fillBytes { s with cmds := fdel s.cmds i } f with
      | (.inr bs, s) =>
        if f.orphan then .next (if p.st = .invalid then put s bs else s)
        else .next ((put s bs).setCluster cl (c.setSlot k (p.filled none)))
      | (.inl cause, s) =>
        .next (if f.orphan then s else s.setCluster cl (c.setSlot k (p.filled (some cause))))

/-! ### Parameter blocks named by DVA (R281) -/

/-- The cause with which a command whose block was named by a DVA fails, if any. -/
def dvaBlockCause (s : State) (c : Cmd) (r : List Byte) : Option Nat :=
  let b := blockOf r
  let node := c.kind == .node
  let inDie := 0x10000000 ≤ b.dst.toNat && b.dst.toNat < 0x20000000
  firstBad
    [(node && (b.ssp || b.dsp), cNodeField),
     (!blockPlain r || !b.shaped || b.aux != 0 || b.aux2 != 0 || b.ssp || (b.dsp && !inDie), cCopyField),
     (b.dsp && !{ c with b := b }.dstOk s (c.windows s), cCopyRange)]

/-- The block of a slipway record or a COPY node is read, once (R282). -/
def readBlock (s : State) (i : Nat) (c : Cmd) : State :=
  match dvaLoad s c.root c.w0.toNat 64 with
  | (_, some e, s) => failCmd s i e
  | (r, none, s) =>
    match dvaBlockCause s c r with
    | some e => failCmd s i (e, 0)
    | none => startWalk (s.setCmd i { c with b := blockOf r, slot := 0 }) i

/-! ### TRANSLATION_WALK_DONE -/

/-- A command waits for no walk: it is parked, failed, in the timetable, in a queue, or has left. -/
def Cmd.unwalked (c : Cmd) : Bool :=
  c.parked.isSome || c.err != 0 || c.timed || c.queued || (c.kind == .cput && c.arrived)

/-- What follows the walk of a command (R179). -/
def walked (s : State) (i : Nat) (c : Cmd) : Res :=
  match c.kind with
  | .cpy | .cpyt | .cgath | .cscat => .next (moveWalked s i c)
  | .record | .node => .next (if c.slot = 1 then readBlock s i c else moveWalked s i c)
  | .cacc | .caccf | .cswp | .ccas => execAccumulateApply s
  | .cpsm => .next (psmWalked s i c)
  | .cwalk => execCwalkSlotFill s
  | .cput => .next (putWalked s i c)
  | .hscan | .hgath | .hred | .hcvt => .next (hWalked s i c)
  | .fload => .next (loadWalked s i c)
  | .sink => .next (sinkWalked s i c)
  | .fill => execProbeFillComplete { s with ev := { a := c.engine, b := c.slot } }
  | .tmov | .ownc | .line => .fault .notEnabled

/-- TRANSLATION_WALK_DONE (R179): the latch names the command. Its page is translated and its next bytes are performed, or
it is parked; a command without a route completes with error (R418). -/
def execTranslationWalkDone (s : State) : Res :=
  let i := s.ev.a
  match fget? s.cmds i with
  | none => .fault .notEnabled
  | some c =>
    if c.unwalked then .fault .notEnabled
    else if c.kind ≠ .fill ∧ !c.routed s then .next (failCmd s i (cLinkDown, 0))
    else walked s i c

/-! ### Completion (R285) -/

/-- The work of a record of a slipway is done (R41). -/
def recordDone (s : State) (p ix : Nat) : State :=
  let k := s.part p
  let v := fieldAt (k.recs.getD ix []) 4 2
  let s := s.setPart p { k with busy := k.busy.erase ix }
  if bit v 15 then raiseSem s p (bits v 0 10) else s

/-- The work of a command is done: what it writes last (R262, R297), its tokens and its semaphore, and what waits for it. -/
def closeCmd (s : State) (i : Nat) (c : Cmd) : State :=
  let s := { s with cmds := fdel s.cmds i }
  match c.kind with
  | .record => recordDone s c.part c.recIx
  | .node => nodeDone s c.recIx true
  | .cpsm =>
    let k := pcoreKey c.part (physOf (coreOf c.ctx))
    let x := s.mx k
    let s := portAsks s (c.windows s) false c.w0.toNat 2048
    releaseWaiters (s.setMx k { x with side := fset x.side c.arg (winBytes s (c.windows s) c.w0.toNat 2048) }) c
  | _ => releaseWaiters s c

/-- Every byte of a command is performed. -/
def Cmd.finished (s : State) (i : Nat) (c : Cmd) : Bool :=
  match c.kind with
  | .cpy | .cpyt | .cgath | .cscat | .cacc | .caccf => c.total ≤ c.reached
  | .record | .node => c.slot == 0 && c.total ≤ c.reached
  | .cswp | .ccas => c.op ≤ c.reached
  | .cpsm => mayPerform s i c []
  | .cwalk => c.row == c.w0.toNat
  | _ => false

/-- COPY_COMPLETE (R285): the latch names a command every byte of which is performed. -/
def execCopyComplete (s : State) : Res :=
  let i := s.ev.a
  match fget? s.cmds i with
  | none => .fault .notEnabled
  | some c => if c.unwalked || !c.finished s i then .fault .notEnabled else .next (closeCmd s i c)

/-! ### Completion with error (R288) -/

/-- The flags of an HCVT are written with error as without (R353). -/
def lastRecord (s : State) (c : Cmd) : State :=
  if c.kind = .hcvt ∧ c.w1 ≠ 0 then (dvaPut s c.root c.w1.toNat (crecBytes c)).s else s

/-- A put counts before its tokens post (R301). -/
def countPut (s : State) (c : Cmd) : State :=
  if c.kind = .cput then
    let p := s.part c.part
    s.setPart c.part { p with pcnt := fset p.pcnt c.arg (fget p.pcnt c.arg 0 + 1) }
  else s

/-- A COPY node whose command failed (R31, R46, R281): a field of its block is a node fault, anything else its status. -/
def nodeError (s : State) (c : Cmd) : State :=
  if c.err = cNodeField then nodeFails s c.recIx c.err else nodeDone (logCmd s c) c.recIx false

/-- A routine whose fetch was failed ends (R46, R472). -/
def lineError (s : State) (c : Cmd) : State :=
  (logCmd s c).endRoutine c.ctx

/-- A failed command ends: its waiters are released as by a completion, then it is logged. -/
def errorDone (s : State) (i : Nat) : State :=
  let c := s.cmd i
  let s := { s with cmds := fdel s.cmds i }
  match c.kind with
  | .record => logCmd (recordDone s c.part c.recIx) c
  | .node => nodeError s c
  | .line => lineError s c
  | .sink => logCmd s c
  | .hscan | .hgath | .hred | .hcvt =>
    (logCmd (releaseWaiters (lastRecord s c) c) c).after 1 .stackEngineStart { a := c.arg }
  | _ => logCmd (releaseWaiters (countPut s c) c) c

/-- COPY_ERROR_COMPLETE (R288): the latch names a command that cannot finish. -/
def execCopyErrorComplete (s : State) : Res :=
  let i := s.ev.a
  match fget? s.cmds i with
  | none => .fault .notEnabled
  | some c =>
    if c.err = 0 ∨ c.parked.isSome then .fault .notEnabled
    else if c.kind = .fload then .next (loadFails s i c.err c.errDva)
    else .next (errorDone s i)

/-! ### Puts and timed copies -/

/-- The error an acknowledgement brings or meets (R301). -/
def ackError (s : State) (c : Cmd) : Nat :=
  if !putLocal s c && !peerReaches s (putPkg c) then cPutPeer else c.w2.toNat

/-- PUT_ACK (R301): the latch names a put that has arrived; its acknowledgement reaches the issuing engine. -/
def execPutAck (s : State) : Res :=
  let i := s.ev.a
  match fget? s.cmds i with
  | none => .fault .notEnabled
  | some c =>
    if c.kind ≠ .cput ∨ !c.arrived ∨ c.err ≠ 0 then .fault .notEnabled
    else
      let e := ackError s c
      if e = 0 then .next (closeCmd (countPut s c) i c) else .next (errorDone (s.setCmd i { c with err := e }) i)

/-- A timed command is due: its task's SCHEDTIME runs on its die and has reached its time (R63, R291). -/
def timedDue (s : State) (c : Cmd) : Bool :=
  c.w0.toNat ≤ s.schedOf c.ctx && (isControl (coreOf c.ctx) || s.timeRuns c.task c.enginePos)

/-- The due command of a timetable with the earliest time, and of those the one accepted first. -/
def nextTimed (s : State) (cl : Nat) : Option (Nat × Cmd) :=
  ((timetable s cl).filter fun e => timedDue s e.2).foldl (fun (b : Option (Nat × Cmd)) e =>
    match b with
    | some f => if e.2.w0.toNat < f.2.w0.toNat then some e else b
    | none => some e) none

/-- The due commands of a timetable that wait behind the one that issues (R291). -/
def dueBehind (s : State) (cl i : Nat) : Nat := ((timetable s cl).filter fun e => e.1 != i && timedDue s e.2).length

/-- TIMETABLE_ISSUE (R291): the latch names the cluster engine, whose next due command issues in this clk. Each other due command
waits this clk behind it. -/
def execTimetableIssue (s : State) : Res :=
  let cl := s.ev.a
  let t := s.cluster cl
  match nextTimed s cl with
  | none => .fault .notEnabled
  | some (i, c) =>
    if s.clkOf cl < t.ttFree then .fault .notEnabled
    else
      let s := s.setCluster cl { t with ttFree := s.clkOf cl + 1, slip := t.slip + BitVec.ofNat 64 (dueBehind s cl i) }
      .next (startWalk (s.setCmd i { c with timed := false }) i)

/-! ### TMOV and OWN.C -/

/-- The bytes of a TMOV move row by row, in loop order (R164). -/
def tileMove (s : State) (c : Cmd) : State :=
  let w := c.windows s
  (List.range (c.b.n2 * c.b.n1)).foldl (fun s r =>
    winStore (portAsks s w false (c.srcAt (r * c.b.len)) c.b.len) w (c.dstAt (r * c.b.len)) (winBytes s w (c.srcAt (r * c.b.len)) c.b.len)) s

/-- Every command an engine accepted before one has completed (R163). -/
def engineClear (s : State) (i : Nat) (c : Cmd) : Bool :=
  s.cmds.all fun e => i ≤ e.1 || e.2.engine != c.engine || e.2.kind == .fill || e.2.kind == .line

/-- TILE_MOVE_COMPLETE (R163, R164): the latch names a TMOV, whose last byte is written, or an OWN.C, whose tiles go back to
the core once every earlier command of the engine has completed. -/
def execTileMoveComplete (s : State) : Res :=
  let i := s.ev.a
  match fget? s.cmds i with
  | none => .fault .notEnabled
  | some c =>
    match c.kind with
    | .tmov => .next (if mayPerform s i c [] then closeCmd (tileMove s c) i c else tryAgain s .tileMoveComplete i)
    | .ownc =>
      if !engineClear s i c then .next (tryAgain s .tileMoveComplete i)
      else .next (closeCmd (setOwner s (c.windows s) false c.w0.toNat (c.w1.toNat / 4096)) i c)
    | _ => .fault .notEnabled

end Sys2Proof.Machine
end

