-- ==== Sys2Proof/Machine/Banks.lean ====
section
/-! DEFINITION. The banks of the unit scratchpads: what an instruction asks of them, whom each serves in a clk, and how a
delay moves what the instruction does (05_issue.md R111 to R114; 10_vector_axes_and_access.md R239, R244). -/

namespace Sys2Proof.Machine

/-! ### What an instruction asks -/

/-- Lines by bank (R157): each bank with how many of them it holds. -/
def byBank (ls : List Nat) : List (Nat × Nat) :=
  ((ls.map (· % 64)).eraseDups).map fun b => (b, (ls.filter (· % 64 == b)).length)

/-- The lines of a vector access. -/
def vecLines (s : State) (k : BitVec 1) (e : Nat → Nat) : List Nat := unitLines ((takers s k e).map Prod.snd)

/-- The lines of the source and destination of a conversion (R226): n blocks, the elements' size and number. -/
def convLines (c : Conv) (a m : Nat) : List Nat := (runLines c.src a ++ runLines c.dst m).eraseDups

/-- The lines of the unit window that the instruction in the latch accesses (R112, R244). -/
def linesOf (i : Instr) (s : State) : List Nat :=
  let scalar := fun (v : BitVec 8) (size : Nat) => runLines (eaOf s.iss.xa v size).toNat size
  let c := convOf s
  match i with
  | .ldb _ _ _ v | .ldbu _ _ _ v | .stb _ _ _ v => scalar v 1
  | .ldh _ _ _ v | .ldhu _ _ _ v | .sth _ _ _ v => scalar v 2
  | .ldw _ _ _ v | .ldwu _ _ _ v | .stw _ _ _ v => scalar v 4
  | .ldd _ _ _ v | .std _ _ _ v => scalar v 8
  | .vld _ _ _ k w | .vst _ _ _ k w => vecLines s k (rowAddr s w (64 * esz w))
  | .vlds _ _ _ _ k w | .vsts _ _ _ _ k w => vecLines s k (rowAddr s w s.iss.xb.toNat)
  | .vldc _ _ _ _ k w | .vstc _ _ _ _ k w => vecLines s k (colAddr s w)
  | .vldb _ _ _ k t w => vecLines s k (if t = 0 then rowAddr s w 0 else fun _ => s.iss.xa.toNat)
  | .vldg _ _ _ b k w | .vstx _ _ _ b k w => vecLines s k (idxAddr s b w)
  | .vldm _ _ _ | .vstm _ _ _ => unitLines (maskRows s)
  | .vqnt _ _ _ f => convLines c (ftSize c.st * min (c.n * blockLen f.toNat) c.krem) (64 * c.n)
  | .vdqnt _ _ _ f =>
    convLines c (64 * c.n) (ftSize f.toNat * c.n * if bits s.iss.xb.toNat 12 1 = 0 then 112 else 56)
  | _ => []

/-- The clks after issue in which what an instruction does lands or is performed (R107). -/
def landsIn (i : Instr) (s : State) : Nat :=
  match i with
  | .vqnt _ _ _ _ | .vdqnt _ _ _ _ => 11 + (convOf s).n
  | _ => (uses i).bound

/-- How many clks after its bound an instruction completes (R110): an elementwise access of vector rows. -/
def tailOf : Instr → Nat
  | .vld _ _ _ _ _ | .vlds _ _ _ _ _ _ | .vldb _ _ _ _ _ _ | .vldm _ _ _ | .vst _ _ _ _ _ | .vsts _ _ _ _ _ _ | .vstm _ _ _ => 3
  | _ => 0

/-- The passes of an instruction over all banks (R239). -/
def passesOf : Instr → Nat
  | .vperm _ _ _ _ _ _ => 16
  | _ => 0

/-- The request an instruction in the latch makes of the banks of its core, issued in this clk. -/
def bankRequest (s : State) (ck : Nat) (e : Entry) : BankReq :=
  let u := uses e.instr
  let left := byBank (linesOf e.instr s)
  let clk := s.clk ck
  let n := passesOf e.instr
  { ctx := ctxNo ck, q := e.q, left := left, passes := n, due := clk + 4
    last := if n = 0 then clk + (left.map Prod.snd).foldl max 1 - 1 else clk + 3 + n
    land := clk + landsIn e.instr s, tail := tailOf e.instr
    reg := match u.vw, u.mw with
      | (d, _) :: _, _ => some (physV e.rot d)
      | [], d :: _ => some (32 + d)
      | [], [] => none
    x := match u.dst with
      | some d => physX e.rot d.toNat
      | none => 0 }

/-- An instruction that has issued asks its banks (R113). -/
def askBanks (s t : State) (ck : Nat) (e : Entry) : State :=
  let r := bankRequest { s with iss := { s.iss with ctx := ck, q := e.q, rot := e.rot, xa := e.xa, xb := e.xb } } ck e
  if r.left.isEmpty && r.passes == 0 then t
  else { t with banks := fset t.banks (coreOf ck) (fget t.banks (coreOf ck) [] ++ [r]) }

/-! ### Whom a bank serves -/

/-- What a core keeps of a bank. -/
def State.bank (s : State) (core b : Nat) : Bank := fget s.bankUse (64 * core + b) {}

/-- A bank after it has served a context in a clk (R114, R115). -/
def Bank.serves (u : Bank) (k : Nat) : Bank :=
  { u with slot := { last := k, run := if u.slot.last = k then u.slot.run + 1 else 1 } }

/-- The rank of a queue within a context (R114). -/
def bankRank : Queue → Nat
  | .l => 0
  | .s => 1
  | _ => 2

/-- A request asks for a bank in a clk. -/
def BankReq.asks (r : BankReq) (clk b : Nat) : Bool := fget r.left b 0 != 0 || (r.passes != 0 && r.due ≤ clk)

/-- The request a bank serves (R114): by context in the order of R115, then L, S and C, then in issue order. -/
def bankWinner (u : Bank) (clk b : Nat) (rs : List (Nat × BankReq)) : Option Nat :=
  let rs := rs.filter fun e => e.2.asks clk b
  match arbiter u.slot (rs.map fun e => e.2.ctx) with
  | none => none
  | some k =>
    let rs := rs.filter fun e => e.2.ctx == k
    (rs.find? fun e => rs.all fun f => bankRank e.2.q ≤ bankRank f.2.q).map Prod.fst

/-- The matrix engine of a core that fetches operands, with its key (R252). -/
def fetcher (s : State) (core : Nat) : Option (Nat × Mx) :=
  s.mxs.find? fun e => !e.2.reading.isEmpty && physOf core == e.1 % 64 && (s.part (e.1 / 64)).pos == posOf core

/-- The stream sources bound on a core that read ahead, with their keys (R330). -/
def readers (s : State) (core : Nat) : List (Nat × SPort) :=
  s.sports.filter fun e => !e.2.reading.isEmpty && coreOf e.2.ctx == core

/-- The first stream source of a core that asks for a bank. -/
def readerAt (s : State) (core b : Nat) : Option Nat :=
  ((readers s core).find? fun e => fget e.2.reading b 0 != 0).map Prod.fst

/-- The operand fetch of a core's matrix engine asks for a bank. -/
def fetchAt (s : State) (core b : Nat) : Bool := (fetcher s core).any fun e => fget e.2.reading b 0 != 0

/-- Something that ranks with the matrix engine asks for a bank (R252, R330). -/
def mxAsks (s : State) (core b : Nat) : Bool := fetchAt s core b || (readerAt s core b).isSome || (s.bank core b).mx != 0

/-- A request of an engine other than the matrix engine has waited 16 clk (R252). -/
def Bank.overdue (u : Bank) (clk : Nat) : Bool := u.eng != 0 && u.engAt + 16 ≤ clk

/-- The banks the engine port takes before any core request: its oldest request has waited 16 clk (R114 step 1). -/
def claimed (s : State) (core clk : Nat) : List Nat :=
  (List.range 64).filter fun b =>
    let u := s.bank core b
    u.overdue clk || (mxAsks s core b && u.mxAt + 16 ≤ clk)

/-- The grants of a clk: banks with the request each serves. A pass is granted only if it wins at every bank (R239). -/
def grants (s : State) (core clk : Nat) (taken : List Nat) (rs : List (Nat × BankReq)) : List (Nat × Nat) :=
  let win := fun (rs : List (Nat × BankReq)) (b : Nat) => bankWinner (s.bank core b) clk b rs
  let pass := rs.find? fun e => e.2.passes != 0 && e.2.due ≤ clk && taken.isEmpty &&
    (List.range 64).all fun b => win rs b == some e.1
  match pass with
  | some e => (List.range 64).map fun b => (b, e.1)
  | none =>
    let ls := rs.filter fun e => e.2.passes == 0
    ((List.range 64).filter fun b => !taken.contains b).filterMap fun b => (win ls b).map fun i => (b, i)

/-- A request after a clk in which some banks served it. -/
def BankReq.served (r : BankReq) (clk : Nat) (bs : List Nat) : BankReq :=
  if r.passes ≠ 0 then
    if bs.isEmpty then r else { r with passes := r.passes - 1, due := clk + 1 }
  else { r with left := (r.left.map fun e => (e.1, if bs.contains e.1 then e.2 - 1 else e.2)).filter (·.2 != 0) }

/-- Nothing is left of a request. -/
def BankReq.met (r : BankReq) : Bool := r.left.isEmpty && r.passes == 0

/-- What an instruction does is delayed by one clk (R111): its register lands later, and it completes later. -/
def delayOne (s : State) (core : Nat) (r : BankReq) : State :=
  let ck := ctxKey core r.ctx
  let mine := fun (d : Due) =>
    d.ev == .instructionComplete && d.arg.a == ck && d.arg.q == r.q && d.at_ == r.land + r.tail && d.clk == some (clusterOf core)
  let s := match s.agenda.find? mine with
    | some d => { s with agenda := s.agenda.erase d ++ [{ d with at_ := d.at_ + 1 }] }
    | none => s
  if (fget? s.ctxs ck).isNone then s
  else
    let c := s.ctx ck
    let c := match r.reg with
      | some k => { c with late := fset c.late k (max (fget c.late k 0) (r.land + 2)) }
      | none => c
    let later := fun (m : FMap Nat) => fset m r.q.code (max (fget m r.q.code 0) (r.land + r.tail + 1))
    let c := { c with qdone := later c.qdone, acc := if r.passes = 0 then later c.acc else c.acc }
    s.setCtx ck (if r.x ≠ 0 then { c with xrdy := fset c.xrdy r.x (max (fget c.xrdy r.x 0) (r.land + 1)) } else c)

/-- The banks the engine port gets in a clk (R114): those it takes, and those that serve no core request and are asked for. -/
def portBanks (s : State) (core clk : Nat) (gs : List (Nat × Nat)) : List Nat :=
  (List.range 64).filter fun b =>
    (gs.lookup b).isNone && ((s.bank core b).eng != 0 || mxAsks s core b || (claimed s core clk).contains b)

/-- A bank serves the engine port in a clk: the matrix engine and what ranks with it before the others, but a request of
theirs that has waited 16 clk (R252). Of the former, an access of its own count is the last. The waiting count restarts; a
core that has lost the bank loses it to none of them then (R114). -/
def Bank.port (u : Bank) (clk : Nat) (first asks claim : Bool) : Bank :=
  let u' := if u.overdue clk || !asks then { u with eng := u.eng - 1, engAt := clk }
    else { u with mx := if first then u.mx else u.mx - 1, mxAt := clk }
  if claim then { u' with mxAt := clk, engAt := clk } else u'

/-- What a read of lines asks after some banks have served it. -/
def readLeft (m : FMap Nat) (bs : List Nat) : FMap Nat :=
  (m.map fun e => (e.1, if bs.contains e.1 then e.2 - 1 else e.2)).filter (·.2 != 0)

/-- An operand fetch gets banks; after its last line the fetch has ended (R252). -/
def Mx.fetched (x : Mx) (clk : Nat) (bs : List Nat) : Mx :=
  let r := readLeft x.reading bs
  if r.isEmpty then { x with reading := [], fetch := x.fetch.map (max (clk + 1)), fetchEnd := max x.fetchEnd clk }
  else { x with reading := r }

/-- The engine port at the end of a clk: an operand fetch comes first, then the stream sources, then the other accesses of the
matrix engine (DESIGN CHOICE, notes/assumptions/21.md). -/
def servePort (s : State) (core clk : Nat) (gs : List (Nat × Nat)) : State :=
  let bs := portBanks s core clk gs
  let cs := claimed s core clk
  let mine := bs.filter fun b => !(s.bank core b).overdue clk
  let used := bs.foldl (fun m b =>
    fset m (64 * core + b)
      ((s.bank core b).port clk (fetchAt s core b || (readerAt s core b).isSome) (mxAsks s core b) (cs.contains b))) s.bankUse
  let read := fun (k : Nat) (p : SPort) =>
    { p with reading := readLeft p.reading (mine.filter fun b => !fetchAt s core b && readerAt s core b == some k) }
  let s' := { s with
    bankUse := used, sports := s.sports.map fun e => (e.1, if coreOf e.2.ctx = core then read e.1 e.2 else e.2) }
  match fetcher s core with
  | none => s'
  | some (k, x) => s'.setMx k (x.fetched clk mine)

/-- The banks of a core at the end of a clk. -/
def coreBanks (s : State) (core : Nat) : State :=
  let clk := s.clkOf (clusterOf core)
  let rs := (fget s.banks core []).zipIdx.map fun e => (e.2, e.1)
  let gs := grants s core clk (claimed s core clk) rs
  let s := servePort s core clk gs
  let used := gs.foldl (fun m g =>
    fset m (64 * core + g.1) ((s.bank core g.1).serves ((rs.lookup g.2).getD { ctx := 0 }).ctx)) s.bankUse
  let ns := rs.map fun e => e.2.served clk ((gs.filter fun g => g.2 == e.1).map Prod.fst)
  let left := ns.filter fun r => !r.met
  let s := (left.filter fun r => r.last ≤ clk).foldl (fun s r => delayOne s core r) s
  let kept := left.map fun r => if r.last ≤ clk then { r with land := r.land + 1 } else r
  { s with
    banks := if kept.isEmpty then fdel s.banks core else fset s.banks core kept
    bankUse := used }

/-- The cores whose banks are asked for anything. -/
def askedCores (s : State) : List Nat :=
  let asked : FMap Bank := s.bankUse.filter fun e => e.2.mx + e.2.eng != 0
  let reading : FMap Mx := s.mxs.filter fun e => !e.2.reading.isEmpty
  let ports : FMap SPort := s.sports.filter fun e => !e.2.reading.isEmpty
  (s.banks.map Prod.fst ++ asked.map (fun (e : Nat × Bank) => e.1 / 64) ++
    reading.map (fun (e : Nat × Mx) => coreAt (s.part (e.1 / 64)).pos (e.1 % 64)) ++
    ports.map fun (e : Nat × SPort) => coreOf e.2.ctx).eraseDups

/-- The banks of every core whose cluster has a clk in this tick. A core without requests serves none. -/
def bankTick (s : State) : State :=
  (askedCores s).foldl (fun s core =>
    if hasClock s (clusterOf core) && !(s.cluster (clusterOf core)).gap then coreBanks s core else s) s

end Sys2Proof.Machine
end

