-- ==== Sys2Proof/Machine/Issue.lean ====
section
/-! DEFINITION. Issuing the head of a queue and executing an X lane: the latch an instruction is executed with, and the
books afterwards (05_issue.md R99 to R106, R109, R111, R115). What the instruction does is its own meaning's. -/

namespace Sys2Proof.Machine

/-- The latch of a queue's head. -/
def latchHead (ck : Nat) (e : Entry) : Iss :=
  { ctx := ck, q := e.q, line := e.line, lane := e.lane, rot := e.rot, xa := e.xa, xb := e.xb, xd := e.xd
    again := e.tokDone, wset := e.wset, lineNo := e.lineNo }

/-- The latch of an X lane. -/
def latchLane (ck : Nat) (c : Ctx) (l : Lane) : Iss :=
  { ctx := ck, q := .x, line := c.line, lane := l.idx, rot := c.rot, lineNo := c.lineNo }

/-- The head of a queue is tried again in the next clk. -/
def tryLater (s : State) (ck : Nat) (q : Queue) : State :=
  let c := s.ctx ck
  s.setCtx ck { c with qtry := fset c.qtry q.code (s.clk ck + 1) }

/-- The issue slot and the delay count after an instruction has issued (R105, R115, R215). -/
def issued (s : State) (ck : Nat) (e : Entry) : State :=
  let n := 1 + (uses e.instr).extra
  let s := s.useSlot ck e.q.code n
  let c := s.ctx ck
  s.setCtx ck { (c.takeTokens e) with qnext := fset c.qnext e.q.code (s.clk ck + n) }

/-- The books after the head of a queue was executed from s with the result t: one that raised a fault stays at the head, to be
saved with the rest (R399); an instruction that did not issue changes nothing (R106); one that issued and waits stays at the head with its tokens taken
(R101); any other leaves the queue. -/
def afterHead (s t : State) (ck : Nat) (e : Entry) : State :=
  let a := t.iss
  let t := { t with iss := {} }
  if a.faulted then tryLater t ck e.q
  else if a.wait && !a.again then tryLater s ck e.q
  else
    let t := if e.tokDone then t else askBanks s (issued t ck e) ck e
    let c := t.ctx ck
    let rest := (c.queue e.q).drop 1
    if a.wait then
      t.setCtx ck { c.setQueue e.q ({ e with tokDone := true, wset := a.wset } :: rest) with
        qtry := fset c.qtry e.q.code (t.clk ck + 1) }
    else t.setCtx ck (c.setQueue e.q rest)

/-- A reader held for a landing after its bound is tried again in the next clk, and the clk counts once in BKSTALL (R111,
R117). -/
def Ctx.bankStall (c : Ctx) (q : Queue) (clk : Nat) : Ctx :=
  let c := { c with qtry := fset c.qtry q.code (clk + 1) }
  if clk < c.bkUntil then c else { c with bkstall := c.bkstall + 1, bkUntil := clk + 1 }

/-- What the scoreboard says to the head of a queue in this clk (R109, R111): it passes, it is held in this clk, or it
raises SCHED_VIOLATION with a value. -/
inductive Pass where
  | go
  | hold (s : State)
  | trap (val : DWord)

/-- The scoreboard's check of the head of a queue. -/
def scoreboard (s : State) (ck : Nat) (e : Entry) : Pass :=
  let c := s.ctx ck
  match violation c e (s.clk ck) with
  | some (k, n) => if c.sbmode then .trap (violationVal k n) else .hold (s.setCtx ck (c.stall e.q (s.clk ck)))
  | none => if s.clk ck < heldUntil c e then .hold (s.setCtx ck (c.bankStall e.q (s.clk ck))) else .go

/-- The lanes of a context are those of another of its states: the one at the front has not taken effect. -/
def Ctx.keepLanes (c d : Ctx) : Ctx := { c with lanes := d.lanes }

/-- The books after an X lane was executed from s with the result t: one that waits holds its line (R99), and so does one that
goes on until a later clk (R142); one that raised a fault has not taken effect (R398). -/
def afterX (s t : State) (ck : Nat) : State :=
  let a := t.iss
  let t := { t with iss := {} }
  let c := s.ctx ck
  if a.faulted then t.onCtxOf ck fun d => { d.keepLanes c with front := s.clk ck + 1 }
  else if a.wait && !a.again then s.setCtx ck { c with front := s.clk ck + 1 }
  else
    let t := if c.dly.isSome then t else t.useSlot ck Queue.x.code 1
    if a.wait then t.onCtxOf ck fun d => d.keepLanes c else afterLane t ck

/-- The state an X lane is executed in: it no longer stands at the front, and the next X instruction follows in a later
clk (R99, R105). -/
def beforeX (s : State) (ck : Nat) (l : Lane) : State :=
  let c := s.ctx ck
  let s' := s.setCtx ck { c.popLane with front := max c.front (s.clk ck), xnext := s.clk ck + 1 }
  { s' with iss := latchLane ck c l }

/-- The head of a queue is held: by a token, the scoreboard, a bank, a full queue or the limit of R181 (R434). -/
def headHeld (s : State) (ck : Nat) (q : Queue) : Bool :=
  let c := s.ctx ck
  match c.queue q with
  | [] => false
  | e :: _ => !e.tokDone && (!tokensHold c e || s.clk ck < fget c.qtry q.code 0)

/-- A context of a cluster counts for ACT (R434). -/
def running (s : State) (ck : Nat) : Bool :=
  let c := s.ctx ck
  (c.run == .running || c.run == .draining) && !isControl (coreOf ck) && mayAct s ck

/-- ACT and STALL of a cluster at the end of a clk (R434). -/
def countCluster (s : State) (cl : Nat) : State :=
  let mine := (s.ctxs.map Prod.fst).filter fun ck => clusterOf (coreOf ck) == cl && running s ck
  if mine.isEmpty then s
  else
    let c := s.cluster cl
    let held := mine.any fun ck => [Queue.l, .c, .s, .f].any (headHeld s ck)
    s.setCluster cl { c with act := c.act + 1, stall := c.stall + b2n held }

/-- ACT and STALL of every cluster at the end of a clk (R434). -/
def countPower (s : State) : State :=
  ((s.ctxs.map fun (e : Nat × Ctx) => clusterOf (coreOf e.1)).eraseDups).foldl countCluster s

end Sys2Proof.Machine
end

