-- ==== Sys2Proof/Machine/Slipway.lean ====
section
/-! DEFINITION. The start of a task and its slipways: snapshots, the command records of a part, and what each does
(02_describing_work.md R37, R39 to R43; 03_launch_and_placement.md R59, R61). -/

namespace Sys2Proof.Machine

/-! ### The start of a task -/

/-- Every cluster of a task that holds streams has reported DONE at F = 26 and U = 50 for 64 ticks (R61). -/
def speedReady (s : State) (k : Task) : Bool :=
  !k.holdsStreams || (planClusters k.places).all fun cl =>
    let c := s.cluster cl
    c.curF == 26 && c.curU == 50 && c.stat != 1 && (c.doneAt == 0 || c.doneAt + 64 ≤ s.tb)

/-- A fault of a part at its start or of one of its records (R43): it is logged, and the task ends. -/
def partFault (s : State) (p cause opc : Nat) : State :=
  let k := s.part p
  (logError s { task := k.task, cause := cause, origin := 3, pos := k.pos, opc := opc }).endTask k.task cause false

/-- Copies bytes under a root from one device virtual address to another, or says why not. -/
def copyDva (s : State) (root a b n : Nat) : State × Option Nat :=
  match dvaLoad s root a n with
  | (_, some e, s) => (s, some e.1)
  | (bs, none, s) =>
    let r := dvaPut s root b bs
    (r.s, r.bad.map Prod.fst)

/-- Copies every snapshot range of a task (R37, R414): to SNAP, or back (DEDUCED, notes/assumptions/61.md). -/
def copySnaps (s : State) (root : Nat) (back : Bool) : List SnapRange → State × Option Nat
  | [] => (s, none)
  | r :: rs =>
    match (if back then copyDva s root r.snap r.base r.len else copyDva s root r.base r.snap r.len) with
    | (s, some e) => (s, some e)
    | (s, none) => copySnaps s root back rs

/-- The records of n from the bytes of a segment. -/
def splitRecs (bs : List Byte) (n : Nat) : List CmdRec := (List.range n).map (recordAt bs 0 32)

/-- A part begins (R39): its records are copied into its segment, which is kept apart from the die scratchpad's bytes
(DESIGN CHOICE, notes/assumptions/87.md). Records that cannot be read end the task with the cause of the failed read
(DEDUCED, notes/assumptions/49.md). -/
def beginPart (s : State) (t : Nat) (pl : Place) : State :=
  let k := s.task t
  let e := k.entry pl
  let p := partKey t pl.vdie
  if k.run ≠ .running then s
  else
    match dvaLoad s (taskRoot s t) e.cmdp (32 * e.ncmd) with
    | (_, some f, s) => partFault s p f.1 0
    | (bs, none, s) => s.setPart p { s.part p with recs := splitRecs bs e.ncmd, begun := true }

/-- A held task stands at H as it begins or resumes (R63): its hold has reached every die. -/
def Task.heldFrom (k : Task) : Task :=
  match k.hold with
  | some h => { k with hold := some { h with reached := true }, frozen := some h.stop }
  | none => k

/-- A task has begun. -/
def Task.begun (k : Task) : Task := { k with run := .running, started := true }

/-- Every part of a task begins at T0 (R59). -/
def beginTask (s : State) (t : Nat) : State :=
  let k := s.task t
  let s := s.setTask t (k.heldFrom.begun)
  match (if k.launch.restart then copySnaps s (taskRoot s t) false k.launch.snaps else (s, none)) with
  | (s, some e) => (logError s { task := t, cause := e, origin := 3, pos := s.root }).endTask t e false
  | (s, none) => k.places.foldl (fun s pl => beginPart s t pl) s

/-- TASK_START (R59, R61): the latch names the task, whose T0 this tick is. While a cluster is not ready, T0 moves to the
next tick of the phase. -/
def execTaskStart (s : State) : Res :=
  let t := s.ev.a
  let k := s.task t
  if (fget? s.tasks t).isNone ∨ k.run ≠ .placed ∨ k.started ∨ k.t0 ≠ s.tb then .fault .notEnabled
  else if speedReady s k then .next (beginTask s t)
  else
    let s := (planClusters k.places).foldl fullSpeed (s.setTask t { k with t0 := k.t0 + 64 })
    .next (s.after 64 .taskStart { a := t })

/-! ### Command records (R39 to R43) -/

/-- The fields of a record. -/
def recOp (r : CmdRec) : Nat := fieldAt r 0 1
def recAwait (r : CmdRec) : Nat := fieldAt r 2 2
def recRaise (r : CmdRec) : Nat := fieldAt r 4 2
def recAmount (r : CmdRec) : Nat := fieldAt r 6 2
def recA (r : CmdRec) : Nat := fieldAt r 8 8
def recB (r : CmdRec) : Nat := fieldAt r 16 4
def recC (r : CmdRec) : Nat := fieldAt r 20 4

/-- AWAIT and AWV keep R39. -/
def awaitOk (e : DieEntry) (r : CmdRec) : Bool :=
  let v := recAwait r
  if bit v 15 then bits v 0 10 < e.nsem && bits v 10 5 == 0 && 1 ≤ recAmount r else v == 0 && recAmount r == 0

/-- RAISE keeps R39. -/
def raiseOk (e : DieEntry) (r : CmdRec) : Bool :=
  let v := recRaise r
  if bit v 15 then bits v 0 10 < e.nsem && bits v 10 5 == 0 else v == 0

/-- The line that a START of a virtual core begins at (R36). -/
def stageLine (l : Launch) (vdie vcore : Nat) : Option Nat :=
  (l.stages.find? fun e => e.vdie == vdie && e.vcore == vcore).map StageEntry.entry

/-- The arguments of a record keep R39 and R43. An address above the DVA of a COPY or ILOAD is left to the walk, which
finds no memory there (DEDUCED, notes/assumptions/62.md). -/
def argsOk (l : Launch) (e : DieEntry) (r : CmdRec) : Bool :=
  let b := recB r
  let vcore := bits b 0 8
  match recOp r with
  | 0 => recA r == 0 && b == 0 && recC r == 0
  | 1 => b == 0 && recC r == 0
  | 2 =>
    let line := bits b 8 13
    b / 2 ^ 21 == 0 && vcore < e.ncore && 1 ≤ recC r && recC r + line ≤ 8192
  | _ => recA r == 0 && recC r == 0 && b / 2 ^ 8 == 0 && vcore < e.ncore && (stageLine l e.vdie vcore).isSome

/-- The fault of a record, if any (R39, R43) (DEDUCED, notes/assumptions/62.md). -/
def recCause (l : Launch) (e : DieEntry) (r : CmdRec) : Option Nat :=
  if 3 < recOp r then some cCmdOp
  else if fieldAt r 1 1 ≠ 0 ∨ fieldAt r 24 8 ≠ 0 ∨ !awaitOk e r ∨ !raiseOk e r ∨ !argsOk l e r then some cNodeField
  else none

/-- The sequencer of a part issues records (R41). -/
def slipwayRuns (s : State) (p : Nat) : Bool :=
  let k := s.part p
  k.begun && !k.retired && !s.halted && s.alive k.pos && s.dieActs k.task k.pos

/-- The next record of a part awaits its semaphore (R41, R370): whether it may issue. A record whose await is malformed
awaits nothing. -/
def awaitRec (s : State) (p : Nat) (e : DieEntry) (r : CmdRec) : State × Bool :=
  if bit (recAwait r) 15 ∧ awaitOk e r then
    let (pos, i) := semHome s p (bits (recAwait r) 0 10)
    semTry s pos i (2 ^ 20 + p) (recAmount r)
  else (s, true)

/-- The next record of the part in the latch issues, if it is one of those a test admits: it begins to wait, or it is taken
from the segment and either faults or does its work (DEDUCED, notes/assumptions/49.md). -/
def issueRecord (admits : Nat → Bool) (s : State) (go : State → Nat → Nat → CmdRec → State) : Res :=
  let p := s.ev.a
  let k := s.part p
  match k.recs[k.next]? with
  | none => .fault .notEnabled
  | some r =>
    if !slipwayRuns s p ∨ !admits (recOp r) then .fault .notEnabled
    else
      let e := s.entryOf p
      match awaitRec s p e r with
      | (s', false) => if s'.dies = s.dies then .fault .notEnabled else .next s'
      | (s, true) =>
        match recCause (s.task k.task).launch e r with
        | some c => .next (partFault (s.setPart p { k with next := k.next + 1 }) p c (recOp r))
        | none => .next (go (s.setPart p { k with next := k.next + 1, busy := k.next :: k.busy }) p k.next r)

/-- CMD_NOP (R41): the latch names the part. A record of an unknown OP raises CMD_OP here. -/
def execCmdNop (s : State) : Res := issueRecord (fun o => o == 0 || 3 < o) s fun s p i _ => recordDone s p i

/-- The engine a COPY record of a die runs on (R276): that of its cluster 0, or complex 0 of a buffer die. -/
def recordEngine (pos : Nat) : Nat := if kindOf pos = 4 then complexEngine pos 0 else (clustersOf pos).1

/-- CMD_COPY (R41, R276): the latch names the part. -/
def execCmdCopy (s : State) : Res :=
  issueRecord (· == 1) s fun s p i r =>
    let k := s.part p
    let g := recordEngine k.pos
    let root := taskRoot s k.task
    let (n, s) := s.fresh
    let c : Cmd :=
      { kind := .record, task := k.task, part := p, engine := g, home := if g < 100 then homeOf g else k.pos
        cx := if g < 100 then complexOf g else 0, root := root, droot := root, w0 := BitVec.ofNat 64 (recA r), recIx := i, slot := 1 }
    startWalk (s.setCmd n c) n

/-- CMD_ILOAD (R41): the latch names the part. The lines are read when the load is done. -/
def execCmdIload (s : State) : Res :=
  issueRecord (· == 2) s fun s p i _ => s.laterFar .cmdIloadDone { a := p, b := i }

/-- The core a record of a part names. -/
def recCore (s : State) (p : Nat) (r : CmdRec) : Nat :=
  coreAt (s.part p).pos (((s.place p).cores[bits (recB r) 0 8]?).map Prod.fst |>.getD 0)

/-- Lines written into a core's instruction store (R87). -/
def storeLines (s : State) (core line : Nat) (bs : List Byte) (n : Nat) : State :=
  { s with istore := (List.range n).foldl (fun m j =>
      fset m (8192 * core + line + j) (lineOfBytes (recordAt bs 0 32 j))) s.istore }

/-- Loads the lines an ILOAD record names (R39, R87), or says why not; lines that cannot be read end the task
(DEDUCED, notes/assumptions/49.md). -/
def loadLines (s : State) (p : Nat) (r : CmdRec) : State × Option Nat :=
  let root := taskRoot s (s.part p).task
  match dvaLoad s root (recA r) (32 * recC r) with
  | (_, some e, s) => (s, some e.1)
  | (bs, none, s) => (storeLines s (recCore s p r) (bits (recB r) 8 13) bs (recC r), none)

/-- CMD_ILOAD_DONE (R41, R409): the latch names the part and the record, an ILOAD in progress. Where the part stands stopped
its lines wait for the loads it makes when it resumes. -/
def execCmdIloadDone (s : State) : Res :=
  let p := s.ev.a
  let k := s.part p
  match k.recs[s.ev.b]? with
  | none => .fault .notEnabled
  | some r =>
    if !k.busy.contains s.ev.b ∨ recOp r ≠ 2 then .fault .notEnabled
    else if (s.task k.task).run = .stopped then .next (recordDone s p s.ev.b)
    else
      match loadLines s p r with
      | (s, some e) => .next (partFault (s.setPart p { k with busy := k.busy.erase s.ev.b }) p e 2)
      | (s, none) => .next (recordDone s p s.ev.b)

/-- CMD_START (R41): the latch names the part. ctx0 of the core fetches at its stage's ENTRY
(DEDUCED, notes/assumptions/75.md). -/
def execCmdStart (s : State) : Res :=
  issueRecord (· == 3) s fun s p i r =>
    let ck := ctxKey (recCore s p r) 0
    let line := (stageLine (s.task (s.part p).task).launch (s.part p).vdie (bits (recB r) 0 8)).getD 0
    let c := (s.ctx ck).begin_ false p line (s.clk ck) (seedsOf s p)
    recordDone (s.setCtx ck { c with yieldAt := s.schedAt (s.part p).task (s.part p).pos }) p i

end Sys2Proof.Machine
end

