-- ==== Sys2Proof/Machine/Retire.lean ====
section
/-! DEFINITION. The end of contexts, parts, tasks and graphs, deferred traps, and the re-run of a task (05_issue.md R116;
12_copy_engines.md R289; 13_pontoon_fabric.md R333; 17_traps_and_preemption.md R398 to R403, R414; 18 R420 to R422). -/

namespace Sys2Proof.Machine

/-! ### Contexts -/

/-- The posts that commands of a context still in flight owe it (R103): they are no part of the instructions that accepted
them. -/
def tokensOwed (s : State) (ck : Nat) : Toks :=
  (s.cmds.filter fun e => e.2.ctx == ck && e.2.part == (s.ctx ck).part && e.2.x.tok && !e.2.inFrame).foldl
    (fun t e => t.upd (· + 1) e.2.q (nextQ e.2.q)) {}

/-- A load of a fabric image that a context has issued is not over (R323). -/
def loadsImage (s : State) (ck : Nat) : Bool :=
  s.cmds.any fun e => e.2.kind == .fload && e.2.ctx == ck && e.2.part == (s.ctx ck).part

/-- The commands of a context that has ended post no token any more: its FIFOs are gone (R116). -/
def forgetToks (s : State) (ck : Nat) : State :=
  { s with cmds := s.cmds.map fun (e : Nat × Cmd) =>
      (e.1, if e.2.ctx = ck ∧ e.2.part = (s.ctx ck).part then { e.2 with x := { e.2.x with tok := false } } else e.2) }

/-- Every instruction a context has issued has completed, and its queues are empty (R116). -/
def ctxDone (s : State) (ck : Nat) : Bool :=
  let c := s.ctx ck
  c.lanes.isEmpty && c.ql.isEmpty && c.qc.isEmpty && c.qs.isEmpty && c.qf.isEmpty && issuedOver s ck &&
  c.outst == tokensOwed s ck && !loadsImage s ck &&
  c.pend.isEmpty && c.frame.isNone && (c.xpend.all fun e => e.2 == 0) &&
  [c.xrdy, c.re, c.rx, c.late].all fun m => m.all fun e => e.2 ≤ s.clk ck

/-- The receive entry of a handler context is freed (R372). -/
def freeEntryOf (s : State) (ck : Nat) : State :=
  let pk := s.myPcore ck
  let p := s.pcore pk
  s.setPcore pk { p with recv := p.recv.filter fun e => e.2.ready || e.2.ctx != ctxNo ck }

/-- The end of a PROG routine (R30, R46): its node completes with the status in x1, or with FAULT where a command of it has
failed (DEDUCED, notes/assumptions/13.md). -/
def routineEnd (s : State) (ck : Nat) : State :=
  let c := s.ctx ck
  nodeDone (s.setCtx ck { c with run := .dormant }) c.node (!c.cmdBad && bits (c.getX 1).toNat 0 8 == 0)

/-- CONTEXT_END (R116, R143): the latch names a context whose fetch has ended. A routine ends once its commands have
completed (DEDUCED, notes/assumptions/59.md). -/
def execContextEnd (s : State) : Res :=
  let ck := s.ev.a
  let core := coreOf ck
  if (s.ctx ck).run ≠ .draining ∨ !ctxDone s ck ∨ (s.task (s.taskOf ck)).run = .stopped then .fault .notEnabled
  else if isControl core then
    if (s.cmds.any fun e => e.2.ctx == ck && e.2.kind != .record && e.2.kind != .node) ∨
        (s.syncs.any fun e => e.2.ctx == ck && e.2.part == 0) then .fault .notEnabled
    else .next (routineEnd s ck)
  else
    let s := forgetToks (if ctxNo ck = 0 then s else freeEntryOf s ck) ck
    .next (s.setCtx ck { s.ctx ck with run := .dormant, toks := {}, outst := {} })

/-- TRAP_ENTRY (R398, R399, R403): the latch names a context in which a fault has arisen, or one with a deferred fault, outside
trap handling and at a line boundary. Once the work it has issued has drained, the trap is taken for the earliest fault. -/
def execTrapEntry (s : State) : Res :=
  let ck := s.ev.a
  let c := s.ctx ck
  match earliest c.pend with
  | none => .fault .notEnabled
  | some p =>
    if (c.faultAt.isNone ∧ (c.intrap ∨ !atBoundary s ck)) ∨ !issuedOver s ck ∨ !mayAct s ck ∨
        !(c.run == .running || c.run == .draining) then .fault .notEnabled
    else .next ((s.setCtx ck { c with pend := c.pend.erase p }).takeTrap ck p)

/-- Fetch and issue of a context stop at a line boundary for a deferred fault (R398, R399 step 1). What has issued and waits is
withdrawn (R399 step 2). -/
def stopFaulted (s : State) (ck : Nat) : State :=
  let c := s.ctx ck
  if c.pend.isEmpty || !mayAct s ck then s
  else if c.faultAt.isSome then s.withdraw ck
  else if c.intrap || !atBoundary s ck then s
  else (s.onCtxOf ck fun c => { c with faultAt := some (s.clk ck) }).withdraw ck

/-- The contexts with a fault at the end of a clk. -/
def stopFaults (s : State) : State := (s.ctxs.map Prod.fst).foldl stopFaulted s

/-! ### Parts (R420) -/

/-- A part's engines are idle (R274). -/
def enginesIdle (s : State) (p : Nat) : Bool :=
  s.mxs.all fun e => enginePart e.1 != p || (e.2.ops.isEmpty && e.2.active.isNone && e.2.queued.isNone)

/-- Every command, increment and arrival a part has sent is over. -/
def partQuiet (s : State) (p : Nat) : Bool :=
  (s.cmds.all fun e => e.2.part != p || e.2.part == 0) &&
  s.syncs.all fun e => e.2.kind < 2 || (s.part e.2.part).task != (s.part p).task || posOf (coreOf e.2.ctx) != (s.part p).pos ||
    isControl (coreOf e.2.ctx)

/-- The contexts and the slipway of a part are over: all of them at an ordinary end; where its task is ended, contexts stop
and no further record issues (R403). -/
def partOver (s : State) (p : Nat) : Bool :=
  let k := s.part p
  let ending := (s.task k.task).run == .ending
  (s.ctxs.all fun e => e.2.part != p || e.2.run == .dormant || (ending && e.2.run == .stopped)) && k.busy.isEmpty &&
  (ending || (k.begun && k.recs.length ≤ k.next &&
    s.pcores.all fun e => e.1 / 64 != p || e.2.recv.all fun r => !r.2.ready))

/-- A part retires (R420) (DEDUCED, notes/assumptions/63.md). -/
def partRetires (s : State) (p : Nat) : Bool :=
  let k := s.part p
  (fget? s.parts p).isSome && !k.retired && [.running, .stopping, .ending].contains (s.task k.task).run && (s.task k.task).hold.isNone && partOver s p &&
  partQuiet s p && enginesIdle s p && fabStill s k.task

/-- The probe tables a part holds are released (R170). -/
def releaseProbe (s : State) (p : Nat) : State :=
  { s with clusters := s.clusters.map fun (e : Nat × Cluster) =>
      (e.1, if e.2.ppart = p then { e.2 with sets := 0, ppart := 0, slots := [], rrp := [] } else e.2) }

/-- What a part holds on its cores goes with it. -/
def clearPart (s : State) (p : Nat) : State :=
  let s := releaseProbe s p
  { s with
    mxs := s.mxs.filter fun e => enginePart e.1 != p
    ctxs := s.ctxs.filter fun e => e.2.part != p || isControl (coreOf e.1)
    msgs := s.msgs.filter fun e => e.2.part != p
    syncs := s.syncs.filter fun e => e.2.part != p || e.2.kind == 3 }

/-! ### Tasks (R420 to R422) -/

/-- Every part of a task has retired. -/
def allRetired (s : State) (t : Nat) : Bool := (s.partsOf t).all fun p => (s.part p).retired

/-- The claims of a task are freed (R55, R407). -/
def freeClaims (s : State) (t : Nat) : State :=
  let ps := s.partsOf t
  let s := { s with
    pcores := s.pcores.filter fun e => !ps.contains (e.1 / 64)
    sports := s.sports.filter fun e => !ps.contains (e.1 / 16)
    saved := s.saved.filter fun e => !ps.contains (e.1 / 512)
    msgs := s.msgs.filter fun e => e.2.task != t
    syncs := s.syncs.filter fun e => !ps.contains e.2.part
    parts := s.parts.filter fun e => e.2.task != t
    fabs := fdel s.fabs t }
  s.setTask t { s.task t with places := [], routes := [], pbs := [], pbars := [] }

/-- A cause with which a restartable task is run again (R414). -/
def restarts (cause : Nat) : Bool := cause / 64 == 6 || cause / 64 == 11 || cause / 64 == 12 || cause == cYieldBound

/-- A task that ended runs again, if an attempt is left (R414). -/
def eligible (s : State) (k : Task) : Bool :=
  k.run == .ending && k.launch.restart && !k.aborted && restarts k.endCause && (s.graph k.graph).abort.isNone

/-- A task retires (R420 to R422): its translation-cache entries are discarded, its claims freed and its status produced. -/
def retireTask (s : State) (t : Nat) : State :=
  let s := freeClaims (dropPages s t) t
  reportClass (dropTask s t (s.task t).status)

/-- The last part of a task has retired: holes left at its sinks are logged (R333), a third attempt that would be run again
is the last (R414). -/
def lastRetired (s : State) (t : Nat) : State :=
  let hole := fabPend s t != 0
  let s := if hole then logError s { task := t, cause := cFabHole, origin := 3, pos := s.root } else s
  let k := s.task t
  if !eligible s k then retireTask s t
  else if k.attempts < 3 then s
  else retireTask (logError s { task := t, cause := cRestartLimit, origin := 3, pos := s.root }) t

/-- PART_RETIRE (R420): the latch names the part. -/
def execPartRetire (s : State) : Res :=
  let p := s.ev.a
  if !partRetires s p then .fault .notEnabled
  else
    let t := (s.part p).task
    let s := clearPart s p
    let s := s.setPart p { s.part p with retired := true }
    .next (if allRetired s t then lastRetired s t else s)

/-! ### Re-runs (R414) -/

/-- What the next attempt of a task avoids: after HWERR the die, after LINK the module its first entry of the attempt names. -/
def avoiding (k : Task) (ends : List (Nat × Nat)) : Task :=
  { k with
    avoidDies := if k.endCause / 64 = 12 then (ends.map Prod.fst) ++ k.avoidDies else k.avoidDies
    avoidMods := if k.endCause / 64 = 11 then ends ++ k.avoidMods else k.avoidMods }

/-- The task as the waiting request its next attempt is. -/
def Task.again (k : Task) : Task :=
  { k with
    run := .waiting, attempts := k.attempts + 1, failed := false, aborted := false, endCause := 0, started := false, frozen := none
    held := 0, hold := none, endAt := none }

/-- TASK_RERUN (R414): the latch names a task whose attempt has ended. Its snapshots are copied back, its claims are released
and it waits for a placement again; snapshots that cannot be copied back end it. -/
def execTaskRerun (s : State) : Res :=
  let t := s.ev.a
  let k := s.task t
  if (fget? s.tasks t).isNone ∨ !eligible s k ∨ k.places.isEmpty ∨ 3 ≤ k.attempts ∨ !allRetired s t then .fault .notEnabled
  else
    match copySnaps s (taskRoot s t) true k.launch.snaps with
    | (s, some e) => .next (retireTask (logError s { task := t, cause := e, origin := 3, pos := s.root }) t)
    | (s, none) =>
      let s := freeClaims (dropPages s t) t
      let s := s.setTask t (avoiding (s.task t) k.endAt.toList).again
      .next (reportClass { s with placerDue := true })

/-! ### Graphs (R289) -/

/-- The tasks of a graph that its abort still has to end. -/
def abortTasks (s : State) (g : Nat) : List (Nat × Task) :=
  s.tasks.filter fun e => e.2.graph == g && e.2.run != .ending && e.2.hold.isNone

/-- The tasks of a graph that wait for a re-run, which an aborted graph does not give them. -/
def endedTasks (s : State) (g : Nat) : List Nat :=
  (s.tasks.filter fun e => e.2.graph == g && e.2.run == .ending && !e.2.places.isEmpty && allRetired s e.1).map Prod.fst

/-- An abort ends one task (R289, R421): one without a placement is over at once. -/
def abortTask (s : State) (e : Nat × Task) : State :=
  if e.2.run = .waiting then dropTask s e.1 4
  else
    (s.logFault { task := e.1, taskid := e.2.launch.taskid, cause := cAborted, origin := 3, pos := s.root }).endTask e.1 cAborted true

/-- The parked commands of the COPY nodes and of the routines of a graph (R289). -/
def parkedNodes (s : State) (g : Nat) : List Nat :=
  (s.cmds.filter fun e => e.2.parked.isSome &&
    ((e.2.kind == .node && (s.node e.2.recIx).graph == g) ||
      (e.2.task == 0 && e.2.kind != .node && isControl (coreOf e.2.ctx) && coreOf e.2.ctx < 208 &&
        (s.ctx e.2.ctx).run != .dormant && (s.node (s.ctx e.2.ctx).node).graph == g))).map Prod.fst

/-- GRAPH_ABORT (R26, R31, R289): the latch names an aborted graph. Its parked commands fail and its tasks are ended; once no
node of it is in progress, it completes with FAULT. -/
def execGraphAbort (s : State) : Res :=
  let g := s.ev.a
  match fget? s.graphs g with
  | none => .fault .notEnabled
  | some k =>
    let ts := abortTasks s g
    let cs := parkedNodes s g
    let es := endedTasks s g
    if k.abort.isNone then .fault .notEnabled
    else if !ts.isEmpty || !cs.isEmpty || !es.isEmpty then
      .next (es.foldl retireTask (ts.foldl abortTask (cs.foldl State.failParked s)))
    else if s.nodes.any fun e => e.2.graph == g then .fault .notEnabled
    else .next (completeGraph s g)

end Sys2Proof.Machine
end

