-- ==== Sys2Proof/Machine/Holds.lean ====
section
/-! DEFINITION. Tide holds and the links' own events (03_launch_and_placement.md R62 to R65; 17_traps_and_preemption.md R416 to
R419; 01_package.md R12). -/

namespace Sys2Proof.Machine

/-! ### Tide holds -/

/-- The resume notice of a task's hold is sent: its event is handled (R63). -/
def noticeHold (s : State) (t : Nat) : State :=
  match (s.task t).hold with
  | some h => s.after 40 .tideHoldResumeNotice { a := t, b := h.asked }
  | none => s

/-- The hold of the task in the latch, if it is the one requested in the tick the latch names. -/
def latchHold (s : State) : Option Hold := ((s.task s.ev.a).hold).filter fun h => h.asked == s.ev.b

/-- The tasks of a link that can be held. -/
def heldFor (s : State) (pos m : Nat) : List (Nat × Task) := (tasksOn s pos m).filter fun e => e.2.holdable

/-- A flit of a task misses its due clock at a module of a die (R12): its second replay has begun. -/
def replayHold (s : State) (pos m t : Nat) : State :=
  let k := s.task t
  holdTask s t (pos, m) (if k.started then lackStops k pos m (s.sched t) s.tb true else [])

/-- A flit's second replay holds every task of its link (R62); its delivery, some ticks later, is the event handled. -/
def replayHolds (s : State) (pos m : Nat) : State :=
  ((heldFor s pos m).map Prod.fst).foldl (fun s t =>
    let s := replayHold s pos m t
    match (s.task t).hold with
    | some h => { s with free := s.free + 1 }.after (41 + Config.latency s.free) .tideHoldResumeNotice { a := t, b := h.asked }
    | none => s) s

/-- Holds the tasks of a link for the event that has come up on it, and keeps who they are. Where the link has lost its lock
its flits are missed (R63). -/
def holdLink (s : State) (pos m : Nat) (lost : Bool) : State :=
  let old := (s.link pos m).holds
  let ts := ((heldFor s pos m).map Prod.fst).filter fun t => !old.contains t
  let q := linkEnd (pos, m)
  let s := ts.foldl (fun s t =>
    let k := s.task t
    let lacks := fun (l : Nat × Nat) => lackStops k l.1 l.2 (s.sched t) s.tb false
    holdTask s t (pos, m) (if lost && k.started then lacks (pos, m) ++ lacks q else [])) s
  onLink s pos m fun l => { l with holds := old ++ ts }

/-- The event of a link is handled: the tasks held for it are sent their notices. -/
def releaseLink (s : State) (pos m : Nat) : State :=
  let ts := (s.link pos m).holds
  ts.foldl noticeHold (onLink s pos m fun l => { l with holds := [] })

/-- A module exists, its far die is present, and it is not down. -/
def linkThere (s : State) (pos m : Nat) : Bool :=
  m < moduleCount pos && s.alive pos && s.alive (farEnd pos m) && s.linkUp pos m

/-- Begins a repair of a lane (R416): within the holds, if any, in at most 1,024 ticks. -/
def beginRepair (s : State) (pos m lane : Nat) : State :=
  let s := holdLink (onLink s pos m fun l => { l with state := 1, due := none }) pos m false
  let wait := if (s.link pos m).holds.isEmpty then 0 else 40
  { s with free := s.free + 1 }.after (wait + 1 + Config.latency s.free % 1024) .laneRepairDone { a := pos, b := m, c := lane }

/-- A repair that is due waits for the replay on its lane, which ends within the window of 8 clks (R12, R416). -/
def waitRepair (s : State) (pos m lane : Nat) : State :=
  let s := onLink s pos m fun l => { l with due := some lane }
  { s with free := s.free + 1 }.after (1 + Config.latency s.free % 8) .tideHoldRequest { a := pos, b := m, c := lane }

/-- TIDE_HOLD_REQUEST (R62, R63, R416): the latch names a position, a module of it, and whether the event is a flit's second
replay there. Every task that holds phases on the link is held; without a replay the repair that is due begins. -/
def execTideHoldRequest (s : State) : Res :=
  let pos := s.ev.a
  let m := s.ev.b
  if s.ev.f then
    if (heldFor s pos m).isEmpty then .fault .notEnabled else .next (replayHolds s pos m)
  else if !linkThere s pos m ∨ (s.link pos m).state ≠ 0 ∨ (s.link pos m).due ≠ some s.ev.c then .fault .notEnabled
  else .next (beginRepair s pos m s.ev.c)

/-- TIDE_HOLD_REACH (R63): the latch names the task and the tick of its request. No die goes past H. -/
def execTideHoldReach (s : State) : Res :=
  let k := s.task s.ev.a
  match latchHold s with
  | none => .fault .notEnabled
  | some h =>
    if h.reached then .fault .notEnabled
    else .next (s.setTask s.ev.a { k with hold := some { h with reached := true }, frozen := some h.stop })

/-- TIDE_HOLD_RESUME_NOTICE (R63, R64): the latch names the task and the tick of its request. With the last event's notice the
dies that stopped early advance to H; the tick of the release follows from the tick in which the last of them is there. -/
def execTideHoldResumeNotice (s : State) : Res :=
  let t := s.ev.a
  let k := s.task t
  match latchHold s with
  | none => .fault .notEnabled
  | some h =>
    if h.events = 0 then .fault .notEnabled
    else if 1 < h.events then .next (s.setTask t { k with hold := some { h with events := h.events - 1 } })
    else
      let go := h.go.getD s.tb
      let s := s.setTask t { k with hold := some { h with events := 0, go := some go } }
      let l := max s.tb (go + (h.stop - h.first))
      let r := phaseTick (l + 40) ((k.phi + h.stop) % 64)
      .next (s.after (r - s.tb) .tideHoldRelease { a := t, b := h.asked })

/-- The tick in which a task would have stood at H without the hold (R63). -/
def Task.standsAt (k : Task) (h : Hold) : Nat := k.t0 + k.held + h.stop

/-- TIDE_HOLD_RELEASE (R63, R65): the latch names the task and the tick of its request. Every die issues H. A task that has
not begun or resumed was not kept from anything. -/
def execTideHoldRelease (s : State) : Res :=
  let t := s.ev.a
  let k := s.task t
  match latchHold s with
  | none => .fault .notEnabled
  | some h =>
    if h.events ≠ 0 then .fault .notEnabled
    else if k.run = .placed then .next (s.setTask t { k with hold := none })
    else if !h.reached then .fault .notEnabled
    else
      let d := s.tb - k.standsAt h
      .next (s.setTask t { k with
        hold := none, frozen := none, held := k.held + d, holdcnt := k.holdcnt + 1, holdtk := k.holdtk + d })

/-- A task fails with a cause of class LINK or HWERR that names a die and a module (R403, R424). -/
def failAt (s : State) (t cause : Nat) (at_ : Nat × Nat) : State :=
  let s := logError s { task := t, cause := cause, pos := at_.1, val := BitVec.ofNat 64 at_.2 }
  (s.setTask t { s.task t with endAt := some at_ }).endTask t cause false

/-- The reservations of a task are released (R64, R418). -/
def dropRoutes (s : State) (t : Nat) : State := s.setTask t { s.task t with routes := [] }

/-- HOLD_EXPIRED (R64): the latch names the task and the tick of its request. -/
def execHoldExpired (s : State) : Res :=
  match latchHold s with
  | none => .fault .notEnabled
  | some h =>
    if s.tb ≤ h.asked + holdTicks s then .fault .notEnabled
    else .next (dropRoutes (failAt s s.ev.a cHoldExpired h.on) s.ev.a)

/-! ### Links (R416 to R419) -/

/-- A try of a retrain begins (R417): at most 65,536 ticks, and whether it succeeds is free. -/
def beginTry (s : State) (pos m wait : Nat) : State :=
  let ok := Config.choose s.free % 2 == 1
  { s with free := s.free + 2 }.after (wait + 1 + Config.latency (s.free + 1) % 65536) .retrainTryEnd
    { a := pos, b := m, f := ok }

/-- Begins a retrain (R417), after a loss of lock or not. A repair in progress or due on the link ends with it. -/
def beginRetrain (s : State) (pos m : Nat) (lost : Bool) : State :=
  let s := s.cancel fun d => d.ev == .laneRepairDone && sameLink (d.arg.a, d.arg.b) (pos, m)
  let s := holdLink (onLink s pos m fun l => { l with state := 2, tries := 0, due := none }) pos m lost
  beginTry s pos m (if (s.link pos m).holds.isEmpty then 0 else 40)

/-- The CRC errors of a lane within the last 2^20 ticks (DESIGN CHOICE, notes/assumptions/68.md). -/
def laneErrors (l : Link) (lane tb : Nat) : Nat := (l.errs.filter fun e => e.1 == lane && tb < e.2 + 2 ^ 20).length

/-- The lane of a module whose repair is due (R416). -/
def dueLane (l : Link) (tb : Nat) : Option Nat := (l.errs.map Prod.fst).find? fun k => 4 ≤ laneErrors l k tb

/-- LINK_CRC_ERROR (R416, R417, R419): the latch names the position, the module and the lane. The fourth error of a lane within
2^20 ticks makes a repair due; with no spare lane left any error of a lane makes a retrain due. -/
def execLinkCrcError (s : State) : Res :=
  let pos := s.ev.a
  let m := s.ev.b
  if !linkThere s pos m then .fault .notEnabled
  else
    let l := s.link pos m
    let s := s.setLink pos m { l with
      crcerr := min (l.crcerr + 1) (2 ^ 24 - 1), errs := (s.ev.c, s.tb) :: l.errs.filter fun e => s.tb < e.2 + 2 ^ 20 }
    let l := s.link pos m
    if l.state ≠ 0 ∨ l.due.isSome then .next s
    else if l.spare = 0 then .next (beginRetrain s pos m false)
    else if laneErrors l s.ev.c s.tb < 4 then .next s
    else .next (waitRepair s pos m s.ev.c)

/-- LANE_REPAIR_DONE (R416, R475): the latch names the position, the module and the lane, which has moved to a spare. Where
another lane has had its errors meanwhile, its repair, or the retrain for want of a spare, is due. -/
def execLaneRepairDone (s : State) : Res :=
  let pos := s.ev.a
  let m := s.ev.b
  if !linkThere s pos m ∨ (s.link pos m).state ≠ 1 then .fault .notEnabled
  else
    let s := releaseLink (onLink s pos m fun l => { l with
      state := 0, spare := l.spare - 1, repairs := (l.repairs + 1) % 2 ^ 16
      errs := l.errs.filter fun e => e.1 != s.ev.c }) pos m
    match dueLane (s.link pos m) s.tb with
    | none => .next s
    | some k => .next (if (s.link pos m).spare = 0 then beginRetrain s pos m false else waitRepair s pos m k)

/-- LINK_LOCK_LOST (R417): the latch names the position and the module. -/
def execLinkLockLost (s : State) : Res :=
  let l := s.link s.ev.a s.ev.b
  if !linkThere s s.ev.a s.ev.b ∨ 1 < l.state then .fault .notEnabled else .next (beginRetrain s s.ev.a s.ev.b true)

/-- What goes from one die to another takes a link. -/
def takesLink (s : State) (l : Nat × Nat) (a b : Nat) : Bool := (packetPath s a b).any (sameLink · l)

/-- An increment on its way goes over a link (R418), from its context's die to the semaphore's. -/
def overLink (s : State) (l : Nat × Nat) (u : Sync) : Bool := u.kind == 3 && takesLink s l (posOfCtx u.ctx) u.core

/-- An acknowledgement still due goes over a link (R418), from the home complex to the engine
(DEDUCED, notes/assumptions/70.md). -/
def ackOver (s : State) (l : Nat × Nat) (c : Cmd) : Bool :=
  c.kind == .cput && c.arrived && c.err == 0 && takesLink s l c.home c.enginePos

/-- The signals due over a link, increments and acknowledgements, before it is put down. -/
def signalsOver (s : State) (l : Nat × Nat) : List (Nat × Sync) × List Nat :=
  (s.syncs.filter fun e => overLink s l e.2, (s.cmds.filter fun e => ackOver s l e.2).map Prod.fst)

/-- Signals due over a link that is down complete with error, and their tasks fail (R396, R418). -/
def failSignals (s : State) (l : Nat × Nat) (due : List (Nat × Sync) × List Nat) : State :=
  let s := { s with syncs := s.syncs.filter fun e => !due.1.any fun u => u.1 == e.1 }
  let s := due.1.foldl (fun s e => failAt s (s.part e.2.part).task cLinkDown l) s
  due.2.foldl (fun s i => if (fget? s.cmds i).isSome then failCmd s i (cLinkDown, 0) else s) s

/-- A compute die left without a link to a buffer die is fenced (R19, R418). -/
def fenceCut (s : State) (pos : Nat) : State := if cutOff s pos then fenceDie s pos else s

/-- A module is down until reset (R418). -/
def linkDown (s : State) (pos m : Nat) : State :=
  let due := signalsOver s (pos, m)
  let s := onLink s pos m fun l => { l with state := 3, holds := [] }
  let s := ((tasksOn s pos m).filter fun e => e.2.run != .ending).foldl (fun s e =>
    dropRoutes (failAt s e.1 cLinkDown (pos, m)) e.1) s
  fenceCut (fenceCut (failSignals s (pos, m) due) pos) (farEnd pos m)

/-- RETRAIN_TRY_END (R417, R418): the latch names the position, the module and whether the try succeeded. The third failure
puts the module down. -/
def execRetrainTryEnd (s : State) : Res :=
  let pos := s.ev.a
  let m := s.ev.b
  let ok := s.ev.f
  if !linkThere s pos m ∨ (s.link pos m).state ≠ 2 then .fault .notEnabled
  else
    let s := onLink s pos m fun l => { l with
      retrains := (l.retrains + 1) % 2 ^ 16, tries := l.tries + 1, state := if ok then 0 else 2, errs := if ok then [] else l.errs }
    if ok then .next (releaseLink s pos m)
    else if (s.link pos m).tries < 3 then .next (beginTry s pos m 0)
    else .next (linkDown s pos m)

end Sys2Proof.Machine
end

