-- ==== Sys2Proof/Machine/Failures.lean ====
section
/-! DEFINITION. The loss of a die, the take-over by SW1, overheating, peer links and internal errors of engines (01_package.md
R19; 14_memory_stacks.md R344; 17_traps_and_preemption.md R395, R403, R414; 18 R428, R429, R436). -/

namespace Sys2Proof.Machine

/-! ### The loss of a die -/

/-- A task uses a die: by a part, a route, or a package barrier of the root (R428). -/
def usesDie (s : State) (k : Task) (pos : Nat) : Bool :=
  k.places.any (fun p => p.pos == pos) ||
  k.routes.any (fun r => r.via == some pos || r.hops.any fun h => h.1 == pos || farEnd h.1 h.2.1 == pos) ||
  (pos == s.root && !k.pbs.isEmpty)

/-- Every task that uses a die fails with DIE_LOST (R395, R403). -/
def failUsers (s : State) (pos : Nat) : State :=
  (s.tasks.filter fun e => e.2.run != .ending && usesDie s e.2 pos).foldl (fun s e => failAt s e.1 cDieLost (pos, 0)) s

/-- The nodes of the routines that ran on a die. -/
def routinesOn (s : State) (pos : Nat) : List Nat :=
  (s.ctxs.filter fun e => isControl (coreOf e.1) && coreOf e.1 < 208 && posOf (coreOf e.1) == pos && e.2.run != .dormant).map
    fun e => e.2.node

/-- What ran on a lost die is gone: contexts, engine operations, commands of its engines, records in progress. -/
def clearDie (s : State) (pos : Nat) : State :=
  let s := (routinesOn s pos).foldl (fun s i => nodeDone s i false) s
  let s := ((s.ctxs.filter fun e => posOf (coreOf e.1) == pos).map Prod.fst).foldl (fun s ck => s.stopCtx ck) s
  let s := leaveSems s fun w => w < 2 ^ 20 && posOf (coreOf (w / 8)) == pos
  let here := fun (p : Nat) => (s.part p).pos == pos
  { s with
    ctxs := s.ctxs.filter fun e => !(isControl (coreOf e.1) && posOf (coreOf e.1) == pos)
    mxs := s.mxs.map fun (e : Nat × Mx) => (e.1, if here (enginePart e.1) then { e.2.halt with ops := [] } else e.2)
    cmds := s.cmds.filter fun e => e.2.enginePos != pos
    parts := s.parts.map fun (e : Nat × Part) => (e.1, if e.2.pos = pos then { e.2 with busy := [] } else e.2) }

/-- The commands parked on a lost die's list fail (R179). -/
def clearParked (s : State) (pos : Nat) : State :=
  let is := (s.die pos).parked.map Prod.snd
  is.foldl (fun s i => if (fget? s.cmds i).isSome then failCmd (s.unpark i) i (cLinkDown, 0) else s) s

/-- The modules that join a die are down. -/
def clearLinks (s : State) (pos : Nat) : State :=
  (List.range (moduleCount pos)).foldl (fun s m =>
    fenceCut (onLink s pos m fun l => { l with state := 3, holds := [] }) (farEnd pos m)) s

/-- The graphs of a lost Ferrymaster end with FAULT and node 0xFFFF (R428) (DEDUCED, notes/assumptions/53.md). -/
def loseFerry (s : State) (sw : Nat) : State :=
  (s.graphs.filter fun e => e.2.sw == sw).foldl (fun s e =>
    let s := abortGraph s e.1 noNode
    s.setGraph e.1 { s.graph e.1 with abort := some noNode }) s

/-- The stacks a die's loss takes with it (R344). -/
def loseStacks (s : State) (pos : Nat) : State :=
  if 22 ≤ pos then loseStack s (pos - 22) 1
  else if kindOf pos = 4 then loseStack (loseStack s (2 * (pos - 14)) 2) (2 * (pos - 14) + 1) 2
  else s

/-- DIE_FAILURE (R19, R344, R395, R428): the latch names a die that is not lost. SW1 takes over from a lost SW0
(SWITCH_TAKEOVER) before its tasks and graphs end (DEDUCED, notes/assumptions/67.md). -/
def execDieFailure (s : State) : Res :=
  let pos := s.ev.a
  let d := s.die pos
  if 34 ≤ pos ∨ d.kind = 0 ∨ d.fused ∨ d.health = 2 then .fault .notEnabled
  else
    let s := loseStacks { s.setDie pos { d with health := 2 } with placerDue := true } pos
    if 22 ≤ pos then .next s
    else
      let s := clearLinks (clearParked (clearDie s pos) pos) pos
      if pos = s.root then .next s
      else
        let s := failUsers s pos
        .next (if pos < 2 then loseFerry s pos else s)

/-- SWITCH_TAKEOVER (R428): SW0 is lost and SW1 takes the roots. -/
def execSwitchTakeover (s : State) : Res :=
  if s.root ≠ 0 ∨ s.alive 0 ∨ !s.alive 1 then .fault .notEnabled
  else
    let ts := (s.tasks.filter fun e => e.2.run != .ending && usesDie s e.2 0).map Prod.fst
    let s := { s with root := 1, placerDue := true }
    .next (loseFerry (ts.foldl (fun s t => failAt s t cDieLost (0, 0)) s) 0)

/-! ### Heat, peers, engines -/

/-- THERM_CRIT (R436): the latch names the position and the temperature. Its clocks stop, it is fenced and its tasks fail. -/
def execThermCrit (s : State) : Res :=
  let pos := s.ev.a
  let d := s.die pos
  if 22 ≤ pos ∨ !s.alive pos ∨ d.crit then .fault .notEnabled
  else
    let s := s.setDie pos { d with temp := s.ev.b % 256, hot := true, crit := true }
    .next (failUsers (fenceDie s pos) pos)

/-- PEER_LINK_DOWN (R429): the latch names the switch die, the link and whether it comes back. -/
def execPeerLinkDown (s : State) : Res :=
  let f := s.ferry s.ev.a
  let l := s.ev.b
  if 1 < s.ev.a ∨ 7 < l ∨ f.peerDown.contains l ≠ s.ev.f then .fault .notEnabled
  else .next (s.setFerry s.ev.a { f with peerDown := if s.ev.f then f.peerDown.erase l else l :: f.peerDown })

/-- The HWERR cause a core or engine reports (R395): an internal error of an engine or pontoon, or an uncorrectable error in a
scratchpad line that is read, in a fetched instruction line, or in the accumulator or side memory. -/
def hwCause (k : Nat) : Nat := [cEngineUe, cSpadUe, cIstoreUe, cAccUe].getD k cEngineUe

/-- ENGINE_INTERNAL_ERROR (R395, R403): the latch names the task, the virtual die and the virtual core of the engine, and which
error it is. -/
def execEngineInternalError (s : State) : Res :=
  let t := s.ev.a
  let p := partKey t s.ev.b
  let pl := s.place p
  if (fget? s.parts p).isNone ∨ (s.task t).run = .ending ∨ pl.cores.length ≤ s.ev.c then .fault .notEnabled
  else
    let cause := hwCause s.ev.v.toNat
    let core := ((pl.cores[s.ev.c]?).map Prod.fst).getD 0
    let s := logError s { task := t, cause := cause, pos := pl.pos, core := core }
    .next ((s.setTask t { s.task t with endAt := some (pl.pos, 0) }).endTask t cause false)

end Sys2Proof.Machine
end

