-- ==== Sys2Proof/Machine/Preempt.lean ====
section
/-! DEFINITION. Pre-emption: the notice, the stop of a victim and its save slots, the eviction of a unit partition, the
resumption of a stopped task (17_traps_and_preemption.md R404 to R413). -/

namespace Sys2Proof.Machine

/-! ### The notice and the stop (R404 to R406) -/

/-- The contexts of a task, by key. -/
def contextsOf (s : State) (t : Nat) : List Nat :=
  (s.ctxs.filter fun e => s.taskOf e.1 == t && !isControl (coreOf e.1)).map Prod.fst

/-- PREEMPT_NOTICE (R404, R405): the latch names a victim. A task that does not run yet, or is held, hears of it in the next
tick. -/
def execPreemptNotice (s : State) : Res :=
  let t := s.ev.a
  let k := s.task t
  if (fget? s.tasks t).isNone then .fault .notEnabled
  else if k.run = .placed ∨ (k.run = .running ∧ k.hold.isSome) then .next (s.after 1 .preemptNotice { a := t })
  else if k.run ≠ .running then .fault .notEnabled
  else
    let s := s.setTask t { k with run := .stopping }
    .next ((contextsOf s t).foldl (fun s ck => s.setCtx ck { s.ctx ck with yielded := false, stopAt := none }) s)

/-- A context has counted more clks since its last yield point than YIELD allows (R406). -/
def overdue (s : State) (t ck : Nat) : Bool :=
  let c := s.ctx ck
  ctxNo ck == 0 && c.run == .running && !c.yielded && c.yieldAt + (s.task t).launch.yield < s.schedOf ck

/-- FORCED_STOP (R406): the latch names a task with chain-ferry rings and a notice pending, one of whose ctx0s is overdue. -/
def execForcedStop (s : State) : Res :=
  let t := s.ev.a
  let k := s.task t
  match (contextsOf s t).find? (overdue s t) with
  | none => .fault .notEnabled
  | some ck =>
    if k.run ≠ .stopping ∨ k.launch.yield = 0 then .fault .notEnabled
    else
      let core := coreOf ck
      let e : LogEntry :=
        { task := t, cause := cYieldBound, origin := 3, pos := posOf core, core := physOf core, ctx := ctxNo ck
          line := (s.ctx ck).pc }
      .next ((logError s e).endTask t cYieldBound false)

/-! ### The save area (R411 to R413) -/

/-- Bytes for an offset of a save slot. -/
abbrev Saves := List (Nat × List Byte)

/-- Words of eight bytes. -/
def words8 (vs : List Nat) : List Byte := vs.flatMap (leBytes 8)

/-- The 64 bytes of a parameter block (R281). -/
def PBlock.toBytes (b : PBlock) : List Byte :=
  leBytes 1 b.ver ++ leBytes 1 (b2n b.ssp + 2 * b2n b.dsp) ++ [0, 0] ++ leBytes 4 b.len ++ words8 [b.src.toNat, b.dst.toNat] ++
  leBytes 2 b.n1 ++ leBytes 2 b.n2 ++ leBytes 4 0 ++
  [b.ss1, b.ss2, b.ds1, b.ds2].flatMap (fun v => leBytes 4 v.toNat) ++ words8 [b.aux.toNat, b.aux2.toNat]

/-- A field of a queued word under its physical name (R122): an x register, a vector register, or left as it is. -/
def renameField (e : Entry) (isX isV : Bool) (k : Nat) : Nat := if isX then physX e.rot k else if isV then physV e.rot k else k

/-- The word of a queue entry with its register fields renamed (R413). -/
def renamedWord (e : Entry) (w : Nat) : Nat :=
  let u := uses e.instr
  let v := vectorFields e.instr
  let d := renameField e (u.xd.isSome || u.dst.isSome) (bit v 2) (bits w 13 5)
  let a := renameField e u.xa.isSome (bit v 1) (bits w 8 5)
  let b := renameField e u.xb.isSome (bit v 0) (bits w 3 5)
  w / 2 ^ 18 * 2 ^ 18 + d * 2 ^ 13 + a * 2 ^ 8 + b * 2 ^ 3 + w % 2 ^ 3

/-- The 64 bytes of a queue entry (R413). No instruction of a queue reads a predicate, so that byte 40 is zero. -/
def entryBytes (e : Entry) : List Byte :=
  let w := (encodeWords e.instr).getD (0, 0)
  leBytes 4 (renamedWord e w.1.toNat) ++ leBytes 4 w.2.toNat ++ leBytes 2 e.line ++
  leBytes 1 (1 + 2 * b2n e.tokDone + 4 * b2n e.marked) ++ List.replicate 5 0 ++
  words8 [e.xa.toNat, e.xb.toNat, e.xd.toNat] ++ List.replicate 24 0

/-- The 32 slots of a queue: its entries, head first, and the rest without VALID. -/
def queueBytes (q : List Entry) : List Byte := q.flatMap entryBytes ++ List.replicate (2048 - 64 * q.length) 0

/-- The slots of the four queues at an offset of a context block. -/
def queueSaves (off : Nat) (ql qc qs qf : List Entry) : Saves :=
  [(off, queueBytes ql), (off + 0x800, queueBytes qc), (off + 0x1000, queueBytes qs), (off + 0x1800, queueBytes qf)]

/-- The scoreboard word of a register: clks until RE and until RX (R413). -/
def scoreWord (clk : Nat) (c : Ctx) (k : Nat) : Nat :=
  let left := fun (m : FMap Nat) => min (fget m k 0 - clk) 0xFFFF
  left c.re + 2 ^ 16 * left c.rx

/-- What a context block holds from 0x0108 to 0x0FFF (R413), of a context and its sequencer as they stand in a state. -/
def stateSaves (s : State) (ck off : Nat) : Saves :=
  let c := s.ctx ck
  let status := c.pc % 2 ^ 13 + 2 ^ 13 * c.fromLane + 2 ^ 16 * b2n c.intrap + 2 ^ 17 * b2n (c.run == .running) +
    2 ^ 18 * b2n c.frame.isSome
  let loopLine := (frameSeq s ck).map fun q => leBytes 2 q.line ++ leBytes 1 (q.step / q.ii % 16)
  [(off + 0x108, leBytes 4 status), (off + 0x110, words8 [c.toks.word, c.outst.word]),
   (off + 0x120, words8 [loopst s ck, loopt s ck]), (off + 0x130, loopLine.getD [0, 0, 0]),
   (off + 0x800, words8 ((List.range 40).map (scoreWord (s.clk ck) c)))] ++
  (upFrom 0x100 0x50).filterMap fun n => (sysRead s ck n).map fun v => (off + 0x200 + 8 * (n - 0x100), leBytes 8 v.toNat)

/-- The state in which a context stands as its trap frame has it (R399, R413). -/
def frameView (s : State) (ck : Nat) (f : Frame) : State :=
  let s := s.setCtx ck { s.ctx ck with
    toks := f.toks, outst := f.outst, re := f.re, rx := f.rx, pc := f.line, fromLane := f.lane, intrap := false, frame := none
    run := if f.ended then .draining else .running }
  match f.seq with
  | some q => { s with seqs := fset s.seqs (coreOf ck) q }
  | none => if (frameSeq s ck).isSome then { s with seqs := fdel s.seqs (coreOf ck) } else s

/-- The context block of a context (R413). -/
def contextSaves (s : State) (ck : Nat) : Saves :=
  let c := s.ctx ck
  let off := 0x110000 + 0x28000 * ctxNo ck
  let regs := [(off, words8 ((List.range 32).map fun k => (c.getX k).toNat)),
    (off + 0x100, (List.range 8).map fun k => BitVec.ofNat 8 (b2n (c.getP k)))]
  let frame := match c.frame with
    | some f => stateSaves (frameView s ck f) ck (off + 0x3000) ++ queueSaves (off + 0x4000) f.ql f.qc f.qs f.qf
    | none => []
  let vecs := if isMatrix (coreOf ck) then []
    else ((List.range 8).map fun k => (off + 0x6000 + 128 * k, leBytes 128 (c.getM k).toNat)) ++
      (List.range 32).map fun k => (off + 0x8000 + 4096 * k, (vecOf (elem (c.getV k))).flatMap fun w => leBytes 4 w.toNat)
  regs ++ stateSaves s ck off ++ queueSaves (off + 0x1000) c.ql c.qc c.qs c.qf ++ frame ++ vecs

/-- A position set of the side memory, 2,048 bytes. -/
def sideBytes (x : Mx) (k : Nat) : List Byte := (List.range 2048).map fun i => (fget x.side k []).getD i 0

/-- The bytes of an accumulator tile, six an element. -/
def tileBytes (x : Mx) (t : Nat) : List Byte := (List.range 2048).flatMap fun i => leBytes 6 ((x.tile t).getD i 0).toNat

/-- The matrix section of a slot (R412). -/
def matrixSaves (x : Mx) : Saves :=
  let regs := fun (m : FMap DWord) => words8 ((List.range 10).map fun k => (fget m k 0).toNat)
  let nest := fun (n : Option Nest) => regs ((n.map Nest.regs).getD [])
  let a := x.active.getD {}
  let rows := (List.range 32).map (rowOf x.rows)
  [(0x4000, regs x.shadow), (0x4050, nest x.queued), (0x40A0, nest x.active),
   (0x40F0, leBytes 8 (b2n x.queued.isSome + 2 * b2n x.active.isSome)),
   (0x4100, words8 ((List.range 6).map (fun k => a.idx.getD k 0) ++ [a.pB])),
   (0x4200, words8 [mxst x, x.passes.toNat, x.waitclk.toNat]), (0x4300, words8 (rows.map rowst)),
   (0x4400, rows.flatMap fun r => leBytes 4 r.g0),
   (0x5000, rows.flatMap fun r => (List.range 112).flatMap fun e => leBytes 4 (r.stage.getD e 0).toNat)] ++
  ((List.range 32).map fun k => (0x10000 + 2048 * k, sideBytes x k)) ++
  (List.range 64).map fun t => (0x50000 + 6 * 2048 * t, tileBytes x t)

/-- The bindings of a part (R412): the block, KIND, W and the row count of each bound port; the entry of a port that is not
bound is zero (DEDUCED, notes/assumptions/77.md). -/
def bindingSaves (s : State) (p : Nat) (pc : PartCore) : Saves :=
  ((List.range 16).map fun k => (0x2000 + 128 * k, match s.sport (16 * p + k) with
    | some b => b.b.toBytes ++ leBytes 4 (b.kind + 2 ^ 8 * b2n b.w) ++ leBytes 4 b.count ++ List.replicate 56 0
    | none => List.replicate 128 0)) ++
  (List.range 4).map fun k =>
    (0x2000 + 128 * (16 + k), List.replicate 64 0 ++ leBytes 4 (if fget pc.eps k false then 3 else 0) ++ List.replicate 60 0)

/-- The pontoon records of a part's die, in the slot of its lowest virtual core (R412). -/
def recordSaves (s : State) (p : Nat) (pc : PartCore) : Saves :=
  let k := s.part p
  if pc.vcore ≠ 0 then []
  else [(0x20000, ((s.fab k.task).pons.filter fun e => e.1 / 64 == k.vdie).flatMap fun e => e.2.raw)]

/-- A part's core has a matrix engine (R8, R412). -/
def hasMatrix (s : State) (p : Nat) : Bool := kindOf (s.part p).pos == 2

/-- The sections a slot holds (R412), but for an evicted partition. -/
def sections (s : State) (p phys : Nat) : Nat :=
  let k := s.part p
  let fab := (s.pcore (pcoreKey p phys)).vcore == 0 && (s.fab k.task).pons.any fun e => e.1 / 64 == k.vdie
  b2n (hasMatrix s p) + 2 * b2n fab

/-- The bytes of the named barriers of a part on a core (R412). -/
def barBytes (pc : PartCore) : List Byte :=
  words8 ((List.range 512).map fun k => let b : Bar := fget pc.bars k {}; b.exp + 2 ^ 16 * b.cnt + 2 ^ 32 * b.gen)

/-- The header of a slot (R412). -/
def headerSaves (s : State) (p phys : Nat) (cks : List Nat) (sched : Nat) : Saves :=
  let k := s.part p
  let t := s.task k.task
  let mask := maskOf (cks.map ctxNo)
  [(0, leBytes 1 1 ++ leBytes 1 (kindOf k.pos) ++ leBytes 1 (s.pcore (pcoreKey p phys)).vcore ++ leBytes 1 k.vdie ++ leBytes 4 t.launch.taskid ++
     leBytes 1 mask ++ leBytes 1 (sections s p phys) ++ leBytes 6 0 ++ words8 [sched, s.tb] ++ List.replicate 224 0)]

/-- The save slot of a core of a part, but for an evicted partition (R412) (DESIGN CHOICE, notes/assumptions/74.md). -/
def slotSaves (s : State) (p phys : Nat) (cks : List Nat) (sched : Nat) : Saves :=
  let pc := s.pcore (pcoreKey p phys)
  let ring := fun k => fget pc.rings k {}
  headerSaves s p phys cks sched ++
  [(0x100, words8 ((List.range 64).flatMap fun k => [(ring k).cfg, (ring k).st])), (0x500, barBytes pc),
   (0x1500, words8 ((List.range 64).map fun k => (fget (s.part p).pcnt k 0).toNat)),
   (0x1700, words8 [pc.msgcfg, pc.msgst] ++ (List.range 16).map fun i =>
     BitVec.ofNat 8 (b2n ((fget? pc.recv i).any fun r => r.ready)))] ++
  bindingSaves s p pc ++ recordSaves s p pc ++ (if hasMatrix s p then matrixSaves (s.mx (pcoreKey p phys)) else []) ++ cks.flatMap (contextSaves s)

/-- Writes a save slot with parity (R338, R411). A stripe that cannot be written keeps what it holds. -/
def writeSaves (s : State) (dpa : Nat) (vs : Saves) : State := vs.foldl (fun s v => (putRun s (dpa + v.1) (dpa + v.1) v.2).s) s

/-! ### A stopped victim (R407) -/

/-- A time as the clks that are left of it. -/
def timesLeft (m : FMap Nat) (tb : Nat) : FMap Nat := m.map fun e => (e.1, e.2 - tb)

/-- Clks left as a time. -/
def timesFrom (m : FMap Nat) (tb : Nat) : FMap Nat := m.map fun e => (e.1, e.2 + tb)

/-- A sequencer with the age of its step in place of the step's start. -/
def Seq.aged (q : Seq) (tb : Nat) : Seq := { q with start := tb - q.start }

/-- A context as it is kept while its task is stopped: its times as clks that are left. An instruction that has raised a fault is
saved with the rest and raises it again (R398). -/
def Ctx.kept (c : Ctx) (tb : Nat) : Ctx :=
  { c with
    re := timesLeft c.re tb, rx := timesLeft c.rx tb, late := timesLeft c.late tb, far := timesLeft c.far tb, qdone := [], acc := []
    pend := c.pend.filter fun p => p.kind == 2, faultAt := none
    frame := c.frame.map fun f =>
      { f with re := timesLeft f.re tb, rx := timesLeft f.rx tb, seq := f.seq.map (Seq.aged · tb) } }

/-- A context as it resumes: its queues are tried afresh (R402, R409). -/
def Ctx.resumed (c : Ctx) (tb : Nat) : Ctx :=
  { c with
    re := timesFrom c.re tb, rx := timesFrom c.rx tb, late := timesFrom c.late tb, far := timesFrom c.far tb, xrdy := [], prdy := []
    frame := c.frame.map fun f =>
      { f with re := timesFrom f.re tb, rx := timesFrom f.rx tb, seq := f.seq.map (Seq.aged · tb) }
    ql := c.ql.map ({ · with enq := tb }), qc := c.qc.map ({ · with enq := tb }), qs := c.qs.map ({ · with enq := tb })
    qf := c.qf.map ({ · with enq := tb }), qnext := [], qtry := []
    front := tb, xnext := tb, fetchAt := tb, sbUntil := tb, bkUntil := tb, yielded := false }

/-- A context leaves its core and is kept, with the sequencer if it runs for it (R407). -/
def keepCtx (s : State) (ck : Nat) : State :=
  let c := s.ctx ck
  let q := frameSeq s ck
  let s := s.dropBanks ck
  { s with
    saved := fset s.saved (savedKey c.part ck) { ctx := c.kept (s.clk ck), seq := q.map (Seq.aged · (s.clk ck)) }
    ctxs := fdel s.ctxs ck
    seqs := if q.isSome then fdel s.seqs (coreOf ck) else s.seqs }

/-- The engine of a part has no operation left but those that wait to start with their instructions (R274). -/
def Mx.quiet (x : Mx) : Bool := x.takenBack.ops.all fun e => !e.2.started && !e.2.nest

/-- SCHEDTIME at which ctx0 of a core came to its stop (R405): where it yielded, or where it met its line boundary. -/
def ctxStop (s : State) (ck : Nat) : Nat :=
  let c := s.ctx ck
  if c.yielded then c.yieldAt else c.stopAt.getD (s.schedOf ck)

/-- SCHEDTIME at which a victim stopped (R405): that of its last ctx0 to stop; where none runs, that of this clk
(DEDUCED, notes/assumptions/72.md). -/
def stopSched (s : State) (t : Nat) : Nat :=
  match (contextsOf s t).filter fun ck => ctxNo ck == 0 && (s.ctx ck).run == .running with
  | [] => s.sched t
  | cks => (cks.map (ctxStop s)).foldl max 0

/-- The ctx0s of tasks that are stopping and have come to their stop in this clk (R405). -/
def markStops (s : State) : State :=
  { s with ctxs := s.ctxs.map fun (e : Nat × Ctx) =>
      (e.1, if ctxNo e.1 = 0 ∧ e.2.stopAt.isNone ∧ halted s e.1 then { e.2 with stopAt := some (s.schedOf e.1) } else e.2) }

/-- The arrivals of the last clk at a task's package barriers are counted (R368). -/
def closeArrivals (s : State) (t : Nat) : State :=
  ((s.task t).pbars.map Prod.fst).foldl (fun s j =>
    let b := s.pbar t j
    b.recent.foldl (fun s a => countArrival s t j a) (s.setPbar t j { b with recent := [] })) s

/-- The contexts of a part on one of its cores that have started. -/
def startedOn (s : State) (p core : Nat) : List Nat :=
  ((List.range 8).map (ctxKey core)).filter fun ck => (s.ctx ck).started && (s.ctx ck).part == p

/-- The save slots of a task are written (R407, R411) (DEDUCED, notes/assumptions/56.md). -/
def writeSlots (s : State) (t sched : Nat) : State :=
  (s.task t).places.foldl (fun s pl =>
    let p := partKey t pl.vdie
    (if (s.part p).retired then [] else pl.cores).foldl (fun s c =>
      let core := coreAt pl.pos c.1
      let pk := pcoreKey p c.1
      let a := slotDpa s core c.2
      let s := writeSaves s a (slotSaves s p c.1 (startedOn s p core) sched)
      s.setPcore pk { s.pcore pk with slot := a }) s) s

/-- VICTIM_STOPPED (R405, R407): the latch names a task all of whose contexts have stopped. Instructions that have issued
complete, the parts' state goes to their save slots, and contexts, pontoons and engines are free. -/
def execVictimStopped (s : State) : Res :=
  let t := s.ev.a
  let k := s.task t
  let ps := s.partsOf t
  if (fget? s.tasks t).isNone ∨ !taskStill s t ∨ !(contextsOf s t).all (issuedOver s) ∨ k.hold.isSome ∨
      s.swrs.any (fun w => s.taskOf w.ctx == t) ∨
      !(s.mxs.all fun e => !ps.contains (enginePart e.1) || e.2.quiet) then .fault .notEnabled
  else
    let cks := contextsOf s t
    let sched := stopSched s t
    let s := closeArrivals (cks.foldl (fun s ck => (s.withdraw ck).onCtxOf ck Ctx.unfetch) s) t
    let s := { s with mxs := s.mxs.map fun (e : Nat × Mx) =>
      (e.1, if ps.contains (enginePart e.1) then { e.2.takenBack with
        fetch := none, reading := [], active := e.2.takenBack.active.map fun n => { n with heldA := none, heldB := none } } else e.2) }
    let s := writeSlots s t sched
    let s := cks.foldl keepCtx s
    .next { s.setTask t { s.task t with run := .stopped, frozen := some sched } with placerDue := true }

/-! ### Eviction (R408) -/

/-- The unit partitions of a core that are held. -/
def heldUnits (s : State) (pos phys : Nat) : List Nat :=
  ((heldBy s fun _ k => !k.places.isEmpty).filter fun h => h.pl.pos == pos).flatMap fun h =>
    ((unitsOf s h).filter fun e => e.1 == phys).map Prod.snd

/-- Another task waits for cores of a kind of die (DESIGN CHOICE, notes/assumptions/57.md). -/
def wantsCores (s : State) (t kind : Nat) : Bool :=
  s.tasks.any fun e => e.1 != t && e.2.requests && e.2.launch.dies.any fun d => d.kind == kind && d.ncore != 0

/-- A command, a message or an update of a part on a core is outstanding. -/
def coreOutstanding (s : State) (p core : Nat) : Bool :=
  s.cmds.any (fun e => e.2.part == p && coreOf e.2.ctx == core) ||
  s.syncs.any fun e => (s.part e.2.part).task == (s.part p).task && 2 ≤ e.2.kind && coreOf e.2.ctx == core

/-- PARTITION_EVICT (R408): the latch names a stopped part and one of its cores, all of whose partitions are held. The bytes
of the part's partition and its owner bits go to the save slot, and the partition is free. -/
def execPartitionEvict (s : State) : Res :=
  let p := s.ev.a
  let phys := s.ev.b
  let k := s.part p
  let core := coreAt k.pos phys
  match (s.place p).cores.find? fun e => e.1 == phys with
  | none => .fault .notEnabled
  | some (_, u) =>
    if (s.task k.task).run ≠ .stopped ∨ (fget? k.evicted phys).isSome ∨ (heldUnits s k.pos phys).eraseDups.length < 4 ∨
        !wantsCores s k.task (kindOf k.pos) ∨ coreOutstanding s p core then .fault .notEnabled
    else
      let n := (s.entryOf p).upart * 0x10000
      let key := unitKey core (u * (unitBytes (kindOf k.pos) / 4))
      let bs := loadAt s.mem key n
      let own := (List.range (n / 4096)).map fun i => fget s.owned (key / 4096 + i) false
      let s := writeSaves s (slotDpa s core u) [(0x280000, bs), (9, leBytes 1 (sections s p phys + 4)), (32, leBytes 32 (ownerMask own))]
      .next { s.setPart p { k with evicted := fset k.evicted phys (bs, own) } with placerDue := true }

/-! ### Resumption (R409) -/

/-- The ILOAD records of a part that have been issued, in segment order. -/
def issuedLoads (k : Part) : List CmdRec := (k.recs.take k.next).filter fun r => recOp r == 2

/-- Runs records again, or says why not. -/
def reload (s : State) (p : Nat) : List CmdRec → State × Option Nat
  | [] => (s, none)
  | r :: rs =>
    match loadLines s p r with
    | (s, some e) => (s, some e)
    | (s, none) => reload s p rs

/-- The words of eight bytes of a run. -/
def wordsOf (bs : List Byte) : List DWord := (List.range (bs.length / 8)).map fun i => BitVec.ofNat 64 (fieldAt bs (8 * i) 8)

/-- The vector register of 4 KiB of a slot (R413). -/
def vectorOf (bs : List Byte) : List Word := vecOf fun i => BitVec.ofNat 32 (fieldAt bs (4 * i) 4)

/-- The registers of a context as its block in a save slot holds them (R409, R413), but for x registers a reply has written
since. -/
def Ctx.withBlock (c : Ctx) (landed : List Nat) (xs ps : List Byte) : Ctx :=
  let c := (wordsOf xs).zipIdx.foldl (fun (c : Ctx) e => if c.getX e.2 = e.1 ∨ e.2 ∈ landed then c else c.putX e.2 e.1) c
  ps.zipIdx.foldl (fun (c : Ctx) e => c.putP e.2 (e.1.getLsbD 0)) c

/-- The vector registers of a context as its block in a save slot holds them (R409, R413). -/
def readVectors (s : State) (a : Nat) (c : Ctx) : Ctx × State :=
  let (c, s) := (List.range 8).foldl (fun (r : Ctx × State) k =>
    let kept := leBytes 128 (r.1.getM k).toNat
    let (bs, s) := slotRead r.2 (a + 0x6000 + 128 * k) kept
    (if bs = kept then r.1 else { r.1 with vm := fset r.1.vm k (BitVec.ofNat 1024 (leNat bs)) }, s)) (c, s)
  (List.range 32).foldl (fun (r : Ctx × State) k =>
    let kept := (vecOf (elem (r.1.getV k))).flatMap fun w => leBytes 4 w.toNat
    let (bs, s) := slotRead r.2 (a + 0x8000 + 4096 * k) kept
    (if bs = kept then r.1 else { r.1 with v := fset r.1.v k (vectorOf bs) }, s)) (c, s)

/-- A context is read back from its block in a save slot (R409, R413): its x, p, v and vm registers
(DEDUCED, notes/assumptions/56.md). -/
def readContext (s : State) (a core : Nat) (landed : List Nat) (c : Ctx) : Ctx × State :=
  let (xs, s) := slotRead s a (words8 ((List.range 32).map fun k => (c.getX k).toNat))
  let (ps, s) := slotRead s (a + 0x100) ((List.range 8).map fun k => BitVec.ofNat 8 (b2n (c.getP k)))
  let c := c.withBlock landed xs ps
  if isMatrix core then (c, s) else readVectors s a c

/-- A matrix engine is read back from a save slot (R409, R412): its accumulators and its side memory. -/
def readMatrix (s : State) (a : Nat) (x : Mx) : Mx × State :=
  let (x, s) := (List.range 32).foldl (fun (r : Mx × State) k =>
    let kept := sideBytes r.1 k
    let (bs, s) := slotRead r.2 (a + 0x10000 + 2048 * k) kept
    (if bs = kept then r.1 else { r.1 with side := fset r.1.side k bs }, s)) (x, s)
  (List.range 64).foldl (fun (r : Mx × State) t =>
    let kept := tileBytes r.1 t
    let (bs, s) := slotRead r.2 (a + 0x50000 + 6 * 2048 * t) kept
    let tile := (List.range 2048).map fun i => BitVec.ofNat 48 (fieldAt bs (6 * i) 6)
    (if bs = kept then r.1 else { r.1 with acc := fset r.1.acc t tile }, s)) (x, s)

/-- A kept context is read back from its save slot. -/
def readSaved (s : State) (slot core : Nat) (e : Nat × Saved) : State :=
  let r := readContext s (slot + 0x110000 + 0x28000 * (e.1 % 8)) core e.2.landed e.2.ctx
  { r.2 with saved := fset r.2.saved e.1 { e.2 with ctx := r.1 } }

/-- What a part holds on one of its cores is read back from its save slot (R409, R412): the matrix engine and the contexts. Its
counters go on while it stands stopped and are not read back (DEDUCED, notes/assumptions/56.md). -/
def readSlot (s : State) (p phys : Nat) : State :=
  let pk := pcoreKey p phys
  let slot := (s.pcore pk).slot
  let s := match fget? s.mxs pk with
    | none => s
    | some x => (readMatrix s slot x).2.setMx pk (readMatrix s slot x).1
  (s.saved.filter fun e => e.1 / 8 == pk).foldl (fun s e => readSaved s slot (coreAt (s.part p).pos phys) e) s

/-- A kept context is put back on its core (R409). -/
def putBack (s : State) (p key : Nat) (v : Saved) : State :=
  let core := coreAt (s.part p).pos (key / 8 % 64)
  let s := { s with saved := fdel s.saved key }
  let s := s.setCtx (ctxKey core (key % 8)) (v.ctx.resumed (s.clk (ctxKey core 0)))
  match v.seq with
  | some q => { s with seqs := fset s.seqs core { q.aged (s.clk (ctxKey core 0)) with body := [] } }
  | none => s

/-- A part resumes (R409): its lines are loaded again, its save slots read back and its contexts put back. -/
def resumePart (s : State) (p : Nat) : State :=
  if (s.task (s.part p).task).run ≠ .running ∨ (s.part p).retired then s
  else
    match reload s p (issuedLoads (s.part p)) with
    | (s, some e) => partFault s p e 2
    | (s, none) =>
      let s := ((s.place p).cores.map Prod.fst).foldl (fun s k => readSlot s p k) s
      (s.saved.filter fun e => e.1 / 512 == p).foldl (fun s e => putBack s p e.1 e.2) s

/-- TASK_RESUME (R409): the latch names a task whose units are claimed again, and this tick is T. -/
def execTaskResume (s : State) : Res :=
  let t := s.ev.a
  let k := s.task t
  if (fget? s.tasks t).isNone ∨ k.run ≠ .placed ∨ !k.started ∨ k.frozen.isNone then .fault .notEnabled
  else
    let s := s.setTask t { (k.unfreeze s.tb).heldFrom with run := .running }
    .next ((s.partsOf t).foldl resumePart s)

end Sys2Proof.Machine
end

