-- ==== Sys2Proof/Machine/Waits.lean ====
section
/-! DEFINITION. The instructions that hold their queue until a condition is met (05_issue.md R101), and the step in which
the condition of one is met. -/

namespace Sys2Proof.Machine

/-- An instruction that can wait after it has issued, executed again; any other is not one. -/
def waitRun (i : Instr) (s : State) : Res :=
  match i with
  | .rwaitf h a b u => execRwaitf h a b u s
  | .rwaite h a b u => execRwaite h a b u s
  | .rcommit h a b u => execRcommit h a b u s
  | .rpop h a b u => execRpop h a b u s
  | .barw h a b => execBarw h a b s
  | .pbarw h a => execPbarw h a s
  | .semw h a b => execSemw h a b s
  | .cwwaitSent h a b => execCwwaitSent h a b s
  | .cwwaitArr h a b => execCwwaitArr h a b s
  | .mpass h a b => execMpass h a b s
  | .mspass h a b => execMspass h a b s
  | .mzero h a => execMzero h a s
  | .mdrain h a b c f => execMdrain h a b c f s
  | .maccld h a b c f => execMaccld h a b c f s
  | .mdrainq h d a b f => execMdrainq h d a b f s
  | .mstream h b => execMstream h b s
  | .mgo h => execMgo h s
  | .msgo h => execMsgo h s
  | .mwait h e => execMwait h e s
  | .mstat h d a c k => execMstat h d a c k s
  | .fence h sc => execFence h sc s
  | .fphase y d => execFphase y d s
  | _ => .fault .notEnabled

/-- A context that stops for a fault lets no instruction go on but what it has issued and does not wait (R399 step 2). -/
def stoppedFor (c : Ctx) (e : Entry) (clk : Nat) : Bool := c.faultAt.any (· < clk) && !e.applies

/-- The head of a queue that has issued and waits. -/
def waitingHead (s : State) (ck : Nat) (q : Queue) : Option Entry :=
  let c := s.ctx ck
  match c.queue q with
  | e :: _ =>
    if e.tokDone && fget c.qtry q.code 0 ≤ s.clk ck && mayAct s ck && !stoppedFor c e (s.clk ck) then some e else none
  | [] => none

/-- WAIT_SATISFIED (R101): the latch names the context and the queue, whose head waits and whose condition is met: the
instruction completes, or the check it makes when it starts fails. -/
def execWaitSatisfied (s : State) : Res :=
  let ck := s.ev.a
  let q := s.ev.q
  match waitingHead s ck q with
  | none => .fault .notEnabled
  | some e =>
    match waitRun e.instr { s with iss := latchHead ck e } with
    | .next t => if t.iss.wait then .fault .notEnabled else .next (afterHead s t ck e)
    | .fault f => .fault f
    | .refused r => .refused r

end Sys2Proof.Machine
end

