-- ==== Sys2Proof/Machine/Dispatch.lean ====
section
/-! DEFINITION. The meaning of every step of the package: one arm per constructor of Instr, in the order of
spec/opcode_table.json, each a call of the definition of its own. -/

namespace Sys2Proof.Machine

/-- One step: what an instruction, or an event of the machine, does to the state. -/
def exec (i : Instr) (s : State) : Host.Outcome State Fault Refusal :=
  match i with
  | .add y d a b => Sys2Proof.Machine.execAdd y d a b s
  | .sub y d a b => Sys2Proof.Machine.execSub y d a b s
  | .and y d a b => Sys2Proof.Machine.execAnd y d a b s
  | .or y d a b => Sys2Proof.Machine.execOr y d a b s
  | .xor y d a b => Sys2Proof.Machine.execXor y d a b s
  | .andn y d a b => Sys2Proof.Machine.execAndn y d a b s
  | .sll y d a b => Sys2Proof.Machine.execSll y d a b s
  | .srl y d a b => Sys2Proof.Machine.execSrl y d a b s
  | .sra y d a b => Sys2Proof.Machine.execSra y d a b s
  | .mul y d a b => Sys2Proof.Machine.execMul y d a b s
  | .mulh y d a b => Sys2Proof.Machine.execMulh y d a b s
  | .mulhu y d a b => Sys2Proof.Machine.execMulhu y d a b s
  | .min y d a b => Sys2Proof.Machine.execMin y d a b s
  | .max y d a b => Sys2Proof.Machine.execMax y d a b s
  | .minu y d a b => Sys2Proof.Machine.execMinu y d a b s
  | .maxu y d a b => Sys2Proof.Machine.execMaxu y d a b s
  | .clz y d a => Sys2Proof.Machine.execClz y d a s
  | .ctz y d a => Sys2Proof.Machine.execCtz y d a s
  | .popc y d a => Sys2Proof.Machine.execPopc y d a s
  | .bswap y d a => Sys2Proof.Machine.execBswap y d a s
  | .sel y d a b c => Sys2Proof.Machine.execSel y d a b c s
  | .cmp y c k a b m => Sys2Proof.Machine.execCmp y c k a b m s
  | .cmpu y c k a b m => Sys2Proof.Machine.execCmpu y c k a b m s
  | .addsh y d a b t => Sys2Proof.Machine.execAddsh y d a b t s
  | .jalr y d a => Sys2Proof.Machine.execJalr y d a s
  | .tbr y d => Sys2Proof.Machine.execTbr y d s
  | .scht y d => Sys2Proof.Machine.execScht y d s
  | .pwait y a => Sys2Proof.Machine.execPwait y a s
  | .punpin y a => Sys2Proof.Machine.execPunpin y a s
  | .pinv y a => Sys2Proof.Machine.execPinv y a s
  | .pinvAll y => Sys2Proof.Machine.execPinvAll y s
  | .endc y => Sys2Proof.Machine.execEndc y s
  | .eret y => Sys2Proof.Machine.execEret y s
  | .addi y d a im => Sys2Proof.Machine.execAddi y d a im s
  | .andi y d a im => Sys2Proof.Machine.execAndi y d a im s
  | .ori y d a im => Sys2Proof.Machine.execOri y d a im s
  | .xori y d a im => Sys2Proof.Machine.execXori y d a im s
  | .slli y d a t => Sys2Proof.Machine.execSlli y d a t s
  | .srli y d a t => Sys2Proof.Machine.execSrli y d a t s
  | .srai y d a t => Sys2Proof.Machine.execSrai y d a t s
  | .cmpi y c k a im => Sys2Proof.Machine.execCmpi y c k a im s
  | .cmpui y c k a im => Sys2Proof.Machine.execCmpui y c k a im s
  | .dly y a im => Sys2Proof.Machine.execDly y a im s
  | .trap y a c => Sys2Proof.Machine.execTrap y a c s
  | .yield y => Sys2Proof.Machine.execYield y s
  | .movw y d im => Sys2Proof.Machine.execMovw y d im s
  | .movhw y d a im => Sys2Proof.Machine.execMovhw y d a im s
  | .addw y d a im => Sys2Proof.Machine.execAddw y d a im s
  | .bfxu y d a xs xr len im => Sys2Proof.Machine.execBfxu y d a xs xr len im s
  | .bfxs y d a xs xr len im => Sys2Proof.Machine.execBfxs y d a xs xr len im s
  | .bfi y d a xs xr len im => Sys2Proof.Machine.execBfi y d a xs xr len im s
  | .fshl y d a b xs xr len im => Sys2Proof.Machine.execFshl y d a b xs xr len im s
  | .fshr y d a b xs xr len im => Sys2Proof.Machine.execFshr y d a b xs xr len im s
  | .srd y d n => Sys2Proof.Machine.execSrd y d n s
  | .swr y a n => Sys2Proof.Machine.execSwr y a n s
  | .jal y d t => Sys2Proof.Machine.execJal y d t s
  | .loopm y a n ii => Sys2Proof.Machine.execLoopm y a n ii s
  | .probe y d a t => Sys2Proof.Machine.execProbe y d a t s
  | .br y c g o => Sys2Proof.Machine.execBr y c g o s
  | .vld h d a k e => Sys2Proof.Machine.execVld h d a k e s
  | .vldc h d a b k e => Sys2Proof.Machine.execVldc h d a b k e s
  | .vlds h d a b k e => Sys2Proof.Machine.execVlds h d a b k e s
  | .vldb h d a k t e => Sys2Proof.Machine.execVldb h d a k t e s
  | .vldg h d a b k e => Sys2Proof.Machine.execVldg h d a b k e s
  | .vldm h d a => Sys2Proof.Machine.execVldm h d a s
  | .vst h d a k e => Sys2Proof.Machine.execVst h d a k e s
  | .vstc h d a b k e => Sys2Proof.Machine.execVstc h d a b k e s
  | .vsts h d a b k e => Sys2Proof.Machine.execVsts h d a b k e s
  | .vstx h d a b k e => Sys2Proof.Machine.execVstx h d a b k e s
  | .vstm h d a => Sys2Proof.Machine.execVstm h d a s
  | .tmov h d a b t => Sys2Proof.Machine.execTmov h d a b t s
  | .ownE h a b t => Sys2Proof.Machine.execOwnE h a b t s
  | .ownC h a b t => Sys2Proof.Machine.execOwnC h a b t s
  | .fence h t => Sys2Proof.Machine.execFence h t s
  | .rclaim h d b u => Sys2Proof.Machine.execRclaim h d b u s
  | .rcommit h a b u => Sys2Proof.Machine.execRcommit h a b u s
  | .rwaitf h a b u => Sys2Proof.Machine.execRwaitf h a b u s
  | .rwaite h a b u => Sys2Proof.Machine.execRwaite h a b u s
  | .rpop h a b u => Sys2Proof.Machine.execRpop h a b u s
  | .rpeek h d a b u => Sys2Proof.Machine.execRpeek h d a b u s
  | .bara h d a g => Sys2Proof.Machine.execBara h d a g s
  | .barw h a b => Sys2Proof.Machine.execBarw h a b s
  | .pbara h a => Sys2Proof.Machine.execPbara h a s
  | .pbarw h a => Sys2Proof.Machine.execPbarw h a s
  | .semw h a b => Sys2Proof.Machine.execSemw h a b s
  | .sems h a b g => Sys2Proof.Machine.execSems h a b g s
  | .send h a b => Sys2Proof.Machine.execSend h a b s
  | .cwwaitSent h a b => Sys2Proof.Machine.execCwwaitSent h a b s
  | .cwwaitArr h a b => Sys2Proof.Machine.execCwwaitArr h a b s
  | .pbinv h a => Sys2Proof.Machine.execPbinv h a s
  | .pbinvAll h => Sys2Proof.Machine.execPbinvAll h s
  | .ldb h d a im => Sys2Proof.Machine.execLdb h d a im s
  | .ldbu h d a im => Sys2Proof.Machine.execLdbu h d a im s
  | .ldh h d a im => Sys2Proof.Machine.execLdh h d a im s
  | .ldhu h d a im => Sys2Proof.Machine.execLdhu h d a im s
  | .ldw h d a im => Sys2Proof.Machine.execLdw h d a im s
  | .ldwu h d a im => Sys2Proof.Machine.execLdwu h d a im s
  | .ldd h d a im => Sys2Proof.Machine.execLdd h d a im s
  | .stb h d a im => Sys2Proof.Machine.execStb h d a im s
  | .sth h d a im => Sys2Proof.Machine.execSth h d a im s
  | .stw h d a im => Sys2Proof.Machine.execStw h d a im s
  | .std h d a im => Sys2Proof.Machine.execStd h d a im s
  | .bari h a im => Sys2Proof.Machine.execBari h a im s
  | .cpy h a x => Sys2Proof.Machine.execCpy h a x s
  | .cpyt h a b x => Sys2Proof.Machine.execCpyt h a b x s
  | .cacc h a x op ty => Sys2Proof.Machine.execCacc h a x op ty s
  | .caccf h a x op ty => Sys2Proof.Machine.execCaccf h a x op ty s
  | .cswp h d a b x sz sp => Sys2Proof.Machine.execCswp h d a b x sz sp s
  | .ccas h d a b x sz sp => Sys2Proof.Machine.execCcas h d a b x sz sp s
  | .cpsm h a x set => Sys2Proof.Machine.execCpsm h a x set s
  | .cwalk h a b x qi qv vsz => Sys2Proof.Machine.execCwalk h a b x qi qv vsz s
  | .cgath h a x => Sys2Proof.Machine.execCgath h a x s
  | .cscat h a x => Sys2Proof.Machine.execCscat h a x s
  | .cput h a x pc => Sys2Proof.Machine.execCput h a x pc s
  | .hscan h a x => Sys2Proof.Machine.execHscan h a x s
  | .hgath h a x => Sys2Proof.Machine.execHgath h a x s
  | .hred h a x => Sys2Proof.Machine.execHred h a x s
  | .hcvt h a x => Sys2Proof.Machine.execHcvt h a x s
  | .vadd h d a b k f => Sys2Proof.Machine.execVadd h d a b k f s
  | .vsub h d a b k f => Sys2Proof.Machine.execVsub h d a b k f s
  | .vmul h d a b k f => Sys2Proof.Machine.execVmul h d a b k f s
  | .vfma h d a b k f => Sys2Proof.Machine.execVfma h d a b k f s
  | .vfms h d a b k f => Sys2Proof.Machine.execVfms h d a b k f s
  | .vmin h d a b k f => Sys2Proof.Machine.execVmin h d a b k f s
  | .vmax h d a b k f => Sys2Proof.Machine.execVmax h d a b k f s
  | .vabs h d a r k f => Sys2Proof.Machine.execVabs h d a r k f s
  | .vneg h d a r k f => Sys2Proof.Machine.execVneg h d a r k f s
  | .vclamp h d a b k f => Sys2Proof.Machine.execVclamp h d a b k f s
  | .vcmp h f v a b c => Sys2Proof.Machine.execVcmp h f v a b c s
  | .vsel h d a b t => Sys2Proof.Machine.execVsel h d a b t s
  | .vcvt h d a c k m => Sys2Proof.Machine.execVcvt h d a c k m s
  | .vqnt h a b f => Sys2Proof.Machine.execVqnt h a b f s
  | .vdqnt h a b f => Sys2Proof.Machine.execVdqnt h a b f s
  | .vperm h d a b k o => Sys2Proof.Machine.execVperm h d a b k o s
  | .viadd h d a b k t => Sys2Proof.Machine.execViadd h d a b k t s
  | .visub h d a b k t => Sys2Proof.Machine.execVisub h d a b k t s
  | .vimul h d a b k t => Sys2Proof.Machine.execVimul h d a b k t s
  | .vimac8 h d a b k t u => Sys2Proof.Machine.execVimac8 h d a b k t u s
  | .vimin h d a b k t => Sys2Proof.Machine.execVimin h d a b k t s
  | .vimax h d a b k t => Sys2Proof.Machine.execVimax h d a b k t s
  | .viclamp h d a b k t => Sys2Proof.Machine.execViclamp h d a b k t s
  | .vicmp h t v a b c => Sys2Proof.Machine.execVicmp h t v a b c s
  | .vand h d a b k => Sys2Proof.Machine.execVand h d a b k s
  | .vor h d a b k => Sys2Proof.Machine.execVor h d a b k s
  | .vxor h d a b k => Sys2Proof.Machine.execVxor h d a b k s
  | .vshl h d a b k t => Sys2Proof.Machine.execVshl h d a b k t s
  | .vshr h d a b k t => Sys2Proof.Machine.execVshr h d a b k t s
  | .vsra h d a b k t => Sys2Proof.Machine.execVsra h d a b k t s
  | .vrshr h d a b k r => Sys2Proof.Machine.execVrshr h d a b k r s
  | .vmov h d a r k => Sys2Proof.Machine.execVmov h d a r k s
  | .vexp2 h d a r k f => Sys2Proof.Machine.execVexp2 h d a r k f s
  | .vlog2 h d a r k f => Sys2Proof.Machine.execVlog2 h d a r k f s
  | .vexp h d a r k f => Sys2Proof.Machine.execVexp h d a r k f s
  | .vlog h d a r k f => Sys2Proof.Machine.execVlog h d a r k f s
  | .vrsqrt h d a r k f => Sys2Proof.Machine.execVrsqrt h d a r k f s
  | .vrcp h d a r k f => Sys2Proof.Machine.execVrcp h d a r k f s
  | .vsqrt h d a r k f => Sys2Proof.Machine.execVsqrt h d a r k f s
  | .vtanh h d a r k f => Sys2Proof.Machine.execVtanh h d a r k f s
  | .vsigm h d a r k f => Sys2Proof.Machine.execVsigm h d a r k f s
  | .vrotr h d a k t => Sys2Proof.Machine.execVrotr h d a k t s
  | .vrotc h d a k t => Sys2Proof.Machine.execVrotc h d a k t s
  | .vbcr h d a k t => Sys2Proof.Machine.execVbcr h d a k t s
  | .vbcc h d a k t => Sys2Proof.Machine.execVbcc h d a k t s
  | .vredr h d a c t o => Sys2Proof.Machine.execVredr h d a c t o s
  | .vredc h d a c t o => Sys2Proof.Machine.execVredc h d a c t o s
  | .vmand h d a b => Sys2Proof.Machine.execVmand h d a b s
  | .vmor h d a b => Sys2Proof.Machine.execVmor h d a b s
  | .vmxor h d a b => Sys2Proof.Machine.execVmxor h d a b s
  | .vmandn h d a b => Sys2Proof.Machine.execVmandn h d a b s
  | .vmnot h d a => Sys2Proof.Machine.execVmnot h d a s
  | .vmovi h d k im => Sys2Proof.Machine.execVmovi h d k im s
  | .vmovx h d a k row col mode => Sys2Proof.Machine.execVmovx h d a k row col mode s
  | .mgo h => Sys2Proof.Machine.execMgo h s
  | .mpass h a b => Sys2Proof.Machine.execMpass h a b s
  | .mwait h e => Sys2Proof.Machine.execMwait h e s
  | .mzero h a => Sys2Proof.Machine.execMzero h a s
  | .mdrain h a b c f => Sys2Proof.Machine.execMdrain h a b c f s
  | .mdrainq h d a b f => Sys2Proof.Machine.execMdrainq h d a b f s
  | .mstream h b => Sys2Proof.Machine.execMstream h b s
  | .maccld h a b c f => Sys2Proof.Machine.execMaccld h a b c f s
  | .mstat h d a c t => Sys2Proof.Machine.execMstat h d a c t s
  | .mspass h a b => Sys2Proof.Machine.execMspass h a b s
  | .msgo h => Sys2Proof.Machine.execMsgo h s
  | .mcfg h d half im => Sys2Proof.Machine.execMcfg h d half im s
  | .mcfgr h d a b r2 pair => Sys2Proof.Machine.execMcfgr h d a b r2 pair s
  | .fbind y d a h k => Sys2Proof.Machine.execFbind y d a h k s
  | .funbind y d => Sys2Proof.Machine.execFunbind y d s
  | .fstart y a => Sys2Proof.Machine.execFstart y a s
  | .fphase y d => Sys2Proof.Machine.execFphase y d s
  | .fstop y a => Sys2Proof.Machine.execFstop y a s
  | .fhnd y a => Sys2Proof.Machine.execFhnd y a s
  | .finj y a b => Sys2Proof.Machine.execFinj y a b s
  | .fstat y d t => Sys2Proof.Machine.execFstat y d t s
  | .fload y a im => Sys2Proof.Machine.execFload y a im s
  | .reset => Sys2Proof.Machine.execReset s
  | .linkTrainingDone => Sys2Proof.Machine.execLinkTrainingDone s
  | .zeroFillDone => Sys2Proof.Machine.execZeroFillDone s
  | .clusterPowerUp => Sys2Proof.Machine.execClusterPowerUp s
  | .dieFence => Sys2Proof.Machine.execDieFence s
  | .dieFailure => Sys2Proof.Machine.execDieFailure s
  | .gqdbDoorbell => Sys2Proof.Machine.execGqdbDoorbell s
  | .graphStart => Sys2Proof.Machine.execGraphStart s
  | .taskNode => Sys2Proof.Machine.execTaskNode s
  | .condNode => Sys2Proof.Machine.execCondNode s
  | .loopNode => Sys2Proof.Machine.execLoopNode s
  | .waitNode => Sys2Proof.Machine.execWaitNode s
  | .signalNode => Sys2Proof.Machine.execSignalNode s
  | .copyNode => Sys2Proof.Machine.execCopyNode s
  | .progNode => Sys2Proof.Machine.execProgNode s
  | .endNode => Sys2Proof.Machine.execEndNode s
  | .graphAbort => Sys2Proof.Machine.execGraphAbort s
  | .agingStep => Sys2Proof.Machine.execAgingStep s
  | .placerPass => Sys2Proof.Machine.execPlacerPass s
  | .taskStart => Sys2Proof.Machine.execTaskStart s
  | .powerClassApply => Sys2Proof.Machine.execPowerClassApply s
  | .cmdNop => Sys2Proof.Machine.execCmdNop s
  | .cmdCopy => Sys2Proof.Machine.execCmdCopy s
  | .cmdIload => Sys2Proof.Machine.execCmdIload s
  | .cmdIloadDone => Sys2Proof.Machine.execCmdIloadDone s
  | .cmdStart => Sys2Proof.Machine.execCmdStart s
  | .semIncrementArrival => Sys2Proof.Machine.execSemIncrementArrival s
  | .tideHoldRequest => Sys2Proof.Machine.execTideHoldRequest s
  | .tideHoldReach => Sys2Proof.Machine.execTideHoldReach s
  | .tideHoldResumeNotice => Sys2Proof.Machine.execTideHoldResumeNotice s
  | .tideHoldRelease => Sys2Proof.Machine.execTideHoldRelease s
  | .holdExpired => Sys2Proof.Machine.execHoldExpired s
  | .lineFetch => Sys2Proof.Machine.execLineFetch s
  | .laneEnqueue => Sys2Proof.Machine.execLaneEnqueue s
  | .instructionComplete => Sys2Proof.Machine.execInstructionComplete s
  | .waitSatisfied => Sys2Proof.Machine.execWaitSatisfied s
  | .moduloBodyFetch => Sys2Proof.Machine.execModuloBodyFetch s
  | .moduloStep => Sys2Proof.Machine.execModuloStep s
  | .contextEnd => Sys2Proof.Machine.execContextEnd s
  | .registerWrite => Sys2Proof.Machine.execRegisterWrite s
  | .sperrClear => Sys2Proof.Machine.execSperrClear s
  | .prbcfgWrite => Sys2Proof.Machine.execPrbcfgWrite s
  | .qcfgWrite => Sys2Proof.Machine.execQcfgWrite s
  | .msgcfgWrite => Sys2Proof.Machine.execMsgcfgWrite s
  | .xfactRetry => Sys2Proof.Machine.execXfactRetry s
  | .xfactFail => Sys2Proof.Machine.execXfactFail s
  | .winWrite => Sys2Proof.Machine.execWinWrite s
  | .stkctlLose => Sys2Proof.Machine.execStkctlLose s
  | .pcreqGo => Sys2Proof.Machine.execPcreqGo s
  | .pqctlQreq => Sys2Proof.Machine.execPqctlQreq s
  | .pqctlSave => Sys2Proof.Machine.execPqctlSave s
  | .pqctlGate => Sys2Proof.Machine.execPqctlGate s
  | .pqctlWake => Sys2Proof.Machine.execPqctlWake s
  | .pwrlimWrite => Sys2Proof.Machine.execPwrlimWrite s
  | .thermClear => Sys2Proof.Machine.execThermClear s
  | .almcfgWrite => Sys2Proof.Machine.execAlmcfgWrite s
  | .attestRequest => Sys2Proof.Machine.execAttestRequest s
  | .attestReportDone => Sys2Proof.Machine.execAttestReportDone s
  | .probeFillComplete => Sys2Proof.Machine.execProbeFillComplete s
  | .nestActivate => Sys2Proof.Machine.execNestActivate s
  | .matrixPassStart => Sys2Proof.Machine.execMatrixPassStart s
  | .matrixPassRetire => Sys2Proof.Machine.execMatrixPassRetire s
  | .mstreamRowEmit => Sys2Proof.Machine.execMstreamRowEmit s
  | .copyComplete => Sys2Proof.Machine.execCopyComplete s
  | .copyErrorComplete => Sys2Proof.Machine.execCopyErrorComplete s
  | .timetableIssue => Sys2Proof.Machine.execTimetableIssue s
  | .accumulateApply => Sys2Proof.Machine.execAccumulateApply s
  | .cwalkSlotFill => Sys2Proof.Machine.execCwalkSlotFill s
  | .putArrival => Sys2Proof.Machine.execPutArrival s
  | .putAck => Sys2Proof.Machine.execPutAck s
  | .pontoonExec => Sys2Proof.Machine.execPontoonExec s
  | .chainFerryFlitArrival => Sys2Proof.Machine.execChainFerryFlitArrival s
  | .sourceRowEmit => Sys2Proof.Machine.execSourceRowEmit s
  | .sinkRowWrite => Sys2Proof.Machine.execSinkRowWrite s
  | .accumulateSinkApply => Sys2Proof.Machine.execAccumulateSinkApply s
  | .fabricRecordDeliver => Sys2Proof.Machine.execFabricRecordDeliver s
  | .fabricRunning => Sys2Proof.Machine.execFabricRunning s
  | .fabricDrain => Sys2Proof.Machine.execFabricDrain s
  | .fabricPhaseComplete => Sys2Proof.Machine.execFabricPhaseComplete s
  | .floadComplete => Sys2Proof.Machine.execFloadComplete s
  | .deviceMemoryRead => Sys2Proof.Machine.execDeviceMemoryRead s
  | .stripeWriteAccept => Sys2Proof.Machine.execStripeWriteAccept s
  | .partialStripeWrite => Sys2Proof.Machine.execPartialStripeWrite s
  | .parityDeltaApply => Sys2Proof.Machine.execParityDeltaApply s
  | .fullStripeWrite => Sys2Proof.Machine.execFullStripeWrite s
  | .reconstructedRead => Sys2Proof.Machine.execReconstructedRead s
  | .refreshCheckReport => Sys2Proof.Machine.execRefreshCheckReport s
  | .stackLoss => Sys2Proof.Machine.execStackLoss s
  | .stackEngineStart => Sys2Proof.Machine.execStackEngineStart s
  | .hCommandComplete => Sys2Proof.Machine.execHCommandComplete s
  | .ringUpdateArrival => Sys2Proof.Machine.execRingUpdateArrival s
  | .barrierArrival => Sys2Proof.Machine.execBarrierArrival s
  | .pbarRelease => Sys2Proof.Machine.execPbarRelease s
  | .messageTake => Sys2Proof.Machine.execMessageTake s
  | .handlerStart => Sys2Proof.Machine.execHandlerStart s
  | .trapEntry => Sys2Proof.Machine.execTrapEntry s
  | .preemptNotice => Sys2Proof.Machine.execPreemptNotice s
  | .victimStopped => Sys2Proof.Machine.execVictimStopped s
  | .partitionEvict => Sys2Proof.Machine.execPartitionEvict s
  | .forcedStop => Sys2Proof.Machine.execForcedStop s
  | .taskResume => Sys2Proof.Machine.execTaskResume s
  | .taskRerun => Sys2Proof.Machine.execTaskRerun s
  | .linkCrcError => Sys2Proof.Machine.execLinkCrcError s
  | .laneRepairDone => Sys2Proof.Machine.execLaneRepairDone s
  | .linkLockLost => Sys2Proof.Machine.execLinkLockLost s
  | .retrainTryEnd => Sys2Proof.Machine.execRetrainTryEnd s
  | .partRetire => Sys2Proof.Machine.execPartRetire s
  | .hostBar2Write => Sys2Proof.Machine.execHostBar2Write s
  | .hostBar2Read => Sys2Proof.Machine.execHostBar2Read s
  | .switchTakeover => Sys2Proof.Machine.execSwitchTakeover s
  | .dvfsVoltageRiseDone => Sys2Proof.Machine.execDvfsVoltageRiseDone s
  | .dvfsFreqSwitchDone => Sys2Proof.Machine.execDvfsFreqSwitchDone s
  | .dvfsVoltageFallDone => Sys2Proof.Machine.execDvfsVoltageFallDone s
  | .pcsnapCapture => Sys2Proof.Machine.execPcsnapCapture s
  | .quiesceDone => Sys2Proof.Machine.execQuiesceDone s
  | .wakeDone => Sys2Proof.Machine.execWakeDone s
  | .thermHot => Sys2Proof.Machine.execThermHot s
  | .thermCrit => Sys2Proof.Machine.execThermCrit s
  | .alarmRaise => Sys2Proof.Machine.execAlarmRaise s
  | .translationWalkDone => Sys2Proof.Machine.execTranslationWalkDone s
  | .matrixDrainComplete => Sys2Proof.Machine.execMatrixDrainComplete s
  | .tileMoveComplete => Sys2Proof.Machine.execTileMoveComplete s
  | .peerLinkDown => Sys2Proof.Machine.execPeerLinkDown s
  | .engineInternalError => Sys2Proof.Machine.execEngineInternalError s

end Sys2Proof.Machine
end

