-- ==== Sys2Proof/Machine/Run.lean ====
section
/-! DEFINITION. What the package does next: the events that are due, the events that have become possible, the contexts
that can act in this tick, and the passing of a tick (05_issue.md R98 to R123; 16_memory_consistency.md R377). One step
is one of these. Where the spec orders several of them in no way, which comes first is free. -/

namespace Sys2Proof.Machine

/-- An event: which, and what it is about. -/
abbrev Ev := Instr × EvArg

/-- One of a list, at a free place. -/
def pick {α : Type} (s : State) (xs : List α) (d : α) : α × State :=
  if xs.length ≤ 1 then (xs.headD d, s)
  else (xs.getD (Config.choose s.free % xs.length) d, { s with free := s.free + 1 })

/-! ### Events -/

/-- The state an event is executed in. -/
def withEv (s : State) (a : EvArg) : State := { s with ev := a }

/-- Executes an event; one that cannot occur any more changes nothing. -/
def runEvent (s : State) (e : Ev) : Res :=
  match exec e.1 (withEv s e.2) with
  | .next t => .next (withEv t {})
  | .fault _ => .next s
  | .refused r => .refused r

/-- An event can occur. -/
def possible (s : State) (e : Ev) : Bool :=
  match exec e.1 (withEv s e.2) with
  | .next _ => true
  | _ => false

/-- The two dies between which the packets of an event go, if it is one that packets bring about. -/
def crossing (s : State) (d : Due) : Option (Nat × Nat) :=
  match d.ev with
  | .translationWalkDone | .accumulateApply | .cwalkSlotFill | .putArrival | .putAck | .copyComplete | .floadComplete =>
    (fget? s.cmds d.arg.a).map fun c => (c.enginePos, c.home)
  | .probeFillComplete => (fillOf s d.arg.a d.arg.b).map fun f => (f.2.enginePos, f.2.home)
  | .semIncrementArrival => (fget? s.syncs d.arg.v.toNat).map fun u => (posOfCtx u.ctx, u.core)
  | _ => none

/-- The packets of an event are not kept waiting by a repair or a retrain (R416, R417). -/
def packetsGo (s : State) (d : Due) : Bool := (crossing s d).all fun p => packetOpen s p.1 p.2

/-- The events that are due. -/
def dueEvents (s : State) : List Due :=
  s.agenda.filter fun d => packetsGo s d && d.at_ ≤ match d.clk with
    | some cl => s.clkOf cl
    | none => s.tb

/-- Executes an event that is due: it leaves the agenda. -/
def runDue (s : State) (d : Due) : Res := runEvent { s with agenda := s.agenda.erase d } (d.ev, d.arg)

/-- The waiting heads of queues. -/
def waitEvents (s : State) : List Ev :=
  s.ctxs.flatMap fun e => ([Queue.l, .c, .s, .f].filter fun q =>
    ((e.2.queue q).head?).any fun h => h.tokDone && fget e.2.qtry q.code 0 ≤ s.clk e.1 && mayAct s e.1).map fun q =>
      (.waitSatisfied, { a := e.1, q := q })

/-- Messages and handlers (R372). -/
def messageEvents (s : State) : List Ev :=
  ((s.msgs.filter fun e => e.2.due ≤ s.tb && packetOpen s (posOfCtx e.2.ctx) (s.part e.2.part).pos).map fun e => (.messageTake, { a := e.1 })) ++
  (s.pcores.filter fun e => (firstReady e.2).isSome).map fun e => (.handlerStart, { a := e.1 / 64, b := e.1 % 64 })

/-- Deferred arrivals and increments (R365, R369). -/
def syncEvents (s : State) : List Ev :=
  (s.syncs.filter fun e => !e.2.after.isEmpty && syncReady s e.2).map fun (i, u) =>
    if u.kind = 2 then (.barrierArrival, { a := i })
    else (.semIncrementArrival,
      { a := u.core, b := u.ix, c := u.amount, d := (s.part u.part).task, v := BitVec.ofNat 64 i })

/-- Package barriers (R368). -/
def pbarEvents (s : State) : List Ev :=
  s.tasks.flatMap fun (t, k) =>
    (k.pbars.map fun (e : Nat × PBar) => ((.pbarRelease, { a := t, b := e.1 }) : Ev))

/-- Contexts that end (R116). -/
def contextEvents (s : State) : List Ev :=
  s.ctxs.flatMap fun (ck, c) => if c.run = .draining then [((.contextEnd, { a := ck }) : Ev)] else []

/-- Contexts in which a fault has arisen (R398): the trap is entered when nothing else of the clk is left. -/
def trapEvents (s : State) : List Ev :=
  s.ctxs.flatMap fun (ck, c) => if c.pend.isEmpty then [] else [((.trapEntry, { a := ck }) : Ev)]

/-- The matrix engines: nests that begin or go on, rows of streams (R253, R260, R270). -/
def engineEvents (s : State) : List Ev :=
  s.mxs.flatMap fun (k, x) =>
    (if x.queued.isSome then [((.nestActivate, { a := k }) : Ev)] else []) ++
    (if x.active.isSome then [(.matrixPassStart, { a := k })] else []) ++
    (x.ops.filter fun e => !e.2.rows.isEmpty).map fun e => (.mstreamRowEmit, { a := k, b := e.1 })

/-- The links over which rows of a fabric are on their way. -/
def linksInUse (f : Fab) : List Nat :=
  (f.flights.filterMap fun x => match x.dest with
    | .link i => some i
    | _ => none).eraseDups

/-- The fabric of a task (R305 to R333). -/
def fabricEvents (s : State) : List Ev :=
  s.fabs.flatMap fun (t, f) =>
    [((.fabricRunning, { a := t }) : Ev), (.fabricDrain, { a := t }), (.fabricPhaseComplete, { a := t })] ++
    (f.pons.map fun (e : Nat × Pon) => ((.pontoonExec, { a := t, b := e.1 }) : Ev)) ++
    ((linksInUse f).map fun i => (.chainFerryFlitArrival, { a := t, b := i })) ++
    (f.buffer.map fun e => e.1).eraseDups.map fun v => (.fabricRecordDeliver, { a := t, b := v })

/-- Rows on their way to stream ports that are not bound as sinks (R318). -/
def strayRows (s : State) : List Ev :=
  s.fabs.flatMap fun (t, f) => (f.flights.filterMap fun x => match x.dest with
    | .sink v sp =>
      if (s.sport (16 * partKey t v + sp)).any (·.kind != 0) then none
      else some ((.sinkRowWrite, { a := partKey t v, b := sp }) : Ev)
    | _ => none).eraseDups

/-- The stream ports that are bound (R318, R329). -/
def portEvents (s : State) : List Ev :=
  strayRows s ++ s.sports.map fun (key, p) =>
    (if p.kind = 0 then .sourceRowEmit else if p.kind = 1 then .sinkRowWrite else .accumulateSinkApply,
      { a := key / 16, b := key % 16 })

/-- The clusters: timed commands and quiescing (R291, R435). -/
def clusterEvents (s : State) : List Ev :=
  ((s.cmds.filter fun e => e.2.timed).map fun e => e.2.engine).eraseDups.map (fun cl => ((.timetableIssue, { a := cl }) : Ev)) ++
  (s.clusters.filter fun e => e.2.qstate == 1).map fun e => (.quiesceDone, { a := e.1 })

/-- Graph queues, nodes and graphs (R24 to R31, R48, R289). -/
def graphEvents (s : State) : List Ev :=
  ((s.queues.filter fun e => e.2.pend != 0).map fun e => ((.graphStart, { a := e.1 }) : Ev)) ++
  ((s.ferries.filter fun e => !e.2.ready.isEmpty || !e.2.waits.isEmpty).flatMap fun e =>
    [Instr.taskNode, .condNode, .loopNode, .waitNode, .signalNode, .copyNode, .progNode, .endNode].map fun i =>
      (i, { a := e.1 })) ++
  (s.graphs.filter fun e => e.2.abort.isSome).map fun e => (.graphAbort, { a := e.1 })

/-- Parts: their command records and their end (R41, R420). -/
def partEvents (s : State) : List Ev :=
  (s.parts.filter fun e => !e.2.retired).flatMap fun e =>
    [Instr.cmdNop, .cmdCopy, .cmdIload, .cmdStart, .partRetire].map fun i => ((i, { a := e.1 }) : Ev)

/-- Tasks and the placer (R49, R50, R405 to R408, R414, R428). -/
def taskEvents (s : State) : List Ev :=
  (s.tasks.flatMap fun (t, k) =>
    match k.run with
    | .waiting => [((.agingStep, { a := t }) : Ev)]
    | .stopping => [(.victimStopped, { a := t }), (.forcedStop, { a := t })]
    | .stopped => (.agingStep, { a := t }) :: k.places.flatMap fun pl =>
        pl.cores.map fun c => (.partitionEvict, { a := partKey t pl.vdie, b := c.1 })
    | .ending => [(.taskRerun, { a := t })]
    | _ => []) ++
  (if s.placerDue then [((.placerPass, ({} : EvArg)) : Ev)] else []) ++
  if s.alive s.root then [] else [((.switchTakeover, ({} : EvArg)) : Ev)]

/-- The events that may have become possible. -/
def scanned (s : State) : List Ev :=
  waitEvents s ++ contextEvents s ++ messageEvents s ++ syncEvents s ++ pbarEvents s ++ engineEvents s ++ fabricEvents s ++
  portEvents s ++ clusterEvents s ++ graphEvents s ++ partEvents s ++ taskEvents s

/-! ### Contexts -/

/-- What a context can do in a tick: issue the head of a queue, let its front lane take effect, fetch a line or a line of
a loop body, or go on with its loop. -/
inductive Act where
  | issue (q : Queue)
  | lane (x : Bool)
  | fetch
  | body
  | loop
  deriving DecidableEq, Repr

/-- The resource of the core an act uses (R115): the fetch port, an issue slot, or none. -/
def Act.resource : Act → Option Nat
  | .issue q => some q.code
  | .lane x => if x then some Queue.x.code else none
  | .fetch => some 0
  | .body => some 0
  | .loop => none

/-- The head of a queue that may issue in this tick but for the scoreboard and the issue slot (R106). -/
def headReady (s : State) (ck : Nat) (c : Ctx) (q : Queue) : Bool :=
  match c.queue q with
  | [] => false
  | e :: _ => !e.tokDone && headDue c e ≤ s.clk ck && tokensHold c e

/-- What the front end of a context can do in this tick (R99, R116, R119). -/
def frontActs (s : State) (ck : Nat) (c : Ctx) : List Act :=
  match c.lanes with
  | l :: _ => if c.startable && (laneDue c l).any (· ≤ s.clk ck) then [.lane (l.q == .x && c.dly.isNone)] else []
  | [] =>
    if c.run ≠ .running ∨ s.clk ck < c.fetchAt ∨ fetchParked s ck then []
    else match frameSeq s ck with
      | some q => [if q.body.length < q.n then .body else .loop]
      | none => [.fetch]

/-- What a context can do in this tick but for its core's arbitration. -/
def actsOf (s : State) (ck : Nat) (c : Ctx) : List Act :=
  if (c.run == .running || c.run == .draining) && mayAct s ck && !c.faultAt.any (· < s.clk ck) then
    (([Queue.l, .c, .s, .f].filter (headReady s ck c)).map .issue) ++ frontActs s ck c
  else []

/-- What every context can do. -/
def allActs (s : State) : List (Nat × Act) := s.ctxs.flatMap fun (ck, c) => (actsOf s ck c).map fun a => (ck, a)

/-- An act wins its resource (R115). -/
def wins (s : State) (all : List (Nat × Act)) (e : Nat × Act) : Bool :=
  match e.2.resource with
  | none => true
  | some r =>
    let core := coreOf e.1
    let t := s.slot core r
    let same := all.filter fun f => coreOf f.1 == core && f.2.resource == some r
    t.free ≤ s.clk e.1 && arbiter t (same.map fun f => ctxNo f.1) == some (ctxNo e.1)

/-- The instruction an act executes or enqueues. -/
def Act.instr (c : Ctx) : Act → Option Instr
  | .issue q => (c.queue q).head?.map Entry.instr
  | .lane _ => c.lanes.head?.map Lane.instr
  | _ => none

/-- An instruction whose request counts against the limit of its core (R180), when it issues or executes. -/
def takesRequest : Instr → Bool
  | .cpy _ _ _ | .cpyt _ _ _ _ | .cacc _ _ _ _ _ | .caccf _ _ _ _ _ | .cswp _ _ _ _ _ _ _ | .ccas _ _ _ _ _ _ _
  | .cpsm _ _ _ _ | .cwalk _ _ _ _ _ _ _ | .cgath _ _ _ | .cscat _ _ _ | .cput _ _ _ _ | .tmov _ _ _ _ _
  | .ownC _ _ _ _ | .send _ _ _ | .probe _ _ _ _ => true
  | _ => false

/-- The act asks for a request of its core: a head that issues, or a PROBE. -/
def Act.asks (c : Ctx) (a : Act) : Bool :=
  match a with
  | .issue _ => (a.instr c).any takesRequest
  | .lane x => x && (a.instr c).any takesRequest
  | _ => false

/-- What a clk brings first: lanes and steps of loops, then the heads of queues, which meet what has enqueued in the clk, then
the fetch of the lines after them (R99, R115). A PROBE comes with the heads it shares the requests of its core with (R181). -/
def actPhase (s : State) (e : Nat × Act) : Nat :=
  match e.2 with
  | .lane _ => if e.2.asks (s.ctx e.1) then 1 else 0
  | .loop => 0
  | .issue _ => 1
  | .fetch | .body => 2

/-- The rank of an act among those of its core that ask for a request (R181): by context in the order of R115. -/
def requestRank (e : Nat × Act) : Nat :=
  let q := match e.2 with
    | .issue q => q.code
    | _ => 0
  8 * (if ctxNo e.1 = 0 then 8 else ctxNo e.1) + q

/-- An act comes after another of its core that asks for a request too (R181). -/
def behind (s : State) (ws : List (Nat × Act)) (e : Nat × Act) : Bool :=
  e.2.asks (s.ctx e.1) && ws.any fun f =>
    coreOf f.1 == coreOf e.1 && f.2.asks (s.ctx f.1) && requestRank f < requestRank e

/-- The acts that take place next in this tick. -/
def readyActs (s : State) : List (Nat × Act) :=
  let all := allActs s
  let ws := all.filter (wins s all)
  let first := (ws.map (actPhase s)).foldl min 2
  let ws := ws.filter fun e => actPhase s e == first
  ws.filter fun e => !behind s ws e

/-- Issues the head of a queue (R106). -/
def issueHead (s : State) (ck : Nat) (q : Queue) : Res :=
  match (s.ctx ck).queue q with
  | [] => .next s
  | e :: _ =>
    match scoreboard s ck e with
    | .hold s => .next s
    | .trap v => .next (tryLater { ({ s with iss := latchHead ck e }.raise cSchedViolation v) with iss := {} } ck q)
    | .go =>
      match exec e.instr { s with iss := latchHead ck e } with
      | .next t => .next (afterHead s t ck e)
      | .fault f => .fault f
      | .refused r => .refused r

/-- Executes the X lane at the front of a context. -/
def runX (s : State) (ck : Nat) (l : Lane) : Res :=
  match exec l.instr (beforeX s ck l) with
  | .next t => .next (afterX s t ck)
  | .fault f => .fault f
  | .refused r => .refused r

/-- The lane at the front takes effect: an X lane executes; another enqueues, and issues at once where that is all that is
left for the clk to bring. -/
def runLane (s : State) (ck : Nat) : Res :=
  match (s.ctx ck).lanes with
  | [] => .next s
  | l :: _ =>
    if l.q = .x then runX s ck l
    else
      let s := enqueueLane s ck
      if readyActs s == [(ck, .issue l.q)] then issueHead s ck l.q else .next s

/-- A context acts. -/
def runAct (s : State) (ck : Nat) : Act → Res
  | .issue q => issueHead s ck q
  | .lane _ => runLane s ck
  | .fetch => .next ((fetchLine s ck).useSlot ck 0 1)
  | .body => .next ((fetchBody s ck).useSlot ck 0 1)
  | .loop => .next (stepLoop s ck)

/-! ### The step -/

/-- The end of a tick. -/
def tick (s : State) : State :=
  let s := endSwrs (sourceTick (engineTick (bankTick (countPower (countLoops (markStops (stopFaults s)))))))
  releaseDeferred
    { s with tb := s.tb + 1, clusters := s.clusters.map fun (e : Nat × Cluster) => (e.1, e.2.advance (hasClock s e.1)) }

/-- What the package does next: an event that is due; else an event that has become possible; else something a context
does in this tick; else a trap that is entered; else the tick ends. Under the halt of R438 only time passes (DESIGN CHOICE, notes/assumptions/6.md). -/
def next (s : State) : Res :=
  if s.halted then .next { s with tb := s.tb + 1 }
  else
    match dueEvents s with
    | d :: ds => let (d, s) := pick s (d :: ds) d; runDue s d
    | [] =>
      match (scanned s).filter (possible s) with
      | e :: es => let (e, s) := pick s (e :: es) e; runEvent s e
      | [] =>
        match readyActs s with
        | a :: as => let (a, s) := pick s (a :: as) a; runAct s a.1 a.2
        | [] =>
          match (trapEvents s).filter (possible s) with
          | e :: es => let (e, s) := pick s (e :: es) e; runEvent s e
          | [] => .next (tick s)

/-! ### A machine about to run one instruction -/

/-- The core kind, the queue and the lanes for an instruction of a map: a matrix core for the matrix C map, else a vector
core. -/
def slotFor (mp : OpMap) (i : Instr) : Nat × Queue :=
  let opc := ((encode i).map fun e => e.fld.opc.toNat).getD 0
  match mp with
  | .x => (32, .x)
  | .f => (32, .f)
  | .e => (0, .c)
  | .v => (32, .c)
  | .m => (32, if legalIn .m opc .l then .l else .s)

/-- A line that holds one instruction in lane 1, and its extension in lane 2. -/
def lineFor (q : Queue) (w e : Word) (wide : Bool) : FetchLine :=
  BitVec.ofNat 256 (q.code * 2 ^ 4 + (if wide then 5 * 2 ^ 8 else 0) + w.toNat * 2 ^ 32 + e.toNat * 2 ^ 64)

/-- Places an instruction where the next step meets it: line 0 of the store of a core that runs ctx0 of a task of one
die, fetched in the clk before, since a line takes effect in the clk after its fetch (R99). Its windows, the task and the part
are those a launch would leave. -/
def placeWord (s : State) (w e : Word) : State :=
  match decodeAnyMap w e with
  | none => s
  | some (mp, i) =>
    let (core, q) := slotFor mp i
    let wide := isWide (((encode i).map fun e => e.fld.opc.toNat).getD 0)
    let pos := posOf core
    let p := partKey 1 0
    let ck := ctxKey core 0
    let pl : Place := { vdie := 0, pos := pos, cores := [(physOf core, 0)], cbases := [(clusterOf core, 0)] }
    let la : Launch := { ver := 1, dies := [{ kind := kindOf pos, ncore := 1, upart := 4, cpart := 4, dpart := 1, nsem := 4 }] }
    let t : State := { s with
      agenda := []
      tasks := [(1, { launch := la, run := .running, places := [pl], started := true })]
      parts := [(p, { task := 1, pos := pos, begun := true })]
      pcores := [(pcoreKey p (physOf core), {})]
      clusters := fset s.clusters (clusterOf core) { s.cluster (clusterOf core) with powered := true, gap := false }
      istore := fset s.istore (8192 * core) (lineFor q w e wide)
      ctxs := [(ck, { run := .running, part := p, started := true, xnext := s.clk ck, fetchAt := s.clk ck })] }
    (fetchLine t ck).onCtxOf ck fun c => { c with front := s.clk ck }

end Sys2Proof.Machine
end

