-- ==== Sys2Proof/Machine/Step.lean ====
section
/-! DEFINITION. One step of the package (Sys2Proof.Machine.next), and a state about to run one given instruction. -/

namespace Sys2Proof.Machine

/-- One step of the package. -/
def step (s : State) : Host.Outcome State Fault Refusal := next s

/-- The state with one instruction, given as its table word, where the next step fetches and runs it: a running context
of a loaded task (DESIGN CHOICE, notes/assumptions/4.md). The extension word of a wide form is the second word of the table word. -/
def State.withFetchWord (s : State) (_nbits w : Nat) : State :=
  placeWord s (BitVec.ofNat 32 w) (BitVec.ofNat 32 (w / 2 ^ 32))

end Sys2Proof.Machine
end

