-- ==== Sys2Proof/Safety.lean ====
section
/-! DEFINITION. The terms in which statements about the machine are made: which part of the state a step may change, and
what it means that an instruction completes with a result. -/

namespace Sys2Proof.Machine

/-! ### Frames -/

/-- From s to t nothing changes outside the contexts (no byte of memory, no engine, no table of the package), and of the
contexts none but the one whose instruction is executed. -/
def OnlyThisCtx (s t : State) : Prop :=
  { t with ctxs := s.ctxs } = s ∧ ∀ k, k ≠ s.iss.ctx → t.ctx k = s.ctx k

/-- From s to t only the x register a field names may change, with the clk from which it can be read: every other x
register, every predicate, vector and mask register, every flag and system register, the line counter, the queues, memory
and everything else is as it was. -/
def OnlyX (s t : State) (d : BitVec 5) : Prop :=
  OnlyThisCtx s t ∧ { t.cc with x := s.cc.x, xrdy := s.cc.xrdy } = s.cc ∧
    ∀ k, k ≠ physX s.iss.rot d.toNat →
      t.cc.getX k = s.cc.getX k ∧ fget t.cc.xrdy k 0 = fget s.cc.xrdy k 0

/-- From s to t only one predicate may change, with the clk from which it can be read. -/
def OnlyP (s t : State) (k : BitVec 3) : Prop :=
  OnlyThisCtx s t ∧ { t.cc with p := s.cc.p, prdy := s.cc.prdy } = s.cc ∧
    ∀ j : BitVec 3, j ≠ k → t.rdP j.toNat = s.rdP j.toNat

/-! ### Completion with a result -/

/-- The instruction completes, and what it does is to write v to x[d], to be read n clks on, and no earlier than an earlier
writer of it lets it be (R100); a write to x0 is discarded (R124). -/
def GivesX (s : State) (i : Instr) (d : BitVec 5) (v : DWord) (n : Nat) : Prop :=
  ∃ t, exec i s = .next t ∧ OnlyX s t d ∧
    if d = 0 then t.cc = s.cc
    else t.rdX d = v ∧
      fget t.cc.xrdy (physX s.iss.rot d.toNat) 0 = max (fget s.cc.xrdy (physX s.iss.rot d.toNat) 0) (s.now + n)

/-- The instruction completes, and what it does is to write b to p[k], to be read one clk on, and no earlier than an earlier
writer of it lets it be; a write to p0 is discarded (R124). -/
def GivesP (s : State) (i : Instr) (k : BitVec 3) (b : Bool) : Prop :=
  ∃ t, exec i s = .next t ∧ OnlyP s t k ∧
    if k = 0 then t.cc = s.cc
    else t.rdP k.toNat = b ∧ fget t.cc.prdy k.toNat 0 = max (fget s.cc.prdy k.toNat 0) (s.now + 1)

/-! ### Terms of the scalar instructions -/

/-- R133: n is the number of zero bits above the highest set bit of v; 64 if v = 0. -/
def LeadingZeros (v : DWord) (n : Nat) : Prop :=
  (v = 0 → n = 64) ∧ (v ≠ 0 → n < 64 ∧ v.getLsbD (63 - n) = true) ∧ ∀ j, 64 - n ≤ j → v.getLsbD j = false

/-- R133: n is the number of zero bits below the lowest set bit of v; 64 if v = 0. -/
def TrailingZeros (v : DWord) (n : Nat) : Prop :=
  (v = 0 → n = 64) ∧ (v ≠ 0 → n < 64 ∧ v.getLsbD n = true) ∧ ∀ j, j < n → v.getLsbD j = false

/-- R130, R131: the outcome of condition m on two integers. -/
def Condition (m : Nat) (a b : Int) : Prop :=
  match m with
  | 0 => a = b
  | 1 => a ≠ b
  | 2 => a < b
  | 3 => a ≥ b
  | 4 => a ≤ b
  | _ => a > b

/-- R135: the amount of a bit-field or funnel form: IMM, or x[XS][5:0]. -/
def amountOf (s : State) (xs : BitVec 5) (xr : BitVec 1) (im : BitVec 6) : Nat :=
  if xr = 0 then im.toNat else (s.rdX xs).toNat % 64

/-! ### Terms of control transfer and traps -/

/-- From s to t only the next line of the context changes, and how it is reached: it is fetched at lane 0 by a transfer, no
earlier than the clk after it (R116). -/
def OnlyNextLine (s t : State) (line : Nat) : Prop :=
  OnlyThisCtx s t ∧ t.cc.pc = line ∧ t.cc.fromLane = 0 ∧ t.cc.reach = .flow ∧ t.cc.fetchAt = max s.cc.fetchAt (s.now + 1) ∧
    { t.cc with pc := s.cc.pc, fromLane := s.cc.fromLane, reach := s.cc.reach, fetchAt := s.cc.fetchAt } = s.cc

/-- The instruction completes, and what it does is to make a line the next to be fetched (R78, R116). -/
def GoesTo (s : State) (i : Instr) (line : Nat) : Prop := ∃ t, exec i s = .next t ∧ OnlyNextLine s t line

/-- The instruction completes, makes a line the next to be fetched, and writes L + 1 to x[d], to be read one clk on; a
write to x0 is discarded. -/
def LinksTo (s : State) (i : Instr) (d : BitVec 5) (line : Nat) : Prop :=
  ∃ t u, exec i s = .next t ∧ OnlyNextLine u t line ∧ OnlyX s u d ∧
    if d = 0 then u.cc = s.cc
    else u.rdX d = BitVec.ofNat 64 (s.iss.line + 1) ∧
      fget u.cc.xrdy (physX s.iss.rot d.toNat) 0 = max (fget s.cc.xrdy (physX s.iss.rot d.toNat) 0) (s.now + 1)

/-- From s to t a fault arises in a context, and nothing else happens but that the instruction being executed is known not to
complete: the fault is the last of those pending, and from this clk on, or from an earlier fault's, the context stops (R398,
R399). -/
def Faults (s t : State) (p : Pending) : Prop :=
  { t with ctxs := s.ctxs, iss := s.iss } = s ∧ t.iss = { s.iss with faulted := true } ∧
    (∀ k, k ≠ s.iss.ctx → t.ctx k = s.ctx k) ∧
    t.cc = { s.cc with pend := s.cc.pend ++ [p], faultAt := some (s.cc.faultAt.getD s.now) }

/-- From s to t a context enters its trap handler for a fault (R397 to R399): the trap registers name it, the queues and the
token FIFOs are empty, the handler's line is fetched in the next clk; the registers, the seeds, TVEC, memory and every other
context keep their values. -/
def EntersTrap (ck : Nat) (s t : State) (p : Pending) : Prop :=
  let b := s.ctx ck
  let c := t.ctx ck
  c.tcode = p.cause ∧ c.tkind = p.kind ∧ c.intrap = true ∧ c.tline = p.line % 8192 ∧ c.tlane = p.lane ∧ c.tqc = p.qc ∧
    c.tskip = false ∧ c.tval = p.val ∧ c.run = .running ∧ c.pc = b.tvecLine.toNat ∧ c.fromLane = 0 ∧ c.lanes = [] ∧
    c.fetchAt = s.clk ck + 1 ∧ c.faultAt = none ∧
    c.ql = [] ∧ c.qc = [] ∧ c.qs = [] ∧ c.qf = [] ∧ c.toks = {} ∧ c.outst = {} ∧ c.frame.isSome = true ∧
    c.x = b.x ∧ c.p = b.p ∧ c.v = b.v ∧ c.vm = b.vm ∧ c.hs = b.hs ∧ c.tvecLine = b.tvecLine ∧ c.tvecEn = true ∧
    t.mem = s.mem ∧ ∀ k, k ≠ ck → t.ctx k = s.ctx k

/-- The entries of a queue in a trap frame. -/
def Frame.queue (f : Frame) : Queue → List Entry
  | .l => f.ql
  | .c => f.qc
  | .s => f.qs
  | .f => f.qf
  | .x => []

/-- The resume point of ERET: the line and its first lane that takes effect (R402). -/
def resumeAt (c : Ctx) (f : Frame) : Nat × Nat :=
  let r := if c.tskip = true ∧ c.tkind = 0 then (c.tline + 1, 0)
    else if c.tskip = true ∧ c.tkind = 1 ∧ c.tqc = 1 then (c.tline, c.tlane + 1)
    else (f.line, f.lane)
  if 8 ≤ r.2 then (r.1 + 1, 0) else r

/-- An entry of the frame that ERET puts back: the marked entry is removed where SKIP is set for an execution fault of a
queued instruction (R402). -/
def keptAtReturn (c : Ctx) (e : Entry) : Bool := !(c.tkind == 1 && c.tskip && c.tqc != 1 && e.marked)

/-! ### Terms of the system registers and the probe table -/

/-- A number of R148 that names a register on a core of some kind. -/
def AssignedNumber (core n : Nat) : Prop :=
  (0x040 ≤ n ∧ n ≤ 0x061) ∨ (0x100 ≤ n ∧ n ≤ 0x106) ∨ (0x110 ≤ n ∧ n ≤ 0x115) ∨
    (core < 192 ∧
      (n = 0x07E ∨ (0x080 ≤ n ∧ n ≤ 0x095) ∨ (0x0A0 ≤ n ∧ n ≤ 0x0B5) ∨ n = 0x0C0 ∨ n = 0x0C1 ∨
        (0x121 ≤ n ∧ n ≤ 0x12F) ∨ (0x130 ≤ n ∧ n ≤ 0x137) ∨ (n = 0x140 ∧ 32 ≤ core) ∨ (0x200 ≤ n ∧ n ≤ 0x281)))

/-- An SWR of v to number n completes; its write, and nothing else, is to come at the end of the clk (R147). -/
def WritesLater (s : State) (i : Instr) (n : Nat) (v : DWord) : Prop :=
  exec i s = .next { s with swrs := s.swrs ++ [⟨s.iss.ctx, n, v⟩] }

/-- An SWR completes, and what it does at the end of its clk is to change its context by f. -/
def SetsCtx (s : State) (i : Instr) (n : Nat) (v : DWord) (f : Ctx → Ctx) : Prop :=
  WritesLater s i n v ∧ ∀ u : State, u.swrs = [⟨s.iss.ctx, n, v⟩] → (fget? u.ctxs s.iss.ctx).isSome = true →
    let t := endSwrs u
    { t with ctxs := u.ctxs, swrs := u.swrs } = u ∧ t.swrs = [] ∧ (∀ k, k ≠ s.iss.ctx → t.ctx k = u.ctx k) ∧
      t.ctx s.iss.ctx = f (u.ctx s.iss.ctx)

/-- The instruction completes, and what it does is to change what the cluster of its core holds. -/
def SetsCluster (s : State) (i : Instr) (f : Cluster → Cluster) : Prop :=
  ∃ t, exec i s = .next t ∧ { t with clusters := s.clusters } = s ∧
    (∀ k, k ≠ clusterOf (coreOf s.iss.ctx) → t.cluster k = s.cluster k) ∧
    t.cluster (clusterOf (coreOf s.iss.ctx)) = f (s.cluster (clusterOf (coreOf s.iss.ctx)))

/-- The cluster of the core being executed. -/
def State.myCluster (s : State) : Cluster := s.cluster (clusterOf (coreOf s.iss.ctx))

/-- What the core of the context being executed holds for its part. -/
def State.myCore (s : State) : PartCore := s.pcore (s.myPcore s.iss.ctx)

/-- An SWR completes, and what it does at the end of its clk is to change what the core holds for the part by f, where P
holds of that. -/
def SetsPartCore (s : State) (i : Instr) (n : Nat) (v : DWord) (P : PartCore → Prop) (f : PartCore → PartCore) : Prop :=
  WritesLater s i n v ∧ ∀ u : State, u.swrs = [⟨s.iss.ctx, n, v⟩] → (fget? u.ctxs s.iss.ctx).isSome = true →
    let key := u.myPcore s.iss.ctx
    P (u.pcore key) →
    let t := endSwrs u
    { t with pcores := u.pcores, swrs := u.swrs } = u ∧ t.swrs = [] ∧ (∀ k, k ≠ key → t.pcore k = u.pcore k) ∧
      t.pcore key = f (u.pcore key)

/-- The part of the context being executed holds a probe table of at least one set (R165, R170). -/
def HasTable (s : State) : Prop :=
  (s.ctx s.iss.ctx).part ≠ 0 ∧ s.myCluster.ppart = (s.ctx s.iss.ctx).part ∧ s.myCluster.sets ≠ 0

/-! ### Terms of the queued instructions -/

/-- From s to t nothing changes outside the context being executed but that completions are added to the agenda and free
values are taken: no byte of memory changes. -/
def OnlyQueued (s t : State) : Prop :=
  { t with ctxs := s.ctxs, agenda := s.agenda, free := s.free } = s ∧ (∀ k, k ≠ s.iss.ctx → t.ctx k = s.ctx k) ∧
    ∃ new, t.agenda = s.agenda ++ new

/-- From one context to the next only what counts the work in progress changes: posts that are due, C instructions, the clks by
which what a queue has issued completes and has performed its accesses. -/
def OnlyCounts (c d : Ctx) : Prop :=
  { d with outst := c.outst, cbusy := c.cbusy, qdone := c.qdone, acc := c.acc } = c

/-- From s to t, x[d] is written with v and stops being pending; no byte of memory changes, and of the rest of the machine
only the counts of work in progress and the agenda. -/
def XLanded (s t : State) (d : BitVec 5) (v : DWord) : Prop :=
  OnlyQueued s t ∧ OnlyCounts s.cc { t.cc with x := s.cc.x, xrdy := s.cc.xrdy, xpend := s.cc.xpend } ∧
    (d ≠ 0 → t.cc.getX (physX s.iss.rot d.toNat) = v) ∧
    ∀ k, k ≠ physX s.iss.rot d.toNat → t.cc.getX k = s.cc.getX k ∧ fget t.cc.xpend k 0 = fget s.cc.xpend k 0

/-- The queued instruction completes, and what it does is to write v to x[d]. -/
def LandsX (s : State) (i : Instr) (d : BitVec 5) (v : DWord) : Prop := ∃ t, exec i s = .next t ∧ XLanded s t d v

/-- A byte as a core access reads it (R160): the byte at its home, 0 where the access offends. -/
def coreByte (s : State) (a : Nat) : Byte :=
  match judgeCore s (s.windows s.iss.ctx) a with
  | .inl k => mget s.mem k
  | .inr _ => 0

/-- An access of n bytes lies in the windows of the context and in no engine-owned tile that counts (R158, R160). -/
def InReach (s : State) (a n : Nat) : Prop := firstOffence s (s.windows s.iss.ctx) a n = none

/-- The n bytes from a, the first least significant (R1), extended to 64 bits with their sign or with zeros. -/
def extended (s : State) (a n : Nat) (signed : Bool) : DWord :=
  let v := leNat ((List.range n).map fun i => coreByte s (a + i))
  if signed then BitVec.ofInt 64 (if v < 2 ^ (8 * n - 1) then (v : Int) else (v : Int) - 2 ^ (8 * n)) else BitVec.ofNat 64 v

/-- The effective address of a scalar access, a number of 64 bits (R153). -/
def scalarAddr (s : State) (i : BitVec 8) (size : Nat) : Nat := (s.iss.xa + BitVec.ofInt 64 (i.toInt * size)).toNat

/-- From s to t memory changes only at the homes of the bytes stored from a on; those hold bs, and an engine-owned tile or
an address out of range keeps what it holds. -/
def StoresAt (s t : State) (a : Nat) (bs : List Byte) : Prop :=
  (∀ i k, i < bs.length → judgeCore s (s.windows s.iss.ctx) (a + i) = .inl k → mget t.mem k = bs.getD i 0) ∧
    ∀ k, (∀ i, i < bs.length → judgeCore s (s.windows s.iss.ctx) (a + i) ≠ .inl k) → mget t.mem k = mget s.mem k

/-- A load of one size and kind completes with the extended bytes; it traps where its address is not aligned; an offending
byte reads as 0 and sets the sticky flag of the context, or traps under SPCTL.TRAP (R153, R160, R161). -/
def ScalarLoad (s : State) (i : Instr) (d : BitVec 5) (m : BitVec 8) (size : Nat) (signed : Bool) : Prop :=
  let ea := scalarAddr s m size
  (ea % size ≠ 0 → exec i s = .next (s.raise cMisaligned (BitVec.ofNat 64 ea))) ∧
  (ea % size = 0 → InReach s ea size → LandsX s i d (extended s ea size signed)) ∧
  ∀ y k, ea % size = 0 → firstOffence s (s.windows s.iss.ctx) ea size = some (y, k) →
    let flagged := s.onCtx fun c => stickyOffence c s.iss.q s.now y k
    (s.cc.sptrap = true →
      exec i s = .next (flagged.raise (if k = 0 then cOutOfRange else cNotOwned) (BitVec.ofNat 64 y))) ∧
    (s.cc.sptrap = false → ∃ t, exec i s = .next t ∧ XLanded flagged t d (extended s ea size signed))

/-- A store of one size completes: its bytes stand where the address leads, every other byte of memory is as before, and
of the rest of the machine only the counts of its queue and the agenda change; it traps where its address is not aligned
(R153). -/
def ScalarStore (s : State) (i : Instr) (m : BitVec 8) (size : Nat) : Prop :=
  let ea := scalarAddr s m size
  (ea % size ≠ 0 → exec i s = .next (s.raise cMisaligned (BitVec.ofNat 64 ea))) ∧
  (ea % size = 0 → InReach s ea size → Memory.wf s.mem = true →
    ∃ t, exec i s = .next t ∧ StoresAt s t ea (leBytes size s.iss.xd.toNat) ∧ OnlyQueued s { t with mem := s.mem } ∧
      OnlyCounts s.cc t.cc) ∧
  ∀ y k, ea % size = 0 → firstOffence s (s.windows s.iss.ctx) ea size = some (y, k) →
    let flagged := s.onCtx fun c => stickyOffence c s.iss.q s.now y k
    (s.cc.sptrap = true →
      exec i s = .next (flagged.raise (if k = 0 then cOutOfRange else cNotOwned) (BitVec.ofNat 64 y))) ∧
    (s.cc.sptrap = false → Memory.wf s.mem = true →
      ∃ t, exec i s = .next t ∧ StoresAt s t ea (leBytes size s.iss.xd.toNat) ∧ OnlyQueued flagged { t with mem := s.mem } ∧
        OnlyCounts flagged.cc t.cc)

/-! ### Terms of the vector instructions -/

/-- The completion that a queued instruction with the posts of h puts on the agenda, n clks of its cluster on, with the flags it sets
(R103, R212): one of the C queue always, another only where it posts. -/
def CompletesIn (s t : State) (h : Hdr) (n : Nat) (fl : Flags) : Prop :=
  t.agenda = s.agenda ++
    (if h.pp || h.pn || s.iss.q = .c then
      [⟨s.now + n, .instructionComplete, { a := s.iss.ctx, b := s.iss.lineNo, q := s.iss.q, f := h.pp, g := h.pn, v := fl.zeroExtend 64 },
        some (clusterOf (coreOf s.iss.ctx))⟩]
    else [])

/-- The flags are those that one of the elements taking part sets, and no other (R211). -/
def FlagsOf (s : State) (k : BitVec 1) (g : Nat → Flags) (fl : Flags) : Prop :=
  ∀ m, m < 10 → (fl.getLsbD m = true ↔ ∃ j, j < 1024 ∧ s.active k j = true ∧ (g j).getLsbD m = true)

/-- Only vector registers, with the clks of their scoreboard, and the counts of work in progress may differ. -/
def OnlyV (c d : Ctx) : Prop :=
  OnlyCounts c { d with v := c.v, re := c.re, rx := c.rx, late := c.late, far := c.far }

/-- The cross-row instruction completes, and what it does is to write f to the elements of v[d] that take part, n clks on, with
the flags that g gives for them. Elements that take no part, every other vector register, every mask register, every byte of
memory and everything else keep their values. -/
def GivesCross (s : State) (i : Instr) (h : Hdr) (d : BitVec 5) (k : BitVec 1) (f : Nat → Word) (g : Nat → Flags) (n : Nat) :
    Prop :=
  ∃ t fl, exec i s = .next t ∧ OnlyQueued s t ∧ OnlyV s.cc t.cc ∧
    (∀ j, j < 1024 → elem (t.cc.getV (s.vix d 0)) j = if s.active k j then f j else elem (s.rdV d) j) ∧
    (∀ r, r ≠ s.vix d 0 → t.cc.getV r = s.cc.getV r) ∧ FlagsOf s k g fl ∧ CompletesIn s t h n fl

/-- The elementwise instruction completes as a cross-row one does, the elements of row 0 in n clks and the last ones three later
(R110). -/
def GivesV (s : State) (i : Instr) (h : Hdr) (d : BitVec 5) (k : BitVec 1) (f : Nat → Word) (g : Nat → Flags) (n : Nat) :
    Prop := GivesCross s i h d k f g (n + 3)

/-- The instruction completes, and what it does is to write every bit of vm[d], those of row 0 two clks on and the last ones
three later (R110), and to set no flag. -/
def GivesM (s : State) (i : Instr) (h : Hdr) (d : Nat) (f : Nat → Bool) : Prop :=
  ∃ t, exec i s = .next t ∧ OnlyQueued s t ∧
    OnlyCounts s.cc { t.cc with vm := s.cc.vm, re := s.cc.re, rx := s.cc.rx } ∧
    (∀ j, j < 1024 → (t.cc.getM d).getLsbD j = f j) ∧ (∀ r, r ≠ d → t.cc.getM r = s.cc.getM r) ∧ CompletesIn s t h 5 0

/-- Element j of v[a], n registers on, as 32 bits. -/
def State.word (s : State) (a : BitVec 5) (n j : Nat) : Word := elem (s.cc.getV (s.vix a n)) j

/-- An element as the floating type FT reads it: 32 bits, or bits [15:0] (R210). -/
def State.flt (s : State) (ft : BitVec 2) (a : BitVec 5) (n j : Nat) : Nat :=
  if ft = 0 then (s.word a n j).toNat else (s.word a n j).toNat % 2 ^ 16

/-- An element as a signed type of IT reads it: 32 bits below IT 2, else bits [15:0] (R210, R213). -/
def State.int (s : State) (it : BitVec 2) (a : BitVec 5) (n j : Nat) : Int :=
  if it.toNat < 2 then (s.word a n j).toInt else ((s.word a n j).extractLsb' 0 16).toInt

/-- An element as CT reads it: I32, U32, I16, U16 (R210, R213). -/
def State.cmpInt (s : State) (ct : BitVec 2) (a : BitVec 5) (n j : Nat) : Int :=
  if ct = 0 then (s.word a n j).toInt else if ct = 1 then ((s.word a n j).toNat : Int)
  else if ct = 2 then ((s.word a n j).extractLsb' 0 16).toInt else (((s.word a n j).extractLsb' 0 16).toNat : Int)

/-- An integer as an element of a 32-bit type, or of a 16-bit type with bits [31:16] zero (R210). -/
def wordOf (wide : Bool) (v : Int) : Word := if wide then BitVec.ofInt 32 v else (BitVec.ofInt 16 v).zeroExtend 32

/-- The bound of IT's range nearest to v (R218). -/
def clampIt (it : BitVec 2) (v : Int) : Int :=
  let m : Int := if it.toNat < 2 then 2 ^ 31 else 2 ^ 15
  max (-m) (min (m - 1) v)

/-- A result of IT: wrapped for an even IT, clamped for an odd one (R213, R218). -/
def fitOf (it : BitVec 2) (v : Int) : Word := wordOf (it.toNat < 2) (if it.toNat % 2 = 0 then v else clampIt it v)

/-- SAT is set when the clamp changes the value (R218). -/
def satOf (it : BitVec 2) (v : Int) : Flags := if it.toNat % 2 = 1 ∧ clampIt it v ≠ v then flSat else 0

/-- The repeated form completes: for each of its n iterations the elements of v[d + i] that take part hold f of the element
of v[a + i], as an earlier iteration left it where one wrote it, else as it stood (R215). No other vector register and
nothing else changes. -/
def GivesRep (s : State) (i : Instr) (d a : BitVec 5) (n : Nat) (k : BitVec 1) (f : Word → Word) : Prop :=
  ∃ t, exec i s = .next t ∧ OnlyQueued s t ∧ OnlyV s.cc t.cc ∧
    (∀ m j, m < n → j < 1024 →
      let src := if d.toNat ≤ a.toNat + m ∧ a.toNat < d.toNat then t.cc.getV (s.vix a m) else s.cc.getV (s.vix a m)
      elem (t.cc.getV (s.vix d m)) j = if s.active k j then f (elem src j) else elem (s.cc.getV (s.vix d m)) j) ∧
    ∀ r, (∀ m, m < n → r ≠ s.vix d m) → t.cc.getV r = s.cc.getV r

/-- The integer nearest to v / 2^n, a tie to the even one (RoundShift of R207). -/
def nearest (v : Int) (n : Nat) : Int :=
  let w := v / 2 ^ n
  let r := v % 2 ^ n
  if 2 * r > 2 ^ n ∨ (2 * r = 2 ^ n ∧ w % 2 = 1) then w + 1 else w

/-! ### Terms of the vector axes and of vector memory -/

/-- Reduce of R236: pairs of neighbours, level by level. -/
def treeOf (op : Nat → Nat → Nat) (e : Nat → Nat) : Nat → Nat → Nat
  | 0, i => e i
  | n + 1, i => op (treeOf op e n (2 * i)) (treeOf op e n (2 * i + 1))

/-- The instruction completes, and what it does is to write f to every element of v[d]; no other register and no byte of
memory changes. -/
def WritesV (s : State) (i : Instr) (d : BitVec 5) (f : Nat → Word) : Prop :=
  ∃ t, exec i s = .next t ∧ OnlyQueued s t ∧ OnlyV s.cc t.cc ∧
    (∀ j, j < 1024 → elem (t.cc.getV (s.vix d 0)) j = f j) ∧ ∀ r, r ≠ s.vix d 0 → t.cc.getV r = s.cc.getV r

/-- The addresses of the elements that take part, ascending by element. -/
def touched (s : State) (k : BitVec 1) (e : Nat → Nat) : List Nat := ((List.range 1024).filter (s.active k)).map e

/-- The element width in bytes (R240). -/
def width (w : BitVec 1) : Nat := if w = 0 then 4 else 2

/-- No bank of the unit window serves more distinct lines than the limit; a limit of 0 stands for none (R244). -/
def BanksOk (as : List Nat) (limit : Nat) : Prop := limit = 0 ∨ overLimit as limit = none

/-- A vector load whose operands are aligned, within the bank limit and in reach completes: each element that takes part
holds the bytes at its address, zero-extended; nothing else changes, no byte of memory among it (R241, R242, R245). -/
def VectorLoad (s : State) (i : Instr) (d : BitVec 5) (k w : BitVec 1) (limit : Nat) (e : Nat → Nat) : Prop :=
  BanksOk (touched s k e) limit → (∀ j, j < 1024 → s.active k j = true → InReach s (e j) (width w)) →
  ∃ t, exec i s = .next t ∧ OnlyQueued s t ∧ OnlyV s.cc t.cc ∧
    (∀ j, j < 1024 → elem (t.cc.getV (s.vix d 0)) j =
      if s.active k j then BitVec.ofNat 32 (leNat ((List.range (width w)).map fun n => coreByte s (e j + n)))
      else elem (s.rdV d) j) ∧
    ∀ r, r ≠ s.vix d 0 → t.cc.getV r = s.cc.getV r

/-- A vector store whose operands are aligned, within the bank limit and in reach completes: a byte of memory that an
element stores to holds that element's byte, of the last such element in ascending order; every other byte of memory and
everything else is as before (R242, R245, R246). -/
def VectorStore (s : State) (i : Instr) (d : BitVec 5) (k w : BitVec 1) (limit : Nat) (e : Nat → Nat) : Prop :=
  let home := fun a => judgeCore s (s.windows s.iss.ctx) a
  BanksOk (touched s k e) limit → (∀ j, j < 1024 → s.active k j = true → InReach s (e j) (width w)) →
  Memory.wf s.mem = true →
  ∃ t, exec i s = .next t ∧ OnlyQueued s { t with mem := s.mem } ∧ OnlyCounts s.cc t.cc ∧
    (∀ j n y, j < 1024 → s.active k j = true → n < width w → home (e j + n) = .inl y →
      (∀ l, j < l → l < 1024 → s.active k l = true → ∀ m, m < width w → home (e l + m) ≠ .inl y) →
      mget t.mem y = (s.word d 0 j).extractLsb' (8 * n) 8) ∧
    ∀ y, (∀ j n, j < 1024 → s.active k j = true → n < width w → home (e j + n) ≠ .inl y) →
      mget t.mem y = mget s.mem y

/-! ### Terms of commands -/

/-- From s to t one command is accepted and started: it is outstanding under a number no command had and an event for it
is due; every other command is as it was. Of the machine besides only the agenda, the counts of work in progress and the
parameter-block caches may change: no register and no byte of memory does. -/
def Accepts (s t : State) (c : Cmd) : Prop :=
  t.cmd s.nextId = c ∧ (∀ j, j ≠ s.nextId → fget? t.cmds j = fget? s.cmds j) ∧ t.nextId = s.nextId + 1 ∧
    OnlyQueued s { t with cmds := s.cmds, nextId := s.nextId, clusters := s.clusters } ∧ OnlyCounts s.cc t.cc ∧
    ∃ d, d ∈ t.agenda ∧ d.arg.a = s.nextId ∧ s.tb < d.at_

/-- The instruction completes, and what it does is to accept a command and to change what the cluster of its core
holds by f. -/
def AcceptsCmd (s : State) (i : Instr) (c : Cmd) (f : Cluster → Cluster) : Prop :=
  ∃ t, exec i s = .next t ∧ Accepts s t c ∧ t.myCluster = f s.myCluster ∧
    ∀ k, k ≠ clusterOf (coreOf s.iss.ctx) → t.cluster k = s.cluster k

/-- The instruction completes, and nothing changes but the counts of work in progress and the agenda. -/
def OnlyCompletes (s : State) (i : Instr) : Prop := ∃ t, exec i s = .next t ∧ OnlyQueued s t ∧ OnlyCounts s.cc t.cc

/-- The instruction issues and holds its queue, or goes on holding it: nothing changes but that its posts are counted from its
issue (R101). -/
def Waits (s : State) (i : Instr) : Prop :=
  ∃ t, exec i s = .next t ∧ t.iss.wait = true ∧ t.iss.again = true ∧ OnlyQueued { s with iss := t.iss } t ∧
    OnlyCounts s.cc t.cc

/-- The bytes of a parameter block, of H blocks too: at window address a, whatever their owner (R282). -/
def BlockAt (s : State) (a : Nat) (r : List Byte) : Prop := a % 64 = 0 ∧ blockBytes s s.iss.ctx a = some r

/-- R281: a block's version, reserved fields and shape. -/
def BlockOk (r : List Byte) : Prop :=
  let b := blockOf r
  fieldAt r 0 1 = 1 ∧ fieldAt r 1 1 < 4 ∧ fieldAt r 2 2 = 0 ∧ fieldAt r 28 4 = 0 ∧ 1 ≤ b.len ∧ b.len ≤ 2 ^ 24 ∧
    1 ≤ b.n1 ∧ 1 ≤ b.n2

/-- R303: the semaphore a command raises is one of its part. -/
def SemOk (s : State) (x : CExt) : Prop := x.sr = true → x.sem.toNat < s.semLimit s.iss.ctx

/-- R290: the scratchpad sides of a pattern lie in one window and in engine-owned tiles, and do not meet. -/
def SidesOk (s : State) (c : Cmd) : Prop :=
  let w := s.windows s.iss.ctx
  (c.b.ssp = true → c.srcOk s w = true) ∧ (c.b.dsp = true → c.dstOk s w = true) ∧
    (c.b.ssp = true → c.b.dsp = true → spansMeet c.srcSpan c.dstSpan = false)

/-- A copy instruction whose block is well formed, whose sides are in reach and whose core has room is accepted: the block
becomes the most recently used of its cluster's cache (R277, R283, R303). -/
def AcceptsPattern (s : State) (i : Instr) (c : Cmd) (r : List Byte) : Prop :=
  let d := c.withBlock s (s.windows s.iss.ctx) r
  BlockAt s s.iss.xa.toNat r → BlockOk r → SemOk s c.x → SidesOk s d → atLimit s = false →
    AcceptsCmd s i d fun k => k.useBlock s.cc.part s.iss.xa.toNat r

/-- The tiles of len bytes from base belong to an owner after a step; the owner of every other tile is as before. -/
def Owners (s t : State) (w : Windows) (base len : Nat) (engine : Bool) : Prop :=
  let mine := fun k => ∃ a y, base ≤ a ∧ a < base + len ∧ a % 4096 = 0 ∧ homeIn w a = some y ∧ tileOf y = k
  ∀ k, (mine k → fget t.owned k false = engine) ∧ (¬ mine k → fget t.owned k false = fget s.owned k false)

/-! ### Terms of synchronisation -/

/-- From s to t ring register q of the core becomes r; every other ring, barrier and entry the core holds for the part, and
what every other core holds, is as it was. -/
def SetsRing (s t : State) (q : Nat) (r : Ring) : Prop :=
  fget t.myCore.rings q {} = r ∧ (∀ j, j ≠ q → fget? t.myCore.rings j = fget? s.myCore.rings j) ∧
    { t.myCore with rings := s.myCore.rings } = s.myCore ∧ ∀ k, k ≠ s.ringKey → t.pcore k = s.pcore k

/-- From s to t named barrier k of the core becomes b; everything else the cores hold is as it was. -/
def SetsBar (s t : State) (k : Nat) (b : Bar) : Prop :=
  fget t.myCore.bars k {} = b ∧ (∀ j, j ≠ k → fget? t.myCore.bars j = fget? s.myCore.bars j) ∧
    { t.myCore with bars := s.myCore.bars } = s.myCore ∧ ∀ k, k ≠ s.ringKey → t.pcore k = s.pcore k

/-- A barrier whose phase completes (R365). -/
def nextPhase (b : Bar) : Bar := { b with gen := (b.gen + 1) % 2 ^ 32, cnt := b.cnt - b.exp }

/-- From s to t the count of one die semaphore becomes v, and who waits on it may change; every other semaphore and
everything else of every die is as it was. -/
def SetsSem (s t : State) (pos k v : Nat) : Prop :=
  semCount t pos k = v ∧
    (∀ p j, p ≠ pos ∨ j ≠ k → semCount t p j = semCount s p j ∧ semWaiters t p j = semWaiters s p j) ∧
    ∀ p, { t.die p with sems := (s.die p).sems, semw := (s.die p).semw } = s.die p

/-- From s to t a synchronisation update sets out, under a number nothing had. -/
def SendsSync (s t : State) (u : Sync) : Prop :=
  fget? t.syncs s.nextId = some u ∧ (∀ j, j ≠ s.nextId → fget? t.syncs j = fget? s.syncs j) ∧ t.nextId = s.nextId + 1

/-- The context, line, lane and queue an update names. -/
def Sync.fromLane (u : Sync) (s : State) : Prop :=
  u.part = s.cc.part ∧ u.ctx = s.iss.ctx ∧ u.line = s.iss.line ∧ u.lane = s.iss.lane ∧ u.q = s.iss.q

/-! ### Terms of the matrix engine -/

/-- The engine of the core being executed. -/
def State.myMx (s : State) : Mx := s.mx s.engine

/-- From s to t only one engine changes, and of the machine besides only the agenda and the counts of work in progress, what
an instruction that waits remembers, and the numbers given out. -/
def OnlyEngine (s t : State) : Prop :=
  OnlyQueued { s with iss := t.iss } { t with mxs := s.mxs, nextId := s.nextId } ∧ t.iss.ctx = s.iss.ctx ∧
    OnlyCounts s.cc t.cc ∧ ∀ k, k ≠ s.engine → t.mx k = s.mx k

/-- Element (m, n) of accumulator tile j (R250). -/
def Mx.elem (x : Mx) (j m n : Nat) : Nat := accAt (x.tile j) m n

/-- From s to t memory holds the rows stored at r(0), r(1), ... r(n - 1), a later one over an earlier; every byte at which
no row is stored is as before. -/
def StoresRows (s t : State) (n : Nat) (r : Nat → Nat) (row : Nat → List Byte) : Prop :=
  let home := fun m j => judgeCore s (s.windows s.iss.ctx) (r m + j)
  (∀ m j y, m < n → j < (row m).length → home m j = .inl y →
    (∀ k l, m < k → k < n → l < (row k).length → home k l ≠ .inl y) → mget t.mem y = (row m).getD j 0) ∧
    ∀ y, (∀ m j, m < n → j < (row m).length → home m j ≠ .inl y) → mget t.mem y = mget s.mem y

/-- The place in engine order that an instruction takes when it issues: the operations before it are those issued
earlier. -/
def engineMark (s : State) : Nat := if s.iss.again then s.iss.wset.headD s.nextId else s.nextId

/-- An engine operation is taken up: its place in engine order, and the state in which it has entered (R251). -/
def entered (s : State) (op : MxOp) : Nat × State := myOp s op

/-! ### Terms of events -/

/-- From s to t the command of number i has left; every other command is as it was. -/
def Leaves (s t : State) (i : Nat) : Prop := fget? t.cmds i = none ∧ ∀ j, j ≠ i → fget? t.cmds j = fget? s.cmds j

/-- From s to t the command of number i becomes c; every other command is as it was. -/
def Becomes (s t : State) (i : Nat) (c : Cmd) : Prop :=
  fget? t.cmds i = some c ∧ ∀ j, j ≠ i → fget? t.cmds j = fget? s.cmds j

/-- From s to t one event about a command is put on the agenda, at least n ticks from now. -/
def Awaits (s t : State) (ev : Instr) (i n : Nat) : Prop :=
  ∃ d, t.agenda = s.agenda ++ [d] ∧ d.ev = ev ∧ d.arg = { a := i } ∧ s.tb + n ≤ d.at_

/-- A command's context stands on its core for the part that issued it, and the semaphore it raises is below its limit. -/
def Attached (s : State) (c : Cmd) : Prop :=
  c.part ≠ 0 ∧ fget? s.saved (savedKey c.part c.ctx) = none ∧ (s.ctx c.ctx).part = c.part ∧
    semCount s (semHome s c.part c.x.sem.toNat).1 (semHome s c.part c.x.sem.toNat).2 + 1 < 2 ^ 32

/-- From s to t a command posts (R103, R285, R400): with TOK one token toward the next queue, into the trap frame where the
command was accepted before the trap; with SR its semaphore rises by one. No other semaphore, register or context
changes. -/
def Posts (s t : State) (c : Cmd) : Prop :=
  let u := s.ctx c.ctx
  let up := fun (k : Toks) => k.upd (· + 1) c.q (nextQ c.q)
  let down := fun (k : Toks) => k.upd (· - 1) c.q (nextQ c.q)
  let h := semHome s c.part c.x.sem.toNat
  t.ctx c.ctx = (if c.x.tok = false then u
    else if c.inFrame then { u with frame := u.frame.map fun f => { f with toks := up f.toks, outst := down f.outst } }
    else { u with toks := up u.toks, outst := down u.outst }) ∧
  (∀ k, k ≠ c.ctx → t.ctx k = s.ctx k) ∧
  (∀ p k, semCount t p k = semCount s p k + if c.x.sr = true ∧ p = h.1 ∧ k = h.2 then 1 else 0) ∧
  ∀ p, { t.die p with sems := (s.die p).sems } = s.die p

/-- From s to t the bytes of a list are stored at window addresses from a on, a later one over an earlier; every other byte
of memory is as it was. -/
def WinHolds (s t : State) (w : Windows) (a : Nat) (bs : List Byte) : Prop :=
  (∀ j y, j < bs.length → homeIn w (a + j) = some y →
    (∀ l, j < l → l < bs.length → homeIn w (a + l) ≠ some y) → mget t.mem y = bs.getD j 0) ∧
  ∀ y, (∀ j, j < bs.length → homeIn w (a + j) ≠ some y) → mget t.mem y = mget s.mem y

/-- No address of the windows lies in a buffer die's SRAM, as is so of every context: its core stands on a compute or a switch
die (R8, R156). -/
def NoSram (w : Windows) : Prop :=
  ∀ a k, homeIn w a = some k → ¬ (2 ^ 40 ≤ k ∧ k < 2 ^ 41 ∧ kindOf ((k - 2 ^ 40) / 2 ^ 30) = 4)

/-- A command of one row, both of whose sides lie in scratchpad (R281, R282). -/
def OneRow (c : Cmd) : Prop :=
  c.b.n1 = 1 ∧ c.b.n2 = 1 ∧ c.b.ssp = true ∧ c.b.dsp = true ∧ 1 ≤ c.b.len ∧
    c.b.src.toNat + c.b.len ≤ 2 ^ 64 ∧ c.b.dst.toNat + c.b.len ≤ 2 ^ 64

/-- Nothing earlier of its stream holds a command that touches no device memory (R287). -/
def Unheld (s : State) (i : Nat) (c : Cmd) : Prop :=
  (c.x.rel = true → earlierIn s i c = []) ∧ ∀ e, e ∈ earlierIn s i c → e.x.acq = false

/-- A command stands in the package: it is not parked, has not failed, and waits in no timetable and no queue. -/
def Underway (s : State) (c : Cmd) : Prop :=
  c.parked = none ∧ c.err = 0 ∧ c.timed = false ∧ c.queued = false ∧ c.arrived = false ∧ c.routed s = true

/-- From s to t an entry is written at the head of the fault log and vector 16 is sent (R424, R426); every other byte of
memory is as it was. -/
def Logs (s t : State) (e : LogEntry) : Prop :=
  let a := ferryKey s.root (0x40000 + 64 * (s.flogHead % 4096))
  let f := fun o n => leNat ((List.range n).map fun k => mget t.mem (a + o + k))
  t.flogHead = s.flogHead + 1 ∧ t.msix = 16 :: s.msix ∧
    f 0 4 = e.taskid % 2 ^ 32 ∧ f 4 2 = e.cause % 2 ^ 16 ∧ f 6 1 = e.origin % 2 ^ 8 ∧ f 8 1 = e.pos % 2 ^ 8 ∧
    f 9 1 = e.core % 2 ^ 8 ∧ f 10 1 = e.ctx % 2 ^ 8 ∧ f 11 1 = e.opc % 2 ^ 8 ∧ f 12 2 = e.line % 2 ^ 16 ∧
    f 14 1 = e.lane % 2 ^ 8 ∧ f 16 8 = e.val.toNat ∧ f 24 8 = e.reached % 2 ^ 64 ∧ f 32 8 = e.dva % 2 ^ 64 ∧
    f 40 8 = s.tb % 2 ^ 64 ∧ ∀ y, y < a ∨ a + 64 ≤ y → mget t.mem y = mget s.mem y
end Sys2Proof.Machine
end

