-- ==== Sys2Proof/Certificates/Slice0/Obligations.lean ====
section
/-! DEFINITION. The statements for the provers: what the rules of spec/ say the instructions and the machine do. -/

open Sys2Proof Sys2Proof.Machine

/-- R127 to R129: what the integer instructions write, for every operand; a write to x0 is discarded (R124).
R128, R134: the immediate forms. -/
def Obligations.IntegerResults : Prop :=
  (∀ (s : State) (y : BitVec 3) (d a b : BitVec 5),
    GivesX s (.add y d a b) d (s.rdX a + s.rdX b) 1 ∧
    GivesX s (.sub y d a b) d (s.rdX a - s.rdX b) 1 ∧
    GivesX s (.and y d a b) d (s.rdX a &&& s.rdX b) 1 ∧
    GivesX s (.or y d a b) d (s.rdX a ||| s.rdX b) 1 ∧
    GivesX s (.xor y d a b) d (s.rdX a ^^^ s.rdX b) 1 ∧
    GivesX s (.andn y d a b) d (s.rdX a &&& ~~~ s.rdX b) 1 ∧
    GivesX s (.sll y d a b) d (s.rdX a <<< ((s.rdX b).toNat % 64)) 1 ∧
    GivesX s (.srl y d a b) d (s.rdX a >>> ((s.rdX b).toNat % 64)) 1 ∧
    GivesX s (.sra y d a b) d (BitVec.ofInt 64 ((s.rdX a).toInt / 2 ^ ((s.rdX b).toNat % 64))) 1 ∧
    GivesX s (.mul y d a b) d (BitVec.ofNat 64 ((s.rdX a).toNat * (s.rdX b).toNat)) 3 ∧
    GivesX s (.mulh y d a b) d (BitVec.ofInt 64 ((s.rdX a).toInt * (s.rdX b).toInt / 2 ^ 64)) 3 ∧
    GivesX s (.mulhu y d a b) d (BitVec.ofNat 64 ((s.rdX a).toNat * (s.rdX b).toNat / 2 ^ 64)) 3 ∧
    GivesX s (.min y d a b) d (BitVec.ofInt 64 (min (s.rdX a).toInt (s.rdX b).toInt)) 1 ∧
    GivesX s (.max y d a b) d (BitVec.ofInt 64 (max (s.rdX a).toInt (s.rdX b).toInt)) 1 ∧
    GivesX s (.minu y d a b) d (BitVec.ofNat 64 (min (s.rdX a).toNat (s.rdX b).toNat)) 1 ∧
    GivesX s (.maxu y d a b) d (BitVec.ofNat 64 (max (s.rdX a).toNat (s.rdX b).toNat)) 1 ∧
    ∀ k : BitVec 3, GivesX s (.addsh y d a b k) d (s.rdX a + BitVec.ofNat 64 ((s.rdX b).toNat * 2 ^ k.toNat)) 1) ∧
  (∀ (s : State) (y : BitVec 3) (d a : BitVec 5) (i : BitVec 8) (n : BitVec 6) (w : Word),
    GivesX s (.addi y d a i) d (s.rdX a + BitVec.ofInt 64 i.toInt) 1 ∧
    GivesX s (.andi y d a i) d (s.rdX a &&& BitVec.ofInt 64 i.toInt) 1 ∧
    GivesX s (.ori y d a i) d (s.rdX a ||| BitVec.ofInt 64 i.toInt) 1 ∧
    GivesX s (.xori y d a i) d (s.rdX a ^^^ BitVec.ofInt 64 i.toInt) 1 ∧
    GivesX s (.slli y d a n) d (s.rdX a <<< n.toNat) 1 ∧
    GivesX s (.srli y d a n) d (s.rdX a >>> n.toNat) 1 ∧
    GivesX s (.srai y d a n) d (BitVec.ofInt 64 ((s.rdX a).toInt / 2 ^ n.toNat)) 1 ∧
    GivesX s (.movw y d w) d (BitVec.ofInt 64 w.toInt) 1 ∧
    GivesX s (.movhw y d a w) d (BitVec.ofNat 64 (w.toNat * 2 ^ 32 + (s.rdX a).toNat % 2 ^ 32)) 1 ∧
    GivesX s (.addw y d a w) d (s.rdX a + BitVec.ofInt 64 w.toInt) 1)

/-- R132, R133: select, counting and byte order.
R130, R131: what a compare writes to p[k]; with k = 0 the result is discarded. comb is 0, 1 or 2, and the condition of
CMP and CMPU is below 6: other values are not well formed.
R135 to R138: fields are extracted and inserted bit by bit; a bit above 63 reads as 0, and one inserted there is
dropped. The funnel shifts move the 128 bits of cat(x[a], x[b]). -/
def Obligations.SelectCompareFields : Prop :=
  (∀ (s : State) (y : BitVec 3) (d a b : BitVec 5) (c : BitVec 3),
    GivesX s (.sel y d a b c) d (if s.rdP c.toNat then s.rdX a else s.rdX b) 1 ∧
    (∃ n, LeadingZeros (s.rdX a) n ∧ GivesX s (.clz y d a) d (BitVec.ofNat 64 n) 1) ∧
    (∃ n, TrailingZeros (s.rdX a) n ∧ GivesX s (.ctz y d a) d (BitVec.ofNat 64 n) 1) ∧
    GivesX s (.popc y d a) d (BitVec.ofNat 64 ((List.range 64).countP fun j => (s.rdX a).getLsbD j)) 1 ∧
    ∃ v, (∀ j, j < 8 → v.extractLsb' (8 * (7 - j)) 8 = (s.rdX a).extractLsb' (8 * j) 8) ∧ GivesX s (.bswap y d a) d v 1) ∧
  (∀ (s : State) (y : BitVec 3) (comb : BitVec 2) (k m : BitVec 3) (a b : BitVec 5) (i : BitVec 8) (c : Bool),
    comb ≠ 3 →
    (m.toNat < 6 → (c = true ↔ Condition m.toNat (s.rdX a).toInt (s.rdX b).toInt) →
      GivesP s (.cmp y comb k a b m) k
        (if comb = 0 then c else if comb = 1 then s.rdP k.toNat && c else s.rdP k.toNat || c)) ∧
    (m.toNat < 6 → (c = true ↔ Condition m.toNat (s.rdX a).toNat (s.rdX b).toNat) →
      GivesP s (.cmpu y comb k a b m) k
        (if comb = 0 then c else if comb = 1 then s.rdP k.toNat && c else s.rdP k.toNat || c)) ∧
    ∀ q : BitVec 2,
      ((c = true ↔ Condition q.toNat (s.rdX a).toInt i.toInt) → GivesP s (.cmpi y q k a i) k c) ∧
      ((c = true ↔ Condition q.toNat (s.rdX a).toNat i.toNat) → GivesP s (.cmpui y q k a i) k c)) ∧
  (∀ (s : State) (y : BitVec 3) (d a b xs : BitVec 5) (xr : BitVec 1) (len : BitVec 7) (im : BitVec 6),
    let n := amountOf s xs xr im
    let l := len.toNat
    (1 ≤ l → l ≤ 64 →
      (∃ v, GivesX s (.bfxu y d a xs xr len im) d v 1 ∧
        ∀ j, v.getLsbD j = (decide (j < l) && (s.rdX a).getLsbD (n + j))) ∧
      (∃ v, GivesX s (.bfxs y d a xs xr len im) d v 1 ∧
        ∀ j, j < 64 → v.getLsbD j = (s.rdX a).getLsbD (n + if j < l then j else l - 1)) ∧
      ∃ v, GivesX s (.bfi y d a xs xr len im) d v 1 ∧
        ∀ j, j < 64 → v.getLsbD j = if n ≤ j ∧ j < n + l then (s.rdX a).getLsbD (j - n) else (s.rdX d).getLsbD j) ∧
    GivesX s (.fshl y d a b xs xr len im) d
      (BitVec.ofNat 64 (((s.rdX a).toNat * 2 ^ 64 + (s.rdX b).toNat) * 2 ^ n / 2 ^ 64)) 1 ∧
    GivesX s (.fshr y d a b xs xr len im) d
      (BitVec.ofNat 64 (((s.rdX a).toNat * 2 ^ 64 + (s.rdX b).toNat) / 2 ^ n)) 1)

/-- R75, R139, R140: where BR, JAL and JALR go, and what they link. The next line is L + off for a BR whose condition
holds, and behind the line else, fetched in either case no earlier than in the next clk; a target outside 0 to 8,191 faults
whether the condition holds or not. JALR reads x[a] before it writes the link.
R118, R119, R141: LOOPM holds its line while the core's sequencer runs; else it goes on behind the body, and unless
the trip count is 0 the sequencer of the core runs for its context. L + n beyond 8,191 faults before any of that. -/
def Obligations.ControlTransfers : Prop :=
  (∀ (s : State) (y c : BitVec 3) (g : BitVec 1) (off : BitVec 14) (d a : BitVec 5) (l : BitVec 13),
    let t : Int := (s.iss.line : Int) + off.toInt
    (t < 0 ∨ 8191 < t → exec (.br y c g off) s = .next (s.raise cFetchRange)) ∧
    (0 ≤ t → t ≤ 8191 → s.rdP c.toNat = (g == 0) → GoesTo s (.br y c g off) t.toNat) ∧
    (0 ≤ t → t ≤ 8191 → s.rdP c.toNat ≠ (g == 0) → ∃ u, exec (.br y c g off) s = .next u ∧ OnlyThisCtx s u ∧
      u.cc = { s.cc with fetchAt := max s.cc.fetchAt (s.now + 1) }) ∧
    LinksTo s (.jal y d l) d l.toNat ∧
    ((s.rdX a).toNat ≤ 8191 → LinksTo s (.jalr y d a) d (s.rdX a).toNat) ∧
    (8191 < (s.rdX a).toNat → exec (.jalr y d a) s = .next (s.raise cFetchRange))) ∧
  (∀ (s : State) (y : BitVec 3) (a : BitVec 5) (n ii : BitVec 7),
    let trip := (s.rdX a).toNat % 2 ^ 32
    let core := coreOf s.iss.ctx
    (8191 < s.iss.line + n.toNat → exec (.loopm y a n ii) s = .next (s.raise cFetchRange)) ∧
    (s.iss.line + n.toNat ≤ 8191 → (fget? s.seqs core).isSome = true → exec (.loopm y a n ii) s = .next s.notYet) ∧
    (s.iss.line + n.toNat ≤ 8191 → fget? s.seqs core = none →
      ∃ t, exec (.loopm y a n ii) s = .next t ∧ OnlyNextLine s { t with seqs := s.seqs } (s.iss.line + n.toNat + 1) ∧
        (trip = 0 → t.seqs = s.seqs) ∧
        (trip ≠ 0 → ∃ q, fget? t.seqs core = some q ∧ q.ctx = ctxNo s.iss.ctx ∧ q.line = s.iss.line ∧ q.n = n.toNat ∧
          q.ii = ii.toNat ∧ q.trip = trip ∧ q.step = 0 ∧ q.body = [] ∧
          ∀ k, k ≠ core → fget? t.seqs k = fget? s.seqs k)))

/-- R142, R146: DLY begins in the clk in which it is executed first and counts as executed k clks on; until then it holds the
X stream of its context, and it does nothing else; YIELD restarts the count of clks since the last yield point of ctx0 and does
nothing in a handler context but that the next line is fetched in the next clk. Whether the context stops at the yield point
is the task's matter (R405).
R59, R60, R150, R151: the two clocks. TBR writes TIMEBASE; SCHT writes the task's SCHEDTIME, TIMEBASE less the tick
of its start and the ticks it was held, as the die of the core sees it in a hold (R63), and 0 on a control core.
R116, R143: END ends fetch for its context, which drains; executed in trap handling, the trap of the registers is
raised again, to escalate. -/
def Obligations.DelaysAndClocks : Prop :=
  (∀ (s : State) (y : BitVec 3) (a : BitVec 5) (i : BitVec 8),
    let k := i.toNat + if a = 0 then 0 else min (s.rdX a).toNat 65535
    let last := s.cc.dly.getD (s.now + k)
    (last ≤ s.now → ∃ t, exec (.dly y a i) s = .next t ∧ OnlyThisCtx s t ∧ t.cc = { s.cc with dly := none }) ∧
    (s.now < last → ∃ t, exec (.dly y a i) s = .next t ∧ { t with ctxs := s.ctxs, iss := s.iss } = s ∧
      t.iss = { s.iss with wait := true, again := true } ∧ (∀ j, j ≠ s.iss.ctx → t.ctx j = s.ctx j) ∧
      t.ctx s.iss.ctx = { s.cc with dly := some last, front := max s.cc.front last }) ∧
    (ctxNo s.iss.ctx ≠ 0 → ∃ t, exec (.yield y) s = .next t ∧ OnlyThisCtx s t ∧
      t.cc = { s.cc with fetchAt := max s.cc.fetchAt (s.now + 1) }) ∧
    (ctxNo s.iss.ctx = 0 → ∃ t, exec (.yield y) s = .next t ∧ OnlyThisCtx s t ∧
      { t.cc with yieldAt := s.cc.yieldAt, yielded := s.cc.yielded, fetchAt := s.cc.fetchAt } = s.cc ∧
      t.cc.fetchAt = max s.cc.fetchAt (s.now + 1) ∧ t.cc.yieldAt = s.schedOf s.iss.ctx ∧
      ((s.task (s.taskOf s.iss.ctx)).run ≠ .stopping → t.cc.yielded = false))) ∧
  (∀ (s : State) (y : BitVec 3) (d : BitVec 5),
    let k := s.task (s.taskOf s.iss.ctx)
    let pos := posOf (coreOf s.iss.ctx)
    GivesX s (.tbr y d) d (BitVec.ofNat 64 s.tb) 2 ∧
    (192 ≤ coreOf s.iss.ctx → GivesX s (.scht y d) d 0 2) ∧
    (coreOf s.iss.ctx < 192 → k.hold = none → k.frozen = none →
      GivesX s (.scht y d) d (BitVec.ofNat 64 (s.tb - k.t0 - k.held)) 2) ∧
    (∀ v, coreOf s.iss.ctx < 192 → k.hold = none → k.frozen = some v → GivesX s (.scht y d) d (BitVec.ofNat 64 v) 2) ∧
    ∀ h, coreOf s.iss.ctx < 192 → k.hold = some h → h.go = none →
      GivesX s (.scht y d) d (BitVec.ofNat 64 (min (s.tb - k.t0 - k.held) (fget h.stops pos h.stop))) 2) ∧
  (∀ (s : State) (y : BitVec 3),
    (s.cc.intrap = false → ∃ t, exec (.endc y) s = .next t ∧ OnlyThisCtx s t ∧
      t.cc.run = .draining ∧ { t.cc with run := s.cc.run } = s.cc) ∧
    (s.cc.intrap = true → ∃ t, exec (.endc y) s = .next t ∧
      Faults s t ⟨s.cc.tcode, 1, s.cc.tline, s.cc.tlane, s.cc.tqc, s.cc.tval⟩))

/-- R144, R398: the TRAP instruction raises its code with x[a]; a fault that an instruction raises stops its context from that
clk on and does nothing else.
R396 to R399: TRAP_ENTRY of a context in which faults have arisen, once what it has issued has run to completion, takes the
earliest one (R398): with the handler enabled, the context not in trap handling and a class that is delivered, the trap
registers name the fault, the queues and token FIFOs are empty, and the handler's line is fetched in the next clk; the
predicates, vector and mask registers, the seeds and TVEC keep their values.
R400, R403: a fault during trap handling, with TVEC.EN = 0, or of a class that is not delivered escalates: the context
stops, no handler runs, the fault log receives an entry and the task ends. The context is one of a tile core. -/
def Obligations.TrapsEnter : Prop :=
  (∀ (s : State) (y : BitVec 3) (a : BitVec 5) (code : BitVec 6), ∃ t, exec (.trap y a code) s = .next t ∧
    Faults s t ⟨0x3C0 + code.toNat, 3, s.iss.line, s.iss.lane, s.iss.q.code, s.rdX a⟩) ∧
  (∀ (s : State) (cause : Nat) (val : DWord),
    Faults s (s.raise cause val) ⟨cause, 1, s.iss.line, s.iss.lane, s.iss.q.code, val⟩) ∧
  ∀ (s : State) (p : Pending),
    let ck := s.ev.a
    let c := s.ctx ck
    earliest c.pend = some p → c.faultAt.isSome = true → c.run = .running ∨ c.run = .draining →
    issuedOver s ck = true → mayAct s ck = true →
    (c.intrap = false → c.tvecEn = true → delivered p.cause = true →
      ∃ t, exec .trapEntry s = .next t ∧ EntersTrap ck s t p) ∧
    (coreOf ck < 192 → (s.task (s.taskOf ck)).run ≠ .ending →
      c.intrap = true ∨ c.tvecEn = false ∨ delivered p.cause = false →
      ∃ t, exec .trapEntry s = .next t ∧
        let d := t.ctx ck
        d.run = .stopped ∧ d.ql = [] ∧ d.qc = [] ∧ d.qs = [] ∧ d.qf = [] ∧ d.lanes = [] ∧
        d.tcode = p.cause ∧ d.tval = p.val ∧ t.flogHead = s.flogHead + 1 ∧ t.msix = 16 :: s.msix ∧
        (t.task (s.taskOf ck)).run = .ending ∧ (t.task (s.taskOf ck)).failed = true ∧
        (t.task (s.taskOf ck)).endCause = p.cause)

/-- R145, R402: ERET outside trap handling faults; it holds its line until the handler's queues are empty and its posts are
made; then it gives back the queues, the token FIFOs and the scoreboard of the frame and goes on at the resume point. -/
def Obligations.TrapReturn : Prop :=
  ∀ (s : State) (y : BitVec 3),
    (s.cc.intrap = false → exec (.eret y) s = .next (s.raise cEretNotrap)) ∧
    (s.cc.intrap = true → s.cc.quiet = false → exec (.eret y) s = .next s.notYet) ∧
    ∀ f, s.cc.intrap = true → s.cc.quiet = true → s.cc.frame = some f →
      let busy := (fget? s.seqs (coreOf s.iss.ctx)).isSome
      (f.seq.isSome = true → busy = true → exec (.eret y) s = .next s.notYet) ∧
      (f.seq = none ∨ busy = false → ∃ t, exec (.eret y) s = .next t ∧
        t.cc.intrap = false ∧ t.cc.frame = none ∧ t.cc.run = (if f.ended then .draining else .running) ∧
        t.cc.toks = f.toks ∧ t.cc.outst = f.outst ∧ t.cc.re = f.re ∧ t.cc.rx = f.rx ∧
        (t.cc.pc, t.cc.fromLane) = resumeAt s.cc f ∧
        (∀ q, q ≠ .x → (t.cc.queue q).map Entry.instr = ((f.queue q).filter (keptAtReturn s.cc)).map Entry.instr) ∧
        t.cc.x = s.cc.x ∧ t.cc.p = s.cc.p ∧ t.cc.v = s.cc.v ∧ t.cc.vm = s.cc.vm ∧ t.cc.hs = s.cc.hs ∧
        t.cc.tcode = s.cc.tcode ∧ t.cc.tval = s.cc.tval ∧ t.mem = s.mem ∧ (∀ k, k ≠ s.iss.ctx → t.ctx k = s.ctx k) ∧
        (f.seq = none → t.seqs = s.seqs) ∧
        ∀ q, f.seq = some q → ∃ r, fget? t.seqs (coreOf s.iss.ctx) = some r ∧ r.step = q.step ∧ r.trip = q.trip ∧
          r.n = q.n ∧ r.ii = q.ii ∧ r.line = q.line ∧ r.ctx = q.ctx ∧ r.body = [])

/-- R58, R117, R147 to R149, R161, R397: what SRD writes to x[d]. A register narrower than 64 bits is zero-extended. -/
def Obligations.SystemRegisterReads : Prop :=
  ∀ (s : State) (y : BitVec 3) (d : BitVec 5),
    let c := s.cc
    let core := coreOf s.iss.ctx
    let reads := fun (n v : Nat) => GivesX s (.srd y d (BitVec.ofNat 12 n)) d (BitVec.ofNat 64 v) 2
    reads 0x100 (if c.sbmode then 1 else 0) ∧ reads 0x101 c.sbstall.toNat ∧ reads 0x102 c.bkstall.toNat ∧
    reads 0x103 c.lpstall.toNat ∧
    reads 0x104 (c.toks.lc + 2 ^ 4 * c.toks.cs + 2 ^ 8 * c.toks.sl + 2 ^ 12 * c.toks.cl + 2 ^ 16 * c.toks.sc +
      2 ^ 20 * c.toks.ls) ∧
    reads 0x110 (c.tcode + 2 ^ 16 * (if c.intrap then 1 else 0) + 2 ^ 17 * c.tkind) ∧ reads 0x111 c.tline ∧
    reads 0x112 c.tlane ∧ reads 0x113 (c.tqc + 2 ^ 4 * (if c.tskip then 1 else 0)) ∧ reads 0x114 c.tval.toNat ∧
    reads 0x115 (c.tvecLine.toNat + 2 ^ 16 * (if c.tvecEn then 1 else 0)) ∧
    (∀ p, p < 34 → (s.die p).kind = 0 → reads (0x040 + p) 0) ∧
    (∀ p, p < 34 → (s.die p).kind ≠ 0 → (s.die p).fused = false →
      reads (0x040 + p) ((s.die p).kind + 2 ^ 8 * (s.die p).rev + 2 ^ 16 * (s.die p).ifv + 2 ^ 25 * (s.die p).health)) ∧
    (core < 192 →
      reads 0x0C0 (s.task (s.taskOf s.iss.ctx)).holdcnt ∧ reads 0x0C1 (s.task (s.taskOf s.iss.ctx)).holdtk ∧
      (∀ k, 1 ≤ k → k ≤ 15 → reads (0x120 + k) (fget c.hs k 0).toNat) ∧
      reads 0x130 (if c.sptrap then 1 else 0) ∧ reads 0x131 c.sperr.toNat ∧ reads 0x132 c.spaddr.toNat ∧
      (∀ k, k < 64 →
        let r := fget s.myCore.rings k {}
        reads (0x200 + 2 * k) (r.base + 2 ^ 32 * r.nslot + 2 ^ 48 * r.ssz) ∧
        reads (0x201 + 2 * k) (r.tail + 2 ^ 13 * r.fill + 2 ^ 26 * r.clm + 2 ^ 39 * r.fin)) ∧
      reads 0x280 (s.myCore.msgBase + 2 ^ 32 * (if s.myCore.msgEn then 1 else 0))) ∧
    (32 ≤ core → core < 192 → nstatBusy s s.iss.ctx = false → reads 0x140 c.nstat.toNat) ∧
    (32 ≤ core → core < 192 → nstatBusy s s.iss.ctx = true → exec (.srd y d 0x140) s = .next s.notYet)

/-- R147, R148: a number that is not assigned, or whose register the core lacks, raises SYSREG_NONE for SRD and SWR.
R109, R117, R147, R149, R161, R212, R397: the writable fields a context's SWR changes at the end of its clk (those of
ISSCTL at once), and nothing else; a register without a writable field raises SYSREG_RO.
R356 to R358: an SWR to QCFGk of an empty local ring sets it up; of a ring that is not empty, of a producer end, or
with a field that is not legal, it raises the cause and writes nothing. R372: so does an SWR to MSGCFG. -/
def Obligations.SystemRegisterWrites : Prop :=
  (∀ (s : State) (y : BitVec 3) (d a : BitVec 5) (n : BitVec 12),
    ¬ AssignedNumber (coreOf s.iss.ctx) n.toNat →
    exec (.srd y d n) s = .next (s.raise cSysregNone) ∧ exec (.swr y a n) s = .next (s.raise cSysregNone)) ∧
  (∀ (s : State) (y : BitVec 3) (a : BitVec 5),
    let v := s.rdX a
    let core := coreOf s.iss.ctx
    let swr := fun (n : Nat) => Instr.swr y a (BitVec.ofNat 12 n)
    let sets := fun (n : Nat) => SetsCtx s (swr n) n v
    (∃ t, exec (swr 0x100) s = .next t ∧ OnlyThisCtx s t ∧ t.cc = { s.cc with sbmode := v.getLsbD 0 }) ∧
    sets 0x113 (fun c => { c with tskip := v.getLsbD 4 }) ∧
    sets 0x115 (fun c => { c with tvecLine := v.extractLsb' 0 13, tvecEn := v.getLsbD 16 }) ∧
    (core < 192 →
      (∀ k, 1 ≤ k → k ≤ 15 → sets (0x120 + k) (fun c => { c with hs := fset c.hs k v })) ∧
      sets 0x130 (fun c => { c with sptrap := v.getLsbD 0 }) ∧
      (v.getLsbD 0 = true → sets 0x131 (fun c => { c with sperr := 0, spaddr := 0 })) ∧
      (v.getLsbD 0 = false → sets 0x131 (fun c => c))) ∧
    (32 ≤ core → core < 192 → nstatBusy s s.iss.ctx = false →
      sets 0x140 (fun c => { c with nstat := c.nstat &&& ~~~(v.extractLsb' 0 10) })) ∧
    (32 ≤ core → core < 192 → nstatBusy s s.iss.ctx = true → exec (swr 0x140) s = .next s.notYet) ∧
    (∀ n, n ∈ [0x101, 0x102, 0x103, 0x104, 0x105, 0x106, 0x110, 0x111, 0x112, 0x114] →
      exec (swr n) s = .next (s.raise cSysregRo)) ∧
    (∀ n, 0x040 ≤ n → n ≤ 0x061 → exec (swr n) s = .next (s.raise cSysregRo)) ∧
    (core < 192 → ∀ n, n = 0x07E ∨ (0x080 ≤ n ∧ n ≤ 0x095) ∨ (0x0A0 ≤ n ∧ n ≤ 0x0B5) ∨ n = 0x0C0 ∨ n = 0x0C1 ∨ n = 0x132 ∨
      n = 0x133 ∨ n = 0x135 ∨ n = 0x136 ∨ n = 0x137 ∨ (∃ k, k < 64 ∧ n = 0x201 + 2 * k) ∨ n = 0x281 →
      exec (swr n) s = .next (s.raise cSysregRo))) ∧
  (∀ (s : State) (y : BitVec 3) (a : BitVec 5) (k : Nat), coreOf s.iss.ctx < 192 → k < 64 →
    let v := s.rdX a
    let r := fget s.myCore.rings k {}
    let base := v.toNat % 2 ^ 32
    let n := v.toNat / 2 ^ 32 % 2 ^ 13
    let sz := v.toNat / 2 ^ 48 % 2 ^ 7
    let qcfg := Instr.swr y a (BitVec.ofNat 12 (0x200 + 2 * k))
    (r.fin = 0 → r.declared = false → r.fill = 0 → r.clm = 0 → n ≤ 4096 → (n ≠ 0 → 1 ≤ sz ∧ sz ≤ 64) → base % 256 = 0 →
      v.toNat / 2 ^ 45 % 8 = 0 → v.toNat / 2 ^ 55 = 0 → windowOf base ≠ 3 →
      SetsPartCore s qcfg (0x200 + 2 * k) v (fun p => (fget p.rings k {}).fin = 0 ∧ (fget p.rings k {}).declared = false) fun p =>
        let e : Ring := { fget p.rings k {} with base := base, nslot := n, ssz := sz, tail := 0, fill := 0, clm := 0 }
        { p with rings := fset p.rings k e }) ∧
    (r.fin = 1 → exec qcfg s = .next (s.raise cRingEnd v)) ∧
    (r.fin ≠ 1 → r.fill ≠ 0 ∨ r.clm ≠ 0 → exec qcfg s = .next (s.raise cRingBusy v)) ∧
    (r.fin = 0 → r.declared = false → r.fill = 0 → r.clm = 0 → base % 256 ≠ 0 →
      exec qcfg s = .next (s.raise cRingField v)) ∧
    (s.myCore.recv = [] → base % 16384 = 0 → v.toNat / 2 ^ 33 = 0 →
      SetsPartCore s (.swr y a 0x280) 0x280 v (fun _ => True) fun p => { p with msgBase := base, msgEn := v.getLsbD 32 }) ∧
    (s.myCore.recv ≠ [] → exec (.swr y a 0x280) s = .next (s.raise cMsgBusy v)))

/-- R166 to R169: the probe instructions where the part holds a table. A hit of a VALID slot counts and pins; a miss takes
a free way, pins it FILLING, asks for its block and branches, and a loop that a lower lane of its line has begun does not
run; the next line is fetched four clks on or later; PWAIT goes on at a VALID slot, waits at a FILLING one and
raises the cause of a FAILED one; PUNPIN takes a pin off; PINV and PINV.ALL make unpinned slots INVALID.
R169: without a table in the part, every probe instruction raises PROBE_OFF. -/
def Obligations.ProbeTable : Prop :=
  (∀ (s : State) (y : BitVec 3) (d a : BitVec 5) (l : BitVec 13), HasTable s →
    let c := s.myCluster
    let v := (s.rdX a).toNat
    let blk := v / 256
    let set := blk % c.sets
    (v < 2 ^ 57 → ∀ w, probeHit c set blk = some w → (c.slot (4 * set + w)).st = .valid →
      (c.slot (4 * set + w)).pin < 255 → ∃ t, exec (.probe y d a l) s = .next t ∧
        { t with ctxs := s.ctxs, clusters := s.clusters } = s ∧
        { t.cc with x := s.cc.x, xrdy := s.cc.xrdy, fetchAt := s.cc.fetchAt } = s.cc ∧
        t.cc.fetchAt = max s.cc.fetchAt (s.now + 4) ∧ (d ≠ 0 → t.rdX d = BitVec.ofNat 64 (slotAddr c (4 * set + w))) ∧
        t.myCluster.prbhit = c.prbhit + 1 ∧ (t.myCluster.slot (4 * set + w)).pin = (c.slot (4 * set + w)).pin + 1 ∧
        ∀ k, k ≠ 4 * set + w → t.myCluster.slot k = c.slot k) ∧
    (v < 2 ^ 57 → s.cc.inBody = false → probeHit c set blk = none → outstanding s (coreOf s.iss.ctx) < 1024 →
      ∀ w, probeVictim c set = some w → ∃ t, exec (.probe y d a l) s = .next t ∧
        t.cc.pc = l.toNat ∧ s.now + 4 ≤ t.cc.fetchAt ∧ (d ≠ 0 → t.rdX d = BitVec.ofNat 64 (slotAddr c (4 * set + w))) ∧
        t.myCluster.prbmiss = c.prbmiss + 1 ∧
        t.myCluster.slot (4 * set + w) = ({ st := .filling, tag := blk, pin := 1 } : ProbeSlot) ∧
        fget t.myCluster.rrp set 0 = (w + 1) % 4 ∧
        { t with ctxs := s.ctxs, clusters := s.clusters, cmds := s.cmds, nextId := s.nextId, agenda := s.agenda,
                 free := s.free, seqs := s.seqs } = s ∧
        frameSeq t s.iss.ctx = none ∧ (∀ k, k ≠ coreOf s.iss.ctx → fget? t.seqs k = fget? s.seqs k) ∧
        ∃ i f, fget? t.cmds i = some f ∧ f.kind = .fill ∧ f.slot = 4 * set + w ∧ f.errDva = 256 * blk) ∧
    (v < 2 ^ 57 → s.cc.inBody = false → probeHit c set blk = none → probeVictim c set = none →
      ∃ t, exec (.probe y d a l) s = .next t ∧ t.cc.pc = l.toNat ∧ (d ≠ 0 → t.rdX d = 0) ∧
        t.myCluster.prbfull = c.prbfull + 1 ∧ t.myCluster.slots = c.slots) ∧
    (2 ^ 57 ≤ v → exec (.probe y d a l) s = .next (s.raise cProbeAddr (s.rdX a))) ∧
    (slotOf c v = none → exec (.pwait y a) s = .next (s.raise cProbeSlot) ∧
      exec (.punpin y a) s = .next (s.raise cProbeSlot)) ∧
    (∀ k, slotOf c v = some k →
      ((c.slot k).st = .valid ∨ (c.slot k).st = .invalid → exec (.pwait y a) s = .next s) ∧
      ((c.slot k).st = .filling → exec (.pwait y a) s = .next s.notYet) ∧
      ((c.slot k).st = .failed →
        exec (.pwait y a) s = .next (s.raise (c.slot k).cause (BitVec.ofNat 64 (256 * (c.slot k).tag)))) ∧
      ((c.slot k).pin = 0 → exec (.punpin y a) s = .next (s.raise cPinUnderflow)) ∧
      ((c.slot k).pin ≠ 0 → (c.slot k).st = .valid → (c.slot k).doomed = false →
        SetsCluster s (.punpin y a) fun c => c.setSlot k ({ c.slot k with pin := (c.slot k).pin - 1 } : ProbeSlot))) ∧
    (∀ w, probeHit c (v / 256 % 2 ^ 49 % c.sets) (v / 256 % 2 ^ 49) = some w →
      let k := 4 * (v / 256 % 2 ^ 49 % c.sets) + w
      (c.slot k).pin = 0 → (c.slot k).st = .valid → SetsCluster s (.pinv y a) fun c => c.setSlot k {}) ∧
    (probeHit c (v / 256 % 2 ^ 49 % c.sets) (v / 256 % 2 ^ 49) = none → exec (.pinv y a) s = .next s) ∧
    SetsCluster s (.pinvAll y) fun c => { c with slots := c.slots.map fun e => (e.1, e.2.invalidate) }) ∧
  (∀ (s : State) (y : BitVec 3) (d a : BitVec 5) (l : BitVec 13), ¬ HasTable s →
    exec (.probe y d a l) s = .next (s.raise cProbeOff) ∧ exec (.pwait y a) s = .next (s.raise cProbeOff) ∧
    exec (.punpin y a) s = .next (s.raise cProbeOff) ∧ exec (.pinv y a) s = .next (s.raise cProbeOff) ∧
    exec (.pinvAll y) s = .next (s.raise cProbeOff))

/-- R152, R153, R160, R161: every scalar load, on a core of a die or a switch die's control core.
R152, R153, R160, R161: every scalar store: the low bytes of x[d] as captured, at the effective address. -/
def Obligations.ScalarMemory : Prop :=
  (∀ (s : State) (h : Hdr) (d a : BitVec 5) (m : BitVec 8), coreOf s.iss.ctx < 208 →
    ScalarLoad s (.ldb h d a m) d m 1 true ∧ ScalarLoad s (.ldbu h d a m) d m 1 false ∧
    ScalarLoad s (.ldh h d a m) d m 2 true ∧ ScalarLoad s (.ldhu h d a m) d m 2 false ∧
    ScalarLoad s (.ldw h d a m) d m 4 true ∧ ScalarLoad s (.ldwu h d a m) d m 4 false ∧
    ScalarLoad s (.ldd h d a m) d m 8 false) ∧
  (∀ (s : State) (h : Hdr) (d a : BitVec 5) (m : BitVec 8), coreOf s.iss.ctx < 208 →
    ScalarStore s (.stb h d a m) m 1 ∧ ScalarStore s (.sth h d a m) m 2 ∧ ScalarStore s (.stw h d a m) m 4 ∧
    ScalarStore s (.std h d a m) m 8)

/-- R153: a double word stored and then loaded from the same address is the word stored, whatever windows the context has,
if the address is aligned and in reach; the second state is any with the first one's memory, windows and owners. -/
def Obligations.LoadAfterStore : Prop :=
  ∀ (s t u : State) (h : Hdr) (d a e : BitVec 5) (m : BitVec 8), coreOf s.iss.ctx < 208 → Memory.wf s.mem = true →
    scalarAddr s m 8 % 8 = 0 → InReach s (scalarAddr s m 8) 8 →
    exec (.std h d a m) s = .next t → u.mem = t.mem → u.owned = s.owned → u.iss.ctx = s.iss.ctx →
    u.windows u.iss.ctx = s.windows s.iss.ctx → u.iss.xa = s.iss.xa → e ≠ 0 →
    ∃ v, exec (.ldd h e a m) u = .next v ∧ v.cc.getX (physX u.iss.rot e.toNat) = s.iss.xd

/-- R210, R211, R216, R224: the floating-point instructions and VCVT, element by element: each operation on the patterns
of the elements rounds its exact value once and says which flags it sets (FloatSpecials, RoundingModes). FT is 0, 1 or 2. -/
def Obligations.FloatElements : Prop :=
  ∀ (s : State) (h : Hdr) (d a b c : BitVec 5) (k : BitVec 1) (ft rm : BitVec 2), ft ≠ 3 →
    let op := fun (g : Fmt → Nat → Nat → Nat × Flags) j => g (fmtOf ft.toNat) (s.flt ft a 0 j) (s.flt ft b 0 j)
    let gives := fun i (g : Nat → Nat × Flags) n =>
      GivesV s i h d k (fun j => BitVec.ofNat 32 (g j).1) (fun j => (g j).2) n
    gives (.vadd h d a b k ft) (op fAdd) 4 ∧ gives (.vsub h d a b k ft) (op fSub) 4 ∧
    gives (.vmul h d a b k ft) (op fMul) 4 ∧
    gives (.vmin h d a b k ft) (op fun t x y => (fMin t x y, 0)) 4 ∧
    gives (.vmax h d a b k ft) (op fun t x y => (fMax t x y, 0)) 4 ∧
    gives (.vfma h d a b k ft) (fun j => fFma (fmtOf ft.toNat) false (s.flt ft a 0 j) (s.flt ft b 0 j) (s.flt ft d 0 j)) 5 ∧
    gives (.vfms h d a b k ft) (fun j => fFma (fmtOf ft.toNat) true (s.flt ft a 0 j) (s.flt ft b 0 j) (s.flt ft d 0 j)) 5 ∧
    gives (.vclamp h d a b k ft)
      (fun j => (fClamp (fmtOf ft.toNat) (s.flt ft a 0 j) (s.flt ft b 0 j) (s.flt ft b 1 j), 0)) 4 ∧
    gives (.vcvt h d a c k rm) (fun j => convert c.toNat rm.toNat (s.word a 0 j).toNat) 4

/-- R217: the special cases of the floating-point operations, for every format: a NaN operand gives the default NaN and
no flag; a NaN of operands that are not NaN sets INV; infinities of one sign add up to themselves.
R184: rounding the exact quotient n / d of a value of either sign to an integer: RNE to the nearest, a tie to the even
one; RZ toward zero; RU toward plus infinity; RD toward minus infinity. -/
def Obligations.FloatSpecials : Prop :=
  (∀ (f : Fmt) (a b c : Nat),
    ((f.value a).isNan = true ∨ (f.value b).isNan = true →
      fAdd f a b = (f.nanBits, 0) ∧ fSub f a b = (f.nanBits, 0) ∧ fMul f a b = (f.nanBits, 0) ∧
      fFma f false a b c = (f.nanBits, 0) ∧ fFma f true a b c = (f.nanBits, 0) ∧ fMin f a b = f.nanBits ∧
      fMax f a b = f.nanBits) ∧
    (∀ n, f.value a = .inf n → f.value b = .inf (!n) → fAdd f a b = (f.nanBits, flInv)) ∧
    (∀ n, f.value a = .inf n → f.value b = .inf n →
      fSub f a b = (f.nanBits, flInv) ∧ fAdd f a b = (f.infBits n, 0)) ∧
    (∀ n, f.value a = .inf n → (f.value b).isZero = true →
      fMul f a b = (f.nanBits, flInv) ∧
      ((f.value c).isNan = false → fFma f false a b c = (f.nanBits, flInv) ∧ fFma f true a b c = (f.nanBits, flInv))) ∧
    ∀ m n, f.value a = .inf m → f.value b = .inf n → fMul f a b = (f.infBits (m != n), 0)) ∧
  (∀ (neg : Bool) (n d : Nat), 0 < d →
    let near := roundInt 0 neg n d
    let away := fun rm => if n % d = 0 then n / d else n / d + (if rm then 1 else 0)
    (2 * n ≤ 2 * near * d + d ∧ 2 * near * d ≤ 2 * n + d) ∧
    (2 * n = 2 * near * d + d ∨ 2 * near * d = 2 * n + d → near % 2 = 0) ∧
    roundInt 1 neg n d = n / d ∧ roundInt 2 neg n d = away (!neg) ∧ roundInt 3 neg n d = away neg)

/-- R218, R222, R223: the integer, bitwise, shifting, selecting and moving instructions, element by element, for every
type; only a saturating type sets SAT. -/
def Obligations.IntegerElements : Prop :=
  ∀ (s : State) (h : Hdr) (d a b : BitVec 5) (k : BitVec 1) (t : BitVec 2),
    let arith := fun i (g : Int → Int → Int) n =>
      GivesV s i h d k (fun j => fitOf t (g (s.int t a 0 j) (s.int t b 0 j)))
        (fun j => satOf t (g (s.int t a 0 j) (s.int t b 0 j))) n
    let pick := fun i (g : Nat → Int) => GivesV s i h d k (fun j => wordOf (t.toNat < 2) (g j)) (fun _ => 0) 2
    let bits := fun i (g : Nat → Word) => GivesV s i h d k g (fun _ => 0) 2
    arith (.viadd h d a b k t) (· + ·) 2 ∧ arith (.visub h d a b k t) (· - ·) 2 ∧ arith (.vimul h d a b k t) (· * ·) 4 ∧
    pick (.vimin h d a b k t) (fun j => min (s.cmpInt t a 0 j) (s.cmpInt t b 0 j)) ∧
    pick (.vimax h d a b k t) (fun j => max (s.cmpInt t a 0 j) (s.cmpInt t b 0 j)) ∧
    pick (.viclamp h d a b k t) (fun j => min (max (s.cmpInt t a 0 j) (s.cmpInt t b 0 j)) (s.cmpInt t b 1 j)) ∧
    bits (.vand h d a b k) (fun j => s.word a 0 j &&& s.word b 0 j) ∧
    bits (.vor h d a b k) (fun j => s.word a 0 j ||| s.word b 0 j) ∧
    bits (.vxor h d a b k) (fun j => s.word a 0 j ^^^ s.word b 0 j) ∧
    bits (.vshl h d a b k 0) (fun j => s.word a 0 j <<< ((s.word b 0 j).toNat % 32)) ∧
    bits (.vshr h d a b k 0) (fun j => s.word a 0 j >>> ((s.word b 0 j).toNat % 32)) ∧
    bits (.vsra h d a b k 0) (fun j => BitVec.ofInt 32 ((s.word a 0 j).toInt / 2 ^ ((s.word b 0 j).toNat % 32))) ∧
    bits (.vshl h d a b k 2) (fun j =>
      BitVec.ofNat 32 ((s.word a 0 j).toNat % 2 ^ 16 * 2 ^ ((s.word b 0 j).toNat % 16) % 2 ^ 16)) ∧
    bits (.vshr h d a b k 2) (fun j =>
      BitVec.ofNat 32 ((s.word a 0 j).toNat % 2 ^ 16 / 2 ^ ((s.word b 0 j).toNat % 16))) ∧
    bits (.vsra h d a b k 2) (fun j =>
      wordOf false (((s.word a 0 j).extractLsb' 0 16).toInt / 2 ^ ((s.word b 0 j).toNat % 16))) ∧
    (∀ i, bits (.vmovi h d k i) (fun _ => i)) ∧
    (∀ (row : BitVec 4) (col : BitVec 6) (mode : BitVec 2), bits (.vmovx h d a k row col mode) (fun j =>
      if mode = 0 ∨ (j / 64 = row.toNat ∧ (mode = 1 ∨ j % 64 = col.toNat)) then s.iss.xa.setWidth 32
      else s.word d 0 j)) ∧
    ∀ m : BitVec 3, GivesV s (.vsel h d a b m) h d 0
      (fun j => if (s.cc.getM m.toNat).getLsbD j then s.word a 0 j else s.word b 0 j) (fun _ => 0) 2

/-- R207, R219, R220: VIMAC8 adds, in byte position j, the product of the bytes of v[a] and v[b] to v[d + j], exactly and
then clamped or wrapped; VRSHR rounds to the nearest with ties to even after a shift, and clamps to the range of DR. -/
def Obligations.DotAndRequantise : Prop :=
  ∀ (s : State) (h : Hdr) (d a b : BitVec 5) (k sat au : BitVec 1), d.toNat % 4 = 0 →
    let sum := fun (p j : Nat) =>
      let x := ((s.word a 0 j) >>> (8 * p)).setWidth 8
      let y := ((s.word b 0 j) >>> (8 * p)).setWidth 8
      (s.word d p j).toInt + (if au = 1 then (x.toNat : Int) else x.toInt) * y.toInt
    (∃ t, exec (.vimac8 h d a b k sat au) s = .next t ∧ OnlyQueued s t ∧ OnlyV s.cc t.cc ∧
      (∀ p j, p < 4 → j < 1024 → elem (t.cc.getV (s.vix d p)) j =
        if s.active k j then fitOf (if sat = 1 then 1 else 0) (sum p j) else s.word d p j) ∧
      ∀ r, (∀ p, p < 4 → r ≠ s.vix d p) → t.cc.getV r = s.cc.getV r) ∧
    (∀ (dr : BitVec 2), dr ≠ 0 →
      let lim : Int := if dr = 1 then 2 ^ 7 else if dr = 2 then 2 ^ 15 else 2 ^ 31
      let cut := fun (v : Int) => max (-lim) (min (lim - 1) v)
      GivesV s (.vrshr h d a b k dr) h d k
        (fun j => wordOf (dr ≠ 2) (cut (nearest (s.word a 0 j).toInt ((s.word b 0 j).toNat % 64))))
        (fun j => if cut (nearest (s.word a 0 j).toInt ((s.word b 0 j).toNat % 64)) =
          nearest (s.word a 0 j).toInt ((s.word b 0 j).toNat % 64) then 0 else flSat) 4) ∧
    ∃ t, exec (.vrshr h d a b k 0) s = .next t ∧ OnlyQueued s t ∧ OnlyV s.cc t.cc ∧
      (∀ r, r ≠ s.vix d 0 → t.cc.getV r = s.cc.getV r) ∧
      ∀ p j, p < 4 → j < 1024 → s.active k j = true →
        ((elem (t.cc.getV (s.vix d 0)) j) >>> (8 * p)).setWidth 8 =
          BitVec.ofInt 8 (max (-128) (min 127 (nearest (s.word a p j).toInt ((s.word b 0 j).toNat % 64))))

/-- R215, R216, R223, R230, R231: the repeated forms. Each of the n iterations works on the next registers and sees the
writes of the earlier ones.
R221, R222: the instructions that write a mask register write every bit of it. The conditions of VCMP are false of a
NaN but for ne and unord; the mask instructions are bitwise. -/
def Obligations.RepeatedForms : Prop :=
  (∀ (s : State) (h : Hdr) (d a : BitVec 5) (r : BitVec 3) (k : BitVec 1) (ft : BitVec 2), ft ≠ 3 →
    d.toNat + r.toNat < 32 → a.toNat + r.toNat < 32 →
    let f := fmtOf ft.toNat
    let rd := fun (w : Word) => if ft = 0 then w.toNat else w.toNat % 2 ^ 16
    let rep := fun i (g : Word → Nat) => GivesRep s i d a (r.toNat + 1) k fun w => BitVec.ofNat 32 (g w)
    rep (.vmov h d a r k) (fun w => w.toNat) ∧
    rep (.vabs h d a r k ft) (fun w => fAbs f (rd w)) ∧ rep (.vneg h d a r k ft) (fun w => fNeg f (rd w)) ∧
    rep (.vexp2 h d a r k ft) (fun w => (sfu 0x20 ft.toNat (rd w)).1) ∧
    rep (.vlog2 h d a r k ft) (fun w => (sfu 0x21 ft.toNat (rd w)).1) ∧
    rep (.vexp h d a r k ft) (fun w => (sfu 0x22 ft.toNat (rd w)).1) ∧
    rep (.vlog h d a r k ft) (fun w => (sfu 0x23 ft.toNat (rd w)).1) ∧
    rep (.vrsqrt h d a r k ft) (fun w => (sfu 0x24 ft.toNat (rd w)).1) ∧
    rep (.vrcp h d a r k ft) (fun w => (sfu 0x25 ft.toNat (rd w)).1) ∧
    rep (.vsqrt h d a r k ft) (fun w => (sfu 0x26 ft.toNat (rd w)).1) ∧
    rep (.vtanh h d a r k ft) (fun w => (sfu 0x27 ft.toNat (rd w)).1) ∧
    rep (.vsigm h d a r k ft) (fun w => (sfu 0x28 ft.toNat (rd w)).1)) ∧
  (∀ (s : State) (h : Hdr) (ft ct : BitVec 2) (vd c : BitVec 3) (a b : BitVec 5) (d e : BitVec 5) (g : BitVec 3), ft ≠ 3 →
    let x := fun j => (fmtOf ft.toNat).value (s.flt ft a 0 j)
    let y := fun j => (fmtOf ft.toNat).value (s.flt ft b 0 j)
    let nan := fun j => (x j).isNan || (y j).isNan
    GivesM s (.vcmp h ft vd a b 0) h vd.toNat (fun j => !nan j && !(x j).lt (y j) && !(y j).lt (x j)) ∧
    GivesM s (.vcmp h ft vd a b 1) h vd.toNat (fun j => nan j || (x j).lt (y j) || (y j).lt (x j)) ∧
    GivesM s (.vcmp h ft vd a b 2) h vd.toNat (fun j => !nan j && (x j).lt (y j)) ∧
    GivesM s (.vcmp h ft vd a b 3) h vd.toNat (fun j => !nan j && !(x j).lt (y j)) ∧
    GivesM s (.vcmp h ft vd a b 4) h vd.toNat (fun j => !nan j && !(y j).lt (x j)) ∧
    GivesM s (.vcmp h ft vd a b 5) h vd.toNat (fun j => !nan j && (y j).lt (x j)) ∧
    GivesM s (.vcmp h ft vd a b 6) h vd.toNat (fun j => !nan j) ∧
    GivesM s (.vcmp h ft vd a b 7) h vd.toNat nan ∧
    (c.toNat < 6 → ∀ o : Nat → Bool,
      (∀ j, o j = true ↔ Condition c.toNat (s.cmpInt ct a 0 j) (s.cmpInt ct b 0 j)) →
      GivesM s (.vicmp h ct vd a b c) h vd.toNat o) ∧
    GivesM s (.vmand h d e g) h d.toNat (fun j => (s.cc.getM e.toNat).getLsbD j && (s.cc.getM g.toNat).getLsbD j) ∧
    GivesM s (.vmor h d e g) h d.toNat (fun j => (s.cc.getM e.toNat).getLsbD j || (s.cc.getM g.toNat).getLsbD j) ∧
    GivesM s (.vmxor h d e g) h d.toNat (fun j => (s.cc.getM e.toNat).getLsbD j != (s.cc.getM g.toNat).getLsbD j) ∧
    GivesM s (.vmandn h d e g) h d.toNat (fun j => (s.cc.getM e.toNat).getLsbD j && !(s.cc.getM g.toNat).getLsbD j) ∧
    GivesM s (.vmnot h d e) h d.toNat (fun j => !(s.cc.getM e.toNat).getLsbD j))

/-- R235, R238: rotates, broadcasts and permutes move 32 untyped bits from the element each result names; an index with
bit 31 set gives 0.
R236: a reduction gives each row, or each column, the value of the fixed tree of pairs over its elements: in column 0,
or row 0, with zeros beside it, or everywhere with BC. TY is 0 F32, 1 BF16, 2 FP16, 3 I32; OP is 0 SUM, 1 MAX, 2 MIN. -/
def Obligations.VectorMoves : Prop :=
  (∀ (s : State) (h : Hdr) (d a b : BitVec 5) (k : BitVec 1) (n : BitVec 6) (m : BitVec 4),
    let at_ := fun r c => s.word a 0 (64 * r + c)
    let none := fun _ => (0 : Flags)
    GivesV s (.vrotr h d a k n) h d k (fun j => at_ (j / 64) ((j % 64 + (64 - n.toNat)) % 64)) none 2 ∧
    GivesCross s (.vrotc h d a k m) h d k (fun j => at_ ((j / 64 + (16 - m.toNat)) % 16) (j % 64)) none 5 ∧
    GivesV s (.vbcr h d a k n) h d k (fun j => at_ (j / 64) n.toNat) none 2 ∧
    GivesCross s (.vbcc h d a k m) h d k (fun j => at_ m.toNat (j % 64)) none 5 ∧
    (let ix := fun j => (s.word b 0 j).toNat
     GivesCross s (.vperm h d a b k 0) h d k
      (fun j => if 2 ^ 31 ≤ ix j then 0 else at_ (ix j / 64 % 16) (ix j % 64)) none 24 ∧
     GivesCross s (.vperm h d a b k 1) h d k (fun j => if 2 ^ 31 ≤ ix j then 0 else at_ (j / 64) (ix j % 64)) none 24)) ∧
  (∀ (s : State) (h : Hdr) (d a : BitVec 5) (bc : BitVec 1) (ty op : BitVec 2), op ≠ 3 →
    let rd := fun j => if ty = 1 ∨ ty = 2 then (s.word a 0 j).toNat % 2 ^ 16 else (s.word a 0 j).toNat
    let f := fmtOf ty.toNat
    let int := fun (v : Nat) => (BitVec.ofNat 32 v).toInt
    let o := fun x y =>
      if ty = 3 then
        (BitVec.ofInt 32 (if op = 0 then int x + int y else if op = 1 then max (int x) (int y) else min (int x) (int y))).toNat
      else if op = 0 then (fAdd f x y).1 else if op = 1 then fMax f x y else fMin f x y
    WritesV s (.vredr h d a bc ty op) d (fun j =>
      if bc = 1 ∨ j % 64 = 0 then BitVec.ofNat 32 (treeOf o (fun c => rd (64 * (j / 64) + c)) 6 0) else 0) ∧
    WritesV s (.vredc h d a bc ty op) d (fun j =>
      if bc = 1 ∨ j / 64 = 0 then BitVec.ofNat 32 (treeOf o (fun r => rd (64 * r + j % 64)) 4 0) else 0))

/-- R241 to R246: the vector loads. A misaligned operand raises MISALIGNED and nothing is read.
R241 to R246: the vector stores. -/
def Obligations.VectorMemory : Prop :=
  (∀ (s : State) (h : Hdr) (d a b : BitVec 5) (k w : BitVec 1),
    let x := s.iss.xa.toNat
    let y := s.iss.xb.toNat
    let z := width w
    let m := fun n => n % 2 ^ 64
    (x % 64 = 0 → VectorLoad s (.vld h d a k w) d k w 0 (fun j => m (x + 64 * z * (j / 64) + z * (j % 64)))) ∧
    (x % 64 = 0 → y % 64 = 0 →
      VectorLoad s (.vlds h d a b k w) d k w 4 (fun j => m (x + y * (j / 64) + z * (j % 64)))) ∧
    (x % (16 * z) = 0 → y % (16 * z) = 0 →
      VectorLoad s (.vldc h d a b k w) d k w 4 (fun j => m (x + y * (j % 64) + z * (j / 64)))) ∧
    (x % 64 = 0 → VectorLoad s (.vldb h d a k 0 w) d k w 0 (fun j => m (x + z * (j % 64)))) ∧
    (x % z = 0 → VectorLoad s (.vldb h d a k 1 w) d k w 0 (fun _ => x)) ∧
    (x % z = 0 → VectorLoad s (.vldg h d a b k w) d k w 8 (fun j => m (x + z * ((s.word b 0 j).toNat % 2 ^ 24)))) ∧
    (x % 64 ≠ 0 → exec (.vld h d a k w) s = .next (s.raise cMisaligned s.iss.xa) ∧
      exec (.vlds h d a b k w) s = .next (s.raise cMisaligned s.iss.xa) ∧
      exec (.vldb h d a k 0 w) s = .next (s.raise cMisaligned s.iss.xa)) ∧
    (d.toNat < 8 → x % 64 = 0 → (∀ r, r < 16 → InReach s (m (x + 8 * r)) 8) →
      ∃ t, exec (.vldm h d a) s = .next t ∧ OnlyQueued s t ∧
        OnlyCounts s.cc { t.cc with vm := s.cc.vm, re := s.cc.re, rx := s.cc.rx, late := s.cc.late, far := s.cc.far } ∧
        (∀ j, j < 1024 → (t.cc.getM d.toNat).getLsbD j =
          (coreByte s (m (x + 8 * (j / 64)) + j % 64 / 8)).getLsbD (j % 8)) ∧
        ∀ r, r ≠ d.toNat → t.cc.getM r = s.cc.getM r)) ∧
  (∀ (s : State) (h : Hdr) (d a b : BitVec 5) (k w : BitVec 1),
    let x := s.iss.xa.toNat
    let y := s.iss.xb.toNat
    let z := width w
    let m := fun n => n % 2 ^ 64
    (x % 64 = 0 → VectorStore s (.vst h d a k w) d k w 0 (fun j => m (x + 64 * z * (j / 64) + z * (j % 64)))) ∧
    (x % 64 = 0 → y % 64 = 0 →
      VectorStore s (.vsts h d a b k w) d k w 4 (fun j => m (x + y * (j / 64) + z * (j % 64)))) ∧
    (x % (16 * z) = 0 → y % (16 * z) = 0 →
      VectorStore s (.vstc h d a b k w) d k w 4 (fun j => m (x + y * (j % 64) + z * (j / 64)))) ∧
    (x % z = 0 → VectorStore s (.vstx h d a b k w) d k w 8 (fun j => m (x + z * ((s.word b 0 j).toNat % 2 ^ 24)))) ∧
    (x % 64 ≠ 0 → exec (.vst h d a k w) s = .next (s.raise cMisaligned s.iss.xa) ∧
      exec (.vsts h d a b k w) s = .next (s.raise cMisaligned s.iss.xa)) ∧
    (d.toNat < 8 → x % 64 = 0 → (∀ r, r < 16 → InReach s (m (x + 8 * r)) 8) → Memory.wf s.mem = true →
      ∃ t, exec (.vstm h d a) s = .next t ∧ OnlyQueued s { t with mem := s.mem } ∧ OnlyCounts s.cc t.cc ∧
        (∀ r n y, r < 16 → n < 8 → judgeCore s (s.windows s.iss.ctx) (m (x + 8 * r) + n) = .inl y →
          mget t.mem y = (s.cc.getM d.toNat).extractLsb' (64 * r + 8 * n) 8) ∧
        ∀ y, (∀ r n, r < 16 → n < 8 → judgeCore s (s.windows s.iss.ctx) (m (x + 8 * r) + n) ≠ .inl y) →
          mget t.mem y = mget s.mem y))

/-- R226 to R229: the conversion unit. VQNT stores, for each of its N blocks, the 64 bytes of the block quantised from the
Kb elements it covers, those past KREM taken as +0; VDQNT stores the elements of each block it reads. No other byte of
memory and no register changes. A format 5 source or destination type, or a count out of range, is CONV_FIELD. -/
def Obligations.Conversions : Prop :=
  ∀ (s : State) (h : Hdr) (a b : BitVec 5) (f : BitVec 3) (g : BitVec 2),
    let c := convOf s
    let w := s.windows s.iss.ctx
    let p := s.iss.xb.toNat
    let kb := if f = 1 then 112 else 56
    let z := if c.st = 0 then 4 else 2
    (c.countOk = false → exec (.vqnt h a b f) s = .next (s.raise cConvField) ∧
      exec (.vdqnt h a b g) s = .next (s.raise cConvField)) ∧
    (1 ≤ f.toNat → f.toNat ≤ 4 → c.countOk = true → c.st ≠ 3 → bit p 7 = false → bits p 14 2 = 0 → c.tag ≠ 0 →
      c.src % z = 0 → c.dst % 64 = 0 → overlap c.src (z * c.n * kb) c.dst (64 * c.n) = false →
      (∀ k, k < c.n → InReach s (c.src + z * (k * kb)) (z * (min ((k + 1) * kb) c.krem - k * kb)) ∧
        InReach s (c.dst + 64 * k) 64) →
      Memory.wf s.mem = true →
      ∃ t, exec (.vqnt h a b f) s = .next t ∧ OnlyQueued s { t with mem := s.mem } ∧ OnlyCounts s.cc t.cc ∧
        StoresAt s t c.dst ((List.range c.n).flatMap fun k =>
          (quantBlock f.toNat c.tag ((List.range kb).map fun e =>
            if k * kb + e < c.krem then
              (fmtOf c.st).value (leNat ((List.range z).map fun y => coreByte s (c.src + z * (k * kb + e) + y)))
            else .fin false 0 0) (fget s.cc.hs c.tag 0) (c.g0 + 7 * k)).1)) ∧
    let fam := bits p 12 1
    let kd := if fam = 0 then 112 else 56
    let y := if g = 0 then 4 else 2
    let blk := fun k => scratchBytes s w (c.src + 64 * k) 64
    g ≠ 3 → c.countOk = true → bits p 7 5 = 0 → bits p 13 19 = 0 → c.src % 64 = 0 → c.dst % y = 0 →
      overlap c.src (64 * c.n) c.dst (y * c.n * kd) = false → InReach s c.src (64 * c.n) →
      InReach s c.dst (y * c.n * kd) →
      (∀ k, k < c.n → sdbFmt (blk k) = 15 ∨ if fam = 0 then sdbFmt (blk k) = 1 else 2 ≤ sdbFmt (blk k) ∧ sdbFmt (blk k) ≤ 4) →
      Memory.wf s.mem = true →
      ∃ t, exec (.vdqnt h a b g) s = .next t ∧ OnlyQueued s { t with mem := s.mem } ∧ OnlyCounts s.cc t.cc ∧
        StoresAt s t c.dst ((List.range c.n).flatMap fun k =>
          (dequantBlock (blk k) (kd / 7) (fun m => fget s.cc.hs m 0) (c.g0 + 7 * k)).1.flatMap fun v =>
            leBytes y (narrow g.toNat v))

/-- R163: the owner of a tile. OWN.E makes the tiles the engine's at once; OWN.C is a command that does so in its turn; a
length of 0 changes no owner. A base or a length that is no multiple of a tile raises MISALIGNED.
R164: TMOV. A shape of zero raises TMOV_SHAPE, an address no multiple of 256 MISALIGNED; ranges in one window, in
engine-owned tiles and apart from each other, are accepted as one command of the engine. -/
def Obligations.Tiles : Prop :=
  (∀ (s : State) (h : Hdr) (a b : BitVec 5) (k : BitVec 1),
    let base := s.iss.xa.toNat
    let len := s.iss.xb.toNat
    let w := s.windows s.iss.ctx
    (len = 0 → OnlyCompletes s (.ownE h a b k) ∧ OnlyCompletes s (.ownC h a b k)) ∧
    (len ≠ 0 → base % 4096 ≠ 0 ∨ len % 4096 ≠ 0 →
      exec (.ownE h a b k) s = .next (s.raise cMisaligned s.iss.xa) ∧
      exec (.ownC h a b k) s = .next (s.raise cMisaligned s.iss.xa)) ∧
    (len ≠ 0 → base % 4096 = 0 → len % 4096 = 0 → ownOk w base len = false →
      exec (.ownE h a b k) s = .next (s.raise cOwnRange) ∧ exec (.ownC h a b k) s = .next (s.raise cOwnRange)) ∧
    (len ≠ 0 → base % 4096 = 0 → len % 4096 = 0 → ownOk w base len = true →
      (∃ t, exec (.ownE h a b k) s = .next t ∧ OnlyQueued s { t with owned := s.owned } ∧ OnlyCounts s.cc t.cc ∧
        Owners s t (s.windows s.iss.ctx) base len true) ∧
      (atLimit s = true → exec (.ownC h a b k) s = .next s.notYet) ∧
      (atLimit s = false →
        AcceptsCmd s (.ownC h a b k)
          { s.newCmd .ownc ⟨false, false, k == 1, false, 0⟩ with w0 := s.iss.xa, w1 := s.iss.xb } id))) ∧
  (∀ (s : State) (h : Hdr) (d a b : BitVec 5) (k : BitVec 1),
    let x := s.iss.xa.toNat
    let y := s.iss.xb.toNat
    let e := s.iss.xd.toNat
    let m := tmovBlock s
    let shape := bits y 0 12 ≠ 0 ∧ bits y 12 12 ≠ 0 ∧ bits y 24 12 ≠ 0 ∧ y < 2 ^ 36
    (m.len = 256 * bits y 0 12 ∧ m.n1 = bits y 12 12 ∧ m.n2 = bits y 24 12 ∧ m.src.toNat = bits x 0 32 ∧
      m.dst.toNat = bits x 32 32 ∧ m.ss1.toNat = 256 * bits e 0 16 ∧ m.ds1.toNat = 256 * bits e 16 16 ∧
      m.ss2.toNat = 256 * bits e 32 16 ∧ m.ds2.toNat = 256 * bits e 48 16) ∧
    (¬ shape → exec (.tmov h d a b k) s = .next (s.raise cTmovShape)) ∧
    (shape → bits x 0 32 % 256 ≠ 0 ∨ bits x 32 32 % 256 ≠ 0 → exec (.tmov h d a b k) s = .next (s.raise cMisaligned)) ∧
    (shape → bits x 0 32 % 256 = 0 → bits x 32 32 % 256 = 0 →
      (∀ v, tmovRange s (s.windows s.iss.ctx) m = some v →
        exec (.tmov h d a b k) s = .next (s.raise cTmovRange (BitVec.ofNat 64 v))) ∧
      (tmovRange s (s.windows s.iss.ctx) m = none →
        (atLimit s = true → exec (.tmov h d a b k) s = .next s.notYet) ∧
        (atLimit s = false →
          AcceptsCmd s (.tmov h d a b k) { s.newCmd .tmov ⟨false, false, k == 1, false, 0⟩ with b := m } id))))

/-- R277, R283, R290, R293, R299, R301, R303: the copy instructions that have a pattern. A block that is misaligned, out of
range or malformed faults in that order; a full core holds the instruction; else the command is accepted.
R291: CPYT is accepted like CPY; a time the task has reached issues it at once and counts in LATE, any other puts it
into the timetable, which holds 256 commands.
R284, R294, R297, R298: swaps, loading a position set and walks are accepted as commands; PBINV and PBINV.ALL take
blocks of their part out of the cluster's cache. -/
def Obligations.CopyCommands : Prop :=
  (∀ (s : State) (h : Hdr) (a : BitVec 5) (x : CExt) (op : BitVec 3) (ty : BitVec 2) (pc : BitVec 6) (r : List Byte),
    let b := blockOf r
    let z := if ty = 1 then 8 else if ty = 3 then 2 else 4
    let new := fun (k : CmdKind) => s.newCmd k x
    let acc := fun (k : CmdKind) => { s.newCmd k x with op := op.toNat, ty := ty.toNat }
    let on := fun (c : Cmd) => c.withBlock s (s.windows s.iss.ctx) r
    let elems := b.elemAligned z = true ∧ op.toNat ≤ 5 ∧ (2 ≤ ty.toNat → op.toNat ≤ 2) ∧ b.aux2 = 0
    (s.iss.xa.toNat % 64 ≠ 0 →
      exec (.cpy h a x) s = .next (s.raise cMisaligned) ∧ exec (.cacc h a x op ty) s = .next (s.raise cMisaligned) ∧
      exec (.caccf h a x op ty) s = .next (s.raise cMisaligned) ∧ exec (.cgath h a x) s = .next (s.raise cMisaligned) ∧
      exec (.cscat h a x) s = .next (s.raise cMisaligned) ∧ exec (.cput h a x pc) s = .next (s.raise cMisaligned)) ∧
    (BlockAt s s.iss.xa.toNat r → ¬ BlockOk r ∨ ¬ SemOk s x →
      exec (.cpy h a x) s = .next (s.raise cCopyField) ∧ exec (.cacc h a x op ty) s = .next (s.raise cCopyField) ∧
      exec (.caccf h a x op ty) s = .next (s.raise cCopyField) ∧ exec (.cgath h a x) s = .next (s.raise cCopyField) ∧
      exec (.cscat h a x) s = .next (s.raise cCopyField) ∧ exec (.cput h a x pc) s = .next (s.raise cCopyField)) ∧
    (b.aux = 0 → b.aux2 = 0 → AcceptsPattern s (.cpy h a x) (new .cpy) r) ∧
    (elems → b.aux = 0 → (b.dsp = false → restartBad s (on (acc .cacc)) (on (acc .cacc)).dstSpan = false) →
      AcceptsPattern s (.cacc h a x op ty) (acc .cacc) r) ∧
    (elems → b.aux.toNat % z = 0 →
      spanOk s (s.windows s.iss.ctx) (b.aux.toNat, b.aux.toNat + (on (acc .caccf)).total - 1) = true →
      (b.dsp = false → restartBad s (on (acc .caccf)) (on (acc .caccf)).dstSpan = false) →
      AcceptsPattern s (.caccf h a x op ty) (acc .caccf) r) ∧
    (b.n2 = 1 → b.ss2 = 0 → b.ds2 = 0 → b.aux2 = 0 → b.aux.toNat % 4 = 0 →
      spanOk s (s.windows s.iss.ctx) (b.aux.toNat, b.aux.toNat + 4 * b.n1 - 1) = true →
      AcceptsPattern s (.cgath h a x) (new .cgath) r ∧ AcceptsPattern s (.cscat h a x) (new .cscat) r) ∧
    (b.dsp = false → b.aux.toNat < 2 ^ 20 → b.aux2 = 0 →
      AcceptsPattern s (.cput h a x pc) { s.newCmd .cput x with arg := pc.toNat } r)) ∧
  (∀ (s : State) (h : Hdr) (a b : BitVec 5) (x : CExt) (r : List Byte),
    let c := (s.newCmd .cpyt x).withBlock s (s.windows s.iss.ctx) r
    let now := s.schedOf s.iss.ctx
    let use := fun (k : Cluster) => k.useBlock s.cc.part s.iss.xa.toNat r
    BlockAt s s.iss.xa.toNat r → BlockOk r → SemOk s x → c.b.aux = 0 → c.b.aux2 = 0 → SidesOk s c →
    (atLimit s = true ∨ 256 ≤ (timetable s (clusterOf (coreOf s.iss.ctx))).length →
      exec (.cpyt h a b x) s = .next s.notYet) ∧
    (atLimit s = false → (timetable s (clusterOf (coreOf s.iss.ctx))).length < 256 →
      (s.iss.xb.toNat ≤ now →
        AcceptsCmd s (.cpyt h a b x) c fun k => { use k with late := (use k).late + 1 }) ∧
      (now < s.iss.xb.toNat →
        ∃ t, exec (.cpyt h a b x) s = .next t ∧ t.cmd s.nextId = { c with timed := true, w0 := s.iss.xb } ∧
          (∀ j, j ≠ s.nextId → fget? t.cmds j = fget? s.cmds j) ∧ t.myCluster = use s.myCluster ∧
          OnlyQueued s { t with cmds := s.cmds, nextId := s.nextId, clusters := s.clusters } ∧ OnlyCounts s.cc t.cc))) ∧
  (∀ (s : State) (h : Hdr) (d a b : BitVec 5) (x : CExt) (sz sp : BitVec 1) (set : BitVec 5) (qi qv : BitVec 6)
      (vsz : BitVec 2) (r : List Byte),
    let w := s.windows s.iss.ctx
    let xa := s.iss.xa.toNat
    let xb := s.iss.xb.toNat
    let xd := s.iss.xd.toNat
    let n := if sz = 0 then 4 else 8
    let first := xb % 2 ^ 32
    let last := xb / 2 ^ 32
    let ri := s.ring (s.myPcore s.iss.ctx) qi.toNat
    let rv := s.ring (s.myPcore s.iss.ctx) qv.toNat
    let v := if vsz = 0 then 4 else if vsz = 1 then 2 else 8
    let walk : Cmd := { s.newCmd .cwalk x with
      b := blockOf r, op := qi.toNat, ty := qv.toNat, arg := v, w0 := BitVec.ofNat 64 last, row := first
      w1 := BitVec.ofNat 64 first }
    let swap := fun (k : CmdKind) (i : Instr) (m : Nat) =>
      SemOk s x → xa % n = 0 → xb % n = 0 → xd % n = 0 → (∀ j, j < m * n → (homeIn w (xb + j)).isSome = true) →
      spanOk s w (xd, xd + n - 1) = true → (sp = 1 → spanOk s w (xa, xa + n - 1) = true) →
      (sp = 0 → restartBad s (s.newCmd k x) (xa, xa + n - 1) = false) → atLimit s = false →
      AcceptsCmd s i { s.newCmd k x with
        op := n, ty := sp.toNat, w0 := s.iss.xa, w1 := s.iss.xd
        idx := [leNat (winBytes s w xb n), if m = 2 then leNat (winBytes s w (xb + n) n) else 0] } id
    (xa % n ≠ 0 ∨ xb % n ≠ 0 ∨ xd % n ≠ 0 → SemOk s x →
      exec (.cswp h d a b x sz sp) s = .next (s.raise cMisaligned) ∧
      exec (.ccas h d a b x sz sp) s = .next (s.raise cMisaligned)) ∧
    swap .cswp (.cswp h d a b x sz sp) 1 ∧ swap .ccas (.ccas h d a b x sz sp) 2 ∧
    (isMatrix (coreOf s.iss.ctx) = true → SemOk s x → xa % 256 = 0 → spanOk s w (xa, xa + 2047) = true →
      atLimit s = false →
      AcceptsCmd s (.cpsm h a x set) { s.newCmd .cpsm x with arg := set.toNat, w0 := s.iss.xa } id) ∧
    (vsz ≠ 3 → BlockAt s xa r → fieldAt r 0 1 = 1 → fieldAt r 1 1 < 2 → (∀ k, (2 ≤ k ∧ k < 8) ∨ (16 ≤ k ∧ k < 48) →
        r.getD k 0 = 0) →
      profileOf (coreOf s.iss.ctx) = .gather → SemOk s x → first ≤ last → 256 * ri.ssz / 4 = 256 * rv.ssz / v →
      ri.nslot ≠ 0 → rv.nslot ≠ 0 → ri.produces = true → rv.produces = true → walkOk s w walk first last v = true →
      atLimit s = false →
      AcceptsCmd s (.cwalk h a b x qi qv vsz) walk fun k => k.useBlock s.cc.part xa r) ∧
    let left := fun (i : Instr) (gone : Nat × Nat × List Byte → Bool) =>
      ∃ t, exec i s = .next t ∧ OnlyQueued s { t with clusters := s.clusters } ∧ OnlyCounts s.cc t.cc ∧
        (∀ k, k ≠ clusterOf (coreOf s.iss.ctx) → t.cluster k = s.cluster k) ∧
        t.myCluster = { s.myCluster with pbc := s.myCluster.pbc.filter fun e => !gone e }
    left (.pbinv h a) (fun e => e.1 == s.cc.part && e.2.1 == xa) ∧ left (.pbinvAll h) (fun e => e.1 == s.cc.part))

/-- R355, R359, R360, R362: the ring instructions. RCLAIM gives the slot after the filled and the claimed ones and counts
it; RPEEK gives the i-th filled slot; RCOMMIT and RPOP are checked at issue and applied in the next clk, or in the clk after the
last earlier access of their queue is performed; the waits hold their queue. A register with no slots, or a count beyond them, is RING_FIELD; the wrong end is RING_END. -/
def Obligations.Rings : Prop :=
  ∀ (s : State) (h : Hdr) (d a b : BitVec 5) (u : BitVec 1),
    let q := b.toNat + 32 * u.toNat
    let r := fget s.myCore.rings q {}
    let n := if a = 0 then 1 else s.iss.xa.toNat % 2 ^ 32
    let free := r.nslot - r.fill - r.clm
    let slot := fun j => r.base + 256 * r.ssz * (j % r.nslot)
    let v := BitVec.ofNat 64 q
    let prod := r.fin ≠ 2 ∧ r.linkFed = false
    let bad := r.nslot = 0 ∨ r.nslot < n
    (s.iss.again = false → bad →
      exec (.rwaitf h a b u) s = .next (s.raise cRingField v) ∧ exec (.rwaite h a b u) s = .next (s.raise cRingField v) ∧
      exec (.rcommit h a b u) s = .next (s.raise cRingField v) ∧ exec (.rpop h a b u) s = .next (s.raise cRingField v)) ∧
    (r.nslot = 0 → exec (.rclaim h d b u) s = .next (s.raise cRingField v) ∧
      exec (.rpeek h d a b u) s = .next (s.raise cRingField v)) ∧
    (r.nslot ≠ 0 → ¬ prod → exec (.rclaim h d b u) s = .next (s.raise cRingEnd v)) ∧
    (r.nslot ≠ 0 → r.fin = 1 → exec (.rpeek h d a b u) s = .next (s.raise cRingEnd v)) ∧
    (r.nslot ≠ 0 → prod →
      (free = 0 → exec (.rclaim h d b u) s = .next (s.raise cRingFull v)) ∧
      (free ≠ 0 → ∃ t, exec (.rclaim h d b u) s = .next t ∧
        XLanded s { t with pcores := s.pcores } d (BitVec.ofNat 64 (slot (r.tail + r.fill + r.clm))) ∧
        SetsRing s t q { r with clm := r.clm + 1 })) ∧
    (let i := if a = 0 then 0 else s.iss.xa.toNat
     r.nslot ≠ 0 → r.fin ≠ 1 →
      (r.fill ≤ i → exec (.rpeek h d a b u) s = .next (s.raise cRingEmpty v)) ∧
      (i < r.fill → LandsX s (.rpeek h d a b u) d (BitVec.ofNat 64 (slot (r.tail + i))))) ∧
    (¬ bad → r.fin ≠ 1 → (n ≤ r.fill → OnlyCompletes s (.rwaitf h a b u)) ∧ (r.fill < n → Waits s (.rwaitf h a b u))) ∧
    (¬ bad → prod → (n ≤ free → OnlyCompletes s (.rwaite h a b u)) ∧ (free < n → Waits s (.rwaite h a b u))) ∧
    (s.iss.again = false → ¬ bad → prod →
      (n = 0 → OnlyCompletes s (.rcommit h a b u)) ∧
      (r.clm < n → exec (.rcommit h a b u) s = .next (s.raise cRingNoclaim v)) ∧
      (n ≠ 0 → n ≤ r.clm → Waits s (.rcommit h a b u))) ∧
    (s.iss.again = false → ¬ bad → r.fin ≠ 1 →
      (n = 0 → OnlyCompletes s (.rpop h a b u)) ∧
      (r.fill < n → exec (.rpop h a b u) s = .next (s.raise cRingEmpty v)) ∧
      (n ≠ 0 → n ≤ r.fill → Waits s (.rpop h a b u))) ∧
    (s.iss.again = true → s.accessed (s.now - 1) = false → Waits s (.rcommit h a b u) ∧ Waits s (.rpop h a b u)) ∧
    (s.iss.again = true → s.accessed (s.now - 1) = true → r.nslot ≠ 0 → n ≠ 0 →
      (let done := fun i (x : Ring) (kind : Nat) => ∃ t, exec i s = .next t ∧ SetsRing s t q x ∧
          OnlyQueued s { t with pcores := s.pcores, syncs := s.syncs, nextId := s.nextId } ∧ OnlyCounts s.cc t.cc ∧
          (r.fin = 0 ∨ r.linkFed = true → t.syncs = s.syncs) ∧
          (r.fin ≠ 0 → r.linkFed = false →
            SendsSync s t { kind := kind, part := s.cc.part, core := r.other, ix := q, amount := n })
       (n ≤ r.clm → done (.rcommit h a b u) { r with clm := r.clm - n, fill := r.fill + n } 0) ∧
       (n ≤ r.fill →
         done (.rpop h a b u) { r with tail := (r.tail + n) % r.nslot, fill := r.fill - n } 1)))

/-- R364, R365: the named barriers. BARI sets the expected count, and completes a phase that has all its arrivals; BARA of
the core's own barrier writes the generation and counts the arrival, that of another core's barrier or with ENG sets out
on its way; BARW completes when the generation has changed.
R367, R368: the package barriers. PBARA does not issue before every earlier access of its queue has been performed. An arrival
is counted in the order of its clk; the arrival that completes a phase
releases it 40 clks of SCHEDTIME after its own clk; PBARW waits for the phase its context joined last. -/
def Obligations.Barriers : Prop :=
  (∀ (s : State) (h : Hdr) (d a b : BitVec 5) (i : BitVec 8) (g : BitVec 1) (core k : Nat),
    let addr := barAddr s s.iss.xa.toNat
    let mine := core = physOf (coreOf s.iss.ctx)
    let r := fget s.myCore.bars k {}
    let fault := fun j c => exec j s = .next (s.raise c s.iss.xa)
    (addr = none → fault (.bari h a i) cBarAddr ∧ fault (.bara h d a g) cBarAddr ∧ fault (.barw h a b) cBarAddr) ∧
    (addr = some (core, k) → ¬ mine → fault (.bari h a i) cBarAddr ∧ fault (.barw h a b) cBarAddr) ∧
    (addr = some (core, k) → mine →
      (r.exp ≠ 0 → r.cnt ≠ 0 → fault (.bari h a i) cBarState) ∧
      (r.exp = 0 ∨ r.cnt = 0 → ∃ t, exec (.bari h a i) s = .next t ∧
        OnlyQueued s { t with pcores := s.pcores } ∧ OnlyCounts s.cc t.cc ∧
        (r.cnt < i.toNat → SetsBar s t k { r with exp := i.toNat }) ∧
        (i.toNat ≤ r.cnt → SetsBar s t k (nextPhase { r with exp := i.toNat }))) ∧
      (g = 0 → r.cnt = 65535 → fault (.bara h d a g) cBarState) ∧
      (g = 0 → r.cnt ≠ 65535 → ∃ t, exec (.bara h d a g) s = .next t ∧
        XLanded s { t with pcores := s.pcores } d (BitVec.ofNat 64 r.gen) ∧
        (r.exp = 0 ∨ r.cnt + 1 ≠ r.exp → SetsBar s t k { r with cnt := r.cnt + 1 }) ∧
        (r.exp ≠ 0 → r.cnt + 1 = r.exp → SetsBar s t k (nextPhase { r with cnt := r.cnt + 1 }))) ∧
      (r.gen ≠ s.iss.xb.toNat % 2 ^ 32 → OnlyCompletes s (.barw h a b)) ∧
      (r.gen = s.iss.xb.toNat % 2 ^ 32 → Waits s (.barw h a b))) ∧
    (addr = some (core, k) → g = 1 ∨ ¬ mine →
      ∃ t u, exec (.bara h d a g) s = .next t ∧ OnlyQueued s { t with syncs := s.syncs, nextId := s.nextId } ∧
        OnlyCounts s.cc t.cc ∧ SendsSync s t u ∧ u.fromLane s ∧ u.kind = 2 ∧ u.core = core ∧ u.ix = k ∧
        u.d = physX s.iss.rot d.toNat ∧ u.after = if g = 1 then 0 :: commandsOf s s.iss.ctx else [])) ∧
  (∀ (s : State) (h : Hdr) (a : BitVec 5),
    let v := s.iss.xa.toNat
    let t := s.taskOf s.iss.ctx
    let j := v % 64
    let n := v / 2 ^ 16 % 2 ^ 16
    let o := orderArrivals s t j
    let ok := j < (s.task t).launch.npb ∧ v / 64 % 2 ^ 10 = 0 ∧ v / 2 ^ 32 = 0
    (¬ ok ∨ n = 0 → exec (.pbara h a) s = .next (s.raise cPbRange s.iss.xa)) ∧
    (s.iss.again = false → ¬ ok → exec (.pbarw h a) s = .next (s.raise cPbRange s.iss.xa)) ∧
    (ok → n ≠ 0 → s.accessed s.now = false → exec (.pbara h a) s = .next s.notYet) ∧
    (ok → n ≠ 0 → s.accessed s.now = true → ∃ u, exec (.pbara h a) s = .next u ∧ OnlyQueued o { u with tasks := o.tasks } ∧ OnlyCounts o.cc u.cc ∧
      u.pbar t j = (o.pbar t j).add ⟨o.schedOf o.iss.ctx, o.iss.ctx, n, o.iss.line, o.iss.lane⟩ ∧
      { u.task t with pbars := (o.task t).pbars } = o.task t ∧
      (∀ k, k ≠ j → u.pbar t k = o.pbar t k) ∧ ∀ k, k ≠ t → u.task k = o.task k) ∧
    (ok → pbReleased o t j = true → ∃ u, exec (.pbarw h a) s = .next u ∧ OnlyQueued o u ∧ OnlyCounts o.cc u.cc) ∧
    (ok → pbReleased o t j = false → ∃ u, exec (.pbarw h a) s = .next u ∧ u.iss.wait = true ∧
      OnlyQueued { o with iss := u.iss } u ∧ OnlyCounts o.cc u.cc) ∧
    (∀ p : PArr, (o.pbar t j).arrived ≠ 0 → (o.pbar t j).arrived + 1 = (o.pbar t j).n → p.n = (o.pbar t j).n →
      (countArrival o t j p).pbar t j = { o.pbar t j with
        arrived := 0, phase := (o.pbar t j).phase + 1
        release := fset (o.pbar t j).release (o.pbar t j).phase (p.at_ + 40) }) ∧
    ∀ e : State, e.ev.a = t → e.ev.b = j → (e.pbar t j).recent = [] →
      ∀ f clk rest, (e.pbar t j).release = (f, clk) :: rest →
        (clk ≤ e.schedLow t → ∃ u, exec .pbarRelease e = .next u ∧
          u.pbar t j = { e.pbar t j with release := rest, done := (e.pbar t j).done + 1 } ∧
          { u with tasks := e.tasks } = e ∧ (∀ k, k ≠ j → u.pbar t k = e.pbar t k) ∧ ∀ k, k ≠ t → u.task k = e.task k) ∧
        (e.schedLow t < clk → exec .pbarRelease e = .fault .notEnabled))

/-- R42, R369, R370: the die semaphores. SEMW takes its amount when its context is first in the order of those that wait and
the count suffices, else it waits; SEMS adds at once to a semaphore of its own part, and sends an increment on its way to
another part or, with ENG, for after its commands. A count beyond 2^32 - 1 is SEM_OVERFLOW. The contexts of control cores,
and no others, belong to no part. -/
def Obligations.Semaphores : Prop :=
  ∀ (s : State) (h : Hdr) (a b : BitVec 5) (g : BitVec 1),
    let i := s.iss.xa.toNat
    let n := s.iss.xb.toNat
    let p := (semOf s i).1
    let k := (semOf s i).2
    let me := 8 * s.iss.ctx + s.iss.q.code
    let turn := (semWaiters s p k).headD me = me ∧ n ≤ semCount s p k
    let ok := i < 2 ^ 10 ∧ i < s.semLimit s.iss.ctx ∧ n ≠ 0 ∧ n < 2 ^ 32
    (s.iss.again = false → ¬ ok → exec (.semw h a b) s = .next (s.raise cSemField s.iss.xa)) ∧
    (ok → turn → ∃ t, exec (.semw h a b) s = .next t ∧ OnlyQueued s { t with dies := s.dies } ∧ OnlyCounts s.cc t.cc ∧
      SetsSem s t p k (semCount s p k - n) ∧ ¬ me ∈ semWaiters t p k) ∧
    (ok → ¬ turn → ∃ t, exec (.semw h a b) s = .next t ∧ t.iss.wait = true ∧
      OnlyQueued { s with iss := t.iss } { t with dies := s.dies } ∧ OnlyCounts s.cc t.cc ∧
      SetsSem s t p k (semCount s p k) ∧ me ∈ semWaiters t p k) ∧
    (n = 0 ∨ 2 ^ 32 ≤ n → exec (.sems h a b g) s = .next (s.raise cSemField s.iss.xa)) ∧
    (ok → g = 0 → isControl (coreOf s.iss.ctx) = (s.cc.part == 0) →
      (2 ^ 32 ≤ semCount s p k + n → exec (.sems h a b g) s = .next (s.raise cSemOverflow s.iss.xa)) ∧
      (semCount s p k + n < 2 ^ 32 →
        ∃ t, exec (.sems h a b g) s = .next t ∧ OnlyQueued s { t with dies := s.dies } ∧
          OnlyCounts s.cc t.cc ∧ SetsSem s t p k (semCount s p k + n))) ∧
    ∀ part, n ≠ 0 → n < 2 ^ 32 → semsTarget s i = some part → g = 1 ∨ bit i 21 = true →
      ∃ t u, exec (.sems h a b g) s = .next t ∧ OnlyQueued s { t with syncs := s.syncs, nextId := s.nextId } ∧
        OnlyCounts s.cc t.cc ∧ SendsSync s t u ∧ u.kind = 3 ∧ u.part = part ∧ u.ctx = s.iss.ctx ∧ u.amount = n ∧
        (u.core, u.ix) = semsHome s part (i % 2 ^ 10) ∧ u.after = if g = 1 then 0 :: commandsOf s s.iss.ctx else []

/-- R371: SEND. An operand out of range, or a target that is no core of the task, is MSG_FIELD; else the payload is read at
acceptance and the message is on its way.
R302: the waits on the counters of puts. -/
def Obligations.Messages : Prop :=
  (∀ (s : State) (h : Hdr) (a b : BitVec 5) (part core : Nat),
    let x := s.iss.xa.toNat
    let y := s.iss.xb.toNat
    let base := x % 2 ^ 32
    let len := y % 2 ^ 16
    let ok := base < 0x400000 ∧ base % 64 = 0 ∧ x / 2 ^ 45 = 0 ∧ 64 ≤ len ∧ len ≤ 1024 ∧ len % 64 = 0 ∧
      y / 2 ^ 21 % 8 = 0 ∧ y / 2 ^ 29 = 0
    (¬ ok ∨ sendTarget s y = none → exec (.send h a b) s = .next (s.raise cMsgField s.iss.xa)) ∧
    (ok → sendTarget s y = some (part, core) → InReach s base len →
      (atLimit s = true → exec (.send h a b) s = .next s.notYet) ∧
      (atLimit s = false → ∃ t m, exec (.send h a b) s = .next t ∧
        OnlyQueued s { t with msgs := s.msgs, nextId := s.nextId } ∧ OnlyCounts s.cc t.cc ∧ t.nextId = s.nextId + 1 ∧
        fget? t.msgs s.nextId = some m ∧ (∀ j, j ≠ s.nextId → fget? t.msgs j = fget? s.msgs j) ∧
        m.task = s.taskOf s.iss.ctx ∧ m.part = part ∧ m.core = core ∧ m.line = x / 2 ^ 32 % 2 ^ 13 ∧ m.len = len ∧
        m.sender = (s.part s.cc.part).vdie * 256 + s.myCore.vcore ∧ m.ctx = s.iss.ctx ∧
        m.bytes = (List.range len).map (fun n => coreByte s (base + n)) ∧ s.tb < m.due))) ∧
  (∀ (s : State) (h : Hdr) (a b : BitVec 5),
    let v := s.iss.xa.toNat
    let n := s.iss.xb.toNat
    let sent := (fget (s.part s.cc.part).pcnt v 0).toNat
    (63 < v → exec (.cwwaitSent h a b) s = .next (s.raise cCopyField)) ∧
    (255 < v → exec (.cwwaitArr h a b) s = .next (s.raise cCopyField)) ∧
    (v ≤ 63 → (n ≤ sent → OnlyCompletes s (.cwwaitSent h a b)) ∧ (sent < n → Waits s (.cwwaitSent h a b))) ∧
    (v ≤ 255 → s.iss.again = false → (s.win v).valid = false →
      exec (.cwwaitArr h a b) s = .next (s.raise cPutWindow)) ∧
    (v ≤ 255 → (s.win v).valid = true →
      (n ≤ (s.win v).arr.toNat → OnlyCompletes s (.cwwaitArr h a b)) ∧
      ((s.win v).arr.toNat < n → Waits s (.cwwaitArr h a b))))

/-- R257, R264: MCFG writes one half of a shadow register from its immediate and keeps the other; MCFGR writes one register
or two.
R267, R273: MSTAT writes the status of its engine to x[d]: MXST and ROWST once the operations issued before it have
finished, the counters at once; it clears the flags on request. MWAIT holds its queue while a nest is active or queued,
and without .nest while an earlier operation has not finished.
R251, R268: MZERO waits for its tiles and for the nests, then makes N tiles from a number on, modulo 64, zero. -/
def Obligations.MatrixRegisters : Prop :=
  (∀ (s : State) (h : Hdr) (d a b r : BitVec 5) (i : BitVec 32),
    let reg := fun (t : State) (k : BitVec 5) => fget t.myMx.shadow k.toNat 0
    let only := fun (t : State) (ks : List (BitVec 5)) => OnlyEngine s t ∧ { t.myMx with shadow := s.myMx.shadow } = s.myMx ∧
      ∀ k, ¬ k ∈ ks → reg t k = reg s k
    (∃ t, exec (.mcfg h d 0 i) s = .next t ∧ only t [d] ∧ (reg t d).extractLsb' 0 32 = i ∧
      (reg t d).extractLsb' 32 32 = (reg s d).extractLsb' 32 32) ∧
    (∃ t, exec (.mcfg h d 1 i) s = .next t ∧ only t [d] ∧ (reg t d).extractLsb' 32 32 = i ∧
      (reg t d).extractLsb' 0 32 = (reg s d).extractLsb' 0 32) ∧
    (∃ t, exec (.mcfgr h d a b r 0) s = .next t ∧ only t [d] ∧ reg t d = s.iss.xa) ∧
    (∃ t, exec (.mcfgr h d a b r 1) s = .next t ∧ only t [d, r] ∧ reg t r = s.iss.xb ∧ (d ≠ r → reg t d = s.iss.xa))) ∧
  (∀ (s : State) (h : Hdr) (d a : BitVec 5) (c e : BitVec 1),
    let x := s.myMx
    let mark := engineMark s
    let done := ∀ o, o ∈ x.ops → o.2.nest = true ∨ mark ≤ o.1
    let row := fget x.rows (s.iss.xa.toNat % 32) {}
    let one := fun (b : Bool) => if b then 1 else 0
    let gives := fun (sel : BitVec 2) (v : DWord) (clear : Bool) => ∃ t, exec (.mstat h d a c sel) s = .next t ∧
      t.iss.ctx = s.iss.ctx ∧ XLanded { s with iss := t.iss } { t with mxs := s.mxs, nextId := s.nextId } d v ∧
      (∀ k, k ≠ s.engine → t.mx k = s.mx k) ∧ t.myMx = if clear then { x with flags := 0 } else x
    gives 1 x.passes false ∧ gives 3 x.waitclk false ∧
    (done → gives 0 (BitVec.ofNat 64 (x.flags.toNat + 2 ^ 8 * one x.active.isSome + 2 ^ 9 * one x.queued.isSome +
      2 ^ 10 * one (x.rows.any fun e => e.2.opened) + 2 ^ 16 * x.qfmt + 2 ^ 20 * x.qtag)) (c == 1)) ∧
    (done → gives 2 (BitVec.ofNat 64 (row.stage.length + 2 ^ 7 * one row.opened + 2 ^ 8 * row.emit)) false) ∧
    (¬ done → ∀ sel : BitVec 2, sel = 0 ∨ sel = 2 → ∃ t, exec (.mstat h d a c sel) s = .next t ∧ t.iss.wait = true ∧
      OnlyEngine s t ∧ t.myMx = x) ∧
    let idle := x.active = none ∧ x.queued = none ∧ (e = 0 → ∀ o, o ∈ x.ops → o.2.nest = false ∧ mark ≤ o.1)
    (idle → ∃ t, exec (.mwait h e) s = .next t ∧ OnlyEngine s t ∧ t.myMx = x ∧ t.iss.wait = s.iss.wait) ∧
    (¬ idle → ∃ t, exec (.mwait h e) s = .next t ∧ OnlyEngine s t ∧ t.myMx = x ∧ t.iss.wait = true)) ∧
  (∀ (s : State) (h : Hdr) (a : BitVec 5),
    let v := s.iss.xa.toNat
    let n := v / 2 ^ 8 % 2 ^ 7
    let ts := (List.range n).map fun i => (v % 64 + i) % 64
    let op : MxOp := { kind := .zero, ctx := s.iss.ctx, tiles := ts }
    let o := (entered s op).2
    let may := o.myMx.tileFree (entered s op).1 op = true ∧ o.myMx.active = none ∧ o.myMx.queued = none
    (¬ may → exec (.mzero h a) s = .next (o.holdQ h)) ∧
    (may → v / 64 % 4 ≠ 0 ∨ v / 2 ^ 15 ≠ 0 ∨ n = 0 ∨ 64 < n → exec (.mzero h a) s = .next (o.raise cMxField)) ∧
    (may → v / 64 % 4 = 0 → v / 2 ^ 15 = 0 → 1 ≤ n → n ≤ 64 → ∃ t, exec (.mzero h a) s = .next t ∧ OnlyEngine o t ∧
      { t.myMx with acc := o.myMx.acc, ops := o.myMx.ops } = o.myMx ∧
      ∀ j m k, t.myMx.elem j m k = if j ∈ ts then 0 else o.myMx.elem j m k))

/-- R186, R263, R269: MDRAIN stores the 32 rows of an accumulator tile, each element as FP32, BF16, INT32 or raw; MACCLD
loads a tile from rows of the same layout. Both wait for their tile.
R270 to R272: MDRAINQ quantises rows of a tile into the row streams, storing each block it completes; MSTREAM emits the
rows of a tile on an engine port from SCHEDTIME s + 4 on. Checks precede every effect. -/
def Obligations.MatrixDrains : Prop :=
  (∀ (s : State) (h : Hdr) (a b : BitVec 5) (c : BitVec 1) (f : BitVec 2),
    let v := s.iss.xb.toNat
    let tile := v % 64
    let fmt := v / 64 % 4
    let size := if fmt = 1 then 2 else if fmt = 3 then 8 else 4
    let base := s.iss.xa.toNat % 2 ^ 32
    let rs := s.iss.xa.toNat / 2 ^ 32
    let op := fun (k : MxKind) => ({ kind := k, ctx := s.iss.ctx, tiles := [tile] } : MxOp)
    let fields := v / 2 ^ 8 = 0 ∧ (c = 1 → fmt = f.toNat)
    let o := fun k => (entered s (op k)).2
    let free := fun k => (o k).myMx.tileFree (entered s (op k)).1 (op k) = true
    (¬ free .drain → exec (.mdrain h a b c f) s = .next ((o .drain).holdQ h)) ∧
    (¬ free .load → exec (.maccld h a b c f) s = .next ((o .load).holdQ h)) ∧
    (free .drain → ¬ fields → exec (.mdrain h a b c f) s = .next ((o .drain).raise cMxField)) ∧
    (free .load → ¬ fields → exec (.maccld h a b c f) s = .next ((o .load).raise cMxField)) ∧
    (free .drain → fields → base % 64 ≠ 0 ∨ rs % 64 ≠ 0 →
      exec (.mdrain h a b c f) s = .next ((o .drain).raise cMisaligned)) ∧
    (fields → base % 64 = 0 → rs % 64 = 0 →
      (∀ k m, m < 32 → InReach (o k) (base + rs * m) (64 * size)) → Memory.wf s.mem = true →
      (free .drain → ∃ t, exec (.mdrain h a b c f) s = .next t ∧ OnlyEngine (o .drain) { t with mem := (o .drain).mem, bankUse := (o .drain).bankUse } ∧
        { t.myMx with ops := (o .drain).myMx.ops, flags := (o .drain).myMx.flags } = (o .drain).myMx ∧
        StoresRows (o .drain) t 32 (fun m => base + rs * m) (fun m => (List.range 64).flatMap fun n =>
          leBytes size (drainElem fmt ((o .drain).myMx.elem tile m n)).1)) ∧
      (free .load → ∃ t, exec (.maccld h a b c f) s = .next t ∧ OnlyEngine (o .load) { t with bankUse := (o .load).bankUse } ∧
        { t.myMx with ops := (o .load).myMx.ops, acc := (o .load).myMx.acc } = (o .load).myMx ∧
        ∀ j m n, m < 32 → n < 64 → t.myMx.elem j m n =
          if j = tile then
            (loadElem fmt (leNat ((List.range size).map fun y => coreByte (o .load) (base + rs * m + size * n + y)))).toNat
          else (o .load).myMx.elem j m n))) ∧
  (∀ (s : State) (h : Hdr) (d a b : BitVec 5) (f : BitVec 3),
    let v := s.iss.xb.toNat
    let w := s.iss.xd.toNat
    let row0 := w % 32
    let nr := w / 2 ^ 8 % 64
    let base := s.iss.xa.toNat % 2 ^ 32
    let rs := s.iss.xa.toNat / 2 ^ 32
    let tile := v % 64
    let qop : MxOp := { kind := .drainq, ctx := s.iss.ctx, tiles := if v / 2 ^ 16 % 2 ^ 7 = 0 then [] else [tile] }
    let sop : MxOp := { kind := .stream, ctx := s.iss.ctx, tiles := [tile] }
    let o := (entered s qop).2
    let u := (entered s sop).2
    let fmt := v / 2 ^ 8 % 8
    let x := o.myMx
    let opening := bit v 24 = true
    let mine := fun m => row0 ≤ m ∧ m < row0 + nr
    let isOpen := fun m => (fget x.rows m {}).opened = true
    let same := x.qfmt = fmt ∧ x.qtag = v / 2 ^ 12 % 16
    let allowed := (opening → v / 2 ^ 12 % 16 ≠ 0 ∧ ∀ m, m < 32 → isOpen m → ¬ mine m ∧ same) ∧
      (¬ opening → same ∧ ∀ m, m < 32 → mine m → isOpen m)
    let fields := drainqBad v = false ∧ (f ≠ 0 → f.toNat = fmt) ∧ w / 32 % 8 = 0 ∧ w / 2 ^ 14 = 0 ∧ 1 ≤ nr ∧ nr ≤ 32 ∧
      row0 + nr ≤ 32
    let start := if opening then (List.range nr).foldl (fun m r =>
      fset m (row0 + r) ({ opened := true, g0 := v / 2 ^ 32 } : MxRow)) x.rows else x.rows
    let q := ((List.range nr).map (row0 + ·)).foldl
      (drainqRow (x.tile tile) fmt (v / 2 ^ 12 % 16) (v / 2 ^ 16 % 2 ^ 7) (bit v 25)
        (fget o.cc.hs (v / 2 ^ 12 % 16) 0) base rs) { rows := start }
    (x.tileFree (entered s qop).1 qop = false → exec (.mdrainq h d a b f) s = .next (o.holdQ h)) ∧
    (x.tileFree (entered s qop).1 qop = true →
      (¬ fields → exec (.mdrainq h d a b f) s = .next (o.raise cMxField)) ∧
      (fields → base % 64 = 0 → rs % 64 = 0 → ¬ allowed → (opening → v / 2 ^ 12 % 16 ≠ 0) →
        exec (.mdrainq h d a b f) s = .next (o.raise cDrainqState)) ∧
      (fields → base % 64 = 0 → rs % 64 = 0 → allowed → (∀ e, e ∈ q.out → InReach o e.1 e.2.length) →
        Memory.wf s.mem = true →
        ∃ t, exec (.mdrainq h d a b f) s = .next t ∧ OnlyEngine o { t with mem := o.mem, bankUse := o.bankUse } ∧
          { t.myMx with ops := x.ops, flags := x.flags, rows := x.rows, qfmt := x.qfmt, qtag := x.qtag } = x ∧
          t.myMx.rows = q.rows ∧ t.myMx.qfmt = fmt ∧ t.myMx.qtag = v / 2 ^ 12 % 16 ∧
          StoresRows o t q.out.length (fun k => (q.out.getD k (0, [])).1) (fun k => (q.out.getD k (0, [])).2))) ∧
    (let free := u.myMx.tileFree (entered s sop).1 sop
     let port := v / 2 ^ 8 % 4
     (free = false → exec (.mstream h b) s = .next (u.holdQ h)) ∧
     (free = true → v / 2 ^ 7 % 2 = 0 → v / 2 ^ 10 = 0 → fget u.myCore.eps port false = false →
       exec (.mstream h b) s = .next (u.raise cStreamUnbound)) ∧
     (free = true → v / 2 ^ 7 % 2 = 0 → v / 2 ^ 10 = 0 → fget u.myCore.eps port false = true →
       ∃ t p, exec (.mstream h b) s = .next t ∧ OnlyEngine u t ∧
         { t.myMx with ops := u.myMx.ops, flags := u.myMx.flags } = u.myMx ∧
         fget? t.myMx.ops (entered s sop).1 = some p ∧ p.kind = .stream ∧ p.started = true ∧ p.port = port ∧
         p.next = u.schedAt (u.part (enginePart u.engine)).task (u.part (enginePart u.engine)).pos + 4 ∧
         p.rows = (List.range 32).map fun m => (List.range 64).map fun n =>
           BitVec.ofNat 32 (drainElem (if bit v 6 then 2 else 0) (u.myMx.elem tile m n)).1)))

/-- R253, R256, R266: MPASS and MSPASS wait for their turn, their tile, their operand slots and the pace of passes; then the
fields are judged, and the pass is in flight and retires 14 clks on.
R258, R260, R265: MGO and MSGO judge and copy the configuration set at issue, make it active where no nest runs, queue it
behind the active one, and hold their queue while one is queued. -/
def Obligations.MatrixPasses : Prop :=
  (∀ (s : State) (h : Hdr) (a b : BitVec 5) (sparse : Bool),
    let i : Instr := if sparse then .mspass h a b else .mpass h a b
    let c := s.iss.xb.toNat
    let offA := s.iss.xa.toNat % 2 ^ 32
    let offB := s.iss.xa.toNat / 2 ^ 32
    let ty := if sparse then 5 else c % 8
    let op : MxOp := { kind := .pass, ctx := s.iss.ctx, tiles := [c / 2 ^ 24 % 64], ty := ty, zero := bit c 30
                       word := s.iss.xb, dst := offA, rs := offB }
    let o := (entered s op).2
    let n := (entered s op).1
    let x := o.myMx
    let p : PassArgs := { ty := ty, offA := offA, offB := offB, qa := c / 2 ^ 8 % 64, qb := c / 2 ^ 16 % 64
                          tile := c / 2 ^ 24 % 64, zero := bit c 30, popA := bit c 32, popB := bit c 33
                          set := c / 2 ^ 40 % 32 }
    let fields := (if sparse then c % 8 = 0 else c % 8 ≤ 4 ∧ c / 2 ^ 40 % 32 = 0) ∧ c / 8 % 32 = 0 ∧ c / 2 ^ 14 % 4 = 0 ∧
      c / 2 ^ 22 % 4 = 0 ∧ bit c 31 = false ∧ c / 2 ^ 34 % 64 = 0 ∧ c / 2 ^ 45 = 0
    let turn := x.active = none ∧ x.queued = none ∧ x.nextPass = some (n, p, op) ∧ x.passTileFree n op = true
    let due := passDue o o.engine p = true
    (x.active ≠ none ∨ x.queued ≠ none → exec i s = .next (o.holdQ h)) ∧
    (turn → ¬ due → exec i s = .next (o.holdQ h)) ∧
    (turn → due → ¬ fields → exec i s = .next (o.raise cMxField)) ∧
    (turn → due → fields → offA % 256 ≠ 0 ∨ offB % 256 ≠ 0 → exec i s = .next (o.raise cMisaligned)) ∧
    (∀ r, turn → due → fields → offA % 256 = 0 → offB % 256 = 0 →
      passChecks o o.engine o.iss.ctx p [] [] = (o, .inr r) →
      ∃ t q, exec i s = .next t ∧ OnlyEngine o { t with bankUse := o.bankUse } ∧ fget? t.myMx.ops n = some q ∧ q.started = true ∧ q.fin = o.engineClk o.engine + 14 ∧
        q.tiles = [c / 2 ^ 24 % 64] ∧ q.ty = ty ∧ q.zero = bit c 30 ∧ q.a = r.a ∧ q.b = r.b ∧ q.pos = r.pos ∧
        q.pops = p.pops ∧ t.myMx.acc = x.acc ∧ t.myMx.lastStart = o.engineClk o.engine ∧
        ⟨o.engineClk o.engine + 14, .matrixPassRetire, { a := o.engine, b := n }, some (engineCluster o o.engine)⟩ ∈ t.agenda)) ∧
  (∀ (s : State) (h : Hdr) (sparse : Bool),
    let i : Instr := if sparse then .msgo h else .mgo h
    let x := s.myMx
    let regs := if s.iss.again then fget x.taking s.iss.ctx x.shadow else x.shadow
    let n : Nest := { regs := regs, sparse := sparse, ctx := s.iss.ctx, line := s.iss.line, lane := s.iss.lane
                      at_ := s.engineClk s.engine + 2 }
    let taken := { x with taking := fdel x.taking s.iss.ctx }
    (nestBad regs sparse = true → exec i s = .next (s.raise cNestCfg)) ∧
    (nestBad regs sparse = false → x.queued ≠ none →
      exec i s = .next ((s.setMx s.engine { x with taking := fset x.taking s.iss.ctx regs }).holdQ h)) ∧
    (nestBad regs sparse = false → x.queued = none → x.active = none → ∃ t, exec i s = .next t ∧ OnlyEngine s t ∧
      t.myMx = { taken with active := some n, fetch := none, reading := [] }) ∧
    (nestBad regs sparse = false → x.queued = none → x.active ≠ none → ∃ t, exec i s = .next t ∧ OnlyEngine s t ∧
      t.myMx = { taken with queued := some n }) ∧
    (∀ k, k < 6 → level x.shadow k % 2 ^ 16 = 0 → nestBad x.shadow sparse = true))

/-- R205, R251, R253, R254, R259, R260, R270: what the engine does by itself. A pass that retires writes its tile, counts
and pops its rings; a queued set becomes active; the next pass of a nest starts; a drain that has finished leaves engine
order; a stream emits its next row. An INT8 pass adds to each element the sum of the products of its line of A and its
line of B, in 48 bits. -/
def Obligations.MatrixEvents : Prop :=
  ∀ (s : State),
    let k := s.ev.a
    let x := s.mx k
    let only := fun (t : State) => { t with mxs := s.mxs } = s ∧ ∀ j, j ≠ k → t.mx j = s.mx j
    (∀ op, fget? x.ops s.ev.b = some op → op.kind = .pass → op.started = true → op.pops = [] → x.active = none →
      ∃ t, exec .matrixPassRetire s = .next t ∧ only t ∧ (t.mx k).passes = x.passes + 1 ∧
        fget? (t.mx k).ops s.ev.b = none ∧ (t.mx k).shadow = x.shadow ∧ (t.mx k).active = none ∧
        (∀ j, j ≠ op.tiles.headD 0 → (t.mx k).tile j = x.tile j) ∧
        (op.ty = 2 → ∀ m n, m < 32 → n < 64 → (t.mx k).elem (op.tiles.headD 0) m n =
          low 48 (sgn 48 (if op.zero then 0 else x.elem (op.tiles.headD 0) m n) +
            ((List.zipWith (fun (p q : Byte) => sgn 8 p.toNat * sgn 8 q.toNat)
              (tileLine op.a m) (tileLine op.b n)).foldl (· + ·) 0)))) ∧
    (fget? x.ops s.ev.b = none → exec .matrixPassRetire s = .fault .notEnabled ∧
      exec .matrixDrainComplete s = .fault .notEnabled ∧ exec .mstreamRowEmit s = .fault .notEnabled) ∧
    (∀ n, x.active = none → x.queued = some n → x.activateAt ≤ s.engineClk k → engineActs s k = true →
      taskStill s (s.part (enginePart k)).task = false →
      ∃ t, exec .nestActivate s = .next t ∧ only t ∧
        t.mx k = { x with active := some { n with at_ := s.engineClk k }, queued := none }) ∧
    (∀ n r i, x.active = some n → n.gen = some i → i < s.nextId → nestDue s k = true →
      passChecks s k n.ctx n.args (n.heldA.getD []) (n.heldB.getD []) = (s, .inr r) →
      ∃ t op g, exec .matrixPassStart s = .next t ∧
        { t with mxs := s.mxs, agenda := s.agenda, nextId := s.nextId, free := s.free, bankUse := s.bankUse } = s ∧
        (∀ j, j ≠ k → t.mx j = s.mx j) ∧ (t.mx k).active = some { n.advance r.a r.b with gen := g } ∧
        fget? (t.mx k).ops i = some op ∧ op.kind = .pass ∧ op.nest = true ∧ op.started = true ∧
        op.tiles = [n.args.tile] ∧ op.a = r.a ∧ op.b = r.b ∧ op.fin = s.engineClk k + 14 ∧
        t.agenda = s.agenda ++ [⟨s.engineClk k + 14, .matrixPassRetire, { a := k, b := i }, some (engineCluster s k)⟩]) ∧
    (∀ op, fget? x.ops s.ev.b = some op → op.kind ≠ .pass → op.started = true → op.rows = [] →
      ∃ t, exec .matrixDrainComplete s = .next t ∧ only t ∧ fget? (t.mx k).ops s.ev.b = none ∧
        { t.mx k with ops := x.ops } = x) ∧
    ∀ op r rest, fget? x.ops s.ev.b = some op → op.rows = r :: rest → op.started = true → engineActs s k = true →
      op.next ≤ s.schedAt (s.part (enginePart k)).task (s.part (enginePart k)).pos →
      ∃ t, exec .mstreamRowEmit s = .next t ∧ { t with mxs := s.mxs, fabs := s.fabs } = s ∧
        (∀ j, j ≠ k → t.mx j = s.mx j) ∧
        fget? (t.mx k).ops s.ev.b = some { op with rows := rest, next := op.next + 1 } ∧
        ∀ j, j ≠ (s.part (enginePart k)).task → t.fab j = s.fab j

/-- R348, R349, R354: the commands of the stacks. A block that is misaligned or out of range faults; then its fields, its
addresses, a restartable task's destination, a tag of 0 and a lost stack are judged in that order; a full buffer holds the
instruction; else the command is accepted and waits for an engine of its stack. -/
def Obligations.StackCommands : Prop :=
  ∀ (s : State) (h : Hdr) (a : BitVec 5) (x : CExt) (r : List Byte),
    let all := fun (p : CmdKind → Instr → Prop) =>
      p .hscan (.hscan h a x) ∧ p .hgath (.hgath h a x) ∧ p .hred (.hred h a x) ∧ p .hcvt (.hcvt h a x)
    let a := s.iss.xa.toNat
    let cmd := fun k => (s.newCmd k x).withH r
    let acc := fun k => k = CmdKind.hred ∧ (cmd k).op = 1
    let bad := fun k => hFieldsBad s (cmd k) r = true
    (a % 64 ≠ 0 → all fun _ i => exec i s = .next (s.raise cMisaligned)) ∧
    (a % 64 = 0 → winRead (s.windows s.iss.ctx) s a 64 = none → all fun _ i => exec i s = .next (s.raise cCopyRange)) ∧
    (fieldAt r 0 1 ≠ 1 ∨ 11 < fieldAt r 1 1 ∨ fieldAt r 56 8 ≠ 0 ∨ ¬ SemOk s x → all fun k _ => bad k) ∧
    (a % 64 = 0 → winRead (s.windows s.iss.ctx) s a 64 = some r → all fun k i =>
      (bad k → exec i s = .next (s.raise cCopyField)) ∧
      (¬ bad k → hMisaligned (cmd k) = true → exec i s = .next (s.raise cMisaligned)) ∧
      (¬ bad k → hMisaligned (cmd k) = false →
        (acc k → restartBad s (cmd k)
          ((cmd k).b.dst.toNat, ((cmd k).b.dst.toNat : Int) + (cmd k).b.len - 1) = false) →
        (k = .hcvt → (cmd k).op = 0 → bits (cmd k).w0.toNat 4 4 ≠ 0) →
        ((s.stack (cmd k).arg).lost = true → exec i s = .next (s.raise cStackLost)) ∧
        ((s.stack (cmd k).arg).lost = false →
          (bufferFull s (clusterOf (coreOf s.iss.ctx)) = true → exec i s = .next s.notYet) ∧
          (bufferFull s (clusterOf (coreOf s.iss.ctx)) = false → ∃ t c, exec i s = .next t ∧
            OnlyQueued s { t with cmds := s.cmds, nextId := s.nextId } ∧ OnlyCounts s.cc t.cc ∧
            t.nextId = s.nextId + 1 ∧ fget? t.cmds s.nextId = some c ∧ c.queued = true ∧
            { c with queued := false, arrived := (cmd k).arrived, row := (cmd k).row, idx := (cmd k).idx } = cmd k))))

/-- R324, R325, R328, R332: the state of the fabric decides what the stream commands may do; those it refuses raise
FAB_STATE. FSTAT reads the phase status; FPHASE, once its die has learnt of the last phase end, completes at once in NOIMG
and IDLE, and otherwise waits for the end of the phase or of the load.
R325, R326, R329 to R332: what the accepted stream commands do. FLOAD is a command under way; FSTART arms the fabric for
a time at least 64 clks on and starts every count afresh; FSTOP sets the stop time; FHND names the handler ring; FBIND and
FUNBIND bind and release ports; FINJ resolves a hole at a scratchpad sink. -/
def Obligations.StreamCommands : Prop :=
  (∀ (s : State) (y : BitVec 3) (d a b : BitVec 5) (hb : BitVec 1) (k : BitVec 2) (i : Word) (n : BitVec 3),
    let f := s.fab s.myTask
    let no := fun j => exec j s = .next (s.raise cFabState)
    let fst0 := BitVec.ofNat 64 (f.st + 2 ^ 3 * (if f.failed then 1 else 0) + 2 ^ 4 * f.sticky.toNat +
      2 ^ 8 * (fabPend s s.myTask % 2 ^ 16) + 2 ^ 32 * (f.phase % 2 ^ 32))
    (f.st ≠ 0 → f.st ≠ 2 → no (.fload y a i)) ∧
    (f.st ≠ 0 → f.st ≠ 1 → f.st ≠ 2 → no (.fbind y d a hb k) ∧ no (.funbind y d)) ∧
    (f.st ≠ 2 → no (.fstart y a)) ∧ (f.st ≠ 3 → f.st ≠ 4 → no (.fstop y a)) ∧
    (f.st ≠ 4 → f.st ≠ 5 → no (.finj y a b)) ∧
    (s.tb < f.seenAt → Waits s (.fphase y d)) ∧
    (f.seenAt ≤ s.tb → s.iss.again = false ∨ s.iss.wset = [] → f.st = 0 ∨ f.st = 2 → LandsX s (.fphase y d) d fst0) ∧
    (f.seenAt ≤ s.tb → s.iss.again = false ∨ s.iss.wset = [] → f.st ≠ 0 → f.st ≠ 2 → ∃ t, exec (.fphase y d) s = .next t ∧ t.iss.wait = true ∧
      t.iss.wset = [f.phase, f.loads] ∧ OnlyQueued { s with iss := t.iss } t ∧ OnlyCounts s.cc t.cc) ∧
    (f.seenAt ≤ s.tb → s.iss.again = true → s.iss.wset ≠ [] →
      let none_ := f.phase ≤ s.iss.wset.getD 0 0 ∧ f.loads ≤ s.iss.wset.getD 1 0
      (s.iss.wset.getD 0 0 < f.phase → LandsX s (.fphase y d) d f.phaseWord) ∧
      (f.phase ≤ s.iss.wset.getD 0 0 → s.iss.wset.getD 1 0 < f.loads → LandsX s (.fphase y d) d f.loadWord) ∧
      (none_ → f.st = 0 ∨ f.st = 2 → LandsX s (.fphase y d) d fst0) ∧
      (none_ → f.st ≠ 0 → f.st ≠ 2 → Waits s (.fphase y d))) ∧
    LandsX s (.fstat y d n) d
      (match n.toNat with
      | 0 => fst0
      | 1 => f.t
      | 2 => f.p
      | 3 => BitVec.ofNat 64 (f.faults % 2 ^ 32 + 2 ^ 32 * (f.holes % 2 ^ 32))
      | _ => BitVec.ofNat 64 (f.engHole % 2 ^ 32 + 2 ^ 32 * (f.lost % 2 ^ 16) + 2 ^ 48 * (f.miss % 2 ^ 16)))) ∧
  (∀ (s : State) (y : BitVec 3) (d a b : BitVec 5) (hb : BitVec 1) (k : BitVec 2) (i : Word) (r : List Byte),
    let task := s.myTask
    let f := s.fab task
    let xa := s.iss.xa.toNat
    let now := s.schedOf s.iss.ctx
    let key := 16 * s.cc.part + d.toNat
    let onlyFab := fun (t : State) => OnlyQueued s { t with fabs := s.fabs } ∧ OnlyCounts s.cc t.cc ∧
      ∀ j, j ≠ task → t.fab j = s.fab j
    (f.st = 0 ∨ f.st = 2 → ∃ t c, exec (.fload y a i) s = .next t ∧
      OnlyQueued s { t with fabs := s.fabs, cmds := s.cmds, nextId := s.nextId } ∧ OnlyCounts s.cc t.cc ∧
      fget? t.cmds s.nextId = some c ∧ c.kind = .fload ∧ c.w0 = s.iss.xa ∧ c.idx = [i.toNat] ∧ c.task = task ∧
      t.fab task = { f with st := 1 } ∧ ∀ j, j ≠ task → t.fab j = s.fab j) ∧
    (f.st = 2 → xa < now + 64 → exec (.fstart y a) s = .next (s.raise cFabLate)) ∧
    (f.st = 2 → now + 64 ≤ xa → ∃ t, exec (.fstart y a) s = .next t ∧
      OnlyQueued s { t with fabs := s.fabs, sports := s.sports } ∧ OnlyCounts s.cc t.cc ∧
      (∀ j, j ≠ task → t.fab j = s.fab j) ∧
      (let g := t.fab task
       g.st = 3 ∧ g.t = s.iss.xa ∧ g.p = BitVec.allOnes 64 ∧ g.failed = false ∧ g.sticky = 0 ∧ g.faults = 0 ∧ g.holes = 0 ∧
        g.engHole = 0 ∧ g.lost = 0 ∧ g.miss = 0 ∧ g.files = [] ∧ g.splits = [] ∧ g.phase = f.phase ∧ g.links = f.links) ∧
      ∀ p q, s.sport p = some q → t.sport p = some (if (s.part (p / 16)).task = task then
        { q with count := 0, next := 0, open_ := [], ahead := [], reading := [], readAt := none } else q)) ∧
    (let may := f.st = 3 ∨ (f.st = 4 ∧ f.p = BitVec.allOnes 64)
     (¬ may → exec (.fstop y a) s = .next (s.raise cFabState)) ∧
     (may → xa < now + 64 ∨ xa ≤ f.t.toNat → exec (.fstop y a) s = .next (s.raise cFabLate)) ∧
     (may → now + 64 ≤ xa → f.t.toNat < xa → ∃ t, exec (.fstop y a) s = .next t ∧ onlyFab t ∧
       t.fab task = { f with p := s.iss.xa })) ∧
    (let vdie := (s.part s.cc.part).vdie
     let big := 1024 ≤ 256 * (fget s.myCore.rings (xa % 64) {}).ssz
     let made := (fget s.myCore.rings (xa % 64) {}).produces
     (2 ^ 7 ≤ xa → exec (.fhnd y a) s = .next (s.raise cFabField)) ∧
     (xa < 64 → ¬ big → exec (.fhnd y a) s = .next (s.raise cFabField)) ∧
     (64 ≤ xa → xa < 2 ^ 7 → ∃ t, exec (.fhnd y a) s = .next t ∧ onlyFab t ∧
       t.fab task = { f with handlers := fdel f.handlers vdie }) ∧
     (xa < 64 → big → made = false → exec (.fhnd y a) s = .next (s.raise cRingEnd s.iss.xa)) ∧
     (xa < 64 → big → made = true → ∃ t, exec (.fhnd y a) s = .next t ∧ onlyFab t ∧
       t.fab task = { f with handlers := fset f.handlers vdie (s.iss.ctx, xa) })) ∧
    (f.st ≤ 2 →
      (let eps := fun (t : State) (on : Bool) => OnlyQueued s { t with pcores := s.pcores } ∧ OnlyCounts s.cc t.cc ∧
          (∀ j, j ≠ s.ringKey → t.pcore j = s.pcore j) ∧ { t.myCore with eps := s.myCore.eps } = s.myCore ∧
          fget t.myCore.eps (d.toNat - 16) false = on ∧
          ∀ j, j ≠ d.toNat - 16 → fget t.myCore.eps j false = fget s.myCore.eps j false
       (16 ≤ d.toNat → isMatrix (coreOf s.iss.ctx) = false → exec (.fbind y d a hb k) s = .next (s.raise cFabField)) ∧
       (16 ≤ d.toNat → isMatrix (coreOf s.iss.ctx) = true → ∃ t, exec (.fbind y d a hb k) s = .next t ∧ eps t true) ∧
       (16 ≤ d.toNat → ∃ t, exec (.funbind y d) s = .next t ∧ eps t false)) ∧
      (let ports := fun (t : State) (v : Option SPort) => OnlyQueued s { t with sports := s.sports } ∧
          OnlyCounts s.cc t.cc ∧ t.sport key = v ∧ ∀ j, j ≠ key → t.sport j = s.sport j
       let p : SPort := { kind := k.toNat, w := hb == 1, b := blockOf r, ctx := s.iss.ctx }
       (d.toNat < 16 → ∃ t, exec (.funbind y d) s = .next t ∧ ports t none) ∧
       (d.toNat < 16 → xa % 64 ≠ 0 → exec (.fbind y d a hb k) s = .next (s.raise cFabField)) ∧
       (d.toNat < 16 → xa % 64 = 0 → winRead (s.windows s.iss.ctx) s xa 64 = some r → bindBad k.toNat p.w r = false →
         (bindReach s p = false → exec (.fbind y d a hb k) s = .next (s.raise cFabRange)) ∧
         (bindReach s p = true → ∃ t, exec (.fbind y d a hb k) s = .next t ∧ ports t (some p))))) ∧
    ∀ p, s.sport (16 * s.cc.part + s.iss.xb.toNat / 2 ^ 32 % 16) = some p → f.st = 4 ∨ f.st = 5 → p.kind = 1 →
      s.iss.xb.toNat / 2 ^ 37 = 0 → xa % (if p.w then 128 else 256) = 0 →
      (let m := s.iss.xb.toNat % 2 ^ 32
       (∀ e, e ∈ p.open_ → e.1 ≠ m) → exec (.finj y a b) s = .next (s.raise cFabField)) ∧
      (let m := s.iss.xb.toNat % 2 ^ 32
       let port := 16 * s.cc.part + s.iss.xb.toNat / 2 ^ 32 % 16
       (∃ e, e ∈ p.open_ ∧ e.1 = m) → InReach s xa (if p.w then 128 else 256) →
         ∃ t, exec (.finj y a b) s = .next t ∧ t.sport port = some { p with open_ := p.open_.filter fun e => e.1 != m } ∧
           (∀ j, j ≠ port → t.sport j = s.sport j) ∧
           (bit s.iss.xb.toNat 36 = true → (t.fab task).failed = true ∧ t.mem = s.mem) ∧
           (bit s.iss.xb.toNat 36 = false → (t.fab task).failed = f.failed ∧
             t.mem = (writePieces (s.setSport port { p with open_ := p.open_.filter fun e => e.1 != m }) s.cc.part p.ctx (p.pieces m)
               ((List.range (if p.w then 128 else 256)).map fun n => coreByte s (xa + n))).mem)))

/-- R376, R388 to R391: FENCE notes, when it issues, what its context has under way; it completes in the first clk in which
the accesses of its queue are performed, every item it noted is done within its scope, and the rows emitted before are at their sinks. -/
def Obligations.Fences : Prop :=
  ∀ (s : State) (h : Hdr) (sc : BitVec 3),
    let me := s.iss.ctx
    let w := if s.iss.again then s.iss.wset else s.schedOf me :: fenceSet s me
    let met := s.accessed s.now = true ∧ (∀ i, i ∈ w.drop 1 → fenceItem s me sc.toNat i = true) ∧ fenceRows s me sc.toNat (w.headD 0) = true
    let kept := fun (t : State) => t.iss.ctx = me ∧ t.iss.wset = w ∧ OnlyQueued { s with iss := t.iss } t ∧
      OnlyCounts s.cc t.cc
    (met → ∃ t, exec (.fence h sc) s = .next t ∧ kept t ∧ t.iss.wait = s.iss.wait) ∧
    (¬ met → ∃ t, exec (.fence h sc) s = .next t ∧ kept t ∧ t.iss.wait = true) ∧
    ∀ i, i ∈ fenceSet s me ↔
      (∃ c, (i, c) ∈ s.cmds ∧ c.ctx = me ∧ c.part = s.cc.part ∧ c.kind.streamed = true ∧ c.kind ≠ .record ∧ c.kind ≠ .node) ∨
      (∃ m, (i, m) ∈ s.msgs ∧ m.ctx = me ∧ m.task = s.taskOf me) ∨
      ∃ u, (i, u) ∈ s.syncs ∧ u.kind = 3 ∧ u.ctx = me ∧ (s.part u.part).task = s.taskOf me

/-- R18 to R21, R430: bring-up. A reset of a package that has begun or failed its bring-up starts it afresh. Reset with a good first stage and a matching mix record begins to train the links; the last
link trained begins the zero fill, unless an essential link is down; the fill leaves every byte of the stacks zero; the
clusters leave gating in ascending order, 2,500 ticks apart, and the last opens the queues. A live die can be fenced. -/
def Obligations.BringUp : Prop :=
  ∀ (s : State),
    let p := s.ev.a
    let m := s.ev.b
    let boots := fun i (step : Nat) => ∃ t, exec i s = .next t ∧ t.bootStep = step
    (s.bootStep ≠ 0 → exec .reset s = exec .reset s.restarted ∧ s.restarted.bootStep = 0 ∧ s.restarted.mem = s.mem ∧
      s.restarted.fwGood = s.fwGood ∧ s.restarted.mixRec = s.mixRec) ∧
    (s.bootStep = 0 → s.fwGood = false → exec .reset s = .next { s with bootStep := 15, bootFail := 3, bootPos := 0 }) ∧
    (∀ q, s.bootStep = 0 → s.fwGood = true → mixBad s = some q →
      exec .reset s = .next { s with bootStep := 15, bootFail := 1, bootPos := q }) ∧
    (s.bootStep = 0 → s.fwGood = true → mixBad s = none → ∃ t, exec .reset s = .next t ∧ t.bootStep = 2 ∧
      { t with bootStep := s.bootStep, agenda := s.agenda, free := s.free } = s ∧
      ∀ l, l ∈ trainable s → ∃ d, d ∈ t.agenda ∧ d.ev = .linkTrainingDone ∧ d.arg.a = l.1 ∧ d.arg.b = l.2 ∧ s.tb < d.at_) ∧
    (let fresh := (p, m) ∈ trainable s ∧ (fget (s.die p).links m {}).trained = false
     let q := farEnd p m
     let done := fun (a b : Nat) => (a, b) = (p, m) ∨ (a, b) = (q, farModule p m)
     (s.bootStep ≠ 2 ∨ ¬ fresh → exec .linkTrainingDone s = .fault .notEnabled) ∧
     (s.bootStep = 2 → fresh → (∃ l, l ∈ trainable s ∧ ¬ done l.1 l.2 ∧ (fget (s.die l.1).links l.2 {}).trained = false) →
       ∃ t, exec .linkTrainingDone s = .next t ∧ { t with dies := s.dies } = s ∧
         (∀ a b, done a b → (fget (t.die a).links b {}).trained = true ∧
           (fget (t.die a).links b {}).state = if s.ev.f then 0 else 3) ∧
         (∀ a b, ¬ done a b → fget (t.die a).links b {} = fget (s.die a).links b {}) ∧
         (s.ev.f = true → (t.die p).ifv = s.ev.c ∧ (t.die q).ifv = s.ev.c))) ∧
    (s.bootStep ≠ 3 → exec .zeroFillDone s = .fault .notEnabled) ∧
    (s.bootStep = 3 → Memory.wf s.mem = true → ∃ t, exec .zeroFillDone s = .next t ∧ t.bootStep = 4 ∧
      (∀ k, k < stackKey 12 0 → mget t.mem k = 0) ∧ (∀ k, stackKey 12 0 ≤ k → mget t.mem k = mget s.mem k) ∧
      (∀ z u, fget (t.stack z).bad u false = false) ∧ t.ctxs = s.ctxs ∧ t.dies = s.dies ∧ t.clusters = s.clusters ∧
      t.agenda = s.agenda ++ [⟨s.tb, .clusterPowerUp, {}, none⟩]) ∧
    (s.bootStep ≠ 4 → exec .clusterPowerUp s = .fault .notEnabled) ∧
    (∀ c, s.bootStep = 4 → nextPowerUp s = some c → ∃ t, exec .clusterPowerUp s = .next t ∧
      (t.cluster c).powered = true ∧ (∀ k, k ≠ c → t.cluster k = s.cluster k) ∧
      (t.bootStep = 4 ∨ t.bootStep = 6) ∧ (t.bootStep = 4 → t.agenda = s.agenda ++ [⟨s.tb + 2500, .clusterPowerUp, {}, none⟩])) ∧
    (s.bootStep = 4 → nextPowerUp s = none → boots .clusterPowerUp 6) ∧
    (let live := (s.die p).kind ≠ 0 ∧ (s.die p).fused = false ∧ (s.die p).health = 0
     (¬ live → exec .dieFence s = .fault .notEnabled) ∧
     (live → ∃ t, exec .dieFence s = .next t ∧ { t with dies := s.dies, placerDue := s.placerDue } = s ∧ t.placerDue = true ∧
       t.die p = { s.die p with health := 1 } ∧ ∀ k, k ≠ p → t.die k = s.die k))

/-- R3, R161, R170, R179, R300, R347, R357, R372, R425, R431, R436, R438: writes to registers as events. Each writes its
register when the rules allow the write, and changes nothing else but, after a new module limit, the frequencies the purser
lowers, none of a cluster that holds streams. A host's write waits for the earlier ones of its port. -/
def Obligations.RegisterWrites : Prop :=
  ∀ (s : State),
    let ck := s.ev.a
    let c := s.ctx ck
    let v := s.ev.v.toNat
    let cl := clusterOf (coreOf ck)
    let core := s.pcore (s.myPcore ck)
    let tile := c.run = .running ∧ coreOf ck < 192
    let moved := fun (t : State) => t.iss.ctx = ck
    (tile → ∃ t, exec .sperrClear s = .next t ∧ moved t ∧ { t with ctxs := s.ctxs, iss := s.iss } = s ∧
      t.ctx ck = { c with sperr := 0, spaddr := 0 } ∧ ∀ k, k ≠ ck → t.ctx k = s.ctx k) ∧
    (tile → core.recv = [] → v % 2 ^ 32 % 16384 = 0 → v / 2 ^ 33 = 0 → ∃ t, exec .msgcfgWrite s = .next t ∧ moved t ∧
      { t with pcores := s.pcores, iss := s.iss } = s ∧
      t.pcore (s.myPcore ck) = { core with msgBase := v % 2 ^ 32, msgEn := bit v 32 } ∧
      ∀ k, k ≠ s.myPcore ck → t.pcore k = s.pcore k) ∧
    (let r := fget core.rings s.ev.b {}
     let n := bits v 32 13
     let z := bits v 48 7
     tile → s.ev.b ≤ 63 → r.fin = 0 → r.declared = false → r.fill = 0 → r.clm = 0 → v % 2 ^ 32 % 256 = 0 → bits v 45 3 = 0 →
       v / 2 ^ 55 = 0 → n ≤ 4096 → (n ≠ 0 → 1 ≤ z ∧ z ≤ 64) → windowOf (v % 2 ^ 32) ≠ 3 →
       ∃ t, exec .qcfgWrite s = .next t ∧ moved t ∧ { t with pcores := s.pcores, iss := s.iss } = s ∧
         t.pcore (s.myPcore ck) = { core with
           rings := fset core.rings s.ev.b { r with base := v % 2 ^ 32, tail := 0, fill := 0, clm := 0, nslot := n, ssz := z } } ∧
         ∀ k, k ≠ s.myPcore ck → t.pcore k = s.pcore k) ∧
    (let u := s.cluster cl
     tile → u.ppart = 0 ∨ u.ppart = c.part → (∀ e, e ∈ u.slots → e.2.st ≠ .filling ∧ e.2.pin = 0) → v % 2 ^ 11 = 0 →
       ∃ t, exec .prbcfgWrite s = .next t ∧ moved t ∧ { t with clusters := s.clusters, iss := s.iss } = s ∧
         t.cluster cl = { u with sets := 0, pbase := bits v 16 16, ppart := 0, slots := [], rrp := [], prbhit := 0
                                 prbmiss := 0, prbfull := 0 } ∧
         ∀ k, k ≠ cl → t.cluster k = s.cluster k) ∧
    (parkedAt s s.ev.a s.ev.b = none →
      exec .xfactRetry s = .fault .notEnabled ∧ exec .xfactFail s = .fault .notEnabled) ∧
    (∀ i cause dva, parkedAt s s.ev.a s.ev.b = some i → (s.cmd i).parked = some (cause, dva) →
      ((s.cmd i).kind ≠ .line → ∃ t, exec .xfactRetry s = .next t ∧ t.cmd i = { s.cmd i with parked := none } ∧
        (∀ j, j ≠ i → t.cmd j = s.cmd j) ∧
        { t with cmds := s.cmds, dies := s.dies, agenda := s.agenda, free := s.free } = s ∧
        ∃ d, d ∈ t.agenda ∧ d.ev = .translationWalkDone ∧ d.arg.a = i ∧ s.tb < d.at_) ∧
      ∃ t, exec .xfactFail s = .next t ∧ t.cmd i = { s.cmd i with parked := none, err := cause, errDva := dva } ∧
        (∀ j, j ≠ i → t.cmd j = s.cmd j) ∧ { t with cmds := s.cmds, dies := s.dies, agenda := s.agenda } = s ∧
        t.agenda = s.agenda ++ [⟨s.tb, .copyErrorComplete, { a := i }, none⟩]) ∧
    (let w := s.win s.ev.a
     s.ev.a ≤ 255 → ∃ t, exec .winWrite s = .next t ∧ { t with wins := s.wins } = s ∧ (∀ k, k ≠ s.ev.a → t.win k = s.win k) ∧
       (s.ev.b = 0 → w.valid = false → (t.win s.ev.a).valid = bit v 0 ∧ (t.win s.ev.a).base = bits v 16 41 * 2 ^ 16 ∧
         (bit v 0 = true → (t.win s.ev.a).arr = 0)) ∧
       (s.ev.b = 0 → w.valid = true → t.win s.ev.a = { w with valid := bit v 0 }) ∧
       (s.ev.b = 8 → t.win s.ev.a = if w.valid then w else { w with len := v % 2 ^ 32 }) ∧
       (s.ev.b = 16 → t.win s.ev.a = if w.valid then w else { w with root := bits v 12 36 * 2 ^ 12 })) ∧
    (let lim := v % 2 ^ 13
     (lim < 3000 ∨ 4400 < lim → exec .pwrlimWrite s = .next s) ∧
     (3000 ≤ lim → lim ≤ 4400 → ∃ t, exec .pwrlimWrite s = .next t ∧ t.pwrlim = lim ∧
       { t with pwrlim := s.pwrlim, clusters := s.clusters, agenda := s.agenda, free := s.free } = s ∧
       ∀ k, clusterStreams s k = true ∨ (s.cluster k).powered = false → t.cluster k = s.cluster k)) ∧
    (exec .almcfgWrite s = .next (if s.almSet then s else { s with almcfg := v % 2 ^ 12, almSet := true })) ∧
    (∃ t, exec .thermClear s = .next t ∧ { t with dies := s.dies } = s ∧
      t.die s.ev.a = { s.die s.ev.a with hot := false, crit := false } ∧ ∀ k, k ≠ s.ev.a → t.die k = s.die k) ∧
    (s.ev.a ≤ 11 → (s.stack s.ev.a).lost = false → ∃ t, exec .stkctlLose s = .next t ∧
      t.stack s.ev.a = { s.stack s.ev.a with lost := true, cause := 4 } ∧ (t.die (22 + s.ev.a)).health = 2 ∧
      t.placerDue = true ∧ { t with memStacks := s.memStacks, dies := s.dies, placerDue := s.placerDue } = s) ∧
    (let o := s.ev.b
     let pos := o / 0x100000
     let ok := s.ev.a ≤ 1 ∧ 1 ≤ s.ev.c ∧ s.ev.c ≤ 8 ∧ o + s.ev.c ≤ 0x4000000 ∧ portBusy s s.ev.a s.nextId = false
     let lim := v % 2 ^ 13
     (¬ ok → exec .registerWrite s = .fault .notEnabled) ∧
     (ok → o % 8 = 0 → blockAnswers s pos = false → exec .registerWrite s = .next s) ∧
     (ok → s.ev.c = 8 → pos = s.root → o % 0x100000 = 0x1900 → blockAnswers s pos = true → isCompute pos = false →
       (lim < 3000 ∨ 4400 < lim → exec .registerWrite s = .next s) ∧
       (3000 ≤ lim → lim ≤ 4400 → ∃ t, exec .registerWrite s = .next t ∧ t.pwrlim = lim ∧
         { t with pwrlim := s.pwrlim, clusters := s.clusters, agenda := s.agenda, free := s.free } = s ∧
         ∀ k, clusterStreams s k = true ∨ (s.cluster k).powered = false → t.cluster k = s.cluster k)))

/-- R432 to R436: the operating points of the clusters. A request out of range, below the voltage floor or during a ramp is
refused with its status; one for a cluster that holds streams or is quiesced waits; else the voltage rises first, 625 ticks a
code, then the frequency is switched, then the voltage falls.
R434 to R436, R467: the quiesce states of a cluster, its counters, and the temperature of a die. QUIESCED is reached once
nothing of the cluster runs; SAVE and GATE follow in order; WAKE comes back from SAVED, from QUIESCED at once and from GATED
within 20 µs; any other command is refused with ERR. -/
def Obligations.OperatingPoints : Prop :=
  (∀ (s : State), s.ev.a < 56 →
    let cl := s.ev.a
    let c := s.cluster cl
    let f := s.ev.v.toNat % 2 ^ 5
    let u := s.ev.v.toNat / 2 ^ 8 % 2 ^ 6
    let asked := { c with reqF := f, reqU := u }
    let only := fun (t : State) => { t with clusters := s.clusters, agenda := s.agenda, free := s.free } = s ∧
      ∀ k, k ≠ cl → t.cluster k = s.cluster k
    let goes := fun i (d : Cluster) => ∃ t, exec i s = .next t ∧ only t ∧ t.cluster cl = d ∧ t.agenda = s.agenda
    let later := fun i (d : Cluster) (n : Nat) (ev : Instr) => ∃ t, exec i s = .next t ∧ only t ∧ t.cluster cl = d ∧
      t.agenda = s.agenda ++ [⟨s.tb + n, ev, { a := cl }, none⟩]
    let pauses := fun i (d : Cluster) => ∃ t n, exec i s = .next t ∧ only t ∧ t.cluster cl = d ∧ 1 ≤ n ∧ n ≤ 1250 ∧
      t.agenda = s.agenda ++ [⟨s.tb + n, .dvfsFreqSwitchDone, { a := cl }, none⟩]
    let bad := 26 < f ∨ 50 < u
    (c.stat = 1 → goes .pcreqGo { asked with perr := true }) ∧
    (c.stat ≠ 1 → bad → goes .pcreqGo { asked with stat := 5 }) ∧
    (c.stat ≠ 1 → ¬ bad → u < (25 * f + 12) / 13 → goes .pcreqGo { asked with stat := 3 }) ∧
    (c.stat ≠ 1 → ¬ bad → (25 * f + 12) / 13 ≤ u →
      let d := { asked with pendF := f, pendU := u }
      (clusterStreams s cl = true ∨ c.qstate ≠ 0 → goes .pcreqGo { d with stat := 4 }) ∧
      (clusterStreams s cl = false → c.qstate = 0 →
        let r := { d with stat := 1 }
        (c.curU < u → later .pcreqGo r ((u - c.curU) * 625) .dvfsVoltageRiseDone) ∧
        (u ≤ c.curU → f ≠ c.curF → pauses .pcreqGo { r with xfifo := true }) ∧
        (u < c.curU → f = c.curF → later .pcreqGo r ((c.curU - u) * 625) .dvfsVoltageFallDone) ∧
        (u = c.curU → f = c.curF → goes .pcreqGo { r with stat := 2, doneAt := s.tb }))) ∧
    (c.stat = 1 →
      (c.pendF ≠ c.curF → pauses .dvfsVoltageRiseDone { c with curU := c.pendU, xfifo := true }) ∧
      (c.pendF = c.curF → goes .dvfsVoltageRiseDone { c with curU := c.pendU, stat := 2, doneAt := s.tb }) ∧
      (c.pendU < c.curU → later .dvfsFreqSwitchDone { c with curF := c.pendF, xfifo := false }
        ((c.curU - c.pendU) * 625) .dvfsVoltageFallDone) ∧
      (c.curU ≤ c.pendU → goes .dvfsFreqSwitchDone { c with curF := c.pendF, xfifo := false, stat := 2, doneAt := s.tb }) ∧
      goes .dvfsVoltageFallDone { c with curU := c.pendU, stat := 2, doneAt := s.tb }) ∧
    (c.stat ≠ 1 → exec .dvfsVoltageRiseDone s = .fault .notEnabled ∧ exec .dvfsFreqSwitchDone s = .fault .notEnabled ∧
      exec .dvfsVoltageFallDone s = .fault .notEnabled)) ∧
  (∀ (s : State),
    let cl := s.ev.a
    let c := s.cluster cl
    let only := fun (t : State) => { t with clusters := s.clusters } = s ∧ ∀ k, k ≠ cl → t.cluster k = s.cluster k
    let goes := fun i (d : Cluster) => ∃ t, exec i s = .next t ∧ only t ∧ t.cluster cl = d
    (cl < 56 →
      (c.qstate = 0 → clusterBusy s cl = false → goes .pqctlQreq { c with qstate := 1 }) ∧
      (c.qstate ≠ 0 ∨ clusterBusy s cl = true → goes .pqctlQreq { c with qerr := true }) ∧
      (c.qstate = 2 → goes .pqctlSave { c with qstate := 3 }) ∧
      (c.qstate ≠ 2 → goes .pqctlSave { c with qerr := true }) ∧
      (c.qstate = 3 → goes .pqctlGate { c with qstate := 4 }) ∧
      (c.qstate ≠ 3 → goes .pqctlGate { c with qerr := true }) ∧
      (c.qstate = 2 ∨ c.qstate = 3 → c.stat ≠ 4 → ∃ t, exec .pqctlWake s = .next t ∧
        { t with clusters := s.clusters, placerDue := s.placerDue } = s ∧ t.cluster cl = { c with qstate := 0 } ∧
        t.placerDue = true ∧ ∀ k, k ≠ cl → t.cluster k = s.cluster k) ∧
      (c.qstate = 4 → ∃ t d, exec .pqctlWake s = .next t ∧ t.cluster cl = { c with qstate := 5 } ∧
        (∀ k, k ≠ cl → t.cluster k = s.cluster k) ∧ t.agenda = s.agenda ++ [⟨d, .wakeDone, { a := cl }, none⟩] ∧
        max s.tb (s.lastWake + 2500) < d ∧ d ≤ max s.tb (s.lastWake + 2500) + 25000) ∧
      (c.qstate = 0 ∨ c.qstate = 1 ∨ c.qstate = 5 → goes .pqctlWake { c with qerr := true })) ∧
    (c.qstate = 1 → clusterDrained s cl = true → goes .quiesceDone { c with qstate := 2 }) ∧
    (c.qstate ≠ 1 → exec .quiesceDone s = .fault .notEnabled) ∧
    (c.qstate = 5 → c.stat ≠ 4 → ∃ t, exec .wakeDone s = .next t ∧ t.cluster cl = { c with qstate := 0 } ∧
      t.placerDue = true ∧ ∀ k, k ≠ cl → t.cluster k = s.cluster k) ∧
    (∃ t, exec .pcsnapCapture s = .next t ∧ { t with clusters := s.clusters, agenda := s.agenda } = s ∧
      (∀ k x, fget? s.clusters k = some x → t.cluster k = { x with
        snapAct := x.act % 2 ^ 32, snapStall := x.stall % 2 ^ 32, act := 0, stall := 0 }) ∧
      ∃ n, t.agenda = s.agenda ++ [⟨s.tb + n, .pcsnapCapture, {}, none⟩] ∧ 1 ≤ n ∧ (s.tb + n) % 12500 = 0 ∧ n ≤ 12500) ∧
    (∃ t, exec .thermHot s = .next t ∧
      { t with dies := s.dies, clusters := s.clusters, agenda := s.agenda, free := s.free } = s ∧
      t.die s.ev.a = { s.die s.ev.a with temp := s.ev.b % 256, hot := true } ∧ (∀ k, k ≠ s.ev.a → t.die k = s.die k) ∧
      (∀ k, (k ∉ dieClusters s.ev.a ∨ (s.cluster k).curF = 0) → t.cluster k = s.cluster k) ∧
      ∀ k, k ∈ dieClusters s.ev.a → (s.cluster k).curF ≠ 0 → (t.cluster k).reqF < (s.cluster k).curF) ∧
    (s.ev.a < 22 → s.alive s.ev.a = true → (s.die s.ev.a).crit = false → (s.die s.ev.a).health = 0 → s.tasks = [] →
      ∃ t, exec .thermCrit s = .next t ∧ { t with dies := s.dies, placerDue := s.placerDue } = s ∧
        t.die s.ev.a = { s.die s.ev.a with temp := s.ev.b % 256, hot := true, crit := true, health := 1 } ∧
        ∀ k, k ≠ s.ev.a → t.die k = s.die k))

/-- R433 to R436: every write and every event about a cluster's power completes. PCREQ takes F and U into the register, and a
ramp in progress refuses them with an error; a rise of the voltage, a switch of the frequency and a fall of the voltage end
with the value asked for in force; a write of PQCTL goes on to the next state where the rule allows it, else it stays and sets
ERR; a quiescing cluster whose work is done is quiesced, a waking one is awake; the counters are captured and start anew; a die
that is hot or at CRIT says so with its temperature. -/
def Obligations.PowerEventsComplete : Prop :=
  ∀ (s : State),
    let cl := s.ev.a
    let c := s.cluster cl
    let v := s.ev.v.toNat
    let rest := fun (t : State) => ∀ k, k ≠ cl → t.cluster k = s.cluster k
    (cl < 56 → ∃ t, exec .pcreqGo s = .next t ∧ rest t ∧ (t.cluster cl).reqF = v % 2 ^ 5 ∧
      (t.cluster cl).reqU = v / 2 ^ 8 % 2 ^ 6 ∧ (t.cluster cl).curF = c.curF ∧ (t.cluster cl).curU = c.curU ∧
      (c.stat = 1 → (t.cluster cl).perr = true ∧ (t.cluster cl).pendF = c.pendF ∧ (t.cluster cl).pendU = c.pendU)) ∧
    (c.stat = 1 → ∃ t, exec .dvfsVoltageRiseDone s = .next t ∧ rest t ∧ (t.cluster cl).curU = c.pendU ∧
      (t.cluster cl).curF = c.curF) ∧
    (c.stat = 1 → ∃ t, exec .dvfsFreqSwitchDone s = .next t ∧ rest t ∧ (t.cluster cl).curF = c.pendF ∧
      (t.cluster cl).curU = c.curU ∧ (t.cluster cl).xfifo = false) ∧
    (c.stat = 1 → ∃ t, exec .dvfsVoltageFallDone s = .next t ∧ rest t ∧ (t.cluster cl).curU = c.pendU ∧
      (t.cluster cl).curF = c.curF ∧ (t.cluster cl).stat = 2) ∧
    (cl < 56 → ∃ t, exec .pqctlQreq s = .next t ∧ rest t ∧
      (t.cluster cl).qstate = (if c.qstate = 0 ∧ clusterBusy s cl = false then 1 else c.qstate) ∧
      (t.cluster cl).qerr = (c.qerr || c.qstate != 0 || clusterBusy s cl)) ∧
    (cl < 56 → ∃ t, exec .pqctlSave s = .next t ∧ rest t ∧ (t.cluster cl).qstate = (if c.qstate = 2 then 3 else c.qstate) ∧
      (t.cluster cl).qerr = (c.qerr || c.qstate != 2)) ∧
    (cl < 56 → ∃ t, exec .pqctlGate s = .next t ∧ rest t ∧ (t.cluster cl).qstate = (if c.qstate = 3 then 4 else c.qstate) ∧
      (t.cluster cl).qerr = (c.qerr || c.qstate != 3)) ∧
    (cl < 56 → ∃ t, exec .pqctlWake s = .next t ∧ rest t ∧
      (t.cluster cl).qstate = (if c.qstate = 2 ∨ c.qstate = 3 then 0 else if c.qstate = 4 then 5 else c.qstate) ∧
      (t.cluster cl).qerr = (c.qerr || !(c.qstate == 2 || c.qstate == 3 || c.qstate == 4))) ∧
    (c.qstate = 1 → clusterDrained s cl = true → ∃ t, exec .quiesceDone s = .next t ∧ rest t ∧
      t.cluster cl = { c with qstate := 2 }) ∧
    (c.qstate = 5 → ∃ t, exec .wakeDone s = .next t ∧ rest t ∧ (t.cluster cl).qstate = 0 ∧ t.placerDue = true) ∧
    (∃ t, exec .pcsnapCapture s = .next t ∧ ∀ k x, fget? s.clusters k = some x → (t.cluster k).act = 0 ∧ (t.cluster k).stall = 0 ∧
      (t.cluster k).snapAct = x.act % 2 ^ 32 ∧ (t.cluster k).snapStall = x.stall % 2 ^ 32) ∧
    (∃ t, exec .thermHot s = .next t ∧ (t.die s.ev.a).hot = true ∧ (t.die s.ev.a).temp = s.ev.b % 256) ∧
    (s.ev.a < 22 → s.alive s.ev.a = true → (s.die s.ev.a).crit = false → ∃ t, exec .thermCrit s = .next t ∧
      (t.die s.ev.a).crit = true ∧ (t.die s.ev.a).hot = true ∧ (t.die s.ev.a).temp = s.ev.b % 256)

/-- R437, R438: attestation and the alarms. A request is answered by a report unless the keys are erased; the report is
written at the address given and DONE is set. An alarm is logged, a message is sent, and every action up to its level is
taken. -/
def Obligations.TrustAndAlarms : Prop :=
  ∀ (s : State),
    (s.keysErased = true → exec .attestRequest s = .next { s with attestRefused := true }) ∧
    (s.keysErased = false → ∃ t d, exec .attestRequest s = .next t ∧ { t with agenda := s.agenda, free := s.free } = s ∧
      t.agenda = s.agenda ++ [d] ∧ d.ev = .attestReportDone ∧ s.tb < d.at_) ∧
    (∃ t, exec .attestReportDone s = .next t ∧ t.attestDone = true ∧ t.ctxs = s.ctxs ∧ t.tb = s.tb ∧
      t.mem = (devStore s s.reportDpa (reportBody s ++ (List.range 64).map (Config.signatureByte (reportBody s)))).s.mem) ∧
    (reportBody s).length = 320 ∧
    (3 < s.ev.a → exec .alarmRaise s = .fault .notEnabled) ∧
    (s.ev.a ≤ 3 →
      let set := max 1 (s.almcfg / 2 ^ (3 * s.ev.a) % 8)
      let may := fun k => k = 1 ∨ s.almfuse.testBit (k - 1) = true
      ∀ k, 1 ≤ k → k ≤ 4 → k ≤ set → may k → (∀ j, k < j → j ≤ 4 → j ≤ set → ¬ may j) →
        ∃ t, exec .alarmRaise s = .next t ∧ t.flogHead = s.flogHead + 1 ∧ t.msix = 17 :: 16 :: s.msix ∧
          t.dbgLocked = (s.dbgLocked || decide (2 ≤ k)) ∧ t.keysErased = (s.keysErased || decide (3 ≤ k)) ∧
          t.halted = (s.halted || decide (4 ≤ k)) ∧ t.ctxs = s.ctxs ∧ t.tasks = s.tasks)

/-- R336 to R340, R343 to R345, R425: memory reached stripe by stripe. A write is offered to its stripe's owner, waits for
the earlier writes of its port and for the writes of the stripe in progress, then its data owner writes the bytes and sends the difference to the parity, which takes
it; a full stripe is written with its parity. A read is served by the data owner, or from the other eleven units of the
stripe.
R336, R340, R342, R343, R344: reads of device memory as events, the patrol's count and the loss of a stack. A read of a
unit that is lost gives, for each byte, the XOR of the other eleven units. -/
def Obligations.StackSteps : Prop :=
  (∀ (s : State) (w : StripeWrite),
    let i := s.ev.a
    let t := stripeMap w.dpa
    let live := fun z => (s.stack z).lost = false
    let key := fun z => stackKey z (1024 * t.s + t.o)
    fget? s.writes i = some w →
    (w.phase = 0 → stripeBusy s i (!needsAlone s w) w = true ∨ portBusy s w.port i = true →
      exec .stripeWriteAccept s = .next (s.after 1 .stripeWriteAccept { a := i })) ∧
    (w.phase = 0 → stripeBusy s i (!needsAlone s w) w = false → portBusy s w.port i = false → ∃ u, exec .stripeWriteAccept s = .next u ∧
      fget? u.writes i = some { w with phase := 1 } ∧ (∀ j, j ≠ i → fget? u.writes j = fget? s.writes j) ∧
      { u with writes := s.writes, agenda := s.agenda, free := s.free } = s) ∧
    (w.phase ≠ 0 → exec .stripeWriteAccept s = .fault .notEnabled) ∧
    (w.phase = 1 → w.full = false → 0 < w.bytes.length → t.o + w.bytes.length ≤ 1024 → live t.z → live t.p →
      (s.stack t.z).bad = [] → Memory.wf s.mem = true → ∃ u, exec .partialStripeWrite s = .next u ∧
        (∀ n, n < w.bytes.length → mget u.mem (key t.z + n) = w.bytes.getD n 0) ∧
        (∀ k, k < key t.z ∨ key t.z + w.bytes.length ≤ k → mget u.mem k = mget s.mem k) ∧
        (∃ x, fget? u.writes i = some x ∧ x.phase = 2 ∧ x.dpa = w.dpa ∧ x.delta.length = w.bytes.length ∧
          ∀ n, n < w.bytes.length → x.delta.getD n 0 = mget s.mem (key t.z + n) ^^^ w.bytes.getD n 0) ∧
        { u with mem := s.mem, writes := s.writes, agenda := s.agenda, free := s.free } = s) ∧
    (w.phase = 2 → live t.p → Memory.wf s.mem = true →
      let p := s.stack t.p
      let at_ := fun o => stackKey t.p (1024 * t.s + o)
      (p.bad = [] → ∃ u, exec .parityDeltaApply s = .next u ∧ { u with mem := s.mem, writes := s.writes } = s ∧
        (∀ n, n < w.delta.length → mget u.mem (key t.p + n) = mget s.mem (key t.p + n) ^^^ w.delta.getD n 0) ∧
        (∀ k, k < key t.p ∨ key t.p + w.delta.length ≤ k → mget u.mem k = mget s.mem k) ∧ fget? u.writes i = none) ∧
      (∀ l, l ∈ eccLines t.o w.delta.length → p.bad = [(lineOf t.s l, true)] → p.ueth = 0 →
        t.o + w.delta.length ≤ 1024 → (∀ z, z < 12 → z ≠ t.p → live z ∧ (s.stack z).bad = []) →
        ∃ u, exec .parityDeltaApply s = .next u ∧ { u with mem := s.mem, writes := s.writes, memStacks := s.memStacks } = s ∧
          u.stack t.p = { p with ue := p.ue + 1, wb := p.wb + 1, rc := p.rc + 1, bad := [] } ∧ fget? u.writes i = none ∧
          (∀ o b, o < 1024 → rebuild s t.p t.s o = some b → mget u.mem (at_ o) =
            b ^^^ (if t.o ≤ o then w.delta.getD (o - t.o) 0 else 0)) ∧
          ∀ k, (∀ o, o < 1024 → k ≠ at_ o) → mget u.mem k = mget s.mem k)) ∧
    (w.phase = 2 → ¬ live t.p → exec .parityDeltaApply s = .next { s with writes := fdel s.writes i }) ∧
    (w.phase = 1 → w.full = true → w.dpa % 11264 = 0 → w.dpa + 11264 ≤ 528000000000 → (∀ z, z < 12 → live z) → Memory.wf s.mem = true →
      ∃ u, exec .fullStripeWrite s = .next u ∧ fget? u.writes i = none ∧
        (∀ n, n < 11264 → let m := stripeMap (w.dpa + n)
          mget u.mem (stackKey m.z (1024 * m.s + m.o)) = w.bytes.getD n 0) ∧
        (∀ o, o < 1024 → mget u.mem (stackKey t.p (1024 * t.s + o)) =
          (List.range 11).foldl (fun b k => b ^^^ w.bytes.getD (1024 * k + o) 0) 0) ∧
        (∀ k, (∀ z o, z < 12 → o < 1024 → k ≠ stackKey z (1024 * t.s + o)) → mget u.mem k = mget s.mem k) ∧
        { u with mem := s.mem, writes := s.writes, memStacks := s.memStacks } = s)) ∧
  (∀ (s : State),
    let a := s.ev.a
    let n := s.ev.b
    let t := stripeMap a
    let inUnit := a + n ≤ 528000000000 ∧ t.o + n ≤ 1024
    (inUnit → (s.stack t.z).lost = false → (s.stack t.z).bad = [] →
      exec .deviceMemoryRead s = .next { s with
        hostRead := (List.range n).map fun k => mget s.mem (stackKey t.z (1024 * t.s + t.o + k)) }) ∧
    (inUnit → (s.stack t.z).lost = true → exec .deviceMemoryRead s = .fault .notEnabled) ∧
    (inUnit → 0 < n → (s.stack t.z).lost = true → (∀ z, z < 12 → z ≠ t.z → (s.stack z).lost = false ∧ (s.stack z).bad = []) →
      (∀ e, e ∈ s.writes → e.2.phase = 0 ∨
        (e.2.dpa / 11264 ≠ t.s ∧ (a + n ≤ e.2.dpa ∨ e.2.dpa + e.2.bytes.length ≤ a))) → ∃ u, exec .reconstructedRead s = .next u ∧
        { u with hostRead := s.hostRead, memStacks := s.memStacks } = s ∧ (u.stack t.z).rc = (s.stack t.z).rc + 1 ∧
        u.hostRead = (List.range n).map fun k => ((List.range 12).filter (· != t.z)).foldl
          (fun b z => b ^^^ mget s.mem (stackKey z (1024 * t.s + (t.o + k)))) 0) ∧
    (∃ u, exec .refreshCheckReport s = .next u ∧ { u with memStacks := s.memStacks } = s ∧
      u.stack a = { s.stack a with ecs := (s.stack a).ecs + BitVec.ofNat 64 n } ∧ ∀ z, z ≠ a → u.stack z = s.stack z) ∧
    (a ≤ 11 → 1 ≤ n → n ≤ 4 → (s.stack a).lost = false → ∃ u, exec .stackLoss s = .next u ∧ u.placerDue = true ∧
      { u with memStacks := s.memStacks, dies := s.dies, placerDue := s.placerDue } = s ∧ u.stack a = { s.stack a with lost := true, cause := n } ∧
      u.die (22 + a) = { s.die (22 + a) with health := 2 } ∧ (∀ z, z ≠ a → u.stack z = s.stack z) ∧
      ∀ p, p ≠ 22 + a → u.die p = s.die p) ∧
    (let port := s.ev.a
     let off := s.ev.b
     let len := s.ev.c
     port ≤ 1 → s.alive port = true → off + len ≤ 2 ^ 34 →
      (awaitsStripe s ((s.ferry port).hwin + off) len = false → ∃ u, exec .hostBar2Read s = .next u ∧
        { u with hostRead := s.hostRead, free := s.free, mem := s.mem, memStacks := s.memStacks, dies := s.dies
                 placerDue := s.placerDue } = s ∧
        u.hostRead.length = len ∧
        ((∀ z, z < 12 → (s.stack z).lost = false ∧ (s.stack z).bad = []) → { u with hostRead := s.hostRead, free := s.free } = s ∧
          ∀ k b, k < len → devByte s ((s.ferry port).hwin + off + k) = .inr b → u.hostRead.getD k 0 = b)) ∧
      (let base := (s.ferry port).hwin + off
       let pieces := splitWrite (s.ev.bytes.length + 1) base s.ev.bytes
       base + s.ev.bytes.length ≤ 528000000000 → off + s.ev.bytes.length ≤ 2 ^ 34 →
        (pieces.flatMap StripeWrite.bytes = s.ev.bytes) ∧ ∃ u, exec .hostBar2Write s = .next u ∧
          (∀ k, k < pieces.length → fget? u.writes (s.nextId + k) = pieces[k]?.map fun w => { w with port := port }) ∧
          (∀ j, j < s.nextId → fget? u.writes j = fget? s.writes j) ∧
          { u with writes := s.writes, nextId := s.nextId, agenda := s.agenda, free := s.free } = s)))

/-- R163, R164, R172, R285, R288, R301, R350, R395, R429: how commands end. A command every byte of which is performed leaves,
posts its token and raises its semaphore; so does one that fails, which is then logged and fails its task. The last event
of TMOV moves its bytes, that of OWN.C gives its tiles back, a put's acknowledgement counts it, an engine's own error ends
its task. -/
def Obligations.CommandsEnd : Prop :=
  ∀ (s : State) (c : Cmd),
    let i := s.ev.a
    let w := c.windows s
    (∀ e, e ∈ [Instr.copyComplete, .copyErrorComplete, .tileMoveComplete, .putAck, .hCommandComplete, .translationWalkDone,
        .accumulateApply, .cwalkSlotFill, .putArrival] → s.ev.f = false → fget? s.cmds i = none →
      exec e s = .fault .notEnabled) ∧
    (fget? s.cmds i = some c → Attached s c →
      let ends := fun (e : Instr) (u : State) => ∃ t, exec e s = .next t ∧ Leaves s t i ∧ Posts s t c ∧
        { t with cmds := u.cmds, ctxs := u.ctxs, dies := u.dies } = u
      (c.kind ∈ [CmdKind.cpy, .cpyt, .cgath, .cscat, .cacc, .caccf] → c.parked = none → c.err = 0 → c.timed = false →
        c.queued = false →
        (c.total ≤ c.reached → ends .copyComplete s) ∧ (c.reached < c.total → exec .copyComplete s = .fault .notEnabled)) ∧
      (c.kind ∈ [CmdKind.cpy, .cpyt, .cgath, .cscat, .cacc, .caccf, .cswp, .ccas, .cpsm, .cwalk] → c.err ≠ 0 → c.parked = none →
        endsTask c.err = false → c.task ≠ 0 → Memory.wf s.mem = true →
        ∃ t, exec .copyErrorComplete s = .next t ∧ Leaves s t i ∧ Posts s t c ∧
          Logs s t { cmdError s c with taskid := (s.task c.task).launch.taskid } ∧
          t.task c.task = { s.task c.task with
            firstFault := some ((s.task c.task).firstFault.getD (c.err, s.flogHead % 4096)), failed := true } ∧
          (∀ k, k ≠ c.task → t.task k = s.task k) ∧
          { t with cmds := s.cmds, ctxs := s.ctxs, dies := s.dies, mem := s.mem, tasks := s.tasks, flogHead := s.flogHead
                   msix := s.msix } = s) ∧
      (c.kind = .cput → c.arrived = true → c.err = 0 → ackError s c = 0 →
        ∃ t, exec .putAck s = .next t ∧ Leaves s t i ∧ Posts s t c ∧
          t.part c.part = { s.part c.part with
            pcnt := fset (s.part c.part).pcnt c.arg (fget (s.part c.part).pcnt c.arg 0 + 1) } ∧
          (∀ p, p ≠ c.part → t.part p = s.part p) ∧
          { t with cmds := s.cmds, ctxs := s.ctxs, dies := s.dies, parts := s.parts } = s) ∧
      (c.kind ∈ [CmdKind.hscan, .hgath, .hred, .hcvt] → c.queued = false → c.parked = none → c.err = 0 →
        (hUnits c ≤ c.reached → (s.stack c.arg).lost = true → ∃ t, exec .hCommandComplete s = .next t ∧
          Becomes s t i { c with err := 6 * 64 + 1, errDva := 0 } ∧ Awaits s t .copyErrorComplete i 0 ∧
          { t with cmds := s.cmds, agenda := s.agenda } = s) ∧
        (hUnits c ≤ c.reached → (s.stack c.arg).lost = false → ends .hCommandComplete
          { s with agenda := s.agenda ++ [⟨s.tb + 1, .stackEngineStart, { a := c.arg }, none⟩] }) ∧
        (c.reached < hUnits c → exec .hCommandComplete s = .fault .notEnabled)) ∧
      (c.kind = .tmov → OneRow c →
        (mayPerform s i c [] = false → exec .tileMoveComplete s =
          .next { s with agenda := s.agenda ++ [⟨s.tb + 1, .tileMoveComplete, { a := i }, none⟩] }) ∧
        (Unheld s i c → Memory.wf s.mem = true →
          ∃ t, exec .tileMoveComplete s = .next t ∧ Leaves s t i ∧ Posts s t c ∧
            WinHolds s t w c.b.dst.toNat (winBytes s w c.b.src.toNat c.b.len) ∧
            { t with cmds := s.cmds, ctxs := s.ctxs, dies := s.dies, mem := s.mem, bankUse := s.bankUse } = s)) ∧
      (c.kind = .ownc →
        (engineClear s i c = false → exec .tileMoveComplete s =
          .next { s with agenda := s.agenda ++ [⟨s.tb + 1, .tileMoveComplete, { a := i }, none⟩] }) ∧
        (engineClear s i c = true → c.w0.toNat % 4096 = 0 → c.w1.toNat % 4096 = 0 →
          ∃ t, exec .tileMoveComplete s = .next t ∧ Leaves s t i ∧ Posts s t c ∧
            Owners s t w c.w0.toNat c.w1.toNat false ∧
            { t with cmds := s.cmds, ctxs := s.ctxs, dies := s.dies, owned := s.owned } = s)))

/-- R165, R172: the fill of a probe slot ends. Its 256 bytes stand in the slot, which becomes VALID, or the slot becomes
FAILED with the cause; a slot that was given up meanwhile and is pinned by nobody becomes INVALID. A fill whose slot was freed
meanwhile changes no state of a slot. R337: it waits for a write of the stripe it reads by reconstruction; R418: without a
route its cause is LINK_DOWN. R395: an internal error of an engine, or an uncorrectable error of a memory of a core, ends the
task. R429: a peer link of a switch die goes down and comes back. -/
def Obligations.FillsAndUnits : Prop :=
  ∀ (s : State),
    let cl := s.ev.a
    let k := s.ev.b
    let p := (s.cluster cl).slot k
    (fillOf s cl k = none → exec .probeFillComplete s = .fault .notEnabled) ∧
    (∀ i f, fillOf s cl k = some (i, f) →
      let s' := { s with cmds := fdel s.cmds i }
      let w := fun (u : State) => windowsOf u f.part (coreOf f.ctx)
      let busy := f.routed s = true ∧ stripesBusy s ⟨f.errDva, 256, false, f.root, false⟩ = true
      (f.routed s' = false → fillBytes s' f = (.inl (11 * 64 + 1), s')) ∧
      (f.routed s' = true → (dvaLoad s' f.root f.errDva 256).2.1 = none →
        (fillBytes s' f).1 = .inr (dvaLoad s' f.root f.errDva 256).1) ∧
      (busy → exec .probeFillComplete s =
        .next { s with agenda := s.agenda ++ [⟨s.tb + 1, .probeFillComplete, { a := cl, b := k }, none⟩] }) ∧
      (¬ busy → ∀ r u, fillBytes s' f = (r, u) → Memory.wf u.mem = true → ∃ t, exec .probeFillComplete s = .next t ∧
        { t with mem := u.mem, clusters := u.clusters, bankUse := u.bankUse } = u ∧
        (∀ bs, r = .inr bs → f.orphan = false ∨ p.st = .invalid → WinHolds u t (w u) (slotAddr (s.cluster cl) k) bs) ∧
        ((∃ e, r = .inl e) ∨ (f.orphan = true ∧ p.st ≠ .invalid) → t.mem = u.mem) ∧
        (f.orphan = true → t.clusters = u.clusters) ∧
        (f.orphan = false → (t.cluster cl).slot k = (if p.doomed = true ∧ p.pin = 0 then {}
            else match r with
              | .inr _ => { p with st := .valid }
              | .inl e => { p with st := .failed, cause := e }) ∧
          (∀ j, j ≠ k → (t.cluster cl).slot j = (s.cluster cl).slot j) ∧
          { t.cluster cl with slots := (s.cluster cl).slots } = s.cluster cl ∧ ∀ j, j ≠ cl → t.cluster j = u.cluster j))) ∧
    (let task := s.ev.a
     let q := partKey task s.ev.b
     let up := (fget? s.parts q).isSome = true ∧ (s.task task).run ≠ .ending ∧ s.ev.c < (s.place q).cores.length
     (¬ up → exec .engineInternalError s = .fault .notEnabled) ∧
     (up → task ≠ 0 → ∃ t, exec .engineInternalError s = .next t ∧ (t.task task).run = .ending ∧
       (t.task task).failed = true ∧
       (t.task task).endCause = 12 * 64 + [3, 0, 1, 2].getD s.ev.v.toNat 3 ∧ t.flogHead = s.flogHead + 1 ∧
       t.msix = 16 :: s.msix ∧ (t.task task).endAt = some ((s.place q).pos, 0) ∧
       ∀ j, j ≠ task → t.task j = s.task j)) ∧
    (let f := s.ferry s.ev.a
     let l := s.ev.b
     (s.ev.a ≤ 1 → l ≤ 7 → f.peerDown.contains l = s.ev.f → ∃ t, exec .peerLinkDown s = .next t ∧
       { t with ferries := s.ferries } = s ∧ (∀ k, k ≠ s.ev.a → t.ferry k = s.ferry k) ∧
       { t.ferry s.ev.a with peerDown := f.peerDown } = f ∧
       (s.ev.f = false → (t.ferry s.ev.a).peerDown = l :: f.peerDown) ∧
       (s.ev.f = true → (t.ferry s.ev.a).peerDown = f.peerDown.erase l)) ∧
     (1 < s.ev.a ∨ 7 < l ∨ f.peerDown.contains l ≠ s.ev.f → exec .peerLinkDown s = .fault .notEnabled))

/-- R179, R286, R287, R418: a copy goes on when its walk has ended. One of a single row in scratchpad performs its next bytes
in ascending order and completes when none is left; while an earlier command of its stream holds it, it is tried again; one
whose engine has no route to its home fails with LINK_DOWN. R291: the timetable issues the due command with the earliest
time, one in a clk, and counts the due ones that wait behind it. R348: a stack's engine takes up the command at the head of the queue.
R293 to R295: an element of CACC in scratchpad, and the operand of CSWP and CCAS, are applied at their destination: the
old value is read, combined and written as one. What is combined, on the integer types.
R298: a walk with every row pushed completes; one without a free slot in both rings waits; else it fills and commits one
slot of each. R301, R429: a put to another package whose source is read is acknowledged, or fails with PUT_PEER where no
link leads there; a put outside its window fails with PUT_WINDOW. R301, R386: a put that arrives from another package is
written and then counted in ARR, or neither. -/
def Obligations.CommandsGoOn : Prop :=
  (∀ (s : State) (i : Nat) (c : Cmd), fget? s.cmds i = some c →
    let w := c.windows s
    (s.ev.a = i → c.kind = .cpy →
      (c.parked.isSome = true ∨ c.err ≠ 0 ∨ c.timed = true ∨ c.queued = true →
        exec .translationWalkDone s = .fault .notEnabled) ∧
      (c.parked = none → c.err = 0 → c.timed = false → c.queued = false → c.routed s = false →
        ∃ t, exec .translationWalkDone s = .next t ∧ Becomes s t i { c with err := 11 * 64 + 1, errDva := 0 } ∧
          Awaits s t .copyErrorComplete i 0 ∧ { t with cmds := s.cmds, agenda := s.agenda } = s) ∧
      (Underway s c → OneRow c → c.reached < c.b.len → mayPerform s i c [] = false → exec .translationWalkDone s =
        .next { s with agenda := s.agenda ++ [⟨s.tb + 1, .translationWalkDone, { a := i }, none⟩] }) ∧
      (Underway s c → OneRow c → c.reached < c.b.len → Unheld s i c → c.ahead = [] → c.got = [] → NoSram w →
        Memory.wf s.mem = true → ∃ t n, exec .translationWalkDone s = .next t ∧ c.reached < n ∧ n ≤ c.b.len ∧
          Becomes s t i { c with reached := n, ready := true } ∧
          WinHolds s t w (c.b.dst.toNat + c.reached) (winBytes s w (c.b.src.toNat + c.reached) (n - c.reached)) ∧
          Awaits s t (if n = c.b.len then .copyComplete else .translationWalkDone) i 1 ∧
          { t with cmds := s.cmds, agenda := s.agenda, free := s.free, mem := s.mem, bankUse := s.bankUse } = s)) ∧
    (s.ev.a = c.engine → c.timed = true → timedDue s c = true → (s.cluster c.engine).ttFree ≤ s.clkOf c.engine →
      (∀ e, e ∈ timetable s c.engine → timedDue s e.2 = true → e = (i, c) ∨ c.w0.toNat < e.2.w0.toNat) →
      (i, c) ∈ s.cmds →
      ∃ t, exec .timetableIssue s = .next t ∧ Becomes s t i { c with timed := false } ∧ Awaits s t .translationWalkDone i 12 ∧
        { t with cmds := s.cmds, agenda := s.agenda, free := s.free, clusters := s.clusters } = s ∧
        t.cluster c.engine = { s.cluster c.engine with
          ttFree := s.clkOf c.engine + 1
          slip := (s.cluster c.engine).slip + BitVec.ofNat 64
            ((timetable s c.engine).filter fun e => e.1 != i && timedDue s e.2).length } ∧
        ∀ k, k ≠ c.engine → t.cluster k = s.cluster k) ∧
    ((∀ e, e ∈ timetable s s.ev.a → timedDue s e.2 = false) → exec .timetableIssue s = .fault .notEnabled) ∧
    (s.ev.a = c.arg → (stackQueue s c.arg).head? = some (i, c) → stackRunning s c.arg < 4 → c.row ≤ s.tb →
      (∀ k, bufferOfEngine s k = []) →
      ∃ t, exec .stackEngineStart s = .next t ∧ Becomes s t i { c with queued := false, row := 0 } ∧
        Awaits s t .translationWalkDone i 12 ∧ { t with cmds := s.cmds, agenda := s.agenda, free := s.free } = s) ∧
    (s.ev.a = c.arg → stackQueue s c.arg = [] ∨ 4 ≤ stackRunning s c.arg → exec .stackEngineStart s = .fault .notEnabled)) ∧
  (∀ (s : State) (c : Cmd),
    let i := s.ev.a
    let w := c.windows s
    let n := accSize c.ty
    let src := leNat (winBytes s w (c.b.src.toNat + c.reached) n)
    let old := leNat (winBytes s w (c.b.dst.toNat + c.reached) n)
    (fget? s.cmds i = some c → c.parked = none → c.err = 0 → Memory.wf s.mem = true →
      (c.kind = .cacc → OneRow c → c.reached + n ≤ c.b.len → mayPerform s i c (elemTouches c) = true → NoSram w →
        ∃ t, exec .accumulateApply s = .next t ∧ Becomes s t i { c with reached := c.reached + n, ready := true } ∧
          WinHolds s t w (c.b.dst.toNat + c.reached) (leBytes n (accOp c.op c.ty old src)) ∧
          Awaits s t (if c.reached + n = c.b.len then .copyComplete else .accumulateApply) i 1 ∧
          { t with cmds := s.cmds, agenda := s.agenda, free := s.free, mem := s.mem, bankUse := s.bankUse } = s) ∧
      (c.kind = .cswp ∨ c.kind = .ccas → c.ty = 1 → mayPerform s i c (elemTouches c) = true → NoSram w →
        let was := winBytes s w c.w0.toNat c.op
        let x := c.idx.getD 0 0
        let now := if c.kind = .cswp then x else if leNat was = x then c.idx.getD 1 0 else leNat was
        ∃ t u, exec .accumulateApply s = .next t ∧ Becomes s t i { c with reached := c.reached + c.op, ready := true } ∧
          WinHolds s u w c.w0.toNat (leBytes c.op now) ∧ WinHolds u t w c.w1.toNat (leBytes c.op (leNat was)) ∧
          Awaits s t .copyComplete i 1 ∧
          { t with cmds := s.cmds, agenda := s.agenda, free := s.free, mem := s.mem, bankUse := s.bankUse } = s) ∧
      (c.kind ∈ [CmdKind.cacc, .caccf, .cswp, .ccas] → mayPerform s i c (elemTouches c) = false →
        exec .accumulateApply s = .next { s with agenda := s.agenda ++ [⟨s.tb + 1, .accumulateApply, { a := i }, none⟩] })) ∧
    ∀ (op k a b : Nat), k = 0 ∨ k = 1 → let z := 32 * (k + 1)
      a < 2 ^ z → b < 2 ^ z →
      accOp op k a b =
        if op = 0 then (a + b) % 2 ^ z
        else if op = 1 then (if (BitVec.ofNat z a).slt (BitVec.ofNat z b) then b else a)
        else if op = 2 then (if (BitVec.ofNat z b).slt (BitVec.ofNat z a) then b else a)
        else if op = 3 then a &&& b else if op = 4 then a ||| b else a ^^^ b) ∧
  (∀ (s : State) (c : Cmd),
    let i := s.ev.a
    let pk := pcoreKey c.part (physOf (coreOf c.ctx))
    let a := s.ring pk c.op
    let b := s.ring pk c.ty
    fget? s.cmds i = some c → c.parked = none → c.err = 0 →
      (c.kind = .cwalk → c.row = c.w0.toNat → ∃ t, exec .cwalkSlotFill s = .next t ∧ Awaits s t .copyComplete i 1 ∧
        { t with agenda := s.agenda, free := s.free } = s) ∧
      (c.kind = .cwalk → c.row ≠ c.w0.toNat → c.ent % (256 * a.ssz / 4) = 0 → a.free = 0 ∨ b.free = 0 → exec .cwalkSlotFill s =
        .next { s with agenda := s.agenda ++ [⟨s.tb + 1, .cwalkSlotFill, { a := i }, none⟩] }) ∧
      (let n := 256 * a.ssz / 4
       let r := walkEntries s c n c.row c.slot []
       c.kind = .cwalk → c.row ≠ c.w0.toNat → c.ent % n = 0 → a.ssz ≠ 0 → a.free ≠ 0 → b.free ≠ 0 → c.op ≠ c.ty → a.fin = 0 →
         b.fin = 0 → n * c.arg ≤ 256 * b.ssz → Memory.wf r.s.mem = true → mayPerform s i c (c.touches s) = true →
         (c.touches s).any (stripesBusy s) = false → r.bad = none →
         ∃ t, exec .cwalkSlotFill s = .next t ∧
           Becomes s t i { c with row := r.row, slot := r.off, ent := c.ent + r.es.length, reached := c.ent + r.es.length
                                  ready := true } ∧
           Awaits s t (if r.done then .copyComplete else .cwalkSlotFill) i 1 ∧
           t.ring pk c.op = { a with fill := a.fill + 1 } ∧ t.ring pk c.ty = { b with fill := b.fill + 1 } ∧
           (∀ k, k ≠ c.op → k ≠ c.ty → t.ring pk k = s.ring pk k) ∧ (∀ k, k ≠ pk → t.pcore k = s.pcore k) ∧
           ∀ y, (∀ j, j < 256 * (a.ssz + b.ssz) → homeIn (windowsFor s c.part c.ctx) (a.next + j) ≠ some y ∧
             homeIn (windowsFor s c.part c.ctx) (b.next + j) ≠ some y) → mget t.mem y = mget r.s.mem y) ∧
      (c.kind = .cput → c.arrived = false → s.ev.f = false → putLocal s c = false →
        let r := putRead s c
        let d := { c with reached := c.reached + r.n, ready := true }
        (peerReaches s (putPkg c) = false → ∃ t, exec .putArrival s = .next t ∧
          Becomes s t i { c with err := 4 * 64 + 5, errDva := 0 } ∧ Awaits s t .copyErrorComplete i 0 ∧
          { t with cmds := s.cmds, agenda := s.agenda } = s) ∧
        (peerReaches s (putPkg c) = true → (putTouches s c).any (stripesBusy s) = true → exec .putArrival s =
          .next { s with agenda := s.agenda ++ [⟨s.tb + 1, .putArrival, { a := i }, none⟩] }) ∧
        (peerReaches s (putPkg c) = true → (putTouches s c).any (stripesBusy s) = false →
          (∀ e, r.bad = some e → e.1 / 64 ≠ 5 → ∃ t, exec .putArrival s = .next t ∧
            Becomes r.s t i { d with err := e.1, errDva := e.2 } ∧ Awaits r.s t .copyErrorComplete i 0) ∧
          (r.bad = none → d.reached < c.total → ∃ t, exec .putArrival s = .next t ∧ Becomes r.s t i d ∧
            Awaits r.s t .putArrival i 1 ∧ { t with cmds := r.s.cmds, agenda := r.s.agenda, free := r.s.free } = r.s) ∧
          (r.bad = none → c.total ≤ d.reached → ∃ t, exec .putArrival s = .next t ∧
            (∃ e : DWord, (e = 0 ∨ e = BitVec.ofNat 64 (4 * 64 + 4)) ∧ Becomes r.s t i { d with arrived := true, w2 := e }) ∧
            Awaits r.s t .putAck i 12 ∧ { t with cmds := r.s.cmds, agenda := r.s.agenda, free := r.s.free } = r.s))) ∧
      (c.kind = .cput → c.arrived = false → s.ev.f = false → c.ready = false → putLocal s c = true →
        putOutside (s.win (putWindow c)) c = true → ∃ t, exec .putArrival s = .next t ∧
          Becomes s t i { c with err := 4 * 64 + 4, errDva := 0 } ∧ Awaits s t .copyErrorComplete i 0 ∧
          { t with cmds := s.cmds, agenda := s.agenda } = s)) ∧
  (∀ (s : State),
    let w := s.win s.ev.a
    let a := w.base + s.ev.b
    let n := s.ev.bytes.length
    let r := dvaPut s w.root a s.ev.bytes
    let outside := w.valid = false ∨ 0x10000 * w.len < s.ev.b + n
    s.ev.f = true →
      (outside → exec .putArrival s = .next s) ∧
      (¬ outside → stripesBusy s ⟨a, n, true, w.root, false⟩ = false → r.bad.isSome = true →
        exec .putArrival s = .next r.s) ∧
      (¬ outside → stripesBusy s ⟨a, n, true, w.root, false⟩ = false → r.bad = none → ∃ t, exec .putArrival s = .next t ∧
        { t with wins := r.s.wins } = r.s ∧ t.win s.ev.a = { r.s.win s.ev.a with arr := w.arr + 1 } ∧
        ∀ k, k ≠ s.ev.a → t.win k = r.s.win k))

/-- R42, R361, R365, R369, R371, R372: what is on its way arrives. A commit or a pop reaches the other end of its ring; an
arrival at another core's barrier counts and answers with the generation; an increment raises its semaphore, or is logged
as SEM_OVERFLOW and dropped, after the way to another die where it waited for commands; a message is taken into the lowest free receive entry; a ready entry starts the
lowest-numbered dormant handler context, with the payload's address, its length and its sender in x1 to x3. -/
def Obligations.Arrivals : Prop :=
  ∀ (s : State),
    (let mine := fun (e : Nat × Sync) => decide (e.2.kind < 2 ∧ e.2.part = s.ev.a ∧ e.2.core = s.ev.b ∧ e.2.ix = s.ev.c)
     let pk := pcoreKey s.ev.a s.ev.b
     let k := s.ev.c
     let r := s.ring pk k
     (s.syncs.find? mine = none → exec .ringUpdateArrival s = .fault .notEnabled) ∧
     ∀ i u, s.syncs.find? mine = some (i, u) → ∃ t, exec .ringUpdateArrival s = .next t ∧
       { t with syncs := s.syncs, pcores := s.pcores } = s ∧ fget? t.syncs i = none ∧
       (∀ j, j ≠ i → fget? t.syncs j = fget? s.syncs j) ∧ (∀ p, p ≠ pk → t.pcore p = s.pcore p) ∧
       (∀ j, j ≠ k → t.ring pk j = s.ring pk j) ∧ { t.pcore pk with rings := (s.pcore pk).rings } = s.pcore pk ∧
       (u.kind = 0 → t.ring pk k = { r with fill := r.fill + u.amount }) ∧
       (u.kind = 1 → u.amount ≤ r.fill → r.nslot ≠ 0 →
         t.ring pk k = { r with fill := r.fill - u.amount, tail := (r.tail + u.amount) % r.nslot })) ∧
    (let i := s.ev.a
     (fget? s.syncs i = none → exec .barrierArrival s = .fault .notEnabled) ∧
     ∀ u, fget? s.syncs i = some u →
       let pk := pcoreKey u.part u.core
       let b := s.bar pk u.ix
       (u.kind ≠ 2 ∨ syncReady s u = false → exec .barrierArrival s = .fault .notEnabled) ∧
       (u.kind = 2 → syncReady s u = true → b.cnt < 65535 → fget? s.saved (savedKey u.part u.ctx) = none →
         (s.ctx u.ctx).part = u.part → ∃ t, exec .barrierArrival s = .next t ∧
           { t with syncs := s.syncs, pcores := s.pcores, ctxs := s.ctxs, agenda := s.agenda } = s ∧
           fget? t.syncs i = none ∧ (∀ j, j ≠ i → fget? t.syncs j = fget? s.syncs j) ∧
           t.bar pk u.ix = (if b.exp ≠ 0 ∧ b.cnt + 1 = b.exp then { b with gen := (b.gen + 1) % 2 ^ 32, cnt := 0 }
             else { b with cnt := b.cnt + 1 }) ∧
           (∀ j, j ≠ u.ix → t.bar pk j = s.bar pk j) ∧ (∀ p, p ≠ pk → t.pcore p = s.pcore p) ∧
           (∀ k, (t.ctx u.ctx).getX k = if k = u.d ∧ k ≠ 0 then BitVec.ofNat 64 b.gen else (s.ctx u.ctx).getX k) ∧
           (∀ k, k ≠ u.ctx → t.ctx k = s.ctx k) ∧
           t.agenda = s.agenda ++ (if u.toPrev || u.toNext then
             [⟨s.clk u.ctx + 1, .instructionComplete, { a := u.ctx, q := u.q, f := u.toPrev, g := u.toNext },
               some (clusterOf (coreOf u.ctx))⟩] else []))) ∧
    (let i := s.ev.v.toNat
     let n := semCount s s.ev.a s.ev.b + s.ev.c
     let named := s.ev.a ≤ 33 ∧ s.ev.b ≤ 1023 ∧ (i ≠ 0 → ∃ u, fget? s.syncs i = some u ∧ u.kind = 3 ∧ syncReady s u = true)
     (¬ named → exec .semIncrementArrival s = .fault .notEnabled) ∧
     let leaves := ∃ u, fget? s.syncs i = some u ∧ u.after ≠ [] ∧ u.core ≠ posOf (coreOf u.ctx)
     (∀ u, named → leaves → fget? s.syncs i = some u → ∃ t d, exec .semIncrementArrival s = .next t ∧
       { t with syncs := s.syncs, agenda := s.agenda, free := s.free } = s ∧ fget? t.syncs i = some { u with after := [] } ∧
       (∀ j, j ≠ i → fget? t.syncs j = fget? s.syncs j) ∧ t.agenda = s.agenda ++ [d] ∧ d.ev = .semIncrementArrival ∧
       d.arg = s.ev ∧ s.tb + 12 ≤ d.at_) ∧
     (named → ¬ leaves → n < 2 ^ 32 → ∃ t, exec .semIncrementArrival s = .next t ∧ SetsSem s t s.ev.a s.ev.b n ∧
       fget? t.syncs i = none ∧ (∀ j, j ≠ i → fget? t.syncs j = fget? s.syncs j) ∧
       { t with syncs := s.syncs, dies := s.dies } = s) ∧
     (named → ¬ leaves → 2 ^ 32 ≤ n → ∃ t, exec .semIncrementArrival s = .next t ∧ t.dies = s.dies ∧ t.flogHead = s.flogHead + 1 ∧
       t.msix = 16 :: s.msix ∧ fget? t.syncs i = none ∧ t.ctxs = s.ctxs)) ∧
    (let i := s.ev.a
     (fget? s.msgs i = none → exec .messageTake s = .fault .notEnabled) ∧
     ∀ m, fget? s.msgs i = some m →
       let pk := pcoreKey m.part m.core
       let p := s.pcore pk
       (canTake s i m = false → exec .messageTake s = .fault .notEnabled) ∧
       ∀ k, k < 16 → fget? p.recv k = none → (∀ j, j < k → fget? p.recv j ≠ none) → canTake s i m = true →
         Memory.wf s.mem = true → ∃ t, exec .messageTake s = .next t ∧
           fget? t.msgs i = none ∧ (∀ j, j ≠ i → fget? t.msgs j = fget? s.msgs j) ∧
           WinHolds s t (windowsOf s m.part (coreAt (s.part m.part).pos m.core)) (p.msgBase + 1024 * k) m.bytes ∧
           (t.pcore pk).recv = fset p.recv k { ready := true, line := m.line, len := m.len, sender := m.sender, seq := s.nextId } ∧
           { t.pcore pk with recv := p.recv } = p ∧ (∀ q, q ≠ pk → t.pcore q = s.pcore q) ∧
           { t with msgs := s.msgs, mem := s.mem, pcores := s.pcores, nextId := s.nextId, bankUse := s.bankUse } = s) ∧
    (let part := s.ev.a
     let pk := pcoreKey part s.ev.b
     let p := s.pcore pk
     let core := coreAt (s.part part).pos s.ev.b
     let task := s.task (s.part part).task
     let acts := s.dieActs (s.part part).task (s.part part).pos
     (acts = false ∨ firstReady p = none ∨ (∀ k, 1 ≤ k → k ≤ 7 → (s.ctx (ctxKey core k)).run ≠ .dormant) →
       exec .handlerStart s = .fault .notEnabled) ∧
     ∀ i r k, acts = true → firstReady p = some (i, r) → 1 ≤ k → k ≤ 7 → (s.ctx (ctxKey core k)).run = .dormant →
       (∀ j, 1 ≤ j → j < k → (s.ctx (ctxKey core j)).run ≠ .dormant) →
       let ck := ctxKey core k
       let c := s.ctx ck
       let again := c.started = true ∧ c.part = part
       ∃ t, exec .handlerStart s = .next t ∧ { t with ctxs := s.ctxs, pcores := s.pcores } = s ∧
         (∀ j, j ≠ ck → t.ctx j = s.ctx j) ∧ (∀ q, q ≠ pk → t.pcore q = s.pcore q) ∧
         t.pcore pk = { p with recv := fset p.recv i { r with ready := false, ctx := k } } ∧
         let d := t.ctx ck
         d.run = .running ∧ d.part = part ∧ d.pc = r.line ∧ d.reach = .handler ∧ d.intrap = false ∧
           d.ql = [] ∧ d.qc = [] ∧ d.qs = [] ∧ d.qf = [] ∧ d.toks = {} ∧
           d.getX 1 = BitVec.ofNat 64 (p.msgBase + 1024 * i) ∧ d.getX 2 = BitVec.ofNat 64 r.len ∧
           d.getX 3 = BitVec.ofNat 64 r.sender ∧
           (∀ n, 4 ≤ n → d.getX n = if again then c.getX n else 0) ∧ (again → d.v = c.v ∧ d.vm = c.vm ∧ d.p = c.p ∧ d.hs = c.hs) ∧
           (¬ again → d.v = [] ∧ d.vm = [] ∧ d.p = 0 ∧ d.hs = task.launch.seeds))

/-- R76 to R78, R88, R99, R100, R398: the front end. At a line boundary the next line is fetched and decoded: its lanes from
the lane to resume at take effect next, one without lanes is passed over, a line number past the store raises FETCH_RANGE, a
line that breaks a rule raises its decoding fault. No lane takes effect before the queues have room for all of the line.
A lane of a queue enqueues with the x operands it names, captured then, and leaves its x destination pending. -/
def Obligations.FrontEnd : Prop :=
  ∀ (s : State),
    let ck := s.ev.a
    let c := s.ctx ck
    let only := fun (t : State) => { t with ctxs := s.ctxs } = s ∧ ∀ k, k ≠ ck → t.ctx k = s.ctx k
    let fails := fun (cause lane qc : Nat) => s.setCtx ck { c with
      pend := c.pend ++ [⟨cause, 0, c.pc, lane, qc, 0⟩], faultAt := some (s.clk ck) }
    let stands := c.run = .running ∧ c.lanes = [] ∧ c.faultAt = none ∧ frameSeq s ck = none
    (¬ stands → exec .lineFetch s = .fault .notEnabled) ∧
    (stands → 8191 < c.pc → exec .lineFetch s = .next (fails 0x38 0 0)) ∧
    (stands → c.pc ≤ 8191 → coreOf ck < 192 →
      let word := fget s.istore (8192 * coreOf ck + c.pc) 0
      (∀ cause lane qc, decodeLine (profileOf (coreOf ck)) c.reach word = .fault cause lane qc →
        exec .lineFetch s = .next (fails cause lane qc)) ∧
      (decodeLine (profileOf (coreOf ck)) c.reach word = .pad → ∃ t, exec .lineFetch s = .next t ∧ only t ∧
        (t.ctx ck).pc = c.pc + 1 ∧ (t.ctx ck).lanes = [] ∧ (t.ctx ck).reach = .flow ∧ s.clk ck + 1 ≤ (t.ctx ck).fetchAt ∧
        { t.ctx ck with pc := c.pc, line := c.line, fromLane := c.fromLane, reach := c.reach, rot := c.rot, front := c.front
                        fetchAt := c.fetchAt, inBody := c.inBody, opened := c.opened, lineNo := c.lineNo } = c) ∧
      ∀ all, decodeLine (profileOf (coreOf ck)) c.reach word = .lanes all →
        let ls := all.filter fun l => c.fromLane ≤ l.idx
        ∃ t, exec .lineFetch s = .next t ∧ only t ∧
          let d := t.ctx ck
          d.lanes = ls ∧ d.opened = false ∧ d.line = c.pc ∧ d.pc = c.pc + 1 ∧ d.rot = 0 ∧ d.inBody = false ∧
            d.lineNo = c.lineNo + 1 ∧ s.clk ck + 1 ≤ d.front ∧ (ls ≠ [] → d.fromLane = c.fromLane ∧ d.reach = c.reach) ∧
            (ls = [] → d.fromLane = 0 ∧ d.reach = .flow ∧ s.clk ck + 1 ≤ d.fetchAt) ∧
            { d with lanes := c.lanes, opened := c.opened, pc := c.pc, line := c.line, lineNo := c.lineNo, front := c.front
                     fromLane := c.fromLane, reach := c.reach, fetchAt := c.fetchAt, rot := c.rot, inBody := c.inBody } = c) ∧
    (c.lanes = [] → exec .laneEnqueue s = .fault .notEnabled) ∧
    ∀ l r, c.lanes = l :: r →
      let u := uses l.instr
      let x := fun (f : Option (BitVec 5)) => match f with
        | some k => c.getX (physX c.rot k.toNat)
        | none => 0
      let room := c.opened = true ∨
        ∀ q, q ∈ [Queue.l, .c, .s, .f] → (c.queue q).length + (c.lanes.filter fun l => l.q == q).length ≤ 32
      (l.q = .x ∨ ¬ room → exec .laneEnqueue s = .fault .notEnabled) ∧
      (l.q ≠ .x → room → ∃ t, exec .laneEnqueue s = .next t ∧ { t with ctxs := s.ctxs, seqs := s.seqs } = s ∧
        (∀ k, k ≠ ck → t.ctx k = s.ctx k) ∧ (c.inBody = false → ∀ k, fget? t.seqs k = fget? s.seqs k) ∧
        let d := t.ctx ck
        d.lanes = r ∧ d.opened = true ∧ d.fromLane = 0 ∧ d.reach = .flow ∧ (∀ q, q ≠ l.q → d.queue q = c.queue q) ∧
        d.queue l.q = c.queue l.q ++ [{ instr := l.instr, q := l.q, line := c.line, lane := l.idx, rot := c.rot, xa := x u.xa
                                        xb := x u.xb, xd := x u.xd, enq := s.clk ck, lineNo := c.lineNo }] ∧
        (∀ k, fget d.xpend k 0 =
          fget c.xpend k 0 + if k ≠ 0 ∧ u.dst.map (fun z => physX c.rot z.toNat) = some k then 1 else 0) ∧
        { d with lanes := c.lanes, opened := c.opened, fromLane := c.fromLane, reach := c.reach, ql := c.ql, qc := c.qc
                 qs := c.qs, qf := c.qf, xpend := c.xpend, front := c.front, fetchAt := c.fetchAt } = c)

/-- R102 to R104, R212: a completion posts its tokens, sets its flags and ends the instruction's time in the C queue. R101: a
waiting head of a queue completes when its condition is met and leaves the queue, shown for RWAITF, RWAITE and BARW, and not
before. R116, R143: a context whose fetch has ended and whose work is done becomes dormant, the receive entry of a
handler is freed, and the commands it leaves post no token any more. R398, R399: a fault is taken once what the context has
issued has drained, a deferred one at a line boundary. -/
def Obligations.Completions : Prop :=
  ∀ (s : State),
    let ck := s.ev.a
    let c := s.ctx ck
    let q := s.ev.q
    (let put := fun (r : Queue) => (if s.ev.f = true ∧ r = prevQ q then 1 else 0) + if s.ev.g = true ∧ r = nextQ q then 1 else 0
     q ∈ [Queue.l, .c, .s] → ∃ t, exec .instructionComplete s = .next t ∧ { t with ctxs := s.ctxs } = s ∧
       (∀ k, k ≠ ck → t.ctx k = s.ctx k) ∧ (t.ctx ck).nstat = c.nstat ||| s.ev.v.extractLsb' 0 10 ∧
       (∀ r, r ∈ [Queue.l, .c, .s] → (t.ctx ck).toks.count q r = c.toks.count q r + put r ∧
         (t.ctx ck).outst.count q r = c.outst.count q r - put r) ∧
       (∀ p r, p ≠ q → (t.ctx ck).toks.count p r = c.toks.count p r ∧ (t.ctx ck).outst.count p r = c.outst.count p r) ∧
       (t.ctx ck).cbusy = (if q = .c then c.cbusy.erase s.ev.b else c.cbusy) ∧
       { t.ctx ck with toks := c.toks, outst := c.outst, nstat := c.nstat, cbusy := c.cbusy } = c) ∧
    (∀ e r, q ≠ .x → c.queue q = e :: r → e.q = q → e.tokDone = true → c.faultAt = none → fget c.qtry q.code 0 ≤ s.clk ck → mayAct s ck = true →
      let pk := s.myPcore ck
      let n := fun (a : BitVec 5) => if a = 0 then 1 else e.xa.toNat % 2 ^ 32
      let ends := ∃ t, exec .waitSatisfied s = .next t ∧
        { t with ctxs := s.ctxs, agenda := s.agenda, iss := s.iss } = s ∧ (∀ k, k ≠ ck → t.ctx k = s.ctx k) ∧
        (t.ctx ck).queue q = r ∧ (∀ p, p ≠ q → (t.ctx ck).queue p = c.queue p) ∧
        { t.ctx ck with ql := c.ql, qc := c.qc, qs := c.qs, qf := c.qf, cbusy := c.cbusy, qdone := c.qdone } = c
      (∀ h a b u, e.instr = .rwaitf h a b u →
        let g := s.ring pk (b.toNat + 32 * u.toNat)
        (n a ≤ g.fill → ends) ∧ (g.fill < n a → exec .waitSatisfied s = .fault .notEnabled)) ∧
      (∀ h a b u, e.instr = .rwaite h a b u →
        let g := s.ring pk (b.toNat + 32 * u.toNat)
        (n a ≤ g.nslot - g.fill - g.clm → ends) ∧
        (g.nslot - g.fill - g.clm < n a → exec .waitSatisfied s = .fault .notEnabled)) ∧
      (∀ h a b k, e.instr = .barw h a b → ownBar { s with iss := latchHead ck e } = some k →
        ((s.bar pk k).gen ≠ e.xb.toNat % 2 ^ 32 → ends) ∧
        ((s.bar pk k).gen = e.xb.toNat % 2 ^ 32 → exec .waitSatisfied s = .fault .notEnabled))) ∧
    (c.queue q = [] → exec .waitSatisfied s = .fault .notEnabled) ∧
    (c.run ≠ .draining ∨ ctxDone s ck = false → exec .contextEnd s = .fault .notEnabled) ∧
    (coreOf ck < 192 → c.run = .draining → ctxDone s ck = true → (s.task (s.taskOf ck)).run ≠ .stopped →
      let pk := s.myPcore ck
      ∃ t, exec .contextEnd s = .next t ∧ { t with ctxs := s.ctxs, pcores := s.pcores, cmds := s.cmds } = s ∧
        (∀ k, k ≠ ck → t.ctx k = s.ctx k) ∧ t.ctx ck = { c with run := .dormant, toks := {}, outst := {} } ∧
        (∀ i, fget? t.cmds i = (fget? s.cmds i).map fun d =>
          if d.ctx = ck ∧ d.part = c.part then { d with x := { d.x with tok := false } } else d) ∧
        (ctxNo ck = 0 → t.pcores = s.pcores) ∧ (∀ p, p ≠ pk → t.pcore p = s.pcore p) ∧
        (ctxNo ck ≠ 0 → t.pcore pk = { s.pcore pk with
          recv := (s.pcore pk).recv.filter fun e => e.2.ready || e.2.ctx != ctxNo ck })) ∧
    (let stops := c.faultAt ≠ none ∨ (c.intrap = false ∧ atBoundary s ck = true)
     (c.pend = [] ∨ ¬ stops ∨ issuedOver s ck = false → exec .trapEntry s = .fault .notEnabled) ∧
     ∀ p, earliest c.pend = some p → stops → issuedOver s ck = true → mayAct s ck = true →
       c.run = .running ∨ c.run = .draining →
       (c.intrap = false → c.tvecEn = true → delivered p.cause = true → ∃ t, exec .trapEntry s = .next t ∧ EntersTrap ck s t p) ∧
       (c.intrap = true ∨ c.tvecEn = false ∨ delivered p.cause = false →
         exec .trapEntry s = .next ((s.setCtx ck { c with pend := c.pend.erase p }).escalate ck p)))

/-- R119 to R123: the modulo sequencer. The body lines are fetched one at a time; a step runs the unsquashed slots of its
number, oldest iteration first, each with its iteration's rotation; after the last step fetch goes on behind the body.
LPSTALL counts the clks of a step beyond its first. -/
def Obligations.ModuloLoops : Prop :=
  (∀ (s : State) (core : Nat) (q : Seq), s.seqs = [(core, q)] →
    let ck := ctxKey core q.ctx
    let c := s.ctx ck
    let beyond := q.begun = true ∧ q.body.length = q.n ∧ q.start < s.clk ck ∧ (q.slots ≠ [] ∨ q.last = s.clk ck) ∧
      mayAct s ck = true ∧ c.faultAt = none
    (beyond → countLoops s = s.setCtx ck { c with lpstall := c.lpstall + 1 }) ∧ (¬ beyond → countLoops s = s)) ∧
  (∀ (q : Seq) (t j i : Nat), 1 ≤ q.ii → ((j, i) ∈ q.slotsOf t ↔ j < q.n ∧ i < q.trip ∧ j + i * q.ii = t)) ∧
  (∀ (q : Seq) (t : Nat), 1 ≤ q.ii → (q.slotsOf t).Pairwise fun a b => a.2 < b.2) ∧
  ∀ (s : State),
    let ck := s.ev.a
    let c := s.ctx ck
    (frameSeq s ck = none → exec .moduloBodyFetch s = .fault .notEnabled ∧ exec .moduloStep s = .fault .notEnabled) ∧
    ∀ q, frameSeq s ck = some q →
      let core := coreOf ck
      let only := fun (t : State) => { t with ctxs := s.ctxs, seqs := s.seqs } = s ∧ (∀ k, k ≠ ck → t.ctx k = s.ctx k) ∧
        ∀ k, k ≠ core → fget? t.seqs k = fget? s.seqs k
      (q.n ≤ q.body.length → exec .moduloBodyFetch s = .fault .notEnabled) ∧
      (q.body.length < q.n → exec .moduloStep s = .fault .notEnabled) ∧
      (q.body.length < q.n → core < 192 →
        let line := q.line + 1 + q.body.length
        let word := decodeLine (profileOf core) .body (fget s.istore (8192 * core + line) 0)
        let goes := fun (ls : List Lane) => ∃ t, exec .moduloBodyFetch s = .next t ∧ only t ∧
          frameSeq t ck = some { q with body := q.body ++ [ls] } ∧ t.ctx ck = { c with fetchAt := s.clk ck + 1 }
        (∀ ls, word = .lanes ls → goes ls) ∧ (word = .pad → goes []) ∧
        ∀ cause lane qc, word = .fault cause lane qc →
          exec .moduloBodyFetch s = .next (s.setCtx ck { c with
            pend := c.pend ++ [⟨cause, 0, line, lane, qc, 0⟩], faultAt := some (c.faultAt.getD (s.clk ck)) })) ∧
      (q.n ≤ q.body.length → c.lanes = [] →
        let starts := fun (t : State) (w : Seq) (j i : Nat) =>
          let ls := (q.body.getD j []).filter fun l => c.fromLane ≤ l.idx
          let d := t.ctx ck
          ls ≠ [] → d.lanes = ls ∧ d.opened = false ∧ d.line = q.line + 1 + j ∧ d.rot = i ∧ d.inBody = true ∧
            d.fromLane = c.fromLane ∧ d.lpstall = c.lpstall ∧ frameSeq t ck = some w ∧ d.x = c.x ∧ d.v = c.v ∧ d.vm = c.vm ∧ d.pc = c.pc
        let next := fun (k : Nat) => ∃ t, exec .moduloStep s = .next t ∧ only t ∧
          let w := { q with step := k, begun := true, slots := q.slotsOf k, start := s.clk ck }
          (∀ j i rest, w.slots = (j, i) :: rest → starts t w j i) ∧ (w.slots = [] → frameSeq t ck = some w ∧ (t.ctx ck).lanes = [])
        (q.begun = false → next q.step) ∧
        (q.begun = true → ∀ j i rest, q.slots = (j, i) :: rest → ∃ t, exec .moduloStep s = .next t ∧ only t ∧ starts t q j i) ∧
        (q.begun = true → q.slots = [] → q.step + 1 < (q.trip - 1) * q.ii + q.n → next (q.step + 1)) ∧
        (q.begun = true → q.slots = [] → (q.trip - 1) * q.ii + q.n ≤ q.step + 1 → ∃ t, exec .moduloStep s = .next t ∧
          only t ∧ fget? t.seqs core = none ∧
          t.ctx ck = { c with pc := q.line + q.n + 1, rot := 0, inBody := false, reach := .flow }))

/-- R25, R27 to R29, R44, R45, R47, R48: the graph queues and the nodes a Ferrymaster runs itself. A doorbell adds to what is
posted, or sets an error bit; the next queue's entry at HEAD becomes a graph, whose first node is read and made ready, or
completes with FAULT where it breaks a rule. COND takes its branch, LOOP counts, SIGNAL adds, WAIT waits and takes, END ends
a branch.
R24, R26, R30, R31, R289, R422: a node is made ready once its record is read and keeps its rules, and otherwise its fault
aborts the graph. A TASK node that is read becomes a placement request; a COPY node becomes a command of a live buffer die; a
PROG node starts a routine on the lowest free control core with ARG in x1 (the register is the model's choice, assumption
13); an aborted graph with nothing in progress completes with FAULT and its node. -/
def Obligations.GraphWalk : Prop :=
  (∀ (s : State),
    let q := s.ev.a
    let sw := s.ev.a
    let f := s.ferry sw
    (let g := s.queue q
     let n := s.ev.v.toNat % 512
     let live := q < 16 ∧ s.live (q / 8) = true ∧ portBusy s (q / 8) s.nextId = false
     let sets := fun (c : GQ) => ∃ t, exec .gqdbDoorbell s = .next t ∧ { t with queues := s.queues } = s ∧ t.queue q = c ∧
       ∀ k, k ≠ q → t.queue k = s.queue k
     (¬ live → exec .gqdbDoorbell s = .fault .notEnabled) ∧
     (live → q % 8 < 4 → s.bootStep ≠ 6 → exec .gqdbDoorbell s = .next s) ∧
     (live → 4 ≤ q % 8 ∨ s.bootStep = 6 →
       (s.ev.f = false ∨ n = 0 ∨ 256 < n → sets { g with baddb := true }) ∧
       (s.ev.f = true → n ≠ 0 → n ≤ 256 → 256 < g.pend + n → sets { g with ovf := true }) ∧
       (s.ev.f = true → n ≠ 0 → g.pend + n ≤ 256 → sets { g with pend := g.pend + n }))) ∧
    (let w := q / 8
     let e := headEntry s q
     let c := s.queue q
     let u := { s.setQueue q { c with head := (c.head + 1) % 256, pend := c.pend - 1 } with nextId := s.nextId + 1 }
     (s.bootStep ≠ 6 ∨ nextQueue s w ≠ some q ∨ 32 ≤ liveGraphs s w → exec .graphStart s = .fault .notEnabled) ∧
     (s.bootStep = 6 → nextQueue s w = some q → liveGraphs s w < 32 → entryOk e = true →
       exec .graphStart s = .next (makeReady (u.setGraph s.nextId
         { q := q, base := fieldAt e 0 8, root := fieldAt e 24 8, cookie := fieldAt e 12 4, gstat := fieldAt e 16 8
           branches := 1 }) s.nextId (fieldAt e 8 2))) ∧
     (s.bootStep = 6 → nextQueue s w = some q → liveGraphs s w < 32 → entryOk e = false → rootOk (fieldAt e 24 8) = false →
       s.alive w = true → Memory.wf s.mem = true →
       let a := ferryKey w (0x10000 + 0x1000 * (q % 8) + 16 * (c.cmp % 256))
       let z := leBytes 4 (fieldAt e 12 4) ++ leBytes 4 (1 + 2 ^ 8 * 0xFFFF) ++ leBytes 8 s.tb
       ∃ t, exec .graphStart s = .next t ∧ t.graphs = s.graphs ∧
         t.queue q = { c with head := (c.head + 1) % 256, pend := c.pend - 1, cmp := c.cmp + 1 } ∧
         (∀ k, k ≠ q → t.queue k = s.queue k) ∧ t.msix = (if q % 8 < 4 then q :: s.msix else s.msix) ∧
         ∀ k, mget t.mem k = if a ≤ k ∧ k < a + 16 then z.getD (k - a) 0 else mget s.mem k)) ∧
    (let next := f.ready.find? fun r => r.kind != 1
     (next = none → ∀ e, e ∈ [Instr.condNode, .loopNode, .signalNode, .copyNode, .endNode, .progNode] →
       exec e s = .fault .notEnabled) ∧
     ∀ n, next = some n → s.alive sw = true →
       let r := n.bytes.getD []
       let g := n.graph
       let k := s.graph g
       let u := s.setFerry sw { f with ready := f.ready.erase n }
       let sem := fieldAt r 8 2
       let amount := fieldAt r 12 4
       (nodeKind r = 2 → ∀ bs v, dvaLoad u k.root (fieldAt r 8 8) 8 = (bs, none, v) →
         let op := nodeFlags r
         let p := BitVec.ofNat 64 (leNat bs)
         let c := BitVec.ofNat 64 (fieldAt r 16 8)
         let test := if op = 0 then p == c else if op = 1 then p != c else if op = 2 then p.ult c else if op = 3 then c.ule p
           else if op = 4 then p.slt c else c.sle p
         bs.length = 8 → exec .condNode s = .next (makeReady v g (if test then nodeA r else nodeB r))) ∧
       (nodeKind r = 3 → (∀ c lim, fget? k.loops n.node = some (c, lim) → c ≠ 0 → exec .loopNode s = .next
           (if c + 1 < lim then makeReady (u.setGraph g { k with loops := fset k.loops n.node (c + 1, lim) }) g (nodeA r)
            else makeReady (u.setGraph g { k with loops := fset k.loops n.node (0, lim) }) g (nodeB r))) ∧
         (fget? k.loops n.node = none → k.loops.length < 64 → fieldAt r 8 8 = 0 →
           let lim := min (fieldAt r 16 4) (fieldAt r 20 4)
           exec .loopNode s = .next
             (if 1 < lim then makeReady (u.setGraph g { k with loops := fset k.loops n.node (1, lim) }) g (nodeA r)
              else makeReady (u.setGraph g { k with loops := fset k.loops n.node (0, lim) }) g (nodeB r))) ∧
         (fget? k.loops n.node = none → 64 ≤ k.loops.length → exec .loopNode s = .next (nodeFault u g n.node (13 * 64 + 3)))) ∧
       (nodeKind r = 5 →
         let w := fget f.gs sem 0 + amount
         (w < 2 ^ 32 → exec .signalNode s =
           .next (makeNext (u.setFerry sw { f with ready := f.ready.erase n, gs := fset f.gs sem w }) g r)) ∧
         (2 ^ 32 ≤ w → exec .signalNode s = .next (nodeFault u g n.node (13 * 64 + 4)))) ∧
       (nodeKind r = 4 → f.waits = [] → exec .waitNode s =
         .next (u.setFerry sw { f with ready := f.ready.erase n, waits := [n] })) ∧
       (nodeKind r = 8 → 1 < k.branches → exec .endNode s = .next (u.setGraph g { k with branches := k.branches - 1 })) ∧
       (nodeKind r = 8 → k.branches ≤ 1 → exec .endNode s =
         .next (completeGraph (u.setGraph g { k with branches := k.branches - 1 }) g))) ∧
    (∀ n rest, f.waits = n :: rest → fieldAt (n.bytes.getD []) 12 4 ≤ fget f.gs (fieldAt (n.bytes.getD []) 8 2) 0 →
      let sem := fieldAt (n.bytes.getD []) 8 2
      exec .waitNode s = .next (makeNext (s.setFerry sw
        { f with waits := rest, gs := fset f.gs sem (fget f.gs sem 0 - fieldAt (n.bytes.getD []) 12 4) }) n.graph
          (n.bytes.getD [])))) ∧
  (∀ (s : State),
    (∀ g node, let k := s.graph g
      (k.abort.isSome = true → makeReady s g node = s) ∧
      ∀ bs v, k.abort = none → dvaLoad s k.root (k.base + 32 * node) 32 = (bs, none, v) →
        (nodeCause bs = none → makeReady s g node =
          v.setFerry k.sw { v.ferry k.sw with ready := (v.ferry k.sw).ready ++ [⟨g, node, some bs⟩] }) ∧
        (∀ c, nodeCause bs = some c → makeReady s g node = nodeFault v g node c)) ∧
    (∀ g node c, let k := s.graph g
      let t := nodeFault s g node c
      (∀ r, r ∈ (s.ferry k.sw).ready → r.graph = g → r.kind ≠ 1) →
      t.flogHead = s.flogHead + 1 ∧ t.msix = 16 :: s.msix ∧ t.graph g = { k with abort := some (k.abort.getD node) } ∧
        (∀ r, r ∈ (t.ferry k.sw).ready ∨ r ∈ (t.ferry k.sw).waits → r.graph ≠ g) ∧ ∀ j, j ≠ g → t.graph j = s.graph j) ∧
    (let sw := s.ev.a
     let f := s.ferry sw
     (nextTask s sw = none → exec .taskNode s = .fault .notEnabled) ∧
     ∀ n, nextTask s sw = some n → s.alive sw = true →
       let k := s.graph n.graph
       let u := s.setFerry sw { f with ready := f.ready.erase n }
       ∀ x v, readLaunch u (u.graph n.graph).root (fieldAt (n.bytes.getD []) 8 8) = (x, v) →
         (x = .inl none → exec .taskNode s = .next (nodeFault v n.graph n.node (13 * 64 + 2))) ∧
         ∀ l, x = .inr l → ∃ t, exec .taskNode s = .next t ∧
           { t with tasks := v.tasks, nodes := v.nodes, nextId := v.nextId, placerDue := v.placerDue } = v ∧
           t.placerDue = true ∧ fget? t.nodes v.nextId = some n ∧
           t.task (v.nextId + 1) = { launch := l, graph := n.graph, node := v.nextId, queue := k.q, submitted := v.tb
                                     eff := l.prio } ∧
           ∀ j, j ≠ v.nextId + 1 → t.task j = v.task j) ∧
    (let sw := s.ev.a
     let f := s.ferry sw
     ∀ n, nextNode s sw = some n → s.alive sw = true →
       let r := n.bytes.getD []
       let root := (s.graph n.graph).root
       let u := s.setFerry sw { f with ready := f.ready.erase n }
       (nodeKind r = 6 → (∃ p, 14 ≤ p ∧ p ≤ 19 ∧ s.live p = true) → ∃ t p x, exec .copyNode s = .next t ∧ 14 ≤ p ∧ p ≤ 19 ∧
         s.live p = true ∧ x < 16 ∧ fget? t.nodes s.nextId = some n ∧
         Becomes s t (s.nextId + 1) { kind := .node, engine := 100 + 16 * (p - 14) + x, home := p, cx := x, root := root
                                      droot := root, w0 := BitVec.ofNat 64 (fieldAt r 8 8), recIx := s.nextId, slot := 1 } ∧
         Awaits s t .translationWalkDone (s.nextId + 1) 12 ∧
         { t with nodes := u.nodes, cmds := u.cmds, nextId := u.nextId, agenda := u.agenda, free := u.free } = u) ∧
       (∀ c, nodeKind r = 7 → freeControl s sw = some c → ∃ t, exec .progNode s = .next t ∧
         fget? t.nodes s.nextId = some n ∧ { t with nodes := u.nodes, nextId := u.nextId, ctxs := u.ctxs } = u ∧
         (∀ k, k ≠ ctxKey c 0 → t.ctx k = s.ctx k) ∧
         let d := t.ctx (ctxKey c 0)
         d.run = .running ∧ d.pc = 0 ∧ d.base = fieldAt r 8 8 ∧ d.root = root ∧ d.node = s.nextId ∧
           ∀ j, d.getX j = if j = 1 then BitVec.ofNat 64 (fieldAt r 16 8) else 0) ∧
       (nodeKind r = 7 → freeControl s sw = none → exec .progNode s = .fault .notEnabled)) ∧
    (let g := s.ev.a
     (fget? s.graphs g = none ∨ (s.graph g).abort = none → exec .graphAbort s = .fault .notEnabled) ∧
     ∀ k node, fget? s.graphs g = some k → k.abort = some node → (∀ e, e ∈ s.tasks → e.2.graph ≠ g) →
       parkedNodes s g = [] → (∀ e, e ∈ s.nodes → e.2.graph ≠ g) → k.gstat = 0 → s.alive (k.q / 8) = true →
       ∃ t, exec .graphAbort s = .next t ∧ fget? t.graphs g = none ∧
         (∀ j, j ≠ g → fget? t.graphs j = fget? s.graphs j) ∧ (t.queue k.q).cmp = (s.queue k.q).cmp + 1 ∧
         t.msix = (if k.q % 8 < 4 then k.q :: s.msix else s.msix) ∧ t.tasks = s.tasks ∧ t.ctxs = s.ctxs))

/-- R49, R50, R53, R55 to R57, R59, R61, R67: requests and placements. Ageing raises a waiting request's effective priority;
a pass of the placer gives the first request that fits its units: they are zeroed, the core's, and its task starts at the
first tick of its phase at least 64 ticks away; a request that does not fit now reserves its placement. At T0 every part of
a task begins, once its clusters stand at full speed; the class of the largest placed task is applied. -/
def Obligations.Placing : Prop :=
  ∀ (s : State),
    let n := s.ev.a
    let k := s.task n
    (let p := k.launch.prio
     let e := if s.ageEn then max p (min s.ageCap (p + (s.tb - k.submitted) / 1250 / 2 ^ s.ageK)) else p
     let may := (fget? s.tasks n).isSome = true ∧ (k.run = .waiting ∨ k.run = .stopped) ∧ k.eff < e
     (¬ may → exec .agingStep s = .fault .notEnabled) ∧
     (may → ∃ t, exec .agingStep s = .next t ∧ { t with tasks := s.tasks, placerDue := s.placerDue } = s ∧ t.placerDue = true ∧
       t.task n = { k with eff := e } ∧ ∀ j, j ≠ n → t.task j = s.task j)) ∧
    (s.placerDue = false ∨ s.alive s.root = false → exec .placerPass s = .fault .notEnabled) ∧
    (s.placerDue = true → s.alive s.root = true → s.reserver = none → s.tasks = [] → exec .placerPass s = .next { s with placerDue := false }) ∧
    (∀ u w, s.placerDue = true → s.alive s.root = true → s.reserver = none → s.tasks = [(u, w)] → w.run = .waiting →
      (s.graph w.graph).abort = none → (idealPlan { s with placerDue := false } w).isSome = true →
      let v := { s with placerDue := false, tasks := [(u, { w with eff := effPrio s w })] }
      (∀ pl, search v { w with eff := effPrio s w } [] [] = some pl →
        exec .placerPass s = .next { claimPlan v u pl with placerDue := true, reserver := none }) ∧
      (search v { w with eff := effPrio s w } [] [] = none → s.saveEn = false →
        exec .placerPass s = .next { v with reserver := some u })) ∧
    (∀ t0 phi, let at_ := phaseTick t0 phi
      t0 ≤ at_ ∧ at_ < t0 + 64 ∧ at_ % 64 = phi % 64) ∧
    (∀ u (pl : Plan), let w := s.task u
      let t := claimPlan s u pl
      w.holdsStreams = false → (t.task u).run = .placed ∧ (t.task u).places = pl.places ∧
        (t.task u).t0 = phaseTick (s.tb + 64) pl.phi ∧ (t.task u).launch = w.launch ∧
        (∀ j, j ≠ u → t.task j = s.task j) ∧ ∃ d, d ∈ t.agenda ∧ d.ev = .taskStart ∧ d.arg.a = u ∧ d.at_ = (t.task u).t0) ∧
    ((fget? s.tasks n).isNone = true ∨ k.run ≠ .placed ∨ k.started = true ∨ k.t0 ≠ s.tb → exec .taskStart s = .fault .notEnabled) ∧
    ((fget? s.tasks n).isSome = true → k.run = .placed → k.started = false → k.t0 = s.tb → k.launch.rings = [] → k.launch.fabp = 0 →
      k.launch.restart = false → k.hold = none → ∀ pl, k.places = [pl] →
        let e := k.entry pl
        let p := partKey n pl.vdie
        let u := s.setTask n { k with run := .running, started := true }
        ∀ bs v, dvaLoad u (taskRoot u n) e.cmdp (32 * e.ncmd) = (bs, none, v) →
          ∃ t, exec .taskStart s = .next t ∧ { t with parts := v.parts } = v ∧
            t.part p = { v.part p with
              recs := (List.range e.ncmd).map fun i => (bs.drop (32 * i)).take 32, begun := true } ∧
            ∀ j, j ≠ p → t.part j = v.part j) ∧
    (∃ t, exec .powerClassApply s = .next t ∧
      { t with memClass := s.memClass, clusters := s.clusters, agenda := s.agenda, free := s.free } = s ∧
      (∀ u w, s.tasks = [(u, w)] → w.places ≠ [] → t.memClass = w.launch.memBound) ∧
      ((∀ e, e ∈ s.tasks → e.2.places = []) → t.memClass = false))

/-- R39 to R43, R276: the command records of a part. The next record issues when its semaphore suffices, and takes the
amount; NOP is done at once and raises its semaphore; COPY becomes a command of the die's engine; ILOAD writes its lines when
its load is done; START sets ctx0 of its core to fetch at its stage's entry. An unknown OP raises CMD_OP.
R414, R420 to R422: the end of a part and of a task. A part that is over retires: what it holds on its cores goes with it;
the last one retires its task, whose node completes. A restartable task whose attempt ended with a cause that allows another
goes back to waiting, and avoids the die or the module its first fault names. -/
def Obligations.PartsAndTasks : Prop :=
  (∀ (s : State) (r : CmdRec),
    let p := s.ev.a
    let k := s.part p
    let task := s.task k.task
    let e := s.entryOf p
    (k.recs[k.next]? = none ∨ slipwayRuns s p = false → ∀ i, i ∈ [Instr.cmdNop, .cmdCopy, .cmdIload, .cmdStart] →
      exec i s = .fault .notEnabled) ∧
    (k.recs[k.next]? = some r → slipwayRuns s p = true → recAwait r = 0 → recCause task.launch e r = none →
      let u := s.setPart p { k with next := k.next + 1, busy := k.next :: k.busy }
      (recOp r = 0 → recRaise r = 0 → ∃ t, exec .cmdNop s = .next t ∧ { t with parts := s.parts } = s ∧
        t.part p = { k with next := k.next + 1, busy := k.busy } ∧ ∀ j, j ≠ p → t.part j = s.part j) ∧
      (recOp r = 1 → ∃ t, exec .cmdCopy s = .next t ∧
        { t with cmds := u.cmds, nextId := u.nextId, agenda := u.agenda, free := u.free } = u ∧
        Awaits s t .translationWalkDone s.nextId 12 ∧
        let g := recordEngine k.pos
        Becomes s t s.nextId { kind := .record, task := k.task, part := p, engine := g
                               home := if g < 100 then homeOf g else k.pos, cx := if g < 100 then complexOf g else 0
                               root := taskRoot s k.task, droot := taskRoot s k.task, w0 := BitVec.ofNat 64 (recA r), recIx := k.next, slot := 1 }) ∧
      (recOp r = 2 → ∃ t d, exec .cmdIload s = .next t ∧ t.agenda = s.agenda ++ [d] ∧ d.ev = .cmdIloadDone ∧
        d.arg = { a := p, b := k.next } ∧ s.tb + 12 ≤ d.at_ ∧ { t with agenda := u.agenda, free := u.free } = u) ∧
      (recOp r = 3 → recRaise r = 0 → ∀ line, stageLine task.launch k.vdie (recB r % 256) = some line →
        let ck := ctxKey (recCore s p r) 0
        ∃ t, exec .cmdStart s = .next t ∧ { t with parts := s.parts, ctxs := s.ctxs } = s ∧
          t.part p = { k with next := k.next + 1, busy := k.busy } ∧ (∀ j, j ≠ p → t.part j = s.part j) ∧
          (∀ j, j ≠ ck → t.ctx j = s.ctx j) ∧
          let d := t.ctx ck
          d.run = .running ∧ d.part = p ∧ d.pc = line ∧ d.intrap = false ∧ d.lanes = [] ∧ d.ql = [] ∧ d.qc = [] ∧ d.qs = [] ∧
            d.qf = [] ∧ d.toks = {} ∧ d.fetchAt = s.clk ck ∧
            d.x = [] ∧ d.v = [] ∧ d.vm = [] ∧ d.p = 0 ∧ d.hs = task.launch.seeds)) ∧
    (k.recs[k.next]? = some r → slipwayRuns s p = true → recAwait r = 0 → 3 < recOp r → task.run ≠ .ending → k.task ≠ 0 →
      ∃ t, exec .cmdNop s = .next t ∧ t.flogHead = s.flogHead + 1 ∧ t.msix = 16 :: s.msix ∧
        (t.task k.task).run = .ending ∧ (t.task k.task).endCause = 13 * 64 + 5 ∧ (t.task k.task).failed = true) ∧
    (k.recs[k.next]? = some r → slipwayRuns s p = true → recOp r = 0 → bit (recAwait r) 15 = true → awaitOk e r = true →
      let h := semHome s p (bits (recAwait r) 0 10)
      semCount s h.1 h.2 < recAmount r → semWaiters s h.1 h.2 = [] → ∃ t, exec .cmdNop s = .next t ∧
        { t with dies := s.dies } = s ∧ (∀ a b, semCount t a b = semCount s a b) ∧ semWaiters t h.1 h.2 = [2 ^ 20 + p]) ∧
    (let i := s.ev.b
     (k.recs[i]? = none ∨ k.busy.contains i = false → exec .cmdIloadDone s = .fault .notEnabled) ∧
     (k.recs[i]? = some r → k.busy.contains i = true → recOp r = 2 → recRaise r = 0 → task.run ≠ .stopped → ∀ bs v,
       dvaLoad s (taskRoot s k.task) (recA r) (32 * recC r) = (bs, none, v) →
       let core := recCore v p r
       let line := bits (recB r) 8 13
       ∃ t, exec .cmdIloadDone s = .next t ∧ { t with istore := v.istore, parts := v.parts } = v ∧
         t.part p = { v.part p with busy := (v.part p).busy.erase i } ∧ (∀ j, j ≠ p → t.part j = v.part j) ∧
         (∀ j, j < recC r → fget t.istore (8192 * core + line + j) 0 = BitVec.ofNat 256 (leNat ((bs.drop (32 * j)).take 32))) ∧
         ∀ j, j < 8192 * core + line ∨ 8192 * core + line + recC r ≤ j → fget t.istore j 0 = fget v.istore j 0))) ∧
  (∀ (s : State),
    (let p := s.ev.a
     let k := s.part p
     (partRetires s p = false → exec .partRetire s = .fault .notEnabled) ∧
     (partRetires s p = true → (∃ q, q ∈ s.partsOf k.task ∧ q ≠ p ∧ (s.part q).retired = false) →
       ∃ t, exec .partRetire s = .next t ∧ t.part p = { k with retired := true } ∧ (∀ q, q ≠ p → t.part q = s.part q) ∧
         t.tasks = s.tasks ∧ t.mem = s.mem ∧ t.istore = s.istore ∧ t.pcores = s.pcores ∧
         (∀ e, e ∈ t.ctxs → e.2.part = p → isControl (coreOf e.1) = true) ∧ (∀ e, e ∈ t.mxs → enginePart e.1 ≠ p) ∧
         (∀ e, e ∈ t.clusters → e.2.ppart ≠ p ∨ p = 0) ∧ ∀ e, e ∈ s.ctxs → e.2.part ≠ p → e ∈ t.ctxs)) ∧
    (let n := s.ev.a
     let k := s.task n
     let may := (fget? s.tasks n).isSome = true ∧ eligible s k = true ∧ k.places ≠ [] ∧ k.attempts < 3 ∧ allRetired s n = true
     (¬ may → exec .taskRerun s = .fault .notEnabled) ∧
     (may → k.launch.snaps = [] → ∃ t, exec .taskRerun s = .next t ∧ t.placerDue = true ∧
       (t.task n).run = .waiting ∧ (t.task n).attempts = k.attempts + 1 ∧ (t.task n).places = [] ∧ (t.task n).routes = [] ∧
       (t.task n).launch = k.launch ∧ (t.task n).failed = false ∧ (t.task n).started = false ∧
       (t.task n).firstFault = k.firstFault ∧ (∀ j, j ≠ n → t.task j = s.task j) ∧ t.mem = s.mem ∧
       (k.endCause / 64 = 12 → (t.task n).avoidDies = k.endAt.toList.map Prod.fst ++ k.avoidDies) ∧
       (k.endCause / 64 = 11 → (t.task n).avoidMods = k.endAt.toList ++ k.avoidMods) ∧
       ∀ e, e ∈ t.parts → e.2.task ≠ n)) ∧
    ∀ (k : Task), eligible s k = true → k.launch.restart = true ∧ k.aborted = false ∧
      (k.endCause / 64 = 6 ∨ k.endCause / 64 = 11 ∨ k.endCause / 64 = 12 ∨ k.endCause = 10 * 64))

/-- R12, R60, R62 to R65: tide holds. A flit's second replay, and a repair that is due once a replay has ended, ask every
task with phases on the link to stop 40 ticks on, or where it stands if it is placed and has not begun; a hold in progress is
joined. No die goes past the stop; 40 ticks after each event is handled its notice arrives, and the last one fixes the
release, 40 ticks after the last die is at the stop and at the phase of the task; the release adds the ticks held to the
task's counters, and one that does not come in HOLDLIM fails the task. Where the dies that lack a flit stop (stopsFor,
lackStops) is assumption 69, how long a delivery or a repair takes is free. -/
def Obligations.TideHolds : Prop :=
  ∀ (s : State),
    let n := s.ev.a
    let k := s.task n
    let only := fun (t : State) => ∀ j, j ≠ n → t.task j = s.task j
    (let pos := s.ev.a
     let m := s.ev.b
     let q := farEnd pos m
     let z := farModule pos m
     let l := s.link pos m
     (s.ev.f = true → (∀ e, e ∈ tasksOn s pos m → e.2.holdable = false) → exec .tideHoldRequest s = .fault .notEnabled) ∧
     (s.ev.f = false → linkThere s pos m = false ∨ l.state ≠ 0 ∨ l.due ≠ some s.ev.c →
       exec .tideHoldRequest s = .fault .notEnabled) ∧
     ∀ u w, s.tasks = [(u, w)] → holdsPhases w (pos, m) = true → w.holdable = true →
       let lacks := if w.started = true then lackStops w pos m (s.sched u) s.tb true else []
       let expires : Due := ⟨s.tb + (max 1 s.holdLim * 1024 + 1), .holdExpired, { a := u, b := s.tb }, none⟩
       let reaches : Due := ⟨s.tb + 40, .tideHoldReach, { a := u, b := s.tb }, none⟩
       let h : Hold := { at_ := s.sched u, stop := s.sched u + 40, asked := s.tb, on := (pos, m) }
       (s.ev.f = true → ∃ t d, exec .tideHoldRequest s = .next t ∧
         { t with tasks := s.tasks, agenda := s.agenda, free := s.free } = s ∧ d.ev = .tideHoldResumeNotice ∧ s.tb + 41 ≤ d.at_ ∧
         (w.hold = none → w.run ≠ .placed →
           t.task u = { w with hold := some { h with stops := stopsFor w h.stop lacks } } ∧
           d.arg = { a := u, b := s.tb } ∧ t.agenda = s.agenda ++ [reaches, expires, d]) ∧
         (w.hold = none → w.run = .placed → t.task u = { w with hold := some { h with stop := s.sched u } } ∧
           d.arg = { a := u, b := s.tb } ∧ t.agenda = s.agenda ++ [expires, d]) ∧
         (∀ g, w.hold = some g → d.arg = { a := u, b := g.asked } ∧
           t.task u = { w with hold := some { g with
             events := g.events + 1
             stops := if g.go.isSome = true then g.stops else addStops g.stops g.stop (stopsFor w g.stop lacks) } } ∧
           t.agenda = (s.agenda.filter fun e => !(e.ev == .tideHoldRelease && e.arg.a == u)) ++ [d])) ∧
       (s.ev.f = false → linkThere s pos m = true → l.state = 0 → l.due = some s.ev.c → l.holds = [] → (q, z) ≠ (pos, m) →
         w.hold = none → w.run ≠ .placed → ∃ t d, exec .tideHoldRequest s = .next t ∧
         { t with tasks := s.tasks, dies := s.dies, agenda := s.agenda, free := s.free } = s ∧
         t.task u = { w with hold := some h } ∧ t.link pos m = { l with state := 1, due := none, holds := [u] } ∧
         t.link q z = { s.link q z with state := 1, due := none, holds := [u] } ∧
         t.agenda = s.agenda ++ [reaches, expires, d] ∧ d.ev = .laneRepairDone ∧ d.arg = { a := pos, b := m, c := s.ev.c } ∧
         s.tb + 40 < d.at_ ∧ d.at_ ≤ s.tb + 40 + 1024)) ∧
    (k.hold = none → ∀ e, e ∈ [Instr.tideHoldReach, .tideHoldResumeNotice, .tideHoldRelease, .holdExpired] →
      exec e s = .fault .notEnabled) ∧
    ∀ h, k.hold = some h → h.asked = s.ev.b →
      (h.reached = true → exec .tideHoldReach s = .fault .notEnabled) ∧
      (h.reached = false → ∃ t, exec .tideHoldReach s = .next t ∧ { t with tasks := s.tasks } = s ∧ only t ∧
        t.task n = { k with hold := some { h with reached := true }, frozen := some h.stop } ∧ t.sched n = h.stop) ∧
      ((∀ e, e ∈ h.stops → e.2 ≤ h.stop) → ∀ pos, s.schedAt n pos ≤ h.stop) ∧
      (h.go = none → ∀ pos, h.stopOf pos ≤ k.base s.tb → s.dieActs n pos = false) ∧
      (h.events = 0 → exec .tideHoldResumeNotice s = .fault .notEnabled) ∧
      (1 < h.events → ∃ t, exec .tideHoldResumeNotice s = .next t ∧ { t with tasks := s.tasks } = s ∧ only t ∧
        t.task n = { k with hold := some { h with events := h.events - 1 } }) ∧
      (h.events = 1 → ∃ t r, exec .tideHoldResumeNotice s = .next t ∧ { t with tasks := s.tasks, agenda := s.agenda } = s ∧
        only t ∧ t.task n = { k with hold := some { h with events := 0, go := some (h.go.getD s.tb) } } ∧
        t.agenda = s.agenda ++ [⟨r, .tideHoldRelease, { a := n, b := h.asked }, none⟩] ∧
        let l := max s.tb (h.go.getD s.tb + (h.stop - h.first))
        l + 40 ≤ r ∧ r < l + 104 ∧ r % 64 = (k.phi + h.stop) % 64) ∧
      (h.events ≠ 0 → exec .tideHoldRelease s = .fault .notEnabled) ∧
      (h.events = 0 → k.run = .placed → ∃ t, exec .tideHoldRelease s = .next t ∧ { t with tasks := s.tasks } = s ∧ only t ∧
        t.task n = { k with hold := none }) ∧
      (k.run ≠ .placed → h.reached = false → exec .tideHoldRelease s = .fault .notEnabled) ∧
      (h.events = 0 → k.run ≠ .placed → h.reached = true → ∃ t, exec .tideHoldRelease s = .next t ∧
        { t with tasks := s.tasks } = s ∧ only t ∧
        let d := s.tb - (k.t0 + k.held + h.stop)
        t.task n = { k with
          hold := none, frozen := none, held := k.held + d, holdcnt := k.holdcnt + 1, holdtk := k.holdtk + d }) ∧
      (s.tb ≤ h.asked + max 1 s.holdLim * 1024 → exec .holdExpired s = .fault .notEnabled) ∧
      (h.asked + max 1 s.holdLim * 1024 < s.tb → k.run ≠ .ending → ∃ t, exec .holdExpired s = .next t ∧ only t ∧
        (t.task n).run = .ending ∧ (t.task n).endCause = 11 * 64 ∧ (t.task n).failed = true ∧ (t.task n).routes = [] ∧
        (t.task n).hold = none ∧ (t.task n).endAt = some h.on ∧ t.flogHead = s.flogHead + 1 ∧ t.msix = 16 :: s.msix)

/-- R416 to R419, R475: the links' own events, on a link that no task holds phases on. The fourth CRC error of a lane within
2^20 ticks makes a repair due, which waits for the end of a replay, at most 8 ticks, and takes at most 1,024; with no spare
lane left any error begins a retrain; a repair moves the lane to a spare, and the next lane with its errors is seen to then;
a lost lock begins a retrain of tries of at most 65,536 ticks; a try that succeeds ends it, the third that fails puts the
module down at both ends. -/
def Obligations.LinkEvents : Prop :=
  ∀ (s : State),
    let pos := s.ev.a
    let m := s.ev.b
    let l := s.link pos m
    let q := farEnd pos m
    let z := farModule pos m
    let up := linkThere s pos m
    let sets := fun (t : State) (f : Link → Link) => t.link pos m = f l ∧ t.link q z = f (s.link q z) ∧
      (∀ a b, (a, b) ≠ (pos, m) → (a, b) ≠ (q, z) → t.link a b = s.link a b) ∧
      ∀ a, { t.die a with links := (s.die a).links } = s.die a
    let tries := fun (t : State) (agenda : List Due) => ∃ d, t.agenda = agenda ++ [d] ∧ d.ev = .retrainTryEnd ∧ d.arg.a = pos ∧
      d.arg.b = m ∧ s.tb < d.at_ ∧ d.at_ ≤ s.tb + 65536
    let stays := s.agenda.filter fun d => !(d.ev == .laneRepairDone && sameLink (d.arg.a, d.arg.b) (pos, m))
    (up = false → ∀ e, e ∈ [Instr.linkCrcError, .laneRepairDone, .linkLockLost, .retrainTryEnd] →
      exec e s = .fault .notEnabled) ∧
    (l.state ≠ 1 → exec .laneRepairDone s = .fault .notEnabled) ∧
    (l.state ≠ 2 → exec .retrainTryEnd s = .fault .notEnabled) ∧
    (1 < l.state → exec .linkLockLost s = .fault .notEnabled) ∧
    (up = true → (∀ e, e ∈ s.tasks → holdsPhases e.2 (pos, m) = false) → (q, z) ≠ (pos, m) → l.holds = [] → (s.link q z).holds = [] →
      (let old := l.errs.filter fun e => s.tb < e.2 + 2 ^ 20
       let seen := (old.filter fun e => e.1 == s.ev.c).length + 1
       let one := { l with crcerr := min (l.crcerr + 1) (2 ^ 24 - 1), errs := (s.ev.c, s.tb) :: old }
       let waits := fun (t : State) (c : Nat) => ∃ d, t.agenda = s.agenda ++ [d] ∧ d.ev = .tideHoldRequest ∧
         d.arg = { a := pos, b := m, c := c } ∧ s.tb < d.at_ ∧ d.at_ ≤ s.tb + 8
       (l.state ≠ 0 ∨ l.due.isSome = true ∨ (l.spare ≠ 0 ∧ seen < 4) → ∃ t, exec .linkCrcError s = .next t ∧
         { t with dies := s.dies } = s ∧ t.link pos m = one ∧ ∀ a b, (a, b) ≠ (pos, m) → t.link a b = s.link a b) ∧
       (l.state = 0 → l.due = none → l.spare ≠ 0 → 4 ≤ seen → ∃ t, exec .linkCrcError s = .next t ∧
         { t with dies := s.dies, agenda := s.agenda, free := s.free } = s ∧ t.link pos m = { one with due := some s.ev.c } ∧
         t.link q z = { s.link q z with due := some s.ev.c } ∧ waits t s.ev.c) ∧
       (l.state = 0 → l.due = none → l.spare = 0 → ∃ t, exec .linkCrcError s = .next t ∧
         { t with dies := s.dies, agenda := s.agenda, free := s.free } = s ∧
         t.link pos m = { one with state := 2, tries := 0, due := none } ∧
         t.link q z = { s.link q z with state := 2, tries := 0, due := none } ∧ tries t stays) ∧
       (l.state = 0 → l.due = some s.ev.c → s.ev.f = false → ∃ t d, exec .tideHoldRequest s = .next t ∧
         { t with dies := s.dies, agenda := s.agenda, free := s.free } = s ∧ (sets t fun x => { x with state := 1, due := none }) ∧
         t.agenda = s.agenda ++ [d] ∧ d.ev = .laneRepairDone ∧ d.arg = { a := pos, b := m, c := s.ev.c } ∧
         s.tb < d.at_ ∧ d.at_ ≤ s.tb + 1024) ∧
       (l.state = 1 → ∃ t, exec .laneRepairDone s = .next t ∧ { t with dies := s.dies, agenda := s.agenda, free := s.free } = s ∧
         let mended := fun (x : Link) => { x with
           state := 0, spare := x.spare - 1, repairs := (x.repairs + 1) % 2 ^ 16, errs := x.errs.filter fun e => e.1 != s.ev.c }
         (dueLane (mended l) s.tb = none → sets t mended ∧ t.agenda = s.agenda) ∧
         ∀ c, dueLane (mended l) s.tb = some c →
           (1 < l.spare → (sets t fun x => { mended x with due := some c }) ∧ waits t c) ∧
           (l.spare ≤ 1 → (sets t fun x => { mended x with state := 2, tries := 0, due := none }) ∧ tries t stays))) ∧
      (l.state ≤ 1 → ∃ t, exec .linkLockLost s = .next t ∧ { t with dies := s.dies, agenda := s.agenda, free := s.free } = s ∧
        (sets t fun x => { x with state := 2, tries := 0, due := none }) ∧ tries t stays) ∧
      (l.state = 2 → s.ev.f = true → ∃ t, exec .retrainTryEnd s = .next t ∧ { t with dies := s.dies } = s ∧ sets t fun x => { x with
        retrains := (x.retrains + 1) % 2 ^ 16, tries := x.tries + 1, state := 0, errs := [] }) ∧
      (l.state = 2 → s.ev.f = false → l.tries < 2 → ∃ t, exec .retrainTryEnd s = .next t ∧
        { t with dies := s.dies, agenda := s.agenda, free := s.free } = s ∧ tries t s.agenda ∧ sets t fun x => { x with
          retrains := (x.retrains + 1) % 2 ^ 16, tries := x.tries + 1, state := 2 }) ∧
      (l.state = 2 → s.ev.f = false → 2 ≤ l.tries → s.syncs = [] → s.cmds = [] → ∃ t, exec .retrainTryEnd s = .next t ∧
        { t with dies := s.dies, placerDue := s.placerDue } = s ∧ (t.link pos m).state = 3 ∧ (t.link q z).state = 3 ∧
        ∀ a b, (a, b) ≠ (pos, m) → (a, b) ≠ (q, z) → t.link a b = s.link a b))

/-- R395, R403 to R409, R414, R428: pre-emption and the loss of a die. A notice makes a running task a victim; a ctx0 that
passes its bound of clks without yielding ends it; a victim all of whose contexts have come to their stop is stopped, its
contexts leave their cores; a partition of a stopped task may be evicted to its save slot; a resumed task goes on where it
stood. A lost stack is served by reconstruction, a lost switch die hands its roots over. -/
def Obligations.PreemptionAndLoss : Prop :=
  ∀ (s : State),
    let n := s.ev.a
    let k := s.task n
    let there := (fget? s.tasks n).isSome = true
    (¬ there → ∀ e, e ∈ [Instr.preemptNotice, .victimStopped, .taskResume] → exec e s = .fault .notEnabled) ∧
    (there → k.run = .placed ∨ (k.run = .running ∧ k.hold ≠ none) →
      exec .preemptNotice s = .next { s with agenda := s.agenda ++ [⟨s.tb + 1, .preemptNotice, { a := n }, none⟩] }) ∧
    (there → k.run = .running → k.hold = none → ∃ t, exec .preemptNotice s = .next t ∧
      { t with tasks := s.tasks, ctxs := s.ctxs } = s ∧ t.task n = { k with run := .stopping } ∧
      (∀ j, j ≠ n → t.task j = s.task j) ∧
      ∀ ck, { t.ctx ck with yielded := (s.ctx ck).yielded, stopAt := (s.ctx ck).stopAt } = s.ctx ck) ∧
    (k.run ≠ .stopping ∨ k.launch.yield = 0 → exec .forcedStop s = .fault .notEnabled) ∧
    (∀ ck, n ≠ 0 → k.run = .stopping → k.launch.yield ≠ 0 → (contextsOf s n).find? (overdue s n) = some ck →
      ∃ t, exec .forcedStop s = .next t ∧ t.flogHead = s.flogHead + 1 ∧ t.msix = 16 :: s.msix ∧ (t.task n).run = .ending ∧
        (t.task n).endCause = 10 * 64 ∧ (t.task n).failed = true ∧ ∀ j, j ≠ n → t.task j = s.task j) ∧
    (taskStill s n = false ∨ k.hold ≠ none → exec .victimStopped s = .fault .notEnabled) ∧
    (there → taskStill s n = true → k.hold = none → (contextsOf s n).all (issuedOver s) = true →
      (∀ w, w ∈ s.swrs → s.taskOf w.ctx ≠ n) →
      (∀ e, e ∈ s.mxs → enginePart e.1 ∈ s.partsOf n → e.2.quiet = true) → ∃ t, exec .victimStopped s = .next t ∧
        (t.task n).run = .stopped ∧ (t.task n).frozen = some (stopSched s n) ∧ t.placerDue = true ∧
        ∀ ck, ck ∈ contextsOf s n → t.ctx ck = {}) ∧
    (∀ ck, let c := s.ctx ck
      let t := keepCtx s ck
      t.ctx ck = {} ∧ (∀ j, j ≠ ck → t.ctx j = s.ctx j) ∧ (fget t.saved (savedKey c.part ck) {}).ctx = c.kept (s.clk ck) ∧
        (c.kept (s.clk ck)).x = c.x ∧ (c.kept (s.clk ck)).v = c.v ∧ (c.kept (s.clk ck)).pc = c.pc ∧ (c.kept (s.clk ck)).ql = c.ql ∧
        frameSeq t ck = none) ∧
    (let p := s.ev.a
     let u := s.part p
     (∀ e, e ∈ (s.place p).cores → e.1 ≠ s.ev.b) ∨ (s.task u.task).run ≠ .stopped → exec .partitionEvict s = .fault .notEnabled) ∧
    (let p := s.ev.a
     let u := s.part p
     let core := coreAt u.pos s.ev.b
     let len := (s.entryOf p).upart * 0x10000
     ∀ c, (s.place p).cores.find? (fun e => e.1 == s.ev.b) = some c → (s.task u.task).run = .stopped →
       fget? u.evicted s.ev.b = none → 4 ≤ (heldUnits s u.pos s.ev.b).eraseDups.length →
       wantsCores s u.task (kindOf u.pos) = true → coreOutstanding s p core = false →
       ∃ t bs own, exec .partitionEvict s = .next t ∧ t.placerDue = true ∧ fget? (t.part p).evicted s.ev.b = some (bs, own) ∧
         { t.part p with evicted := u.evicted } = u ∧ t.tasks = s.tasks ∧ t.ctxs = s.ctxs ∧ t.owned = s.owned ∧
         bs = (List.range len).map fun i => mget s.mem (unitKey core (c.2 * (unitBytes (kindOf u.pos) / 4)) + i)) ∧
    (k.run ≠ .placed ∨ k.started = false ∨ k.frozen = none → exec .taskResume s = .fault .notEnabled) ∧
    (∀ v, there → k.run = .placed → k.started = true → k.hold = none → k.frozen = some v → (∀ p, p ∈ s.partsOf n → issuedLoads (s.part p) = []) →
      ∃ t, exec .taskResume s = .next t ∧
        { t with
          tasks := s.tasks, ctxs := s.ctxs, saved := s.saved, seqs := s.seqs, mxs := s.mxs, mem := s.mem, memStacks := s.memStacks
          dies := s.dies, placerDue := s.placerDue } = s ∧
        (∀ j, j ≠ n → t.task j = s.task j) ∧
        t.task n = { k with run := .running, frozen := none, held := s.tb - k.t0 - v } ∧
        (k.t0 + v ≤ s.tb → t.sched n = v)) ∧
    (∀ p key (v : Saved), let core := coreAt (s.part p).pos (key / 8 % 64)
      let t := putBack s p key v
      t.ctx (ctxKey core (key % 8)) = v.ctx.resumed (s.clk (ctxKey core 0)) ∧ fget? t.saved key = none ∧
        (v.ctx.resumed (s.clk (ctxKey core 0))).x = v.ctx.x ∧ (v.ctx.resumed (s.clk (ctxKey core 0))).v = v.ctx.v ∧ (v.ctx.resumed (s.clk (ctxKey core 0))).pc = v.ctx.pc ∧
        (v.ctx.resumed (s.clk (ctxKey core 0))).ql.map Entry.instr = v.ctx.ql.map Entry.instr ∧
        ∀ q, v.seq = some q → (fget t.seqs core {}).step = q.step ∧ (fget t.seqs core {}).slots = q.slots) ∧
    (let d := s.die n
     let gone := 34 ≤ n ∨ d.kind = 0 ∨ d.fused = true ∨ d.health = 2
     (gone → exec .dieFailure s = .fault .notEnabled) ∧
     (¬ gone → 22 ≤ n → (s.stack (n - 22)).lost = false → ∃ t, exec .dieFailure s = .next t ∧ t.placerDue = true ∧
       { t with dies := s.dies, memStacks := s.memStacks, placerDue := s.placerDue } = s ∧
       t.die n = { d with health := 2 } ∧ t.stack (n - 22) = { s.stack (n - 22) with lost := true, cause := 1 } ∧
       (∀ j, j ≠ n → t.die j = s.die j) ∧ ∀ z, z ≠ n - 22 → t.stack z = s.stack z) ∧
     (¬ gone → n = s.root → n < 2 → s.ctxs = [] → d.parked = [] → ∃ t, exec .dieFailure s = .next t ∧ (t.die n).health = 2 ∧ t.root = s.root)) ∧
    (s.root ≠ 0 ∨ s.alive 0 = true ∨ s.alive 1 = false → exec .switchTakeover s = .fault .notEnabled) ∧
    (s.root = 0 → s.alive 0 = false → s.alive 1 = true → s.tasks = [] → (∀ e, e ∈ s.graphs → e.2.q / 8 ≠ 0) →
      exec .switchTakeover s = .next { s with root := 1, placerDue := true })

/-- R309, R312 to R315, R319: what one execution of a slot comes to. An EMPTY operand gives EMPTY and sends nothing (PDLY
apart, which emits an older result); the first HOLE among the operands goes through; otherwise the elements are those of the
operation, and a row fault under DIVERT makes the row a HOLE with the origin of this execution. An execution rotates the
file of its slot. -/
def Obligations.SlotExecutions : Prop :=
  ∀ (w : Nat) (file consts : List Row) (port : Nat → Row) (n : Nat) (tag : Origin),
    let op := slotOp w
    let x := fun i => operandOf (slotSel w i) file consts port
    let f0 := file.getD 0 {}
    let r := ponExec w file consts port n tag
    let used := slotUses op
    (op ≠ 17 → op ≠ 18 → (∃ i, i < used ∧ (x i).pres = .empty) → r.res = {} ∧ r.ports = 0 ∧ r.fault = none) ∧
    (op = 17 → r.out = file.getD (slotParam w % 8) {} ∧ (r.out.pres = .empty → r.ports = 0) ∧
      (r.out.pres ≠ .empty → r.ports = slotOut w) ∧ ((x 0).pres = .hole → r.res = x 0) ∧
      ((x 0).pres = .empty → r.res = {}) ∧ ((x 0).pres = .valid → slotPol w ≠ 2 →
        r.res = Row.of ((List.range 64).map fun j => BitVec.ofNat 32 ((x 0).at_ j)))) ∧
    (op = 18 → ((x 0).pres = .empty → (x 1).pres = .empty → r.res = {} ∧ r.ports = 0) ∧
      ((x 0).pres = .empty → (x 1).pres = .valid →
        r.res = Row.of ((List.range 64).map fun j => BitVec.ofNat 32 ((x 1).at_ j)) ∧ r.fault = none) ∧
      ((x 0).pres = .valid → (x 1).pres ≠ .hole → slotPol w ≠ 2 →
        r.res = Row.of ((List.range 64).map fun j => BitVec.ofNat 32 ((x 0).at_ j)))) ∧
    (op ≠ 0 → op ≠ 17 → op ≠ 18 → (∀ i, i < used → (x i).pres ≠ .empty) →
      (∀ i, i < used → (x i).pres = .hole → (∀ j, j < i → (x j).pres = .valid) → r.res = x i ∧ r.out = x i ∧ r.fault = none) ∧
      ((∀ i, i < used → (x i).pres = .valid) → op = 14 ∨ op = 15 ∨ op = 16 → f0.pres = .hole →
        r.res = f0 ∧ r.out = f0 ∧ r.fault = none) ∧
      ((∀ i, i < used → (x i).pres = .valid) → (op = 14 ∨ op = 15 ∨ op = 16 → f0.pres ≠ .hole) →
        let e := (ponOp w (if 0 < used then x 0 else zeroRow) (if 1 < used then x 1 else zeroRow)
          (if 2 < used then x 2 else zeroRow) f0)
        (e.fault = none ∨ slotPol w ≠ 2 → r.res = Row.of e.els ∧ r.out = r.res) ∧
        (∀ cause m, e.fault = some (cause, m) → slotPol w = 2 →
          r.res = { pres := .hole, els := List.replicate 64 (holeValue (slotTy w)), tag := { tag with cause := cause } } ∧
          r.out = r.res))) ∧
    (rotateFile file r.res).length = 8 ∧ (rotateFile file r.res).getD 0 {} = r.res ∧
    (∀ j, j < 7 → (rotateFile file r.res).getD (j + 1) {} = file.getD j {}) ∧
    ∀ (a b c f : Row) (j : Nat), j < 64 →
      let v := fun y => ((ponOp w a b c f).els.getD j 0).toNat = y
      let int := fun (y : Int) => v (y % 2 ^ 32).toNat
      let g := fun (r : Row) => sgn 32 (r.at_ j)
      let t := fun (r : Row) => asFt (slotTy w) (r.at_ j)
      let ty := fmtOf (slotTy w)
      (slotTy w = 3 →
        (op = 2 → int (g a + g b)) ∧ (op = 3 → int (g a - g b)) ∧ (op = 4 → int (g a * g b)) ∧
        (op = 5 → int (g a * g b + g c)) ∧ (op = 9 → int (- g a)) ∧
        (op = 14 → int (g a + if f.pres = .empty then 0 else g f))) ∧
      (slotTy w < 3 →
        (op = 2 → v ((fAdd ty (t a) (t b)).1 % 2 ^ 32)) ∧ (op = 3 → v ((fSub ty (t a) (t b)).1 % 2 ^ 32)) ∧
        (op = 4 → v ((fMul ty (t a) (t b)).1 % 2 ^ 32)) ∧ (op = 5 → v ((fFma ty false (t a) (t b) (t c)).1 % 2 ^ 32)) ∧
        (op = 6 → v (fMax ty (t a) (t b) % 2 ^ 32)) ∧ (op = 7 → v (fMin ty (t a) (t b) % 2 ^ 32))) ∧
      (op = 1 → v (a.at_ j)) ∧ (op = 21 → v (a.at_ j &&& b.at_ j)) ∧ (op = 22 → v (a.at_ j ||| b.at_ j)) ∧
      (op = 23 → v (a.at_ j ^^^ b.at_ j))

/-- R305, R307 to R309, R324, R326, R327: a pontoon that may execute its clk executes slot t mod II, once: a NOP leaves its
file alone, any other slot rotates its file and puts its row at the input ports it feeds for the next clk; the rows that
stood at its ports are gone. The fabric starts at T, drains from the stop time on, and completes its phase once; as it drains a
partly filled slot of a ring sink toward which no row is on its way is committed. A row that comes over a link is put at its
port, or into the slot of its ring sink. When other dies learn of a phase's end is assumption 90. -/
def Obligations.FabricRuns : Prop :=
  ∀ (s : State),
    let n := s.ev.a
    let k := s.ev.b
    let f := s.fab n
    let now := fabTime s n (k / 64)
    let only := fun (t : State) => { t with fabs := s.fabs, free := s.free } = s ∧ ∀ j, j ≠ n → t.fab j = s.fab j
    (fget? f.pons k = none → exec .pontoonExec s = .fault .notEnabled) ∧
    (∀ p, fget? f.pons k = some p →
      (ponDue s n (k / 64) p = false → exec .pontoonExec s = .fault .notEnabled) ∧
      (ponDue s n (k / 64) p = true →
        let slot := now % p.ii
        let w := (p.slots.getD slot 0).toNat
        let key := 32 * k + slot
        let gone := fun (x : Flight) => ∃ v q i, x.dest = .pon v q i ∧ 64 * v + q = k ∧ x.due ≤ now
        ∃ t, exec .pontoonExec s = .next t ∧ only t ∧
          (let g := t.fab n
           g.pons = fset f.pons k { p with next := now + 1 } ∧ (∀ x, x ∈ g.flights → ¬ gone x) ∧
           g.st = f.st ∧ g.phase = f.phase ∧ g.t = f.t ∧ g.p = f.p ∧ g.links = f.links ∧ g.handlers = f.handlers ∧
           g.partial_ = f.partial_ ∧ g.holes = f.holes ∧ g.engHole = f.engHole) ∧
          (slotOp w = 0 → (t.fab n).files = f.files ∧ (t.fab n).splits = f.splits ∧
            ∀ x, x ∈ (t.fab n).flights ↔ x ∈ f.flights ∧ ¬ gone x) ∧
          (slotOp w ≠ 0 → ∀ rows : Nat → Row,
            (∀ i, rows i = ((f.flights.find? fun x => x.due == now && x.dest == .pon (k / 64) (k % 64) i).map
              Flight.row).getD {}) →
            let file := fget f.files key (List.replicate 8 {})
            let r := ponExec w file (p.consts.map Row.of) rows (fget f.splits key 0) ⟨k / 64, k % 64, slot, now, 0⟩
            fget (t.fab n).files key [] = rotateFile file r.res ∧
            (∀ j, j ≠ key → fget (t.fab n).files j [] = fget f.files j []) ∧
            (∀ i q e j, i < 4 → bit r.ports i = true → fget? f.pons (64 * (k / 64) + q) = some e → q < 64 →
              e.ins[j]? = some ⟨1, i, k % 64⟩ → ⟨.pon (k / 64) q j, now + 1, now, r.out⟩ ∈ (t.fab n).flights) ∧
            (t.fab n).faults = f.faults + (if r.fault.isSome = true ∧ slotPol w = 2 then 1 else 0) ∧
            ∀ c m x y z, r.fault = some (c, m, x, y, z) →
              (t.fab n).sticky = if slotPol w = 1 then f.sticky ||| BitVec.ofNat 4 (2 ^ (c - 1)) else f.sticky))) ∧
    (f.st ≠ 3 ∨ s.schedHigh n < f.t.toNat → exec .fabricRunning s = .fault .notEnabled) ∧
    (f.st = 3 → f.t.toNat ≤ s.schedHigh n → fabRuns s n = true → ∃ t, exec .fabricRunning s = .next t ∧ only t ∧
      t.fab n = { f with st := 4 }) ∧
    (f.st ≠ 4 ∨ s.schedLow n < f.p.toNat → exec .fabricDrain s = .fault .notEnabled) ∧
    (f.st = 4 → f.p.toNat ≤ s.schedLow n → fabRuns s n = true →
      let coming := fun (x : Flight) (q : Nat) => ∃ i l, x.dest = .link i ∧ f.links[i]? = some l ∧ l.ring = true ∧ l.qidx = q
      ∃ t, exec .fabricDrain s = .next t ∧ (∀ j, j ≠ n → t.fab j = s.fab j) ∧ (f.partial_ = [] → only t) ∧
      { t.fab n with flights := f.flights, partial_ := f.partial_ } = { f with st := 5 } ∧
      (∀ x, x ∈ (t.fab n).flights ↔ x ∈ f.flights ∧ ((∃ v p, x.dest = .sink v p) ∨ ∃ q, coming x q)) ∧
      ∀ e, e ∈ (t.fab n).partial_ ↔ e ∈ f.partial_ ∧ ∃ x, x ∈ f.flights ∧ coming x e.1) ∧
    (f.st ≠ 5 ∨ fabPend s n ≠ 0 ∨ f.buffer ≠ [] ∨ (∃ x v p, x ∈ f.flights ∧ x.dest = .sink v p) →
      exec .fabricPhaseComplete s = .fault .notEnabled) ∧
    (f.st = 5 → f.flights = [] → fabPend s n = 0 → f.buffer = [] →
      (∀ e, e ∈ s.cmds → e.2.kind = .sink → e.2.task ≠ n) → ∃ t, exec .fabricPhaseComplete s = .next t ∧ only t ∧
        { t.fab n with seenAt := f.seenAt } = { f with st := 2, phase := f.phase + 1, phaseWord := fst0 t n } ∧
        ((s.task n).places.length ≤ 1 → (t.fab n).seenAt = s.tb) ∧
        (1 < (s.task n).places.length → s.tb + 12 ≤ (t.fab n).seenAt)) ∧
    (f.links[k]? = none → exec .chainFerryFlitArrival s = .fault .notEnabled) ∧
    ∀ l, f.links[k]? = some l →
      let here := fabTime s n l.dvdie
      ((∀ x, x ∈ f.flights → x.dest = .link k → here < x.due) → exec .chainFerryFlitArrival s = .fault .notEnabled) ∧
      ∀ x, f.flights.find? (fun x => x.dest == .link k) = some x → x.due ≤ here → fabActs s n l.dvdie = true →
      (l.ring = false → f.st = 5 → ∃ t, exec .chainFerryFlitArrival s = .next t ∧ only t ∧
        t.fab n = { f with flights := f.flights.erase x }) ∧
      (l.ring = false → f.st ≠ 5 → ∃ t, exec .chainFerryFlitArrival s = .next t ∧ only t ∧
        { t.fab n with flights := f.flights } = f ∧
        (⟨.pon l.dvdie l.dvpon l.dport, x.due, x.sent, x.row⟩ : Flight) ∈ (t.fab n).flights) ∧
      (∀ e, l.ring = true → f.st ≠ 5 → streamRing (s.task n).launch l.qidx = some e →
        let at_ := stageCore s n e.cstage
        let pk := pcoreKey at_.1 at_.2
        let q := s.ring pk l.qidx
        let had := fget f.partial_ l.qidx 0
        let ck := ctxKey (coreAt (s.part at_.1).pos at_.2) 0
        (had = 0 → q.nslot = 0 ∨ q.free = 0 → ∃ t, exec .chainFerryFlitArrival s = .next t ∧ only t ∧
          t.fab n = { f with flights := f.flights.erase x, miss := f.miss + 1, failed := true }) ∧
        (had = 0 → q.nslot ≠ 0 → q.free ≠ 0 → 1 < q.ssz → Memory.wf s.mem = true → ∃ t, exec .chainFerryFlitArrival s = .next t ∧
          t.fab n = { f with
            flights := f.flights.erase x, partial_ := fset f.partial_ l.qidx 256
            failed := f.failed || x.row.pres == .hole } ∧ (∀ j, j ≠ n → t.fab j = s.fab j) ∧
          t.ring pk l.qidx = { q with clm := q.clm + 1 } ∧ (∀ j, j ≠ pk → t.pcore j = s.pcore j) ∧
          let w := windowsFor s at_.1 ck
          let a := q.slot (q.tail + q.fill)
          ∀ y, (∀ j, j < 256 → homeIn w (a + j) ≠ some y) → mget t.mem y = mget s.mem y))

/-- R317, R318, R325, R329, R330: the ends of the fabric. A source puts the next row it has read of its pattern at the ports
it feeds, or one late hole where it has none; a
scratchpad sink writes each row and reports a hole; an accumulate sink applies valid rows and counts holes; a row that has no
place is counted and fails the phase. A record waits for its handler; one without a handler is lost. A load ends with the
image, or with an error and no image. -/
def Obligations.FabricEnds : Prop :=
  ∀ (s : State) (p : SPort),
    let part := s.part s.ev.a
    let n := part.task
    let key := 16 * s.ev.a + s.ev.b
    let f := s.fab n
    let now := fabTime s n part.vdie
    let row := if p.w = true then 128 else 256
    let count := p.b.n2 * p.b.n1 * p.b.len / row
    let others := fun (t : State) => (∀ j, j ≠ n → t.fab j = s.fab j) ∧ ∀ j, j ≠ key → t.sport j = s.sport j
    (s.sport key = none → exec .sourceRowEmit s = .fault .notEnabled) ∧
    (s.sport key = some p →
      (sourceDue s n part.vdie p = false → exec .sourceRowEmit s = .fault .notEnabled) ∧
      (sourceDue s n part.vdie p = true → ∃ t r, exec .sourceRowEmit s = .next t ∧ others t ∧
        { t with fabs := s.fabs, sports := s.sports, free := s.free } = s ∧
        (∀ q e j, fget? f.pons (64 * part.vdie + q) = some e → q < 64 → (∃ o, e.ins[j]? = some ⟨2, o, s.ev.b⟩) →
          (⟨.pon part.vdie q j, now + 1, now, r⟩ : Flight) ∈ (t.fab n).flights) ∧
        (∀ bs rest, p.ahead = bs :: rest → r = rowOfBytes bs p.w ∧ { t.fab n with flights := f.flights } = f ∧
          t.sport key = some { p with count := p.count + 1, next := now + 1, ahead := rest }) ∧
        (p.ahead = [] → r.pres = .hole ∧ r.tag.cause = 5 ∧ r.tag.vdie = part.vdie ∧ r.tag.vpon = 0xFF ∧ r.tag.clk = now ∧
          (t.fab n).faults = f.faults + 1 ∧
          t.sport key = some { p with count := p.count + 1, next := now + 1, readAt := none, reading := [] })) ∧
      (let w := windowsFor s s.ev.a p.ctx
       let a := patAt p.b.src p.b.ss1 p.b.ss2 p.b.n1 p.b.len ((p.count + p.ahead.length) * row)
       p.kind = 0 → s.ev.b < 16 → p.b.len = row → firstOffence s w a row = none →
        rowRead s key p = s.setSport key { p with ahead := p.ahead ++ [scratchBytes s w a row], readAt := none })) ∧
    (sinkFlight s n part.vdie s.ev.b = none →
      exec .sinkRowWrite s = .fault .notEnabled ∧ exec .accumulateSinkApply s = .fault .notEnabled) ∧
    (∀ x, sinkFlight s n part.vdie s.ev.b = some x →
      let rest := f.flights.erase x
      (s.sport key = none → ∃ t, exec .sinkRowWrite s = .next t ∧ others t ∧ { t with fabs := s.fabs } = s ∧
        t.fab n = { f with flights := rest, miss := f.miss + 1, failed := true }) ∧
      (s.sport key = some p →
        (p.kind = 2 → exec .sinkRowWrite s = .fault .notEnabled) ∧
        (p.kind ≠ 2 → exec .accumulateSinkApply s = .fault .notEnabled) ∧
        (p.kind = 1 → count ≤ p.count → ∃ t, exec .sinkRowWrite s = .next t ∧ others t ∧
          { t with fabs := s.fabs, sports := s.sports } = s ∧ t.sport key = some { p with count := p.count + 1 } ∧
          t.fab n = { f with flights := rest, miss := f.miss + 1, failed := true }) ∧
        (let a := patAt p.b.dst p.b.ds1 p.b.ds2 p.b.n1 p.b.len (p.count * row)
         let w := windowsFor s s.ev.a p.ctx
         p.kind = 1 → p.count < count → p.b.len = row → Memory.wf s.mem = true → ∃ t, exec .sinkRowWrite s = .next t ∧ others t ∧
          (firstOffence s w a row = none → ∀ j y, j < row → homeIn w (a + j) = some y →
            (∀ i, j < i → i < row → homeIn w (a + i) ≠ some y) → mget t.mem y = (x.row.bytes p.w).getD j 0) ∧
          (∀ y, (∀ j, j < row → homeIn w (a + j) ≠ some y) → mget t.mem y = mget s.mem y) ∧
          (x.row.pres ≠ .hole → t.fab n = { f with flights := rest } ∧ t.sport key = some { p with count := p.count + 1 }) ∧
          (x.row.pres = .hole → fget? f.handlers part.vdie = none →
            t.fab n = { f with flights := rest, holes := f.holes + 1, failed := true } ∧
            t.sport key = some { p with count := p.count + 1, open_ := p.open_ ++ [(p.count, false)] }) ∧
          (∀ e, x.row.pres = .hole → fget? f.handlers part.vdie = some e → f.buffer.length < 16 →
            t.sport key = some { p with count := p.count + 1, open_ := p.open_ ++ [(p.count, true)] } ∧
            ∃ due, s.tb < due ∧ t.fab n = { f with
              flights := rest, holes := f.holes + 1
              buffer := f.buffer ++ [(part.vdie, due, holeRecord x.row.tag s.ev.b part.vdie p.count)] })) ∧
        (p.kind = 2 → (∀ e, e ∈ s.cmds → e.2.kind ≠ .sink) →
          (count ≤ p.count → p.w = false → ∃ t, exec .accumulateSinkApply s = .next t ∧ others t ∧
            { t with fabs := s.fabs, sports := s.sports } = s ∧ t.sport key = some { p with count := p.count + 1 } ∧
            t.fab n = { f with flights := rest, miss := f.miss + 1, failed := true }) ∧
          (let c := sinkCmd s s.ev.a s.ev.b p p.count x.row x.sent
           p.count < count → p.w = false →
           ((sinkTouches c).any (stripesBusy s) = true → exec .accumulateSinkApply s = .fault .notEnabled) ∧
           ((sinkTouches c).any (stripesBusy s) = false → x.row.pres = .hole → ∃ t, exec .accumulateSinkApply s = .next t ∧
            others t ∧ { t with fabs := s.fabs, sports := s.sports } = s ∧ t.sport key = some { p with count := p.count + 1 } ∧
            t.fab n = { f with flights := rest, engHole := f.engHole + 1, failed := true }) ∧
           ((sinkTouches c).any (stripesBusy s) = false → x.row.pres ≠ .hole → ∃ t, exec .accumulateSinkApply s = .next t ∧
            others t ∧ t.sport key = some { p with count := p.count + 1 } ∧ t.fab n = { f with flights := rest }))))) ∧
    (let m := s.ev.a
     let g := s.fab m
     (∀ e, e ∈ g.buffer → e.1 ≠ s.ev.b ∨ s.tb < e.2.1) → exec .fabricRecordDeliver s = .fault .notEnabled) ∧
    (let m := s.ev.a
     let g := s.fab m
     ∀ v due bs, g.buffer.find? (fun e => e.1 == s.ev.b) = some (v, due, bs) → due ≤ s.tb →
      (fget? g.handlers v = none → ∃ t, exec .fabricRecordDeliver s = .next t ∧ { t with fabs := s.fabs } = s ∧
        t.fab m = { g with buffer := g.buffer.erase (v, due, bs), lost := g.lost + 1, failed := true } ∧
        ∀ j, j ≠ m → t.fab j = s.fab j) ∧
      ∀ ck q, fget? g.handlers v = some (ck, q) →
        let pk := pcoreKey (partKey m v) (physOf (coreOf ck))
        let r := s.ring pk q
        let w := windowsFor s (partKey m v) ck
        (r.nslot = 0 ∨ r.free = 0 → exec .fabricRecordDeliver s = .fault .notEnabled) ∧
        (r.nslot ≠ 0 → r.free ≠ 0 → r.fin = 0 → r.clm = 0 → Memory.wf s.mem = true → ∃ t, exec .fabricRecordDeliver s = .next t ∧
          t.fab m = { g with buffer := g.buffer.erase (v, due, bs) } ∧ (∀ j, j ≠ m → t.fab j = s.fab j) ∧
          t.ring pk q = { r with fill := r.fill + 1 } ∧ (∀ j, j ≠ pk → t.pcore j = s.pcore j) ∧
          (firstOffence s w r.next bs.length = none → ∀ j y, j < bs.length → homeIn w (r.next + j) = some y →
            (∀ i, j < i → i < bs.length → homeIn w (r.next + i) ≠ some y) → mget t.mem y = bs.getD j 0) ∧
          ∀ y, (∀ j, j < bs.length → homeIn w (r.next + j) ≠ some y) → mget t.mem y = mget s.mem y)) ∧
    let c := s.cmd s.ev.a
    let g := s.fab c.task
    let loads := c.kind = .fload ∧ c.parked = none ∧ c.err = 0
    (fget? s.cmds s.ev.a = none ∨ ¬ loads → exec .floadComplete s = .fault .notEnabled) ∧
    (fget? s.cmds s.ev.a = some c → loads →
      (∀ i u, readImage s c = .inr (i, u) → ∃ t, exec .floadComplete s = .next t ∧
        Leaves s t s.ev.a ∧ (∀ j, j ≠ c.task → t.fab j = s.fab j) ∧
        (let h := t.fab c.task
         h.st = 2 ∧ h.loads = g.loads + 1 ∧ h.links = i.links ∧ h.files = [] ∧ h.phase = g.phase ∧ h.handlers = g.handlers) ∧
        t.sports = s.sports) ∧
      (∀ cause dva, readImage s c = .inl (cause, dva) → cause / 64 = 6 ∨ cause / 64 = 11 ∨ cause / 64 = 12 → c.task ≠ 0 →
        (s.task c.task).run ≠ .ending → ∃ t, exec .floadComplete s = .next t ∧ fget? t.cmds s.ev.a = none ∧
        (t.task c.task).run = .ending ∧ (t.task c.task).endCause = cause ∧ (t.task c.task).failed = true ∧
        t.flogHead = s.flogHead + 1 ∧ t.msix = 16 :: s.msix) ∧
      ∀ cause dva, readImage s c = .inl (cause, dva) → cause / 64 ≠ 5 → cause / 64 ≠ 6 → cause / 64 ≠ 11 → cause / 64 ≠ 12 →
        ∃ t, exec .floadComplete s = .next t ∧ Leaves s t s.ev.a ∧ (∀ j, j ≠ c.task → t.fab j = s.fab j) ∧
        (let h := t.fab c.task
         h.st = 0 ∧ h.loads = g.loads + 1 ∧ h.links = [] ∧ h.pons = [] ∧ h.phase = g.phase) ∧
        t.flogHead = s.flogHead + 1 ∧ t.msix = 16 :: s.msix ∧ t.sports = s.sports)

/-- R71 to R73, R80 to R85: words written out from the encoding tables, one or more of each map, decode to the instructions
they stand for; a token bit in an X word, an opcode with no entry and an operand bit that must be zero do not. -/
def Obligations.WordsDecode : Prop :=
  decodeOp .x 0b00000000100000001010000000010000#32 0 = .ok (.addi 0 5 0 16) ∧
  decodeOp .x 0b00000100000000001100010100101000#32 0 = .ok (.add 2 6 5 5) ∧
  decodeOp .x 0b00000001000110010000010100110000#32 0x00078000 = .ok (.fshl 0 8 5 6 7 1 0 0) ∧
  decodeOp .m 0b00010000001101000000000000000011#32 0 = .ok (.fence ⟨false, false, false, true, 0⟩ 3) ∧
  decodeOp .m 0b10000001000010000000010000000000#32 0x00100C02 =
    .ok (.cacc ⟨true, false, false, false, 0⟩ 4 ⟨false, false, true, true, 2⟩ 0 2) ∧
  decodeOp .v 0b00000000100101001010010000010000#32 0 = .ok (.vrcp ⟨false, false, false, false, 0⟩ 5 4 2 0 0) ∧
  decodeOp .v 0b00000000011110010000100001100000#32 0 = .ok (.vrshr ⟨false, false, false, false, 0⟩ 8 8 12 0 0) ∧
  decodeOp .e 0b00000001000001001010011000111000#32 0x24 = .ok (.mcfgr ⟨false, false, false, false, 0⟩ 5 6 7 4 1) ∧
  decodeOp .f 0b00000001000000000000100100000000#32 0x51 = .ok (.fload 0 9 0x51) ∧
  (∀ e : Word, decodeOp .x 0b00000000101100000000000000000000#32 e = .badOpcode) ∧
  (∀ e : Word, decodeOp .x 0b00000000000000001100010100101001#32 e = .badOperand) ∧
  (let l := lineFor .x 0b10000000100000001010000000010000#32 0 false
   decodeLine .vector .flow l = .fault (detail 1 1) 1 1)

/-- R71 to R75, R80 to R85: the words of every instruction that keeps its operand limits decode to it in its map, whatever
its operands, and no other instruction that keeps them has the same words there. -/
def Obligations.DecodeEncode : Prop :=
  ∀ (i : Instr) (n : Enc), i.wf = true → encode i = some n →
    decodeOp n.map n.fld.toWord n.ext = .ok i ∧
      ∀ (j : Instr) (m : Enc), j.wf = true → encode j = some m → m.map = n.map → m.fld.toWord = n.fld.toWord → m.ext = n.ext →
        j = i

/-- R8, R17, R20, R52, R59, R67, R431: the package right after reset. TIMEBASE is 0, no byte of memory is listed, no task,
context, command, graph or fabric is there, no cluster is powered and no link trained; the aging rule, the hold limit, the
power limit and the alarm fuses have their reset values, and bring-up is the event to come. -/
def Obligations.ResetState : Prop :=
  let s := State.reset
  s.tb = 0 ∧ s.mem = [] ∧ Memory.wf s.mem = true ∧ s.tasks = [] ∧ s.parts = [] ∧ s.ctxs = [] ∧ s.cmds = [] ∧ s.graphs = [] ∧
    s.fabs = [] ∧ s.sports = [] ∧ s.mxs = [] ∧ s.msgs = [] ∧ s.syncs = [] ∧ s.owned = [] ∧ s.flogHead = 0 ∧ s.msix = [] ∧
    s.halted = false ∧ s.bootStep = 0 ∧ s.ageEn = true ∧ s.ageK = 6 ∧ s.ageCap = 6 ∧ s.holdLim = 0x100 ∧ s.pwrlim = 4400 ∧
    s.memClass = false ∧ s.saveEn = false ∧ s.root = 0 ∧ s.almfuse = 15 ∧
    (∀ k, (s.cluster k).powered = false ∧ s.ctx k = {} ∧ s.pcore k = {}) ∧
    (∀ p m, (s.link p m).trained = false) ∧ (∀ p, p < 34 → (s.die p).kind = kindOf p) ∧
    dueEvents s = [⟨0, .reset, {}, none⟩] ∧ ∃ t, step s = exec .reset t ∧ t.tb = 0 ∧ t.mem = []

/-- R76, R88, R98 to R106, R109, R111, R115: a step runs the instruction whose words stand at the program counter. Where
nothing is due, no event is possible and one context alone can act, the step is that context's: its line is read from the
instruction store and decoded, and its lanes take effect from the next clk on; an X instruction at the front executes in the
latch of its lane; another enqueues with the operands it captures, and executes as the head of its queue in the latch of that
entry, once the scoreboard passes it. Around exec the step keeps the books: the slot of the core, the queue or the line from
which the instruction leaves, and, where it waits, that it is tried again. -/
def Obligations.StepRunsDecodedInstruction : Prop :=
  ∀ (s : State) (ck : Nat) (a : Act), s.halted = false → dueEvents s = [] → (∀ e, e ∈ scanned s → possible s e = false) →
    readyActs s = [(ck, a)] →
    let c := s.ctx ck
    let ends := fun (o : Host.Outcome State Fault Refusal) (f : State → State) => match o with
      | .next t => Host.Outcome.next (f t)
      | .fault e => .fault e
      | .refused r => .refused r
    (∀ b l rest, a = .lane b → c.lanes = l :: rest → l.q = .x →
      step s = ends (exec l.instr (beforeX s ck l)) (fun t => afterX s t ck) ∧
      (let u := beforeX s ck l
       u.iss = { ctx := ck, q := .x, line := c.line, lane := l.idx, rot := c.rot, lineNo := c.lineNo } ∧ u.mem = s.mem ∧
        u.tb = s.tb ∧ u.cc.x = c.x ∧ u.cc.lanes = rest ∧ ∀ j, j ≠ ck → u.ctx j = s.ctx j)) ∧
    (∀ q e rest, a = .issue q → c.queue q = e :: rest →
      (scoreboard s ck e = .go →
        step s = ends (exec e.instr { s with iss := latchHead ck e }) (fun t => afterHead s t ck e)) ∧
      (∀ u, scoreboard s ck e = .hold u → step s = .next u) ∧
      ∀ v, scoreboard s ck e = .trap v →
        step s = .next { ({ s with iss := latchHead ck e }.raise 64 v) with iss := {} }) ∧
    (∀ l rest, a = .lane false → c.lanes = l :: rest → l.q ≠ .x →
      let u := enqueueLane s ck
      (readyActs u ≠ [(ck, Act.issue l.q)] → step s = .next u) ∧
      (readyActs u = [(ck, Act.issue l.q)] → ∀ e rest, (u.ctx ck).queue l.q = e :: rest → scoreboard u ck e = .go →
        step s = ends (exec e.instr { u with iss := latchHead ck e }) (fun t => afterHead u t ck e))) ∧
    (∀ line ls, a = .fetch → isControl (coreOf ck) = false → c.pc ≤ 8191 →
      fget s.istore (8192 * coreOf ck + c.pc) 0 = line → decodeLine (profileOf (coreOf ck)) c.reach line = .lanes ls →
      let here := ls.filter fun l => c.fromLane ≤ l.idx
      ∃ u, step s = .next u ∧ (u.ctx ck).lanes = here ∧ (u.ctx ck).line = c.pc ∧ (u.ctx ck).pc = c.pc + 1 ∧
        (u.ctx ck).opened = false ∧ (u.ctx ck).front = max c.front (s.clk ck + 1) ∧ u.mem = s.mem ∧ u.tb = s.tb ∧
        (∀ q, (u.ctx ck).queue q = c.queue q) ∧ (u.ctx ck).x = c.x ∧ ∀ j, j ≠ ck → u.ctx j = s.ctx j)

/-- R2, R59, R377, R398, R438: what a step is. Under the halt only time passes. Else an event that is due or has become possible
is executed before any context acts, at one tick; where none is and no context can act, a trap that has become possible is
entered; where none is, the tick ends: TIMEBASE rises by one and, where no fault is pending, no task is stopping, no loop
runs, no matrix engine is at work, no write of a system register is due, nothing asks a bank or is bound as a source and no
request of a cluster is deferred, nothing else changes but the counts ACT and STALL of the clusters and how far their clocks
are: each tick brings a clk to a cluster at 1.25 GHz, none to one without its clock. -/
def Obligations.TimePasses : Prop :=
  ∀ s : State,
    (s.halted = true → step s = .next { s with tb := s.tb + 1 }) ∧
    (∀ d, s.halted = false → dueEvents s = [d] →
      step s = match exec d.ev { s with agenda := s.agenda.erase d, ev := d.arg } with
        | .next t => .next { t with ev := {} }
        | .fault _ => .next { s with agenda := s.agenda.erase d }
        | .refused r => .refused r) ∧
    (∀ e, s.halted = false → dueEvents s = [] → (scanned s).filter (possible s) = [e] →
      step s = match exec e.1 { s with ev := e.2 } with
        | .next t => .next { t with ev := {} }
        | .fault _ => .next s
        | .refused r => .refused r) ∧
    (s.halted = false → dueEvents s = [] → (∀ e, e ∈ scanned s → possible s e = false) → readyActs s = [] →
      (∀ e, (trapEvents s).filter (possible s) = [e] →
        step s = match exec e.1 { s with ev := e.2 } with
          | .next t => .next { t with ev := {} }
          | .fault _ => .next s
          | .refused r => .refused r) ∧
      ((∀ e, e ∈ s.ctxs → e.2.pend = []) → (∀ e, e ∈ s.tasks → e.2.run ≠ .stopping) → s.seqs = [] →
        (∀ e, e ∈ s.mxs → engineActs s e.1 = false ∧ e.2.reading = []) → s.swrs = [] → s.banks = [] → s.bankUse = [] →
        s.sports = [] → (∀ k, (s.cluster k).stat ≠ 4) → ∃ t, step s = .next t ∧ t.tb = s.tb + 1 ∧
        { t with tb := s.tb, clusters := s.clusters } = s ∧
        (∀ k, { t.cluster k with
          act := (s.cluster k).act, stall := (s.cluster k).stall, phase := (s.cluster k).phase, gap := (s.cluster k).gap
          lag := (s.cluster k).lag } = s.cluster k) ∧
        ∀ k c, fget? s.clusters k = some c →
          (hasClock s k = true → c.curF = 26 → (t.cluster k).gap = false ∧ (t.cluster k).lag = c.lag) ∧
          (hasClock s k = false → (t.cluster k).gap = true ∧ (t.cluster k).lag = c.lag + 1)))

/-- R155, R156 with notes/assumptions/5.md: every step keeps the memory in its one form (addresses strictly rising, no byte
listed that is what an unlisted address reads as), so that equal memories are equal data; and TIMEBASE never falls, but that a
reset begins it afresh. -/
def Obligations.StepKeepsMemory : Prop :=
  ∀ s t : State, Memory.wf s.mem = true → step s = .next t →
    Memory.wf t.mem = true ∧ (s.tb ≤ t.tb ∨ (t.tb = 0 ∧ ∃ d, d ∈ s.agenda ∧ d.ev = .reset))
end

