-- ==== Sys2Proof/Laws/Maps.lean ====
section
/-! SUPPORT. Tables by number: what a reader gets after a key is set or removed, and that tables are changed at no other
key. -/

namespace Sys2Proof.Machine

theorem fget_nil {α : Type} (k : Nat) (d : α) : fget ([] : FMap α) k d = d := rfl

@[simp] theorem fget_fset_same {α : Type} (m : FMap α) (k : Nat) (v d : α) : fget (fset m k v) k d = v := by
  induction m with
  | nil => simp [fset, fget]
  | cons e r ih =>
    obtain ⟨i, w⟩ := e
    unfold fset
    split
    · simp [fget]
    · split
      · simp [fget]
      · rename_i h
        simp [fget, ih, Ne.symm h]

theorem fget_fset_ne {α : Type} (m : FMap α) {k j : Nat} (v d : α) (h : j ≠ k) :
    fget (fset m k v) j d = fget m j d := by
  induction m with
  | nil => simp [fset, fget, Ne.symm h]
  | cons e r ih =>
    obtain ⟨i, w⟩ := e
    unfold fset
    split
    · simp [fget, Ne.symm h]
    · split
      · rename_i _ e
        subst e
        simp [fget, Ne.symm h]
      · simp [fget, ih]

theorem fget_fset {α : Type} (m : FMap α) (k j : Nat) (v d : α) :
    fget (fset m k v) j d = if j = k then v else fget m j d := by
  split
  · rename_i h; subst h; simp
  · exact fget_fset_ne m v d ‹_›

@[simp] theorem fget?_fset_same {α : Type} (m : FMap α) (k : Nat) (v : α) : fget? (fset m k v) k = some v := by
  induction m with
  | nil => simp [fset, fget?]
  | cons e r ih =>
    obtain ⟨i, w⟩ := e
    unfold fset
    split
    · simp [fget?]
    · split
      · simp [fget?]
      · rename_i h
        simp [fget?, ih, Ne.symm h]

theorem fget?_fset_ne {α : Type} (m : FMap α) {k j : Nat} (v : α) (h : j ≠ k) :
    fget? (fset m k v) j = fget? m j := by
  induction m with
  | nil => simp [fset, fget?, Ne.symm h]
  | cons e r ih =>
    obtain ⟨i, w⟩ := e
    unfold fset
    split
    · simp [fget?, Ne.symm h]
    · split
      · rename_i _ e
        subst e
        simp [fget?, Ne.symm h]
      · simp [fget?, ih]

@[simp] theorem fget_fdel_same {α : Type} (m : FMap α) (k : Nat) (d : α) : fget (fdel m k) k d = d := by
  induction m with
  | nil => rfl
  | cons e r ih =>
    obtain ⟨i, w⟩ := e
    simp only [fdel, List.filter] at ih ⊢
    split
    · rename_i h
      simp at h
      simp [fget, h, ih]
    · exact ih

theorem fget_fdel_ne {α : Type} (m : FMap α) {k j : Nat} (d : α) (h : j ≠ k) :
    fget (fdel m k) j d = fget m j d := by
  induction m with
  | nil => rfl
  | cons e r ih =>
    obtain ⟨i, w⟩ := e
    simp only [fdel, List.filter] at ih ⊢
    split
    · simp [fget, ih]
    · rename_i h'
      simp at h'
      simp [fget, ih, h', Ne.symm h]

theorem fget_eq_getD {α : Type} (m : FMap α) (k : Nat) (d : α) : fget m k d = (fget? m k).getD d := by
  induction m with
  | nil => rfl
  | cons e r ih =>
    obtain ⟨i, w⟩ := e
    simp only [fget, fget?]
    split
    · rfl
    · exact ih

/-- A table whose values are changed one by one keeps its keys. -/
theorem fget_map {α : Type} (m : FMap α) (f : α → α) (k : Nat) (d : α) :
    fget (m.map fun e => (e.1, f e.2)) k d = ((fget? m k).map f).getD d := by
  induction m with
  | nil => rfl
  | cons e r ih =>
    obtain ⟨i, w⟩ := e
    simp only [List.map, fget, fget?]
    split
    · rfl
    · exact ih

end Sys2Proof.Machine
end

