-- ==== Sys2Proof/Laws/Memory.lean ====
section
/-! SUPPORT. The store of bytes: reading after writing, and that every operation keeps the canonical form. -/

namespace Sys2Proof.Machine

/-- Every key of a store is above a bound. -/
def Above (n : Nat) (m : List Host.Cell) : Prop := ∀ e ∈ m, n < e.1

/-- The canonical form, said by membership. -/
theorem wf_cons (i : Nat) (b : Byte) (m : List Host.Cell) :
    Memory.wf ((i, b) :: m) = true ↔ b ≠ 0 ∧ Above i m ∧ Memory.wf m = true := by
  induction m generalizing i b with
  | nil => simp [Memory.wf, Above]
  | cons e r ih =>
    obtain ⟨j, c⟩ := e
    have step : Memory.wf ((i, b) :: (j, c) :: r) = (b != 0 && i < j && Memory.wf ((j, c) :: r)) := rfl
    rw [step, ih]
    simp only [Bool.and_eq_true, bne_iff_ne, ne_eq, decide_eq_true_eq, Above, List.mem_cons, ih]
    constructor
    · rintro ⟨⟨hb, hij⟩, hw⟩
      have hw' := hw
      refine ⟨hb, ?_, hw'⟩
      rintro e (rfl | he)
      · exact hij
      · exact Nat.lt_trans hij (hw'.2.1 e he)
    · rintro ⟨hb, ha, hw⟩
      exact ⟨⟨hb, ha (j, c) (.inl rfl)⟩, hw⟩

theorem wf_nil : Memory.wf [] = true := rfl

/-- Below every listed key nothing is stored. -/
theorem mget_above {m : List Host.Cell} {n k : Nat} (h : Above n m) (hk : k ≤ n) : mget m k = 0 := by
  cases m with
  | nil => rfl
  | cons e r =>
    obtain ⟨i, b⟩ := e
    have hi : n < i := h (i, b) (.head _)
    have h1 : ¬ i = k := by omega
    have h2 : k < i := by omega
    simp [mget, h1, h2]

theorem mset_mem {m : List Host.Cell} {k : Nat} {b : Byte} {e : Host.Cell} (h : e ∈ mset m k b) : e = (k, b) ∨ e ∈ m := by
  induction m with
  | nil =>
    simp only [mset] at h
    split at h <;> simp_all
  | cons c r ih =>
    obtain ⟨i, c⟩ := c
    simp only [mset] at h
    split at h
    · rcases List.mem_cons.1 h with rfl | h
      · simp
      · rcases ih h with h | h <;> simp [h]
    · split at h
      · split at h
        · simp [h]
        · rcases List.mem_cons.1 h with rfl | h <;> simp_all
      · split at h
        · exact .inr h
        · rcases List.mem_cons.1 h with rfl | h <;> simp_all

/-- A store keeps the canonical form. -/
theorem mset_wf {m : List Host.Cell} (k : Nat) (b : Byte) (h : Memory.wf m = true) : Memory.wf (mset m k b) = true := by
  induction m with
  | nil =>
    simp only [mset]
    split
    · rfl
    · simpa [Memory.wf] using ‹¬ b = 0›
  | cons e r ih =>
    obtain ⟨i, c⟩ := e
    obtain ⟨hc, ha, hr⟩ := (wf_cons i c r).1 h
    simp only [mset]
    split
    · rename_i hlt
      refine (wf_cons i c _).2 ⟨hc, ?_, ih hr⟩
      intro e he
      rcases mset_mem he with rfl | he
      · exact hlt
      · exact ha e he
    · split
      · subst k
        split
        · exact hr
        · exact (wf_cons _ _ _).2 ⟨‹_›, ha, hr⟩
      · split
        · exact h
        · refine (wf_cons _ _ _).2 ⟨‹_›, ?_, h⟩
          intro e he
          rcases List.mem_cons.1 he with rfl | he
          · show k < i; omega
          · have := ha e he; omega

/-- Reading a byte after writing a byte of a store in canonical form. -/
theorem mget_mset {m : List Host.Cell} (h : Memory.wf m = true) (k j : Nat) (b : Byte) :
    mget (mset m k b) j = if j = k then b else mget m j := by
  induction m with
  | nil =>
    simp only [mset, mget]
    by_cases hb : b = 0
    · simp [hb, mget]
    · simp only [hb, if_false, mget]
      by_cases hj : j = k
      · simp [hj]
      · simp [hj, Ne.symm hj]
  | cons e r ih =>
    obtain ⟨i, c⟩ := e
    obtain ⟨hc, ha, hr⟩ := (wf_cons i c r).1 h
    by_cases h1 : i < k
    · simp only [mset, h1, if_true, mget, ih hr]
      by_cases hij : i = j
      · simp [hij]; intro hjk; omega
      · simp only [hij, if_false]
        by_cases hji : j < i
        · have : ¬ j = k := by omega
          simp [hji, this]
        · simp [hji]
    · by_cases h2 : i = k
      · subst h2
        by_cases hb : b = 0
        · simp only [mset, h1, hb, if_true, if_false]
          by_cases hj : j = i
          · subst hj; simp [mget_above ha (Nat.le_refl _)]
          · by_cases hji : j < i
            · simp [mget, hj, Ne.symm hj, hji, mget_above ha (by omega : j ≤ i)]
            · simp [mget, hj, Ne.symm hj, hji]
        · simp only [mset, h1, hb, if_false, if_true, mget]
          by_cases hj : j = i
          · simp [hj]
          · simp [hj, Ne.symm hj]
      · by_cases hb : b = 0
        · simp only [mset, h1, h2, hb, if_false, if_true]
          by_cases hj : j = k
          · subst hj
            have : j < i := by omega
            simp [mget, h2, this]
          · simp [hj]
        · simp only [mset, h1, h2, hb, if_false]
          by_cases hj : j = k
          · simp [mget, hj]
          · simp only [hj, if_false]
            by_cases hjk : j < k
            · have h3 : ¬ i = j := by omega
              have h4 : j < i := by omega
              simp [mget, Ne.symm hj, hjk, h3, h4]
            · simp [mget, Ne.symm hj, hjk]

/-- Filtering keeps the canonical form. -/
theorem filter_wf {m : List Host.Cell} (p : Host.Cell → Bool) (h : Memory.wf m = true) : Memory.wf (m.filter p) = true := by
  induction m with
  | nil => rfl
  | cons e r ih =>
    obtain ⟨i, c⟩ := e
    obtain ⟨hc, ha, hr⟩ := (wf_cons i c r).1 h
    simp only [List.filter]
    split
    · exact (wf_cons _ _ _).2 ⟨hc, fun e he => ha e (List.mem_filter.1 he).1, ih hr⟩
    · exact ih hr

/-- Zeroing a range keeps the canonical form. -/
theorem mzero_wf {m : List Host.Cell} (a n : Nat) (h : Memory.wf m = true) : Memory.wf (mzero m a n) = true :=
  filter_wf _ h

/-- Zeroing a range: its bytes read as zero, every other byte as before. -/
theorem mget_mzero {m : List Host.Cell} (h : Memory.wf m = true) (a n k : Nat) :
    mget (mzero m a n) k = if a ≤ k ∧ k < a + n then 0 else mget m k := by
  induction m with
  | nil => simp [mzero, mget]
  | cons e r ih =>
    obtain ⟨i, c⟩ := e
    obtain ⟨hc, ha, hr⟩ := (wf_cons i c r).1 h
    have ih := ih hr
    simp only [mzero, List.filter] at ih ⊢
    split
    · rename_i hp
      simp at hp
      simp only [mget]
      by_cases hik : i = k
      · have : ¬ (a ≤ k ∧ k < a + n) := by omega
        simp [hik, this]
      · by_cases hki : k < i
        · simp [hik, hki]
        · simp [hik, hki, ih]
    · rename_i hp
      simp at hp
      rw [ih]
      by_cases hin : a ≤ k ∧ k < a + n
      · simp [hin]
      · simp only [hin, if_false]
        have hik : ¬ i = k := by omega
        by_cases hki : k < i
        · simp [mget, hik, hki, mget_above ha (by omega : k ≤ i)]
        · simp [mget, hik, hki]

/-- Storing bytes keeps the canonical form. -/
theorem storeAt_wf {m : List Host.Cell} (k : Nat) (bs : List Byte) (h : Memory.wf m = true) :
    Memory.wf (storeAt m k bs) = true := by
  induction bs generalizing m k with
  | nil => exact h
  | cons b r ih => exact ih _ (mset_wf k b h)

/-- Reading a byte after storing bytes. -/
theorem mget_storeAt {m : List Host.Cell} (h : Memory.wf m = true) (k : Nat) (bs : List Byte) (j : Nat) :
    mget (storeAt m k bs) j = if k ≤ j ∧ j < k + bs.length then bs.getD (j - k) 0 else mget m j := by
  induction bs generalizing m k with
  | nil =>
    have : ¬ (k ≤ j ∧ j < k) := by omega
    simp only [storeAt, List.length_nil, Nat.add_zero, if_neg this]
  | cons b r ih =>
    simp only [storeAt, ih (mset_wf k b h), mget_mset h, List.length_cons]
    by_cases h1 : k + 1 ≤ j ∧ j < k + 1 + r.length
    · have h2 : k ≤ j ∧ j < k + (r.length + 1) := by omega
      have h3 : j - k = (j - (k + 1)) + 1 := by omega
      simp [h1, h2, h3]
    · rw [if_neg h1]
      by_cases h2 : j = k
      · subst h2; simp
      · have h3 : ¬ (k ≤ j ∧ j < k + (r.length + 1)) := by omega
        rw [if_neg h2, if_neg h3]

end Sys2Proof.Machine
end

