-- ==== Sys2Proof/Laws/Words.lean ====
section
/-! SUPPORT. Instruction words: the fields of a word that was put together from its fields. -/

namespace Sys2Proof.Laws

/-- The fields of the word of the fields. -/
@[simp] theorem ofWord_toWord (f : Fld) : Fld.ofWord f.toWord = f := by
  obtain ⟨⟨a, b, c, e, y⟩, o, p⟩ := f
  simp (disch := decide) only [Fld.ofWord, Fld.toWord, BitVec.extractLsb'_setWidth_of_le,
    BitVec.extractLsb'_append_eq_of_add_le, BitVec.extractLsb'_append_eq_of_le, BitVec.getLsbD_setWidth,
    BitVec.getLsbD_append, Nat.reduceSub]
  simp [BitVec.extractLsb'_eq_self]

theorem ex_width {n k : Nat} (v : BitVec n) (lo len : Nat) (h : lo + len ≤ k) :
    (v.setWidth k).extractLsb' lo len = v.extractLsb' lo len := BitVec.extractLsb'_setWidth_of_le h

theorem ex_low {n k : Nat} (u : BitVec n) (v : BitVec k) (lo len : Nat) (h : lo + len ≤ k) :
    (u ++ v).extractLsb' lo len = v.extractLsb' lo len := BitVec.extractLsb'_append_eq_of_add_le h

theorem ex_high {n k : Nat} (u : BitVec n) (v : BitVec k) (lo len : Nat) (h : k ≤ lo) :
    (u ++ v).extractLsb' lo len = u.extractLsb' (lo - k) len := BitVec.extractLsb'_append_eq_of_le h

theorem ex_all {n : Nat} (v : BitVec n) : v.extractLsb' 0 n = v := BitVec.extractLsb'_eq_self

/-- A word's common copy fields are those it was put together from. -/
theorem cext_ofWord {n : Nat} (u : BitVec n) (x : CExt) : CExt.ofWord ((u ++ x.toBits).setWidth 32) = x := by
  obtain ⟨a, r, t, s, m⟩ := x
  have h : (u ++ (BitVec.ofBool a ++ BitVec.ofBool r ++ BitVec.ofBool t ++ BitVec.ofBool s ++ m)).extractLsb' 0 10 = m :=
    (BitVec.extractLsb'_append_eq_of_add_le (by decide)).trans
      ((BitVec.extractLsb'_append_eq_of_add_le (by decide)).trans BitVec.extractLsb'_eq_self)
  simp only [CExt.ofWord, CExt.toBits, BitVec.getLsbD_append, BitVec.getLsbD_setWidth, ex_width _ 0 10 (by decide : 0 + 10 ≤ 32)]
  simpa using h

/-- The words of an instruction decode to it where the decoder of its map reads its fields back. -/
theorem round_trip {i : Instr} {n : Enc} (he : encode i = some n) (hd : i.wf = true → decodeFld n.map n.fld n.ext = .ok i)
    (hw : i.wf = true) (m : Enc) (hm : encode i = some m) : decodeOp m.map m.fld.toWord m.ext = .ok i := by
  rw [he] at hm
  cases hm
  simp [decodeOp, hd hw]

end Sys2Proof.Laws
end

