-- ==== Sys2Proof/Laws/PerInstr.lean ====
section
/-! SUPPORT. Facts about each instruction as syntax, one lemma for each constructor: an instruction that keeps its operand
limits is read back from its words (04_lines_and_encodings.md R71 to R75, R80 to R85). -/

set_option Elab.async false
set_option linter.unusedSimpArgs false

namespace Sys2Proof.Laws.RoundTrip

/-- The words of a well-formed instruction decode to it. -/
def Statement (i : Instr) : Prop := i.wf = true → ∀ n, encode i = some n → decodeOp n.map n.fld.toWord n.ext = .ok i

theorem add y d a b : Statement (.add y d a b) := by
  exact round_trip rfl fun hw => by simp (disch := decide) only [Enc.of, decodeFld, decX, Dec.when, Hdr.plain, ex_width, ex_low, ex_high, ex_all, cext_ofWord, BEq.rfl, Bool.and_self, if_true, Nat.reduceSub, BitVec.toNat_ofNat, hw]
theorem sub y d a b : Statement (.sub y d a b) := by
  exact round_trip rfl fun hw => by simp (disch := decide) only [Enc.of, decodeFld, decX, Dec.when, Hdr.plain, ex_width, ex_low, ex_high, ex_all, cext_ofWord, BEq.rfl, Bool.and_self, if_true, Nat.reduceSub, BitVec.toNat_ofNat, hw]
theorem and y d a b : Statement (.and y d a b) := by
  exact round_trip rfl fun hw => by simp (disch := decide) only [Enc.of, decodeFld, decX, Dec.when, Hdr.plain, ex_width, ex_low, ex_high, ex_all, cext_ofWord, BEq.rfl, Bool.and_self, if_true, Nat.reduceSub, BitVec.toNat_ofNat, hw]
theorem or y d a b : Statement (.or y d a b) := by
  exact round_trip rfl fun hw => by simp (disch := decide) only [Enc.of, decodeFld, decX, Dec.when, Hdr.plain, ex_width, ex_low, ex_high, ex_all, cext_ofWord, BEq.rfl, Bool.and_self, if_true, Nat.reduceSub, BitVec.toNat_ofNat, hw]
theorem xor y d a b : Statement (.xor y d a b) := by
  exact round_trip rfl fun hw => by simp (disch := decide) only [Enc.of, decodeFld, decX, Dec.when, Hdr.plain, ex_width, ex_low, ex_high, ex_all, cext_ofWord, BEq.rfl, Bool.and_self, if_true, Nat.reduceSub, BitVec.toNat_ofNat, hw]
theorem andn y d a b : Statement (.andn y d a b) := by
  exact round_trip rfl fun hw => by simp (disch := decide) only [Enc.of, decodeFld, decX, Dec.when, Hdr.plain, ex_width, ex_low, ex_high, ex_all, cext_ofWord, BEq.rfl, Bool.and_self, if_true, Nat.reduceSub, BitVec.toNat_ofNat, hw]
theorem sll y d a b : Statement (.sll y d a b) := by
  exact round_trip rfl fun hw => by simp (disch := decide) only [Enc.of, decodeFld, decX, Dec.when, Hdr.plain, ex_width, ex_low, ex_high, ex_all, cext_ofWord, BEq.rfl, Bool.and_self, if_true, Nat.reduceSub, BitVec.toNat_ofNat, hw]
theorem srl y d a b : Statement (.srl y d a b) := by
  exact round_trip rfl fun hw => by simp (disch := decide) only [Enc.of, decodeFld, decX, Dec.when, Hdr.plain, ex_width, ex_low, ex_high, ex_all, cext_ofWord, BEq.rfl, Bool.and_self, if_true, Nat.reduceSub, BitVec.toNat_ofNat, hw]
theorem sra y d a b : Statement (.sra y d a b) := by
  exact round_trip rfl fun hw => by simp (disch := decide) only [Enc.of, decodeFld, decX, Dec.when, Hdr.plain, ex_width, ex_low, ex_high, ex_all, cext_ofWord, BEq.rfl, Bool.and_self, if_true, Nat.reduceSub, BitVec.toNat_ofNat, hw]
theorem mul y d a b : Statement (.mul y d a b) := by
  exact round_trip rfl fun hw => by simp (disch := decide) only [Enc.of, decodeFld, decX, Dec.when, Hdr.plain, ex_width, ex_low, ex_high, ex_all, cext_ofWord, BEq.rfl, Bool.and_self, if_true, Nat.reduceSub, BitVec.toNat_ofNat, hw]
theorem mulh y d a b : Statement (.mulh y d a b) := by
  exact round_trip rfl fun hw => by simp (disch := decide) only [Enc.of, decodeFld, decX, Dec.when, Hdr.plain, ex_width, ex_low, ex_high, ex_all, cext_ofWord, BEq.rfl, Bool.and_self, if_true, Nat.reduceSub, BitVec.toNat_ofNat, hw]
theorem mulhu y d a b : Statement (.mulhu y d a b) := by
  exact round_trip rfl fun hw => by simp (disch := decide) only [Enc.of, decodeFld, decX, Dec.when, Hdr.plain, ex_width, ex_low, ex_high, ex_all, cext_ofWord, BEq.rfl, Bool.and_self, if_true, Nat.reduceSub, BitVec.toNat_ofNat, hw]
theorem min y d a b : Statement (.min y d a b) := by
  exact round_trip rfl fun hw => by simp (disch := decide) only [Enc.of, decodeFld, decX, Dec.when, Hdr.plain, ex_width, ex_low, ex_high, ex_all, cext_ofWord, BEq.rfl, Bool.and_self, if_true, Nat.reduceSub, BitVec.toNat_ofNat, hw]
theorem max y d a b : Statement (.max y d a b) := by
  exact round_trip rfl fun hw => by simp (disch := decide) only [Enc.of, decodeFld, decX, Dec.when, Hdr.plain, ex_width, ex_low, ex_high, ex_all, cext_ofWord, BEq.rfl, Bool.and_self, if_true, Nat.reduceSub, BitVec.toNat_ofNat, hw]
theorem minu y d a b : Statement (.minu y d a b) := by
  exact round_trip rfl fun hw => by simp (disch := decide) only [Enc.of, decodeFld, decX, Dec.when, Hdr.plain, ex_width, ex_low, ex_high, ex_all, cext_ofWord, BEq.rfl, Bool.and_self, if_true, Nat.reduceSub, BitVec.toNat_ofNat, hw]
theorem maxu y d a b : Statement (.maxu y d a b) := by
  exact round_trip rfl fun hw => by simp (disch := decide) only [Enc.of, decodeFld, decX, Dec.when, Hdr.plain, ex_width, ex_low, ex_high, ex_all, cext_ofWord, BEq.rfl, Bool.and_self, if_true, Nat.reduceSub, BitVec.toNat_ofNat, hw]
theorem clz y d a : Statement (.clz y d a) := by
  exact round_trip rfl fun hw => by simp (disch := decide) only [Enc.of, decodeFld, decX, Dec.when, Hdr.plain, ex_width, ex_low, ex_high, ex_all, cext_ofWord, BEq.rfl, Bool.and_self, if_true, Nat.reduceSub, BitVec.toNat_ofNat, hw]
theorem ctz y d a : Statement (.ctz y d a) := by
  exact round_trip rfl fun hw => by simp (disch := decide) only [Enc.of, decodeFld, decX, Dec.when, Hdr.plain, ex_width, ex_low, ex_high, ex_all, cext_ofWord, BEq.rfl, Bool.and_self, if_true, Nat.reduceSub, BitVec.toNat_ofNat, hw]
theorem popc y d a : Statement (.popc y d a) := by
  exact round_trip rfl fun hw => by simp (disch := decide) only [Enc.of, decodeFld, decX, Dec.when, Hdr.plain, ex_width, ex_low, ex_high, ex_all, cext_ofWord, BEq.rfl, Bool.and_self, if_true, Nat.reduceSub, BitVec.toNat_ofNat, hw]
theorem bswap y d a : Statement (.bswap y d a) := by
  exact round_trip rfl fun hw => by simp (disch := decide) only [Enc.of, decodeFld, decX, Dec.when, Hdr.plain, ex_width, ex_low, ex_high, ex_all, cext_ofWord, BEq.rfl, Bool.and_self, if_true, Nat.reduceSub, BitVec.toNat_ofNat, hw]
theorem sel y d a b c : Statement (.sel y d a b c) := by
  exact round_trip rfl fun hw => by simp (disch := decide) only [Enc.of, decodeFld, decX, Dec.when, Hdr.plain, ex_width, ex_low, ex_high, ex_all, cext_ofWord, BEq.rfl, Bool.and_self, if_true, Nat.reduceSub, BitVec.toNat_ofNat, hw]
theorem cmp y c k a b m : Statement (.cmp y c k a b m) := by
  exact round_trip rfl fun hw => by simp (disch := decide) only [Enc.of, decodeFld, decX, Dec.when, Hdr.plain, ex_width, ex_low, ex_high, ex_all, cext_ofWord, BEq.rfl, Bool.and_self, if_true, Nat.reduceSub, BitVec.toNat_ofNat, hw]
theorem cmpu y c k a b m : Statement (.cmpu y c k a b m) := by
  exact round_trip rfl fun hw => by simp (disch := decide) only [Enc.of, decodeFld, decX, Dec.when, Hdr.plain, ex_width, ex_low, ex_high, ex_all, cext_ofWord, BEq.rfl, Bool.and_self, if_true, Nat.reduceSub, BitVec.toNat_ofNat, hw]
theorem addsh y d a b s : Statement (.addsh y d a b s) := by
  exact round_trip rfl fun hw => by simp (disch := decide) only [Enc.of, decodeFld, decX, Dec.when, Hdr.plain, ex_width, ex_low, ex_high, ex_all, cext_ofWord, BEq.rfl, Bool.and_self, if_true, Nat.reduceSub, BitVec.toNat_ofNat, hw]
theorem jalr y d a : Statement (.jalr y d a) := by
  exact round_trip rfl fun hw => by simp (disch := decide) only [Enc.of, decodeFld, decX, Dec.when, Hdr.plain, ex_width, ex_low, ex_high, ex_all, cext_ofWord, BEq.rfl, Bool.and_self, if_true, Nat.reduceSub, BitVec.toNat_ofNat, hw]
theorem tbr y d : Statement (.tbr y d) := by
  exact round_trip rfl fun hw => by simp (disch := decide) only [Enc.of, decodeFld, decX, Dec.when, Hdr.plain, ex_width, ex_low, ex_high, ex_all, cext_ofWord, BEq.rfl, Bool.and_self, if_true, Nat.reduceSub, BitVec.toNat_ofNat, hw]
theorem scht y d : Statement (.scht y d) := by
  exact round_trip rfl fun hw => by simp (disch := decide) only [Enc.of, decodeFld, decX, Dec.when, Hdr.plain, ex_width, ex_low, ex_high, ex_all, cext_ofWord, BEq.rfl, Bool.and_self, if_true, Nat.reduceSub, BitVec.toNat_ofNat, hw]
theorem pwait y a : Statement (.pwait y a) := by
  exact round_trip rfl fun hw => by simp (disch := decide) only [Enc.of, decodeFld, decX, Dec.when, Hdr.plain, ex_width, ex_low, ex_high, ex_all, cext_ofWord, BEq.rfl, Bool.and_self, if_true, Nat.reduceSub, BitVec.toNat_ofNat, hw]
theorem punpin y a : Statement (.punpin y a) := by
  exact round_trip rfl fun hw => by simp (disch := decide) only [Enc.of, decodeFld, decX, Dec.when, Hdr.plain, ex_width, ex_low, ex_high, ex_all, cext_ofWord, BEq.rfl, Bool.and_self, if_true, Nat.reduceSub, BitVec.toNat_ofNat, hw]
theorem pinv y a : Statement (.pinv y a) := by
  exact round_trip rfl fun hw => by simp (disch := decide) only [Enc.of, decodeFld, decX, Dec.when, Hdr.plain, ex_width, ex_low, ex_high, ex_all, cext_ofWord, BEq.rfl, Bool.and_self, if_true, Nat.reduceSub, BitVec.toNat_ofNat, hw] <;> simp [hw]
theorem pinvAll y : Statement (.pinvAll y) := by
  exact round_trip rfl fun hw => by simp (disch := decide) only [Enc.of, decodeFld, decX, Dec.when, Hdr.plain, ex_width, ex_low, ex_high, ex_all, cext_ofWord, BEq.rfl, Bool.and_self, if_true, Nat.reduceSub, BitVec.toNat_ofNat, hw] <;> simp [hw]
theorem endc y : Statement (.endc y) := by
  exact round_trip rfl fun hw => by simp (disch := decide) only [Enc.of, decodeFld, decX, Dec.when, Hdr.plain, ex_width, ex_low, ex_high, ex_all, cext_ofWord, BEq.rfl, Bool.and_self, if_true, Nat.reduceSub, BitVec.toNat_ofNat, hw]
theorem eret y : Statement (.eret y) := by
  exact round_trip rfl fun hw => by simp (disch := decide) only [Enc.of, decodeFld, decX, Dec.when, Hdr.plain, ex_width, ex_low, ex_high, ex_all, cext_ofWord, BEq.rfl, Bool.and_self, if_true, Nat.reduceSub, BitVec.toNat_ofNat, hw]
theorem addi y d a i : Statement (.addi y d a i) := by
  exact round_trip rfl fun hw => by simp (disch := decide) only [Enc.of, decodeFld, decX, Dec.when, Hdr.plain, ex_width, ex_low, ex_high, ex_all, cext_ofWord, BEq.rfl, Bool.and_self, if_true, Nat.reduceSub, BitVec.toNat_ofNat, hw]
theorem andi y d a i : Statement (.andi y d a i) := by
  exact round_trip rfl fun hw => by simp (disch := decide) only [Enc.of, decodeFld, decX, Dec.when, Hdr.plain, ex_width, ex_low, ex_high, ex_all, cext_ofWord, BEq.rfl, Bool.and_self, if_true, Nat.reduceSub, BitVec.toNat_ofNat, hw]
theorem ori y d a i : Statement (.ori y d a i) := by
  exact round_trip rfl fun hw => by simp (disch := decide) only [Enc.of, decodeFld, decX, Dec.when, Hdr.plain, ex_width, ex_low, ex_high, ex_all, cext_ofWord, BEq.rfl, Bool.and_self, if_true, Nat.reduceSub, BitVec.toNat_ofNat, hw]
theorem xori y d a i : Statement (.xori y d a i) := by
  exact round_trip rfl fun hw => by simp (disch := decide) only [Enc.of, decodeFld, decX, Dec.when, Hdr.plain, ex_width, ex_low, ex_high, ex_all, cext_ofWord, BEq.rfl, Bool.and_self, if_true, Nat.reduceSub, BitVec.toNat_ofNat, hw]
theorem slli y d a s : Statement (.slli y d a s) := by
  exact round_trip rfl fun hw => by simp (disch := decide) only [Enc.of, decodeFld, decX, Dec.when, Hdr.plain, ex_width, ex_low, ex_high, ex_all, cext_ofWord, BEq.rfl, Bool.and_self, if_true, Nat.reduceSub, BitVec.toNat_ofNat, hw]
theorem srli y d a s : Statement (.srli y d a s) := by
  exact round_trip rfl fun hw => by simp (disch := decide) only [Enc.of, decodeFld, decX, Dec.when, Hdr.plain, ex_width, ex_low, ex_high, ex_all, cext_ofWord, BEq.rfl, Bool.and_self, if_true, Nat.reduceSub, BitVec.toNat_ofNat, hw]
theorem srai y d a s : Statement (.srai y d a s) := by
  exact round_trip rfl fun hw => by simp (disch := decide) only [Enc.of, decodeFld, decX, Dec.when, Hdr.plain, ex_width, ex_low, ex_high, ex_all, cext_ofWord, BEq.rfl, Bool.and_self, if_true, Nat.reduceSub, BitVec.toNat_ofNat, hw]
theorem cmpi y c k a i : Statement (.cmpi y c k a i) := by
  exact round_trip rfl fun hw => by simp (disch := decide) only [Enc.of, decodeFld, decX, Dec.when, Hdr.plain, ex_width, ex_low, ex_high, ex_all, cext_ofWord, BEq.rfl, Bool.and_self, if_true, Nat.reduceSub, BitVec.toNat_ofNat, hw]
theorem cmpui y c k a i : Statement (.cmpui y c k a i) := by
  exact round_trip rfl fun hw => by simp (disch := decide) only [Enc.of, decodeFld, decX, Dec.when, Hdr.plain, ex_width, ex_low, ex_high, ex_all, cext_ofWord, BEq.rfl, Bool.and_self, if_true, Nat.reduceSub, BitVec.toNat_ofNat, hw]
theorem dly y a i : Statement (.dly y a i) := by
  exact round_trip rfl fun hw => by simp (disch := decide) only [Enc.of, decodeFld, decX, Dec.when, Hdr.plain, ex_width, ex_low, ex_high, ex_all, cext_ofWord, BEq.rfl, Bool.and_self, if_true, Nat.reduceSub, BitVec.toNat_ofNat, hw]
theorem trap y a c : Statement (.trap y a c) := by
  exact round_trip rfl fun hw => by simp (disch := decide) only [Enc.of, decodeFld, decX, Dec.when, Hdr.plain, ex_width, ex_low, ex_high, ex_all, cext_ofWord, BEq.rfl, Bool.and_self, if_true, Nat.reduceSub, BitVec.toNat_ofNat, hw]
theorem yield y : Statement (.yield y) := by
  exact round_trip rfl fun hw => by simp (disch := decide) only [Enc.of, decodeFld, decX, Dec.when, Hdr.plain, ex_width, ex_low, ex_high, ex_all, cext_ofWord, BEq.rfl, Bool.and_self, if_true, Nat.reduceSub, BitVec.toNat_ofNat, hw]
theorem movw y d i : Statement (.movw y d i) := by
  exact round_trip rfl fun hw => by simp (disch := decide) only [Enc.of, decodeFld, decX, Dec.when, Hdr.plain, ex_width, ex_low, ex_high, ex_all, cext_ofWord, BEq.rfl, Bool.and_self, if_true, Nat.reduceSub, BitVec.toNat_ofNat, hw]
theorem movhw y d a i : Statement (.movhw y d a i) := by
  exact round_trip rfl fun hw => by simp (disch := decide) only [Enc.of, decodeFld, decX, Dec.when, Hdr.plain, ex_width, ex_low, ex_high, ex_all, cext_ofWord, BEq.rfl, Bool.and_self, if_true, Nat.reduceSub, BitVec.toNat_ofNat, hw]
theorem addw y d a i : Statement (.addw y d a i) := by
  exact round_trip rfl fun hw => by simp (disch := decide) only [Enc.of, decodeFld, decX, Dec.when, Hdr.plain, ex_width, ex_low, ex_high, ex_all, cext_ofWord, BEq.rfl, Bool.and_self, if_true, Nat.reduceSub, BitVec.toNat_ofNat, hw]
theorem bfxu y d a xs xr len im : Statement (.bfxu y d a xs xr len im) := by
  exact round_trip rfl fun hw => by simp (disch := decide) only [Enc.of, decodeFld, decX, Dec.when, Hdr.plain, ex_width, ex_low, ex_high, ex_all, cext_ofWord, BEq.rfl, Bool.and_self, if_true, Nat.reduceSub, BitVec.toNat_ofNat, hw]
theorem bfxs y d a xs xr len im : Statement (.bfxs y d a xs xr len im) := by
  exact round_trip rfl fun hw => by simp (disch := decide) only [Enc.of, decodeFld, decX, Dec.when, Hdr.plain, ex_width, ex_low, ex_high, ex_all, cext_ofWord, BEq.rfl, Bool.and_self, if_true, Nat.reduceSub, BitVec.toNat_ofNat, hw]
theorem bfi y d a xs xr len im : Statement (.bfi y d a xs xr len im) := by
  exact round_trip rfl fun hw => by simp (disch := decide) only [Enc.of, decodeFld, decX, Dec.when, Hdr.plain, ex_width, ex_low, ex_high, ex_all, cext_ofWord, BEq.rfl, Bool.and_self, if_true, Nat.reduceSub, BitVec.toNat_ofNat, hw]
theorem fshl y d a b xs xr len im : Statement (.fshl y d a b xs xr len im) := by
  exact round_trip rfl fun hw => by simp (disch := decide) only [Enc.of, decodeFld, decX, Dec.when, Hdr.plain, ex_width, ex_low, ex_high, ex_all, cext_ofWord, BEq.rfl, Bool.and_self, if_true, Nat.reduceSub, BitVec.toNat_ofNat, hw]
theorem fshr y d a b xs xr len im : Statement (.fshr y d a b xs xr len im) := by
  exact round_trip rfl fun hw => by simp (disch := decide) only [Enc.of, decodeFld, decX, Dec.when, Hdr.plain, ex_width, ex_low, ex_high, ex_all, cext_ofWord, BEq.rfl, Bool.and_self, if_true, Nat.reduceSub, BitVec.toNat_ofNat, hw]
theorem srd y d n : Statement (.srd y d n) := by
  exact round_trip rfl fun hw => by simp (disch := decide) only [Enc.of, decodeFld, decX, Dec.when, Hdr.plain, ex_width, ex_low, ex_high, ex_all, cext_ofWord, BEq.rfl, Bool.and_self, if_true, Nat.reduceSub, BitVec.toNat_ofNat, hw]
theorem swr y a n : Statement (.swr y a n) := by
  exact round_trip rfl fun hw => by simp (disch := decide) only [Enc.of, decodeFld, decX, Dec.when, Hdr.plain, ex_width, ex_low, ex_high, ex_all, cext_ofWord, BEq.rfl, Bool.and_self, if_true, Nat.reduceSub, BitVec.toNat_ofNat, hw]
theorem jal y d t : Statement (.jal y d t) := by
  exact round_trip rfl fun hw => by simp (disch := decide) only [Enc.of, decodeFld, decX, Dec.when, Hdr.plain, ex_width, ex_low, ex_high, ex_all, cext_ofWord, BEq.rfl, Bool.and_self, if_true, Nat.reduceSub, BitVec.toNat_ofNat, hw]
theorem loopm y a n ii : Statement (.loopm y a n ii) := by
  exact round_trip rfl fun hw => by simp (disch := decide) only [Enc.of, decodeFld, decX, Dec.when, Hdr.plain, ex_width, ex_low, ex_high, ex_all, cext_ofWord, BEq.rfl, Bool.and_self, if_true, Nat.reduceSub, BitVec.toNat_ofNat, hw]
theorem probe y d a t : Statement (.probe y d a t) := by
  exact round_trip rfl fun hw => by simp (disch := decide) only [Enc.of, decodeFld, decX, Dec.when, Hdr.plain, ex_width, ex_low, ex_high, ex_all, cext_ofWord, BEq.rfl, Bool.and_self, if_true, Nat.reduceSub, BitVec.toNat_ofNat, hw]
theorem br y c g o : Statement (.br y c g o) := by
  exact round_trip rfl fun hw => by simp (disch := decide) only [Enc.of, decodeFld, decX, Dec.when, Hdr.plain, ex_width, ex_low, ex_high, ex_all, cext_ofWord, BEq.rfl, Bool.and_self, if_true, Nat.reduceSub, BitVec.toNat_ofNat, hw]
theorem vld h d a k e : Statement (.vld h d a k e) := by
  exact round_trip rfl fun hw => by simp (disch := decide) only [Enc.of, decodeFld, decM, Dec.when, Hdr.plain, ex_width, ex_low, ex_high, ex_all, cext_ofWord, BEq.rfl, Bool.and_self, if_true, Nat.reduceSub, BitVec.toNat_ofNat, hw]
theorem vldc h d a b k e : Statement (.vldc h d a b k e) := by
  exact round_trip rfl fun hw => by simp (disch := decide) only [Enc.of, decodeFld, decM, Dec.when, Hdr.plain, ex_width, ex_low, ex_high, ex_all, cext_ofWord, BEq.rfl, Bool.and_self, if_true, Nat.reduceSub, BitVec.toNat_ofNat, hw]
theorem vlds h d a b k e : Statement (.vlds h d a b k e) := by
  exact round_trip rfl fun hw => by simp (disch := decide) only [Enc.of, decodeFld, decM, Dec.when, Hdr.plain, ex_width, ex_low, ex_high, ex_all, cext_ofWord, BEq.rfl, Bool.and_self, if_true, Nat.reduceSub, BitVec.toNat_ofNat, hw]
theorem vldb h d a k t e : Statement (.vldb h d a k t e) := by
  exact round_trip rfl fun hw => by simp (disch := decide) only [Enc.of, decodeFld, decM, Dec.when, Hdr.plain, ex_width, ex_low, ex_high, ex_all, cext_ofWord, BEq.rfl, Bool.and_self, if_true, Nat.reduceSub, BitVec.toNat_ofNat, hw]
theorem vldg h d a b k e : Statement (.vldg h d a b k e) := by
  exact round_trip rfl fun hw => by simp (disch := decide) only [Enc.of, decodeFld, decM, Dec.when, Hdr.plain, ex_width, ex_low, ex_high, ex_all, cext_ofWord, BEq.rfl, Bool.and_self, if_true, Nat.reduceSub, BitVec.toNat_ofNat, hw]
theorem vldm h d a : Statement (.vldm h d a) := by
  exact round_trip rfl fun hw => by simp (disch := decide) only [Enc.of, decodeFld, decM, Dec.when, Hdr.plain, ex_width, ex_low, ex_high, ex_all, cext_ofWord, BEq.rfl, Bool.and_self, if_true, Nat.reduceSub, BitVec.toNat_ofNat, hw]
theorem vst h d a k e : Statement (.vst h d a k e) := by
  exact round_trip rfl fun hw => by simp (disch := decide) only [Enc.of, decodeFld, decM, Dec.when, Hdr.plain, ex_width, ex_low, ex_high, ex_all, cext_ofWord, BEq.rfl, Bool.and_self, if_true, Nat.reduceSub, BitVec.toNat_ofNat, hw]
theorem vstc h d a b k e : Statement (.vstc h d a b k e) := by
  exact round_trip rfl fun hw => by simp (disch := decide) only [Enc.of, decodeFld, decM, Dec.when, Hdr.plain, ex_width, ex_low, ex_high, ex_all, cext_ofWord, BEq.rfl, Bool.and_self, if_true, Nat.reduceSub, BitVec.toNat_ofNat, hw]
theorem vsts h d a b k e : Statement (.vsts h d a b k e) := by
  exact round_trip rfl fun hw => by simp (disch := decide) only [Enc.of, decodeFld, decM, Dec.when, Hdr.plain, ex_width, ex_low, ex_high, ex_all, cext_ofWord, BEq.rfl, Bool.and_self, if_true, Nat.reduceSub, BitVec.toNat_ofNat, hw]
theorem vstx h d a b k e : Statement (.vstx h d a b k e) := by
  exact round_trip rfl fun hw => by simp (disch := decide) only [Enc.of, decodeFld, decM, Dec.when, Hdr.plain, ex_width, ex_low, ex_high, ex_all, cext_ofWord, BEq.rfl, Bool.and_self, if_true, Nat.reduceSub, BitVec.toNat_ofNat, hw]
theorem vstm h d a : Statement (.vstm h d a) := by
  exact round_trip rfl fun hw => by simp (disch := decide) only [Enc.of, decodeFld, decM, Dec.when, Hdr.plain, ex_width, ex_low, ex_high, ex_all, cext_ofWord, BEq.rfl, Bool.and_self, if_true, Nat.reduceSub, BitVec.toNat_ofNat, hw]
theorem tmov h d a b t : Statement (.tmov h d a b t) := by
  exact round_trip rfl fun hw => by simp (disch := decide) only [Enc.of, decodeFld, decM, Dec.when, Hdr.plain, ex_width, ex_low, ex_high, ex_all, cext_ofWord, BEq.rfl, Bool.and_self, if_true, Nat.reduceSub, BitVec.toNat_ofNat, hw]
theorem ownE h a b t : Statement (.ownE h a b t) := by
  exact round_trip rfl fun hw => by simp (disch := decide) only [Enc.of, decodeFld, decM, Dec.when, Hdr.plain, ex_width, ex_low, ex_high, ex_all, cext_ofWord, BEq.rfl, Bool.and_self, if_true, Nat.reduceSub, BitVec.toNat_ofNat, hw]
theorem ownC h a b t : Statement (.ownC h a b t) := by
  exact round_trip rfl fun hw => by simp (disch := decide) only [Enc.of, decodeFld, decM, Dec.when, Hdr.plain, ex_width, ex_low, ex_high, ex_all, cext_ofWord, BEq.rfl, Bool.and_self, if_true, Nat.reduceSub, BitVec.toNat_ofNat, hw] <;> simp [hw]
theorem fence h s : Statement (.fence h s) := by
  exact round_trip rfl fun hw => by simp (disch := decide) only [Enc.of, decodeFld, decM, Dec.when, Hdr.plain, ex_width, ex_low, ex_high, ex_all, cext_ofWord, BEq.rfl, Bool.and_self, if_true, Nat.reduceSub, BitVec.toNat_ofNat, hw]
theorem rclaim h d b u : Statement (.rclaim h d b u) := by
  exact round_trip rfl fun hw => by simp (disch := decide) only [Enc.of, decodeFld, decM, Dec.when, Hdr.plain, ex_width, ex_low, ex_high, ex_all, cext_ofWord, BEq.rfl, Bool.and_self, if_true, Nat.reduceSub, BitVec.toNat_ofNat, hw]
theorem rcommit h a b u : Statement (.rcommit h a b u) := by
  exact round_trip rfl fun hw => by simp (disch := decide) only [Enc.of, decodeFld, decM, Dec.when, Hdr.plain, ex_width, ex_low, ex_high, ex_all, cext_ofWord, BEq.rfl, Bool.and_self, if_true, Nat.reduceSub, BitVec.toNat_ofNat, hw]
theorem rwaitf h a b u : Statement (.rwaitf h a b u) := by
  exact round_trip rfl fun hw => by simp (disch := decide) only [Enc.of, decodeFld, decM, Dec.when, Hdr.plain, ex_width, ex_low, ex_high, ex_all, cext_ofWord, BEq.rfl, Bool.and_self, if_true, Nat.reduceSub, BitVec.toNat_ofNat, hw]
theorem rwaite h a b u : Statement (.rwaite h a b u) := by
  exact round_trip rfl fun hw => by simp (disch := decide) only [Enc.of, decodeFld, decM, Dec.when, Hdr.plain, ex_width, ex_low, ex_high, ex_all, cext_ofWord, BEq.rfl, Bool.and_self, if_true, Nat.reduceSub, BitVec.toNat_ofNat, hw]
theorem rpop h a b u : Statement (.rpop h a b u) := by
  exact round_trip rfl fun hw => by simp (disch := decide) only [Enc.of, decodeFld, decM, Dec.when, Hdr.plain, ex_width, ex_low, ex_high, ex_all, cext_ofWord, BEq.rfl, Bool.and_self, if_true, Nat.reduceSub, BitVec.toNat_ofNat, hw]
theorem rpeek h d a b u : Statement (.rpeek h d a b u) := by
  exact round_trip rfl fun hw => by simp (disch := decide) only [Enc.of, decodeFld, decM, Dec.when, Hdr.plain, ex_width, ex_low, ex_high, ex_all, cext_ofWord, BEq.rfl, Bool.and_self, if_true, Nat.reduceSub, BitVec.toNat_ofNat, hw]
theorem bara h d a g : Statement (.bara h d a g) := by
  exact round_trip rfl fun hw => by simp (disch := decide) only [Enc.of, decodeFld, decM, Dec.when, Hdr.plain, ex_width, ex_low, ex_high, ex_all, cext_ofWord, BEq.rfl, Bool.and_self, if_true, Nat.reduceSub, BitVec.toNat_ofNat, hw]
theorem barw h a b : Statement (.barw h a b) := by
  exact round_trip rfl fun hw => by simp (disch := decide) only [Enc.of, decodeFld, decM, Dec.when, Hdr.plain, ex_width, ex_low, ex_high, ex_all, cext_ofWord, BEq.rfl, Bool.and_self, if_true, Nat.reduceSub, BitVec.toNat_ofNat, hw]
theorem pbara h a : Statement (.pbara h a) := by
  exact round_trip rfl fun hw => by simp (disch := decide) only [Enc.of, decodeFld, decM, Dec.when, Hdr.plain, ex_width, ex_low, ex_high, ex_all, cext_ofWord, BEq.rfl, Bool.and_self, if_true, Nat.reduceSub, BitVec.toNat_ofNat, hw]
theorem pbarw h a : Statement (.pbarw h a) := by
  exact round_trip rfl fun hw => by simp (disch := decide) only [Enc.of, decodeFld, decM, Dec.when, Hdr.plain, ex_width, ex_low, ex_high, ex_all, cext_ofWord, BEq.rfl, Bool.and_self, if_true, Nat.reduceSub, BitVec.toNat_ofNat, hw]
theorem semw h a b : Statement (.semw h a b) := by
  exact round_trip rfl fun hw => by simp (disch := decide) only [Enc.of, decodeFld, decM, Dec.when, Hdr.plain, ex_width, ex_low, ex_high, ex_all, cext_ofWord, BEq.rfl, Bool.and_self, if_true, Nat.reduceSub, BitVec.toNat_ofNat, hw]
theorem sems h a b g : Statement (.sems h a b g) := by
  exact round_trip rfl fun hw => by simp (disch := decide) only [Enc.of, decodeFld, decM, Dec.when, Hdr.plain, ex_width, ex_low, ex_high, ex_all, cext_ofWord, BEq.rfl, Bool.and_self, if_true, Nat.reduceSub, BitVec.toNat_ofNat, hw]
theorem send h a b : Statement (.send h a b) := by
  exact round_trip rfl fun hw => by simp (disch := decide) only [Enc.of, decodeFld, decM, Dec.when, Hdr.plain, ex_width, ex_low, ex_high, ex_all, cext_ofWord, BEq.rfl, Bool.and_self, if_true, Nat.reduceSub, BitVec.toNat_ofNat, hw]
theorem cwwaitSent h a b : Statement (.cwwaitSent h a b) := by
  exact round_trip rfl fun hw => by simp (disch := decide) only [Enc.of, decodeFld, decM, Dec.when, Hdr.plain, ex_width, ex_low, ex_high, ex_all, cext_ofWord, BEq.rfl, Bool.and_self, if_true, Nat.reduceSub, BitVec.toNat_ofNat, hw] <;> simp [hw]
theorem cwwaitArr h a b : Statement (.cwwaitArr h a b) := by
  exact round_trip rfl fun hw => by simp (disch := decide) only [Enc.of, decodeFld, decM, Dec.when, Hdr.plain, ex_width, ex_low, ex_high, ex_all, cext_ofWord, BEq.rfl, Bool.and_self, if_true, Nat.reduceSub, BitVec.toNat_ofNat, hw] <;> simp [hw]
theorem pbinv h a : Statement (.pbinv h a) := by
  exact round_trip rfl fun hw => by simp (disch := decide) only [Enc.of, decodeFld, decM, Dec.when, Hdr.plain, ex_width, ex_low, ex_high, ex_all, cext_ofWord, BEq.rfl, Bool.and_self, if_true, Nat.reduceSub, BitVec.toNat_ofNat, hw] <;> simp [hw]
theorem pbinvAll h : Statement (.pbinvAll h) := by
  exact round_trip rfl fun hw => by simp (disch := decide) only [Enc.of, decodeFld, decM, Dec.when, Hdr.plain, ex_width, ex_low, ex_high, ex_all, cext_ofWord, BEq.rfl, Bool.and_self, if_true, Nat.reduceSub, BitVec.toNat_ofNat, hw] <;> simp [hw]
theorem ldb h d a i : Statement (.ldb h d a i) := by
  exact round_trip rfl fun hw => by simp (disch := decide) only [Enc.of, decodeFld, decM, Dec.when, Hdr.plain, ex_width, ex_low, ex_high, ex_all, cext_ofWord, BEq.rfl, Bool.and_self, if_true, Nat.reduceSub, BitVec.toNat_ofNat, hw]
theorem ldbu h d a i : Statement (.ldbu h d a i) := by
  exact round_trip rfl fun hw => by simp (disch := decide) only [Enc.of, decodeFld, decM, Dec.when, Hdr.plain, ex_width, ex_low, ex_high, ex_all, cext_ofWord, BEq.rfl, Bool.and_self, if_true, Nat.reduceSub, BitVec.toNat_ofNat, hw]
theorem ldh h d a i : Statement (.ldh h d a i) := by
  exact round_trip rfl fun hw => by simp (disch := decide) only [Enc.of, decodeFld, decM, Dec.when, Hdr.plain, ex_width, ex_low, ex_high, ex_all, cext_ofWord, BEq.rfl, Bool.and_self, if_true, Nat.reduceSub, BitVec.toNat_ofNat, hw]
theorem ldhu h d a i : Statement (.ldhu h d a i) := by
  exact round_trip rfl fun hw => by simp (disch := decide) only [Enc.of, decodeFld, decM, Dec.when, Hdr.plain, ex_width, ex_low, ex_high, ex_all, cext_ofWord, BEq.rfl, Bool.and_self, if_true, Nat.reduceSub, BitVec.toNat_ofNat, hw]
theorem ldw h d a i : Statement (.ldw h d a i) := by
  exact round_trip rfl fun hw => by simp (disch := decide) only [Enc.of, decodeFld, decM, Dec.when, Hdr.plain, ex_width, ex_low, ex_high, ex_all, cext_ofWord, BEq.rfl, Bool.and_self, if_true, Nat.reduceSub, BitVec.toNat_ofNat, hw]
theorem ldwu h d a i : Statement (.ldwu h d a i) := by
  exact round_trip rfl fun hw => by simp (disch := decide) only [Enc.of, decodeFld, decM, Dec.when, Hdr.plain, ex_width, ex_low, ex_high, ex_all, cext_ofWord, BEq.rfl, Bool.and_self, if_true, Nat.reduceSub, BitVec.toNat_ofNat, hw]
theorem ldd h d a i : Statement (.ldd h d a i) := by
  exact round_trip rfl fun hw => by simp (disch := decide) only [Enc.of, decodeFld, decM, Dec.when, Hdr.plain, ex_width, ex_low, ex_high, ex_all, cext_ofWord, BEq.rfl, Bool.and_self, if_true, Nat.reduceSub, BitVec.toNat_ofNat, hw]
theorem stb h d a i : Statement (.stb h d a i) := by
  exact round_trip rfl fun hw => by simp (disch := decide) only [Enc.of, decodeFld, decM, Dec.when, Hdr.plain, ex_width, ex_low, ex_high, ex_all, cext_ofWord, BEq.rfl, Bool.and_self, if_true, Nat.reduceSub, BitVec.toNat_ofNat, hw]
theorem sth h d a i : Statement (.sth h d a i) := by
  exact round_trip rfl fun hw => by simp (disch := decide) only [Enc.of, decodeFld, decM, Dec.when, Hdr.plain, ex_width, ex_low, ex_high, ex_all, cext_ofWord, BEq.rfl, Bool.and_self, if_true, Nat.reduceSub, BitVec.toNat_ofNat, hw]
theorem stw h d a i : Statement (.stw h d a i) := by
  exact round_trip rfl fun hw => by simp (disch := decide) only [Enc.of, decodeFld, decM, Dec.when, Hdr.plain, ex_width, ex_low, ex_high, ex_all, cext_ofWord, BEq.rfl, Bool.and_self, if_true, Nat.reduceSub, BitVec.toNat_ofNat, hw]
theorem std h d a i : Statement (.std h d a i) := by
  exact round_trip rfl fun hw => by simp (disch := decide) only [Enc.of, decodeFld, decM, Dec.when, Hdr.plain, ex_width, ex_low, ex_high, ex_all, cext_ofWord, BEq.rfl, Bool.and_self, if_true, Nat.reduceSub, BitVec.toNat_ofNat, hw]
theorem bari h a i : Statement (.bari h a i) := by
  exact round_trip rfl fun hw => by simp (disch := decide) only [Enc.of, decodeFld, decM, Dec.when, Hdr.plain, ex_width, ex_low, ex_high, ex_all, cext_ofWord, BEq.rfl, Bool.and_self, if_true, Nat.reduceSub, BitVec.toNat_ofNat, hw]
theorem cpy h a x : Statement (.cpy h a x) := by
  exact round_trip rfl fun hw => by simp (disch := decide) only [Enc.of, decodeFld, decM, Dec.when, Hdr.plain, ex_width, ex_low, ex_high, ex_all, cext_ofWord, BEq.rfl, Bool.and_self, if_true, Nat.reduceSub, BitVec.toNat_ofNat, hw]
theorem cpyt h a b x : Statement (.cpyt h a b x) := by
  exact round_trip rfl fun hw => by simp (disch := decide) only [Enc.of, decodeFld, decM, Dec.when, Hdr.plain, ex_width, ex_low, ex_high, ex_all, cext_ofWord, BEq.rfl, Bool.and_self, if_true, Nat.reduceSub, BitVec.toNat_ofNat, hw]
theorem cacc h a x op ty : Statement (.cacc h a x op ty) := by
  exact round_trip rfl fun hw => by simp (disch := decide) only [Enc.of, decodeFld, decM, Dec.when, Hdr.plain, ex_width, ex_low, ex_high, ex_all, cext_ofWord, BEq.rfl, Bool.and_self, if_true, Nat.reduceSub, BitVec.toNat_ofNat, hw]
theorem caccf h a x op ty : Statement (.caccf h a x op ty) := by
  exact round_trip rfl fun hw => by simp (disch := decide) only [Enc.of, decodeFld, decM, Dec.when, Hdr.plain, ex_width, ex_low, ex_high, ex_all, cext_ofWord, BEq.rfl, Bool.and_self, if_true, Nat.reduceSub, BitVec.toNat_ofNat, hw]
theorem cswp h d a b x sz sp : Statement (.cswp h d a b x sz sp) := by
  exact round_trip rfl fun hw => by simp (disch := decide) only [Enc.of, decodeFld, decM, Dec.when, Hdr.plain, ex_width, ex_low, ex_high, ex_all, cext_ofWord, BEq.rfl, Bool.and_self, if_true, Nat.reduceSub, BitVec.toNat_ofNat, hw]
theorem ccas h d a b x sz sp : Statement (.ccas h d a b x sz sp) := by
  exact round_trip rfl fun hw => by simp (disch := decide) only [Enc.of, decodeFld, decM, Dec.when, Hdr.plain, ex_width, ex_low, ex_high, ex_all, cext_ofWord, BEq.rfl, Bool.and_self, if_true, Nat.reduceSub, BitVec.toNat_ofNat, hw]
theorem cpsm h a x set : Statement (.cpsm h a x set) := by
  exact round_trip rfl fun hw => by simp (disch := decide) only [Enc.of, decodeFld, decM, Dec.when, Hdr.plain, ex_width, ex_low, ex_high, ex_all, cext_ofWord, BEq.rfl, Bool.and_self, if_true, Nat.reduceSub, BitVec.toNat_ofNat, hw]
theorem cwalk h a b x qi qv vsz : Statement (.cwalk h a b x qi qv vsz) := by
  exact round_trip rfl fun hw => by simp (disch := decide) only [Enc.of, decodeFld, decM, Dec.when, Hdr.plain, ex_width, ex_low, ex_high, ex_all, cext_ofWord, BEq.rfl, Bool.and_self, if_true, Nat.reduceSub, BitVec.toNat_ofNat, hw]
theorem cgath h a x : Statement (.cgath h a x) := by
  exact round_trip rfl fun hw => by simp (disch := decide) only [Enc.of, decodeFld, decM, Dec.when, Hdr.plain, ex_width, ex_low, ex_high, ex_all, cext_ofWord, BEq.rfl, Bool.and_self, if_true, Nat.reduceSub, BitVec.toNat_ofNat, hw]
theorem cscat h a x : Statement (.cscat h a x) := by
  exact round_trip rfl fun hw => by simp (disch := decide) only [Enc.of, decodeFld, decM, Dec.when, Hdr.plain, ex_width, ex_low, ex_high, ex_all, cext_ofWord, BEq.rfl, Bool.and_self, if_true, Nat.reduceSub, BitVec.toNat_ofNat, hw]
theorem cput h a x pc : Statement (.cput h a x pc) := by
  exact round_trip rfl fun hw => by simp (disch := decide) only [Enc.of, decodeFld, decM, Dec.when, Hdr.plain, ex_width, ex_low, ex_high, ex_all, cext_ofWord, BEq.rfl, Bool.and_self, if_true, Nat.reduceSub, BitVec.toNat_ofNat, hw]
theorem hscan h a x : Statement (.hscan h a x) := by
  exact round_trip rfl fun hw => by simp (disch := decide) only [Enc.of, decodeFld, decM, Dec.when, Hdr.plain, ex_width, ex_low, ex_high, ex_all, cext_ofWord, BEq.rfl, Bool.and_self, if_true, Nat.reduceSub, BitVec.toNat_ofNat, hw]
theorem hgath h a x : Statement (.hgath h a x) := by
  exact round_trip rfl fun hw => by simp (disch := decide) only [Enc.of, decodeFld, decM, Dec.when, Hdr.plain, ex_width, ex_low, ex_high, ex_all, cext_ofWord, BEq.rfl, Bool.and_self, if_true, Nat.reduceSub, BitVec.toNat_ofNat, hw]
theorem hred h a x : Statement (.hred h a x) := by
  exact round_trip rfl fun hw => by simp (disch := decide) only [Enc.of, decodeFld, decM, Dec.when, Hdr.plain, ex_width, ex_low, ex_high, ex_all, cext_ofWord, BEq.rfl, Bool.and_self, if_true, Nat.reduceSub, BitVec.toNat_ofNat, hw]
theorem hcvt h a x : Statement (.hcvt h a x) := by
  exact round_trip rfl fun hw => by simp (disch := decide) only [Enc.of, decodeFld, decM, Dec.when, Hdr.plain, ex_width, ex_low, ex_high, ex_all, cext_ofWord, BEq.rfl, Bool.and_self, if_true, Nat.reduceSub, BitVec.toNat_ofNat, hw]
theorem vadd h d a b k f : Statement (.vadd h d a b k f) := by
  exact round_trip rfl fun hw => by simp (disch := decide) only [Enc.of, decodeFld, decV, Dec.when, Hdr.plain, ex_width, ex_low, ex_high, ex_all, cext_ofWord, BEq.rfl, Bool.and_self, if_true, Nat.reduceSub, BitVec.toNat_ofNat, hw]
theorem vsub h d a b k f : Statement (.vsub h d a b k f) := by
  exact round_trip rfl fun hw => by simp (disch := decide) only [Enc.of, decodeFld, decV, Dec.when, Hdr.plain, ex_width, ex_low, ex_high, ex_all, cext_ofWord, BEq.rfl, Bool.and_self, if_true, Nat.reduceSub, BitVec.toNat_ofNat, hw]
theorem vmul h d a b k f : Statement (.vmul h d a b k f) := by
  exact round_trip rfl fun hw => by simp (disch := decide) only [Enc.of, decodeFld, decV, Dec.when, Hdr.plain, ex_width, ex_low, ex_high, ex_all, cext_ofWord, BEq.rfl, Bool.and_self, if_true, Nat.reduceSub, BitVec.toNat_ofNat, hw]
theorem vfma h d a b k f : Statement (.vfma h d a b k f) := by
  exact round_trip rfl fun hw => by simp (disch := decide) only [Enc.of, decodeFld, decV, Dec.when, Hdr.plain, ex_width, ex_low, ex_high, ex_all, cext_ofWord, BEq.rfl, Bool.and_self, if_true, Nat.reduceSub, BitVec.toNat_ofNat, hw]
theorem vfms h d a b k f : Statement (.vfms h d a b k f) := by
  exact round_trip rfl fun hw => by simp (disch := decide) only [Enc.of, decodeFld, decV, Dec.when, Hdr.plain, ex_width, ex_low, ex_high, ex_all, cext_ofWord, BEq.rfl, Bool.and_self, if_true, Nat.reduceSub, BitVec.toNat_ofNat, hw]
theorem vmin h d a b k f : Statement (.vmin h d a b k f) := by
  exact round_trip rfl fun hw => by simp (disch := decide) only [Enc.of, decodeFld, decV, Dec.when, Hdr.plain, ex_width, ex_low, ex_high, ex_all, cext_ofWord, BEq.rfl, Bool.and_self, if_true, Nat.reduceSub, BitVec.toNat_ofNat, hw]
theorem vmax h d a b k f : Statement (.vmax h d a b k f) := by
  exact round_trip rfl fun hw => by simp (disch := decide) only [Enc.of, decodeFld, decV, Dec.when, Hdr.plain, ex_width, ex_low, ex_high, ex_all, cext_ofWord, BEq.rfl, Bool.and_self, if_true, Nat.reduceSub, BitVec.toNat_ofNat, hw]
theorem vabs h d a r k f : Statement (.vabs h d a r k f) := by
  exact round_trip rfl fun hw => by simp (disch := decide) only [Enc.of, decodeFld, decV, Dec.when, Hdr.plain, ex_width, ex_low, ex_high, ex_all, cext_ofWord, BEq.rfl, Bool.and_self, if_true, Nat.reduceSub, BitVec.toNat_ofNat, hw]
theorem vneg h d a r k f : Statement (.vneg h d a r k f) := by
  exact round_trip rfl fun hw => by simp (disch := decide) only [Enc.of, decodeFld, decV, Dec.when, Hdr.plain, ex_width, ex_low, ex_high, ex_all, cext_ofWord, BEq.rfl, Bool.and_self, if_true, Nat.reduceSub, BitVec.toNat_ofNat, hw]
theorem vclamp h d a b k f : Statement (.vclamp h d a b k f) := by
  exact round_trip rfl fun hw => by simp (disch := decide) only [Enc.of, decodeFld, decV, Dec.when, Hdr.plain, ex_width, ex_low, ex_high, ex_all, cext_ofWord, BEq.rfl, Bool.and_self, if_true, Nat.reduceSub, BitVec.toNat_ofNat, hw]
theorem vcmp h f v a b c : Statement (.vcmp h f v a b c) := by
  exact round_trip rfl fun hw => by simp (disch := decide) only [Enc.of, decodeFld, decV, Dec.when, Hdr.plain, ex_width, ex_low, ex_high, ex_all, cext_ofWord, BEq.rfl, Bool.and_self, if_true, Nat.reduceSub, BitVec.toNat_ofNat, hw]
theorem vsel h d a b s : Statement (.vsel h d a b s) := by
  exact round_trip rfl fun hw => by simp (disch := decide) only [Enc.of, decodeFld, decV, Dec.when, Hdr.plain, ex_width, ex_low, ex_high, ex_all, cext_ofWord, BEq.rfl, Bool.and_self, if_true, Nat.reduceSub, BitVec.toNat_ofNat, hw]
theorem vcvt h d a c k m : Statement (.vcvt h d a c k m) := by
  exact round_trip rfl fun hw => by simp (disch := decide) only [Enc.of, decodeFld, decV, Dec.when, Hdr.plain, ex_width, ex_low, ex_high, ex_all, cext_ofWord, BEq.rfl, Bool.and_self, if_true, Nat.reduceSub, BitVec.toNat_ofNat, hw]
theorem vqnt h a b f : Statement (.vqnt h a b f) := by
  exact round_trip rfl fun hw => by simp (disch := decide) only [Enc.of, decodeFld, decV, Dec.when, Hdr.plain, ex_width, ex_low, ex_high, ex_all, cext_ofWord, BEq.rfl, Bool.and_self, if_true, Nat.reduceSub, BitVec.toNat_ofNat, hw]
theorem vdqnt h a b f : Statement (.vdqnt h a b f) := by
  exact round_trip rfl fun hw => by simp (disch := decide) only [Enc.of, decodeFld, decV, Dec.when, Hdr.plain, ex_width, ex_low, ex_high, ex_all, cext_ofWord, BEq.rfl, Bool.and_self, if_true, Nat.reduceSub, BitVec.toNat_ofNat, hw]
theorem vperm h d a b k o : Statement (.vperm h d a b k o) := by
  exact round_trip rfl fun hw => by simp (disch := decide) only [Enc.of, decodeFld, decV, Dec.when, Hdr.plain, ex_width, ex_low, ex_high, ex_all, cext_ofWord, BEq.rfl, Bool.and_self, if_true, Nat.reduceSub, BitVec.toNat_ofNat, hw]
theorem viadd h d a b k t : Statement (.viadd h d a b k t) := by
  exact round_trip rfl fun hw => by simp (disch := decide) only [Enc.of, decodeFld, decV, Dec.when, Hdr.plain, ex_width, ex_low, ex_high, ex_all, cext_ofWord, BEq.rfl, Bool.and_self, if_true, Nat.reduceSub, BitVec.toNat_ofNat, hw]
theorem visub h d a b k t : Statement (.visub h d a b k t) := by
  exact round_trip rfl fun hw => by simp (disch := decide) only [Enc.of, decodeFld, decV, Dec.when, Hdr.plain, ex_width, ex_low, ex_high, ex_all, cext_ofWord, BEq.rfl, Bool.and_self, if_true, Nat.reduceSub, BitVec.toNat_ofNat, hw]
theorem vimul h d a b k t : Statement (.vimul h d a b k t) := by
  exact round_trip rfl fun hw => by simp (disch := decide) only [Enc.of, decodeFld, decV, Dec.when, Hdr.plain, ex_width, ex_low, ex_high, ex_all, cext_ofWord, BEq.rfl, Bool.and_self, if_true, Nat.reduceSub, BitVec.toNat_ofNat, hw]
theorem vimac8 h d a b k s u : Statement (.vimac8 h d a b k s u) := by
  exact round_trip rfl fun hw => by simp (disch := decide) only [Enc.of, decodeFld, decV, Dec.when, Hdr.plain, ex_width, ex_low, ex_high, ex_all, cext_ofWord, BEq.rfl, Bool.and_self, if_true, Nat.reduceSub, BitVec.toNat_ofNat, hw]
theorem vimin h d a b k t : Statement (.vimin h d a b k t) := by
  exact round_trip rfl fun hw => by simp (disch := decide) only [Enc.of, decodeFld, decV, Dec.when, Hdr.plain, ex_width, ex_low, ex_high, ex_all, cext_ofWord, BEq.rfl, Bool.and_self, if_true, Nat.reduceSub, BitVec.toNat_ofNat, hw]
theorem vimax h d a b k t : Statement (.vimax h d a b k t) := by
  exact round_trip rfl fun hw => by simp (disch := decide) only [Enc.of, decodeFld, decV, Dec.when, Hdr.plain, ex_width, ex_low, ex_high, ex_all, cext_ofWord, BEq.rfl, Bool.and_self, if_true, Nat.reduceSub, BitVec.toNat_ofNat, hw]
theorem viclamp h d a b k t : Statement (.viclamp h d a b k t) := by
  exact round_trip rfl fun hw => by simp (disch := decide) only [Enc.of, decodeFld, decV, Dec.when, Hdr.plain, ex_width, ex_low, ex_high, ex_all, cext_ofWord, BEq.rfl, Bool.and_self, if_true, Nat.reduceSub, BitVec.toNat_ofNat, hw]
theorem vicmp h t v a b c : Statement (.vicmp h t v a b c) := by
  exact round_trip rfl fun hw => by simp (disch := decide) only [Enc.of, decodeFld, decV, Dec.when, Hdr.plain, ex_width, ex_low, ex_high, ex_all, cext_ofWord, BEq.rfl, Bool.and_self, if_true, Nat.reduceSub, BitVec.toNat_ofNat, hw]
theorem vand h d a b k : Statement (.vand h d a b k) := by
  exact round_trip rfl fun hw => by simp (disch := decide) only [Enc.of, decodeFld, decV, Dec.when, Hdr.plain, ex_width, ex_low, ex_high, ex_all, cext_ofWord, BEq.rfl, Bool.and_self, if_true, Nat.reduceSub, BitVec.toNat_ofNat, hw]
theorem vor h d a b k : Statement (.vor h d a b k) := by
  exact round_trip rfl fun hw => by simp (disch := decide) only [Enc.of, decodeFld, decV, Dec.when, Hdr.plain, ex_width, ex_low, ex_high, ex_all, cext_ofWord, BEq.rfl, Bool.and_self, if_true, Nat.reduceSub, BitVec.toNat_ofNat, hw]
theorem vxor h d a b k : Statement (.vxor h d a b k) := by
  exact round_trip rfl fun hw => by simp (disch := decide) only [Enc.of, decodeFld, decV, Dec.when, Hdr.plain, ex_width, ex_low, ex_high, ex_all, cext_ofWord, BEq.rfl, Bool.and_self, if_true, Nat.reduceSub, BitVec.toNat_ofNat, hw]
theorem vshl h d a b k s : Statement (.vshl h d a b k s) := by
  exact round_trip rfl fun hw => by simp (disch := decide) only [Enc.of, decodeFld, decV, Dec.when, Hdr.plain, ex_width, ex_low, ex_high, ex_all, cext_ofWord, BEq.rfl, Bool.and_self, if_true, Nat.reduceSub, BitVec.toNat_ofNat, hw]
theorem vshr h d a b k s : Statement (.vshr h d a b k s) := by
  exact round_trip rfl fun hw => by simp (disch := decide) only [Enc.of, decodeFld, decV, Dec.when, Hdr.plain, ex_width, ex_low, ex_high, ex_all, cext_ofWord, BEq.rfl, Bool.and_self, if_true, Nat.reduceSub, BitVec.toNat_ofNat, hw]
theorem vsra h d a b k s : Statement (.vsra h d a b k s) := by
  exact round_trip rfl fun hw => by simp (disch := decide) only [Enc.of, decodeFld, decV, Dec.when, Hdr.plain, ex_width, ex_low, ex_high, ex_all, cext_ofWord, BEq.rfl, Bool.and_self, if_true, Nat.reduceSub, BitVec.toNat_ofNat, hw]
theorem vrshr h d a b k r : Statement (.vrshr h d a b k r) := by
  exact round_trip rfl fun hw => by simp (disch := decide) only [Enc.of, decodeFld, decV, Dec.when, Hdr.plain, ex_width, ex_low, ex_high, ex_all, cext_ofWord, BEq.rfl, Bool.and_self, if_true, Nat.reduceSub, BitVec.toNat_ofNat, hw]
theorem vmov h d a r k : Statement (.vmov h d a r k) := by
  exact round_trip rfl fun hw => by simp (disch := decide) only [Enc.of, decodeFld, decV, Dec.when, Hdr.plain, ex_width, ex_low, ex_high, ex_all, cext_ofWord, BEq.rfl, Bool.and_self, if_true, Nat.reduceSub, BitVec.toNat_ofNat, hw]
theorem vexp2 h d a r k f : Statement (.vexp2 h d a r k f) := by
  exact round_trip rfl fun hw => by simp (disch := decide) only [Enc.of, decodeFld, decV, Dec.when, Hdr.plain, ex_width, ex_low, ex_high, ex_all, cext_ofWord, BEq.rfl, Bool.and_self, if_true, Nat.reduceSub, BitVec.toNat_ofNat, hw]
theorem vlog2 h d a r k f : Statement (.vlog2 h d a r k f) := by
  exact round_trip rfl fun hw => by simp (disch := decide) only [Enc.of, decodeFld, decV, Dec.when, Hdr.plain, ex_width, ex_low, ex_high, ex_all, cext_ofWord, BEq.rfl, Bool.and_self, if_true, Nat.reduceSub, BitVec.toNat_ofNat, hw]
theorem vexp h d a r k f : Statement (.vexp h d a r k f) := by
  exact round_trip rfl fun hw => by simp (disch := decide) only [Enc.of, decodeFld, decV, Dec.when, Hdr.plain, ex_width, ex_low, ex_high, ex_all, cext_ofWord, BEq.rfl, Bool.and_self, if_true, Nat.reduceSub, BitVec.toNat_ofNat, hw]
theorem vlog h d a r k f : Statement (.vlog h d a r k f) := by
  exact round_trip rfl fun hw => by simp (disch := decide) only [Enc.of, decodeFld, decV, Dec.when, Hdr.plain, ex_width, ex_low, ex_high, ex_all, cext_ofWord, BEq.rfl, Bool.and_self, if_true, Nat.reduceSub, BitVec.toNat_ofNat, hw]
theorem vrsqrt h d a r k f : Statement (.vrsqrt h d a r k f) := by
  exact round_trip rfl fun hw => by simp (disch := decide) only [Enc.of, decodeFld, decV, Dec.when, Hdr.plain, ex_width, ex_low, ex_high, ex_all, cext_ofWord, BEq.rfl, Bool.and_self, if_true, Nat.reduceSub, BitVec.toNat_ofNat, hw]
theorem vrcp h d a r k f : Statement (.vrcp h d a r k f) := by
  exact round_trip rfl fun hw => by simp (disch := decide) only [Enc.of, decodeFld, decV, Dec.when, Hdr.plain, ex_width, ex_low, ex_high, ex_all, cext_ofWord, BEq.rfl, Bool.and_self, if_true, Nat.reduceSub, BitVec.toNat_ofNat, hw]
theorem vsqrt h d a r k f : Statement (.vsqrt h d a r k f) := by
  exact round_trip rfl fun hw => by simp (disch := decide) only [Enc.of, decodeFld, decV, Dec.when, Hdr.plain, ex_width, ex_low, ex_high, ex_all, cext_ofWord, BEq.rfl, Bool.and_self, if_true, Nat.reduceSub, BitVec.toNat_ofNat, hw]
theorem vtanh h d a r k f : Statement (.vtanh h d a r k f) := by
  exact round_trip rfl fun hw => by simp (disch := decide) only [Enc.of, decodeFld, decV, Dec.when, Hdr.plain, ex_width, ex_low, ex_high, ex_all, cext_ofWord, BEq.rfl, Bool.and_self, if_true, Nat.reduceSub, BitVec.toNat_ofNat, hw]
theorem vsigm h d a r k f : Statement (.vsigm h d a r k f) := by
  exact round_trip rfl fun hw => by simp (disch := decide) only [Enc.of, decodeFld, decV, Dec.when, Hdr.plain, ex_width, ex_low, ex_high, ex_all, cext_ofWord, BEq.rfl, Bool.and_self, if_true, Nat.reduceSub, BitVec.toNat_ofNat, hw]
theorem vrotr h d a k s : Statement (.vrotr h d a k s) := by
  exact round_trip rfl fun hw => by simp (disch := decide) only [Enc.of, decodeFld, decV, Dec.when, Hdr.plain, ex_width, ex_low, ex_high, ex_all, cext_ofWord, BEq.rfl, Bool.and_self, if_true, Nat.reduceSub, BitVec.toNat_ofNat, hw]
theorem vrotc h d a k s : Statement (.vrotc h d a k s) := by
  exact round_trip rfl fun hw => by simp (disch := decide) only [Enc.of, decodeFld, decV, Dec.when, Hdr.plain, ex_width, ex_low, ex_high, ex_all, cext_ofWord, BEq.rfl, Bool.and_self, if_true, Nat.reduceSub, BitVec.toNat_ofNat, hw]
theorem vbcr h d a k s : Statement (.vbcr h d a k s) := by
  exact round_trip rfl fun hw => by simp (disch := decide) only [Enc.of, decodeFld, decV, Dec.when, Hdr.plain, ex_width, ex_low, ex_high, ex_all, cext_ofWord, BEq.rfl, Bool.and_self, if_true, Nat.reduceSub, BitVec.toNat_ofNat, hw]
theorem vbcc h d a k s : Statement (.vbcc h d a k s) := by
  exact round_trip rfl fun hw => by simp (disch := decide) only [Enc.of, decodeFld, decV, Dec.when, Hdr.plain, ex_width, ex_low, ex_high, ex_all, cext_ofWord, BEq.rfl, Bool.and_self, if_true, Nat.reduceSub, BitVec.toNat_ofNat, hw]
theorem vredr h d a c t o : Statement (.vredr h d a c t o) := by
  exact round_trip rfl fun hw => by simp (disch := decide) only [Enc.of, decodeFld, decV, Dec.when, Hdr.plain, ex_width, ex_low, ex_high, ex_all, cext_ofWord, BEq.rfl, Bool.and_self, if_true, Nat.reduceSub, BitVec.toNat_ofNat, hw]
theorem vredc h d a c t o : Statement (.vredc h d a c t o) := by
  exact round_trip rfl fun hw => by simp (disch := decide) only [Enc.of, decodeFld, decV, Dec.when, Hdr.plain, ex_width, ex_low, ex_high, ex_all, cext_ofWord, BEq.rfl, Bool.and_self, if_true, Nat.reduceSub, BitVec.toNat_ofNat, hw]
theorem vmand h d a b : Statement (.vmand h d a b) := by
  exact round_trip rfl fun hw => by simp (disch := decide) only [Enc.of, decodeFld, decV, Dec.when, Hdr.plain, ex_width, ex_low, ex_high, ex_all, cext_ofWord, BEq.rfl, Bool.and_self, if_true, Nat.reduceSub, BitVec.toNat_ofNat, hw]
theorem vmor h d a b : Statement (.vmor h d a b) := by
  exact round_trip rfl fun hw => by simp (disch := decide) only [Enc.of, decodeFld, decV, Dec.when, Hdr.plain, ex_width, ex_low, ex_high, ex_all, cext_ofWord, BEq.rfl, Bool.and_self, if_true, Nat.reduceSub, BitVec.toNat_ofNat, hw]
theorem vmxor h d a b : Statement (.vmxor h d a b) := by
  exact round_trip rfl fun hw => by simp (disch := decide) only [Enc.of, decodeFld, decV, Dec.when, Hdr.plain, ex_width, ex_low, ex_high, ex_all, cext_ofWord, BEq.rfl, Bool.and_self, if_true, Nat.reduceSub, BitVec.toNat_ofNat, hw]
theorem vmandn h d a b : Statement (.vmandn h d a b) := by
  exact round_trip rfl fun hw => by simp (disch := decide) only [Enc.of, decodeFld, decV, Dec.when, Hdr.plain, ex_width, ex_low, ex_high, ex_all, cext_ofWord, BEq.rfl, Bool.and_self, if_true, Nat.reduceSub, BitVec.toNat_ofNat, hw]
theorem vmnot h d a : Statement (.vmnot h d a) := by
  exact round_trip rfl fun hw => by simp (disch := decide) only [Enc.of, decodeFld, decV, Dec.when, Hdr.plain, ex_width, ex_low, ex_high, ex_all, cext_ofWord, BEq.rfl, Bool.and_self, if_true, Nat.reduceSub, BitVec.toNat_ofNat, hw]
theorem vmovi h d k i : Statement (.vmovi h d k i) := by
  exact round_trip rfl fun hw => by simp (disch := decide) only [Enc.of, decodeFld, decV, Dec.when, Hdr.plain, ex_width, ex_low, ex_high, ex_all, cext_ofWord, BEq.rfl, Bool.and_self, if_true, Nat.reduceSub, BitVec.toNat_ofNat, hw]
theorem vmovx h d a k row col mode : Statement (.vmovx h d a k row col mode) := by
  exact round_trip rfl fun hw => by simp (disch := decide) only [Enc.of, decodeFld, decV, Dec.when, Hdr.plain, ex_width, ex_low, ex_high, ex_all, cext_ofWord, BEq.rfl, Bool.and_self, if_true, Nat.reduceSub, BitVec.toNat_ofNat, hw]
theorem mgo h : Statement (.mgo h) := by
  exact round_trip rfl fun hw => by simp (disch := decide) only [Enc.of, decodeFld, decE, Dec.when, Hdr.plain, ex_width, ex_low, ex_high, ex_all, cext_ofWord, BEq.rfl, Bool.and_self, if_true, Nat.reduceSub, BitVec.toNat_ofNat, hw]
theorem mpass h a b : Statement (.mpass h a b) := by
  exact round_trip rfl fun hw => by simp (disch := decide) only [Enc.of, decodeFld, decE, Dec.when, Hdr.plain, ex_width, ex_low, ex_high, ex_all, cext_ofWord, BEq.rfl, Bool.and_self, if_true, Nat.reduceSub, BitVec.toNat_ofNat, hw]
theorem mwait h e : Statement (.mwait h e) := by
  exact round_trip rfl fun hw => by simp (disch := decide) only [Enc.of, decodeFld, decE, Dec.when, Hdr.plain, ex_width, ex_low, ex_high, ex_all, cext_ofWord, BEq.rfl, Bool.and_self, if_true, Nat.reduceSub, BitVec.toNat_ofNat, hw]
theorem mzero h a : Statement (.mzero h a) := by
  exact round_trip rfl fun hw => by simp (disch := decide) only [Enc.of, decodeFld, decE, Dec.when, Hdr.plain, ex_width, ex_low, ex_high, ex_all, cext_ofWord, BEq.rfl, Bool.and_self, if_true, Nat.reduceSub, BitVec.toNat_ofNat, hw]
theorem mdrain h a b c f : Statement (.mdrain h a b c f) := by
  exact round_trip rfl fun hw => by simp (disch := decide) only [Enc.of, decodeFld, decE, Dec.when, Hdr.plain, ex_width, ex_low, ex_high, ex_all, cext_ofWord, BEq.rfl, Bool.and_self, if_true, Nat.reduceSub, BitVec.toNat_ofNat, hw]
theorem mdrainq h d a b f : Statement (.mdrainq h d a b f) := by
  exact round_trip rfl fun hw => by simp (disch := decide) only [Enc.of, decodeFld, decE, Dec.when, Hdr.plain, ex_width, ex_low, ex_high, ex_all, cext_ofWord, BEq.rfl, Bool.and_self, if_true, Nat.reduceSub, BitVec.toNat_ofNat, hw]
theorem mstream h b : Statement (.mstream h b) := by
  exact round_trip rfl fun hw => by simp (disch := decide) only [Enc.of, decodeFld, decE, Dec.when, Hdr.plain, ex_width, ex_low, ex_high, ex_all, cext_ofWord, BEq.rfl, Bool.and_self, if_true, Nat.reduceSub, BitVec.toNat_ofNat, hw]
theorem maccld h a b c f : Statement (.maccld h a b c f) := by
  exact round_trip rfl fun hw => by simp (disch := decide) only [Enc.of, decodeFld, decE, Dec.when, Hdr.plain, ex_width, ex_low, ex_high, ex_all, cext_ofWord, BEq.rfl, Bool.and_self, if_true, Nat.reduceSub, BitVec.toNat_ofNat, hw]
theorem mstat h d a c s : Statement (.mstat h d a c s) := by
  exact round_trip rfl fun hw => by simp (disch := decide) only [Enc.of, decodeFld, decE, Dec.when, Hdr.plain, ex_width, ex_low, ex_high, ex_all, cext_ofWord, BEq.rfl, Bool.and_self, if_true, Nat.reduceSub, BitVec.toNat_ofNat, hw]
theorem mspass h a b : Statement (.mspass h a b) := by
  exact round_trip rfl fun hw => by simp (disch := decide) only [Enc.of, decodeFld, decE, Dec.when, Hdr.plain, ex_width, ex_low, ex_high, ex_all, cext_ofWord, BEq.rfl, Bool.and_self, if_true, Nat.reduceSub, BitVec.toNat_ofNat, hw]
theorem msgo h : Statement (.msgo h) := by
  exact round_trip rfl fun hw => by simp (disch := decide) only [Enc.of, decodeFld, decE, Dec.when, Hdr.plain, ex_width, ex_low, ex_high, ex_all, cext_ofWord, BEq.rfl, Bool.and_self, if_true, Nat.reduceSub, BitVec.toNat_ofNat, hw]
theorem mcfg h d half i : Statement (.mcfg h d half i) := by
  exact round_trip rfl fun hw => by simp (disch := decide) only [Enc.of, decodeFld, decE, Dec.when, Hdr.plain, ex_width, ex_low, ex_high, ex_all, cext_ofWord, BEq.rfl, Bool.and_self, if_true, Nat.reduceSub, BitVec.toNat_ofNat, hw]
theorem mcfgr h d a b r2 pair : Statement (.mcfgr h d a b r2 pair) := by
  exact round_trip rfl fun hw => by simp (disch := decide) only [Enc.of, decodeFld, decE, Dec.when, Hdr.plain, ex_width, ex_low, ex_high, ex_all, cext_ofWord, BEq.rfl, Bool.and_self, if_true, Nat.reduceSub, BitVec.toNat_ofNat, hw]
theorem fbind y d a h k : Statement (.fbind y d a h k) := by
  exact round_trip rfl fun hw => by simp (disch := decide) only [Enc.of, decodeFld, decF, Dec.when, Hdr.plain, ex_width, ex_low, ex_high, ex_all, cext_ofWord, BEq.rfl, Bool.and_self, if_true, Nat.reduceSub, BitVec.toNat_ofNat, hw]
theorem funbind y d : Statement (.funbind y d) := by
  exact round_trip rfl fun hw => by simp (disch := decide) only [Enc.of, decodeFld, decF, Dec.when, Hdr.plain, ex_width, ex_low, ex_high, ex_all, cext_ofWord, BEq.rfl, Bool.and_self, if_true, Nat.reduceSub, BitVec.toNat_ofNat, hw]
theorem fstart y a : Statement (.fstart y a) := by
  exact round_trip rfl fun hw => by simp (disch := decide) only [Enc.of, decodeFld, decF, Dec.when, Hdr.plain, ex_width, ex_low, ex_high, ex_all, cext_ofWord, BEq.rfl, Bool.and_self, if_true, Nat.reduceSub, BitVec.toNat_ofNat, hw]
theorem fphase y d : Statement (.fphase y d) := by
  exact round_trip rfl fun hw => by simp (disch := decide) only [Enc.of, decodeFld, decF, Dec.when, Hdr.plain, ex_width, ex_low, ex_high, ex_all, cext_ofWord, BEq.rfl, Bool.and_self, if_true, Nat.reduceSub, BitVec.toNat_ofNat, hw]
theorem fstop y a : Statement (.fstop y a) := by
  exact round_trip rfl fun hw => by simp (disch := decide) only [Enc.of, decodeFld, decF, Dec.when, Hdr.plain, ex_width, ex_low, ex_high, ex_all, cext_ofWord, BEq.rfl, Bool.and_self, if_true, Nat.reduceSub, BitVec.toNat_ofNat, hw]
theorem fhnd y a : Statement (.fhnd y a) := by
  exact round_trip rfl fun hw => by simp (disch := decide) only [Enc.of, decodeFld, decF, Dec.when, Hdr.plain, ex_width, ex_low, ex_high, ex_all, cext_ofWord, BEq.rfl, Bool.and_self, if_true, Nat.reduceSub, BitVec.toNat_ofNat, hw]
theorem finj y a b : Statement (.finj y a b) := by
  exact round_trip rfl fun hw => by simp (disch := decide) only [Enc.of, decodeFld, decF, Dec.when, Hdr.plain, ex_width, ex_low, ex_high, ex_all, cext_ofWord, BEq.rfl, Bool.and_self, if_true, Nat.reduceSub, BitVec.toNat_ofNat, hw]
theorem fstat y d s : Statement (.fstat y d s) := by
  exact round_trip rfl fun hw => by simp (disch := decide) only [Enc.of, decodeFld, decF, Dec.when, Hdr.plain, ex_width, ex_low, ex_high, ex_all, cext_ofWord, BEq.rfl, Bool.and_self, if_true, Nat.reduceSub, BitVec.toNat_ofNat, hw]
theorem fload y a i : Statement (.fload y a i) := by
  exact round_trip rfl fun hw => by simp (disch := decide) only [Enc.of, decodeFld, decF, Dec.when, Hdr.plain, ex_width, ex_low, ex_high, ex_all, cext_ofWord, BEq.rfl, Bool.and_self, if_true, Nat.reduceSub, BitVec.toNat_ofNat, hw]
theorem reset : Statement .reset := fun _ _ h => nomatch h
theorem linkTrainingDone : Statement .linkTrainingDone := fun _ _ h => nomatch h
theorem zeroFillDone : Statement .zeroFillDone := fun _ _ h => nomatch h
theorem clusterPowerUp : Statement .clusterPowerUp := fun _ _ h => nomatch h
theorem dieFence : Statement .dieFence := fun _ _ h => nomatch h
theorem dieFailure : Statement .dieFailure := fun _ _ h => nomatch h
theorem gqdbDoorbell : Statement .gqdbDoorbell := fun _ _ h => nomatch h
theorem graphStart : Statement .graphStart := fun _ _ h => nomatch h
theorem taskNode : Statement .taskNode := fun _ _ h => nomatch h
theorem condNode : Statement .condNode := fun _ _ h => nomatch h
theorem loopNode : Statement .loopNode := fun _ _ h => nomatch h
theorem waitNode : Statement .waitNode := fun _ _ h => nomatch h
theorem signalNode : Statement .signalNode := fun _ _ h => nomatch h
theorem copyNode : Statement .copyNode := fun _ _ h => nomatch h
theorem progNode : Statement .progNode := fun _ _ h => nomatch h
theorem endNode : Statement .endNode := fun _ _ h => nomatch h
theorem graphAbort : Statement .graphAbort := fun _ _ h => nomatch h
theorem agingStep : Statement .agingStep := fun _ _ h => nomatch h
theorem placerPass : Statement .placerPass := fun _ _ h => nomatch h
theorem taskStart : Statement .taskStart := fun _ _ h => nomatch h
theorem powerClassApply : Statement .powerClassApply := fun _ _ h => nomatch h
theorem cmdNop : Statement .cmdNop := fun _ _ h => nomatch h
theorem cmdCopy : Statement .cmdCopy := fun _ _ h => nomatch h
theorem cmdIload : Statement .cmdIload := fun _ _ h => nomatch h
theorem cmdIloadDone : Statement .cmdIloadDone := fun _ _ h => nomatch h
theorem cmdStart : Statement .cmdStart := fun _ _ h => nomatch h
theorem semIncrementArrival : Statement .semIncrementArrival := fun _ _ h => nomatch h
theorem tideHoldRequest : Statement .tideHoldRequest := fun _ _ h => nomatch h
theorem tideHoldReach : Statement .tideHoldReach := fun _ _ h => nomatch h
theorem tideHoldResumeNotice : Statement .tideHoldResumeNotice := fun _ _ h => nomatch h
theorem tideHoldRelease : Statement .tideHoldRelease := fun _ _ h => nomatch h
theorem holdExpired : Statement .holdExpired := fun _ _ h => nomatch h
theorem lineFetch : Statement .lineFetch := fun _ _ h => nomatch h
theorem laneEnqueue : Statement .laneEnqueue := fun _ _ h => nomatch h
theorem instructionComplete : Statement .instructionComplete := fun _ _ h => nomatch h
theorem waitSatisfied : Statement .waitSatisfied := fun _ _ h => nomatch h
theorem moduloBodyFetch : Statement .moduloBodyFetch := fun _ _ h => nomatch h
theorem moduloStep : Statement .moduloStep := fun _ _ h => nomatch h
theorem contextEnd : Statement .contextEnd := fun _ _ h => nomatch h
theorem registerWrite : Statement .registerWrite := fun _ _ h => nomatch h
theorem sperrClear : Statement .sperrClear := fun _ _ h => nomatch h
theorem prbcfgWrite : Statement .prbcfgWrite := fun _ _ h => nomatch h
theorem qcfgWrite : Statement .qcfgWrite := fun _ _ h => nomatch h
theorem msgcfgWrite : Statement .msgcfgWrite := fun _ _ h => nomatch h
theorem xfactRetry : Statement .xfactRetry := fun _ _ h => nomatch h
theorem xfactFail : Statement .xfactFail := fun _ _ h => nomatch h
theorem winWrite : Statement .winWrite := fun _ _ h => nomatch h
theorem stkctlLose : Statement .stkctlLose := fun _ _ h => nomatch h
theorem pcreqGo : Statement .pcreqGo := fun _ _ h => nomatch h
theorem pqctlQreq : Statement .pqctlQreq := fun _ _ h => nomatch h
theorem pqctlSave : Statement .pqctlSave := fun _ _ h => nomatch h
theorem pqctlGate : Statement .pqctlGate := fun _ _ h => nomatch h
theorem pqctlWake : Statement .pqctlWake := fun _ _ h => nomatch h
theorem pwrlimWrite : Statement .pwrlimWrite := fun _ _ h => nomatch h
theorem thermClear : Statement .thermClear := fun _ _ h => nomatch h
theorem almcfgWrite : Statement .almcfgWrite := fun _ _ h => nomatch h
theorem attestRequest : Statement .attestRequest := fun _ _ h => nomatch h
theorem attestReportDone : Statement .attestReportDone := fun _ _ h => nomatch h
theorem probeFillComplete : Statement .probeFillComplete := fun _ _ h => nomatch h
theorem nestActivate : Statement .nestActivate := fun _ _ h => nomatch h
theorem matrixPassStart : Statement .matrixPassStart := fun _ _ h => nomatch h
theorem matrixPassRetire : Statement .matrixPassRetire := fun _ _ h => nomatch h
theorem mstreamRowEmit : Statement .mstreamRowEmit := fun _ _ h => nomatch h
theorem copyComplete : Statement .copyComplete := fun _ _ h => nomatch h
theorem copyErrorComplete : Statement .copyErrorComplete := fun _ _ h => nomatch h
theorem timetableIssue : Statement .timetableIssue := fun _ _ h => nomatch h
theorem accumulateApply : Statement .accumulateApply := fun _ _ h => nomatch h
theorem cwalkSlotFill : Statement .cwalkSlotFill := fun _ _ h => nomatch h
theorem putArrival : Statement .putArrival := fun _ _ h => nomatch h
theorem putAck : Statement .putAck := fun _ _ h => nomatch h
theorem pontoonExec : Statement .pontoonExec := fun _ _ h => nomatch h
theorem chainFerryFlitArrival : Statement .chainFerryFlitArrival := fun _ _ h => nomatch h
theorem sourceRowEmit : Statement .sourceRowEmit := fun _ _ h => nomatch h
theorem sinkRowWrite : Statement .sinkRowWrite := fun _ _ h => nomatch h
theorem accumulateSinkApply : Statement .accumulateSinkApply := fun _ _ h => nomatch h
theorem fabricRecordDeliver : Statement .fabricRecordDeliver := fun _ _ h => nomatch h
theorem fabricRunning : Statement .fabricRunning := fun _ _ h => nomatch h
theorem fabricDrain : Statement .fabricDrain := fun _ _ h => nomatch h
theorem fabricPhaseComplete : Statement .fabricPhaseComplete := fun _ _ h => nomatch h
theorem floadComplete : Statement .floadComplete := fun _ _ h => nomatch h
theorem deviceMemoryRead : Statement .deviceMemoryRead := fun _ _ h => nomatch h
theorem stripeWriteAccept : Statement .stripeWriteAccept := fun _ _ h => nomatch h
theorem partialStripeWrite : Statement .partialStripeWrite := fun _ _ h => nomatch h
theorem parityDeltaApply : Statement .parityDeltaApply := fun _ _ h => nomatch h
theorem fullStripeWrite : Statement .fullStripeWrite := fun _ _ h => nomatch h
theorem reconstructedRead : Statement .reconstructedRead := fun _ _ h => nomatch h
theorem refreshCheckReport : Statement .refreshCheckReport := fun _ _ h => nomatch h
theorem stackLoss : Statement .stackLoss := fun _ _ h => nomatch h
theorem stackEngineStart : Statement .stackEngineStart := fun _ _ h => nomatch h
theorem hCommandComplete : Statement .hCommandComplete := fun _ _ h => nomatch h
theorem ringUpdateArrival : Statement .ringUpdateArrival := fun _ _ h => nomatch h
theorem barrierArrival : Statement .barrierArrival := fun _ _ h => nomatch h
theorem pbarRelease : Statement .pbarRelease := fun _ _ h => nomatch h
theorem messageTake : Statement .messageTake := fun _ _ h => nomatch h
theorem handlerStart : Statement .handlerStart := fun _ _ h => nomatch h
theorem trapEntry : Statement .trapEntry := fun _ _ h => nomatch h
theorem preemptNotice : Statement .preemptNotice := fun _ _ h => nomatch h
theorem victimStopped : Statement .victimStopped := fun _ _ h => nomatch h
theorem partitionEvict : Statement .partitionEvict := fun _ _ h => nomatch h
theorem forcedStop : Statement .forcedStop := fun _ _ h => nomatch h
theorem taskResume : Statement .taskResume := fun _ _ h => nomatch h
theorem taskRerun : Statement .taskRerun := fun _ _ h => nomatch h
theorem linkCrcError : Statement .linkCrcError := fun _ _ h => nomatch h
theorem laneRepairDone : Statement .laneRepairDone := fun _ _ h => nomatch h
theorem linkLockLost : Statement .linkLockLost := fun _ _ h => nomatch h
theorem retrainTryEnd : Statement .retrainTryEnd := fun _ _ h => nomatch h
theorem partRetire : Statement .partRetire := fun _ _ h => nomatch h
theorem hostBar2Write : Statement .hostBar2Write := fun _ _ h => nomatch h
theorem hostBar2Read : Statement .hostBar2Read := fun _ _ h => nomatch h
theorem switchTakeover : Statement .switchTakeover := fun _ _ h => nomatch h
theorem dvfsVoltageRiseDone : Statement .dvfsVoltageRiseDone := fun _ _ h => nomatch h
theorem dvfsFreqSwitchDone : Statement .dvfsFreqSwitchDone := fun _ _ h => nomatch h
theorem dvfsVoltageFallDone : Statement .dvfsVoltageFallDone := fun _ _ h => nomatch h
theorem pcsnapCapture : Statement .pcsnapCapture := fun _ _ h => nomatch h
theorem quiesceDone : Statement .quiesceDone := fun _ _ h => nomatch h
theorem wakeDone : Statement .wakeDone := fun _ _ h => nomatch h
theorem thermHot : Statement .thermHot := fun _ _ h => nomatch h
theorem thermCrit : Statement .thermCrit := fun _ _ h => nomatch h
theorem alarmRaise : Statement .alarmRaise := fun _ _ h => nomatch h
theorem translationWalkDone : Statement .translationWalkDone := fun _ _ h => nomatch h
theorem matrixDrainComplete : Statement .matrixDrainComplete := fun _ _ h => nomatch h
theorem tileMoveComplete : Statement .tileMoveComplete := fun _ _ h => nomatch h
theorem peerLinkDown : Statement .peerLinkDown := fun _ _ h => nomatch h
theorem engineInternalError : Statement .engineInternalError := fun _ _ h => nomatch h

end Sys2Proof.Laws.RoundTrip
end

