-- ==== Sys2Proof/Laws/State.lean ====
section
/-! SUPPORT. The updates of the state: what each leaves in every field, and what the readers of the tables get after
them. -/

set_option Elab.async false

namespace Sys2Proof.Machine

/-! ### setCtx -/

@[simp] theorem setCtx_tb (s : State) (k : Nat) (v : Ctx) : (s.setCtx k v).tb = s.tb := rfl
@[simp] theorem setCtx_mem (s : State) (k : Nat) (v : Ctx) : (s.setCtx k v).mem = s.mem := rfl
@[simp] theorem setCtx_owned (s : State) (k : Nat) (v : Ctx) : (s.setCtx k v).owned = s.owned := rfl
@[simp] theorem setCtx_istore (s : State) (k : Nat) (v : Ctx) : (s.setCtx k v).istore = s.istore := rfl
@[simp] theorem setCtx_ctxs (s : State) (k : Nat) (v : Ctx) : (s.setCtx k v).ctxs = fset s.ctxs k v := rfl
@[simp] theorem setCtx_slots (s : State) (k : Nat) (v : Ctx) : (s.setCtx k v).slots = s.slots := rfl
@[simp] theorem setCtx_banks (s : State) (k : Nat) (v : Ctx) : (s.setCtx k v).banks = s.banks := rfl
@[simp] theorem setCtx_bankUse (s : State) (k : Nat) (v : Ctx) : (s.setCtx k v).bankUse = s.bankUse := rfl
@[simp] theorem setCtx_seqs (s : State) (k : Nat) (v : Ctx) : (s.setCtx k v).seqs = s.seqs := rfl
@[simp] theorem setCtx_swrs (s : State) (k : Nat) (v : Ctx) : (s.setCtx k v).swrs = s.swrs := rfl
@[simp] theorem setCtx_tasks (s : State) (k : Nat) (v : Ctx) : (s.setCtx k v).tasks = s.tasks := rfl
@[simp] theorem setCtx_parts (s : State) (k : Nat) (v : Ctx) : (s.setCtx k v).parts = s.parts := rfl
@[simp] theorem setCtx_pcores (s : State) (k : Nat) (v : Ctx) : (s.setCtx k v).pcores = s.pcores := rfl
@[simp] theorem setCtx_mxs (s : State) (k : Nat) (v : Ctx) : (s.setCtx k v).mxs = s.mxs := rfl
@[simp] theorem setCtx_sports (s : State) (k : Nat) (v : Ctx) : (s.setCtx k v).sports = s.sports := rfl
@[simp] theorem setCtx_fabs (s : State) (k : Nat) (v : Ctx) : (s.setCtx k v).fabs = s.fabs := rfl
@[simp] theorem setCtx_clusters (s : State) (k : Nat) (v : Ctx) : (s.setCtx k v).clusters = s.clusters := rfl
@[simp] theorem setCtx_dies (s : State) (k : Nat) (v : Ctx) : (s.setCtx k v).dies = s.dies := rfl
@[simp] theorem setCtx_memStacks (s : State) (k : Nat) (v : Ctx) : (s.setCtx k v).memStacks = s.memStacks := rfl
@[simp] theorem setCtx_cmds (s : State) (k : Nat) (v : Ctx) : (s.setCtx k v).cmds = s.cmds := rfl
@[simp] theorem setCtx_writes (s : State) (k : Nat) (v : Ctx) : (s.setCtx k v).writes = s.writes := rfl
@[simp] theorem setCtx_syncs (s : State) (k : Nat) (v : Ctx) : (s.setCtx k v).syncs = s.syncs := rfl
@[simp] theorem setCtx_msgs (s : State) (k : Nat) (v : Ctx) : (s.setCtx k v).msgs = s.msgs := rfl
@[simp] theorem setCtx_graphs (s : State) (k : Nat) (v : Ctx) : (s.setCtx k v).graphs = s.graphs := rfl
@[simp] theorem setCtx_nodes (s : State) (k : Nat) (v : Ctx) : (s.setCtx k v).nodes = s.nodes := rfl
@[simp] theorem setCtx_saved (s : State) (k : Nat) (v : Ctx) : (s.setCtx k v).saved = s.saved := rfl
@[simp] theorem setCtx_queues (s : State) (k : Nat) (v : Ctx) : (s.setCtx k v).queues = s.queues := rfl
@[simp] theorem setCtx_ferries (s : State) (k : Nat) (v : Ctx) : (s.setCtx k v).ferries = s.ferries := rfl
@[simp] theorem setCtx_wins (s : State) (k : Nat) (v : Ctx) : (s.setCtx k v).wins = s.wins := rfl
@[simp] theorem setCtx_tlb (s : State) (k : Nat) (v : Ctx) : (s.setCtx k v).tlb = s.tlb := rfl
@[simp] theorem setCtx_nextId (s : State) (k : Nat) (v : Ctx) : (s.setCtx k v).nextId = s.nextId := rfl
@[simp] theorem setCtx_agenda (s : State) (k : Nat) (v : Ctx) : (s.setCtx k v).agenda = s.agenda := rfl
@[simp] theorem setCtx_bootStep (s : State) (k : Nat) (v : Ctx) : (s.setCtx k v).bootStep = s.bootStep := rfl
@[simp] theorem setCtx_bootFail (s : State) (k : Nat) (v : Ctx) : (s.setCtx k v).bootFail = s.bootFail := rfl
@[simp] theorem setCtx_bootPos (s : State) (k : Nat) (v : Ctx) : (s.setCtx k v).bootPos = s.bootPos := rfl
@[simp] theorem setCtx_fwGood (s : State) (k : Nat) (v : Ctx) : (s.setCtx k v).fwGood = s.fwGood := rfl
@[simp] theorem setCtx_mixRec (s : State) (k : Nat) (v : Ctx) : (s.setCtx k v).mixRec = s.mixRec := rfl
@[simp] theorem setCtx_ageEn (s : State) (k : Nat) (v : Ctx) : (s.setCtx k v).ageEn = s.ageEn := rfl
@[simp] theorem setCtx_ageK (s : State) (k : Nat) (v : Ctx) : (s.setCtx k v).ageK = s.ageK := rfl
@[simp] theorem setCtx_ageCap (s : State) (k : Nat) (v : Ctx) : (s.setCtx k v).ageCap = s.ageCap := rfl
@[simp] theorem setCtx_holdLim (s : State) (k : Nat) (v : Ctx) : (s.setCtx k v).holdLim = s.holdLim := rfl
@[simp] theorem setCtx_saveBase (s : State) (k : Nat) (v : Ctx) : (s.setCtx k v).saveBase = s.saveBase := rfl
@[simp] theorem setCtx_saveEn (s : State) (k : Nat) (v : Ctx) : (s.setCtx k v).saveEn = s.saveEn := rfl
@[simp] theorem setCtx_lastQueue (s : State) (k : Nat) (v : Ctx) : (s.setCtx k v).lastQueue = s.lastQueue := rfl
@[simp] theorem setCtx_reserver (s : State) (k : Nat) (v : Ctx) : (s.setCtx k v).reserver = s.reserver := rfl
@[simp] theorem setCtx_placerDue (s : State) (k : Nat) (v : Ctx) : (s.setCtx k v).placerDue = s.placerDue := rfl
@[simp] theorem setCtx_root (s : State) (k : Nat) (v : Ctx) : (s.setCtx k v).root = s.root := rfl
@[simp] theorem setCtx_flogHead (s : State) (k : Nat) (v : Ctx) : (s.setCtx k v).flogHead = s.flogHead := rfl
@[simp] theorem setCtx_msix (s : State) (k : Nat) (v : Ctx) : (s.setCtx k v).msix = s.msix := rfl
@[simp] theorem setCtx_memClass (s : State) (k : Nat) (v : Ctx) : (s.setCtx k v).memClass = s.memClass := rfl
@[simp] theorem setCtx_pwrlim (s : State) (k : Nat) (v : Ctx) : (s.setCtx k v).pwrlim = s.pwrlim := rfl
@[simp] theorem setCtx_nonce (s : State) (k : Nat) (v : Ctx) : (s.setCtx k v).nonce = s.nonce := rfl
@[simp] theorem setCtx_reportDpa (s : State) (k : Nat) (v : Ctx) : (s.setCtx k v).reportDpa = s.reportDpa := rfl
@[simp] theorem setCtx_attestDone (s : State) (k : Nat) (v : Ctx) : (s.setCtx k v).attestDone = s.attestDone := rfl
@[simp] theorem setCtx_attestRefused (s : State) (k : Nat) (v : Ctx) : (s.setCtx k v).attestRefused = s.attestRefused := rfl
@[simp] theorem setCtx_keysErased (s : State) (k : Nat) (v : Ctx) : (s.setCtx k v).keysErased = s.keysErased := rfl
@[simp] theorem setCtx_lastWake (s : State) (k : Nat) (v : Ctx) : (s.setCtx k v).lastWake = s.lastWake := rfl
@[simp] theorem setCtx_almcfg (s : State) (k : Nat) (v : Ctx) : (s.setCtx k v).almcfg = s.almcfg := rfl
@[simp] theorem setCtx_almSet (s : State) (k : Nat) (v : Ctx) : (s.setCtx k v).almSet = s.almSet := rfl
@[simp] theorem setCtx_almfuse (s : State) (k : Nat) (v : Ctx) : (s.setCtx k v).almfuse = s.almfuse := rfl
@[simp] theorem setCtx_dbgLocked (s : State) (k : Nat) (v : Ctx) : (s.setCtx k v).dbgLocked = s.dbgLocked := rfl
@[simp] theorem setCtx_halted (s : State) (k : Nat) (v : Ctx) : (s.setCtx k v).halted = s.halted := rfl
@[simp] theorem setCtx_hostRead (s : State) (k : Nat) (v : Ctx) : (s.setCtx k v).hostRead = s.hostRead := rfl
@[simp] theorem setCtx_free (s : State) (k : Nat) (v : Ctx) : (s.setCtx k v).free = s.free := rfl
@[simp] theorem setCtx_iss (s : State) (k : Nat) (v : Ctx) : (s.setCtx k v).iss = s.iss := rfl
@[simp] theorem setCtx_ev (s : State) (k : Nat) (v : Ctx) : (s.setCtx k v).ev = s.ev := rfl
@[simp] theorem setCtx_clkOf (s : State) (k : Nat) (v : Ctx) : (s.setCtx k v).clkOf = s.clkOf := rfl
@[simp] theorem setCtx_same (s : State) (k : Nat) (v : Ctx) : (s.setCtx k v).ctx k = v := fget_fset_same _ _ _ _
theorem setCtx_ne (s : State) (k : Nat) (v : Ctx) {j : Nat} (h : j ≠ k) : (s.setCtx k v).ctx j = s.ctx j :=
  fget_fset_ne _ _ _ h

/-! ### setTask -/

@[simp] theorem setTask_tb (s : State) (k : Nat) (v : Task) : (s.setTask k v).tb = s.tb := rfl
@[simp] theorem setTask_mem (s : State) (k : Nat) (v : Task) : (s.setTask k v).mem = s.mem := rfl
@[simp] theorem setTask_owned (s : State) (k : Nat) (v : Task) : (s.setTask k v).owned = s.owned := rfl
@[simp] theorem setTask_istore (s : State) (k : Nat) (v : Task) : (s.setTask k v).istore = s.istore := rfl
@[simp] theorem setTask_ctxs (s : State) (k : Nat) (v : Task) : (s.setTask k v).ctxs = s.ctxs := rfl
@[simp] theorem setTask_slots (s : State) (k : Nat) (v : Task) : (s.setTask k v).slots = s.slots := rfl
@[simp] theorem setTask_banks (s : State) (k : Nat) (v : Task) : (s.setTask k v).banks = s.banks := rfl
@[simp] theorem setTask_bankUse (s : State) (k : Nat) (v : Task) : (s.setTask k v).bankUse = s.bankUse := rfl
@[simp] theorem setTask_seqs (s : State) (k : Nat) (v : Task) : (s.setTask k v).seqs = s.seqs := rfl
@[simp] theorem setTask_swrs (s : State) (k : Nat) (v : Task) : (s.setTask k v).swrs = s.swrs := rfl
@[simp] theorem setTask_tasks (s : State) (k : Nat) (v : Task) : (s.setTask k v).tasks = fset s.tasks k v := rfl
@[simp] theorem setTask_parts (s : State) (k : Nat) (v : Task) : (s.setTask k v).parts = s.parts := rfl
@[simp] theorem setTask_pcores (s : State) (k : Nat) (v : Task) : (s.setTask k v).pcores = s.pcores := rfl
@[simp] theorem setTask_mxs (s : State) (k : Nat) (v : Task) : (s.setTask k v).mxs = s.mxs := rfl
@[simp] theorem setTask_sports (s : State) (k : Nat) (v : Task) : (s.setTask k v).sports = s.sports := rfl
@[simp] theorem setTask_fabs (s : State) (k : Nat) (v : Task) : (s.setTask k v).fabs = s.fabs := rfl
@[simp] theorem setTask_clusters (s : State) (k : Nat) (v : Task) : (s.setTask k v).clusters = s.clusters := rfl
@[simp] theorem setTask_dies (s : State) (k : Nat) (v : Task) : (s.setTask k v).dies = s.dies := rfl
@[simp] theorem setTask_memStacks (s : State) (k : Nat) (v : Task) : (s.setTask k v).memStacks = s.memStacks := rfl
@[simp] theorem setTask_cmds (s : State) (k : Nat) (v : Task) : (s.setTask k v).cmds = s.cmds := rfl
@[simp] theorem setTask_writes (s : State) (k : Nat) (v : Task) : (s.setTask k v).writes = s.writes := rfl
@[simp] theorem setTask_syncs (s : State) (k : Nat) (v : Task) : (s.setTask k v).syncs = s.syncs := rfl
@[simp] theorem setTask_msgs (s : State) (k : Nat) (v : Task) : (s.setTask k v).msgs = s.msgs := rfl
@[simp] theorem setTask_graphs (s : State) (k : Nat) (v : Task) : (s.setTask k v).graphs = s.graphs := rfl
@[simp] theorem setTask_nodes (s : State) (k : Nat) (v : Task) : (s.setTask k v).nodes = s.nodes := rfl
@[simp] theorem setTask_saved (s : State) (k : Nat) (v : Task) : (s.setTask k v).saved = s.saved := rfl
@[simp] theorem setTask_queues (s : State) (k : Nat) (v : Task) : (s.setTask k v).queues = s.queues := rfl
@[simp] theorem setTask_ferries (s : State) (k : Nat) (v : Task) : (s.setTask k v).ferries = s.ferries := rfl
@[simp] theorem setTask_wins (s : State) (k : Nat) (v : Task) : (s.setTask k v).wins = s.wins := rfl
@[simp] theorem setTask_tlb (s : State) (k : Nat) (v : Task) : (s.setTask k v).tlb = s.tlb := rfl
@[simp] theorem setTask_nextId (s : State) (k : Nat) (v : Task) : (s.setTask k v).nextId = s.nextId := rfl
@[simp] theorem setTask_agenda (s : State) (k : Nat) (v : Task) : (s.setTask k v).agenda = s.agenda := rfl
@[simp] theorem setTask_bootStep (s : State) (k : Nat) (v : Task) : (s.setTask k v).bootStep = s.bootStep := rfl
@[simp] theorem setTask_bootFail (s : State) (k : Nat) (v : Task) : (s.setTask k v).bootFail = s.bootFail := rfl
@[simp] theorem setTask_bootPos (s : State) (k : Nat) (v : Task) : (s.setTask k v).bootPos = s.bootPos := rfl
@[simp] theorem setTask_fwGood (s : State) (k : Nat) (v : Task) : (s.setTask k v).fwGood = s.fwGood := rfl
@[simp] theorem setTask_mixRec (s : State) (k : Nat) (v : Task) : (s.setTask k v).mixRec = s.mixRec := rfl
@[simp] theorem setTask_ageEn (s : State) (k : Nat) (v : Task) : (s.setTask k v).ageEn = s.ageEn := rfl
@[simp] theorem setTask_ageK (s : State) (k : Nat) (v : Task) : (s.setTask k v).ageK = s.ageK := rfl
@[simp] theorem setTask_ageCap (s : State) (k : Nat) (v : Task) : (s.setTask k v).ageCap = s.ageCap := rfl
@[simp] theorem setTask_holdLim (s : State) (k : Nat) (v : Task) : (s.setTask k v).holdLim = s.holdLim := rfl
@[simp] theorem setTask_saveBase (s : State) (k : Nat) (v : Task) : (s.setTask k v).saveBase = s.saveBase := rfl
@[simp] theorem setTask_saveEn (s : State) (k : Nat) (v : Task) : (s.setTask k v).saveEn = s.saveEn := rfl
@[simp] theorem setTask_lastQueue (s : State) (k : Nat) (v : Task) : (s.setTask k v).lastQueue = s.lastQueue := rfl
@[simp] theorem setTask_reserver (s : State) (k : Nat) (v : Task) : (s.setTask k v).reserver = s.reserver := rfl
@[simp] theorem setTask_placerDue (s : State) (k : Nat) (v : Task) : (s.setTask k v).placerDue = s.placerDue := rfl
@[simp] theorem setTask_root (s : State) (k : Nat) (v : Task) : (s.setTask k v).root = s.root := rfl
@[simp] theorem setTask_flogHead (s : State) (k : Nat) (v : Task) : (s.setTask k v).flogHead = s.flogHead := rfl
@[simp] theorem setTask_msix (s : State) (k : Nat) (v : Task) : (s.setTask k v).msix = s.msix := rfl
@[simp] theorem setTask_memClass (s : State) (k : Nat) (v : Task) : (s.setTask k v).memClass = s.memClass := rfl
@[simp] theorem setTask_pwrlim (s : State) (k : Nat) (v : Task) : (s.setTask k v).pwrlim = s.pwrlim := rfl
@[simp] theorem setTask_nonce (s : State) (k : Nat) (v : Task) : (s.setTask k v).nonce = s.nonce := rfl
@[simp] theorem setTask_reportDpa (s : State) (k : Nat) (v : Task) : (s.setTask k v).reportDpa = s.reportDpa := rfl
@[simp] theorem setTask_attestDone (s : State) (k : Nat) (v : Task) : (s.setTask k v).attestDone = s.attestDone := rfl
@[simp] theorem setTask_attestRefused (s : State) (k : Nat) (v : Task) : (s.setTask k v).attestRefused = s.attestRefused := rfl
@[simp] theorem setTask_keysErased (s : State) (k : Nat) (v : Task) : (s.setTask k v).keysErased = s.keysErased := rfl
@[simp] theorem setTask_lastWake (s : State) (k : Nat) (v : Task) : (s.setTask k v).lastWake = s.lastWake := rfl
@[simp] theorem setTask_almcfg (s : State) (k : Nat) (v : Task) : (s.setTask k v).almcfg = s.almcfg := rfl
@[simp] theorem setTask_almSet (s : State) (k : Nat) (v : Task) : (s.setTask k v).almSet = s.almSet := rfl
@[simp] theorem setTask_almfuse (s : State) (k : Nat) (v : Task) : (s.setTask k v).almfuse = s.almfuse := rfl
@[simp] theorem setTask_dbgLocked (s : State) (k : Nat) (v : Task) : (s.setTask k v).dbgLocked = s.dbgLocked := rfl
@[simp] theorem setTask_halted (s : State) (k : Nat) (v : Task) : (s.setTask k v).halted = s.halted := rfl
@[simp] theorem setTask_hostRead (s : State) (k : Nat) (v : Task) : (s.setTask k v).hostRead = s.hostRead := rfl
@[simp] theorem setTask_free (s : State) (k : Nat) (v : Task) : (s.setTask k v).free = s.free := rfl
@[simp] theorem setTask_iss (s : State) (k : Nat) (v : Task) : (s.setTask k v).iss = s.iss := rfl
@[simp] theorem setTask_ev (s : State) (k : Nat) (v : Task) : (s.setTask k v).ev = s.ev := rfl
@[simp] theorem setTask_clkOf (s : State) (k : Nat) (v : Task) : (s.setTask k v).clkOf = s.clkOf := rfl
@[simp] theorem setTask_same (s : State) (k : Nat) (v : Task) : (s.setTask k v).task k = v := fget_fset_same _ _ _ _
theorem setTask_ne (s : State) (k : Nat) (v : Task) {j : Nat} (h : j ≠ k) : (s.setTask k v).task j = s.task j :=
  fget_fset_ne _ _ _ h

/-! ### setPart -/

@[simp] theorem setPart_tb (s : State) (k : Nat) (v : Part) : (s.setPart k v).tb = s.tb := rfl
@[simp] theorem setPart_mem (s : State) (k : Nat) (v : Part) : (s.setPart k v).mem = s.mem := rfl
@[simp] theorem setPart_owned (s : State) (k : Nat) (v : Part) : (s.setPart k v).owned = s.owned := rfl
@[simp] theorem setPart_istore (s : State) (k : Nat) (v : Part) : (s.setPart k v).istore = s.istore := rfl
@[simp] theorem setPart_ctxs (s : State) (k : Nat) (v : Part) : (s.setPart k v).ctxs = s.ctxs := rfl
@[simp] theorem setPart_slots (s : State) (k : Nat) (v : Part) : (s.setPart k v).slots = s.slots := rfl
@[simp] theorem setPart_banks (s : State) (k : Nat) (v : Part) : (s.setPart k v).banks = s.banks := rfl
@[simp] theorem setPart_bankUse (s : State) (k : Nat) (v : Part) : (s.setPart k v).bankUse = s.bankUse := rfl
@[simp] theorem setPart_seqs (s : State) (k : Nat) (v : Part) : (s.setPart k v).seqs = s.seqs := rfl
@[simp] theorem setPart_swrs (s : State) (k : Nat) (v : Part) : (s.setPart k v).swrs = s.swrs := rfl
@[simp] theorem setPart_tasks (s : State) (k : Nat) (v : Part) : (s.setPart k v).tasks = s.tasks := rfl
@[simp] theorem setPart_parts (s : State) (k : Nat) (v : Part) : (s.setPart k v).parts = fset s.parts k v := rfl
@[simp] theorem setPart_pcores (s : State) (k : Nat) (v : Part) : (s.setPart k v).pcores = s.pcores := rfl
@[simp] theorem setPart_mxs (s : State) (k : Nat) (v : Part) : (s.setPart k v).mxs = s.mxs := rfl
@[simp] theorem setPart_sports (s : State) (k : Nat) (v : Part) : (s.setPart k v).sports = s.sports := rfl
@[simp] theorem setPart_fabs (s : State) (k : Nat) (v : Part) : (s.setPart k v).fabs = s.fabs := rfl
@[simp] theorem setPart_clusters (s : State) (k : Nat) (v : Part) : (s.setPart k v).clusters = s.clusters := rfl
@[simp] theorem setPart_dies (s : State) (k : Nat) (v : Part) : (s.setPart k v).dies = s.dies := rfl
@[simp] theorem setPart_memStacks (s : State) (k : Nat) (v : Part) : (s.setPart k v).memStacks = s.memStacks := rfl
@[simp] theorem setPart_cmds (s : State) (k : Nat) (v : Part) : (s.setPart k v).cmds = s.cmds := rfl
@[simp] theorem setPart_writes (s : State) (k : Nat) (v : Part) : (s.setPart k v).writes = s.writes := rfl
@[simp] theorem setPart_syncs (s : State) (k : Nat) (v : Part) : (s.setPart k v).syncs = s.syncs := rfl
@[simp] theorem setPart_msgs (s : State) (k : Nat) (v : Part) : (s.setPart k v).msgs = s.msgs := rfl
@[simp] theorem setPart_graphs (s : State) (k : Nat) (v : Part) : (s.setPart k v).graphs = s.graphs := rfl
@[simp] theorem setPart_nodes (s : State) (k : Nat) (v : Part) : (s.setPart k v).nodes = s.nodes := rfl
@[simp] theorem setPart_saved (s : State) (k : Nat) (v : Part) : (s.setPart k v).saved = s.saved := rfl
@[simp] theorem setPart_queues (s : State) (k : Nat) (v : Part) : (s.setPart k v).queues = s.queues := rfl
@[simp] theorem setPart_ferries (s : State) (k : Nat) (v : Part) : (s.setPart k v).ferries = s.ferries := rfl
@[simp] theorem setPart_wins (s : State) (k : Nat) (v : Part) : (s.setPart k v).wins = s.wins := rfl
@[simp] theorem setPart_tlb (s : State) (k : Nat) (v : Part) : (s.setPart k v).tlb = s.tlb := rfl
@[simp] theorem setPart_nextId (s : State) (k : Nat) (v : Part) : (s.setPart k v).nextId = s.nextId := rfl
@[simp] theorem setPart_agenda (s : State) (k : Nat) (v : Part) : (s.setPart k v).agenda = s.agenda := rfl
@[simp] theorem setPart_bootStep (s : State) (k : Nat) (v : Part) : (s.setPart k v).bootStep = s.bootStep := rfl
@[simp] theorem setPart_bootFail (s : State) (k : Nat) (v : Part) : (s.setPart k v).bootFail = s.bootFail := rfl
@[simp] theorem setPart_bootPos (s : State) (k : Nat) (v : Part) : (s.setPart k v).bootPos = s.bootPos := rfl
@[simp] theorem setPart_fwGood (s : State) (k : Nat) (v : Part) : (s.setPart k v).fwGood = s.fwGood := rfl
@[simp] theorem setPart_mixRec (s : State) (k : Nat) (v : Part) : (s.setPart k v).mixRec = s.mixRec := rfl
@[simp] theorem setPart_ageEn (s : State) (k : Nat) (v : Part) : (s.setPart k v).ageEn = s.ageEn := rfl
@[simp] theorem setPart_ageK (s : State) (k : Nat) (v : Part) : (s.setPart k v).ageK = s.ageK := rfl
@[simp] theorem setPart_ageCap (s : State) (k : Nat) (v : Part) : (s.setPart k v).ageCap = s.ageCap := rfl
@[simp] theorem setPart_holdLim (s : State) (k : Nat) (v : Part) : (s.setPart k v).holdLim = s.holdLim := rfl
@[simp] theorem setPart_saveBase (s : State) (k : Nat) (v : Part) : (s.setPart k v).saveBase = s.saveBase := rfl
@[simp] theorem setPart_saveEn (s : State) (k : Nat) (v : Part) : (s.setPart k v).saveEn = s.saveEn := rfl
@[simp] theorem setPart_lastQueue (s : State) (k : Nat) (v : Part) : (s.setPart k v).lastQueue = s.lastQueue := rfl
@[simp] theorem setPart_reserver (s : State) (k : Nat) (v : Part) : (s.setPart k v).reserver = s.reserver := rfl
@[simp] theorem setPart_placerDue (s : State) (k : Nat) (v : Part) : (s.setPart k v).placerDue = s.placerDue := rfl
@[simp] theorem setPart_root (s : State) (k : Nat) (v : Part) : (s.setPart k v).root = s.root := rfl
@[simp] theorem setPart_flogHead (s : State) (k : Nat) (v : Part) : (s.setPart k v).flogHead = s.flogHead := rfl
@[simp] theorem setPart_msix (s : State) (k : Nat) (v : Part) : (s.setPart k v).msix = s.msix := rfl
@[simp] theorem setPart_memClass (s : State) (k : Nat) (v : Part) : (s.setPart k v).memClass = s.memClass := rfl
@[simp] theorem setPart_pwrlim (s : State) (k : Nat) (v : Part) : (s.setPart k v).pwrlim = s.pwrlim := rfl
@[simp] theorem setPart_nonce (s : State) (k : Nat) (v : Part) : (s.setPart k v).nonce = s.nonce := rfl
@[simp] theorem setPart_reportDpa (s : State) (k : Nat) (v : Part) : (s.setPart k v).reportDpa = s.reportDpa := rfl
@[simp] theorem setPart_attestDone (s : State) (k : Nat) (v : Part) : (s.setPart k v).attestDone = s.attestDone := rfl
@[simp] theorem setPart_attestRefused (s : State) (k : Nat) (v : Part) : (s.setPart k v).attestRefused = s.attestRefused := rfl
@[simp] theorem setPart_keysErased (s : State) (k : Nat) (v : Part) : (s.setPart k v).keysErased = s.keysErased := rfl
@[simp] theorem setPart_lastWake (s : State) (k : Nat) (v : Part) : (s.setPart k v).lastWake = s.lastWake := rfl
@[simp] theorem setPart_almcfg (s : State) (k : Nat) (v : Part) : (s.setPart k v).almcfg = s.almcfg := rfl
@[simp] theorem setPart_almSet (s : State) (k : Nat) (v : Part) : (s.setPart k v).almSet = s.almSet := rfl
@[simp] theorem setPart_almfuse (s : State) (k : Nat) (v : Part) : (s.setPart k v).almfuse = s.almfuse := rfl
@[simp] theorem setPart_dbgLocked (s : State) (k : Nat) (v : Part) : (s.setPart k v).dbgLocked = s.dbgLocked := rfl
@[simp] theorem setPart_halted (s : State) (k : Nat) (v : Part) : (s.setPart k v).halted = s.halted := rfl
@[simp] theorem setPart_hostRead (s : State) (k : Nat) (v : Part) : (s.setPart k v).hostRead = s.hostRead := rfl
@[simp] theorem setPart_free (s : State) (k : Nat) (v : Part) : (s.setPart k v).free = s.free := rfl
@[simp] theorem setPart_iss (s : State) (k : Nat) (v : Part) : (s.setPart k v).iss = s.iss := rfl
@[simp] theorem setPart_ev (s : State) (k : Nat) (v : Part) : (s.setPart k v).ev = s.ev := rfl
@[simp] theorem setPart_clkOf (s : State) (k : Nat) (v : Part) : (s.setPart k v).clkOf = s.clkOf := rfl
@[simp] theorem setPart_same (s : State) (k : Nat) (v : Part) : (s.setPart k v).part k = v := fget_fset_same _ _ _ _
theorem setPart_ne (s : State) (k : Nat) (v : Part) {j : Nat} (h : j ≠ k) : (s.setPart k v).part j = s.part j :=
  fget_fset_ne _ _ _ h

/-! ### setPcore -/

@[simp] theorem setPcore_tb (s : State) (k : Nat) (v : PartCore) : (s.setPcore k v).tb = s.tb := rfl
@[simp] theorem setPcore_mem (s : State) (k : Nat) (v : PartCore) : (s.setPcore k v).mem = s.mem := rfl
@[simp] theorem setPcore_owned (s : State) (k : Nat) (v : PartCore) : (s.setPcore k v).owned = s.owned := rfl
@[simp] theorem setPcore_istore (s : State) (k : Nat) (v : PartCore) : (s.setPcore k v).istore = s.istore := rfl
@[simp] theorem setPcore_ctxs (s : State) (k : Nat) (v : PartCore) : (s.setPcore k v).ctxs = s.ctxs := rfl
@[simp] theorem setPcore_slots (s : State) (k : Nat) (v : PartCore) : (s.setPcore k v).slots = s.slots := rfl
@[simp] theorem setPcore_banks (s : State) (k : Nat) (v : PartCore) : (s.setPcore k v).banks = s.banks := rfl
@[simp] theorem setPcore_bankUse (s : State) (k : Nat) (v : PartCore) : (s.setPcore k v).bankUse = s.bankUse := rfl
@[simp] theorem setPcore_seqs (s : State) (k : Nat) (v : PartCore) : (s.setPcore k v).seqs = s.seqs := rfl
@[simp] theorem setPcore_swrs (s : State) (k : Nat) (v : PartCore) : (s.setPcore k v).swrs = s.swrs := rfl
@[simp] theorem setPcore_tasks (s : State) (k : Nat) (v : PartCore) : (s.setPcore k v).tasks = s.tasks := rfl
@[simp] theorem setPcore_parts (s : State) (k : Nat) (v : PartCore) : (s.setPcore k v).parts = s.parts := rfl
@[simp] theorem setPcore_pcores (s : State) (k : Nat) (v : PartCore) : (s.setPcore k v).pcores = fset s.pcores k v := rfl
@[simp] theorem setPcore_mxs (s : State) (k : Nat) (v : PartCore) : (s.setPcore k v).mxs = s.mxs := rfl
@[simp] theorem setPcore_sports (s : State) (k : Nat) (v : PartCore) : (s.setPcore k v).sports = s.sports := rfl
@[simp] theorem setPcore_fabs (s : State) (k : Nat) (v : PartCore) : (s.setPcore k v).fabs = s.fabs := rfl
@[simp] theorem setPcore_clusters (s : State) (k : Nat) (v : PartCore) : (s.setPcore k v).clusters = s.clusters := rfl
@[simp] theorem setPcore_dies (s : State) (k : Nat) (v : PartCore) : (s.setPcore k v).dies = s.dies := rfl
@[simp] theorem setPcore_memStacks (s : State) (k : Nat) (v : PartCore) : (s.setPcore k v).memStacks = s.memStacks := rfl
@[simp] theorem setPcore_cmds (s : State) (k : Nat) (v : PartCore) : (s.setPcore k v).cmds = s.cmds := rfl
@[simp] theorem setPcore_writes (s : State) (k : Nat) (v : PartCore) : (s.setPcore k v).writes = s.writes := rfl
@[simp] theorem setPcore_syncs (s : State) (k : Nat) (v : PartCore) : (s.setPcore k v).syncs = s.syncs := rfl
@[simp] theorem setPcore_msgs (s : State) (k : Nat) (v : PartCore) : (s.setPcore k v).msgs = s.msgs := rfl
@[simp] theorem setPcore_graphs (s : State) (k : Nat) (v : PartCore) : (s.setPcore k v).graphs = s.graphs := rfl
@[simp] theorem setPcore_nodes (s : State) (k : Nat) (v : PartCore) : (s.setPcore k v).nodes = s.nodes := rfl
@[simp] theorem setPcore_saved (s : State) (k : Nat) (v : PartCore) : (s.setPcore k v).saved = s.saved := rfl
@[simp] theorem setPcore_queues (s : State) (k : Nat) (v : PartCore) : (s.setPcore k v).queues = s.queues := rfl
@[simp] theorem setPcore_ferries (s : State) (k : Nat) (v : PartCore) : (s.setPcore k v).ferries = s.ferries := rfl
@[simp] theorem setPcore_wins (s : State) (k : Nat) (v : PartCore) : (s.setPcore k v).wins = s.wins := rfl
@[simp] theorem setPcore_tlb (s : State) (k : Nat) (v : PartCore) : (s.setPcore k v).tlb = s.tlb := rfl
@[simp] theorem setPcore_nextId (s : State) (k : Nat) (v : PartCore) : (s.setPcore k v).nextId = s.nextId := rfl
@[simp] theorem setPcore_agenda (s : State) (k : Nat) (v : PartCore) : (s.setPcore k v).agenda = s.agenda := rfl
@[simp] theorem setPcore_bootStep (s : State) (k : Nat) (v : PartCore) : (s.setPcore k v).bootStep = s.bootStep := rfl
@[simp] theorem setPcore_bootFail (s : State) (k : Nat) (v : PartCore) : (s.setPcore k v).bootFail = s.bootFail := rfl
@[simp] theorem setPcore_bootPos (s : State) (k : Nat) (v : PartCore) : (s.setPcore k v).bootPos = s.bootPos := rfl
@[simp] theorem setPcore_fwGood (s : State) (k : Nat) (v : PartCore) : (s.setPcore k v).fwGood = s.fwGood := rfl
@[simp] theorem setPcore_mixRec (s : State) (k : Nat) (v : PartCore) : (s.setPcore k v).mixRec = s.mixRec := rfl
@[simp] theorem setPcore_ageEn (s : State) (k : Nat) (v : PartCore) : (s.setPcore k v).ageEn = s.ageEn := rfl
@[simp] theorem setPcore_ageK (s : State) (k : Nat) (v : PartCore) : (s.setPcore k v).ageK = s.ageK := rfl
@[simp] theorem setPcore_ageCap (s : State) (k : Nat) (v : PartCore) : (s.setPcore k v).ageCap = s.ageCap := rfl
@[simp] theorem setPcore_holdLim (s : State) (k : Nat) (v : PartCore) : (s.setPcore k v).holdLim = s.holdLim := rfl
@[simp] theorem setPcore_saveBase (s : State) (k : Nat) (v : PartCore) : (s.setPcore k v).saveBase = s.saveBase := rfl
@[simp] theorem setPcore_saveEn (s : State) (k : Nat) (v : PartCore) : (s.setPcore k v).saveEn = s.saveEn := rfl
@[simp] theorem setPcore_lastQueue (s : State) (k : Nat) (v : PartCore) : (s.setPcore k v).lastQueue = s.lastQueue := rfl
@[simp] theorem setPcore_reserver (s : State) (k : Nat) (v : PartCore) : (s.setPcore k v).reserver = s.reserver := rfl
@[simp] theorem setPcore_placerDue (s : State) (k : Nat) (v : PartCore) : (s.setPcore k v).placerDue = s.placerDue := rfl
@[simp] theorem setPcore_root (s : State) (k : Nat) (v : PartCore) : (s.setPcore k v).root = s.root := rfl
@[simp] theorem setPcore_flogHead (s : State) (k : Nat) (v : PartCore) : (s.setPcore k v).flogHead = s.flogHead := rfl
@[simp] theorem setPcore_msix (s : State) (k : Nat) (v : PartCore) : (s.setPcore k v).msix = s.msix := rfl
@[simp] theorem setPcore_memClass (s : State) (k : Nat) (v : PartCore) : (s.setPcore k v).memClass = s.memClass := rfl
@[simp] theorem setPcore_pwrlim (s : State) (k : Nat) (v : PartCore) : (s.setPcore k v).pwrlim = s.pwrlim := rfl
@[simp] theorem setPcore_nonce (s : State) (k : Nat) (v : PartCore) : (s.setPcore k v).nonce = s.nonce := rfl
@[simp] theorem setPcore_reportDpa (s : State) (k : Nat) (v : PartCore) : (s.setPcore k v).reportDpa = s.reportDpa := rfl
@[simp] theorem setPcore_attestDone (s : State) (k : Nat) (v : PartCore) : (s.setPcore k v).attestDone = s.attestDone := rfl
@[simp] theorem setPcore_attestRefused (s : State) (k : Nat) (v : PartCore) : (s.setPcore k v).attestRefused = s.attestRefused := rfl
@[simp] theorem setPcore_keysErased (s : State) (k : Nat) (v : PartCore) : (s.setPcore k v).keysErased = s.keysErased := rfl
@[simp] theorem setPcore_lastWake (s : State) (k : Nat) (v : PartCore) : (s.setPcore k v).lastWake = s.lastWake := rfl
@[simp] theorem setPcore_almcfg (s : State) (k : Nat) (v : PartCore) : (s.setPcore k v).almcfg = s.almcfg := rfl
@[simp] theorem setPcore_almSet (s : State) (k : Nat) (v : PartCore) : (s.setPcore k v).almSet = s.almSet := rfl
@[simp] theorem setPcore_almfuse (s : State) (k : Nat) (v : PartCore) : (s.setPcore k v).almfuse = s.almfuse := rfl
@[simp] theorem setPcore_dbgLocked (s : State) (k : Nat) (v : PartCore) : (s.setPcore k v).dbgLocked = s.dbgLocked := rfl
@[simp] theorem setPcore_halted (s : State) (k : Nat) (v : PartCore) : (s.setPcore k v).halted = s.halted := rfl
@[simp] theorem setPcore_hostRead (s : State) (k : Nat) (v : PartCore) : (s.setPcore k v).hostRead = s.hostRead := rfl
@[simp] theorem setPcore_free (s : State) (k : Nat) (v : PartCore) : (s.setPcore k v).free = s.free := rfl
@[simp] theorem setPcore_iss (s : State) (k : Nat) (v : PartCore) : (s.setPcore k v).iss = s.iss := rfl
@[simp] theorem setPcore_ev (s : State) (k : Nat) (v : PartCore) : (s.setPcore k v).ev = s.ev := rfl
@[simp] theorem setPcore_clkOf (s : State) (k : Nat) (v : PartCore) : (s.setPcore k v).clkOf = s.clkOf := rfl
@[simp] theorem setPcore_same (s : State) (k : Nat) (v : PartCore) : (s.setPcore k v).pcore k = v := fget_fset_same _ _ _ _
theorem setPcore_ne (s : State) (k : Nat) (v : PartCore) {j : Nat} (h : j ≠ k) : (s.setPcore k v).pcore j = s.pcore j :=
  fget_fset_ne _ _ _ h

/-! ### setCluster -/

@[simp] theorem setCluster_tb (s : State) (k : Nat) (v : Cluster) : (s.setCluster k v).tb = s.tb := rfl
@[simp] theorem setCluster_mem (s : State) (k : Nat) (v : Cluster) : (s.setCluster k v).mem = s.mem := rfl
@[simp] theorem setCluster_owned (s : State) (k : Nat) (v : Cluster) : (s.setCluster k v).owned = s.owned := rfl
@[simp] theorem setCluster_istore (s : State) (k : Nat) (v : Cluster) : (s.setCluster k v).istore = s.istore := rfl
@[simp] theorem setCluster_ctxs (s : State) (k : Nat) (v : Cluster) : (s.setCluster k v).ctxs = s.ctxs := rfl
@[simp] theorem setCluster_slots (s : State) (k : Nat) (v : Cluster) : (s.setCluster k v).slots = s.slots := rfl
@[simp] theorem setCluster_banks (s : State) (k : Nat) (v : Cluster) : (s.setCluster k v).banks = s.banks := rfl
@[simp] theorem setCluster_bankUse (s : State) (k : Nat) (v : Cluster) : (s.setCluster k v).bankUse = s.bankUse := rfl
@[simp] theorem setCluster_seqs (s : State) (k : Nat) (v : Cluster) : (s.setCluster k v).seqs = s.seqs := rfl
@[simp] theorem setCluster_swrs (s : State) (k : Nat) (v : Cluster) : (s.setCluster k v).swrs = s.swrs := rfl
@[simp] theorem setCluster_tasks (s : State) (k : Nat) (v : Cluster) : (s.setCluster k v).tasks = s.tasks := rfl
@[simp] theorem setCluster_parts (s : State) (k : Nat) (v : Cluster) : (s.setCluster k v).parts = s.parts := rfl
@[simp] theorem setCluster_pcores (s : State) (k : Nat) (v : Cluster) : (s.setCluster k v).pcores = s.pcores := rfl
@[simp] theorem setCluster_mxs (s : State) (k : Nat) (v : Cluster) : (s.setCluster k v).mxs = s.mxs := rfl
@[simp] theorem setCluster_sports (s : State) (k : Nat) (v : Cluster) : (s.setCluster k v).sports = s.sports := rfl
@[simp] theorem setCluster_fabs (s : State) (k : Nat) (v : Cluster) : (s.setCluster k v).fabs = s.fabs := rfl
@[simp] theorem setCluster_clusters (s : State) (k : Nat) (v : Cluster) : (s.setCluster k v).clusters = fset s.clusters k v := rfl
@[simp] theorem setCluster_dies (s : State) (k : Nat) (v : Cluster) : (s.setCluster k v).dies = s.dies := rfl
@[simp] theorem setCluster_memStacks (s : State) (k : Nat) (v : Cluster) : (s.setCluster k v).memStacks = s.memStacks := rfl
@[simp] theorem setCluster_cmds (s : State) (k : Nat) (v : Cluster) : (s.setCluster k v).cmds = s.cmds := rfl
@[simp] theorem setCluster_writes (s : State) (k : Nat) (v : Cluster) : (s.setCluster k v).writes = s.writes := rfl
@[simp] theorem setCluster_syncs (s : State) (k : Nat) (v : Cluster) : (s.setCluster k v).syncs = s.syncs := rfl
@[simp] theorem setCluster_msgs (s : State) (k : Nat) (v : Cluster) : (s.setCluster k v).msgs = s.msgs := rfl
@[simp] theorem setCluster_graphs (s : State) (k : Nat) (v : Cluster) : (s.setCluster k v).graphs = s.graphs := rfl
@[simp] theorem setCluster_nodes (s : State) (k : Nat) (v : Cluster) : (s.setCluster k v).nodes = s.nodes := rfl
@[simp] theorem setCluster_saved (s : State) (k : Nat) (v : Cluster) : (s.setCluster k v).saved = s.saved := rfl
@[simp] theorem setCluster_queues (s : State) (k : Nat) (v : Cluster) : (s.setCluster k v).queues = s.queues := rfl
@[simp] theorem setCluster_ferries (s : State) (k : Nat) (v : Cluster) : (s.setCluster k v).ferries = s.ferries := rfl
@[simp] theorem setCluster_wins (s : State) (k : Nat) (v : Cluster) : (s.setCluster k v).wins = s.wins := rfl
@[simp] theorem setCluster_tlb (s : State) (k : Nat) (v : Cluster) : (s.setCluster k v).tlb = s.tlb := rfl
@[simp] theorem setCluster_nextId (s : State) (k : Nat) (v : Cluster) : (s.setCluster k v).nextId = s.nextId := rfl
@[simp] theorem setCluster_agenda (s : State) (k : Nat) (v : Cluster) : (s.setCluster k v).agenda = s.agenda := rfl
@[simp] theorem setCluster_bootStep (s : State) (k : Nat) (v : Cluster) : (s.setCluster k v).bootStep = s.bootStep := rfl
@[simp] theorem setCluster_bootFail (s : State) (k : Nat) (v : Cluster) : (s.setCluster k v).bootFail = s.bootFail := rfl
@[simp] theorem setCluster_bootPos (s : State) (k : Nat) (v : Cluster) : (s.setCluster k v).bootPos = s.bootPos := rfl
@[simp] theorem setCluster_fwGood (s : State) (k : Nat) (v : Cluster) : (s.setCluster k v).fwGood = s.fwGood := rfl
@[simp] theorem setCluster_mixRec (s : State) (k : Nat) (v : Cluster) : (s.setCluster k v).mixRec = s.mixRec := rfl
@[simp] theorem setCluster_ageEn (s : State) (k : Nat) (v : Cluster) : (s.setCluster k v).ageEn = s.ageEn := rfl
@[simp] theorem setCluster_ageK (s : State) (k : Nat) (v : Cluster) : (s.setCluster k v).ageK = s.ageK := rfl
@[simp] theorem setCluster_ageCap (s : State) (k : Nat) (v : Cluster) : (s.setCluster k v).ageCap = s.ageCap := rfl
@[simp] theorem setCluster_holdLim (s : State) (k : Nat) (v : Cluster) : (s.setCluster k v).holdLim = s.holdLim := rfl
@[simp] theorem setCluster_saveBase (s : State) (k : Nat) (v : Cluster) : (s.setCluster k v).saveBase = s.saveBase := rfl
@[simp] theorem setCluster_saveEn (s : State) (k : Nat) (v : Cluster) : (s.setCluster k v).saveEn = s.saveEn := rfl
@[simp] theorem setCluster_lastQueue (s : State) (k : Nat) (v : Cluster) : (s.setCluster k v).lastQueue = s.lastQueue := rfl
@[simp] theorem setCluster_reserver (s : State) (k : Nat) (v : Cluster) : (s.setCluster k v).reserver = s.reserver := rfl
@[simp] theorem setCluster_placerDue (s : State) (k : Nat) (v : Cluster) : (s.setCluster k v).placerDue = s.placerDue := rfl
@[simp] theorem setCluster_root (s : State) (k : Nat) (v : Cluster) : (s.setCluster k v).root = s.root := rfl
@[simp] theorem setCluster_flogHead (s : State) (k : Nat) (v : Cluster) : (s.setCluster k v).flogHead = s.flogHead := rfl
@[simp] theorem setCluster_msix (s : State) (k : Nat) (v : Cluster) : (s.setCluster k v).msix = s.msix := rfl
@[simp] theorem setCluster_memClass (s : State) (k : Nat) (v : Cluster) : (s.setCluster k v).memClass = s.memClass := rfl
@[simp] theorem setCluster_pwrlim (s : State) (k : Nat) (v : Cluster) : (s.setCluster k v).pwrlim = s.pwrlim := rfl
@[simp] theorem setCluster_nonce (s : State) (k : Nat) (v : Cluster) : (s.setCluster k v).nonce = s.nonce := rfl
@[simp] theorem setCluster_reportDpa (s : State) (k : Nat) (v : Cluster) : (s.setCluster k v).reportDpa = s.reportDpa := rfl
@[simp] theorem setCluster_attestDone (s : State) (k : Nat) (v : Cluster) : (s.setCluster k v).attestDone = s.attestDone := rfl
@[simp] theorem setCluster_attestRefused (s : State) (k : Nat) (v : Cluster) : (s.setCluster k v).attestRefused = s.attestRefused := rfl
@[simp] theorem setCluster_keysErased (s : State) (k : Nat) (v : Cluster) : (s.setCluster k v).keysErased = s.keysErased := rfl
@[simp] theorem setCluster_lastWake (s : State) (k : Nat) (v : Cluster) : (s.setCluster k v).lastWake = s.lastWake := rfl
@[simp] theorem setCluster_almcfg (s : State) (k : Nat) (v : Cluster) : (s.setCluster k v).almcfg = s.almcfg := rfl
@[simp] theorem setCluster_almSet (s : State) (k : Nat) (v : Cluster) : (s.setCluster k v).almSet = s.almSet := rfl
@[simp] theorem setCluster_almfuse (s : State) (k : Nat) (v : Cluster) : (s.setCluster k v).almfuse = s.almfuse := rfl
@[simp] theorem setCluster_dbgLocked (s : State) (k : Nat) (v : Cluster) : (s.setCluster k v).dbgLocked = s.dbgLocked := rfl
@[simp] theorem setCluster_halted (s : State) (k : Nat) (v : Cluster) : (s.setCluster k v).halted = s.halted := rfl
@[simp] theorem setCluster_hostRead (s : State) (k : Nat) (v : Cluster) : (s.setCluster k v).hostRead = s.hostRead := rfl
@[simp] theorem setCluster_free (s : State) (k : Nat) (v : Cluster) : (s.setCluster k v).free = s.free := rfl
@[simp] theorem setCluster_iss (s : State) (k : Nat) (v : Cluster) : (s.setCluster k v).iss = s.iss := rfl
@[simp] theorem setCluster_ev (s : State) (k : Nat) (v : Cluster) : (s.setCluster k v).ev = s.ev := rfl
@[simp] theorem setCluster_same (s : State) (k : Nat) (v : Cluster) : (s.setCluster k v).cluster k = v := fget_fset_same _ _ _ _
theorem setCluster_ne (s : State) (k : Nat) (v : Cluster) {j : Nat} (h : j ≠ k) : (s.setCluster k v).cluster j = s.cluster j :=
  fget_fset_ne _ _ _ h

/-! ### setDie -/

@[simp] theorem setDie_tb (s : State) (k : Nat) (v : Die) : (s.setDie k v).tb = s.tb := rfl
@[simp] theorem setDie_mem (s : State) (k : Nat) (v : Die) : (s.setDie k v).mem = s.mem := rfl
@[simp] theorem setDie_owned (s : State) (k : Nat) (v : Die) : (s.setDie k v).owned = s.owned := rfl
@[simp] theorem setDie_istore (s : State) (k : Nat) (v : Die) : (s.setDie k v).istore = s.istore := rfl
@[simp] theorem setDie_ctxs (s : State) (k : Nat) (v : Die) : (s.setDie k v).ctxs = s.ctxs := rfl
@[simp] theorem setDie_slots (s : State) (k : Nat) (v : Die) : (s.setDie k v).slots = s.slots := rfl
@[simp] theorem setDie_banks (s : State) (k : Nat) (v : Die) : (s.setDie k v).banks = s.banks := rfl
@[simp] theorem setDie_bankUse (s : State) (k : Nat) (v : Die) : (s.setDie k v).bankUse = s.bankUse := rfl
@[simp] theorem setDie_seqs (s : State) (k : Nat) (v : Die) : (s.setDie k v).seqs = s.seqs := rfl
@[simp] theorem setDie_swrs (s : State) (k : Nat) (v : Die) : (s.setDie k v).swrs = s.swrs := rfl
@[simp] theorem setDie_tasks (s : State) (k : Nat) (v : Die) : (s.setDie k v).tasks = s.tasks := rfl
@[simp] theorem setDie_parts (s : State) (k : Nat) (v : Die) : (s.setDie k v).parts = s.parts := rfl
@[simp] theorem setDie_pcores (s : State) (k : Nat) (v : Die) : (s.setDie k v).pcores = s.pcores := rfl
@[simp] theorem setDie_mxs (s : State) (k : Nat) (v : Die) : (s.setDie k v).mxs = s.mxs := rfl
@[simp] theorem setDie_sports (s : State) (k : Nat) (v : Die) : (s.setDie k v).sports = s.sports := rfl
@[simp] theorem setDie_fabs (s : State) (k : Nat) (v : Die) : (s.setDie k v).fabs = s.fabs := rfl
@[simp] theorem setDie_clusters (s : State) (k : Nat) (v : Die) : (s.setDie k v).clusters = s.clusters := rfl
@[simp] theorem setDie_dies (s : State) (k : Nat) (v : Die) : (s.setDie k v).dies = fset s.dies k v := rfl
@[simp] theorem setDie_memStacks (s : State) (k : Nat) (v : Die) : (s.setDie k v).memStacks = s.memStacks := rfl
@[simp] theorem setDie_cmds (s : State) (k : Nat) (v : Die) : (s.setDie k v).cmds = s.cmds := rfl
@[simp] theorem setDie_writes (s : State) (k : Nat) (v : Die) : (s.setDie k v).writes = s.writes := rfl
@[simp] theorem setDie_syncs (s : State) (k : Nat) (v : Die) : (s.setDie k v).syncs = s.syncs := rfl
@[simp] theorem setDie_msgs (s : State) (k : Nat) (v : Die) : (s.setDie k v).msgs = s.msgs := rfl
@[simp] theorem setDie_graphs (s : State) (k : Nat) (v : Die) : (s.setDie k v).graphs = s.graphs := rfl
@[simp] theorem setDie_nodes (s : State) (k : Nat) (v : Die) : (s.setDie k v).nodes = s.nodes := rfl
@[simp] theorem setDie_saved (s : State) (k : Nat) (v : Die) : (s.setDie k v).saved = s.saved := rfl
@[simp] theorem setDie_queues (s : State) (k : Nat) (v : Die) : (s.setDie k v).queues = s.queues := rfl
@[simp] theorem setDie_ferries (s : State) (k : Nat) (v : Die) : (s.setDie k v).ferries = s.ferries := rfl
@[simp] theorem setDie_wins (s : State) (k : Nat) (v : Die) : (s.setDie k v).wins = s.wins := rfl
@[simp] theorem setDie_tlb (s : State) (k : Nat) (v : Die) : (s.setDie k v).tlb = s.tlb := rfl
@[simp] theorem setDie_nextId (s : State) (k : Nat) (v : Die) : (s.setDie k v).nextId = s.nextId := rfl
@[simp] theorem setDie_agenda (s : State) (k : Nat) (v : Die) : (s.setDie k v).agenda = s.agenda := rfl
@[simp] theorem setDie_bootStep (s : State) (k : Nat) (v : Die) : (s.setDie k v).bootStep = s.bootStep := rfl
@[simp] theorem setDie_bootFail (s : State) (k : Nat) (v : Die) : (s.setDie k v).bootFail = s.bootFail := rfl
@[simp] theorem setDie_bootPos (s : State) (k : Nat) (v : Die) : (s.setDie k v).bootPos = s.bootPos := rfl
@[simp] theorem setDie_fwGood (s : State) (k : Nat) (v : Die) : (s.setDie k v).fwGood = s.fwGood := rfl
@[simp] theorem setDie_mixRec (s : State) (k : Nat) (v : Die) : (s.setDie k v).mixRec = s.mixRec := rfl
@[simp] theorem setDie_ageEn (s : State) (k : Nat) (v : Die) : (s.setDie k v).ageEn = s.ageEn := rfl
@[simp] theorem setDie_ageK (s : State) (k : Nat) (v : Die) : (s.setDie k v).ageK = s.ageK := rfl
@[simp] theorem setDie_ageCap (s : State) (k : Nat) (v : Die) : (s.setDie k v).ageCap = s.ageCap := rfl
@[simp] theorem setDie_holdLim (s : State) (k : Nat) (v : Die) : (s.setDie k v).holdLim = s.holdLim := rfl
@[simp] theorem setDie_saveBase (s : State) (k : Nat) (v : Die) : (s.setDie k v).saveBase = s.saveBase := rfl
@[simp] theorem setDie_saveEn (s : State) (k : Nat) (v : Die) : (s.setDie k v).saveEn = s.saveEn := rfl
@[simp] theorem setDie_lastQueue (s : State) (k : Nat) (v : Die) : (s.setDie k v).lastQueue = s.lastQueue := rfl
@[simp] theorem setDie_reserver (s : State) (k : Nat) (v : Die) : (s.setDie k v).reserver = s.reserver := rfl
@[simp] theorem setDie_placerDue (s : State) (k : Nat) (v : Die) : (s.setDie k v).placerDue = s.placerDue := rfl
@[simp] theorem setDie_root (s : State) (k : Nat) (v : Die) : (s.setDie k v).root = s.root := rfl
@[simp] theorem setDie_flogHead (s : State) (k : Nat) (v : Die) : (s.setDie k v).flogHead = s.flogHead := rfl
@[simp] theorem setDie_msix (s : State) (k : Nat) (v : Die) : (s.setDie k v).msix = s.msix := rfl
@[simp] theorem setDie_memClass (s : State) (k : Nat) (v : Die) : (s.setDie k v).memClass = s.memClass := rfl
@[simp] theorem setDie_pwrlim (s : State) (k : Nat) (v : Die) : (s.setDie k v).pwrlim = s.pwrlim := rfl
@[simp] theorem setDie_nonce (s : State) (k : Nat) (v : Die) : (s.setDie k v).nonce = s.nonce := rfl
@[simp] theorem setDie_reportDpa (s : State) (k : Nat) (v : Die) : (s.setDie k v).reportDpa = s.reportDpa := rfl
@[simp] theorem setDie_attestDone (s : State) (k : Nat) (v : Die) : (s.setDie k v).attestDone = s.attestDone := rfl
@[simp] theorem setDie_attestRefused (s : State) (k : Nat) (v : Die) : (s.setDie k v).attestRefused = s.attestRefused := rfl
@[simp] theorem setDie_keysErased (s : State) (k : Nat) (v : Die) : (s.setDie k v).keysErased = s.keysErased := rfl
@[simp] theorem setDie_lastWake (s : State) (k : Nat) (v : Die) : (s.setDie k v).lastWake = s.lastWake := rfl
@[simp] theorem setDie_almcfg (s : State) (k : Nat) (v : Die) : (s.setDie k v).almcfg = s.almcfg := rfl
@[simp] theorem setDie_almSet (s : State) (k : Nat) (v : Die) : (s.setDie k v).almSet = s.almSet := rfl
@[simp] theorem setDie_almfuse (s : State) (k : Nat) (v : Die) : (s.setDie k v).almfuse = s.almfuse := rfl
@[simp] theorem setDie_dbgLocked (s : State) (k : Nat) (v : Die) : (s.setDie k v).dbgLocked = s.dbgLocked := rfl
@[simp] theorem setDie_halted (s : State) (k : Nat) (v : Die) : (s.setDie k v).halted = s.halted := rfl
@[simp] theorem setDie_hostRead (s : State) (k : Nat) (v : Die) : (s.setDie k v).hostRead = s.hostRead := rfl
@[simp] theorem setDie_free (s : State) (k : Nat) (v : Die) : (s.setDie k v).free = s.free := rfl
@[simp] theorem setDie_iss (s : State) (k : Nat) (v : Die) : (s.setDie k v).iss = s.iss := rfl
@[simp] theorem setDie_ev (s : State) (k : Nat) (v : Die) : (s.setDie k v).ev = s.ev := rfl
@[simp] theorem setDie_clkOf (s : State) (k : Nat) (v : Die) : (s.setDie k v).clkOf = s.clkOf := rfl
@[simp] theorem setDie_same (s : State) (k : Nat) (v : Die) : (s.setDie k v).die k = v := fget_fset_same _ _ _ _
theorem setDie_ne (s : State) (k : Nat) (v : Die) {j : Nat} (h : j ≠ k) : (s.setDie k v).die j = s.die j :=
  fget_fset_ne _ _ _ h

/-! ### setStack -/

@[simp] theorem setStack_tb (s : State) (k : Nat) (v : Stack) : (s.setStack k v).tb = s.tb := rfl
@[simp] theorem setStack_mem (s : State) (k : Nat) (v : Stack) : (s.setStack k v).mem = s.mem := rfl
@[simp] theorem setStack_owned (s : State) (k : Nat) (v : Stack) : (s.setStack k v).owned = s.owned := rfl
@[simp] theorem setStack_istore (s : State) (k : Nat) (v : Stack) : (s.setStack k v).istore = s.istore := rfl
@[simp] theorem setStack_ctxs (s : State) (k : Nat) (v : Stack) : (s.setStack k v).ctxs = s.ctxs := rfl
@[simp] theorem setStack_slots (s : State) (k : Nat) (v : Stack) : (s.setStack k v).slots = s.slots := rfl
@[simp] theorem setStack_banks (s : State) (k : Nat) (v : Stack) : (s.setStack k v).banks = s.banks := rfl
@[simp] theorem setStack_bankUse (s : State) (k : Nat) (v : Stack) : (s.setStack k v).bankUse = s.bankUse := rfl
@[simp] theorem setStack_seqs (s : State) (k : Nat) (v : Stack) : (s.setStack k v).seqs = s.seqs := rfl
@[simp] theorem setStack_swrs (s : State) (k : Nat) (v : Stack) : (s.setStack k v).swrs = s.swrs := rfl
@[simp] theorem setStack_tasks (s : State) (k : Nat) (v : Stack) : (s.setStack k v).tasks = s.tasks := rfl
@[simp] theorem setStack_parts (s : State) (k : Nat) (v : Stack) : (s.setStack k v).parts = s.parts := rfl
@[simp] theorem setStack_pcores (s : State) (k : Nat) (v : Stack) : (s.setStack k v).pcores = s.pcores := rfl
@[simp] theorem setStack_mxs (s : State) (k : Nat) (v : Stack) : (s.setStack k v).mxs = s.mxs := rfl
@[simp] theorem setStack_sports (s : State) (k : Nat) (v : Stack) : (s.setStack k v).sports = s.sports := rfl
@[simp] theorem setStack_fabs (s : State) (k : Nat) (v : Stack) : (s.setStack k v).fabs = s.fabs := rfl
@[simp] theorem setStack_clusters (s : State) (k : Nat) (v : Stack) : (s.setStack k v).clusters = s.clusters := rfl
@[simp] theorem setStack_dies (s : State) (k : Nat) (v : Stack) : (s.setStack k v).dies = s.dies := rfl
@[simp] theorem setStack_memStacks (s : State) (k : Nat) (v : Stack) : (s.setStack k v).memStacks = fset s.memStacks k v := rfl
@[simp] theorem setStack_cmds (s : State) (k : Nat) (v : Stack) : (s.setStack k v).cmds = s.cmds := rfl
@[simp] theorem setStack_writes (s : State) (k : Nat) (v : Stack) : (s.setStack k v).writes = s.writes := rfl
@[simp] theorem setStack_syncs (s : State) (k : Nat) (v : Stack) : (s.setStack k v).syncs = s.syncs := rfl
@[simp] theorem setStack_msgs (s : State) (k : Nat) (v : Stack) : (s.setStack k v).msgs = s.msgs := rfl
@[simp] theorem setStack_graphs (s : State) (k : Nat) (v : Stack) : (s.setStack k v).graphs = s.graphs := rfl
@[simp] theorem setStack_nodes (s : State) (k : Nat) (v : Stack) : (s.setStack k v).nodes = s.nodes := rfl
@[simp] theorem setStack_saved (s : State) (k : Nat) (v : Stack) : (s.setStack k v).saved = s.saved := rfl
@[simp] theorem setStack_queues (s : State) (k : Nat) (v : Stack) : (s.setStack k v).queues = s.queues := rfl
@[simp] theorem setStack_ferries (s : State) (k : Nat) (v : Stack) : (s.setStack k v).ferries = s.ferries := rfl
@[simp] theorem setStack_wins (s : State) (k : Nat) (v : Stack) : (s.setStack k v).wins = s.wins := rfl
@[simp] theorem setStack_tlb (s : State) (k : Nat) (v : Stack) : (s.setStack k v).tlb = s.tlb := rfl
@[simp] theorem setStack_nextId (s : State) (k : Nat) (v : Stack) : (s.setStack k v).nextId = s.nextId := rfl
@[simp] theorem setStack_agenda (s : State) (k : Nat) (v : Stack) : (s.setStack k v).agenda = s.agenda := rfl
@[simp] theorem setStack_bootStep (s : State) (k : Nat) (v : Stack) : (s.setStack k v).bootStep = s.bootStep := rfl
@[simp] theorem setStack_bootFail (s : State) (k : Nat) (v : Stack) : (s.setStack k v).bootFail = s.bootFail := rfl
@[simp] theorem setStack_bootPos (s : State) (k : Nat) (v : Stack) : (s.setStack k v).bootPos = s.bootPos := rfl
@[simp] theorem setStack_fwGood (s : State) (k : Nat) (v : Stack) : (s.setStack k v).fwGood = s.fwGood := rfl
@[simp] theorem setStack_mixRec (s : State) (k : Nat) (v : Stack) : (s.setStack k v).mixRec = s.mixRec := rfl
@[simp] theorem setStack_ageEn (s : State) (k : Nat) (v : Stack) : (s.setStack k v).ageEn = s.ageEn := rfl
@[simp] theorem setStack_ageK (s : State) (k : Nat) (v : Stack) : (s.setStack k v).ageK = s.ageK := rfl
@[simp] theorem setStack_ageCap (s : State) (k : Nat) (v : Stack) : (s.setStack k v).ageCap = s.ageCap := rfl
@[simp] theorem setStack_holdLim (s : State) (k : Nat) (v : Stack) : (s.setStack k v).holdLim = s.holdLim := rfl
@[simp] theorem setStack_saveBase (s : State) (k : Nat) (v : Stack) : (s.setStack k v).saveBase = s.saveBase := rfl
@[simp] theorem setStack_saveEn (s : State) (k : Nat) (v : Stack) : (s.setStack k v).saveEn = s.saveEn := rfl
@[simp] theorem setStack_lastQueue (s : State) (k : Nat) (v : Stack) : (s.setStack k v).lastQueue = s.lastQueue := rfl
@[simp] theorem setStack_reserver (s : State) (k : Nat) (v : Stack) : (s.setStack k v).reserver = s.reserver := rfl
@[simp] theorem setStack_placerDue (s : State) (k : Nat) (v : Stack) : (s.setStack k v).placerDue = s.placerDue := rfl
@[simp] theorem setStack_root (s : State) (k : Nat) (v : Stack) : (s.setStack k v).root = s.root := rfl
@[simp] theorem setStack_flogHead (s : State) (k : Nat) (v : Stack) : (s.setStack k v).flogHead = s.flogHead := rfl
@[simp] theorem setStack_msix (s : State) (k : Nat) (v : Stack) : (s.setStack k v).msix = s.msix := rfl
@[simp] theorem setStack_memClass (s : State) (k : Nat) (v : Stack) : (s.setStack k v).memClass = s.memClass := rfl
@[simp] theorem setStack_pwrlim (s : State) (k : Nat) (v : Stack) : (s.setStack k v).pwrlim = s.pwrlim := rfl
@[simp] theorem setStack_nonce (s : State) (k : Nat) (v : Stack) : (s.setStack k v).nonce = s.nonce := rfl
@[simp] theorem setStack_reportDpa (s : State) (k : Nat) (v : Stack) : (s.setStack k v).reportDpa = s.reportDpa := rfl
@[simp] theorem setStack_attestDone (s : State) (k : Nat) (v : Stack) : (s.setStack k v).attestDone = s.attestDone := rfl
@[simp] theorem setStack_attestRefused (s : State) (k : Nat) (v : Stack) : (s.setStack k v).attestRefused = s.attestRefused := rfl
@[simp] theorem setStack_keysErased (s : State) (k : Nat) (v : Stack) : (s.setStack k v).keysErased = s.keysErased := rfl
@[simp] theorem setStack_lastWake (s : State) (k : Nat) (v : Stack) : (s.setStack k v).lastWake = s.lastWake := rfl
@[simp] theorem setStack_almcfg (s : State) (k : Nat) (v : Stack) : (s.setStack k v).almcfg = s.almcfg := rfl
@[simp] theorem setStack_almSet (s : State) (k : Nat) (v : Stack) : (s.setStack k v).almSet = s.almSet := rfl
@[simp] theorem setStack_almfuse (s : State) (k : Nat) (v : Stack) : (s.setStack k v).almfuse = s.almfuse := rfl
@[simp] theorem setStack_dbgLocked (s : State) (k : Nat) (v : Stack) : (s.setStack k v).dbgLocked = s.dbgLocked := rfl
@[simp] theorem setStack_halted (s : State) (k : Nat) (v : Stack) : (s.setStack k v).halted = s.halted := rfl
@[simp] theorem setStack_hostRead (s : State) (k : Nat) (v : Stack) : (s.setStack k v).hostRead = s.hostRead := rfl
@[simp] theorem setStack_free (s : State) (k : Nat) (v : Stack) : (s.setStack k v).free = s.free := rfl
@[simp] theorem setStack_iss (s : State) (k : Nat) (v : Stack) : (s.setStack k v).iss = s.iss := rfl
@[simp] theorem setStack_ev (s : State) (k : Nat) (v : Stack) : (s.setStack k v).ev = s.ev := rfl
@[simp] theorem setStack_clkOf (s : State) (k : Nat) (v : Stack) : (s.setStack k v).clkOf = s.clkOf := rfl
@[simp] theorem setStack_same (s : State) (k : Nat) (v : Stack) : (s.setStack k v).stack k = v := fget_fset_same _ _ _ _
theorem setStack_ne (s : State) (k : Nat) (v : Stack) {j : Nat} (h : j ≠ k) : (s.setStack k v).stack j = s.stack j :=
  fget_fset_ne _ _ _ h

/-! ### setCmd -/

@[simp] theorem setCmd_tb (s : State) (k : Nat) (v : Cmd) : (s.setCmd k v).tb = s.tb := rfl
@[simp] theorem setCmd_mem (s : State) (k : Nat) (v : Cmd) : (s.setCmd k v).mem = s.mem := rfl
@[simp] theorem setCmd_owned (s : State) (k : Nat) (v : Cmd) : (s.setCmd k v).owned = s.owned := rfl
@[simp] theorem setCmd_istore (s : State) (k : Nat) (v : Cmd) : (s.setCmd k v).istore = s.istore := rfl
@[simp] theorem setCmd_ctxs (s : State) (k : Nat) (v : Cmd) : (s.setCmd k v).ctxs = s.ctxs := rfl
@[simp] theorem setCmd_slots (s : State) (k : Nat) (v : Cmd) : (s.setCmd k v).slots = s.slots := rfl
@[simp] theorem setCmd_banks (s : State) (k : Nat) (v : Cmd) : (s.setCmd k v).banks = s.banks := rfl
@[simp] theorem setCmd_bankUse (s : State) (k : Nat) (v : Cmd) : (s.setCmd k v).bankUse = s.bankUse := rfl
@[simp] theorem setCmd_seqs (s : State) (k : Nat) (v : Cmd) : (s.setCmd k v).seqs = s.seqs := rfl
@[simp] theorem setCmd_swrs (s : State) (k : Nat) (v : Cmd) : (s.setCmd k v).swrs = s.swrs := rfl
@[simp] theorem setCmd_tasks (s : State) (k : Nat) (v : Cmd) : (s.setCmd k v).tasks = s.tasks := rfl
@[simp] theorem setCmd_parts (s : State) (k : Nat) (v : Cmd) : (s.setCmd k v).parts = s.parts := rfl
@[simp] theorem setCmd_pcores (s : State) (k : Nat) (v : Cmd) : (s.setCmd k v).pcores = s.pcores := rfl
@[simp] theorem setCmd_mxs (s : State) (k : Nat) (v : Cmd) : (s.setCmd k v).mxs = s.mxs := rfl
@[simp] theorem setCmd_sports (s : State) (k : Nat) (v : Cmd) : (s.setCmd k v).sports = s.sports := rfl
@[simp] theorem setCmd_fabs (s : State) (k : Nat) (v : Cmd) : (s.setCmd k v).fabs = s.fabs := rfl
@[simp] theorem setCmd_clusters (s : State) (k : Nat) (v : Cmd) : (s.setCmd k v).clusters = s.clusters := rfl
@[simp] theorem setCmd_dies (s : State) (k : Nat) (v : Cmd) : (s.setCmd k v).dies = s.dies := rfl
@[simp] theorem setCmd_memStacks (s : State) (k : Nat) (v : Cmd) : (s.setCmd k v).memStacks = s.memStacks := rfl
@[simp] theorem setCmd_cmds (s : State) (k : Nat) (v : Cmd) : (s.setCmd k v).cmds = fset s.cmds k v := rfl
@[simp] theorem setCmd_writes (s : State) (k : Nat) (v : Cmd) : (s.setCmd k v).writes = s.writes := rfl
@[simp] theorem setCmd_syncs (s : State) (k : Nat) (v : Cmd) : (s.setCmd k v).syncs = s.syncs := rfl
@[simp] theorem setCmd_msgs (s : State) (k : Nat) (v : Cmd) : (s.setCmd k v).msgs = s.msgs := rfl
@[simp] theorem setCmd_graphs (s : State) (k : Nat) (v : Cmd) : (s.setCmd k v).graphs = s.graphs := rfl
@[simp] theorem setCmd_nodes (s : State) (k : Nat) (v : Cmd) : (s.setCmd k v).nodes = s.nodes := rfl
@[simp] theorem setCmd_saved (s : State) (k : Nat) (v : Cmd) : (s.setCmd k v).saved = s.saved := rfl
@[simp] theorem setCmd_queues (s : State) (k : Nat) (v : Cmd) : (s.setCmd k v).queues = s.queues := rfl
@[simp] theorem setCmd_ferries (s : State) (k : Nat) (v : Cmd) : (s.setCmd k v).ferries = s.ferries := rfl
@[simp] theorem setCmd_wins (s : State) (k : Nat) (v : Cmd) : (s.setCmd k v).wins = s.wins := rfl
@[simp] theorem setCmd_tlb (s : State) (k : Nat) (v : Cmd) : (s.setCmd k v).tlb = s.tlb := rfl
@[simp] theorem setCmd_nextId (s : State) (k : Nat) (v : Cmd) : (s.setCmd k v).nextId = s.nextId := rfl
@[simp] theorem setCmd_agenda (s : State) (k : Nat) (v : Cmd) : (s.setCmd k v).agenda = s.agenda := rfl
@[simp] theorem setCmd_bootStep (s : State) (k : Nat) (v : Cmd) : (s.setCmd k v).bootStep = s.bootStep := rfl
@[simp] theorem setCmd_bootFail (s : State) (k : Nat) (v : Cmd) : (s.setCmd k v).bootFail = s.bootFail := rfl
@[simp] theorem setCmd_bootPos (s : State) (k : Nat) (v : Cmd) : (s.setCmd k v).bootPos = s.bootPos := rfl
@[simp] theorem setCmd_fwGood (s : State) (k : Nat) (v : Cmd) : (s.setCmd k v).fwGood = s.fwGood := rfl
@[simp] theorem setCmd_mixRec (s : State) (k : Nat) (v : Cmd) : (s.setCmd k v).mixRec = s.mixRec := rfl
@[simp] theorem setCmd_ageEn (s : State) (k : Nat) (v : Cmd) : (s.setCmd k v).ageEn = s.ageEn := rfl
@[simp] theorem setCmd_ageK (s : State) (k : Nat) (v : Cmd) : (s.setCmd k v).ageK = s.ageK := rfl
@[simp] theorem setCmd_ageCap (s : State) (k : Nat) (v : Cmd) : (s.setCmd k v).ageCap = s.ageCap := rfl
@[simp] theorem setCmd_holdLim (s : State) (k : Nat) (v : Cmd) : (s.setCmd k v).holdLim = s.holdLim := rfl
@[simp] theorem setCmd_saveBase (s : State) (k : Nat) (v : Cmd) : (s.setCmd k v).saveBase = s.saveBase := rfl
@[simp] theorem setCmd_saveEn (s : State) (k : Nat) (v : Cmd) : (s.setCmd k v).saveEn = s.saveEn := rfl
@[simp] theorem setCmd_lastQueue (s : State) (k : Nat) (v : Cmd) : (s.setCmd k v).lastQueue = s.lastQueue := rfl
@[simp] theorem setCmd_reserver (s : State) (k : Nat) (v : Cmd) : (s.setCmd k v).reserver = s.reserver := rfl
@[simp] theorem setCmd_placerDue (s : State) (k : Nat) (v : Cmd) : (s.setCmd k v).placerDue = s.placerDue := rfl
@[simp] theorem setCmd_root (s : State) (k : Nat) (v : Cmd) : (s.setCmd k v).root = s.root := rfl
@[simp] theorem setCmd_flogHead (s : State) (k : Nat) (v : Cmd) : (s.setCmd k v).flogHead = s.flogHead := rfl
@[simp] theorem setCmd_msix (s : State) (k : Nat) (v : Cmd) : (s.setCmd k v).msix = s.msix := rfl
@[simp] theorem setCmd_memClass (s : State) (k : Nat) (v : Cmd) : (s.setCmd k v).memClass = s.memClass := rfl
@[simp] theorem setCmd_pwrlim (s : State) (k : Nat) (v : Cmd) : (s.setCmd k v).pwrlim = s.pwrlim := rfl
@[simp] theorem setCmd_nonce (s : State) (k : Nat) (v : Cmd) : (s.setCmd k v).nonce = s.nonce := rfl
@[simp] theorem setCmd_reportDpa (s : State) (k : Nat) (v : Cmd) : (s.setCmd k v).reportDpa = s.reportDpa := rfl
@[simp] theorem setCmd_attestDone (s : State) (k : Nat) (v : Cmd) : (s.setCmd k v).attestDone = s.attestDone := rfl
@[simp] theorem setCmd_attestRefused (s : State) (k : Nat) (v : Cmd) : (s.setCmd k v).attestRefused = s.attestRefused := rfl
@[simp] theorem setCmd_keysErased (s : State) (k : Nat) (v : Cmd) : (s.setCmd k v).keysErased = s.keysErased := rfl
@[simp] theorem setCmd_lastWake (s : State) (k : Nat) (v : Cmd) : (s.setCmd k v).lastWake = s.lastWake := rfl
@[simp] theorem setCmd_almcfg (s : State) (k : Nat) (v : Cmd) : (s.setCmd k v).almcfg = s.almcfg := rfl
@[simp] theorem setCmd_almSet (s : State) (k : Nat) (v : Cmd) : (s.setCmd k v).almSet = s.almSet := rfl
@[simp] theorem setCmd_almfuse (s : State) (k : Nat) (v : Cmd) : (s.setCmd k v).almfuse = s.almfuse := rfl
@[simp] theorem setCmd_dbgLocked (s : State) (k : Nat) (v : Cmd) : (s.setCmd k v).dbgLocked = s.dbgLocked := rfl
@[simp] theorem setCmd_halted (s : State) (k : Nat) (v : Cmd) : (s.setCmd k v).halted = s.halted := rfl
@[simp] theorem setCmd_hostRead (s : State) (k : Nat) (v : Cmd) : (s.setCmd k v).hostRead = s.hostRead := rfl
@[simp] theorem setCmd_free (s : State) (k : Nat) (v : Cmd) : (s.setCmd k v).free = s.free := rfl
@[simp] theorem setCmd_iss (s : State) (k : Nat) (v : Cmd) : (s.setCmd k v).iss = s.iss := rfl
@[simp] theorem setCmd_ev (s : State) (k : Nat) (v : Cmd) : (s.setCmd k v).ev = s.ev := rfl
@[simp] theorem setCmd_clkOf (s : State) (k : Nat) (v : Cmd) : (s.setCmd k v).clkOf = s.clkOf := rfl
@[simp] theorem setCmd_same (s : State) (k : Nat) (v : Cmd) : (s.setCmd k v).cmd k = v := fget_fset_same _ _ _ _
theorem setCmd_ne (s : State) (k : Nat) (v : Cmd) {j : Nat} (h : j ≠ k) : (s.setCmd k v).cmd j = s.cmd j :=
  fget_fset_ne _ _ _ h

/-! ### setGraph -/

@[simp] theorem setGraph_tb (s : State) (k : Nat) (v : Graph) : (s.setGraph k v).tb = s.tb := rfl
@[simp] theorem setGraph_mem (s : State) (k : Nat) (v : Graph) : (s.setGraph k v).mem = s.mem := rfl
@[simp] theorem setGraph_owned (s : State) (k : Nat) (v : Graph) : (s.setGraph k v).owned = s.owned := rfl
@[simp] theorem setGraph_istore (s : State) (k : Nat) (v : Graph) : (s.setGraph k v).istore = s.istore := rfl
@[simp] theorem setGraph_ctxs (s : State) (k : Nat) (v : Graph) : (s.setGraph k v).ctxs = s.ctxs := rfl
@[simp] theorem setGraph_slots (s : State) (k : Nat) (v : Graph) : (s.setGraph k v).slots = s.slots := rfl
@[simp] theorem setGraph_banks (s : State) (k : Nat) (v : Graph) : (s.setGraph k v).banks = s.banks := rfl
@[simp] theorem setGraph_bankUse (s : State) (k : Nat) (v : Graph) : (s.setGraph k v).bankUse = s.bankUse := rfl
@[simp] theorem setGraph_seqs (s : State) (k : Nat) (v : Graph) : (s.setGraph k v).seqs = s.seqs := rfl
@[simp] theorem setGraph_swrs (s : State) (k : Nat) (v : Graph) : (s.setGraph k v).swrs = s.swrs := rfl
@[simp] theorem setGraph_tasks (s : State) (k : Nat) (v : Graph) : (s.setGraph k v).tasks = s.tasks := rfl
@[simp] theorem setGraph_parts (s : State) (k : Nat) (v : Graph) : (s.setGraph k v).parts = s.parts := rfl
@[simp] theorem setGraph_pcores (s : State) (k : Nat) (v : Graph) : (s.setGraph k v).pcores = s.pcores := rfl
@[simp] theorem setGraph_mxs (s : State) (k : Nat) (v : Graph) : (s.setGraph k v).mxs = s.mxs := rfl
@[simp] theorem setGraph_sports (s : State) (k : Nat) (v : Graph) : (s.setGraph k v).sports = s.sports := rfl
@[simp] theorem setGraph_fabs (s : State) (k : Nat) (v : Graph) : (s.setGraph k v).fabs = s.fabs := rfl
@[simp] theorem setGraph_clusters (s : State) (k : Nat) (v : Graph) : (s.setGraph k v).clusters = s.clusters := rfl
@[simp] theorem setGraph_dies (s : State) (k : Nat) (v : Graph) : (s.setGraph k v).dies = s.dies := rfl
@[simp] theorem setGraph_memStacks (s : State) (k : Nat) (v : Graph) : (s.setGraph k v).memStacks = s.memStacks := rfl
@[simp] theorem setGraph_cmds (s : State) (k : Nat) (v : Graph) : (s.setGraph k v).cmds = s.cmds := rfl
@[simp] theorem setGraph_writes (s : State) (k : Nat) (v : Graph) : (s.setGraph k v).writes = s.writes := rfl
@[simp] theorem setGraph_syncs (s : State) (k : Nat) (v : Graph) : (s.setGraph k v).syncs = s.syncs := rfl
@[simp] theorem setGraph_msgs (s : State) (k : Nat) (v : Graph) : (s.setGraph k v).msgs = s.msgs := rfl
@[simp] theorem setGraph_graphs (s : State) (k : Nat) (v : Graph) : (s.setGraph k v).graphs = fset s.graphs k v := rfl
@[simp] theorem setGraph_nodes (s : State) (k : Nat) (v : Graph) : (s.setGraph k v).nodes = s.nodes := rfl
@[simp] theorem setGraph_saved (s : State) (k : Nat) (v : Graph) : (s.setGraph k v).saved = s.saved := rfl
@[simp] theorem setGraph_queues (s : State) (k : Nat) (v : Graph) : (s.setGraph k v).queues = s.queues := rfl
@[simp] theorem setGraph_ferries (s : State) (k : Nat) (v : Graph) : (s.setGraph k v).ferries = s.ferries := rfl
@[simp] theorem setGraph_wins (s : State) (k : Nat) (v : Graph) : (s.setGraph k v).wins = s.wins := rfl
@[simp] theorem setGraph_tlb (s : State) (k : Nat) (v : Graph) : (s.setGraph k v).tlb = s.tlb := rfl
@[simp] theorem setGraph_nextId (s : State) (k : Nat) (v : Graph) : (s.setGraph k v).nextId = s.nextId := rfl
@[simp] theorem setGraph_agenda (s : State) (k : Nat) (v : Graph) : (s.setGraph k v).agenda = s.agenda := rfl
@[simp] theorem setGraph_bootStep (s : State) (k : Nat) (v : Graph) : (s.setGraph k v).bootStep = s.bootStep := rfl
@[simp] theorem setGraph_bootFail (s : State) (k : Nat) (v : Graph) : (s.setGraph k v).bootFail = s.bootFail := rfl
@[simp] theorem setGraph_bootPos (s : State) (k : Nat) (v : Graph) : (s.setGraph k v).bootPos = s.bootPos := rfl
@[simp] theorem setGraph_fwGood (s : State) (k : Nat) (v : Graph) : (s.setGraph k v).fwGood = s.fwGood := rfl
@[simp] theorem setGraph_mixRec (s : State) (k : Nat) (v : Graph) : (s.setGraph k v).mixRec = s.mixRec := rfl
@[simp] theorem setGraph_ageEn (s : State) (k : Nat) (v : Graph) : (s.setGraph k v).ageEn = s.ageEn := rfl
@[simp] theorem setGraph_ageK (s : State) (k : Nat) (v : Graph) : (s.setGraph k v).ageK = s.ageK := rfl
@[simp] theorem setGraph_ageCap (s : State) (k : Nat) (v : Graph) : (s.setGraph k v).ageCap = s.ageCap := rfl
@[simp] theorem setGraph_holdLim (s : State) (k : Nat) (v : Graph) : (s.setGraph k v).holdLim = s.holdLim := rfl
@[simp] theorem setGraph_saveBase (s : State) (k : Nat) (v : Graph) : (s.setGraph k v).saveBase = s.saveBase := rfl
@[simp] theorem setGraph_saveEn (s : State) (k : Nat) (v : Graph) : (s.setGraph k v).saveEn = s.saveEn := rfl
@[simp] theorem setGraph_lastQueue (s : State) (k : Nat) (v : Graph) : (s.setGraph k v).lastQueue = s.lastQueue := rfl
@[simp] theorem setGraph_reserver (s : State) (k : Nat) (v : Graph) : (s.setGraph k v).reserver = s.reserver := rfl
@[simp] theorem setGraph_placerDue (s : State) (k : Nat) (v : Graph) : (s.setGraph k v).placerDue = s.placerDue := rfl
@[simp] theorem setGraph_root (s : State) (k : Nat) (v : Graph) : (s.setGraph k v).root = s.root := rfl
@[simp] theorem setGraph_flogHead (s : State) (k : Nat) (v : Graph) : (s.setGraph k v).flogHead = s.flogHead := rfl
@[simp] theorem setGraph_msix (s : State) (k : Nat) (v : Graph) : (s.setGraph k v).msix = s.msix := rfl
@[simp] theorem setGraph_memClass (s : State) (k : Nat) (v : Graph) : (s.setGraph k v).memClass = s.memClass := rfl
@[simp] theorem setGraph_pwrlim (s : State) (k : Nat) (v : Graph) : (s.setGraph k v).pwrlim = s.pwrlim := rfl
@[simp] theorem setGraph_nonce (s : State) (k : Nat) (v : Graph) : (s.setGraph k v).nonce = s.nonce := rfl
@[simp] theorem setGraph_reportDpa (s : State) (k : Nat) (v : Graph) : (s.setGraph k v).reportDpa = s.reportDpa := rfl
@[simp] theorem setGraph_attestDone (s : State) (k : Nat) (v : Graph) : (s.setGraph k v).attestDone = s.attestDone := rfl
@[simp] theorem setGraph_attestRefused (s : State) (k : Nat) (v : Graph) : (s.setGraph k v).attestRefused = s.attestRefused := rfl
@[simp] theorem setGraph_keysErased (s : State) (k : Nat) (v : Graph) : (s.setGraph k v).keysErased = s.keysErased := rfl
@[simp] theorem setGraph_lastWake (s : State) (k : Nat) (v : Graph) : (s.setGraph k v).lastWake = s.lastWake := rfl
@[simp] theorem setGraph_almcfg (s : State) (k : Nat) (v : Graph) : (s.setGraph k v).almcfg = s.almcfg := rfl
@[simp] theorem setGraph_almSet (s : State) (k : Nat) (v : Graph) : (s.setGraph k v).almSet = s.almSet := rfl
@[simp] theorem setGraph_almfuse (s : State) (k : Nat) (v : Graph) : (s.setGraph k v).almfuse = s.almfuse := rfl
@[simp] theorem setGraph_dbgLocked (s : State) (k : Nat) (v : Graph) : (s.setGraph k v).dbgLocked = s.dbgLocked := rfl
@[simp] theorem setGraph_halted (s : State) (k : Nat) (v : Graph) : (s.setGraph k v).halted = s.halted := rfl
@[simp] theorem setGraph_hostRead (s : State) (k : Nat) (v : Graph) : (s.setGraph k v).hostRead = s.hostRead := rfl
@[simp] theorem setGraph_free (s : State) (k : Nat) (v : Graph) : (s.setGraph k v).free = s.free := rfl
@[simp] theorem setGraph_iss (s : State) (k : Nat) (v : Graph) : (s.setGraph k v).iss = s.iss := rfl
@[simp] theorem setGraph_ev (s : State) (k : Nat) (v : Graph) : (s.setGraph k v).ev = s.ev := rfl
@[simp] theorem setGraph_clkOf (s : State) (k : Nat) (v : Graph) : (s.setGraph k v).clkOf = s.clkOf := rfl
@[simp] theorem setGraph_same (s : State) (k : Nat) (v : Graph) : (s.setGraph k v).graph k = v := fget_fset_same _ _ _ _
theorem setGraph_ne (s : State) (k : Nat) (v : Graph) {j : Nat} (h : j ≠ k) : (s.setGraph k v).graph j = s.graph j :=
  fget_fset_ne _ _ _ h

/-! ### setQueue -/

@[simp] theorem setQueue_tb (s : State) (k : Nat) (v : GQ) : (s.setQueue k v).tb = s.tb := rfl
@[simp] theorem setQueue_mem (s : State) (k : Nat) (v : GQ) : (s.setQueue k v).mem = s.mem := rfl
@[simp] theorem setQueue_owned (s : State) (k : Nat) (v : GQ) : (s.setQueue k v).owned = s.owned := rfl
@[simp] theorem setQueue_istore (s : State) (k : Nat) (v : GQ) : (s.setQueue k v).istore = s.istore := rfl
@[simp] theorem setQueue_ctxs (s : State) (k : Nat) (v : GQ) : (s.setQueue k v).ctxs = s.ctxs := rfl
@[simp] theorem setQueue_slots (s : State) (k : Nat) (v : GQ) : (s.setQueue k v).slots = s.slots := rfl
@[simp] theorem setQueue_banks (s : State) (k : Nat) (v : GQ) : (s.setQueue k v).banks = s.banks := rfl
@[simp] theorem setQueue_bankUse (s : State) (k : Nat) (v : GQ) : (s.setQueue k v).bankUse = s.bankUse := rfl
@[simp] theorem setQueue_seqs (s : State) (k : Nat) (v : GQ) : (s.setQueue k v).seqs = s.seqs := rfl
@[simp] theorem setQueue_swrs (s : State) (k : Nat) (v : GQ) : (s.setQueue k v).swrs = s.swrs := rfl
@[simp] theorem setQueue_tasks (s : State) (k : Nat) (v : GQ) : (s.setQueue k v).tasks = s.tasks := rfl
@[simp] theorem setQueue_parts (s : State) (k : Nat) (v : GQ) : (s.setQueue k v).parts = s.parts := rfl
@[simp] theorem setQueue_pcores (s : State) (k : Nat) (v : GQ) : (s.setQueue k v).pcores = s.pcores := rfl
@[simp] theorem setQueue_mxs (s : State) (k : Nat) (v : GQ) : (s.setQueue k v).mxs = s.mxs := rfl
@[simp] theorem setQueue_sports (s : State) (k : Nat) (v : GQ) : (s.setQueue k v).sports = s.sports := rfl
@[simp] theorem setQueue_fabs (s : State) (k : Nat) (v : GQ) : (s.setQueue k v).fabs = s.fabs := rfl
@[simp] theorem setQueue_clusters (s : State) (k : Nat) (v : GQ) : (s.setQueue k v).clusters = s.clusters := rfl
@[simp] theorem setQueue_dies (s : State) (k : Nat) (v : GQ) : (s.setQueue k v).dies = s.dies := rfl
@[simp] theorem setQueue_memStacks (s : State) (k : Nat) (v : GQ) : (s.setQueue k v).memStacks = s.memStacks := rfl
@[simp] theorem setQueue_cmds (s : State) (k : Nat) (v : GQ) : (s.setQueue k v).cmds = s.cmds := rfl
@[simp] theorem setQueue_writes (s : State) (k : Nat) (v : GQ) : (s.setQueue k v).writes = s.writes := rfl
@[simp] theorem setQueue_syncs (s : State) (k : Nat) (v : GQ) : (s.setQueue k v).syncs = s.syncs := rfl
@[simp] theorem setQueue_msgs (s : State) (k : Nat) (v : GQ) : (s.setQueue k v).msgs = s.msgs := rfl
@[simp] theorem setQueue_graphs (s : State) (k : Nat) (v : GQ) : (s.setQueue k v).graphs = s.graphs := rfl
@[simp] theorem setQueue_nodes (s : State) (k : Nat) (v : GQ) : (s.setQueue k v).nodes = s.nodes := rfl
@[simp] theorem setQueue_saved (s : State) (k : Nat) (v : GQ) : (s.setQueue k v).saved = s.saved := rfl
@[simp] theorem setQueue_queues (s : State) (k : Nat) (v : GQ) : (s.setQueue k v).queues = fset s.queues k v := rfl
@[simp] theorem setQueue_ferries (s : State) (k : Nat) (v : GQ) : (s.setQueue k v).ferries = s.ferries := rfl
@[simp] theorem setQueue_wins (s : State) (k : Nat) (v : GQ) : (s.setQueue k v).wins = s.wins := rfl
@[simp] theorem setQueue_tlb (s : State) (k : Nat) (v : GQ) : (s.setQueue k v).tlb = s.tlb := rfl
@[simp] theorem setQueue_nextId (s : State) (k : Nat) (v : GQ) : (s.setQueue k v).nextId = s.nextId := rfl
@[simp] theorem setQueue_agenda (s : State) (k : Nat) (v : GQ) : (s.setQueue k v).agenda = s.agenda := rfl
@[simp] theorem setQueue_bootStep (s : State) (k : Nat) (v : GQ) : (s.setQueue k v).bootStep = s.bootStep := rfl
@[simp] theorem setQueue_bootFail (s : State) (k : Nat) (v : GQ) : (s.setQueue k v).bootFail = s.bootFail := rfl
@[simp] theorem setQueue_bootPos (s : State) (k : Nat) (v : GQ) : (s.setQueue k v).bootPos = s.bootPos := rfl
@[simp] theorem setQueue_fwGood (s : State) (k : Nat) (v : GQ) : (s.setQueue k v).fwGood = s.fwGood := rfl
@[simp] theorem setQueue_mixRec (s : State) (k : Nat) (v : GQ) : (s.setQueue k v).mixRec = s.mixRec := rfl
@[simp] theorem setQueue_ageEn (s : State) (k : Nat) (v : GQ) : (s.setQueue k v).ageEn = s.ageEn := rfl
@[simp] theorem setQueue_ageK (s : State) (k : Nat) (v : GQ) : (s.setQueue k v).ageK = s.ageK := rfl
@[simp] theorem setQueue_ageCap (s : State) (k : Nat) (v : GQ) : (s.setQueue k v).ageCap = s.ageCap := rfl
@[simp] theorem setQueue_holdLim (s : State) (k : Nat) (v : GQ) : (s.setQueue k v).holdLim = s.holdLim := rfl
@[simp] theorem setQueue_saveBase (s : State) (k : Nat) (v : GQ) : (s.setQueue k v).saveBase = s.saveBase := rfl
@[simp] theorem setQueue_saveEn (s : State) (k : Nat) (v : GQ) : (s.setQueue k v).saveEn = s.saveEn := rfl
@[simp] theorem setQueue_lastQueue (s : State) (k : Nat) (v : GQ) : (s.setQueue k v).lastQueue = s.lastQueue := rfl
@[simp] theorem setQueue_reserver (s : State) (k : Nat) (v : GQ) : (s.setQueue k v).reserver = s.reserver := rfl
@[simp] theorem setQueue_placerDue (s : State) (k : Nat) (v : GQ) : (s.setQueue k v).placerDue = s.placerDue := rfl
@[simp] theorem setQueue_root (s : State) (k : Nat) (v : GQ) : (s.setQueue k v).root = s.root := rfl
@[simp] theorem setQueue_flogHead (s : State) (k : Nat) (v : GQ) : (s.setQueue k v).flogHead = s.flogHead := rfl
@[simp] theorem setQueue_msix (s : State) (k : Nat) (v : GQ) : (s.setQueue k v).msix = s.msix := rfl
@[simp] theorem setQueue_memClass (s : State) (k : Nat) (v : GQ) : (s.setQueue k v).memClass = s.memClass := rfl
@[simp] theorem setQueue_pwrlim (s : State) (k : Nat) (v : GQ) : (s.setQueue k v).pwrlim = s.pwrlim := rfl
@[simp] theorem setQueue_nonce (s : State) (k : Nat) (v : GQ) : (s.setQueue k v).nonce = s.nonce := rfl
@[simp] theorem setQueue_reportDpa (s : State) (k : Nat) (v : GQ) : (s.setQueue k v).reportDpa = s.reportDpa := rfl
@[simp] theorem setQueue_attestDone (s : State) (k : Nat) (v : GQ) : (s.setQueue k v).attestDone = s.attestDone := rfl
@[simp] theorem setQueue_attestRefused (s : State) (k : Nat) (v : GQ) : (s.setQueue k v).attestRefused = s.attestRefused := rfl
@[simp] theorem setQueue_keysErased (s : State) (k : Nat) (v : GQ) : (s.setQueue k v).keysErased = s.keysErased := rfl
@[simp] theorem setQueue_lastWake (s : State) (k : Nat) (v : GQ) : (s.setQueue k v).lastWake = s.lastWake := rfl
@[simp] theorem setQueue_almcfg (s : State) (k : Nat) (v : GQ) : (s.setQueue k v).almcfg = s.almcfg := rfl
@[simp] theorem setQueue_almSet (s : State) (k : Nat) (v : GQ) : (s.setQueue k v).almSet = s.almSet := rfl
@[simp] theorem setQueue_almfuse (s : State) (k : Nat) (v : GQ) : (s.setQueue k v).almfuse = s.almfuse := rfl
@[simp] theorem setQueue_dbgLocked (s : State) (k : Nat) (v : GQ) : (s.setQueue k v).dbgLocked = s.dbgLocked := rfl
@[simp] theorem setQueue_halted (s : State) (k : Nat) (v : GQ) : (s.setQueue k v).halted = s.halted := rfl
@[simp] theorem setQueue_hostRead (s : State) (k : Nat) (v : GQ) : (s.setQueue k v).hostRead = s.hostRead := rfl
@[simp] theorem setQueue_free (s : State) (k : Nat) (v : GQ) : (s.setQueue k v).free = s.free := rfl
@[simp] theorem setQueue_iss (s : State) (k : Nat) (v : GQ) : (s.setQueue k v).iss = s.iss := rfl
@[simp] theorem setQueue_ev (s : State) (k : Nat) (v : GQ) : (s.setQueue k v).ev = s.ev := rfl
@[simp] theorem setQueue_clkOf (s : State) (k : Nat) (v : GQ) : (s.setQueue k v).clkOf = s.clkOf := rfl
@[simp] theorem setQueue_same (s : State) (k : Nat) (v : GQ) : (s.setQueue k v).queue k = v := fget_fset_same _ _ _ _
theorem setQueue_ne (s : State) (k : Nat) (v : GQ) {j : Nat} (h : j ≠ k) : (s.setQueue k v).queue j = s.queue j :=
  fget_fset_ne _ _ _ h

/-! ### setFerry -/

@[simp] theorem setFerry_tb (s : State) (k : Nat) (v : Ferry) : (s.setFerry k v).tb = s.tb := rfl
@[simp] theorem setFerry_mem (s : State) (k : Nat) (v : Ferry) : (s.setFerry k v).mem = s.mem := rfl
@[simp] theorem setFerry_owned (s : State) (k : Nat) (v : Ferry) : (s.setFerry k v).owned = s.owned := rfl
@[simp] theorem setFerry_istore (s : State) (k : Nat) (v : Ferry) : (s.setFerry k v).istore = s.istore := rfl
@[simp] theorem setFerry_ctxs (s : State) (k : Nat) (v : Ferry) : (s.setFerry k v).ctxs = s.ctxs := rfl
@[simp] theorem setFerry_slots (s : State) (k : Nat) (v : Ferry) : (s.setFerry k v).slots = s.slots := rfl
@[simp] theorem setFerry_banks (s : State) (k : Nat) (v : Ferry) : (s.setFerry k v).banks = s.banks := rfl
@[simp] theorem setFerry_bankUse (s : State) (k : Nat) (v : Ferry) : (s.setFerry k v).bankUse = s.bankUse := rfl
@[simp] theorem setFerry_seqs (s : State) (k : Nat) (v : Ferry) : (s.setFerry k v).seqs = s.seqs := rfl
@[simp] theorem setFerry_swrs (s : State) (k : Nat) (v : Ferry) : (s.setFerry k v).swrs = s.swrs := rfl
@[simp] theorem setFerry_tasks (s : State) (k : Nat) (v : Ferry) : (s.setFerry k v).tasks = s.tasks := rfl
@[simp] theorem setFerry_parts (s : State) (k : Nat) (v : Ferry) : (s.setFerry k v).parts = s.parts := rfl
@[simp] theorem setFerry_pcores (s : State) (k : Nat) (v : Ferry) : (s.setFerry k v).pcores = s.pcores := rfl
@[simp] theorem setFerry_mxs (s : State) (k : Nat) (v : Ferry) : (s.setFerry k v).mxs = s.mxs := rfl
@[simp] theorem setFerry_sports (s : State) (k : Nat) (v : Ferry) : (s.setFerry k v).sports = s.sports := rfl
@[simp] theorem setFerry_fabs (s : State) (k : Nat) (v : Ferry) : (s.setFerry k v).fabs = s.fabs := rfl
@[simp] theorem setFerry_clusters (s : State) (k : Nat) (v : Ferry) : (s.setFerry k v).clusters = s.clusters := rfl
@[simp] theorem setFerry_dies (s : State) (k : Nat) (v : Ferry) : (s.setFerry k v).dies = s.dies := rfl
@[simp] theorem setFerry_memStacks (s : State) (k : Nat) (v : Ferry) : (s.setFerry k v).memStacks = s.memStacks := rfl
@[simp] theorem setFerry_cmds (s : State) (k : Nat) (v : Ferry) : (s.setFerry k v).cmds = s.cmds := rfl
@[simp] theorem setFerry_writes (s : State) (k : Nat) (v : Ferry) : (s.setFerry k v).writes = s.writes := rfl
@[simp] theorem setFerry_syncs (s : State) (k : Nat) (v : Ferry) : (s.setFerry k v).syncs = s.syncs := rfl
@[simp] theorem setFerry_msgs (s : State) (k : Nat) (v : Ferry) : (s.setFerry k v).msgs = s.msgs := rfl
@[simp] theorem setFerry_graphs (s : State) (k : Nat) (v : Ferry) : (s.setFerry k v).graphs = s.graphs := rfl
@[simp] theorem setFerry_nodes (s : State) (k : Nat) (v : Ferry) : (s.setFerry k v).nodes = s.nodes := rfl
@[simp] theorem setFerry_saved (s : State) (k : Nat) (v : Ferry) : (s.setFerry k v).saved = s.saved := rfl
@[simp] theorem setFerry_queues (s : State) (k : Nat) (v : Ferry) : (s.setFerry k v).queues = s.queues := rfl
@[simp] theorem setFerry_ferries (s : State) (k : Nat) (v : Ferry) : (s.setFerry k v).ferries = fset s.ferries k v := rfl
@[simp] theorem setFerry_wins (s : State) (k : Nat) (v : Ferry) : (s.setFerry k v).wins = s.wins := rfl
@[simp] theorem setFerry_tlb (s : State) (k : Nat) (v : Ferry) : (s.setFerry k v).tlb = s.tlb := rfl
@[simp] theorem setFerry_nextId (s : State) (k : Nat) (v : Ferry) : (s.setFerry k v).nextId = s.nextId := rfl
@[simp] theorem setFerry_agenda (s : State) (k : Nat) (v : Ferry) : (s.setFerry k v).agenda = s.agenda := rfl
@[simp] theorem setFerry_bootStep (s : State) (k : Nat) (v : Ferry) : (s.setFerry k v).bootStep = s.bootStep := rfl
@[simp] theorem setFerry_bootFail (s : State) (k : Nat) (v : Ferry) : (s.setFerry k v).bootFail = s.bootFail := rfl
@[simp] theorem setFerry_bootPos (s : State) (k : Nat) (v : Ferry) : (s.setFerry k v).bootPos = s.bootPos := rfl
@[simp] theorem setFerry_fwGood (s : State) (k : Nat) (v : Ferry) : (s.setFerry k v).fwGood = s.fwGood := rfl
@[simp] theorem setFerry_mixRec (s : State) (k : Nat) (v : Ferry) : (s.setFerry k v).mixRec = s.mixRec := rfl
@[simp] theorem setFerry_ageEn (s : State) (k : Nat) (v : Ferry) : (s.setFerry k v).ageEn = s.ageEn := rfl
@[simp] theorem setFerry_ageK (s : State) (k : Nat) (v : Ferry) : (s.setFerry k v).ageK = s.ageK := rfl
@[simp] theorem setFerry_ageCap (s : State) (k : Nat) (v : Ferry) : (s.setFerry k v).ageCap = s.ageCap := rfl
@[simp] theorem setFerry_holdLim (s : State) (k : Nat) (v : Ferry) : (s.setFerry k v).holdLim = s.holdLim := rfl
@[simp] theorem setFerry_saveBase (s : State) (k : Nat) (v : Ferry) : (s.setFerry k v).saveBase = s.saveBase := rfl
@[simp] theorem setFerry_saveEn (s : State) (k : Nat) (v : Ferry) : (s.setFerry k v).saveEn = s.saveEn := rfl
@[simp] theorem setFerry_lastQueue (s : State) (k : Nat) (v : Ferry) : (s.setFerry k v).lastQueue = s.lastQueue := rfl
@[simp] theorem setFerry_reserver (s : State) (k : Nat) (v : Ferry) : (s.setFerry k v).reserver = s.reserver := rfl
@[simp] theorem setFerry_placerDue (s : State) (k : Nat) (v : Ferry) : (s.setFerry k v).placerDue = s.placerDue := rfl
@[simp] theorem setFerry_root (s : State) (k : Nat) (v : Ferry) : (s.setFerry k v).root = s.root := rfl
@[simp] theorem setFerry_flogHead (s : State) (k : Nat) (v : Ferry) : (s.setFerry k v).flogHead = s.flogHead := rfl
@[simp] theorem setFerry_msix (s : State) (k : Nat) (v : Ferry) : (s.setFerry k v).msix = s.msix := rfl
@[simp] theorem setFerry_memClass (s : State) (k : Nat) (v : Ferry) : (s.setFerry k v).memClass = s.memClass := rfl
@[simp] theorem setFerry_pwrlim (s : State) (k : Nat) (v : Ferry) : (s.setFerry k v).pwrlim = s.pwrlim := rfl
@[simp] theorem setFerry_nonce (s : State) (k : Nat) (v : Ferry) : (s.setFerry k v).nonce = s.nonce := rfl
@[simp] theorem setFerry_reportDpa (s : State) (k : Nat) (v : Ferry) : (s.setFerry k v).reportDpa = s.reportDpa := rfl
@[simp] theorem setFerry_attestDone (s : State) (k : Nat) (v : Ferry) : (s.setFerry k v).attestDone = s.attestDone := rfl
@[simp] theorem setFerry_attestRefused (s : State) (k : Nat) (v : Ferry) : (s.setFerry k v).attestRefused = s.attestRefused := rfl
@[simp] theorem setFerry_keysErased (s : State) (k : Nat) (v : Ferry) : (s.setFerry k v).keysErased = s.keysErased := rfl
@[simp] theorem setFerry_lastWake (s : State) (k : Nat) (v : Ferry) : (s.setFerry k v).lastWake = s.lastWake := rfl
@[simp] theorem setFerry_almcfg (s : State) (k : Nat) (v : Ferry) : (s.setFerry k v).almcfg = s.almcfg := rfl
@[simp] theorem setFerry_almSet (s : State) (k : Nat) (v : Ferry) : (s.setFerry k v).almSet = s.almSet := rfl
@[simp] theorem setFerry_almfuse (s : State) (k : Nat) (v : Ferry) : (s.setFerry k v).almfuse = s.almfuse := rfl
@[simp] theorem setFerry_dbgLocked (s : State) (k : Nat) (v : Ferry) : (s.setFerry k v).dbgLocked = s.dbgLocked := rfl
@[simp] theorem setFerry_halted (s : State) (k : Nat) (v : Ferry) : (s.setFerry k v).halted = s.halted := rfl
@[simp] theorem setFerry_hostRead (s : State) (k : Nat) (v : Ferry) : (s.setFerry k v).hostRead = s.hostRead := rfl
@[simp] theorem setFerry_free (s : State) (k : Nat) (v : Ferry) : (s.setFerry k v).free = s.free := rfl
@[simp] theorem setFerry_iss (s : State) (k : Nat) (v : Ferry) : (s.setFerry k v).iss = s.iss := rfl
@[simp] theorem setFerry_ev (s : State) (k : Nat) (v : Ferry) : (s.setFerry k v).ev = s.ev := rfl
@[simp] theorem setFerry_clkOf (s : State) (k : Nat) (v : Ferry) : (s.setFerry k v).clkOf = s.clkOf := rfl
@[simp] theorem setFerry_same (s : State) (k : Nat) (v : Ferry) : (s.setFerry k v).ferry k = v := fget_fset_same _ _ _ _
theorem setFerry_ne (s : State) (k : Nat) (v : Ferry) {j : Nat} (h : j ≠ k) : (s.setFerry k v).ferry j = s.ferry j :=
  fget_fset_ne _ _ _ h

/-! ### setWin -/

@[simp] theorem setWin_tb (s : State) (k : Nat) (v : Win) : (s.setWin k v).tb = s.tb := rfl
@[simp] theorem setWin_mem (s : State) (k : Nat) (v : Win) : (s.setWin k v).mem = s.mem := rfl
@[simp] theorem setWin_owned (s : State) (k : Nat) (v : Win) : (s.setWin k v).owned = s.owned := rfl
@[simp] theorem setWin_istore (s : State) (k : Nat) (v : Win) : (s.setWin k v).istore = s.istore := rfl
@[simp] theorem setWin_ctxs (s : State) (k : Nat) (v : Win) : (s.setWin k v).ctxs = s.ctxs := rfl
@[simp] theorem setWin_slots (s : State) (k : Nat) (v : Win) : (s.setWin k v).slots = s.slots := rfl
@[simp] theorem setWin_banks (s : State) (k : Nat) (v : Win) : (s.setWin k v).banks = s.banks := rfl
@[simp] theorem setWin_bankUse (s : State) (k : Nat) (v : Win) : (s.setWin k v).bankUse = s.bankUse := rfl
@[simp] theorem setWin_seqs (s : State) (k : Nat) (v : Win) : (s.setWin k v).seqs = s.seqs := rfl
@[simp] theorem setWin_swrs (s : State) (k : Nat) (v : Win) : (s.setWin k v).swrs = s.swrs := rfl
@[simp] theorem setWin_tasks (s : State) (k : Nat) (v : Win) : (s.setWin k v).tasks = s.tasks := rfl
@[simp] theorem setWin_parts (s : State) (k : Nat) (v : Win) : (s.setWin k v).parts = s.parts := rfl
@[simp] theorem setWin_pcores (s : State) (k : Nat) (v : Win) : (s.setWin k v).pcores = s.pcores := rfl
@[simp] theorem setWin_mxs (s : State) (k : Nat) (v : Win) : (s.setWin k v).mxs = s.mxs := rfl
@[simp] theorem setWin_sports (s : State) (k : Nat) (v : Win) : (s.setWin k v).sports = s.sports := rfl
@[simp] theorem setWin_fabs (s : State) (k : Nat) (v : Win) : (s.setWin k v).fabs = s.fabs := rfl
@[simp] theorem setWin_clusters (s : State) (k : Nat) (v : Win) : (s.setWin k v).clusters = s.clusters := rfl
@[simp] theorem setWin_dies (s : State) (k : Nat) (v : Win) : (s.setWin k v).dies = s.dies := rfl
@[simp] theorem setWin_memStacks (s : State) (k : Nat) (v : Win) : (s.setWin k v).memStacks = s.memStacks := rfl
@[simp] theorem setWin_cmds (s : State) (k : Nat) (v : Win) : (s.setWin k v).cmds = s.cmds := rfl
@[simp] theorem setWin_writes (s : State) (k : Nat) (v : Win) : (s.setWin k v).writes = s.writes := rfl
@[simp] theorem setWin_syncs (s : State) (k : Nat) (v : Win) : (s.setWin k v).syncs = s.syncs := rfl
@[simp] theorem setWin_msgs (s : State) (k : Nat) (v : Win) : (s.setWin k v).msgs = s.msgs := rfl
@[simp] theorem setWin_graphs (s : State) (k : Nat) (v : Win) : (s.setWin k v).graphs = s.graphs := rfl
@[simp] theorem setWin_nodes (s : State) (k : Nat) (v : Win) : (s.setWin k v).nodes = s.nodes := rfl
@[simp] theorem setWin_saved (s : State) (k : Nat) (v : Win) : (s.setWin k v).saved = s.saved := rfl
@[simp] theorem setWin_queues (s : State) (k : Nat) (v : Win) : (s.setWin k v).queues = s.queues := rfl
@[simp] theorem setWin_ferries (s : State) (k : Nat) (v : Win) : (s.setWin k v).ferries = s.ferries := rfl
@[simp] theorem setWin_wins (s : State) (k : Nat) (v : Win) : (s.setWin k v).wins = fset s.wins k v := rfl
@[simp] theorem setWin_tlb (s : State) (k : Nat) (v : Win) : (s.setWin k v).tlb = s.tlb := rfl
@[simp] theorem setWin_nextId (s : State) (k : Nat) (v : Win) : (s.setWin k v).nextId = s.nextId := rfl
@[simp] theorem setWin_agenda (s : State) (k : Nat) (v : Win) : (s.setWin k v).agenda = s.agenda := rfl
@[simp] theorem setWin_bootStep (s : State) (k : Nat) (v : Win) : (s.setWin k v).bootStep = s.bootStep := rfl
@[simp] theorem setWin_bootFail (s : State) (k : Nat) (v : Win) : (s.setWin k v).bootFail = s.bootFail := rfl
@[simp] theorem setWin_bootPos (s : State) (k : Nat) (v : Win) : (s.setWin k v).bootPos = s.bootPos := rfl
@[simp] theorem setWin_fwGood (s : State) (k : Nat) (v : Win) : (s.setWin k v).fwGood = s.fwGood := rfl
@[simp] theorem setWin_mixRec (s : State) (k : Nat) (v : Win) : (s.setWin k v).mixRec = s.mixRec := rfl
@[simp] theorem setWin_ageEn (s : State) (k : Nat) (v : Win) : (s.setWin k v).ageEn = s.ageEn := rfl
@[simp] theorem setWin_ageK (s : State) (k : Nat) (v : Win) : (s.setWin k v).ageK = s.ageK := rfl
@[simp] theorem setWin_ageCap (s : State) (k : Nat) (v : Win) : (s.setWin k v).ageCap = s.ageCap := rfl
@[simp] theorem setWin_holdLim (s : State) (k : Nat) (v : Win) : (s.setWin k v).holdLim = s.holdLim := rfl
@[simp] theorem setWin_saveBase (s : State) (k : Nat) (v : Win) : (s.setWin k v).saveBase = s.saveBase := rfl
@[simp] theorem setWin_saveEn (s : State) (k : Nat) (v : Win) : (s.setWin k v).saveEn = s.saveEn := rfl
@[simp] theorem setWin_lastQueue (s : State) (k : Nat) (v : Win) : (s.setWin k v).lastQueue = s.lastQueue := rfl
@[simp] theorem setWin_reserver (s : State) (k : Nat) (v : Win) : (s.setWin k v).reserver = s.reserver := rfl
@[simp] theorem setWin_placerDue (s : State) (k : Nat) (v : Win) : (s.setWin k v).placerDue = s.placerDue := rfl
@[simp] theorem setWin_root (s : State) (k : Nat) (v : Win) : (s.setWin k v).root = s.root := rfl
@[simp] theorem setWin_flogHead (s : State) (k : Nat) (v : Win) : (s.setWin k v).flogHead = s.flogHead := rfl
@[simp] theorem setWin_msix (s : State) (k : Nat) (v : Win) : (s.setWin k v).msix = s.msix := rfl
@[simp] theorem setWin_memClass (s : State) (k : Nat) (v : Win) : (s.setWin k v).memClass = s.memClass := rfl
@[simp] theorem setWin_pwrlim (s : State) (k : Nat) (v : Win) : (s.setWin k v).pwrlim = s.pwrlim := rfl
@[simp] theorem setWin_nonce (s : State) (k : Nat) (v : Win) : (s.setWin k v).nonce = s.nonce := rfl
@[simp] theorem setWin_reportDpa (s : State) (k : Nat) (v : Win) : (s.setWin k v).reportDpa = s.reportDpa := rfl
@[simp] theorem setWin_attestDone (s : State) (k : Nat) (v : Win) : (s.setWin k v).attestDone = s.attestDone := rfl
@[simp] theorem setWin_attestRefused (s : State) (k : Nat) (v : Win) : (s.setWin k v).attestRefused = s.attestRefused := rfl
@[simp] theorem setWin_keysErased (s : State) (k : Nat) (v : Win) : (s.setWin k v).keysErased = s.keysErased := rfl
@[simp] theorem setWin_lastWake (s : State) (k : Nat) (v : Win) : (s.setWin k v).lastWake = s.lastWake := rfl
@[simp] theorem setWin_almcfg (s : State) (k : Nat) (v : Win) : (s.setWin k v).almcfg = s.almcfg := rfl
@[simp] theorem setWin_almSet (s : State) (k : Nat) (v : Win) : (s.setWin k v).almSet = s.almSet := rfl
@[simp] theorem setWin_almfuse (s : State) (k : Nat) (v : Win) : (s.setWin k v).almfuse = s.almfuse := rfl
@[simp] theorem setWin_dbgLocked (s : State) (k : Nat) (v : Win) : (s.setWin k v).dbgLocked = s.dbgLocked := rfl
@[simp] theorem setWin_halted (s : State) (k : Nat) (v : Win) : (s.setWin k v).halted = s.halted := rfl
@[simp] theorem setWin_hostRead (s : State) (k : Nat) (v : Win) : (s.setWin k v).hostRead = s.hostRead := rfl
@[simp] theorem setWin_free (s : State) (k : Nat) (v : Win) : (s.setWin k v).free = s.free := rfl
@[simp] theorem setWin_iss (s : State) (k : Nat) (v : Win) : (s.setWin k v).iss = s.iss := rfl
@[simp] theorem setWin_ev (s : State) (k : Nat) (v : Win) : (s.setWin k v).ev = s.ev := rfl
@[simp] theorem setWin_clkOf (s : State) (k : Nat) (v : Win) : (s.setWin k v).clkOf = s.clkOf := rfl
@[simp] theorem setWin_same (s : State) (k : Nat) (v : Win) : (s.setWin k v).win k = v := fget_fset_same _ _ _ _
theorem setWin_ne (s : State) (k : Nat) (v : Win) {j : Nat} (h : j ≠ k) : (s.setWin k v).win j = s.win j :=
  fget_fset_ne _ _ _ h

/-! ### setMx -/

@[simp] theorem setMx_tb (s : State) (k : Nat) (v : Mx) : (s.setMx k v).tb = s.tb := rfl
@[simp] theorem setMx_mem (s : State) (k : Nat) (v : Mx) : (s.setMx k v).mem = s.mem := rfl
@[simp] theorem setMx_owned (s : State) (k : Nat) (v : Mx) : (s.setMx k v).owned = s.owned := rfl
@[simp] theorem setMx_istore (s : State) (k : Nat) (v : Mx) : (s.setMx k v).istore = s.istore := rfl
@[simp] theorem setMx_ctxs (s : State) (k : Nat) (v : Mx) : (s.setMx k v).ctxs = s.ctxs := rfl
@[simp] theorem setMx_slots (s : State) (k : Nat) (v : Mx) : (s.setMx k v).slots = s.slots := rfl
@[simp] theorem setMx_banks (s : State) (k : Nat) (v : Mx) : (s.setMx k v).banks = s.banks := rfl
@[simp] theorem setMx_bankUse (s : State) (k : Nat) (v : Mx) : (s.setMx k v).bankUse = s.bankUse := rfl
@[simp] theorem setMx_seqs (s : State) (k : Nat) (v : Mx) : (s.setMx k v).seqs = s.seqs := rfl
@[simp] theorem setMx_swrs (s : State) (k : Nat) (v : Mx) : (s.setMx k v).swrs = s.swrs := rfl
@[simp] theorem setMx_tasks (s : State) (k : Nat) (v : Mx) : (s.setMx k v).tasks = s.tasks := rfl
@[simp] theorem setMx_parts (s : State) (k : Nat) (v : Mx) : (s.setMx k v).parts = s.parts := rfl
@[simp] theorem setMx_pcores (s : State) (k : Nat) (v : Mx) : (s.setMx k v).pcores = s.pcores := rfl
@[simp] theorem setMx_mxs (s : State) (k : Nat) (v : Mx) : (s.setMx k v).mxs = fset s.mxs k v := rfl
@[simp] theorem setMx_sports (s : State) (k : Nat) (v : Mx) : (s.setMx k v).sports = s.sports := rfl
@[simp] theorem setMx_fabs (s : State) (k : Nat) (v : Mx) : (s.setMx k v).fabs = s.fabs := rfl
@[simp] theorem setMx_clusters (s : State) (k : Nat) (v : Mx) : (s.setMx k v).clusters = s.clusters := rfl
@[simp] theorem setMx_dies (s : State) (k : Nat) (v : Mx) : (s.setMx k v).dies = s.dies := rfl
@[simp] theorem setMx_memStacks (s : State) (k : Nat) (v : Mx) : (s.setMx k v).memStacks = s.memStacks := rfl
@[simp] theorem setMx_cmds (s : State) (k : Nat) (v : Mx) : (s.setMx k v).cmds = s.cmds := rfl
@[simp] theorem setMx_writes (s : State) (k : Nat) (v : Mx) : (s.setMx k v).writes = s.writes := rfl
@[simp] theorem setMx_syncs (s : State) (k : Nat) (v : Mx) : (s.setMx k v).syncs = s.syncs := rfl
@[simp] theorem setMx_msgs (s : State) (k : Nat) (v : Mx) : (s.setMx k v).msgs = s.msgs := rfl
@[simp] theorem setMx_graphs (s : State) (k : Nat) (v : Mx) : (s.setMx k v).graphs = s.graphs := rfl
@[simp] theorem setMx_nodes (s : State) (k : Nat) (v : Mx) : (s.setMx k v).nodes = s.nodes := rfl
@[simp] theorem setMx_saved (s : State) (k : Nat) (v : Mx) : (s.setMx k v).saved = s.saved := rfl
@[simp] theorem setMx_queues (s : State) (k : Nat) (v : Mx) : (s.setMx k v).queues = s.queues := rfl
@[simp] theorem setMx_ferries (s : State) (k : Nat) (v : Mx) : (s.setMx k v).ferries = s.ferries := rfl
@[simp] theorem setMx_wins (s : State) (k : Nat) (v : Mx) : (s.setMx k v).wins = s.wins := rfl
@[simp] theorem setMx_tlb (s : State) (k : Nat) (v : Mx) : (s.setMx k v).tlb = s.tlb := rfl
@[simp] theorem setMx_nextId (s : State) (k : Nat) (v : Mx) : (s.setMx k v).nextId = s.nextId := rfl
@[simp] theorem setMx_agenda (s : State) (k : Nat) (v : Mx) : (s.setMx k v).agenda = s.agenda := rfl
@[simp] theorem setMx_bootStep (s : State) (k : Nat) (v : Mx) : (s.setMx k v).bootStep = s.bootStep := rfl
@[simp] theorem setMx_bootFail (s : State) (k : Nat) (v : Mx) : (s.setMx k v).bootFail = s.bootFail := rfl
@[simp] theorem setMx_bootPos (s : State) (k : Nat) (v : Mx) : (s.setMx k v).bootPos = s.bootPos := rfl
@[simp] theorem setMx_fwGood (s : State) (k : Nat) (v : Mx) : (s.setMx k v).fwGood = s.fwGood := rfl
@[simp] theorem setMx_mixRec (s : State) (k : Nat) (v : Mx) : (s.setMx k v).mixRec = s.mixRec := rfl
@[simp] theorem setMx_ageEn (s : State) (k : Nat) (v : Mx) : (s.setMx k v).ageEn = s.ageEn := rfl
@[simp] theorem setMx_ageK (s : State) (k : Nat) (v : Mx) : (s.setMx k v).ageK = s.ageK := rfl
@[simp] theorem setMx_ageCap (s : State) (k : Nat) (v : Mx) : (s.setMx k v).ageCap = s.ageCap := rfl
@[simp] theorem setMx_holdLim (s : State) (k : Nat) (v : Mx) : (s.setMx k v).holdLim = s.holdLim := rfl
@[simp] theorem setMx_saveBase (s : State) (k : Nat) (v : Mx) : (s.setMx k v).saveBase = s.saveBase := rfl
@[simp] theorem setMx_saveEn (s : State) (k : Nat) (v : Mx) : (s.setMx k v).saveEn = s.saveEn := rfl
@[simp] theorem setMx_lastQueue (s : State) (k : Nat) (v : Mx) : (s.setMx k v).lastQueue = s.lastQueue := rfl
@[simp] theorem setMx_reserver (s : State) (k : Nat) (v : Mx) : (s.setMx k v).reserver = s.reserver := rfl
@[simp] theorem setMx_placerDue (s : State) (k : Nat) (v : Mx) : (s.setMx k v).placerDue = s.placerDue := rfl
@[simp] theorem setMx_root (s : State) (k : Nat) (v : Mx) : (s.setMx k v).root = s.root := rfl
@[simp] theorem setMx_flogHead (s : State) (k : Nat) (v : Mx) : (s.setMx k v).flogHead = s.flogHead := rfl
@[simp] theorem setMx_msix (s : State) (k : Nat) (v : Mx) : (s.setMx k v).msix = s.msix := rfl
@[simp] theorem setMx_memClass (s : State) (k : Nat) (v : Mx) : (s.setMx k v).memClass = s.memClass := rfl
@[simp] theorem setMx_pwrlim (s : State) (k : Nat) (v : Mx) : (s.setMx k v).pwrlim = s.pwrlim := rfl
@[simp] theorem setMx_nonce (s : State) (k : Nat) (v : Mx) : (s.setMx k v).nonce = s.nonce := rfl
@[simp] theorem setMx_reportDpa (s : State) (k : Nat) (v : Mx) : (s.setMx k v).reportDpa = s.reportDpa := rfl
@[simp] theorem setMx_attestDone (s : State) (k : Nat) (v : Mx) : (s.setMx k v).attestDone = s.attestDone := rfl
@[simp] theorem setMx_attestRefused (s : State) (k : Nat) (v : Mx) : (s.setMx k v).attestRefused = s.attestRefused := rfl
@[simp] theorem setMx_keysErased (s : State) (k : Nat) (v : Mx) : (s.setMx k v).keysErased = s.keysErased := rfl
@[simp] theorem setMx_lastWake (s : State) (k : Nat) (v : Mx) : (s.setMx k v).lastWake = s.lastWake := rfl
@[simp] theorem setMx_almcfg (s : State) (k : Nat) (v : Mx) : (s.setMx k v).almcfg = s.almcfg := rfl
@[simp] theorem setMx_almSet (s : State) (k : Nat) (v : Mx) : (s.setMx k v).almSet = s.almSet := rfl
@[simp] theorem setMx_almfuse (s : State) (k : Nat) (v : Mx) : (s.setMx k v).almfuse = s.almfuse := rfl
@[simp] theorem setMx_dbgLocked (s : State) (k : Nat) (v : Mx) : (s.setMx k v).dbgLocked = s.dbgLocked := rfl
@[simp] theorem setMx_halted (s : State) (k : Nat) (v : Mx) : (s.setMx k v).halted = s.halted := rfl
@[simp] theorem setMx_hostRead (s : State) (k : Nat) (v : Mx) : (s.setMx k v).hostRead = s.hostRead := rfl
@[simp] theorem setMx_free (s : State) (k : Nat) (v : Mx) : (s.setMx k v).free = s.free := rfl
@[simp] theorem setMx_iss (s : State) (k : Nat) (v : Mx) : (s.setMx k v).iss = s.iss := rfl
@[simp] theorem setMx_ev (s : State) (k : Nat) (v : Mx) : (s.setMx k v).ev = s.ev := rfl
@[simp] theorem setMx_clkOf (s : State) (k : Nat) (v : Mx) : (s.setMx k v).clkOf = s.clkOf := rfl
@[simp] theorem setMx_same (s : State) (k : Nat) (v : Mx) : (s.setMx k v).mx k = v := fget_fset_same _ _ _ _
theorem setMx_ne (s : State) (k : Nat) (v : Mx) {j : Nat} (h : j ≠ k) : (s.setMx k v).mx j = s.mx j :=
  fget_fset_ne _ _ _ h

/-! ### setFab -/

@[simp] theorem setFab_tb (s : State) (k : Nat) (v : Fab) : (s.setFab k v).tb = s.tb := rfl
@[simp] theorem setFab_mem (s : State) (k : Nat) (v : Fab) : (s.setFab k v).mem = s.mem := rfl
@[simp] theorem setFab_owned (s : State) (k : Nat) (v : Fab) : (s.setFab k v).owned = s.owned := rfl
@[simp] theorem setFab_istore (s : State) (k : Nat) (v : Fab) : (s.setFab k v).istore = s.istore := rfl
@[simp] theorem setFab_ctxs (s : State) (k : Nat) (v : Fab) : (s.setFab k v).ctxs = s.ctxs := rfl
@[simp] theorem setFab_slots (s : State) (k : Nat) (v : Fab) : (s.setFab k v).slots = s.slots := rfl
@[simp] theorem setFab_banks (s : State) (k : Nat) (v : Fab) : (s.setFab k v).banks = s.banks := rfl
@[simp] theorem setFab_bankUse (s : State) (k : Nat) (v : Fab) : (s.setFab k v).bankUse = s.bankUse := rfl
@[simp] theorem setFab_seqs (s : State) (k : Nat) (v : Fab) : (s.setFab k v).seqs = s.seqs := rfl
@[simp] theorem setFab_swrs (s : State) (k : Nat) (v : Fab) : (s.setFab k v).swrs = s.swrs := rfl
@[simp] theorem setFab_tasks (s : State) (k : Nat) (v : Fab) : (s.setFab k v).tasks = s.tasks := rfl
@[simp] theorem setFab_parts (s : State) (k : Nat) (v : Fab) : (s.setFab k v).parts = s.parts := rfl
@[simp] theorem setFab_pcores (s : State) (k : Nat) (v : Fab) : (s.setFab k v).pcores = s.pcores := rfl
@[simp] theorem setFab_mxs (s : State) (k : Nat) (v : Fab) : (s.setFab k v).mxs = s.mxs := rfl
@[simp] theorem setFab_sports (s : State) (k : Nat) (v : Fab) : (s.setFab k v).sports = s.sports := rfl
@[simp] theorem setFab_fabs (s : State) (k : Nat) (v : Fab) : (s.setFab k v).fabs = fset s.fabs k v := rfl
@[simp] theorem setFab_clusters (s : State) (k : Nat) (v : Fab) : (s.setFab k v).clusters = s.clusters := rfl
@[simp] theorem setFab_dies (s : State) (k : Nat) (v : Fab) : (s.setFab k v).dies = s.dies := rfl
@[simp] theorem setFab_memStacks (s : State) (k : Nat) (v : Fab) : (s.setFab k v).memStacks = s.memStacks := rfl
@[simp] theorem setFab_cmds (s : State) (k : Nat) (v : Fab) : (s.setFab k v).cmds = s.cmds := rfl
@[simp] theorem setFab_writes (s : State) (k : Nat) (v : Fab) : (s.setFab k v).writes = s.writes := rfl
@[simp] theorem setFab_syncs (s : State) (k : Nat) (v : Fab) : (s.setFab k v).syncs = s.syncs := rfl
@[simp] theorem setFab_msgs (s : State) (k : Nat) (v : Fab) : (s.setFab k v).msgs = s.msgs := rfl
@[simp] theorem setFab_graphs (s : State) (k : Nat) (v : Fab) : (s.setFab k v).graphs = s.graphs := rfl
@[simp] theorem setFab_nodes (s : State) (k : Nat) (v : Fab) : (s.setFab k v).nodes = s.nodes := rfl
@[simp] theorem setFab_saved (s : State) (k : Nat) (v : Fab) : (s.setFab k v).saved = s.saved := rfl
@[simp] theorem setFab_queues (s : State) (k : Nat) (v : Fab) : (s.setFab k v).queues = s.queues := rfl
@[simp] theorem setFab_ferries (s : State) (k : Nat) (v : Fab) : (s.setFab k v).ferries = s.ferries := rfl
@[simp] theorem setFab_wins (s : State) (k : Nat) (v : Fab) : (s.setFab k v).wins = s.wins := rfl
@[simp] theorem setFab_tlb (s : State) (k : Nat) (v : Fab) : (s.setFab k v).tlb = s.tlb := rfl
@[simp] theorem setFab_nextId (s : State) (k : Nat) (v : Fab) : (s.setFab k v).nextId = s.nextId := rfl
@[simp] theorem setFab_agenda (s : State) (k : Nat) (v : Fab) : (s.setFab k v).agenda = s.agenda := rfl
@[simp] theorem setFab_bootStep (s : State) (k : Nat) (v : Fab) : (s.setFab k v).bootStep = s.bootStep := rfl
@[simp] theorem setFab_bootFail (s : State) (k : Nat) (v : Fab) : (s.setFab k v).bootFail = s.bootFail := rfl
@[simp] theorem setFab_bootPos (s : State) (k : Nat) (v : Fab) : (s.setFab k v).bootPos = s.bootPos := rfl
@[simp] theorem setFab_fwGood (s : State) (k : Nat) (v : Fab) : (s.setFab k v).fwGood = s.fwGood := rfl
@[simp] theorem setFab_mixRec (s : State) (k : Nat) (v : Fab) : (s.setFab k v).mixRec = s.mixRec := rfl
@[simp] theorem setFab_ageEn (s : State) (k : Nat) (v : Fab) : (s.setFab k v).ageEn = s.ageEn := rfl
@[simp] theorem setFab_ageK (s : State) (k : Nat) (v : Fab) : (s.setFab k v).ageK = s.ageK := rfl
@[simp] theorem setFab_ageCap (s : State) (k : Nat) (v : Fab) : (s.setFab k v).ageCap = s.ageCap := rfl
@[simp] theorem setFab_holdLim (s : State) (k : Nat) (v : Fab) : (s.setFab k v).holdLim = s.holdLim := rfl
@[simp] theorem setFab_saveBase (s : State) (k : Nat) (v : Fab) : (s.setFab k v).saveBase = s.saveBase := rfl
@[simp] theorem setFab_saveEn (s : State) (k : Nat) (v : Fab) : (s.setFab k v).saveEn = s.saveEn := rfl
@[simp] theorem setFab_lastQueue (s : State) (k : Nat) (v : Fab) : (s.setFab k v).lastQueue = s.lastQueue := rfl
@[simp] theorem setFab_reserver (s : State) (k : Nat) (v : Fab) : (s.setFab k v).reserver = s.reserver := rfl
@[simp] theorem setFab_placerDue (s : State) (k : Nat) (v : Fab) : (s.setFab k v).placerDue = s.placerDue := rfl
@[simp] theorem setFab_root (s : State) (k : Nat) (v : Fab) : (s.setFab k v).root = s.root := rfl
@[simp] theorem setFab_flogHead (s : State) (k : Nat) (v : Fab) : (s.setFab k v).flogHead = s.flogHead := rfl
@[simp] theorem setFab_msix (s : State) (k : Nat) (v : Fab) : (s.setFab k v).msix = s.msix := rfl
@[simp] theorem setFab_memClass (s : State) (k : Nat) (v : Fab) : (s.setFab k v).memClass = s.memClass := rfl
@[simp] theorem setFab_pwrlim (s : State) (k : Nat) (v : Fab) : (s.setFab k v).pwrlim = s.pwrlim := rfl
@[simp] theorem setFab_nonce (s : State) (k : Nat) (v : Fab) : (s.setFab k v).nonce = s.nonce := rfl
@[simp] theorem setFab_reportDpa (s : State) (k : Nat) (v : Fab) : (s.setFab k v).reportDpa = s.reportDpa := rfl
@[simp] theorem setFab_attestDone (s : State) (k : Nat) (v : Fab) : (s.setFab k v).attestDone = s.attestDone := rfl
@[simp] theorem setFab_attestRefused (s : State) (k : Nat) (v : Fab) : (s.setFab k v).attestRefused = s.attestRefused := rfl
@[simp] theorem setFab_keysErased (s : State) (k : Nat) (v : Fab) : (s.setFab k v).keysErased = s.keysErased := rfl
@[simp] theorem setFab_lastWake (s : State) (k : Nat) (v : Fab) : (s.setFab k v).lastWake = s.lastWake := rfl
@[simp] theorem setFab_almcfg (s : State) (k : Nat) (v : Fab) : (s.setFab k v).almcfg = s.almcfg := rfl
@[simp] theorem setFab_almSet (s : State) (k : Nat) (v : Fab) : (s.setFab k v).almSet = s.almSet := rfl
@[simp] theorem setFab_almfuse (s : State) (k : Nat) (v : Fab) : (s.setFab k v).almfuse = s.almfuse := rfl
@[simp] theorem setFab_dbgLocked (s : State) (k : Nat) (v : Fab) : (s.setFab k v).dbgLocked = s.dbgLocked := rfl
@[simp] theorem setFab_halted (s : State) (k : Nat) (v : Fab) : (s.setFab k v).halted = s.halted := rfl
@[simp] theorem setFab_hostRead (s : State) (k : Nat) (v : Fab) : (s.setFab k v).hostRead = s.hostRead := rfl
@[simp] theorem setFab_free (s : State) (k : Nat) (v : Fab) : (s.setFab k v).free = s.free := rfl
@[simp] theorem setFab_iss (s : State) (k : Nat) (v : Fab) : (s.setFab k v).iss = s.iss := rfl
@[simp] theorem setFab_ev (s : State) (k : Nat) (v : Fab) : (s.setFab k v).ev = s.ev := rfl
@[simp] theorem setFab_clkOf (s : State) (k : Nat) (v : Fab) : (s.setFab k v).clkOf = s.clkOf := rfl
@[simp] theorem setFab_same (s : State) (k : Nat) (v : Fab) : (s.setFab k v).fab k = v := fget_fset_same _ _ _ _
theorem setFab_ne (s : State) (k : Nat) (v : Fab) {j : Nat} (h : j ≠ k) : (s.setFab k v).fab j = s.fab j :=
  fget_fset_ne _ _ _ h

/-! ### setSport -/

@[simp] theorem setSport_tb (s : State) (k : Nat) (v : SPort) : (s.setSport k v).tb = s.tb := rfl
@[simp] theorem setSport_mem (s : State) (k : Nat) (v : SPort) : (s.setSport k v).mem = s.mem := rfl
@[simp] theorem setSport_owned (s : State) (k : Nat) (v : SPort) : (s.setSport k v).owned = s.owned := rfl
@[simp] theorem setSport_istore (s : State) (k : Nat) (v : SPort) : (s.setSport k v).istore = s.istore := rfl
@[simp] theorem setSport_ctxs (s : State) (k : Nat) (v : SPort) : (s.setSport k v).ctxs = s.ctxs := rfl
@[simp] theorem setSport_slots (s : State) (k : Nat) (v : SPort) : (s.setSport k v).slots = s.slots := rfl
@[simp] theorem setSport_banks (s : State) (k : Nat) (v : SPort) : (s.setSport k v).banks = s.banks := rfl
@[simp] theorem setSport_bankUse (s : State) (k : Nat) (v : SPort) : (s.setSport k v).bankUse = s.bankUse := rfl
@[simp] theorem setSport_seqs (s : State) (k : Nat) (v : SPort) : (s.setSport k v).seqs = s.seqs := rfl
@[simp] theorem setSport_swrs (s : State) (k : Nat) (v : SPort) : (s.setSport k v).swrs = s.swrs := rfl
@[simp] theorem setSport_tasks (s : State) (k : Nat) (v : SPort) : (s.setSport k v).tasks = s.tasks := rfl
@[simp] theorem setSport_parts (s : State) (k : Nat) (v : SPort) : (s.setSport k v).parts = s.parts := rfl
@[simp] theorem setSport_pcores (s : State) (k : Nat) (v : SPort) : (s.setSport k v).pcores = s.pcores := rfl
@[simp] theorem setSport_mxs (s : State) (k : Nat) (v : SPort) : (s.setSport k v).mxs = s.mxs := rfl
@[simp] theorem setSport_sports (s : State) (k : Nat) (v : SPort) : (s.setSport k v).sports = fset s.sports k v := rfl
@[simp] theorem setSport_fabs (s : State) (k : Nat) (v : SPort) : (s.setSport k v).fabs = s.fabs := rfl
@[simp] theorem setSport_clusters (s : State) (k : Nat) (v : SPort) : (s.setSport k v).clusters = s.clusters := rfl
@[simp] theorem setSport_dies (s : State) (k : Nat) (v : SPort) : (s.setSport k v).dies = s.dies := rfl
@[simp] theorem setSport_memStacks (s : State) (k : Nat) (v : SPort) : (s.setSport k v).memStacks = s.memStacks := rfl
@[simp] theorem setSport_cmds (s : State) (k : Nat) (v : SPort) : (s.setSport k v).cmds = s.cmds := rfl
@[simp] theorem setSport_writes (s : State) (k : Nat) (v : SPort) : (s.setSport k v).writes = s.writes := rfl
@[simp] theorem setSport_syncs (s : State) (k : Nat) (v : SPort) : (s.setSport k v).syncs = s.syncs := rfl
@[simp] theorem setSport_msgs (s : State) (k : Nat) (v : SPort) : (s.setSport k v).msgs = s.msgs := rfl
@[simp] theorem setSport_graphs (s : State) (k : Nat) (v : SPort) : (s.setSport k v).graphs = s.graphs := rfl
@[simp] theorem setSport_nodes (s : State) (k : Nat) (v : SPort) : (s.setSport k v).nodes = s.nodes := rfl
@[simp] theorem setSport_saved (s : State) (k : Nat) (v : SPort) : (s.setSport k v).saved = s.saved := rfl
@[simp] theorem setSport_queues (s : State) (k : Nat) (v : SPort) : (s.setSport k v).queues = s.queues := rfl
@[simp] theorem setSport_ferries (s : State) (k : Nat) (v : SPort) : (s.setSport k v).ferries = s.ferries := rfl
@[simp] theorem setSport_wins (s : State) (k : Nat) (v : SPort) : (s.setSport k v).wins = s.wins := rfl
@[simp] theorem setSport_tlb (s : State) (k : Nat) (v : SPort) : (s.setSport k v).tlb = s.tlb := rfl
@[simp] theorem setSport_nextId (s : State) (k : Nat) (v : SPort) : (s.setSport k v).nextId = s.nextId := rfl
@[simp] theorem setSport_agenda (s : State) (k : Nat) (v : SPort) : (s.setSport k v).agenda = s.agenda := rfl
@[simp] theorem setSport_bootStep (s : State) (k : Nat) (v : SPort) : (s.setSport k v).bootStep = s.bootStep := rfl
@[simp] theorem setSport_bootFail (s : State) (k : Nat) (v : SPort) : (s.setSport k v).bootFail = s.bootFail := rfl
@[simp] theorem setSport_bootPos (s : State) (k : Nat) (v : SPort) : (s.setSport k v).bootPos = s.bootPos := rfl
@[simp] theorem setSport_fwGood (s : State) (k : Nat) (v : SPort) : (s.setSport k v).fwGood = s.fwGood := rfl
@[simp] theorem setSport_mixRec (s : State) (k : Nat) (v : SPort) : (s.setSport k v).mixRec = s.mixRec := rfl
@[simp] theorem setSport_ageEn (s : State) (k : Nat) (v : SPort) : (s.setSport k v).ageEn = s.ageEn := rfl
@[simp] theorem setSport_ageK (s : State) (k : Nat) (v : SPort) : (s.setSport k v).ageK = s.ageK := rfl
@[simp] theorem setSport_ageCap (s : State) (k : Nat) (v : SPort) : (s.setSport k v).ageCap = s.ageCap := rfl
@[simp] theorem setSport_holdLim (s : State) (k : Nat) (v : SPort) : (s.setSport k v).holdLim = s.holdLim := rfl
@[simp] theorem setSport_saveBase (s : State) (k : Nat) (v : SPort) : (s.setSport k v).saveBase = s.saveBase := rfl
@[simp] theorem setSport_saveEn (s : State) (k : Nat) (v : SPort) : (s.setSport k v).saveEn = s.saveEn := rfl
@[simp] theorem setSport_lastQueue (s : State) (k : Nat) (v : SPort) : (s.setSport k v).lastQueue = s.lastQueue := rfl
@[simp] theorem setSport_reserver (s : State) (k : Nat) (v : SPort) : (s.setSport k v).reserver = s.reserver := rfl
@[simp] theorem setSport_placerDue (s : State) (k : Nat) (v : SPort) : (s.setSport k v).placerDue = s.placerDue := rfl
@[simp] theorem setSport_root (s : State) (k : Nat) (v : SPort) : (s.setSport k v).root = s.root := rfl
@[simp] theorem setSport_flogHead (s : State) (k : Nat) (v : SPort) : (s.setSport k v).flogHead = s.flogHead := rfl
@[simp] theorem setSport_msix (s : State) (k : Nat) (v : SPort) : (s.setSport k v).msix = s.msix := rfl
@[simp] theorem setSport_memClass (s : State) (k : Nat) (v : SPort) : (s.setSport k v).memClass = s.memClass := rfl
@[simp] theorem setSport_pwrlim (s : State) (k : Nat) (v : SPort) : (s.setSport k v).pwrlim = s.pwrlim := rfl
@[simp] theorem setSport_nonce (s : State) (k : Nat) (v : SPort) : (s.setSport k v).nonce = s.nonce := rfl
@[simp] theorem setSport_reportDpa (s : State) (k : Nat) (v : SPort) : (s.setSport k v).reportDpa = s.reportDpa := rfl
@[simp] theorem setSport_attestDone (s : State) (k : Nat) (v : SPort) : (s.setSport k v).attestDone = s.attestDone := rfl
@[simp] theorem setSport_attestRefused (s : State) (k : Nat) (v : SPort) : (s.setSport k v).attestRefused = s.attestRefused := rfl
@[simp] theorem setSport_keysErased (s : State) (k : Nat) (v : SPort) : (s.setSport k v).keysErased = s.keysErased := rfl
@[simp] theorem setSport_lastWake (s : State) (k : Nat) (v : SPort) : (s.setSport k v).lastWake = s.lastWake := rfl
@[simp] theorem setSport_almcfg (s : State) (k : Nat) (v : SPort) : (s.setSport k v).almcfg = s.almcfg := rfl
@[simp] theorem setSport_almSet (s : State) (k : Nat) (v : SPort) : (s.setSport k v).almSet = s.almSet := rfl
@[simp] theorem setSport_almfuse (s : State) (k : Nat) (v : SPort) : (s.setSport k v).almfuse = s.almfuse := rfl
@[simp] theorem setSport_dbgLocked (s : State) (k : Nat) (v : SPort) : (s.setSport k v).dbgLocked = s.dbgLocked := rfl
@[simp] theorem setSport_halted (s : State) (k : Nat) (v : SPort) : (s.setSport k v).halted = s.halted := rfl
@[simp] theorem setSport_hostRead (s : State) (k : Nat) (v : SPort) : (s.setSport k v).hostRead = s.hostRead := rfl
@[simp] theorem setSport_free (s : State) (k : Nat) (v : SPort) : (s.setSport k v).free = s.free := rfl
@[simp] theorem setSport_iss (s : State) (k : Nat) (v : SPort) : (s.setSport k v).iss = s.iss := rfl
@[simp] theorem setSport_ev (s : State) (k : Nat) (v : SPort) : (s.setSport k v).ev = s.ev := rfl
@[simp] theorem setSport_clkOf (s : State) (k : Nat) (v : SPort) : (s.setSport k v).clkOf = s.clkOf := rfl

/-! ### onCtx -/

@[simp] theorem onCtx_tb (s : State) (f : Ctx → Ctx) : (s.onCtx f).tb = s.tb := rfl
@[simp] theorem onCtx_mem (s : State) (f : Ctx → Ctx) : (s.onCtx f).mem = s.mem := rfl
@[simp] theorem onCtx_owned (s : State) (f : Ctx → Ctx) : (s.onCtx f).owned = s.owned := rfl
@[simp] theorem onCtx_istore (s : State) (f : Ctx → Ctx) : (s.onCtx f).istore = s.istore := rfl
@[simp] theorem onCtx_ctxs (s : State) (f : Ctx → Ctx) : (s.onCtx f).ctxs = fset s.ctxs s.iss.ctx (f s.cc) := rfl
@[simp] theorem onCtx_slots (s : State) (f : Ctx → Ctx) : (s.onCtx f).slots = s.slots := rfl
@[simp] theorem onCtx_banks (s : State) (f : Ctx → Ctx) : (s.onCtx f).banks = s.banks := rfl
@[simp] theorem onCtx_bankUse (s : State) (f : Ctx → Ctx) : (s.onCtx f).bankUse = s.bankUse := rfl
@[simp] theorem onCtx_seqs (s : State) (f : Ctx → Ctx) : (s.onCtx f).seqs = s.seqs := rfl
@[simp] theorem onCtx_swrs (s : State) (f : Ctx → Ctx) : (s.onCtx f).swrs = s.swrs := rfl
@[simp] theorem onCtx_tasks (s : State) (f : Ctx → Ctx) : (s.onCtx f).tasks = s.tasks := rfl
@[simp] theorem onCtx_parts (s : State) (f : Ctx → Ctx) : (s.onCtx f).parts = s.parts := rfl
@[simp] theorem onCtx_pcores (s : State) (f : Ctx → Ctx) : (s.onCtx f).pcores = s.pcores := rfl
@[simp] theorem onCtx_mxs (s : State) (f : Ctx → Ctx) : (s.onCtx f).mxs = s.mxs := rfl
@[simp] theorem onCtx_sports (s : State) (f : Ctx → Ctx) : (s.onCtx f).sports = s.sports := rfl
@[simp] theorem onCtx_fabs (s : State) (f : Ctx → Ctx) : (s.onCtx f).fabs = s.fabs := rfl
@[simp] theorem onCtx_clusters (s : State) (f : Ctx → Ctx) : (s.onCtx f).clusters = s.clusters := rfl
@[simp] theorem onCtx_dies (s : State) (f : Ctx → Ctx) : (s.onCtx f).dies = s.dies := rfl
@[simp] theorem onCtx_memStacks (s : State) (f : Ctx → Ctx) : (s.onCtx f).memStacks = s.memStacks := rfl
@[simp] theorem onCtx_cmds (s : State) (f : Ctx → Ctx) : (s.onCtx f).cmds = s.cmds := rfl
@[simp] theorem onCtx_writes (s : State) (f : Ctx → Ctx) : (s.onCtx f).writes = s.writes := rfl
@[simp] theorem onCtx_syncs (s : State) (f : Ctx → Ctx) : (s.onCtx f).syncs = s.syncs := rfl
@[simp] theorem onCtx_msgs (s : State) (f : Ctx → Ctx) : (s.onCtx f).msgs = s.msgs := rfl
@[simp] theorem onCtx_graphs (s : State) (f : Ctx → Ctx) : (s.onCtx f).graphs = s.graphs := rfl
@[simp] theorem onCtx_nodes (s : State) (f : Ctx → Ctx) : (s.onCtx f).nodes = s.nodes := rfl
@[simp] theorem onCtx_saved (s : State) (f : Ctx → Ctx) : (s.onCtx f).saved = s.saved := rfl
@[simp] theorem onCtx_queues (s : State) (f : Ctx → Ctx) : (s.onCtx f).queues = s.queues := rfl
@[simp] theorem onCtx_ferries (s : State) (f : Ctx → Ctx) : (s.onCtx f).ferries = s.ferries := rfl
@[simp] theorem onCtx_wins (s : State) (f : Ctx → Ctx) : (s.onCtx f).wins = s.wins := rfl
@[simp] theorem onCtx_tlb (s : State) (f : Ctx → Ctx) : (s.onCtx f).tlb = s.tlb := rfl
@[simp] theorem onCtx_nextId (s : State) (f : Ctx → Ctx) : (s.onCtx f).nextId = s.nextId := rfl
@[simp] theorem onCtx_agenda (s : State) (f : Ctx → Ctx) : (s.onCtx f).agenda = s.agenda := rfl
@[simp] theorem onCtx_bootStep (s : State) (f : Ctx → Ctx) : (s.onCtx f).bootStep = s.bootStep := rfl
@[simp] theorem onCtx_bootFail (s : State) (f : Ctx → Ctx) : (s.onCtx f).bootFail = s.bootFail := rfl
@[simp] theorem onCtx_bootPos (s : State) (f : Ctx → Ctx) : (s.onCtx f).bootPos = s.bootPos := rfl
@[simp] theorem onCtx_fwGood (s : State) (f : Ctx → Ctx) : (s.onCtx f).fwGood = s.fwGood := rfl
@[simp] theorem onCtx_mixRec (s : State) (f : Ctx → Ctx) : (s.onCtx f).mixRec = s.mixRec := rfl
@[simp] theorem onCtx_ageEn (s : State) (f : Ctx → Ctx) : (s.onCtx f).ageEn = s.ageEn := rfl
@[simp] theorem onCtx_ageK (s : State) (f : Ctx → Ctx) : (s.onCtx f).ageK = s.ageK := rfl
@[simp] theorem onCtx_ageCap (s : State) (f : Ctx → Ctx) : (s.onCtx f).ageCap = s.ageCap := rfl
@[simp] theorem onCtx_holdLim (s : State) (f : Ctx → Ctx) : (s.onCtx f).holdLim = s.holdLim := rfl
@[simp] theorem onCtx_saveBase (s : State) (f : Ctx → Ctx) : (s.onCtx f).saveBase = s.saveBase := rfl
@[simp] theorem onCtx_saveEn (s : State) (f : Ctx → Ctx) : (s.onCtx f).saveEn = s.saveEn := rfl
@[simp] theorem onCtx_lastQueue (s : State) (f : Ctx → Ctx) : (s.onCtx f).lastQueue = s.lastQueue := rfl
@[simp] theorem onCtx_reserver (s : State) (f : Ctx → Ctx) : (s.onCtx f).reserver = s.reserver := rfl
@[simp] theorem onCtx_placerDue (s : State) (f : Ctx → Ctx) : (s.onCtx f).placerDue = s.placerDue := rfl
@[simp] theorem onCtx_root (s : State) (f : Ctx → Ctx) : (s.onCtx f).root = s.root := rfl
@[simp] theorem onCtx_flogHead (s : State) (f : Ctx → Ctx) : (s.onCtx f).flogHead = s.flogHead := rfl
@[simp] theorem onCtx_msix (s : State) (f : Ctx → Ctx) : (s.onCtx f).msix = s.msix := rfl
@[simp] theorem onCtx_memClass (s : State) (f : Ctx → Ctx) : (s.onCtx f).memClass = s.memClass := rfl
@[simp] theorem onCtx_pwrlim (s : State) (f : Ctx → Ctx) : (s.onCtx f).pwrlim = s.pwrlim := rfl
@[simp] theorem onCtx_nonce (s : State) (f : Ctx → Ctx) : (s.onCtx f).nonce = s.nonce := rfl
@[simp] theorem onCtx_reportDpa (s : State) (f : Ctx → Ctx) : (s.onCtx f).reportDpa = s.reportDpa := rfl
@[simp] theorem onCtx_attestDone (s : State) (f : Ctx → Ctx) : (s.onCtx f).attestDone = s.attestDone := rfl
@[simp] theorem onCtx_attestRefused (s : State) (f : Ctx → Ctx) : (s.onCtx f).attestRefused = s.attestRefused := rfl
@[simp] theorem onCtx_keysErased (s : State) (f : Ctx → Ctx) : (s.onCtx f).keysErased = s.keysErased := rfl
@[simp] theorem onCtx_lastWake (s : State) (f : Ctx → Ctx) : (s.onCtx f).lastWake = s.lastWake := rfl
@[simp] theorem onCtx_almcfg (s : State) (f : Ctx → Ctx) : (s.onCtx f).almcfg = s.almcfg := rfl
@[simp] theorem onCtx_almSet (s : State) (f : Ctx → Ctx) : (s.onCtx f).almSet = s.almSet := rfl
@[simp] theorem onCtx_almfuse (s : State) (f : Ctx → Ctx) : (s.onCtx f).almfuse = s.almfuse := rfl
@[simp] theorem onCtx_dbgLocked (s : State) (f : Ctx → Ctx) : (s.onCtx f).dbgLocked = s.dbgLocked := rfl
@[simp] theorem onCtx_halted (s : State) (f : Ctx → Ctx) : (s.onCtx f).halted = s.halted := rfl
@[simp] theorem onCtx_hostRead (s : State) (f : Ctx → Ctx) : (s.onCtx f).hostRead = s.hostRead := rfl
@[simp] theorem onCtx_free (s : State) (f : Ctx → Ctx) : (s.onCtx f).free = s.free := rfl
@[simp] theorem onCtx_iss (s : State) (f : Ctx → Ctx) : (s.onCtx f).iss = s.iss := rfl
@[simp] theorem onCtx_ev (s : State) (f : Ctx → Ctx) : (s.onCtx f).ev = s.ev := rfl
@[simp] theorem onCtx_clkOf (s : State) (f : Ctx → Ctx) : (s.onCtx f).clkOf = s.clkOf := rfl

/-! ### after -/

@[simp] theorem after_tb (s : State) (d : Nat) (e : Instr) (a : EvArg) : (s.after d e a).tb = s.tb := rfl
@[simp] theorem after_mem (s : State) (d : Nat) (e : Instr) (a : EvArg) : (s.after d e a).mem = s.mem := rfl
@[simp] theorem after_owned (s : State) (d : Nat) (e : Instr) (a : EvArg) : (s.after d e a).owned = s.owned := rfl
@[simp] theorem after_istore (s : State) (d : Nat) (e : Instr) (a : EvArg) : (s.after d e a).istore = s.istore := rfl
@[simp] theorem after_ctxs (s : State) (d : Nat) (e : Instr) (a : EvArg) : (s.after d e a).ctxs = s.ctxs := rfl
@[simp] theorem after_slots (s : State) (d : Nat) (e : Instr) (a : EvArg) : (s.after d e a).slots = s.slots := rfl
@[simp] theorem after_banks (s : State) (d : Nat) (e : Instr) (a : EvArg) : (s.after d e a).banks = s.banks := rfl
@[simp] theorem after_bankUse (s : State) (d : Nat) (e : Instr) (a : EvArg) : (s.after d e a).bankUse = s.bankUse := rfl
@[simp] theorem after_seqs (s : State) (d : Nat) (e : Instr) (a : EvArg) : (s.after d e a).seqs = s.seqs := rfl
@[simp] theorem after_swrs (s : State) (d : Nat) (e : Instr) (a : EvArg) : (s.after d e a).swrs = s.swrs := rfl
@[simp] theorem after_tasks (s : State) (d : Nat) (e : Instr) (a : EvArg) : (s.after d e a).tasks = s.tasks := rfl
@[simp] theorem after_parts (s : State) (d : Nat) (e : Instr) (a : EvArg) : (s.after d e a).parts = s.parts := rfl
@[simp] theorem after_pcores (s : State) (d : Nat) (e : Instr) (a : EvArg) : (s.after d e a).pcores = s.pcores := rfl
@[simp] theorem after_mxs (s : State) (d : Nat) (e : Instr) (a : EvArg) : (s.after d e a).mxs = s.mxs := rfl
@[simp] theorem after_sports (s : State) (d : Nat) (e : Instr) (a : EvArg) : (s.after d e a).sports = s.sports := rfl
@[simp] theorem after_fabs (s : State) (d : Nat) (e : Instr) (a : EvArg) : (s.after d e a).fabs = s.fabs := rfl
@[simp] theorem after_clusters (s : State) (d : Nat) (e : Instr) (a : EvArg) : (s.after d e a).clusters = s.clusters := rfl
@[simp] theorem after_dies (s : State) (d : Nat) (e : Instr) (a : EvArg) : (s.after d e a).dies = s.dies := rfl
@[simp] theorem after_memStacks (s : State) (d : Nat) (e : Instr) (a : EvArg) : (s.after d e a).memStacks = s.memStacks := rfl
@[simp] theorem after_cmds (s : State) (d : Nat) (e : Instr) (a : EvArg) : (s.after d e a).cmds = s.cmds := rfl
@[simp] theorem after_writes (s : State) (d : Nat) (e : Instr) (a : EvArg) : (s.after d e a).writes = s.writes := rfl
@[simp] theorem after_syncs (s : State) (d : Nat) (e : Instr) (a : EvArg) : (s.after d e a).syncs = s.syncs := rfl
@[simp] theorem after_msgs (s : State) (d : Nat) (e : Instr) (a : EvArg) : (s.after d e a).msgs = s.msgs := rfl
@[simp] theorem after_graphs (s : State) (d : Nat) (e : Instr) (a : EvArg) : (s.after d e a).graphs = s.graphs := rfl
@[simp] theorem after_nodes (s : State) (d : Nat) (e : Instr) (a : EvArg) : (s.after d e a).nodes = s.nodes := rfl
@[simp] theorem after_saved (s : State) (d : Nat) (e : Instr) (a : EvArg) : (s.after d e a).saved = s.saved := rfl
@[simp] theorem after_queues (s : State) (d : Nat) (e : Instr) (a : EvArg) : (s.after d e a).queues = s.queues := rfl
@[simp] theorem after_ferries (s : State) (d : Nat) (e : Instr) (a : EvArg) : (s.after d e a).ferries = s.ferries := rfl
@[simp] theorem after_wins (s : State) (d : Nat) (e : Instr) (a : EvArg) : (s.after d e a).wins = s.wins := rfl
@[simp] theorem after_tlb (s : State) (d : Nat) (e : Instr) (a : EvArg) : (s.after d e a).tlb = s.tlb := rfl
@[simp] theorem after_nextId (s : State) (d : Nat) (e : Instr) (a : EvArg) : (s.after d e a).nextId = s.nextId := rfl
@[simp] theorem after_agenda (s : State) (d : Nat) (e : Instr) (a : EvArg) : (s.after d e a).agenda = s.agenda ++ [⟨s.tb + d, e, a, none⟩] := rfl
@[simp] theorem after_bootStep (s : State) (d : Nat) (e : Instr) (a : EvArg) : (s.after d e a).bootStep = s.bootStep := rfl
@[simp] theorem after_bootFail (s : State) (d : Nat) (e : Instr) (a : EvArg) : (s.after d e a).bootFail = s.bootFail := rfl
@[simp] theorem after_bootPos (s : State) (d : Nat) (e : Instr) (a : EvArg) : (s.after d e a).bootPos = s.bootPos := rfl
@[simp] theorem after_fwGood (s : State) (d : Nat) (e : Instr) (a : EvArg) : (s.after d e a).fwGood = s.fwGood := rfl
@[simp] theorem after_mixRec (s : State) (d : Nat) (e : Instr) (a : EvArg) : (s.after d e a).mixRec = s.mixRec := rfl
@[simp] theorem after_ageEn (s : State) (d : Nat) (e : Instr) (a : EvArg) : (s.after d e a).ageEn = s.ageEn := rfl
@[simp] theorem after_ageK (s : State) (d : Nat) (e : Instr) (a : EvArg) : (s.after d e a).ageK = s.ageK := rfl
@[simp] theorem after_ageCap (s : State) (d : Nat) (e : Instr) (a : EvArg) : (s.after d e a).ageCap = s.ageCap := rfl
@[simp] theorem after_holdLim (s : State) (d : Nat) (e : Instr) (a : EvArg) : (s.after d e a).holdLim = s.holdLim := rfl
@[simp] theorem after_saveBase (s : State) (d : Nat) (e : Instr) (a : EvArg) : (s.after d e a).saveBase = s.saveBase := rfl
@[simp] theorem after_saveEn (s : State) (d : Nat) (e : Instr) (a : EvArg) : (s.after d e a).saveEn = s.saveEn := rfl
@[simp] theorem after_lastQueue (s : State) (d : Nat) (e : Instr) (a : EvArg) : (s.after d e a).lastQueue = s.lastQueue := rfl
@[simp] theorem after_reserver (s : State) (d : Nat) (e : Instr) (a : EvArg) : (s.after d e a).reserver = s.reserver := rfl
@[simp] theorem after_placerDue (s : State) (d : Nat) (e : Instr) (a : EvArg) : (s.after d e a).placerDue = s.placerDue := rfl
@[simp] theorem after_root (s : State) (d : Nat) (e : Instr) (a : EvArg) : (s.after d e a).root = s.root := rfl
@[simp] theorem after_flogHead (s : State) (d : Nat) (e : Instr) (a : EvArg) : (s.after d e a).flogHead = s.flogHead := rfl
@[simp] theorem after_msix (s : State) (d : Nat) (e : Instr) (a : EvArg) : (s.after d e a).msix = s.msix := rfl
@[simp] theorem after_memClass (s : State) (d : Nat) (e : Instr) (a : EvArg) : (s.after d e a).memClass = s.memClass := rfl
@[simp] theorem after_pwrlim (s : State) (d : Nat) (e : Instr) (a : EvArg) : (s.after d e a).pwrlim = s.pwrlim := rfl
@[simp] theorem after_nonce (s : State) (d : Nat) (e : Instr) (a : EvArg) : (s.after d e a).nonce = s.nonce := rfl
@[simp] theorem after_reportDpa (s : State) (d : Nat) (e : Instr) (a : EvArg) : (s.after d e a).reportDpa = s.reportDpa := rfl
@[simp] theorem after_attestDone (s : State) (d : Nat) (e : Instr) (a : EvArg) : (s.after d e a).attestDone = s.attestDone := rfl
@[simp] theorem after_attestRefused (s : State) (d : Nat) (e : Instr) (a : EvArg) : (s.after d e a).attestRefused = s.attestRefused := rfl
@[simp] theorem after_keysErased (s : State) (d : Nat) (e : Instr) (a : EvArg) : (s.after d e a).keysErased = s.keysErased := rfl
@[simp] theorem after_lastWake (s : State) (d : Nat) (e : Instr) (a : EvArg) : (s.after d e a).lastWake = s.lastWake := rfl
@[simp] theorem after_almcfg (s : State) (d : Nat) (e : Instr) (a : EvArg) : (s.after d e a).almcfg = s.almcfg := rfl
@[simp] theorem after_almSet (s : State) (d : Nat) (e : Instr) (a : EvArg) : (s.after d e a).almSet = s.almSet := rfl
@[simp] theorem after_almfuse (s : State) (d : Nat) (e : Instr) (a : EvArg) : (s.after d e a).almfuse = s.almfuse := rfl
@[simp] theorem after_dbgLocked (s : State) (d : Nat) (e : Instr) (a : EvArg) : (s.after d e a).dbgLocked = s.dbgLocked := rfl
@[simp] theorem after_halted (s : State) (d : Nat) (e : Instr) (a : EvArg) : (s.after d e a).halted = s.halted := rfl
@[simp] theorem after_hostRead (s : State) (d : Nat) (e : Instr) (a : EvArg) : (s.after d e a).hostRead = s.hostRead := rfl
@[simp] theorem after_free (s : State) (d : Nat) (e : Instr) (a : EvArg) : (s.after d e a).free = s.free := rfl
@[simp] theorem after_iss (s : State) (d : Nat) (e : Instr) (a : EvArg) : (s.after d e a).iss = s.iss := rfl
@[simp] theorem after_ev (s : State) (d : Nat) (e : Instr) (a : EvArg) : (s.after d e a).ev = s.ev := rfl
@[simp] theorem after_clkOf (s : State) (d : Nat) (e : Instr) (a : EvArg) : (s.after d e a).clkOf = s.clkOf := rfl

/-! ### afterClk -/

@[simp] theorem afterClk_tb (s : State) (cl d : Nat) (e : Instr) (a : EvArg) : (s.afterClk cl d e a).tb = s.tb := rfl
@[simp] theorem afterClk_mem (s : State) (cl d : Nat) (e : Instr) (a : EvArg) : (s.afterClk cl d e a).mem = s.mem := rfl
@[simp] theorem afterClk_owned (s : State) (cl d : Nat) (e : Instr) (a : EvArg) : (s.afterClk cl d e a).owned = s.owned := rfl
@[simp] theorem afterClk_istore (s : State) (cl d : Nat) (e : Instr) (a : EvArg) : (s.afterClk cl d e a).istore = s.istore := rfl
@[simp] theorem afterClk_ctxs (s : State) (cl d : Nat) (e : Instr) (a : EvArg) : (s.afterClk cl d e a).ctxs = s.ctxs := rfl
@[simp] theorem afterClk_slots (s : State) (cl d : Nat) (e : Instr) (a : EvArg) : (s.afterClk cl d e a).slots = s.slots := rfl
@[simp] theorem afterClk_banks (s : State) (cl d : Nat) (e : Instr) (a : EvArg) : (s.afterClk cl d e a).banks = s.banks := rfl
@[simp] theorem afterClk_bankUse (s : State) (cl d : Nat) (e : Instr) (a : EvArg) : (s.afterClk cl d e a).bankUse = s.bankUse := rfl
@[simp] theorem afterClk_seqs (s : State) (cl d : Nat) (e : Instr) (a : EvArg) : (s.afterClk cl d e a).seqs = s.seqs := rfl
@[simp] theorem afterClk_swrs (s : State) (cl d : Nat) (e : Instr) (a : EvArg) : (s.afterClk cl d e a).swrs = s.swrs := rfl
@[simp] theorem afterClk_tasks (s : State) (cl d : Nat) (e : Instr) (a : EvArg) : (s.afterClk cl d e a).tasks = s.tasks := rfl
@[simp] theorem afterClk_parts (s : State) (cl d : Nat) (e : Instr) (a : EvArg) : (s.afterClk cl d e a).parts = s.parts := rfl
@[simp] theorem afterClk_pcores (s : State) (cl d : Nat) (e : Instr) (a : EvArg) : (s.afterClk cl d e a).pcores = s.pcores := rfl
@[simp] theorem afterClk_mxs (s : State) (cl d : Nat) (e : Instr) (a : EvArg) : (s.afterClk cl d e a).mxs = s.mxs := rfl
@[simp] theorem afterClk_sports (s : State) (cl d : Nat) (e : Instr) (a : EvArg) : (s.afterClk cl d e a).sports = s.sports := rfl
@[simp] theorem afterClk_fabs (s : State) (cl d : Nat) (e : Instr) (a : EvArg) : (s.afterClk cl d e a).fabs = s.fabs := rfl
@[simp] theorem afterClk_clusters (s : State) (cl d : Nat) (e : Instr) (a : EvArg) : (s.afterClk cl d e a).clusters = s.clusters := rfl
@[simp] theorem afterClk_dies (s : State) (cl d : Nat) (e : Instr) (a : EvArg) : (s.afterClk cl d e a).dies = s.dies := rfl
@[simp] theorem afterClk_memStacks (s : State) (cl d : Nat) (e : Instr) (a : EvArg) : (s.afterClk cl d e a).memStacks = s.memStacks := rfl
@[simp] theorem afterClk_cmds (s : State) (cl d : Nat) (e : Instr) (a : EvArg) : (s.afterClk cl d e a).cmds = s.cmds := rfl
@[simp] theorem afterClk_writes (s : State) (cl d : Nat) (e : Instr) (a : EvArg) : (s.afterClk cl d e a).writes = s.writes := rfl
@[simp] theorem afterClk_syncs (s : State) (cl d : Nat) (e : Instr) (a : EvArg) : (s.afterClk cl d e a).syncs = s.syncs := rfl
@[simp] theorem afterClk_msgs (s : State) (cl d : Nat) (e : Instr) (a : EvArg) : (s.afterClk cl d e a).msgs = s.msgs := rfl
@[simp] theorem afterClk_graphs (s : State) (cl d : Nat) (e : Instr) (a : EvArg) : (s.afterClk cl d e a).graphs = s.graphs := rfl
@[simp] theorem afterClk_nodes (s : State) (cl d : Nat) (e : Instr) (a : EvArg) : (s.afterClk cl d e a).nodes = s.nodes := rfl
@[simp] theorem afterClk_saved (s : State) (cl d : Nat) (e : Instr) (a : EvArg) : (s.afterClk cl d e a).saved = s.saved := rfl
@[simp] theorem afterClk_queues (s : State) (cl d : Nat) (e : Instr) (a : EvArg) : (s.afterClk cl d e a).queues = s.queues := rfl
@[simp] theorem afterClk_ferries (s : State) (cl d : Nat) (e : Instr) (a : EvArg) : (s.afterClk cl d e a).ferries = s.ferries := rfl
@[simp] theorem afterClk_wins (s : State) (cl d : Nat) (e : Instr) (a : EvArg) : (s.afterClk cl d e a).wins = s.wins := rfl
@[simp] theorem afterClk_tlb (s : State) (cl d : Nat) (e : Instr) (a : EvArg) : (s.afterClk cl d e a).tlb = s.tlb := rfl
@[simp] theorem afterClk_nextId (s : State) (cl d : Nat) (e : Instr) (a : EvArg) : (s.afterClk cl d e a).nextId = s.nextId := rfl
@[simp] theorem afterClk_agenda (s : State) (cl d : Nat) (e : Instr) (a : EvArg) : (s.afterClk cl d e a).agenda = s.agenda ++ [⟨s.clkOf cl + d, e, a, some cl⟩] := rfl
@[simp] theorem afterClk_bootStep (s : State) (cl d : Nat) (e : Instr) (a : EvArg) : (s.afterClk cl d e a).bootStep = s.bootStep := rfl
@[simp] theorem afterClk_bootFail (s : State) (cl d : Nat) (e : Instr) (a : EvArg) : (s.afterClk cl d e a).bootFail = s.bootFail := rfl
@[simp] theorem afterClk_bootPos (s : State) (cl d : Nat) (e : Instr) (a : EvArg) : (s.afterClk cl d e a).bootPos = s.bootPos := rfl
@[simp] theorem afterClk_fwGood (s : State) (cl d : Nat) (e : Instr) (a : EvArg) : (s.afterClk cl d e a).fwGood = s.fwGood := rfl
@[simp] theorem afterClk_mixRec (s : State) (cl d : Nat) (e : Instr) (a : EvArg) : (s.afterClk cl d e a).mixRec = s.mixRec := rfl
@[simp] theorem afterClk_ageEn (s : State) (cl d : Nat) (e : Instr) (a : EvArg) : (s.afterClk cl d e a).ageEn = s.ageEn := rfl
@[simp] theorem afterClk_ageK (s : State) (cl d : Nat) (e : Instr) (a : EvArg) : (s.afterClk cl d e a).ageK = s.ageK := rfl
@[simp] theorem afterClk_ageCap (s : State) (cl d : Nat) (e : Instr) (a : EvArg) : (s.afterClk cl d e a).ageCap = s.ageCap := rfl
@[simp] theorem afterClk_holdLim (s : State) (cl d : Nat) (e : Instr) (a : EvArg) : (s.afterClk cl d e a).holdLim = s.holdLim := rfl
@[simp] theorem afterClk_saveBase (s : State) (cl d : Nat) (e : Instr) (a : EvArg) : (s.afterClk cl d e a).saveBase = s.saveBase := rfl
@[simp] theorem afterClk_saveEn (s : State) (cl d : Nat) (e : Instr) (a : EvArg) : (s.afterClk cl d e a).saveEn = s.saveEn := rfl
@[simp] theorem afterClk_lastQueue (s : State) (cl d : Nat) (e : Instr) (a : EvArg) : (s.afterClk cl d e a).lastQueue = s.lastQueue := rfl
@[simp] theorem afterClk_reserver (s : State) (cl d : Nat) (e : Instr) (a : EvArg) : (s.afterClk cl d e a).reserver = s.reserver := rfl
@[simp] theorem afterClk_placerDue (s : State) (cl d : Nat) (e : Instr) (a : EvArg) : (s.afterClk cl d e a).placerDue = s.placerDue := rfl
@[simp] theorem afterClk_root (s : State) (cl d : Nat) (e : Instr) (a : EvArg) : (s.afterClk cl d e a).root = s.root := rfl
@[simp] theorem afterClk_flogHead (s : State) (cl d : Nat) (e : Instr) (a : EvArg) : (s.afterClk cl d e a).flogHead = s.flogHead := rfl
@[simp] theorem afterClk_msix (s : State) (cl d : Nat) (e : Instr) (a : EvArg) : (s.afterClk cl d e a).msix = s.msix := rfl
@[simp] theorem afterClk_memClass (s : State) (cl d : Nat) (e : Instr) (a : EvArg) : (s.afterClk cl d e a).memClass = s.memClass := rfl
@[simp] theorem afterClk_pwrlim (s : State) (cl d : Nat) (e : Instr) (a : EvArg) : (s.afterClk cl d e a).pwrlim = s.pwrlim := rfl
@[simp] theorem afterClk_nonce (s : State) (cl d : Nat) (e : Instr) (a : EvArg) : (s.afterClk cl d e a).nonce = s.nonce := rfl
@[simp] theorem afterClk_reportDpa (s : State) (cl d : Nat) (e : Instr) (a : EvArg) : (s.afterClk cl d e a).reportDpa = s.reportDpa := rfl
@[simp] theorem afterClk_attestDone (s : State) (cl d : Nat) (e : Instr) (a : EvArg) : (s.afterClk cl d e a).attestDone = s.attestDone := rfl
@[simp] theorem afterClk_attestRefused (s : State) (cl d : Nat) (e : Instr) (a : EvArg) : (s.afterClk cl d e a).attestRefused = s.attestRefused := rfl
@[simp] theorem afterClk_keysErased (s : State) (cl d : Nat) (e : Instr) (a : EvArg) : (s.afterClk cl d e a).keysErased = s.keysErased := rfl
@[simp] theorem afterClk_lastWake (s : State) (cl d : Nat) (e : Instr) (a : EvArg) : (s.afterClk cl d e a).lastWake = s.lastWake := rfl
@[simp] theorem afterClk_almcfg (s : State) (cl d : Nat) (e : Instr) (a : EvArg) : (s.afterClk cl d e a).almcfg = s.almcfg := rfl
@[simp] theorem afterClk_almSet (s : State) (cl d : Nat) (e : Instr) (a : EvArg) : (s.afterClk cl d e a).almSet = s.almSet := rfl
@[simp] theorem afterClk_almfuse (s : State) (cl d : Nat) (e : Instr) (a : EvArg) : (s.afterClk cl d e a).almfuse = s.almfuse := rfl
@[simp] theorem afterClk_dbgLocked (s : State) (cl d : Nat) (e : Instr) (a : EvArg) : (s.afterClk cl d e a).dbgLocked = s.dbgLocked := rfl
@[simp] theorem afterClk_halted (s : State) (cl d : Nat) (e : Instr) (a : EvArg) : (s.afterClk cl d e a).halted = s.halted := rfl
@[simp] theorem afterClk_hostRead (s : State) (cl d : Nat) (e : Instr) (a : EvArg) : (s.afterClk cl d e a).hostRead = s.hostRead := rfl
@[simp] theorem afterClk_free (s : State) (cl d : Nat) (e : Instr) (a : EvArg) : (s.afterClk cl d e a).free = s.free := rfl
@[simp] theorem afterClk_iss (s : State) (cl d : Nat) (e : Instr) (a : EvArg) : (s.afterClk cl d e a).iss = s.iss := rfl
@[simp] theorem afterClk_ev (s : State) (cl d : Nat) (e : Instr) (a : EvArg) : (s.afterClk cl d e a).ev = s.ev := rfl
@[simp] theorem afterClk_clkOf (s : State) (cl d : Nat) (e : Instr) (a : EvArg) : (s.afterClk cl d e a).clkOf = s.clkOf := rfl

/-! ### cancel -/

@[simp] theorem cancel_tb (s : State) (f : Due → Bool) : (s.cancel f).tb = s.tb := rfl
@[simp] theorem cancel_mem (s : State) (f : Due → Bool) : (s.cancel f).mem = s.mem := rfl
@[simp] theorem cancel_owned (s : State) (f : Due → Bool) : (s.cancel f).owned = s.owned := rfl
@[simp] theorem cancel_istore (s : State) (f : Due → Bool) : (s.cancel f).istore = s.istore := rfl
@[simp] theorem cancel_ctxs (s : State) (f : Due → Bool) : (s.cancel f).ctxs = s.ctxs := rfl
@[simp] theorem cancel_slots (s : State) (f : Due → Bool) : (s.cancel f).slots = s.slots := rfl
@[simp] theorem cancel_banks (s : State) (f : Due → Bool) : (s.cancel f).banks = s.banks := rfl
@[simp] theorem cancel_bankUse (s : State) (f : Due → Bool) : (s.cancel f).bankUse = s.bankUse := rfl
@[simp] theorem cancel_seqs (s : State) (f : Due → Bool) : (s.cancel f).seqs = s.seqs := rfl
@[simp] theorem cancel_swrs (s : State) (f : Due → Bool) : (s.cancel f).swrs = s.swrs := rfl
@[simp] theorem cancel_tasks (s : State) (f : Due → Bool) : (s.cancel f).tasks = s.tasks := rfl
@[simp] theorem cancel_parts (s : State) (f : Due → Bool) : (s.cancel f).parts = s.parts := rfl
@[simp] theorem cancel_pcores (s : State) (f : Due → Bool) : (s.cancel f).pcores = s.pcores := rfl
@[simp] theorem cancel_mxs (s : State) (f : Due → Bool) : (s.cancel f).mxs = s.mxs := rfl
@[simp] theorem cancel_sports (s : State) (f : Due → Bool) : (s.cancel f).sports = s.sports := rfl
@[simp] theorem cancel_fabs (s : State) (f : Due → Bool) : (s.cancel f).fabs = s.fabs := rfl
@[simp] theorem cancel_clusters (s : State) (f : Due → Bool) : (s.cancel f).clusters = s.clusters := rfl
@[simp] theorem cancel_dies (s : State) (f : Due → Bool) : (s.cancel f).dies = s.dies := rfl
@[simp] theorem cancel_memStacks (s : State) (f : Due → Bool) : (s.cancel f).memStacks = s.memStacks := rfl
@[simp] theorem cancel_cmds (s : State) (f : Due → Bool) : (s.cancel f).cmds = s.cmds := rfl
@[simp] theorem cancel_writes (s : State) (f : Due → Bool) : (s.cancel f).writes = s.writes := rfl
@[simp] theorem cancel_syncs (s : State) (f : Due → Bool) : (s.cancel f).syncs = s.syncs := rfl
@[simp] theorem cancel_msgs (s : State) (f : Due → Bool) : (s.cancel f).msgs = s.msgs := rfl
@[simp] theorem cancel_graphs (s : State) (f : Due → Bool) : (s.cancel f).graphs = s.graphs := rfl
@[simp] theorem cancel_nodes (s : State) (f : Due → Bool) : (s.cancel f).nodes = s.nodes := rfl
@[simp] theorem cancel_saved (s : State) (f : Due → Bool) : (s.cancel f).saved = s.saved := rfl
@[simp] theorem cancel_queues (s : State) (f : Due → Bool) : (s.cancel f).queues = s.queues := rfl
@[simp] theorem cancel_ferries (s : State) (f : Due → Bool) : (s.cancel f).ferries = s.ferries := rfl
@[simp] theorem cancel_wins (s : State) (f : Due → Bool) : (s.cancel f).wins = s.wins := rfl
@[simp] theorem cancel_tlb (s : State) (f : Due → Bool) : (s.cancel f).tlb = s.tlb := rfl
@[simp] theorem cancel_nextId (s : State) (f : Due → Bool) : (s.cancel f).nextId = s.nextId := rfl
@[simp] theorem cancel_agenda (s : State) (f : Due → Bool) : (s.cancel f).agenda = s.agenda.filter fun d => !f d := rfl
@[simp] theorem cancel_bootStep (s : State) (f : Due → Bool) : (s.cancel f).bootStep = s.bootStep := rfl
@[simp] theorem cancel_bootFail (s : State) (f : Due → Bool) : (s.cancel f).bootFail = s.bootFail := rfl
@[simp] theorem cancel_bootPos (s : State) (f : Due → Bool) : (s.cancel f).bootPos = s.bootPos := rfl
@[simp] theorem cancel_fwGood (s : State) (f : Due → Bool) : (s.cancel f).fwGood = s.fwGood := rfl
@[simp] theorem cancel_mixRec (s : State) (f : Due → Bool) : (s.cancel f).mixRec = s.mixRec := rfl
@[simp] theorem cancel_ageEn (s : State) (f : Due → Bool) : (s.cancel f).ageEn = s.ageEn := rfl
@[simp] theorem cancel_ageK (s : State) (f : Due → Bool) : (s.cancel f).ageK = s.ageK := rfl
@[simp] theorem cancel_ageCap (s : State) (f : Due → Bool) : (s.cancel f).ageCap = s.ageCap := rfl
@[simp] theorem cancel_holdLim (s : State) (f : Due → Bool) : (s.cancel f).holdLim = s.holdLim := rfl
@[simp] theorem cancel_saveBase (s : State) (f : Due → Bool) : (s.cancel f).saveBase = s.saveBase := rfl
@[simp] theorem cancel_saveEn (s : State) (f : Due → Bool) : (s.cancel f).saveEn = s.saveEn := rfl
@[simp] theorem cancel_lastQueue (s : State) (f : Due → Bool) : (s.cancel f).lastQueue = s.lastQueue := rfl
@[simp] theorem cancel_reserver (s : State) (f : Due → Bool) : (s.cancel f).reserver = s.reserver := rfl
@[simp] theorem cancel_placerDue (s : State) (f : Due → Bool) : (s.cancel f).placerDue = s.placerDue := rfl
@[simp] theorem cancel_root (s : State) (f : Due → Bool) : (s.cancel f).root = s.root := rfl
@[simp] theorem cancel_flogHead (s : State) (f : Due → Bool) : (s.cancel f).flogHead = s.flogHead := rfl
@[simp] theorem cancel_msix (s : State) (f : Due → Bool) : (s.cancel f).msix = s.msix := rfl
@[simp] theorem cancel_memClass (s : State) (f : Due → Bool) : (s.cancel f).memClass = s.memClass := rfl
@[simp] theorem cancel_pwrlim (s : State) (f : Due → Bool) : (s.cancel f).pwrlim = s.pwrlim := rfl
@[simp] theorem cancel_nonce (s : State) (f : Due → Bool) : (s.cancel f).nonce = s.nonce := rfl
@[simp] theorem cancel_reportDpa (s : State) (f : Due → Bool) : (s.cancel f).reportDpa = s.reportDpa := rfl
@[simp] theorem cancel_attestDone (s : State) (f : Due → Bool) : (s.cancel f).attestDone = s.attestDone := rfl
@[simp] theorem cancel_attestRefused (s : State) (f : Due → Bool) : (s.cancel f).attestRefused = s.attestRefused := rfl
@[simp] theorem cancel_keysErased (s : State) (f : Due → Bool) : (s.cancel f).keysErased = s.keysErased := rfl
@[simp] theorem cancel_lastWake (s : State) (f : Due → Bool) : (s.cancel f).lastWake = s.lastWake := rfl
@[simp] theorem cancel_almcfg (s : State) (f : Due → Bool) : (s.cancel f).almcfg = s.almcfg := rfl
@[simp] theorem cancel_almSet (s : State) (f : Due → Bool) : (s.cancel f).almSet = s.almSet := rfl
@[simp] theorem cancel_almfuse (s : State) (f : Due → Bool) : (s.cancel f).almfuse = s.almfuse := rfl
@[simp] theorem cancel_dbgLocked (s : State) (f : Due → Bool) : (s.cancel f).dbgLocked = s.dbgLocked := rfl
@[simp] theorem cancel_halted (s : State) (f : Due → Bool) : (s.cancel f).halted = s.halted := rfl
@[simp] theorem cancel_hostRead (s : State) (f : Due → Bool) : (s.cancel f).hostRead = s.hostRead := rfl
@[simp] theorem cancel_free (s : State) (f : Due → Bool) : (s.cancel f).free = s.free := rfl
@[simp] theorem cancel_iss (s : State) (f : Due → Bool) : (s.cancel f).iss = s.iss := rfl
@[simp] theorem cancel_ev (s : State) (f : Due → Bool) : (s.cancel f).ev = s.ev := rfl
@[simp] theorem cancel_clkOf (s : State) (f : Due → Bool) : (s.cancel f).clkOf = s.clkOf := rfl

/-! ### later -/

@[simp] theorem later_tb (s : State) (e : Instr) (a : EvArg) : (s.later e a).tb = s.tb := rfl
@[simp] theorem later_mem (s : State) (e : Instr) (a : EvArg) : (s.later e a).mem = s.mem := rfl
@[simp] theorem later_owned (s : State) (e : Instr) (a : EvArg) : (s.later e a).owned = s.owned := rfl
@[simp] theorem later_istore (s : State) (e : Instr) (a : EvArg) : (s.later e a).istore = s.istore := rfl
@[simp] theorem later_ctxs (s : State) (e : Instr) (a : EvArg) : (s.later e a).ctxs = s.ctxs := rfl
@[simp] theorem later_slots (s : State) (e : Instr) (a : EvArg) : (s.later e a).slots = s.slots := rfl
@[simp] theorem later_banks (s : State) (e : Instr) (a : EvArg) : (s.later e a).banks = s.banks := rfl
@[simp] theorem later_bankUse (s : State) (e : Instr) (a : EvArg) : (s.later e a).bankUse = s.bankUse := rfl
@[simp] theorem later_seqs (s : State) (e : Instr) (a : EvArg) : (s.later e a).seqs = s.seqs := rfl
@[simp] theorem later_swrs (s : State) (e : Instr) (a : EvArg) : (s.later e a).swrs = s.swrs := rfl
@[simp] theorem later_tasks (s : State) (e : Instr) (a : EvArg) : (s.later e a).tasks = s.tasks := rfl
@[simp] theorem later_parts (s : State) (e : Instr) (a : EvArg) : (s.later e a).parts = s.parts := rfl
@[simp] theorem later_pcores (s : State) (e : Instr) (a : EvArg) : (s.later e a).pcores = s.pcores := rfl
@[simp] theorem later_mxs (s : State) (e : Instr) (a : EvArg) : (s.later e a).mxs = s.mxs := rfl
@[simp] theorem later_sports (s : State) (e : Instr) (a : EvArg) : (s.later e a).sports = s.sports := rfl
@[simp] theorem later_fabs (s : State) (e : Instr) (a : EvArg) : (s.later e a).fabs = s.fabs := rfl
@[simp] theorem later_clusters (s : State) (e : Instr) (a : EvArg) : (s.later e a).clusters = s.clusters := rfl
@[simp] theorem later_dies (s : State) (e : Instr) (a : EvArg) : (s.later e a).dies = s.dies := rfl
@[simp] theorem later_memStacks (s : State) (e : Instr) (a : EvArg) : (s.later e a).memStacks = s.memStacks := rfl
@[simp] theorem later_cmds (s : State) (e : Instr) (a : EvArg) : (s.later e a).cmds = s.cmds := rfl
@[simp] theorem later_writes (s : State) (e : Instr) (a : EvArg) : (s.later e a).writes = s.writes := rfl
@[simp] theorem later_syncs (s : State) (e : Instr) (a : EvArg) : (s.later e a).syncs = s.syncs := rfl
@[simp] theorem later_msgs (s : State) (e : Instr) (a : EvArg) : (s.later e a).msgs = s.msgs := rfl
@[simp] theorem later_graphs (s : State) (e : Instr) (a : EvArg) : (s.later e a).graphs = s.graphs := rfl
@[simp] theorem later_nodes (s : State) (e : Instr) (a : EvArg) : (s.later e a).nodes = s.nodes := rfl
@[simp] theorem later_saved (s : State) (e : Instr) (a : EvArg) : (s.later e a).saved = s.saved := rfl
@[simp] theorem later_queues (s : State) (e : Instr) (a : EvArg) : (s.later e a).queues = s.queues := rfl
@[simp] theorem later_ferries (s : State) (e : Instr) (a : EvArg) : (s.later e a).ferries = s.ferries := rfl
@[simp] theorem later_wins (s : State) (e : Instr) (a : EvArg) : (s.later e a).wins = s.wins := rfl
@[simp] theorem later_tlb (s : State) (e : Instr) (a : EvArg) : (s.later e a).tlb = s.tlb := rfl
@[simp] theorem later_nextId (s : State) (e : Instr) (a : EvArg) : (s.later e a).nextId = s.nextId := rfl
@[simp] theorem later_agenda (s : State) (e : Instr) (a : EvArg) : (s.later e a).agenda = s.agenda ++ [⟨s.tb + 1 + Config.latency s.free, e, a, none⟩] := rfl
@[simp] theorem later_bootStep (s : State) (e : Instr) (a : EvArg) : (s.later e a).bootStep = s.bootStep := rfl
@[simp] theorem later_bootFail (s : State) (e : Instr) (a : EvArg) : (s.later e a).bootFail = s.bootFail := rfl
@[simp] theorem later_bootPos (s : State) (e : Instr) (a : EvArg) : (s.later e a).bootPos = s.bootPos := rfl
@[simp] theorem later_fwGood (s : State) (e : Instr) (a : EvArg) : (s.later e a).fwGood = s.fwGood := rfl
@[simp] theorem later_mixRec (s : State) (e : Instr) (a : EvArg) : (s.later e a).mixRec = s.mixRec := rfl
@[simp] theorem later_ageEn (s : State) (e : Instr) (a : EvArg) : (s.later e a).ageEn = s.ageEn := rfl
@[simp] theorem later_ageK (s : State) (e : Instr) (a : EvArg) : (s.later e a).ageK = s.ageK := rfl
@[simp] theorem later_ageCap (s : State) (e : Instr) (a : EvArg) : (s.later e a).ageCap = s.ageCap := rfl
@[simp] theorem later_holdLim (s : State) (e : Instr) (a : EvArg) : (s.later e a).holdLim = s.holdLim := rfl
@[simp] theorem later_saveBase (s : State) (e : Instr) (a : EvArg) : (s.later e a).saveBase = s.saveBase := rfl
@[simp] theorem later_saveEn (s : State) (e : Instr) (a : EvArg) : (s.later e a).saveEn = s.saveEn := rfl
@[simp] theorem later_lastQueue (s : State) (e : Instr) (a : EvArg) : (s.later e a).lastQueue = s.lastQueue := rfl
@[simp] theorem later_reserver (s : State) (e : Instr) (a : EvArg) : (s.later e a).reserver = s.reserver := rfl
@[simp] theorem later_placerDue (s : State) (e : Instr) (a : EvArg) : (s.later e a).placerDue = s.placerDue := rfl
@[simp] theorem later_root (s : State) (e : Instr) (a : EvArg) : (s.later e a).root = s.root := rfl
@[simp] theorem later_flogHead (s : State) (e : Instr) (a : EvArg) : (s.later e a).flogHead = s.flogHead := rfl
@[simp] theorem later_msix (s : State) (e : Instr) (a : EvArg) : (s.later e a).msix = s.msix := rfl
@[simp] theorem later_memClass (s : State) (e : Instr) (a : EvArg) : (s.later e a).memClass = s.memClass := rfl
@[simp] theorem later_pwrlim (s : State) (e : Instr) (a : EvArg) : (s.later e a).pwrlim = s.pwrlim := rfl
@[simp] theorem later_nonce (s : State) (e : Instr) (a : EvArg) : (s.later e a).nonce = s.nonce := rfl
@[simp] theorem later_reportDpa (s : State) (e : Instr) (a : EvArg) : (s.later e a).reportDpa = s.reportDpa := rfl
@[simp] theorem later_attestDone (s : State) (e : Instr) (a : EvArg) : (s.later e a).attestDone = s.attestDone := rfl
@[simp] theorem later_attestRefused (s : State) (e : Instr) (a : EvArg) : (s.later e a).attestRefused = s.attestRefused := rfl
@[simp] theorem later_keysErased (s : State) (e : Instr) (a : EvArg) : (s.later e a).keysErased = s.keysErased := rfl
@[simp] theorem later_lastWake (s : State) (e : Instr) (a : EvArg) : (s.later e a).lastWake = s.lastWake := rfl
@[simp] theorem later_almcfg (s : State) (e : Instr) (a : EvArg) : (s.later e a).almcfg = s.almcfg := rfl
@[simp] theorem later_almSet (s : State) (e : Instr) (a : EvArg) : (s.later e a).almSet = s.almSet := rfl
@[simp] theorem later_almfuse (s : State) (e : Instr) (a : EvArg) : (s.later e a).almfuse = s.almfuse := rfl
@[simp] theorem later_dbgLocked (s : State) (e : Instr) (a : EvArg) : (s.later e a).dbgLocked = s.dbgLocked := rfl
@[simp] theorem later_halted (s : State) (e : Instr) (a : EvArg) : (s.later e a).halted = s.halted := rfl
@[simp] theorem later_hostRead (s : State) (e : Instr) (a : EvArg) : (s.later e a).hostRead = s.hostRead := rfl
@[simp] theorem later_free (s : State) (e : Instr) (a : EvArg) : (s.later e a).free = s.free + 1 := rfl
@[simp] theorem later_iss (s : State) (e : Instr) (a : EvArg) : (s.later e a).iss = s.iss := rfl
@[simp] theorem later_ev (s : State) (e : Instr) (a : EvArg) : (s.later e a).ev = s.ev := rfl
@[simp] theorem later_clkOf (s : State) (e : Instr) (a : EvArg) : (s.later e a).clkOf = s.clkOf := rfl

/-! ### laterFar -/

@[simp] theorem laterFar_tb (s : State) (e : Instr) (a : EvArg) : (s.laterFar e a).tb = s.tb := rfl
@[simp] theorem laterFar_mem (s : State) (e : Instr) (a : EvArg) : (s.laterFar e a).mem = s.mem := rfl
@[simp] theorem laterFar_owned (s : State) (e : Instr) (a : EvArg) : (s.laterFar e a).owned = s.owned := rfl
@[simp] theorem laterFar_istore (s : State) (e : Instr) (a : EvArg) : (s.laterFar e a).istore = s.istore := rfl
@[simp] theorem laterFar_ctxs (s : State) (e : Instr) (a : EvArg) : (s.laterFar e a).ctxs = s.ctxs := rfl
@[simp] theorem laterFar_slots (s : State) (e : Instr) (a : EvArg) : (s.laterFar e a).slots = s.slots := rfl
@[simp] theorem laterFar_banks (s : State) (e : Instr) (a : EvArg) : (s.laterFar e a).banks = s.banks := rfl
@[simp] theorem laterFar_bankUse (s : State) (e : Instr) (a : EvArg) : (s.laterFar e a).bankUse = s.bankUse := rfl
@[simp] theorem laterFar_seqs (s : State) (e : Instr) (a : EvArg) : (s.laterFar e a).seqs = s.seqs := rfl
@[simp] theorem laterFar_swrs (s : State) (e : Instr) (a : EvArg) : (s.laterFar e a).swrs = s.swrs := rfl
@[simp] theorem laterFar_tasks (s : State) (e : Instr) (a : EvArg) : (s.laterFar e a).tasks = s.tasks := rfl
@[simp] theorem laterFar_parts (s : State) (e : Instr) (a : EvArg) : (s.laterFar e a).parts = s.parts := rfl
@[simp] theorem laterFar_pcores (s : State) (e : Instr) (a : EvArg) : (s.laterFar e a).pcores = s.pcores := rfl
@[simp] theorem laterFar_mxs (s : State) (e : Instr) (a : EvArg) : (s.laterFar e a).mxs = s.mxs := rfl
@[simp] theorem laterFar_sports (s : State) (e : Instr) (a : EvArg) : (s.laterFar e a).sports = s.sports := rfl
@[simp] theorem laterFar_fabs (s : State) (e : Instr) (a : EvArg) : (s.laterFar e a).fabs = s.fabs := rfl
@[simp] theorem laterFar_clusters (s : State) (e : Instr) (a : EvArg) : (s.laterFar e a).clusters = s.clusters := rfl
@[simp] theorem laterFar_dies (s : State) (e : Instr) (a : EvArg) : (s.laterFar e a).dies = s.dies := rfl
@[simp] theorem laterFar_memStacks (s : State) (e : Instr) (a : EvArg) : (s.laterFar e a).memStacks = s.memStacks := rfl
@[simp] theorem laterFar_cmds (s : State) (e : Instr) (a : EvArg) : (s.laterFar e a).cmds = s.cmds := rfl
@[simp] theorem laterFar_writes (s : State) (e : Instr) (a : EvArg) : (s.laterFar e a).writes = s.writes := rfl
@[simp] theorem laterFar_syncs (s : State) (e : Instr) (a : EvArg) : (s.laterFar e a).syncs = s.syncs := rfl
@[simp] theorem laterFar_msgs (s : State) (e : Instr) (a : EvArg) : (s.laterFar e a).msgs = s.msgs := rfl
@[simp] theorem laterFar_graphs (s : State) (e : Instr) (a : EvArg) : (s.laterFar e a).graphs = s.graphs := rfl
@[simp] theorem laterFar_nodes (s : State) (e : Instr) (a : EvArg) : (s.laterFar e a).nodes = s.nodes := rfl
@[simp] theorem laterFar_saved (s : State) (e : Instr) (a : EvArg) : (s.laterFar e a).saved = s.saved := rfl
@[simp] theorem laterFar_queues (s : State) (e : Instr) (a : EvArg) : (s.laterFar e a).queues = s.queues := rfl
@[simp] theorem laterFar_ferries (s : State) (e : Instr) (a : EvArg) : (s.laterFar e a).ferries = s.ferries := rfl
@[simp] theorem laterFar_wins (s : State) (e : Instr) (a : EvArg) : (s.laterFar e a).wins = s.wins := rfl
@[simp] theorem laterFar_tlb (s : State) (e : Instr) (a : EvArg) : (s.laterFar e a).tlb = s.tlb := rfl
@[simp] theorem laterFar_nextId (s : State) (e : Instr) (a : EvArg) : (s.laterFar e a).nextId = s.nextId := rfl
@[simp] theorem laterFar_agenda (s : State) (e : Instr) (a : EvArg) : (s.laterFar e a).agenda = s.agenda ++ [⟨s.tb + 12 + Config.latency s.free, e, a, none⟩] := rfl
@[simp] theorem laterFar_bootStep (s : State) (e : Instr) (a : EvArg) : (s.laterFar e a).bootStep = s.bootStep := rfl
@[simp] theorem laterFar_bootFail (s : State) (e : Instr) (a : EvArg) : (s.laterFar e a).bootFail = s.bootFail := rfl
@[simp] theorem laterFar_bootPos (s : State) (e : Instr) (a : EvArg) : (s.laterFar e a).bootPos = s.bootPos := rfl
@[simp] theorem laterFar_fwGood (s : State) (e : Instr) (a : EvArg) : (s.laterFar e a).fwGood = s.fwGood := rfl
@[simp] theorem laterFar_mixRec (s : State) (e : Instr) (a : EvArg) : (s.laterFar e a).mixRec = s.mixRec := rfl
@[simp] theorem laterFar_ageEn (s : State) (e : Instr) (a : EvArg) : (s.laterFar e a).ageEn = s.ageEn := rfl
@[simp] theorem laterFar_ageK (s : State) (e : Instr) (a : EvArg) : (s.laterFar e a).ageK = s.ageK := rfl
@[simp] theorem laterFar_ageCap (s : State) (e : Instr) (a : EvArg) : (s.laterFar e a).ageCap = s.ageCap := rfl
@[simp] theorem laterFar_holdLim (s : State) (e : Instr) (a : EvArg) : (s.laterFar e a).holdLim = s.holdLim := rfl
@[simp] theorem laterFar_saveBase (s : State) (e : Instr) (a : EvArg) : (s.laterFar e a).saveBase = s.saveBase := rfl
@[simp] theorem laterFar_saveEn (s : State) (e : Instr) (a : EvArg) : (s.laterFar e a).saveEn = s.saveEn := rfl
@[simp] theorem laterFar_lastQueue (s : State) (e : Instr) (a : EvArg) : (s.laterFar e a).lastQueue = s.lastQueue := rfl
@[simp] theorem laterFar_reserver (s : State) (e : Instr) (a : EvArg) : (s.laterFar e a).reserver = s.reserver := rfl
@[simp] theorem laterFar_placerDue (s : State) (e : Instr) (a : EvArg) : (s.laterFar e a).placerDue = s.placerDue := rfl
@[simp] theorem laterFar_root (s : State) (e : Instr) (a : EvArg) : (s.laterFar e a).root = s.root := rfl
@[simp] theorem laterFar_flogHead (s : State) (e : Instr) (a : EvArg) : (s.laterFar e a).flogHead = s.flogHead := rfl
@[simp] theorem laterFar_msix (s : State) (e : Instr) (a : EvArg) : (s.laterFar e a).msix = s.msix := rfl
@[simp] theorem laterFar_memClass (s : State) (e : Instr) (a : EvArg) : (s.laterFar e a).memClass = s.memClass := rfl
@[simp] theorem laterFar_pwrlim (s : State) (e : Instr) (a : EvArg) : (s.laterFar e a).pwrlim = s.pwrlim := rfl
@[simp] theorem laterFar_nonce (s : State) (e : Instr) (a : EvArg) : (s.laterFar e a).nonce = s.nonce := rfl
@[simp] theorem laterFar_reportDpa (s : State) (e : Instr) (a : EvArg) : (s.laterFar e a).reportDpa = s.reportDpa := rfl
@[simp] theorem laterFar_attestDone (s : State) (e : Instr) (a : EvArg) : (s.laterFar e a).attestDone = s.attestDone := rfl
@[simp] theorem laterFar_attestRefused (s : State) (e : Instr) (a : EvArg) : (s.laterFar e a).attestRefused = s.attestRefused := rfl
@[simp] theorem laterFar_keysErased (s : State) (e : Instr) (a : EvArg) : (s.laterFar e a).keysErased = s.keysErased := rfl
@[simp] theorem laterFar_lastWake (s : State) (e : Instr) (a : EvArg) : (s.laterFar e a).lastWake = s.lastWake := rfl
@[simp] theorem laterFar_almcfg (s : State) (e : Instr) (a : EvArg) : (s.laterFar e a).almcfg = s.almcfg := rfl
@[simp] theorem laterFar_almSet (s : State) (e : Instr) (a : EvArg) : (s.laterFar e a).almSet = s.almSet := rfl
@[simp] theorem laterFar_almfuse (s : State) (e : Instr) (a : EvArg) : (s.laterFar e a).almfuse = s.almfuse := rfl
@[simp] theorem laterFar_dbgLocked (s : State) (e : Instr) (a : EvArg) : (s.laterFar e a).dbgLocked = s.dbgLocked := rfl
@[simp] theorem laterFar_halted (s : State) (e : Instr) (a : EvArg) : (s.laterFar e a).halted = s.halted := rfl
@[simp] theorem laterFar_hostRead (s : State) (e : Instr) (a : EvArg) : (s.laterFar e a).hostRead = s.hostRead := rfl
@[simp] theorem laterFar_free (s : State) (e : Instr) (a : EvArg) : (s.laterFar e a).free = s.free + 1 := rfl
@[simp] theorem laterFar_iss (s : State) (e : Instr) (a : EvArg) : (s.laterFar e a).iss = s.iss := rfl
@[simp] theorem laterFar_ev (s : State) (e : Instr) (a : EvArg) : (s.laterFar e a).ev = s.ev := rfl
@[simp] theorem laterFar_clkOf (s : State) (e : Instr) (a : EvArg) : (s.laterFar e a).clkOf = s.clkOf := rfl

/-! ### The context being executed -/

@[simp] theorem onCtx_cc (s : State) (f : Ctx → Ctx) : (s.onCtx f).cc = f s.cc := fget_fset_same _ _ _ _

theorem onCtx_ctx_ne (s : State) (f : Ctx → Ctx) {k : Nat} (h : k ≠ s.iss.ctx) : (s.onCtx f).ctx k = s.ctx k :=
  fget_fset_ne _ _ _ h

/-- Changing the context being executed changes nothing else. -/
theorem onCtx_frame (s : State) (f : Ctx → Ctx) :
    { s.onCtx f with ctxs := s.ctxs } = s ∧ ∀ k, k ≠ s.iss.ctx → (s.onCtx f).ctx k = s.ctx k :=
  ⟨rfl, fun _ h => onCtx_ctx_ne s f h⟩

end Sys2Proof.Machine
end

