-- ==== Sys2Proof/Laws/Scalar.lean ====
section
/-! SUPPORT. What the operations that write an x register or a predicate do, said once. -/

namespace Sys2Proof.Machine

/-- A name that rotates never denotes x0, and x0 is x0 (R122, R124). -/
theorem physX_eq_zero (rot : Nat) (d : BitVec 5) : physX rot d.toNat = 0 ↔ d = 0 := by
  constructor
  · intro h
    unfold physX at h
    split at h
    · apply BitVec.eq_of_toNat_eq; simpa using h
    · omega
  · rintro rfl; rfl

@[simp] theorem getX_putX_same (c : Ctx) {k : Nat} (v : DWord) (h : k ≠ 0) : (c.putX k v).getX k = v := by
  simp [Ctx.putX, Ctx.getX, h]

theorem getX_putX_ne (c : Ctx) {k j : Nat} (v : DWord) (h : j ≠ k) : (c.putX k v).getX j = c.getX j := by
  by_cases hk : k = 0
  · simp [Ctx.putX, hk]
  · by_cases hj : j = 0
    · simp [Ctx.getX, hj]
    · simp [Ctx.putX, Ctx.getX, hk, hj, fget_fset_ne _ _ _ h]

/-- The context after wrX. -/
theorem wrX_cc (s : State) (d : BitVec 5) (v : DWord) (n : Nat) :
    (s.wrX d v n).cc = if d = 0 then s.cc else
      { s.cc with
        x := fset s.cc.x (physX s.iss.rot d.toNat) v
        xrdy := fset s.cc.xrdy (physX s.iss.rot d.toNat) (max (fget s.cc.xrdy (physX s.iss.rot d.toNat) 0) (s.now + n)) } := by
  unfold State.wrX
  rw [onCtx_cc]
  by_cases hd : d = 0
  · rw [if_pos ((physX_eq_zero _ _).2 hd), if_pos hd]
  · have hd' : physX s.iss.rot d.toNat ≠ 0 := fun e => hd ((physX_eq_zero _ _).1 e)
    rw [if_neg hd', if_neg hd, Ctx.putX, if_neg hd']

/-- Everything wrX does. -/
theorem wrX_gives {s : State} {i : Instr} {d : BitVec 5} {v : DWord} {n : Nat}
    (h : exec i s = .next (s.wrX d v n)) : GivesX s i d v n := by
  refine ⟨_, h, ⟨onCtx_frame _ _, ?_, ?_⟩, ?_⟩
  · rw [wrX_cc]; split <;> rfl
  · intro k hk
    rw [wrX_cc]
    by_cases hd : d = 0
    · rw [if_pos hd]; exact ⟨rfl, rfl⟩
    · rw [if_neg hd]
      refine ⟨?_, fget_fset_ne _ _ _ hk⟩
      simp only [Ctx.getX, fget_fset_ne _ _ _ hk]
  · by_cases hd : d = 0
    · rw [if_pos hd, wrX_cc, if_pos hd]
    · have hd' : physX s.iss.rot d.toNat ≠ 0 := fun e => hd ((physX_eq_zero _ _).1 e)
      have hr : (s.wrX d v n).rdX d = (s.wrX d v n).cc.getX (physX s.iss.rot d.toNat) := rfl
      rw [if_neg hd, hr, wrX_cc, if_neg hd]
      exact ⟨by simp only [Ctx.getX, if_neg hd', fget_fset_same], fget_fset_same _ _ _ _⟩

theorem getLsbD_twoPow8 (k j : BitVec 3) : (BitVec.twoPow 8 k.toNat).getLsbD j.toNat = (j == k) := by
  revert k j; decide

/-- The context after wrP. -/
theorem wrP_cc (s : State) (k : BitVec 3) (b : Bool) :
    (s.wrP k.toNat b).cc = if k = 0 then s.cc else
      { s.cc with
        p := if b then s.cc.p ||| BitVec.twoPow 8 k.toNat else s.cc.p &&& ~~~(BitVec.twoPow 8 k.toNat)
        prdy := fset s.cc.prdy k.toNat (max (fget s.cc.prdy k.toNat 0) (s.now + 1)) } := by
  have hk0 : k.toNat = 0 ↔ k = 0 :=
    ⟨fun e => BitVec.eq_of_toNat_eq (by simpa using e), fun e => by rw [e]; rfl⟩
  unfold State.wrP
  rw [onCtx_cc]
  by_cases hk : k = 0
  · rw [if_pos (hk0.2 hk), if_pos hk]
  · have hk' : k.toNat ≠ 0 := fun e => hk (hk0.1 e)
    rw [if_neg hk', if_neg hk, Ctx.putP, if_neg hk']

/-- The predicates after one is set or cleared. -/
theorem getP_upd (p : BitVec 8) (k j : BitVec 3) (b : Bool) :
    (if b then p ||| BitVec.twoPow 8 k.toNat else p &&& ~~~(BitVec.twoPow 8 k.toNat)).getLsbD j.toNat =
      if j = k then b else p.getLsbD j.toNat := by
  have ht := getLsbD_twoPow8 k j
  have hlt : j.toNat < 8 := j.isLt
  by_cases hjk : j = k
  · subst hjk
    cases b <;> simp_all
  · have : (j == k) = false := by simpa using hjk
    cases b <;> simp_all

/-- Everything wrP does. -/
theorem wrP_gives {s : State} {i : Instr} {k : BitVec 3} {b : Bool}
    (h : exec i s = .next (s.wrP k.toNat b)) : GivesP s i k b := by
  refine ⟨_, h, ⟨onCtx_frame _ _, ?_, ?_⟩, ?_⟩
  · rw [wrP_cc]; split <;> rfl
  · intro j hj
    unfold State.rdP
    rw [wrP_cc]
    by_cases hk : k = 0
    · rw [if_pos hk]
    · rw [if_neg hk]
      simp only [Ctx.getP, getP_upd, if_neg hj]
  · by_cases hk : k = 0
    · rw [if_pos hk, wrP_cc, if_pos hk]
    · have hk' : (k.toNat == 0) = false := by
        simp only [beq_eq_false_iff_ne, ne_eq]
        exact fun e => hk (BitVec.eq_of_toNat_eq (by simpa using e))
      unfold State.rdP
      rw [if_neg hk, wrP_cc, if_neg hk]
      exact ⟨by simp only [Ctx.getP, hk', getP_upd, if_true, Bool.false_or], fget_fset_same _ _ _ _⟩

end Sys2Proof.Machine
end

