-- ==== Sys2Proof/Laws/Scratch.lean ====
section
/-! SUPPORT. Queued instructions: what completing one and landing an x register do; core accesses to the scratchpads. -/

namespace Sys2Proof.Machine

/-! ### Frames -/

theorem OnlyQueued.refl (s : State) : OnlyQueued s s := ⟨rfl, fun _ _ => rfl, [], by simp⟩

theorem OnlyQueued.iss {s t : State} (h : OnlyQueued s t) : t.iss = s.iss := by rw [← h.1]

theorem OnlyQueued.trans {s t u : State} (h : OnlyQueued s t) (g : OnlyQueued t u) : OnlyQueued s u := by
  refine ⟨?_, fun k hk => ?_, ?_⟩
  · rw [← h.1, ← g.1]
  · rw [g.2.1 k (by rw [h.iss]; exact hk), h.2.1 k hk]
  · obtain ⟨m, hm⟩ := h.2.2
    obtain ⟨n, hn⟩ := g.2.2
    exact ⟨m ++ n, by rw [hn, hm, List.append_assoc]⟩

theorem onlyQueued_onCtx (s : State) (f : Ctx → Ctx) : OnlyQueued s (s.onCtx f) :=
  ⟨rfl, fun _ h => onCtx_ctx_ne s f h, [], by simp⟩

theorem onlyQueued_after (s : State) (n : Nat) (e : Instr) (a : EvArg) : OnlyQueued s (s.after n e a) :=
  ⟨rfl, fun _ _ => rfl, _, rfl⟩

theorem onlyQueued_afterClk (s : State) (cl n : Nat) (e : Instr) (a : EvArg) : OnlyQueued s (s.afterClk cl n e a) :=
  ⟨rfl, fun _ _ => rfl, _, rfl⟩

theorem OnlyCounts.refl (c : Ctx) : OnlyCounts c c := rfl

theorem OnlyCounts.trans {c d e : Ctx} (h : OnlyCounts c d) (g : OnlyCounts d e) : OnlyCounts c e := by
  unfold OnlyCounts at *
  rw [← g] at h
  exact h

/-! ### Completion -/

theorem countPosts_only (s : State) (h : Hdr) :
    OnlyQueued s (s.countPosts h) ∧ OnlyCounts s.cc (s.countPosts h).cc := by
  unfold State.countPosts
  split
  · exact ⟨.refl _, .refl _⟩
  · exact ⟨onlyQueued_onCtx _ _, by rw [onCtx_cc]; rfl⟩

/-- Everything that completing a queued instruction does. -/
theorem finish_only (s : State) (h : Hdr) (b : Nat) (fl : BitVec 10) :
    OnlyQueued s (s.finish h b fl) ∧ OnlyCounts s.cc (s.finish h b fl).cc := by
  obtain ⟨h1, h2⟩ := countPosts_only s h
  unfold State.finish
  extract_lets s1 q s2
  have hq : OnlyQueued s1 s2 := onlyQueued_onCtx _ _
  have hc : OnlyCounts s1.cc s2.cc := by
    show OnlyCounts s1.cc (State.onCtx _ _).cc
    rw [onCtx_cc]; rfl
  split
  · exact ⟨(h1.trans hq).trans (onlyQueued_afterClk _ _ _ _ _), h2.trans hc⟩
  · exact ⟨h1.trans hq, h2.trans hc⟩

/-- Everything that performing an access does. -/
theorem access_only (s : State) (b : Nat) : OnlyQueued s (s.access b) ∧ OnlyCounts s.cc (s.access b).cc :=
  ⟨onlyQueued_onCtx _ _, by show OnlyCounts s.cc (State.onCtx _ _).cc; rw [onCtx_cc]; rfl⟩

/-- The context after an x register has landed. -/
theorem land_x (c : Ctx) (k j : Nat) (v : DWord) (clk : Nat) :
    (c.land k v clk).getX j = if j = k ∧ k ≠ 0 then v else c.getX j := by
  unfold Ctx.land
  by_cases hk : k = 0
  · simp [hk]
  · simp only [hk, if_false, ne_eq, not_false_eq_true, and_true]
    by_cases hj : j = k
    · subst hj; simp [Ctx.getX, Ctx.putX, hk]
    · by_cases h0 : j = 0
      · simp [Ctx.getX, h0, Ne.symm hk]
      · simp [Ctx.getX, Ctx.putX, hk, hj, h0, fget_fset_ne _ _ _ hj]

theorem land_xpend (c : Ctx) {k j : Nat} (v : DWord) (clk : Nat) (h : j ≠ k) :
    fget (c.land k v clk).xpend j 0 = fget c.xpend j 0 := by
  unfold Ctx.land
  split
  · rfl
  · rw [fget_fset_ne _ _ _ h]

theorem land_frame (c : Ctx) (k : Nat) (v : DWord) (clk : Nat) :
    { c.land k v clk with x := c.x, xrdy := c.xrdy, xpend := c.xpend } = c := by
  unfold Ctx.land Ctx.putX
  split <;> rfl

/-- Everything that landing an x register does. -/
theorem landX_lands (s : State) (d : BitVec 5) (v : DWord) (b : Nat) : XLanded s (s.landX d v b) d v := by
  have hc : (s.landX d v b).cc = s.cc.land (physX s.iss.rot d.toNat) v (s.now + b) := onCtx_cc _ _
  refine ⟨onlyQueued_onCtx s _, ?_, ?_, ?_⟩
  · rw [hc, land_frame]; exact .refl _
  · intro hd
    have hd' : physX s.iss.rot d.toNat ≠ 0 := fun e => hd ((physX_eq_zero _ _).1 e)
    rw [hc, land_x, if_pos ⟨rfl, hd'⟩]
  · intro k hk
    exact ⟨by rw [hc, land_x, if_neg (fun e => hk e.1)], by rw [hc, land_xpend _ _ _ hk]⟩

/-- What only counts work leaves an x register landed. -/
theorem XLanded.counts {s t u : State} {d : BitVec 5} {v : DWord} (h : XLanded s t d v) (hq : OnlyQueued t u)
    (hc : OnlyCounts t.cc u.cc) : XLanded s u d v := by
  obtain ⟨h1, h2, h3, h4⟩ := h
  have hx : ∀ k, u.cc.getX k = t.cc.getX k := fun k => by unfold OnlyCounts at hc; rw [← hc]; rfl
  have hp : u.cc.xpend = t.cc.xpend := by unfold OnlyCounts at hc; rw [← hc]
  refine ⟨h1.trans hq, h2.trans ?_, fun hd => by rw [hx]; exact h3 hd, fun k hk => by rw [hx, hp]; exact h4 k hk⟩
  unfold OnlyCounts at hc ⊢
  exact congrArg (fun c : Ctx => { c with x := s.cc.x, xrdy := s.cc.xrdy, xpend := s.cc.xpend }) hc

/-- Everything that landing an x register and completing does. -/
theorem landX_finish (s : State) (h : Hdr) (d : BitVec 5) (v : DWord) (b n : Nat) (fl : BitVec 10) :
    XLanded s ((s.landX d v b).finish h n fl) d v :=
  (landX_lands s d v b).counts (finish_only _ _ _ _).1 (finish_only _ _ _ _).2

/-- Everything that a load into an x register does when it completes. -/
theorem landX_access_finish (s : State) (h : Hdr) (d : BitVec 5) (v : DWord) (b m n : Nat) (fl : BitVec 10) :
    XLanded s (((s.landX d v b).access m).finish h n fl) d v :=
  ((landX_lands s d v b).counts (access_only _ _).1 (access_only _ _).2).counts (finish_only _ _ _ _).1
    (finish_only _ _ _ _).2

/-! ### Core accesses -/

/-- A core store changes memory only. -/
theorem scratchStore_eq (s : State) (w : Windows) (a : Nat) (bs : List Byte) :
    scratchStore s w a bs = { s with mem := (scratchStore s w a bs).mem } := by
  induction bs generalizing s a with
  | nil => rfl
  | cons b r ih =>
    simp only [scratchStore]
    rw [ih]
    split <;> rfl

/-- A core store keeps the canonical form. -/
theorem scratchStore_wf (s : State) (w : Windows) (a : Nat) (bs : List Byte) (h : Memory.wf s.mem = true) :
    Memory.wf (scratchStore s w a bs).mem = true := by
  induction bs generalizing s a with
  | nil => exact h
  | cons b r ih =>
    simp only [scratchStore]
    refine ih _ _ ?_
    split
    · exact mset_wf _ _ h
    · exact h

theorem judgeCore_mem (s : State) (m : List Host.Cell) (w : Windows) (a : Nat) :
    judgeCore { s with mem := m } w a = judgeCore s w a := rfl

/-- A byte of memory that no stored byte has as its home is as it was. -/
theorem scratchStore_other (s : State) (w : Windows) (a k : Nat) (bs : List Byte) (hw : Memory.wf s.mem = true)
    (h : ∀ i, i < bs.length → judgeCore s w (a + i) ≠ .inl k) :
    mget (scratchStore s w a bs).mem k = mget s.mem k := by
  induction bs generalizing s a with
  | nil => rfl
  | cons b r ih =>
    simp only [scratchStore]
    have h0 := h 0 (by simp)
    have hr : ∀ i, i < r.length → judgeCore s w (a + 1 + i) ≠ .inl k := fun i hi => by
      have := h (i + 1) (by simpa using hi)
      rwa [show a + (i + 1) = a + 1 + i by omega] at this
    split
    · rename_i j hj
      refine (ih { s with mem := mset s.mem j b } (a + 1) (mset_wf _ _ hw) hr).trans ?_
      show mget (mset s.mem j b) k = _
      rw [mget_mset hw, if_neg]
      intro e; subst e; exact h0 hj
    · exact ih _ _ hw hr

/-- A byte of a core access whose home no other byte of the access has is stored there. -/
theorem scratchStore_at (s : State) (w : Windows) (a : Nat) (bs : List Byte) (hw : Memory.wf s.mem = true) (i k : Nat)
    (hi : i < bs.length) (hk : judgeCore s w (a + i) = .inl k)
    (h : ∀ j, j < bs.length → judgeCore s w (a + j) = .inl k → j = i) :
    mget (scratchStore s w a bs).mem k = bs.getD i 0 := by
  induction bs generalizing s a i with
  | nil => simp at hi
  | cons b r ih =>
    simp only [scratchStore]
    cases i with
    | zero =>
      have hk' : judgeCore s w a = .inl k := hk
      rw [hk']
      dsimp only
      refine (scratchStore_other { s with mem := mset s.mem k b } w (a + 1) k r (mset_wf _ _ hw) ?_).trans ?_
      rotate_left
      · show mget (mset s.mem k b) k = _
        rw [mget_mset hw, if_pos rfl]; rfl
      · intro j hj e
        have e' : judgeCore s w (a + 1 + j) = .inl k := e
        have := h (j + 1) (by simpa using hj) (by rwa [show a + (j + 1) = a + 1 + j by omega])
        omega
    | succ i =>
      have hi' : i < r.length := by simpa using hi
      have hk' : judgeCore s w (a + 1 + i) = .inl k := by rwa [show a + 1 + i = a + (i + 1) by omega]
      have h' : ∀ j, j < r.length → judgeCore s w (a + 1 + j) = .inl k → j = i := fun j hj e => by
        have := h (j + 1) (by simpa using hj) (by rwa [show a + (j + 1) = a + 1 + j by omega])
        omega
      have hg : (b :: r).getD (i + 1) 0 = r.getD i 0 := rfl
      rw [hg]
      split
      · exact ih { s with mem := mset s.mem _ b } _ (mset_wf _ _ hw) _ hi' hk' h'
      · exact ih _ _ hw _ hi' hk' h'

/-- Within eight aligned bytes, different addresses have different homes. -/
theorem homeIn_inj {w : Windows} {a i j k : Nat} (hi : i < 8) (hj : j < 8) (ha : a % 8 = 0)
    (h1 : homeIn w (a + i) = some k) (h2 : homeIn w (a + j) = some k) : i = j := by
  simp only [homeIn, Bool.and_eq_true, decide_eq_true_eq] at h1 h2
  split at h1
  · split at h2
    · simp only [Option.some.injEq] at h1 h2; omega
    · split at h2
      · omega
      · split at h2
        · omega
        · cases h2
  · split at h1
    · split at h2
      · omega
      · split at h2
        · simp only [Option.some.injEq] at h1 h2; omega
        · split at h2
          · omega
          · cases h2
    · split at h1
      · split at h2
        · omega
        · split at h2
          · omega
          · split at h2
            · simp only [Option.some.injEq] at h1 h2; omega
            · cases h2
      · cases h1

theorem judgeCore_home {s : State} {w : Windows} {a k : Nat} (h : judgeCore s w a = .inl k) : homeIn w a = some k := by
  unfold judgeCore at h
  split at h
  · cases h
  · split at h
    · cases h
    · cases h; assumption

end Sys2Proof.Machine
end

