-- ==== Sys2Proof/Laws/Traps.lean ====
section
/-! SUPPORT. Faults and traps (17_traps_and_preemption.md R398 to R403): what a fault that arises does, and what entering a
trap does, said once. -/

namespace Sys2Proof.Machine

/-- Everything that raising a fault on a lane does. -/
theorem raiseK_faults (s : State) (kind cause : Nat) (val : DWord) :
    Faults s (s.raiseK kind cause val) ⟨cause, kind, s.iss.line, s.iss.lane, s.iss.q.code, val⟩ :=
  ⟨rfl, rfl, fun _ h => setCtx_ne _ _ _ h, setCtx_same _ _ _⟩

/-- Everything that an execution fault does. -/
theorem raise_faults (s : State) (cause : Nat) (val : DWord) :
    Faults s (s.raise cause val) ⟨cause, 1, s.iss.line, s.iss.lane, s.iss.q.code, val⟩ := raiseK_faults s 1 cause val

/-- Only what tells that an x register is pending may differ. -/
def OnlyXpend (c d : Ctx) : Prop := { d with xpend := c.xpend } = c

theorem OnlyXpend.trans {c d e : Ctx} (h : OnlyXpend c d) (g : OnlyXpend d e) : OnlyXpend c e := by
  unfold OnlyXpend at *
  rw [← g] at h
  exact h

theorem unpend_only (c : Ctx) (k : Nat) : OnlyXpend c (c.unpend k) := by unfold Ctx.unpend; split <;> rfl

/-- The entries a trap takes out of the queues leave no register pending, and nothing else of the context. -/
theorem unpendAll_only (es : List Entry) (c : Ctx) : OnlyXpend c (c.unpendAll es) := by
  induction es generalizing c with
  | nil => rfl
  | cons e r ih =>
    simp only [Ctx.unpendAll, List.foldl_cons] at ih ⊢
    refine OnlyXpend.trans ?_ (ih _)
    split
    · exact unpend_only _ _
    · rfl

@[simp] theorem withdraw_ctxs (s : State) (ck : Nat) : (s.withdraw ck).ctxs = s.ctxs := rfl
@[simp] theorem withdraw_ctx (s : State) (ck k : Nat) : (s.withdraw ck).ctx k = s.ctx k := rfl
@[simp] theorem withdraw_clk (s : State) (ck k : Nat) : (s.withdraw ck).clk k = s.clk k := rfl
@[simp] theorem withdraw_mem (s : State) (ck : Nat) : (s.withdraw ck).mem = s.mem := rfl
@[simp] theorem withdraw_iss (s : State) (ck : Nat) : (s.withdraw ck).iss = s.iss := rfl
@[simp] theorem postInto_ctx (s : State) (ck part : Nat) (b : Bool) (k : Nat) : (s.postInto ck part b).ctx k = s.ctx k := rfl
@[simp] theorem postInto_mem (s : State) (ck part : Nat) (b : Bool) : (s.postInto ck part b).mem = s.mem := rfl
@[simp] theorem postInto_iss (s : State) (ck part : Nat) (b : Bool) : (s.postInto ck part b).iss = s.iss := rfl
@[simp] theorem freeSeq_ctx (s : State) (core : Nat) (f : Frame) (k : Nat) : (s.freeSeq core f).ctx k = s.ctx k := rfl
@[simp] theorem freeSeq_mem (s : State) (core : Nat) (f : Frame) : (s.freeSeq core f).mem = s.mem := rfl
@[simp] theorem freeSeq_iss (s : State) (core : Nat) (f : Frame) : (s.freeSeq core f).iss = s.iss := rfl

/-- Everything that entering a trap does to the context whose handler is enabled, and what it leaves alone. -/
theorem enterTrap_enters (s : State) (ck : Nat) (p : Pending) (h : (s.ctx ck).tvecEn = true) :
    EntersTrap ck s (s.enterTrap ck p) p := by
  obtain ⟨c, fr, hc, ht⟩ : ∃ c fr, OnlyXpend (s.ctx ck) c ∧ (s.enterTrap ck p).ctx ck = c.trapped p fr (s.clk ck) := by
    unfold State.enterTrap
    simp only [postInto_ctx, freeSeq_ctx, setCtx_same, withdraw_ctx, withdraw_clk]
    exact ⟨_, _, unpendAll_only _ _, rfl⟩
  unfold OnlyXpend at hc
  have hl : (s.ctx ck).tvecLine = c.tvecLine := by rw [← hc]
  have he : c.tvecEn = true := by rw [← h, ← hc]
  unfold EntersTrap
  rw [ht]
  refine ⟨rfl, rfl, rfl, rfl, rfl, rfl, rfl, rfl, rfl, ?_, rfl, rfl, rfl, rfl, rfl, rfl, rfl, rfl, rfl, rfl, rfl, by rw [← hc]; rfl,
    by rw [← hc]; rfl, by rw [← hc]; rfl, by rw [← hc]; rfl, by rw [← hc]; rfl, hl.symm, he, ?_, fun k hk => ?_⟩
  · rw [hl]; rfl
  · unfold State.enterTrap; simp
  · unfold State.enterTrap
    simp only [postInto_ctx, freeSeq_ctx, setCtx_ne _ _ _ hk, withdraw_ctx]

end Sys2Proof.Machine
end

