-- ==== Sys2Proof/Laws/Vector.lean ====
section
/-! SUPPORT. Elementwise vector instructions: what computing the elements of one destination register does. -/

namespace Sys2Proof.Machine

theorem elem_vecOf (f : Nat → Word) {j : Nat} (h : j < 1024) : elem (vecOf f) j = f j := by
  simp [elem, vecOf, h]

/-- The elements of a result under the mask. -/
theorem lanes_elem (s : State) (m : BitVec 1) (old : List Word) (f : Nat → Nat × Flags) {j : Nat} (h : j < 1024) :
    elem (s.lanes m old f).1 j = if s.active m j then BitVec.ofNat 32 (f j).1 else elem old j := by
  simp only [State.lanes, elem, List.map_map, List.getD_eq_getElem?_getD, List.getElem?_map,
    List.getElem?_range h, Option.map_some, Option.getD_some, Function.comp]
  split
  · rfl
  · simp

theorem foldl_or_bit (l : List (Nat × Flags)) (g : Flags) (m : Nat) :
    (l.foldl (fun g e => g ||| e.2) g).getLsbD m = (g.getLsbD m || l.any fun e => e.2.getLsbD m) := by
  induction l generalizing g with
  | nil => simp
  | cons e r ih => simp [ih, Bool.or_assoc]

/-- The flags of a result are those of the elements that take part. -/
theorem lanes_flags (s : State) (m : BitVec 1) (old : List Word) (f : Nat → Nat × Flags) :
    FlagsOf s m (fun j => (f j).2) (s.lanes m old f).2 := by
  intro b _
  have hz : (0 : Flags).getLsbD b = false := by simp
  unfold State.lanes
  dsimp only
  rw [foldl_or_bit, hz, Bool.false_or, List.any_eq_true]
  constructor
  · rintro ⟨e, he, hb⟩
    obtain ⟨j, hj, rfl⟩ := List.mem_map.1 he
    by_cases ha : s.active m j = true
    · exact ⟨j, List.mem_range.1 hj, ha, by simpa [ha] using hb⟩
    · simp [ha] at hb
  · rintro ⟨j, hj, ha, hb⟩
    exact ⟨_, List.mem_map.2 ⟨j, List.mem_range.2 hj, rfl⟩, by simpa [ha] using hb⟩

/-- What completing puts on the agenda. -/
theorem finish_completes (s : State) (h : Hdr) (b : Nat) (fl : BitVec 10) : CompletesIn s (s.finish h b fl) h b fl := by
  have h1 : (s.countPosts h).agenda = s.agenda ∧ (s.countPosts h).iss = s.iss ∧ (s.countPosts h).clkOf = s.clkOf := by
    unfold State.countPosts; split <;> simp
  unfold CompletesIn State.finish
  extract_lets s1 q s2
  have hi : s1.iss = s.iss := h1.2.1
  have h2 : s2.agenda = s.agenda ∧ s2.iss = s.iss ∧ s2.clkOf = s.clkOf := by
    simp only [← h1.1, ← h1.2.1, ← h1.2.2]
    exact ⟨rfl, rfl, rfl⟩
  have hq : q = s.iss.q := congrArg Iss.q hi
  simp only [hq, h2.2.1]
  split
  · simp only [afterClk_agenda, State.now, State.clk, h2.1, h2.2.2]
  · simp only [h2.1, List.append_nil]

theorem OnlyV.of_counts {c d e : Ctx} (h : { d with v := c.v, re := c.re, rx := c.rx, late := c.late, far := c.far } = c)
    (g : OnlyCounts d e) : OnlyV c e := by
  have hd : OnlyCounts { d with v := c.v, re := c.re, rx := c.rx, late := c.late, far := c.far }
      { e with v := c.v, re := c.re, rx := c.rx, late := c.late, far := c.far } := by
    unfold OnlyCounts at g ⊢
    exact congrArg (fun x : Ctx => { x with v := c.v, re := c.re, rx := c.rx, late := c.late, far := c.far }) g
  rw [h] at hd
  exact hd

/-- Everything that writing a vector register and completing does. -/
theorem wrV_finish (s : State) (h : Hdr) (d : BitVec 5) (i : Nat) (v : List Word) (b n : Nat) (cross : Bool) (fl : BitVec 10) :
    let t := (s.wrV d i v b cross).finish h n fl
    OnlyQueued s t ∧ OnlyV s.cc t.cc ∧ t.cc.getV (s.vix d i) = v ∧ (∀ r, r ≠ s.vix d i → t.cc.getV r = s.cc.getV r) ∧
      CompletesIn s t h n fl := by
  intro t
  obtain ⟨h1, h2⟩ := finish_only (s.wrV d i v b cross) h n fl
  have hc : (s.wrV d i v b cross).cc =
    s.cc.putV (s.vix d i) v (s.now + b) (s.now + b + if cross then 0 else 3) := onCtx_cc _ _
  have hv : t.cc.v = (s.wrV d i v b cross).cc.v := by unfold OnlyCounts at h2; rw [← h2]
  refine ⟨(onlyQueued_onCtx s _).trans h1, .of_counts (by rw [hc]; rfl) h2, ?_, ?_, ?_⟩
  · simp [Ctx.getV, hv, hc, Ctx.putV]
  · intro r hr
    simp only [Ctx.getV, hv, hc, Ctx.putV, fget_fset_ne _ _ _ hr]
  · exact finish_completes (s.wrV d i v b cross) h n fl

/-- Everything an elementwise instruction of one destination register does. -/
theorem vecOp_gives {s : State} {i : Instr} {h : Hdr} {d : BitVec 5} {k : BitVec 1} {n : Nat} {f : Nat → Nat × Flags}
    (he : exec i s = vecOp h d k n f s) :
    GivesV s i h d k (fun j => BitVec.ofNat 32 (f j).1) (fun j => (f j).2) n := by
  have hf := lanes_flags s k (s.rdV d) f
  have hj := fun j (hj : j < 1024) => lanes_elem s k (s.rdV d) f hj
  unfold vecOp at he
  generalize s.lanes k (s.rdV d) f = p at he hf hj
  obtain ⟨v, fl⟩ := p
  obtain ⟨h1, h2, h3, h4, h5⟩ := wrV_finish s h d 0 v n (n + 3) false fl
  exact ⟨_, fl, he, h1, h2, fun j hl => (congrArg (elem · j) h3).trans (hj j hl), h4, hf, h5⟩

end Sys2Proof.Machine
end

