-- ==== Sys2Proof/Tests/Slice0.lean ====
section
/-! SUPPORT. The model's own tests: words decode as the encoding tables say, ill-formed instructions are refused, worked
examples of the spec come out, and every statement with hypotheses has states that meet them. -/

set_option Elab.async false

namespace Sys2Proof.Tests

open Sys2Proof Sys2Proof.Machine

/-- A small state: core 32 runs ctx0 of a task of one die, and the latch names it as the L queue's, at line 100. -/
def vs : State := { placeWord State.reset 0x0080A010 0 with iss := { ctx := 256, q := .l, line := 100, lane := 1 } }

/-- The same on matrix core 0, in the C queue. -/
def ms : State := { placeWord State.reset 0x96000000 0 with iss := { ctx := 0, q := .c, line := 100, lane := 1 } }

/-- That state with its context changed. -/
def cx (f : Ctx → Ctx) : State := vs.onCtx f

/-- That state with x5 set. -/
def x5 (v : DWord) : State := cx fun c => { c with x := [(5, v)] }

/-- That state with captured operands. -/
def xab (a b : DWord) : State := { vs with iss := { vs.iss with xa := a, xb := b } }

/-- An outcome is a next state. -/
def goesOn (o : Host.Outcome State Fault Refusal) : Bool :=
  match o with
  | .next _ => true
  | _ => false

/-- A test of the next state. -/
def after (o : Host.Outcome State Fault Refusal) (f : State → Bool) : Bool :=
  match o with
  | .next t => f t
  | _ => false

/-- An outcome is the fault that nothing can happen. -/
def stays (o : Host.Outcome State Fault Refusal) : Bool :=
  match o with
  | .fault .notEnabled => true
  | _ => false

/-- An outcome is one next state. -/
def gives (o : Host.Outcome State Fault Refusal) (u : State) : Bool := after o (· == u)

/-- A parameter block of R281. -/
def pb (flags len src dst n1 n2 : Nat) : List Byte :=
  [1, BitVec.ofNat 8 flags, 0, 0] ++ leBytes 4 len ++ leBytes 8 src ++ leBytes 8 dst ++ leBytes 2 n1 ++ leBytes 2 n2 ++
    List.replicate 36 0

/-- Bytes put at a window address of ctx0 of core 32. -/
def put (s : State) (a : Nat) (bs : List Byte) : State := winPut s (s.windows 256) a bs

/-- The unit tiles from 0x4000 to 0x7FFF of core 32 are engine-owned. -/
def tiled (s : State) : State :=
  { s with owned := (List.range 4).map fun k => (tileOf (unitKey 32 0) + 4 + k, true) }

/-- The operands of the latch. -/
def ops (s : State) (q : Queue) (a b d : DWord) : State := { s with iss := { s.iss with q := q, xa := a, xb := b, xd := d } }


/-- Matrix core 0 at tick 100 with its engine and a ring of one committed slot. -/
def mx (x : Mx) : State :=
  let s : State := { ms with tb := 100 }
  (s.setPcore (s.myPcore 0) { rings := [(0, { nslot := 1, ssz := 64, fill := 1 })], eps := [(1, true)] }).setMx ms.engine x

/-- ctx0 of core 32 with what its core holds for the part. -/
def held (p : PartCore) : State := vs.setPcore (vs.myPcore 256) p

/-- The faults that have arisen in the context of the latch are one of a cause. -/
def raised (c : Nat) (t : State) : Bool := (t.cc.pend.map Pending.cause) == [c]

/-! ### Decoding -/

/-- Words of the X map, from the encoding tables of R81 to R85 and the entries they name. -/
theorem test_decode_x0 :
    decodeOp .x 0x0600A638#32 0x00000000#32 = .ok (.add 3 5 6 7) ∧
    decodeOp .x 0x0604A638#32 0x00000000#32 = .ok (.sub 3 5 6 7) ∧
    decodeOp .x 0x0608A638#32 0x00000000#32 = .ok (.and 3 5 6 7) ∧
    decodeOp .x 0x060CA638#32 0x00000000#32 = .ok (.or 3 5 6 7) ∧
    decodeOp .x 0x0610A638#32 0x00000000#32 = .ok (.xor 3 5 6 7) ∧
    decodeOp .x 0x0614A638#32 0x00000000#32 = .ok (.andn 3 5 6 7) ∧
    decodeOp .x 0x0618A638#32 0x00000000#32 = .ok (.sll 3 5 6 7) ∧
    decodeOp .x 0x061CA638#32 0x00000000#32 = .ok (.srl 3 5 6 7) ∧
    decodeOp .x 0x0620A638#32 0x00000000#32 = .ok (.sra 3 5 6 7) ∧
    decodeOp .x 0x0624A638#32 0x00000000#32 = .ok (.mul 3 5 6 7) ∧
    decodeOp .x 0x0628A638#32 0x00000000#32 = .ok (.mulh 3 5 6 7) ∧
    decodeOp .x 0x062CA638#32 0x00000000#32 = .ok (.mulhu 3 5 6 7) ∧
    decodeOp .x 0x0630A638#32 0x00000000#32 = .ok (.min 3 5 6 7) ∧
    decodeOp .x 0x0634A638#32 0x00000000#32 = .ok (.max 3 5 6 7) ∧
    decodeOp .x 0x0638A638#32 0x00000000#32 = .ok (.minu 3 5 6 7) ∧
    decodeOp .x 0x063CA638#32 0x00000000#32 = .ok (.maxu 3 5 6 7) ∧
    decodeOp .x 0x0640A600#32 0x00000000#32 = .ok (.clz 3 5 6) ∧
    decodeOp .x 0x0644A600#32 0x00000000#32 = .ok (.ctz 3 5 6) ∧
    decodeOp .x 0x0648A600#32 0x00000000#32 = .ok (.popc 3 5 6) ∧
    decodeOp .x 0x064CA600#32 0x00000000#32 = .ok (.bswap 3 5 6) ∧
    decodeOp .x 0x0650A63D#32 0x00000000#32 = .ok (.sel 3 5 6 7 5) ∧
    decodeOp .x 0x0656A63C#32 0x00000000#32 = .ok (.cmp 3 2 5 6 7 4) ∧
    decodeOp .x 0x0659A63D#32 0x00000000#32 = .ok (.cmpu 3 1 5 6 7 5) ∧
    decodeOp .x 0x065CA63D#32 0x00000000#32 = .ok (.addsh 3 5 6 7 5) := by
  decide +kernel

/-- Words of the X map, from the encoding tables of R81 to R85 and the entries they name. -/
theorem test_decode_x1 :
    decodeOp .x 0x0660A600#32 0x00000000#32 = .ok (.jalr 3 5 6) ∧
    decodeOp .x 0x0664A000#32 0x00000000#32 = .ok (.tbr 3 5) ∧
    decodeOp .x 0x0668A000#32 0x00000000#32 = .ok (.scht 3 5) ∧
    decodeOp .x 0x066C0600#32 0x00000000#32 = .ok (.pwait 3 6) ∧
    decodeOp .x 0x06700600#32 0x00000000#32 = .ok (.punpin 3 6) ∧
    decodeOp .x 0x06740600#32 0x00000000#32 = .ok (.pinv 3 6) ∧
    decodeOp .x 0x06740001#32 0x00000000#32 = .ok (.pinvAll 3) ∧
    decodeOp .x 0x06780000#32 0x00000000#32 = .ok (.endc 3) ∧
    decodeOp .x 0x067C0000#32 0x00000000#32 = .ok (.eret 3) ∧
    decodeOp .x 0x0680A693#32 0x00000000#32 = .ok (.addi 3 5 6 0x93) ∧
    decodeOp .x 0x0684A693#32 0x00000000#32 = .ok (.andi 3 5 6 0x93) ∧
    decodeOp .x 0x0688A693#32 0x00000000#32 = .ok (.ori 3 5 6 0x93) ∧
    decodeOp .x 0x068CA693#32 0x00000000#32 = .ok (.xori 3 5 6 0x93) ∧
    decodeOp .x 0x0690A62D#32 0x00000000#32 = .ok (.slli 3 5 6 45) ∧
    decodeOp .x 0x0694A62D#32 0x00000000#32 = .ok (.srli 3 5 6 45) ∧
    decodeOp .x 0x0698A62D#32 0x00000000#32 = .ok (.srai 3 5 6 45) ∧
    decodeOp .x 0x069EA693#32 0x00000000#32 = .ok (.cmpi 3 2 5 6 0x93) ∧
    decodeOp .x 0x06A2A693#32 0x00000000#32 = .ok (.cmpui 3 2 5 6 0x93) ∧
    decodeOp .x 0x06A40693#32 0x00000000#32 = .ok (.dly 3 6 0x93) ∧
    decodeOp .x 0x06A8062D#32 0x00000000#32 = .ok (.trap 3 6 45) ∧
    decodeOp .x 0x06AC0000#32 0x00000000#32 = .ok (.yield 3) ∧
    decodeOp .x 0x0700A000#32 0x89ABCDEF#32 = .ok (.movw 3 5 0x89abcdef) ∧
    decodeOp .x 0x0704A600#32 0x89ABCDEF#32 = .ok (.movhw 3 5 6 0x89abcdef) ∧
    decodeOp .x 0x0708A600#32 0x89ABCDEF#32 = .ok (.addw 3 5 6 0x89abcdef) := by
  decide +kernel

/-- Words of the X map, from the encoding tables of R81 to R85 and the entries they name. -/
theorem test_decode_x2 :
    decodeOp .x 0x070CA600#32 0x00000C14#32 = .ok (.bfxu 3 5 6 0 0 12 20) ∧
    decodeOp .x 0x0710A600#32 0x0007C000#32 = .ok (.bfxs 3 5 6 7 1 64 0) ∧
    decodeOp .x 0x0714A600#32 0x0000013F#32 = .ok (.bfi 3 5 6 0 0 1 63) ∧
    decodeOp .x 0x0718A638#32 0x00078000#32 = .ok (.fshl 3 5 6 7 7 1 0 0) ∧
    decodeOp .x 0x071CA638#32 0x00000021#32 = .ok (.fshr 3 5 6 7 0 0 0 33) ∧
    decodeOp .x 0x0720A000#32 0x000009AB#32 = .ok (.srd 3 5 0x9ab) ∧
    decodeOp .x 0x07240600#32 0x000009AB#32 = .ok (.swr 3 6 0x9ab) ∧
    decodeOp .x 0x0728A000#32 0x00001357#32 = .ok (.jal 3 5 0x1357) ∧
    decodeOp .x 0x072C0600#32 0x00000309#32 = .ok (.loopm 3 6 9 3) ∧
    decodeOp .x 0x0730A600#32 0x00001357#32 = .ok (.probe 3 5 6 0x1357) ∧
    decodeOp .x 0x0782E345#32 0x00000000#32 = .ok (.br 3 5 1 0x2345) := by
  decide +kernel

/-- Words of the M map, from the encoding tables of R81 to R85 and the entries they name. -/
theorem test_decode_m0 :
    decodeOp .m 0x9600A605#32 0x00000000#32 = .ok (.vld ⟨true, false, false, true, 3⟩ 5 6 1 1) ∧
    decodeOp .m 0x9604A63D#32 0x00000000#32 = .ok (.vldc ⟨true, false, false, true, 3⟩ 5 6 7 1 1) ∧
    decodeOp .m 0x9608A63D#32 0x00000000#32 = .ok (.vlds ⟨true, false, false, true, 3⟩ 5 6 7 1 1) ∧
    decodeOp .m 0x960CA607#32 0x00000000#32 = .ok (.vldb ⟨true, false, false, true, 3⟩ 5 6 1 1 1) ∧
    decodeOp .m 0x9610A63D#32 0x00000000#32 = .ok (.vldg ⟨true, false, false, true, 3⟩ 5 6 7 1 1) ∧
    decodeOp .m 0x9614A600#32 0x00000000#32 = .ok (.vldm ⟨true, false, false, true, 3⟩ 5 6) ∧
    decodeOp .m 0x9618A605#32 0x00000000#32 = .ok (.vst ⟨true, false, false, true, 3⟩ 5 6 1 1) ∧
    decodeOp .m 0x961CA63D#32 0x00000000#32 = .ok (.vstc ⟨true, false, false, true, 3⟩ 5 6 7 1 1) ∧
    decodeOp .m 0x9620A63D#32 0x00000000#32 = .ok (.vsts ⟨true, false, false, true, 3⟩ 5 6 7 1 1) ∧
    decodeOp .m 0x9624A63D#32 0x00000000#32 = .ok (.vstx ⟨true, false, false, true, 3⟩ 5 6 7 1 1) ∧
    decodeOp .m 0x9628A600#32 0x00000000#32 = .ok (.vstm ⟨true, false, false, true, 3⟩ 5 6) ∧
    decodeOp .m 0x962CA639#32 0x00000000#32 = .ok (.tmov ⟨true, false, false, true, 3⟩ 5 6 7 1) ∧
    decodeOp .m 0x9630063A#32 0x00000000#32 = .ok (.ownE ⟨true, false, false, true, 3⟩ 6 7 1) ∧
    decodeOp .m 0x9630063B#32 0x00000000#32 = .ok (.ownC ⟨true, false, false, true, 3⟩ 6 7 1) ∧
    decodeOp .m 0x96340004#32 0x00000000#32 = .ok (.fence ⟨true, false, false, true, 3⟩ 4) ∧
    decodeOp .m 0x9638A039#32 0x00000000#32 = .ok (.rclaim ⟨true, false, false, true, 3⟩ 5 7 1) ∧
    decodeOp .m 0x963C0639#32 0x00000000#32 = .ok (.rcommit ⟨true, false, false, true, 3⟩ 6 7 1) ∧
    decodeOp .m 0x96400639#32 0x00000000#32 = .ok (.rwaitf ⟨true, false, false, true, 3⟩ 6 7 1) ∧
    decodeOp .m 0x96440639#32 0x00000000#32 = .ok (.rwaite ⟨true, false, false, true, 3⟩ 6 7 1) ∧
    decodeOp .m 0x96480639#32 0x00000000#32 = .ok (.rpop ⟨true, false, false, true, 3⟩ 6 7 1) ∧
    decodeOp .m 0x964CA639#32 0x00000000#32 = .ok (.rpeek ⟨true, false, false, true, 3⟩ 5 6 7 1) ∧
    decodeOp .m 0x9650A601#32 0x00000000#32 = .ok (.bara ⟨true, false, false, true, 3⟩ 5 6 1) ∧
    decodeOp .m 0x96540638#32 0x00000000#32 = .ok (.barw ⟨true, false, false, true, 3⟩ 6 7) ∧
    decodeOp .m 0x96580600#32 0x00000000#32 = .ok (.pbara ⟨true, false, false, true, 3⟩ 6) := by
  decide +kernel

/-- Words of the M map, from the encoding tables of R81 to R85 and the entries they name. -/
theorem test_decode_m1 :
    decodeOp .m 0x965C0600#32 0x00000000#32 = .ok (.pbarw ⟨true, false, false, true, 3⟩ 6) ∧
    decodeOp .m 0x96600638#32 0x00000000#32 = .ok (.semw ⟨true, false, false, true, 3⟩ 6 7) ∧
    decodeOp .m 0x96640639#32 0x00000000#32 = .ok (.sems ⟨true, false, false, true, 3⟩ 6 7 1) ∧
    decodeOp .m 0x96680638#32 0x00000000#32 = .ok (.send ⟨true, false, false, true, 3⟩ 6 7) ∧
    decodeOp .m 0x966C0638#32 0x00000000#32 = .ok (.cwwaitSent ⟨true, false, false, true, 3⟩ 6 7) ∧
    decodeOp .m 0x966C0639#32 0x00000000#32 = .ok (.cwwaitArr ⟨true, false, false, true, 3⟩ 6 7) ∧
    decodeOp .m 0x96700600#32 0x00000000#32 = .ok (.pbinv ⟨true, false, false, true, 3⟩ 6) ∧
    decodeOp .m 0x96700001#32 0x00000000#32 = .ok (.pbinvAll ⟨true, false, false, true, 3⟩) ∧
    decodeOp .m 0x9680A693#32 0x00000000#32 = .ok (.ldb ⟨true, false, false, true, 3⟩ 5 6 0x93) ∧
    decodeOp .m 0x9684A693#32 0x00000000#32 = .ok (.ldbu ⟨true, false, false, true, 3⟩ 5 6 0x93) ∧
    decodeOp .m 0x9688A693#32 0x00000000#32 = .ok (.ldh ⟨true, false, false, true, 3⟩ 5 6 0x93) ∧
    decodeOp .m 0x968CA693#32 0x00000000#32 = .ok (.ldhu ⟨true, false, false, true, 3⟩ 5 6 0x93) ∧
    decodeOp .m 0x9690A693#32 0x00000000#32 = .ok (.ldw ⟨true, false, false, true, 3⟩ 5 6 0x93) ∧
    decodeOp .m 0x9694A693#32 0x00000000#32 = .ok (.ldwu ⟨true, false, false, true, 3⟩ 5 6 0x93) ∧
    decodeOp .m 0x9698A693#32 0x00000000#32 = .ok (.ldd ⟨true, false, false, true, 3⟩ 5 6 0x93) ∧
    decodeOp .m 0x969CA693#32 0x00000000#32 = .ok (.stb ⟨true, false, false, true, 3⟩ 5 6 0x93) ∧
    decodeOp .m 0x96A0A693#32 0x00000000#32 = .ok (.sth ⟨true, false, false, true, 3⟩ 5 6 0x93) ∧
    decodeOp .m 0x96A4A693#32 0x00000000#32 = .ok (.stw ⟨true, false, false, true, 3⟩ 5 6 0x93) ∧
    decodeOp .m 0x96A8A693#32 0x00000000#32 = .ok (.std ⟨true, false, false, true, 3⟩ 5 6 0x93) ∧
    decodeOp .m 0x96AC0693#32 0x00000000#32 = .ok (.bari ⟨true, false, false, true, 3⟩ 6 0x93) ∧
    decodeOp .m 0x97000600#32 0x00002555#32 = .ok (.cpy ⟨true, false, false, true, 3⟩ 6 ⟨true, false, false, true, 0x155⟩) ∧
    decodeOp .m 0x97040638#32 0x00002555#32 = .ok (.cpyt ⟨true, false, false, true, 3⟩ 6 7 ⟨true, false, false, true, 0x155⟩) ∧
    decodeOp .m 0x97080600#32 0x00152555#32 = .ok (.cacc ⟨true, false, false, true, 3⟩ 6 ⟨true, false, false, true, 0x155⟩ 5 2) ∧
    decodeOp .m 0x970C0600#32 0x00152555#32 = .ok (.caccf ⟨true, false, false, true, 3⟩ 6 ⟨true, false, false, true, 0x155⟩ 5 2) := by
  decide +kernel

/-- Words of the M map, from the encoding tables of R81 to R85 and the entries they name. -/
theorem test_decode_m2 :
    decodeOp .m 0x9710A638#32 0x00032555#32 = .ok (.cswp ⟨true, false, false, true, 3⟩ 5 6 7 ⟨true, false, false, true, 0x155⟩ 1 1) ∧
    decodeOp .m 0x9714A638#32 0x00032555#32 = .ok (.ccas ⟨true, false, false, true, 3⟩ 5 6 7 ⟨true, false, false, true, 0x155⟩ 1 1) ∧
    decodeOp .m 0x97180600#32 0x00132555#32 = .ok (.cpsm ⟨true, false, false, true, 3⟩ 6 ⟨true, false, false, true, 0x155⟩ 19) ∧
    decodeOp .m 0x971C0638#32 0x2B6D2555#32 = .ok (.cwalk ⟨true, false, false, true, 3⟩ 6 7 ⟨true, false, false, true, 0x155⟩ 45 45 2) ∧
    decodeOp .m 0x97200600#32 0x00002555#32 = .ok (.cgath ⟨true, false, false, true, 3⟩ 6 ⟨true, false, false, true, 0x155⟩) ∧
    decodeOp .m 0x97240600#32 0x00002555#32 = .ok (.cscat ⟨true, false, false, true, 3⟩ 6 ⟨true, false, false, true, 0x155⟩) ∧
    decodeOp .m 0x97280600#32 0x002D2555#32 = .ok (.cput ⟨true, false, false, true, 3⟩ 6 ⟨true, false, false, true, 0x155⟩ 45) ∧
    decodeOp .m 0x972C0600#32 0x00002555#32 = .ok (.hscan ⟨true, false, false, true, 3⟩ 6 ⟨true, false, false, true, 0x155⟩) ∧
    decodeOp .m 0x97300600#32 0x00002555#32 = .ok (.hgath ⟨true, false, false, true, 3⟩ 6 ⟨true, false, false, true, 0x155⟩) ∧
    decodeOp .m 0x97340600#32 0x00002555#32 = .ok (.hred ⟨true, false, false, true, 3⟩ 6 ⟨true, false, false, true, 0x155⟩) ∧
    decodeOp .m 0x97380600#32 0x00002555#32 = .ok (.hcvt ⟨true, false, false, true, 3⟩ 6 ⟨true, false, false, true, 0x155⟩) := by
  decide +kernel

/-- Words of the vector C map, from the encoding tables of R81 to R85 and the entries they name. -/
theorem test_decode_v0 :
    decodeOp .v 0x9600A63E#32 0x00000000#32 = .ok (.vadd ⟨true, false, false, true, 3⟩ 5 6 7 1 2) ∧
    decodeOp .v 0x9604A63E#32 0x00000000#32 = .ok (.vsub ⟨true, false, false, true, 3⟩ 5 6 7 1 2) ∧
    decodeOp .v 0x9608A63E#32 0x00000000#32 = .ok (.vmul ⟨true, false, false, true, 3⟩ 5 6 7 1 2) ∧
    decodeOp .v 0x960CA63E#32 0x00000000#32 = .ok (.vfma ⟨true, false, false, true, 3⟩ 5 6 7 1 2) ∧
    decodeOp .v 0x9610A63E#32 0x00000000#32 = .ok (.vfms ⟨true, false, false, true, 3⟩ 5 6 7 1 2) ∧
    decodeOp .v 0x9614A63E#32 0x00000000#32 = .ok (.vmin ⟨true, false, false, true, 3⟩ 5 6 7 1 2) ∧
    decodeOp .v 0x9618A63E#32 0x00000000#32 = .ok (.vmax ⟨true, false, false, true, 3⟩ 5 6 7 1 2) ∧
    decodeOp .v 0x961CA616#32 0x00000000#32 = .ok (.vabs ⟨true, false, false, true, 3⟩ 5 6 2 1 2) ∧
    decodeOp .v 0x9620A616#32 0x00000000#32 = .ok (.vneg ⟨true, false, false, true, 3⟩ 5 6 2 1 2) ∧
    decodeOp .v 0x9624A6F6#32 0x00000000#32 = .ok (.vclamp ⟨true, false, false, true, 3⟩ 5 6 30 1 2) ∧
    decodeOp .v 0x962AA63D#32 0x00000000#32 = .ok (.vcmp ⟨true, false, false, true, 3⟩ 2 5 6 7 5) ∧
    decodeOp .v 0x962CA63D#32 0x00000000#32 = .ok (.vsel ⟨true, false, false, true, 3⟩ 5 6 7 5) ∧
    decodeOp .v 0x9630A62E#32 0x00000000#32 = .ok (.vcvt ⟨true, false, false, true, 3⟩ 5 6 5 1 2) ∧
    decodeOp .v 0x9634063C#32 0x00000000#32 = .ok (.vqnt ⟨true, false, false, true, 3⟩ 6 7 4) ∧
    decodeOp .v 0x9638063A#32 0x00000000#32 = .ok (.vdqnt ⟨true, false, false, true, 3⟩ 6 7 2) ∧
    decodeOp .v 0x963CA63D#32 0x00000000#32 = .ok (.vperm ⟨true, false, false, true, 3⟩ 5 6 7 1 1) ∧
    decodeOp .v 0x9640A63E#32 0x00000000#32 = .ok (.viadd ⟨true, false, false, true, 3⟩ 5 6 7 1 2) ∧
    decodeOp .v 0x9644A63E#32 0x00000000#32 = .ok (.visub ⟨true, false, false, true, 3⟩ 5 6 7 1 2) ∧
    decodeOp .v 0x9648A63E#32 0x00000000#32 = .ok (.vimul ⟨true, false, false, true, 3⟩ 5 6 7 1 2) ∧
    decodeOp .v 0x964C863F#32 0x00000000#32 = .ok (.vimac8 ⟨true, false, false, true, 3⟩ 4 6 7 1 1 1) ∧
    decodeOp .v 0x9650A63E#32 0x00000000#32 = .ok (.vimin ⟨true, false, false, true, 3⟩ 5 6 7 1 2) ∧
    decodeOp .v 0x9654A63E#32 0x00000000#32 = .ok (.vimax ⟨true, false, false, true, 3⟩ 5 6 7 1 2) ∧
    decodeOp .v 0x9658A6F6#32 0x00000000#32 = .ok (.viclamp ⟨true, false, false, true, 3⟩ 5 6 30 1 2) ∧
    decodeOp .v 0x965EA63D#32 0x00000000#32 = .ok (.vicmp ⟨true, false, false, true, 3⟩ 2 5 6 7 5) := by
  decide +kernel

/-- Words of the vector C map, from the encoding tables of R81 to R85 and the entries they name. -/
theorem test_decode_v1 :
    decodeOp .v 0x9660A63C#32 0x00000000#32 = .ok (.vand ⟨true, false, false, true, 3⟩ 5 6 7 1) ∧
    decodeOp .v 0x9664A63C#32 0x00000000#32 = .ok (.vor ⟨true, false, false, true, 3⟩ 5 6 7 1) ∧
    decodeOp .v 0x9668A63C#32 0x00000000#32 = .ok (.vxor ⟨true, false, false, true, 3⟩ 5 6 7 1) ∧
    decodeOp .v 0x966CA63E#32 0x00000000#32 = .ok (.vshl ⟨true, false, false, true, 3⟩ 5 6 7 1 2) ∧
    decodeOp .v 0x9670A63E#32 0x00000000#32 = .ok (.vshr ⟨true, false, false, true, 3⟩ 5 6 7 1 2) ∧
    decodeOp .v 0x9674A63E#32 0x00000000#32 = .ok (.vsra ⟨true, false, false, true, 3⟩ 5 6 7 1 2) ∧
    decodeOp .v 0x9678A63E#32 0x00000000#32 = .ok (.vrshr ⟨true, false, false, true, 3⟩ 5 6 7 1 2) ∧
    decodeOp .v 0x967CA614#32 0x00000000#32 = .ok (.vmov ⟨true, false, false, true, 3⟩ 5 6 2 1) ∧
    decodeOp .v 0x9680A616#32 0x00000000#32 = .ok (.vexp2 ⟨true, false, false, true, 3⟩ 5 6 2 1 2) ∧
    decodeOp .v 0x9684A616#32 0x00000000#32 = .ok (.vlog2 ⟨true, false, false, true, 3⟩ 5 6 2 1 2) ∧
    decodeOp .v 0x9688A616#32 0x00000000#32 = .ok (.vexp ⟨true, false, false, true, 3⟩ 5 6 2 1 2) ∧
    decodeOp .v 0x968CA616#32 0x00000000#32 = .ok (.vlog ⟨true, false, false, true, 3⟩ 5 6 2 1 2) ∧
    decodeOp .v 0x9690A616#32 0x00000000#32 = .ok (.vrsqrt ⟨true, false, false, true, 3⟩ 5 6 2 1 2) ∧
    decodeOp .v 0x9694A616#32 0x00000000#32 = .ok (.vrcp ⟨true, false, false, true, 3⟩ 5 6 2 1 2) ∧
    decodeOp .v 0x9698A616#32 0x00000000#32 = .ok (.vsqrt ⟨true, false, false, true, 3⟩ 5 6 2 1 2) ∧
    decodeOp .v 0x969CA616#32 0x00000000#32 = .ok (.vtanh ⟨true, false, false, true, 3⟩ 5 6 2 1 2) ∧
    decodeOp .v 0x96A0A616#32 0x00000000#32 = .ok (.vsigm ⟨true, false, false, true, 3⟩ 5 6 2 1 2) ∧
    decodeOp .v 0x96A4A66D#32 0x00000000#32 = .ok (.vrotr ⟨true, false, false, true, 3⟩ 5 6 1 45) ∧
    decodeOp .v 0x96A8A64A#32 0x00000000#32 = .ok (.vrotc ⟨true, false, false, true, 3⟩ 5 6 1 10) ∧
    decodeOp .v 0x96ACA66D#32 0x00000000#32 = .ok (.vbcr ⟨true, false, false, true, 3⟩ 5 6 1 45) ∧
    decodeOp .v 0x96B0A64A#32 0x00000000#32 = .ok (.vbcc ⟨true, false, false, true, 3⟩ 5 6 1 10) ∧
    decodeOp .v 0x96B4A61A#32 0x00000000#32 = .ok (.vredr ⟨true, false, false, true, 3⟩ 5 6 1 2 2) ∧
    decodeOp .v 0x96B8A61A#32 0x00000000#32 = .ok (.vredc ⟨true, false, false, true, 3⟩ 5 6 1 2 2) ∧
    decodeOp .v 0x96BCA607#32 0x00000000#32 = .ok (.vmand ⟨true, false, false, true, 3⟩ 5 6 7) := by
  decide +kernel

/-- Words of the vector C map, from the encoding tables of R81 to R85 and the entries they name. -/
theorem test_decode_v2 :
    decodeOp .v 0x96C0A607#32 0x00000000#32 = .ok (.vmor ⟨true, false, false, true, 3⟩ 5 6 7) ∧
    decodeOp .v 0x96C4A607#32 0x00000000#32 = .ok (.vmxor ⟨true, false, false, true, 3⟩ 5 6 7) ∧
    decodeOp .v 0x96C8A607#32 0x00000000#32 = .ok (.vmandn ⟨true, false, false, true, 3⟩ 5 6 7) ∧
    decodeOp .v 0x96CCA600#32 0x00000000#32 = .ok (.vmnot ⟨true, false, false, true, 3⟩ 5 6) ∧
    decodeOp .v 0x9700A004#32 0x89ABCDEF#32 = .ok (.vmovi ⟨true, false, false, true, 3⟩ 5 1 0x89abcdef) ∧
    decodeOp .v 0x9704A604#32 0x00000A19#32 = .ok (.vmovx ⟨true, false, false, true, 3⟩ 5 6 1 9 33 2) := by
  decide +kernel

/-- Words of the matrix C map, from the encoding tables of R81 to R85 and the entries they name. -/
theorem test_decode_e0 :
    decodeOp .e 0x96000000#32 0x00000000#32 = .ok (.mgo ⟨true, false, false, true, 3⟩) ∧
    decodeOp .e 0x96040638#32 0x00000000#32 = .ok (.mpass ⟨true, false, false, true, 3⟩ 6 7) ∧
    decodeOp .e 0x96080001#32 0x00000000#32 = .ok (.mwait ⟨true, false, false, true, 3⟩ 1) ∧
    decodeOp .e 0x960C0600#32 0x00000000#32 = .ok (.mzero ⟨true, false, false, true, 3⟩ 6) ∧
    decodeOp .e 0x9610063E#32 0x00000000#32 = .ok (.mdrain ⟨true, false, false, true, 3⟩ 6 7 1 2) ∧
    decodeOp .e 0x9614A63C#32 0x00000000#32 = .ok (.mdrainq ⟨true, false, false, true, 3⟩ 5 6 7 4) ∧
    decodeOp .e 0x96180038#32 0x00000000#32 = .ok (.mstream ⟨true, false, false, true, 3⟩ 7) ∧
    decodeOp .e 0x961C063E#32 0x00000000#32 = .ok (.maccld ⟨true, false, false, true, 3⟩ 6 7 1 2) ∧
    decodeOp .e 0x9620A004#32 0x00000000#32 = .ok (.mstat ⟨true, false, false, true, 3⟩ 5 0 1 0) ∧
    decodeOp .e 0x96240638#32 0x00000000#32 = .ok (.mspass ⟨true, false, false, true, 3⟩ 6 7) ∧
    decodeOp .e 0x96280000#32 0x00000000#32 = .ok (.msgo ⟨true, false, false, true, 3⟩) ∧
    decodeOp .e 0x97012001#32 0x89ABCDEF#32 = .ok (.mcfg ⟨true, false, false, true, 3⟩ 9 1 0x89abcdef) ∧
    decodeOp .e 0x97050638#32 0x00000024#32 = .ok (.mcfgr ⟨true, false, false, true, 3⟩ 8 6 7 4 1) := by
  decide +kernel

/-- Words of the F map, from the encoding tables of R81 to R85 and the entries they name. -/
theorem test_decode_f0 :
    decodeOp .f 0x0601E606#32 0x00000000#32 = .ok (.fbind 3 15 6 1 2) ∧
    decodeOp .f 0x06066000#32 0x00000000#32 = .ok (.funbind 3 19) ∧
    decodeOp .f 0x06080600#32 0x00000000#32 = .ok (.fstart 3 6) ∧
    decodeOp .f 0x060CA000#32 0x00000000#32 = .ok (.fphase 3 5) ∧
    decodeOp .f 0x06100600#32 0x00000000#32 = .ok (.fstop 3 6) ∧
    decodeOp .f 0x06140600#32 0x00000000#32 = .ok (.fhnd 3 6) ∧
    decodeOp .f 0x06180638#32 0x00000000#32 = .ok (.finj 3 6 7) ∧
    decodeOp .f 0x061CA004#32 0x00000000#32 = .ok (.fstat 3 5 4) ∧
    decodeOp .f 0x07000600#32 0x89ABCDEF#32 = .ok (.fload 3 6 0x89abcdef) := by
  decide +kernel

/-! ### Ill-formed instructions -/

theorem test_wf_helpers :
    amountOk 1 0 0 = false ∧ amountOk 1 1 1 = false ∧ amountOk 0 0 63 = true ∧ amountOk 31 1 0 = true ∧ fieldLenOk 0 = false ∧
    fieldLenOk 65 = false ∧ fieldLenOk 64 = true ∧ loopOk 0 1 = false ∧ loopOk 65 64 = false ∧ loopOk 8 0 = false ∧
    loopOk 64 65 = false ∧ loopOk 9 2 = false ∧ loopOk 8 2 = true ∧ maskReg 8 = false ∧ maskReg 7 = true ∧ floatType 3 = false ∧
    repOk 25 0 7 = false ∧ repOk 0 25 7 = false ∧ repOk 24 24 7 = true ∧ convOk 13 0 = false ∧ convOk 2 1 = false ∧ convOk 3 1 = false ∧
    convOk 9 1 = false ∧ convOk 12 3 = true ∧ moveSelOk 1 0 0 = false ∧ moveSelOk 0 1 0 = false ∧ moveSelOk 0 1 1 = false ∧
    moveSelOk 15 63 2 = true ∧ moveSelOk 0 0 3 = false ∧ pairOk 1 0 0 = false ∧ pairOk 0 1 0 = false ∧ pairOk 0 10 1 = false ∧
    pairOk 31 9 1 = true ∧ portOk 20 = false ∧ portOk 19 = true ∧ CExt.ok ⟨false, false, false, false, 1⟩ = false ∧
    CExt.ok ⟨false, false, false, true, 1023⟩ = true := by decide +kernel

theorem test_wf_scalar :
    ∀ i, i ∈ [Instr.cmp 0 3 0 0 0 0, .cmp 0 0 0 0 0 6, .cmpu 0 3 0 0 0 0, .cmpu 0 0 0 0 0 6, .bfxu 0 0 0 0 0 0 0, .bfxu 0 0 0 1 0 1 0,
      .bfxs 0 0 0 0 0 65 0, .bfxs 0 0 0 0 1 1 1, .bfi 0 0 0 0 0 0 0, .bfi 0 0 0 1 0 1 0, .fshl 0 0 0 0 0 0 1 0, .fshl 0 0 0 0 1 0 0 0,
      .fshr 0 0 0 0 0 0 1 0, .fshr 0 0 0 0 1 0 0 0, .loopm 0 0 9 2, .vldm Hdr.zero 8 0, .vstm Hdr.zero 8 0, .fence Hdr.zero 5,
      .bari Hdr.zero 0 0] → i.wf = false := by decide +kernel

theorem test_wf_commands :
    let b : CExt := ⟨false, false, false, false, 1⟩
    let x : CExt := ⟨false, false, false, false, 0⟩
    let h := Hdr.zero
    ∀ i, i ∈ [Instr.cpy h 0 b, .cpyt h 0 0 b, .cacc h 0 b 0 0, .cacc h 0 x 6 0, .caccf h 0 b 0 0, .caccf h 0 x 6 0, .cswp h 0 0 0 b 0 0,
      .ccas h 0 0 0 b 0 0, .cpsm h 0 b 0, .cwalk h 0 0 b 0 0 0, .cwalk h 0 0 x 0 0 3, .cgath h 0 b, .cscat h 0 b, .cput h 0 b 0,
      .hscan h 0 b, .hgath h 0 b, .hred h 0 b, .hcvt h 0 b] → i.wf = false := by decide +kernel

theorem test_wf_vector :
    let h := Hdr.zero
    ∀ i, i ∈ [Instr.vadd h 0 0 0 0 3, .vsub h 0 0 0 0 3, .vmul h 0 0 0 0 3, .vfma h 0 0 0 0 3, .vfms h 0 0 0 0 3, .vmin h 0 0 0 0 3,
      .vmax h 0 0 0 0 3, .vabs h 0 0 0 0 3, .vabs h 31 0 1 0 0, .vneg h 0 0 0 0 3, .vneg h 0 31 1 0 0, .vclamp h 0 0 31 0 0,
      .vclamp h 0 0 0 0 3, .vcmp h 3 0 0 0 0, .vcvt h 0 0 13 0 0, .vqnt h 0 0 0, .vqnt h 0 0 5, .vdqnt h 0 0 3, .vperm h 0 0 0 0 2,
      .vimac8 h 1 0 0 0 0 0, .viclamp h 0 0 31 0 0, .vicmp h 0 0 0 0 6, .vshl h 0 0 0 0 1, .vshr h 0 0 0 0 1, .vsra h 0 0 0 0 3,
      .vrshr h 0 1 0 0 0, .vmov h 31 0 1 0, .vexp2 h 0 0 0 0 3, .vlog2 h 31 0 1 0 0, .vexp h 0 0 0 0 3, .vlog h 0 0 0 0 3,
      .vrsqrt h 0 31 1 0 0, .vrcp h 0 0 0 0 3, .vsqrt h 0 0 0 0 3, .vtanh h 0 0 0 0 3, .vsigm h 31 0 1 0 0, .vredr h 0 0 0 0 3,
      .vredc h 0 0 0 0 3, .vmand h 8 0 0, .vmand h 0 8 0, .vmor h 8 0 0, .vmxor h 0 8 0, .vmandn h 8 0 0, .vmnot h 0 8,
      .vmovx h 0 0 0 0 0 3, .vmovx h 0 0 0 1 0 0] → i.wf = false := by decide +kernel

theorem test_wf_engines :
    let h := Hdr.zero
    ∀ i, i ∈ [Instr.mdrain h 0 0 0 1, .mdrainq h 0 0 0 5, .maccld h 0 0 0 1, .mstat h 0 0 1 1, .mstat h 0 1 0 0, .mcfg h 10 0 0,
      .mcfgr h 10 0 0 0 0, .mcfgr h 0 0 1 0 0, .mcfgr h 0 0 0 10 1, .fbind 0 20 0 0 0, .fbind 0 0 0 0 3, .fbind 0 16 1 0 0,
      .fbind 0 16 0 1 0, .funbind 0 20, .fstat 0 0 5] → i.wf = false := by decide +kernel

/-! ### States that meet the hypotheses of the statements: scalar and system instructions -/

theorem witness_select_compare : (3 : BitVec 3).toNat < 6 ∧ (5 : BitVec 3).toNat < 6 ∧ (0 : BitVec 2) ≠ 3 ∧
    ((x5 7).rdX 5).toInt > ((x5 7).rdX 4).toInt ∧
    1 ≤ (1 : BitVec 7).toNat ∧ (64 : BitVec 7).toNat ≤ 64 := by decide +kernel

theorem witness_control_transfers :
    (vs.iss.line : Int) + (8192 : BitVec 14).toInt < 0 ∧ (vs.iss.line : Int) + (-101 : BitVec 14).toInt < 0 ∧
    0 ≤ (vs.iss.line : Int) + (-100 : BitVec 14).toInt ∧ (vs.iss.line : Int) + (8091 : BitVec 14).toInt ≤ 8191 ∧
    vs.rdP 0 = ((0 : BitVec 1) == 0) ∧ vs.rdP 0 ≠ ((1 : BitVec 1) == 0) ∧ vs.rdP 1 = ((1 : BitVec 1) == 0) ∧
    ((x5 8191).rdX 5).toNat ≤ 8191 ∧ 8191 < ((x5 8192).rdX 5).toNat ∧ 100 + (64 : BitVec 7).toNat ≤ 8191 ∧
    fget? vs.seqs (coreOf vs.iss.ctx) = none ∧ ((x5 0).rdX 5).toNat % 2 ^ 32 = 0 ∧ ((x5 9).rdX 5).toNat % 2 ^ 32 ≠ 0 ∧
    (fget? { vs with seqs := [(32, {})] }.seqs (coreOf vs.iss.ctx)).isSome = true := by decide +kernel

theorem test_jal_links : after (exec (.jal 0 5 8191) vs) fun t => t.cc.pc == 8191 && t.rdX 5 == 101 := by decide +kernel

theorem witness_delays_and_clocks : ctxNo { vs with iss := { vs.iss with ctx := 257 } }.iss.ctx ≠ 0 ∧ ctxNo vs.iss.ctx = 0 ∧
    (vs.task (vs.taskOf vs.iss.ctx)).run ≠ .stopping ∧ coreOf vs.iss.ctx < 192 ∧ 192 ≤ coreOf (ctxKey 192 0) ∧
    (vs.task (vs.taskOf vs.iss.ctx)).frozen = none ∧ vs.cc.intrap = false ∧
    (cx fun c => { c with intrap := true }).cc.intrap = true ∧
    (({ vs with tasks := [(1, { vs.task 1 with frozen := some 9 })] }).task 1).frozen = some 9 := by decide +kernel

theorem witness_traps_enter :
    let p : Pending := ⟨cMisaligned, 1, 100, 1, 1, 3⟩
    let s : Bool → State := fun en => { (cx fun c => { c with pend := [p], faultAt := some 0, tvecEn := en, tvecLine := 40 }) with
      ev := { a := 256 } }
    after (exec (.trap 0 5 63) vs) (fun t => t.cc.pend == [⟨0x3FF, 3, 100, 1, Queue.l.code, 0⟩] && t.cc.faultAt == some 0) ∧
    earliest ((s true).ctx 256).pend = some p ∧ ((s true).ctx 256).run = .running ∧ issuedOver (s true) 256 = true ∧
    mayAct (s true) 256 = true ∧ ((s true).ctx 256).intrap = false ∧ delivered p.cause = true ∧
    after (exec .trapEntry (s true)) (fun t => t.cc.pc == 40 && t.cc.intrap && t.cc.tcode == cMisaligned && t.cc.tkind == 1) ∧
    issuedOver (s false) 256 = true ∧ mayAct (s false) 256 = true ∧ ((s false).ctx 256).tvecEn = false ∧
    ((s false).task ((s false).taskOf 256)).run ≠ .ending ∧
    after (exec .trapEntry (s false)) (fun t => (t.task 1).run == .ending && t.flogHead == 1) := by decide +kernel

theorem witness_trap_return :
    let s := cx fun c => { c with intrap := true, frame := some { line := 7, lane := 3 } }
    let q := cx fun c => { c with intrap := true, frame := some { seq := some { n := 1, ii := 1, trip := 2 } } }
    let b : State := { q with seqs := [(32, {})] }
    vs.cc.intrap = false ∧ s.cc.intrap = true ∧ s.cc.quiet = true ∧ s.cc.frame = some { line := 7, lane := 3 } ∧
    (cx fun c => { c with intrap := true, cbusy := [1], outst := { lc := 1 } }).cc.quiet = false ∧
    after (exec (.eret 0) s) (fun t => t.cc.pc == 7 && t.cc.fromLane == 3 && !t.cc.intrap) ∧ q.cc.quiet = true ∧
    after (exec (.eret 0) q) (fun t => (fget? t.seqs 32).isSome) ∧ gives (exec (.eret 0) b) (b.notYet) := by decide +kernel

theorem witness_system_registers : (vs.die 0).kind ≠ 0 ∧ (vs.die 33).fused = false ∧ (({ vs with dies := [] }).die 0).kind = 0 ∧
    coreOf vs.iss.ctx < 192 ∧ 32 ≤ coreOf vs.iss.ctx ∧ nstatBusy vs vs.iss.ctx = false ∧
    nstatBusy (cx fun c => { c with cbusy := [0] }) 256 = true ∧
    ((x5 1).rdX 5).getLsbD 0 = true ∧ ((x5 2).rdX 5).getLsbD 0 = false ∧
    after (exec (.swr 0 5 0x113) (x5 0x10)) (fun t => t.swrs == [⟨256, 0x113, 0x10⟩] && (fget? t.ctxs 256).isSome &&
      !(t.ctx 256).tskip && ((endSwrs t).ctx 256).tskip) := by decide +kernel

theorem witness_register_numbers : ¬ AssignedNumber 32 0x03F ∧ ¬ AssignedNumber 32 0x282 ∧ ¬ AssignedNumber 0 0x140 ∧
    AssignedNumber 0 0x281 ∧ AssignedNumber 200 0x040 ∧ ¬ AssignedNumber 200 0x130 := by unfold AssignedNumber; omega

theorem witness_ring_setup :
    let r : Ring := {}
    let v : DWord := 0x0001_0004_0000_0100
    r.fin = 0 ∧ r.declared = false ∧ r.fill = 0 ∧ r.clm = 0 ∧ v.toNat / 2 ^ 32 % 2 ^ 13 ≤ 4096 ∧ v.toNat % 2 ^ 32 % 256 = 0 ∧
    v.toNat / 2 ^ 45 % 8 = 0 ∧ v.toNat / 2 ^ 55 = 0 ∧ windowOf (v.toNat % 2 ^ 32) ≠ 3 ∧ vs.myCore.recv = [] ∧
    after (exec (.swr 0 5 0x200) (x5 v)) (fun t => t.swrs == [⟨256, 0x200, v⟩] && (fget (endSwrs t).myCore.rings 0 {}).nslot == 4) ∧
    (let s := vs.setPcore (vs.myPcore 256) { rings := [(0, { fin := 1 }), (1, { fill := 1, nslot := 4 })], recv := [(0, {})] }
     (fget s.myCore.rings 0 {}).fin = 1 ∧ (fget s.myCore.rings 1 {}).fill ≠ 0 ∧ s.myCore.recv ≠ [] ∧
      gives (exec (.swr 0 5 0x202) s) (s.raise cRingBusy 0)) := by decide +kernel

theorem witness_probe_table :
    let k := clusterOf (coreOf 256)
    let t : Cluster := { sets := 2, ppart := vs.cc.part, slots := [(0, { st := .valid, tag := 4, pin := 1 }), (1, { st := .filling, tag := 6 }),
      (2, { st := .failed, tag := 8, cause := 5 })] }
    let s := (x5 0x400).setCluster k t
    let g := (x5 (BitVec.ofNat 64 (slotAddr t 1))).setCluster k t
    let full : Cluster := { t with slots := (List.range 4).map fun w => (w, { st := .valid, tag := 100 + 2 * w, pin := 1 }) }
    HasTable s ∧ ¬ HasTable vs ∧ probeHit s.myCluster 0 4 = some 0 ∧ (s.myCluster.slot 0).pin < 255 ∧
    after (exec (.probe 0 6 5 77) s) (fun u => (u.myCluster.slot 0).pin == 2) ∧
    probeHit s.myCluster 0 10 = none ∧ outstanding s 32 < 1024 ∧ probeVictim s.myCluster 0 = some 2 ∧ s.cc.inBody = false ∧
    after (exec (.probe 0 6 5 77) ((x5 0xA00).setCluster k t)) (fun u => u.cc.pc == 77 && (u.myCluster.slot 2).pin == 1) ∧
    probeVictim full 0 = none ∧ after (exec (.probe 0 6 5 77) ((x5 0xA00).setCluster k full)) (fun u => u.myCluster.prbfull == 1) ∧
    slotOf t 0 = none ∧ slotOf t (slotAddr t 1) = some 1 ∧ gives (exec (.pwait 0 5) g) (g.notYet) := by unfold HasTable; decide +kernel

theorem witness_scalar_memory :
    let s := xab 0x100 0
    coreOf s.iss.ctx < 208 ∧ scalarAddr s 0 8 % 8 = 0 ∧ scalarAddr (xab 0x101 0) 0 2 % 2 ≠ 0 ∧ InReach s (scalarAddr s 0 8) 8 ∧
    Memory.wf s.mem = true ∧ firstOffence s (s.windows 256) (2 ^ 32) 8 = some (2 ^ 32, 0) ∧
    (cx fun c => { c with sptrap := true }).cc.sptrap = true ∧ s.cc.sptrap = false ∧
    after (exec (.std Hdr.zero 0 5 0) { s with iss := { s.iss with q := .s, xd := 0x8877665544332211 } }) (fun t =>
      after (exec (.ldh Hdr.zero 9 5 3) { t with iss := s.iss }) fun u => u.rdX 9 == 0xFFFFFFFFFFFF8877) := by unfold InReach; decide +kernel

/-! ### Vector instructions -/

theorem witness_float_specials :
    (fp32.value 0x7FC00000).isNan = true ∧ fp32.value 0x7F800000 = .inf false ∧ fp32.value 0xFF800000 = .inf true ∧
    (fp32.value 0x80000000).isZero = true ∧ (fp32.value 0x3F800000).isNan = false ∧ (bf16.value 0x7FC0).isNan = true ∧
    (fp16.value 0x7E00).isNan = true ∧ fAdd fp32 0x3F800000 0x3F800000 = (0x40000000, 0) ∧
    roundInt 0 false 5 2 = 2 ∧ roundInt 0 false 7 2 = 4 ∧ roundInt 2 false 5 2 = 3 ∧ roundInt 3 true 5 2 = 3 := by
  decide +kernel

theorem witness_vector_limits : (2 : BitVec 2) ≠ 3 ∧ (24 : BitVec 5).toNat + (7 : BitVec 3).toNat < 32 ∧
    (4 : BitVec 5).toNat % 4 = 0 ∧ (1 : BitVec 2) ≠ 0 ∧ (5 : BitVec 3).toNat < 6 := by decide

/-- A context whose v1 holds one at element 0 and two at element 1. -/
def v1 : State := { (cx fun c => { c with v := [(1, [1, 2] ++ List.replicate 1022 0)] }) with iss := { vs.iss with q := .c } }

theorem test_viadd_saturates : after (exec (.viadd Hdr.zero 2 1 1 0 1) v1) fun t =>
    (elem (t.cc.getV 2) 1).toNat == 4 && elem (t.cc.getV 2) 2 == 0 := by decide +kernel

theorem test_vrotr_wraps : after (exec (.vrotr Hdr.zero 2 1 0 63) v1) fun t =>
    elem (t.cc.getV 2) 63 == 1 && elem (t.cc.getV 2) 0 == 2 := by decide +kernel

theorem test_vredc_columns : after (exec (.vredc Hdr.zero 2 1 1 3 0) v1) fun t =>
    elem (t.cc.getV 2) 961 == 2 && elem (t.cc.getV 2) 2 == 0 := by decide +kernel

/-! ### Vector memory, conversions, tiles and copy commands -/

theorem witness_vector_memory :
    let s := ops vs .l 0x100 0x1000 0
    s.iss.xa.toNat % 64 = 0 ∧ s.iss.xb.toNat % 64 = 0 ∧ s.iss.xa.toNat % (16 * width 0) = 0 ∧ s.iss.xa.toNat % width 1 = 0 ∧
    (ops vs .l 0x101 0 0).iss.xa.toNat % 64 ≠ 0 ∧ overLimit ((List.range 1024).map fun j => 0x100 + 4 * j) 4 = none ∧
    overLimit ((List.range 16).map fun j => 0x100 + 0x1000 * j) 4 ≠ none ∧
    firstOffence s (s.windows 256) 0x10FC 4 = none ∧ Memory.wf s.mem = true := by decide +kernel

theorem test_vst_masked :
    after (exec (.vst Hdr.zero 1 5 1 1) (ops (v1.onCtx fun c => { c with vm := [(0, 2)] }) .s 0x200 0 0)) (fun t =>
      mget t.mem (unitKey 32 0x202) == 2 && mget t.mem (unitKey 32 0x200) == 0) := by decide +kernel

theorem witness_conversions :
    let s := ops vs .s 0x0000_0800_0000_0100 (0x70_0301 + 2 ^ 48 * 0) 0
    let c := convOf s
    c.countOk = true ∧ c.st ≠ 3 ∧ bit s.iss.xb.toNat 7 = false ∧ bits s.iss.xb.toNat 14 2 = 0 ∧ c.tag ≠ 0 ∧ c.src % 4 = 0 ∧
    c.dst % 64 = 0 ∧ overlap c.src (4 * c.n * 112) c.dst (64 * c.n) = false ∧ c.n = 1 ∧
    firstOffence s (s.windows 256) c.src (4 * min 112 c.krem) = none ∧ firstOffence s (s.windows 256) c.dst 64 = none ∧
    goesOn (exec (.vqnt Hdr.zero 5 6 1) s) = true ∧ (convOf vs).countOk = false ∧
    (let d := ops vs .s 0x0000_0800_0000_0100 1 0
     let z := put d 0x100 (List.replicate 64 0)
     let y := put d 0x100 ([0xF1, 0, 0, 0] ++ List.replicate 60 0)
     bits d.iss.xb.toNat 7 5 = 0 ∧ bits d.iss.xb.toNat 13 19 = 0 ∧ (convOf d).countOk = true ∧
      sdbFmt (scratchBytes z (z.windows 256) 0x100 64) ≠ sdbFmt (scratchBytes y (y.windows 256) 0x100 64)) := by decide +kernel

theorem witness_tiles :
    let s := ops vs .f 0x4000 0x1000 0
    let o := s.windows s.iss.ctx
    ownOk o 0x4000 0x1000 = true ∧ ownOk o 0x2000000 0x1000 = false ∧ atLimit s = false ∧
    after (exec (.ownE Hdr.zero 5 6 0) s) (fun t => t.engineOwned (unitKey 32 0x4FFF) && !t.engineOwned (unitKey 32 0x5000)) ∧
    (ops vs .f 0x4000 0 0).iss.xb.toNat = 0 ∧ (ops vs .f 0x4001 0x1000 0).iss.xa.toNat % 4096 ≠ 0 ∧
    (let m := ops (tiled vs) .f 0x0000_5000_0000_4000 0x001_001_001 0
     tmovRange m (m.windows 256) (tmovBlock m) = none ∧ goesOn (exec (.tmov Hdr.zero 5 6 7 0) m) = true ∧
      (tmovRange vs (vs.windows 256) (tmovBlock m)).isSome = true) := by decide +kernel

theorem witness_copy_commands :
    let r := pb 3 64 0x4000 0x5000 1 1
    let s := ops (put (tiled vs) 0x100 r) .f 0x100 0 0
    let c := (s.newCmd .cpy ⟨false, false, true, false, 0⟩).withBlock s (s.windows 256) r
    BlockAt s 0x100 r ∧ BlockOk r ∧ ¬ BlockOk (pb 3 0 0 0 1 1) ∧ SidesOk s c ∧ SemOk s c.x ∧
    ¬ SemOk s ⟨false, false, false, true, 4⟩ ∧ SemOk s ⟨false, false, false, true, 3⟩ ∧ atLimit s = false ∧
    after (exec (.cpy Hdr.zero 5 ⟨false, false, true, false, 0⟩) s) (fun t => t.cmd s.nextId == c && t.cc.outst.cs + t.cc.outst.cl +
      t.cc.outst.lc + t.cc.outst.ls + t.cc.outst.sl + t.cc.outst.sc == 0) ∧
    (blockOf r).elemAligned 8 = true ∧ (blockOf r).aux = 0 ∧ (blockOf r).n2 = 1 ∧ (s.ctx 256).part ≠ 0 ∧
    restartBad s c c.dstSpan = false ∧ goesOn (exec (.caccf Hdr.zero 5 ⟨false, false, false, false, 0⟩ 5 1)
      (put s 0x130 (leBytes 8 0x6000))) = true := by
  unfold BlockAt BlockOk SidesOk SemOk; decide +kernel

theorem witness_timed_copies :
    let r := pb 3 64 0x4000 0x5000 1 1
    let s := ops (put (tiled vs) 0x100 r) .f 0x100 0 0
    (s.iss.xb.toNat ≤ s.sched 1) ∧ (s.sched 1 < (ops s .f 0x100 77 0).iss.xb.toNat) ∧
    (timetable s (clusterOf 32)).length < 256 ∧
    after (exec (.cpyt Hdr.zero 5 6 ⟨false, false, false, false, 0⟩) s) (fun t => t.myCluster.late == 1) ∧
    after (exec (.cpyt Hdr.zero 5 6 ⟨false, false, false, false, 0⟩) (ops s .f 0x100 77 0)) (fun t => (t.cmd s.nextId).timed) ∧
    256 ≤ (timetable { s with cmds := (List.range 256).map fun k => (k, { timed := true, engine := clusterOf 32 }) }
      (clusterOf 32)).length := by decide +kernel

theorem witness_swaps :
    let s := ops (tiled vs) .f 0x4000 0x100 0x5000
    let w := s.windows 256
    (∀ j, j < 8 → (homeIn w (0x100 + j)).isSome = true) ∧ spanOk s w (0x5000, 0x5003) = true ∧ spanOk s w (0x4000, 0x4003) = true ∧
    after (exec (.cswp Hdr.zero 7 5 6 ⟨false, false, false, false, 0⟩ 0 1) s) (fun t => (t.cmd s.nextId).kind == .cswp) ∧
    after (exec (.ccas Hdr.zero 7 5 6 ⟨false, false, false, false, 0⟩ 0 1) s) (fun t => (t.cmd s.nextId).kind == .ccas) ∧
    (ops vs .f 2 0 0).iss.xa.toNat % 4 ≠ 0 := by decide +kernel

/-! ### Synchronisation and the matrix engine -/

theorem witness_rings :
    let r : Ring := { nslot := 4, ssz := 1, fill := 2, clm := 1 }
    let s := held { rings := [(33, r), (2, { r with fill := 3 }), (3, { r with fin := 1 }), (4, { r with fin := 2 })] }
    let a := fun (v : DWord) => ops s .l v 0 0
    let g := fun (v : DWord) => { a v with iss := { (a v).iss with again := true } }
    fget s.myCore.rings (1 + 32 * 1) {} = r ∧ s.iss.again = false ∧ r.fin ≠ 2 ∧ r.linkFed = false ∧
    after (exec (.rclaim Hdr.zero 6 1 1) s) (fun t => t.cc.getX 6 == 768 && (fget t.myCore.rings 33 {}).clm == 2) ∧
    gives (exec (.rclaim Hdr.zero 6 2 0) s) (s.raise cRingFull 2) ∧ gives (exec (.rclaim Hdr.zero 6 4 0) s) (s.raise cRingEnd 4) ∧
    gives (exec (.rpeek Hdr.zero 6 0 3 0) s) (s.raise cRingEnd 3) ∧
    gives (exec (.rclaim Hdr.zero 6 9 0) s) (s.raise cRingField 9) ∧
    gives (exec (.rwaitf Hdr.zero 5 1 1) (a 5)) ((a 5).raise cRingField 33) ∧
    gives (exec (.rpeek Hdr.zero 6 5 1 1) (a 2)) ((a 2).raise cRingEmpty 33) ∧
    after (exec (.rpeek Hdr.zero 6 5 1 1) (a 1)) (fun t => t.cc.getX 6 == 256) ∧
    after (exec (.rwaitf Hdr.zero 5 1 1) (a 3)) (fun t => t.iss.wait) ∧ after (exec (.rwaitf Hdr.zero 5 1 1) (a 2)) (fun t => !t.iss.wait) ∧
    after (exec (.rwaite Hdr.zero 5 1 1) (a 2)) (fun t => t.iss.wait) ∧ after (exec (.rwaite Hdr.zero 5 1 1) (a 1)) (fun t => !t.iss.wait) ∧
    gives (exec (.rcommit Hdr.zero 5 1 1) (a 2)) ((a 2).raise cRingNoclaim 33) ∧ after (exec (.rcommit Hdr.zero 5 1 1) (a 1)) (fun t => t.iss.wait) ∧
    gives (exec (.rpop Hdr.zero 5 1 1) (a 3)) ((a 3).raise cRingEmpty 33) ∧ after (exec (.rpop Hdr.zero 5 1 1) (a 2)) (fun t => t.iss.wait) ∧
    after (exec (.rcommit Hdr.zero 5 1 1) (g 1)) (fun t => fget t.myCore.rings 33 {} == { r with clm := 0, fill := 3 }) ∧
    after (exec (.rpop Hdr.zero 5 1 1) (g 2)) (fun t => fget t.myCore.rings 33 {} == { r with tail := 2, fill := 0 }) := by
  decide +kernel

theorem witness_barriers :
    let s := held { bars := [(1, { exp := 2, cnt := 1, gen := 7 }), (2, { cnt := 65535 }), (3, { cnt := 3 })] }
    let a := fun (v w : DWord) => ops s .l v w 0
    barAddr (a 0x800 0) 0x800 = none ∧ barAddr s 1 = some (0, 1) ∧ physOf (coreOf 256) = 0 ∧
    gives (exec (.bari Hdr.zero 5 3) (a 1 0)) ((a 1 0).raise cBarState 1) ∧
    after (exec (.bari Hdr.zero 5 3) (a 3 0)) (fun t => fget t.myCore.bars 3 {} == { exp := 3, cnt := 0, gen := 1 }) ∧
    after (exec (.bari Hdr.zero 5 4) (a 3 0)) (fun t => fget t.myCore.bars 3 {} == { exp := 4, cnt := 3, gen := 0 }) ∧
    gives (exec (.bara Hdr.zero 6 5 0) (a 2 0)) ((a 2 0).raise cBarState 2) ∧
    after (exec (.bara Hdr.zero 6 5 0) (a 1 0)) (fun t => t.cc.getX 6 == 7 && fget t.myCore.bars 1 {} == { exp := 2, gen := 8 }) ∧
    after (exec (.barw Hdr.zero 5 6) (a 1 7)) (fun t => t.iss.wait) ∧ after (exec (.barw Hdr.zero 5 6) (a 1 8)) (fun t => !t.iss.wait) ∧
    after (exec (.bara Hdr.zero 6 5 1) (a 1 0)) (fun t => t.syncs.length == 1) ∧
    (let u : State := { s with tasks := [(1, { s.task 1 with places := [{ (s.place 32) with cores := [(0, 0), (1, 0)] }] })] }
     barAddr u 0x201 = some (1, 1)) := by decide +kernel

theorem witness_package_barriers :
    let k : Task := { (vs.task 1) with launch := { (vs.task 1).launch with npb := 1 }
                                       pbars := [(0, { n := 2, arrived := 1, release := [(0, 43)] })] }
    let s : State := { (ops vs .l 0x20000 0 0) with tasks := [(1, k)] }
    let p : PArr := { at_ := 3, ctx := 256, n := 2, line := 100, lane := 1 }
    s.iss.xa.toNat % 64 < (s.task (s.taskOf s.iss.ctx)).launch.npb ∧ s.accessed s.now = true ∧
    (s.onCtx fun c => { c with acc := [(Queue.l.code, 5)] }).accessed s.now = false ∧ goesOn (exec (.pbara Hdr.zero 5) s) = true ∧
    (vs.iss.xa.toNat % 64 < (vs.task 1).launch.npb) = False ∧ pbReleased s 1 0 = true ∧
    pbReleased (s.onCtx fun c => { c with pbphase := [(0, 0)] }) 1 0 = false ∧ (s.pbar 1 0).arrived ≠ 0 ∧ (s.pbar 1 0).arrived + 1 = (s.pbar 1 0).n ∧
    p.n = (s.pbar 1 0).n ∧ (s.pbar 1 0).recent = [] ∧
    ((countArrival s 1 0 p).pbar 1 0).release = [(0, 43)] ∧
    stays (exec .pbarRelease { s with ev := { a := 1, b := 0 } }) = true ∧
    after (exec .pbarRelease { s with tb := 43, ev := { a := 1, b := 0 } }) (fun u => (u.pbar 1 0).done == 1) = true := by
  decide +kernel

theorem witness_semaphores :
    let s := ops vs .l 1 3 0
    let f : State := s.setDie 10 { s.die 10 with sems := [((semOf s 1).2, 3)] }
    let m : State := s.setDie 10 { s.die 10 with sems := [((semOf s 1).2, 2 ^ 32 - 2)] }
    1 < s.semLimit 256 ∧ ¬ 4 < s.semLimit 256 ∧ semCount f 10 (semOf s 1).2 = 3 ∧ (semOf s 1).1 = 10 ∧ (semWaiters s 10 (semOf s 1).2) = [] ∧
    after (exec (.semw Hdr.zero 5 6) f) (fun t => semCount t 10 (semOf s 1).2 == 0) ∧ after (exec (.semw Hdr.zero 5 6) s) (fun t => t.iss.wait) ∧
    gives (exec (.sems Hdr.zero 5 6 0) m) (m.raise cSemOverflow 1) ∧
    after (exec (.sems Hdr.zero 5 6 0) f) (fun t => semCount t 10 (semOf s 1).2 == 6) ∧ isControl (coreOf 256) = (s.cc.part == 0) ∧
    semsTarget s 1 = some 32 ∧ after (exec (.sems Hdr.zero 5 6 1) s) (fun t => t.syncs.length == 1) ∧
    bit 0x200001 21 = true ∧ semsTarget s 0x200001 = some 32 ∧ gives (exec (.semw Hdr.zero 5 6) (ops vs .l 4 3 0))
      ((ops vs .l 4 3 0).raise cSemField 4) := by decide +kernel

theorem witness_messages :
    let s := ops vs .l 0x0000_0007_0000_0100 0x40 0
    sendTarget s 0x40 = some (32, 0) ∧ firstOffence s (s.windows 256) 0x100 64 = none ∧ atLimit s = false ∧
    after (exec (.send Hdr.zero 5 6) s) (fun t => (t.msgs.map fun e => (e.2.line, e.2.len)) == [(7, 64)]) ∧
    sendTarget s 0x1_0040 = none ∧ gives (exec (.send Hdr.zero 5 6) vs) (vs.raise cMsgField 0) ∧
    gives (exec (.cwwaitSent Hdr.zero 5 6) (xab 64 0)) ((xab 64 0).raise cCopyField) ∧
    gives (exec (.cwwaitArr Hdr.zero 5 6) (xab 255 0)) ((xab 255 0).raise cPutWindow) ∧
    after (exec (.cwwaitSent Hdr.zero 5 6) (xab 63 0)) (fun t => !t.iss.wait) ∧ after (exec (.cwwaitSent Hdr.zero 5 6) (xab 63 1)) (fun t => t.iss.wait) ∧
    (let w : State := { xab 255 4 with wins := [(255, { valid := true, arr := 3 })] }
     (w.win 255).valid = true ∧ after (exec (.cwwaitArr Hdr.zero 5 6) w) (fun t => t.iss.wait) ∧
      after (exec (.cwwaitArr Hdr.zero 5 6) { w with iss := { w.iss with xb := 3 } }) (fun t => !t.iss.wait)) := by decide +kernel

theorem witness_matrix_registers :
    let a := fun (v : DWord) => ops ms .c v 0 0
    let busy := (a 0x101).setMx ms.engine { ops := [(0, { ctx := 1, tiles := [1] })] }
    ms.myMx.active = none ∧ ms.myMx.queued = none ∧ engineMark ms = 1 ∧
    after (exec (.mstat Hdr.zero 6 5 0 0) busy) (fun t => t.iss.wait) ∧ after (exec (.mwait Hdr.zero 0) busy) (fun t => t.iss.wait) ∧
    after (exec (.mwait Hdr.zero 1) busy) (fun t => !t.iss.wait) ∧ after (exec (.mstat Hdr.zero 6 5 0 0) (a 0)) (fun t => !t.iss.wait) ∧
    after (exec (.mzero Hdr.zero 5) busy) (fun t => t.iss.wait) ∧
    after (exec (.mzero Hdr.zero 5) ((a 0x101).setMx ms.engine { acc := [(1, List.replicate 2048 5)] })) (fun t => t.myMx.elem 1 31 63 == 0 && !t.iss.wait) ∧
    (let o := (entered (a 0x001) { kind := .zero, tiles := [] }).2
     o.myMx.tileFree (entered (a 0x001) { kind := .zero, tiles := [] }).1 { kind := .zero, tiles := [] } = true) ∧
    after (exec (.mzero Hdr.zero 5) (a 0x001)) (fun t => t.iss.faulted) ∧
    after (exec (.mcfgr Hdr.zero 4 5 6 9 1) (ops ms .c 1 2 0)) (fun t => fget t.myMx.shadow 4 0 == 1 && fget t.myMx.shadow 9 0 == 2) := by
  decide +kernel

theorem witness_matrix_drains :
    let s := mx {}
    let a := fun (v w d : DWord) => ops s .c v w d
    let busy : Mx := { ops := [(0, { ctx := 1, tiles := [0] })] }
    (entered s { kind := .drain, tiles := [0] }).2.myMx.tileFree (entered s { kind := .drain, tiles := [0] }).1 { kind := .drain, tiles := [0] } = true ∧
    after (exec (.mdrain Hdr.zero 5 6 0 0) (ops (mx busy) .c 0 0 0)) (fun t => t.iss.wait) ∧
    after (exec (.maccld Hdr.zero 5 6 0 0) (ops (mx busy) .c 0 0 0)) (fun t => t.iss.wait) ∧
    after (exec (.mdrain Hdr.zero 5 6 0 0) (a 0 0x100 0)) (raised cMxField) ∧
    after (exec (.mdrain Hdr.zero 5 6 1 2) (a 0 0 0)) (raised cMxField) ∧
    after (exec (.mdrain Hdr.zero 5 6 0 0) (a 32 0 0)) (raised cMisaligned) ∧
    firstOffence s (s.windows 0) 0x3FF00 256 = none ∧
    after (exec (.maccld Hdr.zero 5 6 1 2) (a 0x100 0x83 0)) (fun t => t.myMx.ops.length == 1) ∧
    after (exec (.mstream Hdr.zero 5) (a 0 0x100 0)) (fun t => (t.myMx.ops.map fun e => (e.2.port, e.2.next)) == [(1, 104)]) ∧
    after (exec (.mstream Hdr.zero 5) (a 0 0x200 0)) (raised cStreamUnbound) := by decide +kernel

theorem witness_drain_quantised :
    let d : DWord := 0x0100
    let v : DWord := 0x0111_3100
    let s := ops (mx {}) .c 0 v d
    drainqBad v.toNat = false ∧ bit v.toNat 24 = true ∧ v.toNat / 2 ^ 12 % 16 = 3 ∧ d.toNat / 2 ^ 8 % 64 = 1 ∧
    after (exec (.mdrainq Hdr.zero 7 5 6 0) s) (fun t => t.myMx.qfmt == 1 && t.myMx.qtag == 3 && (fget t.myMx.rows 0 {}).opened) ∧
    after (exec (.mdrainq Hdr.zero 7 5 6 2) s) (raised cMxField) ∧
    after (exec (.mdrainq Hdr.zero 7 5 6 0) (ops (mx {}) .c 0 0x0011_3100 d)) (raised cDrainqState) := by decide +kernel

theorem witness_matrix_passes :
    let c : DWord := 0x0500_0002
    let s := ops (mx { fetch := some 0 }) .c 0 c 0
    let o := (entered s { kind := .pass, tiles := [5], ty := 2, word := c }).2
    let p : PassArgs := { ty := 2, tile := 5 }
    let n : Nest := { regs := (List.range 6).map fun k => (4 + k, 1) }
    o.myMx.nextPass = some ((entered s { kind := .pass, tiles := [5], ty := 2, word := c }).1, p, { kind := .pass, tiles := [5], ty := 2, word := c }) ∧
    passDue o o.engine p = true ∧ (match (passChecks o o.engine 0 p [] []).2 with
      | .inl _ => false
      | .inr _ => true) = true ∧
    passDue (ops (mx {}) .c 0 c 0) ms.engine p = false ∧
    after (exec (.mpass Hdr.zero 5 6) s) (fun t => (t.myMx.ops.map fun e => (e.2.started, e.2.fin)) == [(true, 114)]) ∧
    after (exec (.mpass Hdr.zero 5 6) (ops s .c 0 0x0500_000A 0)) (raised cMxField) ∧
    after (exec (.mspass Hdr.zero 5 6) (ops s .c 1 0x0500_0000 0)) (raised cMisaligned) ∧
    after (exec (.mpass Hdr.zero 5 6) (ops (mx { active := some n }) .c 0 c 0)) (fun t => t.iss.wait) ∧
    nestBad n.regs false = false ∧ gives (exec (.mgo Hdr.zero) (mx {})) ((mx {}).raise cNestCfg) ∧
    after (exec (.mgo Hdr.zero) (mx { shadow := n.regs })) (fun t => t.myMx.active.isSome) ∧
    after (exec (.mgo Hdr.zero) (mx { shadow := n.regs, active := some n })) (fun t => t.myMx.queued.isSome) ∧
    after (exec (.mgo Hdr.zero) (mx { shadow := n.regs, active := some n, queued := some n })) (fun t => t.iss.wait) := by decide +kernel

theorem witness_matrix_events :
    let n : Nest := { regs := (0, 2) :: (List.range 6).map fun k => (4 + k, 1) }
    let e := fun (x : Mx) (b : Nat) => { mx x with ev := { a := ms.engine, b := b } }
    let act := e { active := some { n with gen := some 0 }, ops := [(0, n.args.op 0 true)], fetch := some 0 } 0
    engineActs (e {} 0) ms.engine = true ∧ taskStill (e {} 0) ((e {} 0).part (enginePart ms.engine)).task = false ∧
    after (exec .nestActivate (e { queued := some n } 0)) (fun t => (t.mx ms.engine).active.isSome) ∧ nestDue act ms.engine = true ∧
    (match (passChecks act ms.engine n.ctx n.args [] []).2 with
      | .inl _ => false
      | .inr _ => true) = true ∧
    after (exec .matrixPassStart act) (fun t => (t.mx ms.engine).ops.length == 1) ∧
    after (exec .matrixDrainComplete (e { ops := [(4, { kind := .drain, started := true })] } 4)) (fun t => (t.mx ms.engine).ops == []) ∧
    stays (exec .matrixPassRetire (e {} 0)) = true ∧
    after (exec .matrixPassRetire (e { ops := [(4, { started := true, tiles := [1], ty := 2, zero := true })] } 4))
      (fun t => (t.mx ms.engine).passes == 1 && (t.mx ms.engine).ops == []) ∧
    after (exec .mstreamRowEmit (e { ops := [(4, { kind := .stream, started := true, rows := [[], []] })] } 4))
      (fun t => ((t.mx ms.engine).ops.map fun o => o.2.next) == [1]) := by decide +kernel

/-! ### Stack commands, stream commands and fences -/

/-- An H block of R349. -/
def hb (stk ty op len src dst aux aux2 : Nat) : List Byte :=
  [1, BitVec.ofNat 8 stk, BitVec.ofNat 8 ty, BitVec.ofNat 8 op] ++ leBytes 4 len ++ leBytes 8 src ++ leBytes 8 dst ++
    leBytes 8 aux ++ leBytes 8 aux2 ++ List.replicate 24 0

/-- Matrix core 0 with a fabric and the operands of an F instruction. -/
def fb (f : Fab) (a b : DWord) : State := ops { (mx {}) with fabs := [(1, f)] } .f a b 0

theorem witness_stack_commands :
    let x : CExt := ⟨false, false, false, false, 0⟩
    let r := hb 3 0 0 64 0x100000 0x200000 2 0x1000
    let s := ops (put vs 0x100 r) .f 0x100 0 0
    let c := (s.newCmd .hred x).withH r
    winRead (s.windows 256) s 0x100 64 = some r ∧ hFieldsBad s c r = false ∧ hMisaligned c = false ∧ c.op = 0 ∧
    (s.stack c.arg).lost = false ∧ bufferFull s (clusterOf 32) = false ∧
    hFieldsBad s ((s.newCmd .hred x).withH (hb 12 0 0 64 0x100000 0x200000 2 0x1000)) (hb 12 0 0 64 0x100000 0x200000 2 0x1000) = true ∧
    hMisaligned ((s.newCmd .hred x).withH (hb 3 0 0 64 0x100002 0x200000 2 0x1000)) = true ∧
    winRead (vs.windows 256) vs 0x1FF_FFFF_FFC0 64 = none ∧
    after (exec (.hred Hdr.zero 5 x) s) (fun t => (t.cmd s.nextId).queued && (t.cmd s.nextId).b.len == 64) = true ∧
    after (exec (.hred Hdr.zero 5 x) (s.setStack 3 { lost := true })) (raised cStackLost) = true ∧
    after (exec (.hred Hdr.zero 5 x) (ops s .f 0x101 0 0)) (raised cMisaligned) = true ∧
    bufferFull { s with cmds := (List.range 16).map fun k => (k, { kind := .hscan, queued := true, engine := clusterOf 32 }) }
      (clusterOf 32) = true := by decide +kernel

theorem witness_stream_states :
    let g := fun (st : Nat) => fb { st := st } 0 0
    let a := fun (st n : Nat) => (g st).fab ((g st).myTask) = { st := n }
    a 1 1 ∧ a 4 4 ∧
    gives (exec (.fload 0 5 7) (g 3)) ((g 3).raise cFabState) = true ∧ gives (exec (.fbind 0 16 5 0 0) (g 3)) ((g 3).raise cFabState) = true ∧
    gives (exec (.fstart 0 5) (g 1)) ((g 1).raise cFabState) = true ∧ gives (exec (.fstop 0 5) (g 2)) ((g 2).raise cFabState) = true ∧
    gives (exec (.finj 0 5 6) (g 3)) ((g 3).raise cFabState) = true ∧
    after (exec (.fphase 0 6) (g 2)) (fun t => t.cc.getX 6 == 2 && !t.iss.wait) = true ∧
    after (exec (.fphase 0 6) (g 4)) (fun t => t.iss.wait && t.iss.wset == [0, 0]) = true ∧
    (let u := fun (f : Fab) => { (fb f 0 0) with iss := { (fb f 0 0).iss with again := true, wset := [0, 0] } }
     after (exec (.fphase 0 6) (u { st := 2, phase := 1, phaseWord := 77 })) (fun t => t.cc.getX 6 == 77) = true ∧
      after (exec (.fphase 0 6) (u { st := 2, loads := 1, loadWord := 78 })) (fun t => t.cc.getX 6 == 78) = true ∧
      after (exec (.fphase 0 6) (u { st := 4 })) (fun t => t.iss.wait) = true) ∧
    after (exec (.fstat 0 6 0) (fb { st := 4, failed := true, sticky := 5, phase := 9 } 0 0))
      (fun t => t.cc.getX 6 == 0x9_0000_005C) = true := by decide +kernel

theorem witness_stream_commands :
    let g := fun (st : Nat) (v : DWord) => fb { st := st } v 0
    let r : Ring := { nslot := 4, ssz := 4 }
    let h := fun (v : DWord) => (g 2 v).setPcore ((g 2 v).myPcore 0) { rings := [(1, r)] }
    let w : List Byte := pb 1 256 0x4000 0 1 1
    let s := winStore (g 2 0x100) ((g 2 0x100).windows 0) 0x100 w
    let p : SPort := { kind := 0, w := false, b := blockOf w, ctx := 0 }
    let o := fb { st := 4 } 0x200 0x1_0000_0000
    let q : SPort := { kind := 1, b := blockOf (pb 2 256 0 0x4000 1 1), ctx := 0, open_ := [(0, true)] }
    let i := o.setSport (16 * o.cc.part + 1) q
    after (exec (.fload 0 5 7) (g 2 0x4000)) (fun t => (t.fab 1).st == 1 && (t.cmd ms.nextId).kind == .fload) = true ∧
    gives (exec (.fstart 0 5) (g 2 163)) ((g 2 163).raise cFabLate) = true ∧
    after (exec (.fstart 0 5) (g 2 164)) (fun t => (t.fab 1).st == 3 && (t.fab 1).t == 164) = true ∧
    after (exec (.fstop 0 5) (g 4 164)) (fun t => (t.fab 1).p == 164) = true ∧
    gives (exec (.fstop 0 5) (g 4 100)) ((g 4 100).raise cFabLate) = true ∧
    gives (exec (.fhnd 0 5) (h 0x80)) ((h 0x80).raise cFabField) = true ∧
    gives (exec (.fhnd 0 5) (h 2)) ((h 2).raise cFabField) = true ∧
    after (exec (.fhnd 0 5) (h 1)) (fun t => (t.fab 1).handlers == [(0, (0, 1))]) = true ∧
    after (exec (.fhnd 0 5) (h 64)) (fun t => (t.fab 1).handlers == []) = true ∧
    after (exec (.fbind 0 18 5 0 0) (h 1)) (fun t => fget t.myCore.eps 2 false) = true ∧
    isMatrix (coreOf 256) = false ∧
    winRead (s.windows 0) s 0x100 64 = some w ∧ bindBad 0 false w = false ∧
    bindReach s p = true ∧ after (exec (.fbind 0 2 5 0 0) s) (fun t => t.sport (16 * s.cc.part + 2) == some p) = true ∧
    i.sport (16 * i.cc.part + i.iss.xb.toNat / 2 ^ 32 % 16) = some q ∧ InReach i 0x200 256 ∧
    after (exec (.finj 0 5 6) i) (fun t => (t.sport (16 * i.cc.part + 1)).map SPort.open_ == some []) = true ∧
    gives (exec (.finj 0 5 6) { i with iss := { i.iss with xb := 0x1_0000_0001 } })
      ({ i with iss := { i.iss with xb := 0x1_0000_0001 } }.raise cFabField) = true := by unfold InReach; decide +kernel

theorem witness_fences :
    let s := ops vs .f 0 0 0
    let c : Cmd := { kind := .cpy, ctx := 256, part := s.cc.part, b := { ssp := true, len := 64 } }
    let u := { s with cmds := [(5, c)] }
    fenceSet s 256 = [] ∧ fenceSet u 256 = [5] ∧ fenceItem u 256 2 5 = false ∧
    after (exec (.fence Hdr.zero 0) s) (fun t => !t.iss.wait) = true ∧
    after (exec (.fence Hdr.zero 2) u) (fun t => t.iss.wait && t.iss.wset == [0, 5]) = true ∧
    after (exec (.fence Hdr.zero 0) { s with iss := { s.iss with again := true, wset := [0, 5] } }) (fun t => !t.iss.wait) = true := by
  decide +kernel

/-! ### Bring-up, registers, power and trust, memory stacks -/

/-- The state after reset with the arguments of an event. -/
def evt (a b : Nat) (v : DWord := 0) : State := { State.reset with ev := { a := a, b := b, v := v } }

theorem witness_bringup :
    let r := State.reset
    let tr := { (evt 0 0) with bootStep := 2 }
    mixBad r = none ∧ mixBad { r with mixRec := [] } = some 0 ∧
    gives (exec .reset { r with fwGood := false }) { r with fwGood := false, bootStep := 15, bootFail := 3, bootPos := 0 } = true ∧
    after (exec .reset r) (fun t => t.bootStep == 2 && t.agenda.length == 2 + (trainable r).length) = true ∧ (0, 0) ∈ trainable tr ∧
    farEnd 0 0 = 1 ∧ farModule 0 0 = 0 ∧ (0, 1) ∈ trainable tr ∧ stays (exec .linkTrainingDone r) = true ∧
    after (exec .linkTrainingDone { tr with ev := { tr.ev with f := true, c := 1 } }) (fun t =>
      (fget (t.die 1).links 0 {}).trained && (t.die 0).ifv == 1) = true ∧
    after (exec .zeroFillDone { r with bootStep := 3, mem := [⟨stackKey 3 5, 7⟩] }) (fun t => t.mem == [] && t.bootStep == 4) = true ∧
    nextPowerUp { r with bootStep := 4 } = some 0 ∧
    after (exec .clusterPowerUp { r with bootStep := 4 }) (fun t => (t.cluster 0).powered && !(t.cluster 1).powered) = true ∧
    nextPowerUp { r with clusters := (List.range 56).map fun k => (k, { powered := true }) } = none ∧
    after (exec .dieFence (evt 3 0)) (fun t => (t.die 3).health == 1) = true := by decide +kernel

theorem witness_register_writes :
    let e := fun (a b : Nat) (v : DWord) => { vs with ev := { a := a, b := b, v := v } }
    let u : State := { (e 14 3 0) with cmds := [(7, { kind := .cpy, parked := some (321, 77) })] }
    let p := u.setDie 14 { u.die 14 with parked := [(3, 7)] }
    let g := { State.reset with ev := { a := 0, b := 0x1900, c := 8, v := 3500 } }
    (vs.ctx 256).run = .running ∧
    after (exec .sperrClear ((e 256 0 0).setCtx 256 { vs.ctx 256 with sperr := 9, spaddr := 8 })) (fun t =>
      (t.ctx 256).sperr == 0 && (t.ctx 256).spaddr == 0) = true ∧
    after (exec .msgcfgWrite (e 256 0 0x1_0000_4000)) (fun t => (t.pcore (t.myPcore 256)).msgBase == 0x4000) = true ∧
    after (exec .qcfgWrite (e 256 5 0x0002_0004_0000_0100)) (fun t =>
      fget (t.pcore (t.myPcore 256)).rings 5 {} == { base := 256, nslot := 4, ssz := 2 }) = true ∧
    after (exec .prbcfgWrite (e 256 0 0x10000)) (fun t => (t.cluster (clusterOf 32)).pbase == 1) = true ∧
    coreOf 256 = 32 ∧ parkedAt p 14 3 = some 7 ∧ parkedAt u 14 3 = none ∧
    after (exec .xfactRetry p) (fun t => (t.cmd 7).parked == none) = true ∧
    after (exec .xfactFail p) (fun t => (t.cmd 7).err == 321) = true ∧
    after (exec .winWrite (e 9 0 0x50001)) (fun t => (t.win 9).valid && (t.win 9).base == 0x50000) = true ∧
    after (exec .winWrite (e 9 8 99)) (fun t => (t.win 9).len == 99) = true ∧
    after (exec .winWrite (e 9 16 0x7000)) (fun t => (t.win 9).root == 0x7000) = true ∧
    after (exec .pwrlimWrite (evt 0 0 3500)) (fun t => t.pwrlim == 3500) = true ∧
    after (exec .almcfgWrite (e 0 0 0x249)) (fun t => t.almcfg == 0x249 && t.almSet) = true ∧
    after (exec .thermClear ((e 3 0 0).setDie 3 { hot := true })) (fun t => !(t.die 3).hot) = true ∧
    after (exec .stkctlLose (e 5 0 0)) (fun t => (t.stack 5).lost && (t.stack 5).cause == 4 && (t.die 27).health == 2) = true ∧
    blockAnswers g 0 = true ∧ after (exec .registerWrite g) (fun t => t.pwrlim == 3500) = true ∧
    stays (exec .registerWrite vs) = true ∧ blockAnswers vs 40 = false := by decide +kernel

theorem witness_operating_points :
    let e := fun (c : Cluster) (v : DWord) => (evt 3 0 v).setCluster 3 c
    let word := fun (f u : Nat) => BitVec.ofNat 64 (f + 256 * u)
    (((e { stat := 1 } 0).cluster 3).stat = 1) ∧
    after (exec .pcreqGo (e { stat := 1 } (word 13 40))) (fun t => (t.cluster 3).perr) = true ∧
    after (exec .pcreqGo (e {} (word 27 40))) (fun t => (t.cluster 3).stat == 5) = true ∧
    after (exec .pcreqGo (e {} (word 26 49))) (fun t => (t.cluster 3).stat == 3) = true ∧
    after (exec .pcreqGo (e {} (word 13 25))) (fun t => (t.cluster 3).stat == 1 && (t.cluster 3).xfifo) = true ∧
    after (exec .pcreqGo (e { qstate := 2 } (word 13 25))) (fun t => (t.cluster 3).stat == 4) = true ∧
    after (exec .pcreqGo (e { curF := 13, curU := 25 } (word 26 50))) (fun t =>
      (t.agenda.drop 2) == [⟨15625, .dvfsVoltageRiseDone, { a := 3 }, none⟩]) = true ∧
    after (exec .pcreqGo (e {} (word 26 50))) (fun t => (t.cluster 3).stat == 2) = true ∧
    after (exec .dvfsFreqSwitchDone (e { stat := 1, pendF := 13, pendU := 25 } 0)) (fun t =>
      (t.cluster 3).curF == 13 && (t.agenda.drop 2) == [⟨15625, .dvfsVoltageFallDone, { a := 3 }, none⟩]) = true ∧
    after (exec .dvfsVoltageFallDone (e { stat := 1, pendU := 25 } 0)) (fun t => (t.cluster 3).stat == 2 && (t.cluster 3).curU == 25) = true ∧
    stays (exec .dvfsVoltageRiseDone (e {} 0)) = true := by decide +kernel

theorem witness_quiesce :
    let e := fun (c : Cluster) => (evt 3 50).setCluster 3 c
    let q := fun (i : Instr) (n m : Nat) => after (exec i (e { qstate := n })) fun t => (t.cluster 3).qstate == m && !(t.cluster 3).qerr
    let bad := fun (i : Instr) (n : Nat) => after (exec i (e { qstate := n })) fun t => (t.cluster 3).qerr
    clusterBusy (e {}) 3 = false ∧ q .pqctlQreq 0 1 = true ∧ bad .pqctlQreq 2 = true ∧ q .pqctlSave 2 3 = true ∧ bad .pqctlSave 1 = true ∧
    q .pqctlGate 3 4 = true ∧ bad .pqctlGate 2 = true ∧ q .pqctlWake 3 0 = true ∧ q .pqctlWake 4 5 = true ∧ bad .pqctlWake 1 = true ∧
    q .quiesceDone 1 2 = true ∧ stays (exec .quiesceDone (e {})) = true ∧ q .wakeDone 5 0 = true ∧
    after (exec .pcsnapCapture (e { act := 9, stall := 8 })) (fun t => (t.cluster 3).snapAct == 9 && (t.cluster 3).act == 0 &&
      (t.agenda.drop 2) == [⟨12500, .pcsnapCapture, {}, none⟩]) = true ∧
    after (exec .thermHot (evt 28 50)) (fun t => (t.die 28).hot && (t.die 28).temp == 50) = true ∧ (e {}).alive 3 = true ∧ (e {}).tasks = [] ∧
    after (exec .thermCrit (e {})) (fun t => (t.die 3).crit && (t.die 3).health == 1) = true := by decide +kernel

theorem witness_trust :
    let s := evt 2 0
    let a := { s with almcfg := 0x249 + 128 }
    gives (exec .attestRequest { s with keysErased := true }) { s with keysErased := true, attestRefused := true } = true ∧
    after (exec .attestRequest s) (fun t => t.agenda.length == 3) = true ∧ s.keysErased = false ∧
    max 1 (a.almcfg / 2 ^ (3 * 2) % 8) = 3 ∧ a.almfuse.testBit 2 = true ∧
    after (exec .alarmRaise a) (fun t => t.keysErased && t.dbgLocked && !t.halted && t.msix == [17, 16]) = true ∧
    stays (exec .alarmRaise (evt 4 0)) = true := by decide +kernel

theorem witness_stripe_writes :
    let w : StripeWrite := { dpa := 2000, bytes := [1, 2, 3] }
    let e := fun (w : StripeWrite) => { (evt 5 0) with writes := [(5, w)], mem := mset [] (stackKey (stripeMap 2000).z 976) 0xF0 }
    let t := stripeMap w.dpa
    t.s = 0 ∧ t.o = 976 ∧ stripeBusy (e w) 5 true w = false ∧ w.full = false ∧ portBusy (e w) 0 5 = false ∧ portBusy { (e w) with writes := [(4, w), (5, w)] } 0 5 = true ∧
      eccLines 976 1 = [960] ∧ lineOf 0 960 = 15 ∧
    stripeBusy { (e w) with writes := [(5, w), (6, { w with phase := 1 })] } 5 true w = true ∧
    after (exec .stripeWriteAccept (e w)) (fun u => (fget u.writes 5 {}).phase == 1) = true ∧
    after (exec .partialStripeWrite (e { w with phase := 1 })) (fun u => (fget u.writes 5 {}).delta == [0xF1, 2, 3] &&
      mget u.mem (stackKey t.z 977) == 2) = true ∧
    after (exec .parityDeltaApply (e { w with phase := 2, delta := [9] })) (fun u =>
      mget u.mem (stackKey t.p 976) == 9 && u.writes == []) = true ∧
    after (exec .parityDeltaApply ((e { w with phase := 2, delta := [9] }).setStack t.p { bad := [(15, true)] })) (fun u =>
      mget u.mem (stackKey t.p 976) == 0xF0 && (u.stack t.p).ue == 1 && (u.stack t.p).bad == []) = true ∧
    stays (exec .stripeWriteAccept (e { w with phase := 2 })) = true ∧
    gives (exec .parityDeltaApply ((e { w with phase := 2, delta := [9] }).setStack t.p { lost := true }))
      { ((e { w with phase := 2, delta := [9] }).setStack t.p { lost := true }) with writes := [] } = true := by decide +kernel

theorem witness_device_reads :
    let t := stripeMap 0x3000
    let s := { (evt 0x3000 4) with mem := mset [] (stackKey t.z (1024 * t.s + t.o)) 0x5A }
    let z := (t.z + 1) % 12
    let l := s.setStack t.z { lost := true }
    let r := { l with mem := mset [] (stackKey z (1024 * t.s + t.o)) 0x77 }
    after (exec .deviceMemoryRead s) (fun u => u.hostRead == [0x5A, 0, 0, 0]) = true ∧ stays (exec .deviceMemoryRead l) = true ∧
    (l.stack t.z).lost = true ∧ stripeBusy l 0 false { dpa := 0x3000 } = false ∧
    (∀ k, k < 12 → k ≠ t.z → (l.stack k).lost = false ∧ (l.stack k).bad = []) ∧
    after (exec .reconstructedRead r) (fun u => u.hostRead == [0x77, 0, 0, 0] && (u.stack t.z).rc == 1) = true ∧
    after (exec .refreshCheckReport (evt 3 7)) (fun u => (u.stack 3).ecs == 7) = true ∧
    after (exec .stackLoss (evt 3 2)) (fun u => (u.stack 3).lost && (u.die 25).health == 2) = true ∧ State.reset.alive 0 = true ∧
    after (exec .hostBar2Read { (evt 0 0x3000) with ev := { a := 0, b := 0x3000, c := 2 } }) (fun u => u.hostRead == [0, 0]) = true ∧
    awaitsStripe State.reset 0x3000 2 = false ∧
    after (exec .hostBar2Write { (evt 0 0x3FE) with ev := { a := 0, b := 0x3FE, bytes := [1, 2, 3] } }) (fun u =>
      u.writes == [(1, { dpa := 0x3FE, bytes := [1, 2] }), (2, { dpa := 0x400, bytes := [3] })]) = true := by decide +kernel

/-! ### Commands under way, arrivals, the front end -/

/-- Core 32 with one command of its context, named by the event. -/
def cm (c : Cmd) : State :=
  { (tiled vs) with cmds := [(7, { c with part := 32, task := 1, ctx := 256, engine := clusterOf 32 })], ev := { a := 7 } }

/-- A block of one row in scratchpad. -/
def row1 (len src dst : Nat) : PBlock := { ssp := true, dsp := true, len := len, src := BitVec.ofNat 64 src, dst := BitVec.ofNat 64 dst }

theorem witness_commands_end :
    let b := row1 64 0x4000 0x5000
    let g := fun (c : Cmd) => (cm c).cmd 7
    let left := fun (o : Host.Outcome State Fault Refusal) => after o fun t => (fget? t.cmds 7).isNone
    let x : CExt := ⟨true, true, false, false, 2⟩
    let tm : State := put (cm { kind := .tmov, b := b }) 0x4000 [9, 8]
    let cp := cm { kind := .cpy, b := b, reached := 64 }
    let bad := cm { kind := .cpy, b := b, err := 321 }
    let pu := cm { kind := .cput, arrived := true }
    let hs := cm { kind := .hscan, b := { b with len := 0 } }
    let ow := cm { kind := .ownc, w0 := 0x4000, w1 := 0x1000 }
    (∀ c : Cmd, c ∈ [g { kind := .cpy }] → c.part ≠ 0 ∧ fget? (cm c).saved (savedKey c.part c.ctx) = none ∧ ((cm c).ctx c.ctx).part = c.part ∧
      semCount (cm c) (semHome (cm c) c.part c.x.sem.toNat).1 (semHome (cm c) c.part c.x.sem.toNat).2 + 1 < 2 ^ 32) ∧
    (g { kind := .cpy, b := b, reached := 64 }).total = 64 ∧ left (exec .copyComplete cp) = true ∧
    stays (exec .copyComplete (cm { kind := .cpy, b := b, reached := 63 })) = true ∧ stays (exec .copyComplete vs) = true ∧
    endsTask 321 = false ∧ Memory.wf bad.mem = true ∧
    after (exec .copyErrorComplete bad) (fun t => (t.task 1).failed && t.flogHead == 1 && t.msix == [16] &&
      mget t.mem (ferryKey 0 0x40004) == 0x41) = true ∧
    ackError pu (pu.cmd 7) = 0 ∧ after (exec .putAck pu) (fun t => fget (t.part 32).pcnt 0 0 == 1) = true ∧
    hUnits (hs.cmd 7) = 0 ∧ left (exec .hCommandComplete hs) = true ∧ OneRow (tm.cmd 7) ∧ mayPerform tm 7 (tm.cmd 7) [] = true ∧
    earlierIn tm 7 (tm.cmd 7) = [] ∧ after (exec .tileMoveComplete tm) (fun t => winBytes t (t.windows 256) 0x5000 3 == [9, 8, 0]) = true ∧
    engineClear ow 7 (ow.cmd 7) = true ∧
    after (exec .tileMoveComplete ow) (fun t => !t.engineOwned (unitKey 32 0x4000) && t.engineOwned (unitKey 32 0x5000)) = true ∧
    mayPerform { tm with cmds := (3, { tm.cmd 7 with x := x }) :: tm.cmds } 7 (tm.cmd 7) [] = false ∧
    engineClear { ow with cmds := (3, { ow.cmd 7 with x := x }) :: ow.cmds } 7 (ow.cmd 7) = false := by
  unfold OneRow; decide +kernel

theorem witness_fills :
    let f : Cmd := { kind := .fill, slot := 2, root := 0x8000, errDva := 0x100 }
    let s := { (cm f) with ev := { a := clusterOf 32, b := 2 } }
    let e := { vs with ev := { a := 1, b := 0, c := 0 } }
    let p := fun (l : Nat) (u : Bool) => { (evt 1 l) with ev := { a := 1, b := l, f := u } }
    (fillOf s (clusterOf 32) 2).isSome = true ∧ fillOf s (clusterOf 32) 3 = none ∧ Memory.wf s.mem = true ∧
    after (exec .probeFillComplete s) (fun t => ((t.cluster (clusterOf 32)).slot 2).st == .failed) = true ∧
    after (exec .engineInternalError e) (fun t => (t.task 1).run == .ending && (t.task 1).endCause == 771 && t.flogHead == 1) = true ∧
    stays (exec .engineInternalError { e with ev := { a := 2, b := 0, c := 0 } }) = true ∧
    after (exec .peerLinkDown (p 7 false)) (fun t => (t.ferry 1).peerDown == [7]) = true ∧ stays (exec .peerLinkDown (p 8 false)) = true := by
  decide +kernel

theorem witness_commands_go_on :
    let b := row1 64 0x4000 0x5000
    let cp := cm { kind := .cpy, b := b, home := homeOf (clusterOf 32) }
    let cut := (cm { kind := .cpy, b := b, home := homeOf (clusterOf 32) }).setDie 3 { (vs.die 3) with health := 0 }
    let off : State := (List.range 14).foldl (fun s m => { s with dies := fset s.dies 15 { s.die 15 with
      links := fset (s.die 15).links m { state := 3, trained := true } } }) (cm { kind := .cpy, b := b, home := 15 })
    let ti := { (cm { kind := .cpyt, b := b, timed := true, w0 := 0 }) with ev := { a := clusterOf 32 } }
    let hq := { (cm { kind := .hscan, b := b, queued := true, arrived := true, arg := 3 }) with ev := { a := 3 } }
    OneRow (cp.cmd 7) ∧ (cp.cmd 7).routed cp = true ∧ (cp.cmd 7).parked = none ∧ (cp.cmd 7).queued = false ∧ (cp.cmd 7).arrived = false ∧
    earlierIn cp 7 (cp.cmd 7) = [] ∧ goesOn (exec .translationWalkDone cp) = true ∧ (cut.cmd 7).err = 0 ∧
    (off.cmd 7).routed off = false ∧ after (exec .translationWalkDone off) (fun t => (t.cmd 7).err == 705) = true ∧
    stays (exec .translationWalkDone (cm { kind := .cpy, err := 1 })) = true ∧
    timedDue ti (ti.cmd 7) = true ∧ timetable ti (clusterOf 32) = ti.cmds ∧
    after (exec .timetableIssue ti) (fun t => !(t.cmd 7).timed && (t.cluster (clusterOf 32)).ttFree == 1) = true ∧
    stays (exec .timetableIssue hq) = true ∧ (stackQueue hq 3).head? = some (7, hq.cmd 7) ∧ stackRunning hq 3 = 0 ∧
    bufferOfEngine hq (clusterOf 32) = [] ∧ after (exec .stackEngineStart hq) (fun t => !(t.cmd 7).queued) = true ∧
    stays (exec .stackEngineStart vs) = true := by unfold OneRow; decide +kernel

theorem witness_elements :
    let ac := put (put (cm { kind := .cacc, b := row1 8 0x4000 0x5000, ty := 0, op := 0 }) 0x4000 [5]) 0x5000 [7]
    let sw := put (cm { kind := .cswp, ty := 1, op := 4, w0 := 0x5000, w1 := 0x6000, idx := [0x55] }) 0x5000 [7]
    let rel := { ac with cmds := (3, { (ac.cmd 7) with x := ⟨true, true, false, false, 0⟩ }) :: ac.cmds }
    OneRow (ac.cmd 7) ∧ earlierIn ac 7 (ac.cmd 7) = [] ∧ Memory.wf ac.mem = true ∧
    after (exec .accumulateApply ac) (fun t => winBytes t (t.windows 256) 0x5000 4 == [12, 0, 0, 0] && (t.cmd 7).reached == 4) = true ∧
    after (exec .accumulateApply sw) (fun t => winBytes t (t.windows 256) 0x5000 1 == [0x55] &&
      winBytes t (t.windows 256) 0x6000 1 == [7]) = true ∧
    mayPerform rel 7 (ac.cmd 7) (elemTouches (ac.cmd 7)) = false ∧ accOp 1 1 (2 ^ 63) 5 = 5 ∧ accOp 0 0 (2 ^ 32 - 1) 1 = 0 := by
  unfold OneRow; decide +kernel

/-- Windows with no buffer die's SRAM in them. -/
theorem noSram_of {w : Windows} (p d : Nat) (hu : 2 ^ 42 ≤ w.unit) (hc : 2 ^ 41 ≤ w.clus) (hd : w.die = 2 ^ 40 + p * 2 ^ 30 + d)
    (hl : d + w.dieLen ≤ 2 ^ 30) (hp : kindOf p ≠ 4) : NoSram w := by
  intro a k h
  simp only [Nat.reducePow] at hu hc hd hl ⊢
  unfold homeIn at h
  split at h
  · obtain rfl := Option.some.inj h; omega
  · split at h
    · obtain rfl := Option.some.inj h; omega
    · split at h
      · rename_i h'
        simp only [Bool.and_eq_true, decide_eq_true_eq] at h'
        obtain rfl := Option.some.inj h
        have : (w.die + (a - 0x10000000) - 1099511627776) / 1073741824 = p := by omega
        rw [this]
        exact fun x => hp x.2.2
      · cases h

theorem witness_plain_windows : NoSram (((cm { kind := .cacc }).cmd 7).windows (cm { kind := .cacc })) :=
  noSram_of 10 0 (by decide +kernel) (by decide +kernel) (by decide +kernel) (by decide +kernel) (by decide +kernel)

theorem witness_put_to_a_peer :
    let pe := { (cm { kind := .cput, b := { row1 64 0x4000 0 with aux := 0x500 } }) with
      ferries := [(0, { peers := [(5, (1, true))] })] }
    peerReaches pe (putPkg (pe.cmd 7)) = true ∧ (putTouches pe (pe.cmd 7)).any (stripesBusy pe) = false := by
  refine ⟨by decide +kernel, ?_⟩
  simp [putTouches, patTouches, cm, row1, tiled, State.cmd, fget]

theorem witness_walks_and_puts :
    let s := fun (c : Cmd) (r : FMap Ring) =>
      let u := cm { c with kind := .cwalk, op := 1, ty := 2 }
      u.setPcore (pcoreKey 32 (physOf 32)) { rings := r }
    let r1 : Ring := { nslot := 2, ssz := 1, base := 0x1000 }
    let done := s {} [(1, r1), (2, r1)]
    let full := s { w0 := 1 } [(1, { r1 with fill := 2 }), (2, r1)]
    let go := s { w0 := 1, arg := 4, b := row1 0 0x4000 0 } [(1, r1), (2, { r1 with base := 0x2000 })]
    let pu := cm { kind := .cput, b := { row1 64 0x4000 0 with aux := 0x500 } }
    let pe := { pu with ferries := [(0, { peers := [(5, (1, true))] })] }
    let out := cm { kind := .cput, b := { row1 64 0x4000 0 with aux := 9 } }
    (done.cmd 7).row = (done.cmd 7).w0.toNat ∧ after (exec .cwalkSlotFill done) (fun t => t.agenda.length == done.agenda.length + 1) = true ∧
    (full.ring (pcoreKey 32 (physOf 32)) 1).free = 0 ∧ (go.ring (pcoreKey 32 (physOf 32)) 1).free = 2 ∧
    mayPerform go 7 (go.cmd 7) ((go.cmd 7).touches go) = true ∧ ((go.cmd 7).touches go).any (stripesBusy go) = false ∧
    (walkEntries go (go.cmd 7) 64 0 0 []).bad = none ∧
    after (exec .cwalkSlotFill go) (fun t => (t.ring (pcoreKey 32 (physOf 32)) 1).fill == 1 &&
      (t.ring (pcoreKey 32 (physOf 32)) 2).fill == 1) = true ∧
    putLocal pu (pu.cmd 7) = false ∧ peerReaches pu 5 = false ∧
    after (exec .putArrival pu) (fun t => (t.cmd 7).err == 261) = true ∧ peerReaches pe 5 = true ∧
    putLocal out (out.cmd 7) = true ∧ putOutside (out.win 9) (out.cmd 7) = true ∧
    after (exec .putArrival out) (fun t => (t.cmd 7).err == 260) = true := by decide +kernel

theorem witness_arrivals :
    let pk := vs.myPcore 256
    let h : PartCore := { rings := [(3, { nslot := 4, fill := 1, fin := 2 })], bars := [(1, { exp := 2, cnt := 1, gen := 7 })]
                          msgBase := 0x4000, msgEn := true }
    let s := { (held h) with ev := { a := 32, b := physOf 32, c := 3 } }
    let y := fun (u : Sync) => { s with syncs := [(9, { u with part := 32, core := physOf 32, ctx := 256 })] }
    let ba := { (y { kind := 2, ix := 1, d := 6 }) with ev := { a := 9 } }
    let m : Msg := { task := 1, part := 32, core := physOf 32, line := 7, len := 2, sender := 5, bytes := [3, 4] }
    let ms := { s with msgs := [(9, m)], ev := { a := 9 } }
    let hd := { (held { h with recv := [(2, { line := 40, len := 9, sender := 6 })] }) with ev := { a := 32, b := physOf 32 } }
    pcoreKey 32 (physOf 32) = pk ∧ stays (exec .ringUpdateArrival s) = true ∧
    after (exec .ringUpdateArrival (y { ix := 3, amount := 2 })) (fun t => (t.ring pk 3).fill == 3 && t.syncs == []) = true ∧
    after (exec .ringUpdateArrival (y { kind := 1, ix := 3, amount := 1 })) (fun t => (t.ring pk 3).tail == 1) = true ∧
    syncReady ba (fget ba.syncs 9 {}) = true ∧ (ba.ctx 256).part = 32 ∧ fget? ba.saved (savedKey 32 256) = none ∧
    after (exec .barrierArrival ba) (fun t => t.bar pk 1 == { exp := 2, gen := 8 } && (t.ctx 256).getX 6 == 7) = true ∧
    after (exec .semIncrementArrival { s with ev := { a := 10, b := 3, c := 4 } }) (fun t => semCount t 10 3 == 4) = true ∧
    after (exec .semIncrementArrival { s with ev := { a := 10, b := 3, c := 2 ^ 32 } }) (fun t => t.flogHead == 1) = true ∧
    stays (exec .semIncrementArrival { s with ev := { a := 10, b := 1024, c := 4 } }) = true ∧ canTake ms 9 m = true ∧
    after (exec .messageTake ms) (fun t => winBytes t (t.windows 256) 0x4000 2 == [3, 4] && (t.pcore pk).recv.length == 1) = true ∧
    (firstReady (hd.pcore pk)).isSome = true ∧ hd.dieActs 1 (hd.part 32).pos = true ∧ (hd.ctx 257).run = .dormant ∧
    after (exec .handlerStart hd) (fun t => (t.ctx 257).run == .running && (t.ctx 257).pc == 40 && (t.ctx 257).getX 1 == 0x4800 &&
      (t.ctx 257).getX 3 == 6) = true ∧ stays (exec .handlerStart s) = true := by decide +kernel

theorem witness_front_end :
    let e := fun (c : Ctx → Ctx) => { (vs.onCtx c) with ev := { a := 256 } }
    let bare := fun (c : Ctx) => { c with lanes := [], fromLane := 0 }
    let l : Lane := { q := .l, idx := 2, instr := .barw Hdr.zero 5 6 }
    let q := e fun c => { bare c with lanes := [l], line := 33, x := [(5, 50), (6, 60)] }
    let at77 := fun w => { (e fun c => { bare c with pc := 77 }) with istore := [(8192 * 32 + 77, w)] }
    (vs.ctx 256).run = .running ∧ frameSeq vs 256 = none ∧ coreOf 256 < 192 ∧
    after (exec .lineFetch (e fun c => { bare c with pc := 8192 })) (raised 0x38) = true ∧
    decodeLine (profileOf 32) .flow (BitVec.allOnes 256) = .pad ∧ decodeLine (profileOf 32) .flow 14 = .fault (detail 0 0) 0 0 ∧
    decodeLine (profileOf 32) .flow 0 = .lanes [] ∧
    after (exec .lineFetch (at77 (BitVec.allOnes 256))) (fun t => (t.ctx 256).pc == 78 && (t.ctx 256).lanes == []) = true ∧
    after (exec .lineFetch (at77 14)) (raised (detail 0 0)) = true ∧
    after (exec .laneEnqueue q) (fun t => (t.ctx 256).ql == [{ instr := l.instr, line := 33, lane := 2, xa := 50, xb := 60, lineNo := 1 }]) = true ∧
    stays (exec .laneEnqueue (e bare)) = true ∧ stays (exec .lineFetch q) = true := by decide +kernel

/-! ### Completions, loops, graphs, placing -/

theorem witness_completions :
    let h := held { rings := [(1, { nslot := 4, ssz := 1, fill := 2 })], bars := [(1, { gen := 7 })] }
    let e := fun (i : Instr) (q : Queue) (xa xb : DWord) =>
      let c := { (vs.ctx 256) with ql := [{ instr := i, q := q, tokDone := true, xa := xa, xb := xb }] }
      { h with ctxs := [(256, c)], ev := { a := 256, q := .l } }
    let d := { (vs.onCtx fun c => { c with run := .draining, lanes := [] }) with ev := { a := 256 } }
    let p : Pending := ⟨cRingField, 2, 5, 1, 1, 9⟩
    let pe := fun (en : Bool) => { (vs.onCtx fun c =>
      { c with lanes := [], pend := [p], tvecEn := en, tvecLine := 77 }) with ev := { a := 256 } }
    after (exec .instructionComplete { vs with ev := { a := 256, q := .c, f := true, g := true, v := 3 } }) (fun t =>
      (t.ctx 256).toks == { cl := 1, cs := 1 } && (t.ctx 256).nstat == 3) = true ∧
    mayAct vs 256 = true ∧ ownBar { (e (.barw Hdr.zero 5 6) .l 1 7) with iss := latchHead 256 { instr := .barw Hdr.zero 5 6, xa := 1 } } = some 1 ∧
    after (exec .waitSatisfied (e (.rwaitf Hdr.zero 5 1 0) .l 2 0)) (fun t => (t.ctx 256).ql == []) = true ∧
    stays (exec .waitSatisfied (e (.rwaitf Hdr.zero 5 1 0) .l 3 0)) = true ∧
    after (exec .waitSatisfied (e (.rwaite Hdr.zero 0 1 0) .l 0 0)) (fun t => (t.ctx 256).ql == []) = true ∧
    stays (exec .waitSatisfied (e (.rwaite Hdr.zero 5 1 0) .l 3 0)) = true ∧
    after (exec .waitSatisfied (e (.barw Hdr.zero 5 6) .l 1 6)) (fun t => (t.ctx 256).ql == []) = true ∧
    stays (exec .waitSatisfied (e (.barw Hdr.zero 5 6) .l 1 7)) = true ∧ stays (exec .waitSatisfied d) = true ∧
    ctxDone d 256 = true ∧ after (exec .contextEnd d) (fun t => (t.ctx 256).run == .dormant) = true ∧ stays (exec .contextEnd vs) = true ∧
    earliest (pe true).cc.pend = some p ∧ atBoundary (pe true) 256 = true ∧ delivered p.cause = true ∧
    after (exec .trapEntry (pe true)) (fun t => (t.ctx 256).intrap && (t.ctx 256).pc == 77 && (t.ctx 256).tval == 9) = true ∧
    goesOn (exec .trapEntry (pe false)) = true ∧ stays (exec .trapEntry vs) = true := by decide +kernel

theorem witness_modulo_loops :
    let l : Lane := { q := .l, idx := 1, instr := .barw Hdr.zero 5 6 }
    let e := fun (q : Seq) => { (vs.onCtx fun c => { c with lanes := [] }) with seqs := [(32, q)], ev := { a := 256 } }
    let q : Seq := { ctx := 0, line := 10, n := 2, ii := 1, trip := 3 }
    let full := { q with body := [[l], []] }
    let last := { full with begun := true, step := 3 }
    q.slotsOf 1 = [(1, 0), (0, 1)] ∧ frameSeq (e q) 256 = some q ∧ frameSeq vs 256 = none ∧ (vs.ctx 256).room [l] = true ∧
    after (exec .moduloBodyFetch { (e q) with istore := [(8192 * 32 + 11, BitVec.allOnes 256)] }) (fun t =>
      (fget t.seqs 32 {}).body == [[]]) = true ∧ stays (exec .moduloBodyFetch (e full)) = true ∧ stays (exec .moduloStep (e q)) = true ∧
    after (exec .moduloStep (e full)) (fun t => (t.ctx 256).lanes == [l] && (t.ctx 256).line == 11 && (fget t.seqs 32 {}).slots == [(0, 0)]) = true ∧
    after (exec .moduloStep (e { full with begun := true, slots := [(0, 0)] })) (fun t => (t.ctx 256).lanes == [l]) = true ∧
    after (exec .moduloStep (e { full with begun := true })) (fun t => (fget t.seqs 32 {}).step == 1) = true ∧
    after (exec .moduloStep (e last)) (fun t => (t.ctx 256).pc == 13 && t.seqs == []) = true := by decide +kernel

/-- Device memory with the first 1 GiB mapped onto itself under root 0x100000, readable and writable. -/
def mapped (s : State) : State := (devStore (devStore s 0x100000 (leBytes 8 0x200001)).s 0x200000 (leBytes 8 0x13)).s

/-- The package ready for graphs, with bytes stored and Ferrymaster 0 as given. -/
def walkAt (f : Ferry) (bs : List Byte) : State :=
  let s := (devStore (mapped State.reset) 0x2000 bs).s
  { s with bootStep := 6, ferries := [(0, f)], graphs := [(5, { root := 0x100000, base := 0x2000, branches := 1 })], nextId := 9 }

/-- A node record of R25: its kind, flags, successors and body. -/
def nd (kind flags a b b0 b1 b2 : Nat) : List Byte :=
  [BitVec.ofNat 8 kind, 1] ++ leBytes 2 flags ++ leBytes 2 a ++ leBytes 2 b ++ leBytes 8 b0 ++ leBytes 8 b1 ++ leBytes 8 b2

theorem witness_graph_queues :
    let s := walkAt {} []
    let db := fun (v : DWord) (f : Bool) => { s with ev := { a := 0, v := v, f := f } }
    let ent := fun (base root : Nat) => leBytes 8 base ++ leBytes 4 0 ++ leBytes 4 77 ++ leBytes 8 0 ++ leBytes 8 root
    let g := fun (root : Nat) => { s with mem := storeAt s.mem (ferryKey 0 0x30000) (ent 0x2000 root), queues := [(0, { pend := 1 })] }
    s.live 0 = true ∧ after (exec .gqdbDoorbell (db 3 true)) (fun t => (t.queue 0).pend == 3) = true ∧
    after (exec .gqdbDoorbell (db 0 true)) (fun t => (t.queue 0).baddb) = true ∧
    after (exec .gqdbDoorbell { (db 200 true) with queues := [(0, { pend := 100 })] }) (fun t => (t.queue 0).ovf) = true ∧
    nextQueue (g 0x100000) 0 = some 0 ∧ entryOk (headEntry (g 0x100000) 0) = true ∧ entryOk (headEntry (g 0x100001) 0) = false ∧
    rootOk 0x100001 = false ∧
    after (exec .graphStart (g 0x100000)) (fun t => (t.graph 9).root == 0x100000 && (t.queue 0).pend == 0) = true ∧
    after (exec .graphStart (g 0x100001)) (fun t => (t.queue 0).cmp == 1 && t.msix == [0] &&
      fieldAt (loadAt t.mem (ferryKey 0 0x10000) 16) 0 4 == 77) = true ∧ stays (exec .graphStart s) = true := by decide +kernel

theorem witness_nodes :
    let w := fun (r : List Byte) => walkAt { ready := [⟨5, 0, some r⟩] } (nd 8 0 0xFFFF 0xFFFF 0 0 0)
    let c := nd 2 0 0 3 0x2000 8 0
    nodeKind c = 2 ∧ nodeCause c = none ∧ nodeCause (nd 9 0 0 0 0 0 0) ≠ none ∧
    (dvaLoad (w c) 0x100000 0x2000 8).2.1 = none ∧ (dvaLoad (w c) 0x100000 0x2000 8).1.length = 8 ∧
    after (exec .condNode (w c)) (fun t => ((t.ferry 0).ready.map Ready.node) == []) = true ∧
    after (exec .loopNode (w (nd 3 0 0 0xFFFF 0 (5 + 2 ^ 32 * 9) 0))) (fun t => fget? (t.graph 5).loops 0 == some (1, 5) &&
      ((t.ferry 0).ready.map Ready.node) == [0]) = true ∧
    after (exec .signalNode (w (nd 5 0 0xFFFF 0xFFFF (7 + 2 ^ 32 * 2) 0 0))) (fun t => fget (t.ferry 0).gs 7 0 == 2) = true ∧
    after (exec .waitNode (w (nd 4 0 0xFFFF 0xFFFF (7 + 2 ^ 32 * 2) 0 0))) (fun t => (t.ferry 0).waits.length == 1) = true ∧
    after (exec .endNode (w (nd 8 0 0xFFFF 0xFFFF 0 0 0))) (fun t => t.graphs == []) = true ∧
    after (exec .waitNode (walkAt { waits := [⟨5, 0, some (nd 4 0 0xFFFF 0xFFFF (7 + 2 ^ 32 * 2) 0 0)⟩], gs := [(7, 3)] } [])) (fun t =>
      fget (t.ferry 0).gs 7 0 == 1 && (t.ferry 0).waits == []) = true ∧
    after (exec .copyNode (w (nd 6 0 0xFFFF 0xFFFF 0x3000 0 0))) (fun t => (t.cmd 10).kind == .node) = true ∧
    after (exec .progNode (w (nd 7 0 0xFFFF 0xFFFF 0x3000 0x55 0))) (fun t => (t.ctx (ctxKey 192 0)).getX 1 == 0x55) = true ∧
    freeControl (w c) 0 = some 192 ∧ stays (exec .condNode (walkAt {} [])) = true ∧
    after (exec .graphAbort { (walkAt {} []) with graphs := [(5, { abort := some 3 })], ev := { a := 5 } }) (fun t => t.graphs == []) = true ∧
    stays (exec .graphAbort { (walkAt {} []) with ev := { a := 5 } }) = true := by decide +kernel

/-- A launch record of one virtual die with one tile core (R33 to R35), its context block at 0x3000. -/
def lrec : List Byte :=
  leBytes 2 1 ++ [0, 0] ++ leBytes 4 0xABC ++ leBytes 8 0x3000 ++ leBytes 8 0 ++ leBytes 4 0 ++ leBytes 2 0 ++ [1, 0, 0, 0, 0] ++
    List.replicate 29 0 ++ [2, 0, 1, 0] ++ leBytes 2 1 ++ leBytes 2 0 ++ leBytes 2 0 ++ leBytes 2 4 ++ leBytes 4 1 ++ leBytes 8 0x4000 ++
    List.replicate 8 0

theorem witness_task_nodes :
    let n : Ready := ⟨5, 0, some (nd 1 0 0xFFFF 0xFFFF 0x2000 0 0)⟩
    let s := (devStore (walkAt { ready := [n] } lrec) 0x3000 (leBytes 8 0x100000)).s
    let l := readLaunch s 0x100000 0x2000
    nextTask s 0 = some n ∧ (match l.1 with
      | .inr k => k.taskid == 0xABC && k.ptroot == 0x100000
      | .inl _ => false) = true ∧
    after (exec .taskNode s) (fun t => (t.task 10).launch.taskid == 0xABC && t.placerDue) = true ∧ stays (exec .taskNode (walkAt {} [])) = true := by
  decide +kernel

theorem witness_placing :
    let la : Launch := { ver := 1, prio := 2, dies := [{ kind := 2, ncore := 1, ncmd := 1, cmdp := 0x2000, nsem := 1 }], ptroot := 0x100000 }
    let s := { (walkAt {} (leBytes 8 1)) with clusters := (List.range 56).map fun k => (k, { powered := true })
                                              tasks := [(7, { launch := la, graph := 5 })], placerDue := true, ev := { a := 7 } }
    let old := { s with tb := 80000 * 1250 }
    let v := { s with placerDue := false, tasks := [(7, { launch := la, graph := 5, eff := 2 })] }
    let o := { v with clusters := [] }
    let u := { s with tasks := [(7, { launch := la, graph := 5, run := .placed, places := [{ pos := 2, cores := [(0, 0)] }] })] }
    stays (exec .agingStep { u with ev := { a := 7 } }) = true ∧ after (exec .agingStep old) (fun t => (t.task 7).eff == 6) = true ∧
    s.alive s.root = true ∧ (idealPlan { s with placerDue := false } (s.task 7)).isSome = true ∧ (search v (v.task 7) [] []).isSome = true ∧ effPrio s (s.task 7) = 2 ∧
    search o (o.task 7) [] [] = none ∧ after (exec .placerPass { o with placerDue := true }) (fun t => t.reserver == some 7) = true ∧
    after (exec .placerPass s) (fun t => (t.task 7).run == .placed && (t.task 7).places.length == 1) = true ∧ (s.task 7).holdsStreams = false ∧
    after (exec .taskStart u) (fun t => (t.task 7).run == .running && (t.part (partKey 7 0)).recs == [leBytes 8 1 ++ List.replicate 24 0]) = true ∧
    stays (exec .taskStart s) = true ∧ stays (exec .placerPass v) = true ∧
    (dvaLoad u 0x100000 0x2000 32).2.1 = none ∧ after (exec .powerClassApply { u with clusters := [] }) (fun t => !t.memClass) = true := by decide +kernel

/-! ### Parts, holds, links, pre-emption -/

/-- A command record (R39): its op, await, raise, amount and arguments. -/
def rec (op await raise_ amount a b c : Nat) : CmdRec :=
  [BitVec.ofNat 8 op, 0] ++ leBytes 2 await ++ leBytes 2 raise_ ++ leBytes 2 amount ++ leBytes 8 a ++ leBytes 4 b ++ leBytes 4 c ++
    List.replicate 8 0

/-- The task of vs with a page table, stages and one record to issue. -/
def slip (r : CmdRec) : State :=
  let s := mapped vs
  let k := s.task 1
  { s with tasks := [(1, { k with launch := { k.launch with stages := [{ entry := 20 }], ptroot := 0x100000 } })]
           parts := [(32, { (s.part 32) with recs := [r] })], ev := { a := 32 } }

theorem witness_records :
    let nop := slip (rec 0 0 0 0 0 0 0)
    let wt := slip (rec 0 0x8001 0 3 0 0 0)
    let bad := slip (rec 4 0 0 0 0 0 0)
    let ld := { (slip (rec 2 0 0 0 0x2000 (16 * 256) 1)) with ev := { a := 32, b := 0 } }
    let ldb := { ld with parts := [(32, { (ld.part 32) with busy := [0], next := 1 })] }
    slipwayRuns nop 32 = true ∧ recCause (nop.task 1).launch (nop.entryOf 32) (rec 0 0 0 0 0 0 0) = none ∧
    after (exec .cmdNop nop) (fun t => (t.part 32).next == 1 && (t.part 32).busy == []) = true ∧ stays (exec .cmdNop vs) = true ∧
    recCause (nop.task 1).launch (nop.entryOf 32) (rec 1 0 0 0 0x2000 0 0) = none ∧
    after (exec .cmdCopy (slip (rec 1 0 0 0 0x2000 0 0))) (fun t => (t.cmd 1).kind == .record && (t.part 32).busy == [0]) = true ∧
    recCause (nop.task 1).launch (nop.entryOf 32) (rec 2 0 0 0 0x2000 (16 * 256) 1) = none ∧
    after (exec .cmdIload ld) (fun t => t.agenda.length == 1) = true ∧
    recCause (nop.task 1).launch (nop.entryOf 32) (rec 3 0 0 0 0 0 0) = none ∧ stageLine (nop.task 1).launch 0 0 = some 20 ∧
    after (exec .cmdStart (slip (rec 3 0 0 0 0 0 0))) (fun t => (t.ctx 256).run == .running && (t.ctx 256).pc == 20) = true ∧
    after (exec .cmdNop bad) (fun t => (t.task 1).run == .ending && (t.task 1).endCause == 837) = true ∧
    awaitOk (wt.entryOf 32) (rec 0 0x8001 0 3 0 0 0) = true ∧ (nop.task 1).run ≠ .ending ∧
    after (exec .cmdNop wt) (fun t => semWaiters t (semHome t 32 1).1 (semHome t 32 1).2 == [2 ^ 20 + 32]) = true ∧
    (dvaLoad ldb 0x100000 0x2000 32).2.1 = none ∧
    after (exec .cmdIloadDone ldb) (fun t => (t.part 32).busy == [] && fget t.istore (8192 * 32 + 16) 5 == 0) = true ∧
    stays (exec .cmdIloadDone ld) = true := by decide +kernel

theorem witness_tasks_end :
    let k := { (vs.task 1) with places := (vs.task 1).places ++ [{ vdie := 1, pos := 3 }] }
    let en := { k with run := .ending, failed := true, endCause := 769, launch := { k.launch with restart := true } }
    let e := fun (k : Task) (p : Part) (n : Nat) =>
      { vs with ev := { a := n }, tasks := [(1, k)], parts := [(32, p), (33, { task := 1, vdie := 1 })], ctxs := [] }
    let rr := { (e en { (vs.part 32) with retired := true } 1) with parts := [(32, { (vs.part 32) with retired := true })]
                                                                    tasks := [(1, { en with places := (vs.task 1).places })] }
    partRetires (e k (vs.part 32) 32) 32 = true ∧ after (exec .partRetire (e k (vs.part 32) 32)) (fun t => (t.part 32).retired) = true ∧
    33 ∈ (e k (vs.part 32) 32).partsOf 1 ∧ stays (exec .partRetire vs) = true ∧ eligible rr (rr.task 1) = true ∧ allRetired rr 1 = true ∧
    after (exec .taskRerun rr) (fun t => (t.task 1).attempts == 2 && (t.task 1).run == .waiting && t.parts == []) = true ∧
    stays (exec .taskRerun vs) = true := by decide +kernel

theorem witness_holds :
    let rt : Route := { hops := [(0, 0, 5)] }
    let k := { (vs.task 1) with routes := [rt] }
    let on := fun (k : Task) (l : Link) (c : Nat) (f : Bool) =>
      let s := { vs with tb := 60, ev := { a := 0, b := 0, c := c, f := f }, tasks := [(1, k)] }
      (s.setLink 0 0 l).setLink 1 0 l
    let e := fun (h : Hold) (b tb : Nat) => { vs with tb := tb, ev := { a := 1, b := b }, tasks := [(1, { k with hold := some h })] }
    let h : Hold := { at_ := 60, stop := 100, asked := 60 }
    let low := e { h with reached := true, stops := [(2, 90)], go := some 110 } 60 150
    let dn := e { h with events := 0, reached := true } 60 150
    holdsPhases k (0, 0) = true ∧ k.holdable = true ∧ k.run ≠ .placed ∧ k.started = true ∧ farEnd 0 0 = 1 ∧ farModule 0 0 = 0 ∧
    linkThere (on k { due := some 7 } 7 false) 0 0 = true ∧
    after (exec .tideHoldRequest (on k {} 0 true)) (fun t => ((t.task 1).hold.map Hold.stop) == some 100 && t.agenda.length == 3) = true ∧
    after (exec .tideHoldRequest (on { k with run := .placed } {} 0 true)) (fun t =>
      ((t.task 1).hold.map Hold.stop) == some 60 && t.agenda.length == 2) = true ∧
    after (exec .tideHoldRequest (on { k with hold := some h } {} 0 true)) (fun t =>
      ((t.task 1).hold.map Hold.events) == some 2 && t.agenda.length == 1) = true ∧
    after (exec .tideHoldRequest (on k { due := some 7 } 7 false)) (fun t => ((t.task 1).hold.map Hold.stop) == some 100 &&
      (t.link 0 0).state == 1 && (t.link 1 0).holds == [1] && t.agenda.length == 3) = true ∧
    stays (exec .tideHoldRequest vs) = true ∧ stays (exec .tideHoldRequest { vs with ev := { f := true } }) = true ∧
    stays (exec .tideHoldReach { (e h 60 100) with tasks := [(1, k)] }) = true ∧
    after (exec .tideHoldReach (e h 60 100)) (fun t => (t.task 1).frozen == some 100) = true ∧ stays (exec .tideHoldReach dn) = true ∧
    (∀ x, x ∈ [(2, 90)] → x.2 ≤ h.stop) ∧ h.stopOf 2 ≤ k.base 150 ∧ (e h 60 150).dieActs 1 2 = false ∧
    after (exec .tideHoldResumeNotice (e { h with events := 2 } 60 100)) (fun t => ((t.task 1).hold.map Hold.events) == some 1) = true ∧
    after (exec .tideHoldResumeNotice (e h 60 100)) (fun t => (t.agenda.map Due.at_) == [164]) = true ∧
    after (exec .tideHoldResumeNotice { low with tb := 110 }) (fun t => (t.agenda.map Due.at_) == [164]) = true ∧
    stays (exec .tideHoldResumeNotice dn) = true ∧
    after (exec .tideHoldRelease dn) (fun t => (t.task 1).hold == none && (t.task 1).held == 50 && (t.task 1).holdtk == 50) = true ∧
    after (exec .tideHoldRelease { dn with tasks := [(1, { k with run := .placed, hold := some { h with events := 0 } })] }) (fun t =>
      (t.task 1).hold == none && (t.task 1).holdcnt == 0) = true ∧
    stays (exec .tideHoldRelease (e { h with events := 0 } 60 150)) = true ∧
    stays (exec .tideHoldRelease (e h 60 150)) = true ∧ stays (exec .holdExpired (e h 60 150)) = true ∧
    after (exec .holdExpired (e h 60 300000)) (fun t => (t.task 1).run == .ending && (t.task 1).endCause == 704) = true := by decide +kernel

theorem witness_links :
    let on := fun (l : Link) (c : Nat) (f : Bool) =>
      { (((evt 0 0).setLink 0 0 l).setLink 1 0 l) with ev := { a := 0, b := 0, c := c, f := f } }
    let four : Link := { spare := 2, errs := [(7, 0), (7, 0), (7, 0)] }
    let two : Link := { spare := 2, state := 1, errs := [(9, 0), (9, 0), (9, 0), (9, 0), (7, 0)] }
    linkThere (on {} 0 false) 0 0 = true ∧ linkThere (on { state := 3 } 0 false) 0 0 = false ∧
    stays (exec .linkCrcError (on { state := 3 } 0 false)) = true ∧
    after (exec .linkCrcError (on { spare := 2 } 7 false)) (fun t => (t.link 0 0).crcerr == 1 && (t.link 0 0).errs == [(7, 0)]) = true ∧
    after (exec .linkCrcError (on four 7 false)) (fun t => (t.link 0 0).due == some 7 && (t.link 1 0).due == some 7) = true ∧
    after (exec .linkCrcError (on {} 7 false)) (fun t => (t.link 0 0).state == 2) = true ∧
    after (exec .tideHoldRequest (on { four with due := some 7 } 7 false)) (fun t => (t.link 0 0).state == 1 && (t.link 0 0).due == none) = true ∧
    after (exec .laneRepairDone (on { four with state := 1 } 7 false)) (fun t => (t.link 0 0).spare == 1 && (t.link 0 0).state == 0) = true ∧
    dueLane { two with spare := 1, errs := (two.errs.filter fun e => e.1 != 7) } 0 = some 9 ∧
    after (exec .laneRepairDone (on two 7 false)) (fun t => (t.link 0 0).spare == 1 && (t.link 0 0).due == some 9) = true ∧
    after (exec .laneRepairDone (on { two with spare := 1 } 7 false)) (fun t => (t.link 0 0).spare == 0 && (t.link 0 0).state == 2) = true ∧
    after (exec .linkLockLost (on {} 0 false)) (fun t => (t.link 0 0).state == 2) = true ∧
    after (exec .retrainTryEnd (on { state := 2 } 0 true)) (fun t => (t.link 0 0).state == 0 && (t.link 0 0).retrains == 1) = true ∧
    after (exec .retrainTryEnd (on { state := 2 } 0 false)) (fun t => (t.link 0 0).state == 2 && (t.link 0 0).tries == 1) = true ∧
    after (exec .retrainTryEnd (on { state := 2, tries := 2 } 0 false)) (fun t => (t.link 0 0).state == 3 && (t.link 1 0).state == 3) = true ∧
    stays (exec .laneRepairDone (on {} 0 false)) = true := by decide +kernel

theorem witness_preemption :
    let k := vs.task 1
    let e := fun (k : Task) => { vs with ev := { a := 1 }, tasks := [(1, k)], tb := 500 }
    let st := { (vs.onCtx fun c => { c with run := .dormant }) with
      ev := { a := 1 }, tasks := [(1, { k with run := .stopping, places := [{ (vs.place 32) with cores := [] }] })] }
    let od := (vs.onCtx fun c => { c with yieldAt := 0 })
    let odk := { od with ev := { a := 1 }, tb := 500, tasks := [(1, { k with run := .stopping, launch := { k.launch with yield := 100 } })] }
    let hd := (List.range 4).map fun u => (u + 1, { k with places := [{ (vs.place 32) with cores := [(0, u)] }], run := .stopped })
    let ev := { vs with ev := { a := 32, b := 0 }, tasks := (9, { k with places := [], run := .waiting }) :: hd }
    let small := { ev with tasks := (9, { k with places := [], run := .waiting, launch := { k.launch with dies := [{ kind := kindOf (posOf 32), ncore := 1 }] } }) ::
                                    (hd.map fun (e : Nat × Task) => (e.1, { e.2 with launch := { e.2.launch with dies := [{ kind := kindOf (posOf 32), ncore := 1 }] } })) }
    let up := e { k with run := .placed, frozen := some 44 }
    stays (exec .preemptNotice (evt 1 0)) = true ∧ after (exec .preemptNotice (e { k with run := .placed })) (fun t => t.agenda.length == 1) = true ∧
    after (exec .preemptNotice (e k)) (fun t => (t.task 1).run == .stopping) = true ∧ stays (exec .forcedStop (e k)) = true ∧
    (contextsOf odk 1).find? (overdue odk 1) = some 256 ∧
    after (exec .forcedStop odk) (fun t => (t.task 1).run == .ending && (t.task 1).endCause == 640) = true ∧ taskStill st 1 = true ∧
    (contextsOf st 1).all (issuedOver st) = true ∧ st.swrs = [] ∧ st.mxs = [] ∧ 256 ∈ contextsOf st 1 ∧ (st.task 1).hold = none ∧
    stays (exec .victimStopped { st with tasks := [(1, { (st.task 1) with hold := some {} })] }) = true ∧
    after (exec .preemptNotice (e { k with hold := some {} })) (fun t => t.agenda.length == 1 && (t.task 1).run == .running) = true ∧
    after (exec .victimStopped st) (fun t => (t.task 1).run == .stopped && (t.task 1).frozen == some 0 && t.ctx 256 == {}) = true ∧
    stays (exec .victimStopped vs) = true ∧ (small.place 32).cores.find? (fun e => e.1 == 0) = some (0, 0) ∧
    (heldUnits small (small.part 32).pos 0).eraseDups.length = 4 ∧ wantsCores small 1 (kindOf (small.part 32).pos) = true ∧
    coreOutstanding small 32 (coreAt (small.part 32).pos 0) = false ∧
    after (exec .partitionEvict small) (fun t => (fget? (t.part 32).evicted 0).isSome && t.placerDue) = true ∧
    after (exec .taskResume up) (fun t => (t.task 1).run == .running && (t.task 1).held == 456 && t.sched 1 == 44) = true ∧
    issuedLoads (up.part 32) = [] ∧ stays (exec .taskResume vs) = true := by decide +kernel

theorem witness_loss :
    let dead : State := State.reset.setDie 0 { State.reset.die 0 with health := 2 }
    stays (exec .dieFailure (evt 34 0)) = true ∧
    after (exec .dieFailure (evt 25 0)) (fun t => (t.stack 3).lost && (t.die 25).health == 2) = true ∧
    after (exec .dieFailure (evt 0 0)) (fun t => (t.die 0).health == 2 && t.root == 0) = true ∧ (evt 0 0).ctxs = [] ∧
    dead.alive 0 = false ∧ dead.alive 1 = true ∧ gives (exec .switchTakeover dead) { dead with root := 1, placerDue := true } = true ∧
    stays (exec .switchTakeover State.reset) = true := by decide +kernel

/-! ### The fabric, and the machine as a whole -/

/-- A slot word (R308): op, type, selectors of A and B, outputs, policy and parameter. -/
def slot (op ty a b out pol par : Nat) : Nat :=
  op + 2 ^ 5 * ty + 2 ^ 8 * a + 2 ^ 13 * b + 2 ^ 23 * out + 2 ^ 27 * pol + 2 ^ 32 * par

/-- A row of one value. -/
def rowOf (v : Nat) : Row := Row.of (List.replicate 64 (BitVec.ofNat 32 v))

theorem witness_slot_executions :
    let hole : Row := { pres := .hole, els := [5] }
    let port := fun (i : Nat) => if i = 0 then rowOf 7 else if i = 1 then rowOf 9 else if i = 2 then hole else {}
    let ex := fun (w : Nat) => ponExec w [rowOf 3, rowOf 4] [rowOf 100] port 0 {}
    let at5 := fun (r : Row) => r.at_ 5
    let maxw := rowOf 0x7F800000
    slotOp (slot 2 3 8 9 5 0 0) = 2 ∧ at5 (ex (slot 2 3 8 9 5 0 0)).res = 16 ∧ (ex (slot 2 3 8 9 5 0 0)).ports = 5 ∧
    (ex (slot 2 3 8 11 5 0 0)).res.pres = .empty ∧ (ex (slot 2 3 8 11 5 0 0)).ports = 0 ∧ (ex (slot 2 3 8 10 5 0 0)).res = hole ∧
    at5 (ex (slot 17 3 8 0 1 0 1)).out = 4 ∧ at5 (ex (slot 17 3 8 0 1 0 1)).res = 7 ∧ (ex (slot 17 3 11 0 1 0 7)).ports = 0 ∧
    at5 (ex (slot 18 3 11 9 1 0 0)).res = 9 ∧ at5 (ex (slot 18 3 8 9 1 0 0)).res = 7 ∧ at5 (ex (slot 14 3 8 0 1 0 0)).res = 10 ∧
    at5 (ex (slot 3 3 8 9 5 0 0)).res = 2 ^ 32 - 2 ∧ at5 (ex (slot 4 3 8 9 5 0 0)).res = 63 ∧ at5 (ex (slot 23 3 8 16 5 0 0)).res = 99 ∧
    (ponOp (slot 3 0 8 9 5 2 0) maxw maxw zeroRow zeroRow).fault.isSome = true ∧
    (ponExec (slot 3 0 8 9 5 2 0) [] [] (fun _ => maxw) 0 {}).res.pres = .hole ∧
    (ponExec (slot 14 3 8 0 1 0 0) [hole] [] port 0 {}).res = hole := by decide +kernel

/-- A task that runs its fabric, with an event. -/
def fabAt (f : Fab) (a b : Nat) : State := { vs with fabs := [(1, f)], tb := 70, ev := { a := a, b := b } }

theorem witness_fabric_runs :
    let add : BitVec 64 := BitVec.ofNat 64 (slot 2 3 8 9 1 0 0)
    let p : Pon := { ii := 2, slots := [add, 0], ins := [⟨2, 0, 0⟩, ⟨2, 0, 1⟩] }
    let q : Pon := { ii := 2, slots := [0, 0], ins := [⟨1, 0, 0⟩] }
    let run : Fab := { st := 4, t := 60, pons := [(0, p), (1, q)]
                       flights := [⟨.pon 0 0 0, 70, 69, rowOf 5⟩, ⟨.pon 0 0 1, 70, 69, rowOf 6⟩] }
    let s := fabAt run 1 0
    let lk : FLink := { qidx := 3, ring := false, dvpon := 1, dport := 2 }
    let x : Flight := ⟨.link 0, 70, 60, rowOf 8⟩
    let rg : Ring := { nslot := 4, ssz := 2, base := 0x1000 }
    let r0 := fabAt { st := 4, links := [{ lk with ring := true }], flights := [x] } 1 0
    let k := r0.task 1
    let rs := (r0.setTask 1 { k with launch := { k.launch with stages := [{}], rings := [{ qidx := 3, mode := 1 }] } }).setPcore
      (r0.myPcore 256) { rings := [(3, rg)] }
    ponDue s 1 0 p = true ∧ stays (exec .pontoonExec (fabAt {} 1 0)) = true ∧
    after (exec .pontoonExec s) (fun t => ((fget (t.fab 1).files 0 []).headD {}).at_ 3 == 11 &&
      ((t.fab 1).flights.map fun y => (y.dest, y.due, y.row.at_ 3)) == [(.pon 0 1 0, 71, 11)]) = true ∧
    ponDue s 1 0 { p with next := 71 } = false ∧ fabRuns s 1 = true ∧ fabActs s 1 1 = true ∧ fabTime s 1 0 = 70 ∧ stays (exec .fabricRunning s) = true ∧
    after (exec .fabricRunning (fabAt { st := 3, t := 70 } 1 0)) (fun t => (t.fab 1).st == 4) = true ∧
    after (exec .fabricDrain (fabAt { st := 4, p := 70, flights := run.flights } 1 0)) (fun t => (t.fab 1).st == 5 && (t.fab 1).flights == []) = true ∧
    stays (exec .fabricDrain s) = true ∧ stays (exec .fabricPhaseComplete s) = true ∧ fabPend s 1 = 0 ∧
    after (exec .fabricPhaseComplete (fabAt { st := 5 } 1 0)) (fun t => (t.fab 1).st == 2 && (t.fab 1).phase == 1) = true ∧
    stays (exec .chainFerryFlitArrival s) = true ∧
    after (exec .chainFerryFlitArrival (fabAt { st := 4, links := [lk], flights := [x] } 1 0)) (fun t =>
      (t.fab 1).flights == [⟨.pon 0 1 2, 70, 60, rowOf 8⟩]) = true ∧
    after (exec .chainFerryFlitArrival (fabAt { st := 5, links := [lk], flights := [x] } 1 0)) (fun t => (t.fab 1).flights == []) = true ∧
    streamRing (rs.task 1).launch 3 = some { qidx := 3, mode := 1 } ∧ stageCore rs 1 0 = (32, physOf 32) ∧
    after (exec .chainFerryFlitArrival rs) (fun t => (t.ring (rs.myPcore 256) 3).clm == 1 && fget (t.fab 1).partial_ 3 0 == 256) = true ∧
    after (exec .chainFerryFlitArrival (rs.setPcore (r0.myPcore 256) {})) (fun t => (t.fab 1).miss == 1) = true := by decide +kernel

theorem witness_fabric_ends :
    let src : SPort := { kind := 0, ctx := 256, b := { blockOf (pb 1 256 0x1000 0 1 1) with aux := BitVec.allOnes 64 } }
    let snk : SPort := { kind := 1, ctx := 256, b := blockOf (pb 2 256 0 0x1000 1 1) }
    let acc : SPort := { kind := 2, ctx := 256, b := blockOf (pb 0 256 0 0x1000 1 1) }
    let on := fun (f : Fab) (p : SPort) => (fabAt { f with st := 4 } 32 3).setSport (16 * 32 + 3) p
    let x : Flight := ⟨.sink 0 3, 70, 60, rowOf 8⟩
    let h : Flight := { x with row := { pres := .hole, els := [] } }
    let p : Pon := { ins := [⟨2, 0, 3⟩] }
    let bf : Fab := { buffer := [(0, 65, [1, 2])] }
    let rd := fun (f : Fab) => { (held { rings := [(3, { nslot := 4, ssz := 4, base := 0x1000 })] }) with
      fabs := [(1, f)], tb := 70, ev := { a := 1, b := 0 } }
    let ld : State := { (mapped vs) with fabs := [(1, { st := 1 })], ev := { a := 7 }
                                         cmds := [(7, { kind := .fload, task := 1, part := 32, ctx := 256, root := 0x100000, w0 := 0x2000 })] }
    let s0 := on { pons := [(0, p)] } src
    sourceDue s0 1 0 src = true ∧ firstOffence s0 (s0.windows 256) 0x1000 256 = none ∧
    after (exec .sourceRowEmit s0) (fun t => ((t.fab 1).flights.map fun y => (y.dest, y.due)) == [(.pon 0 0 0, 71)]) = true ∧
    stays (exec .sourceRowEmit (fabAt {} 32 3)) = true ∧ stays (exec .sinkRowWrite s0) = true ∧
    sinkFlight (on { flights := [x] } snk) 1 0 3 = some x ∧
    after (exec .sinkRowWrite (on { flights := [x] } snk)) (fun t => winBytes t (t.windows 256) 0x1000 2 == [8, 0]) = true ∧
    after (exec .sinkRowWrite (on { flights := [h] } snk)) (fun t => (t.fab 1).holes == 1 && (t.fab 1).failed) = true ∧
    after (exec .sinkRowWrite (on { flights := [h], handlers := [(0, (256, 3))] } snk)) (fun t => (t.fab 1).buffer.length == 1) = true ∧
    after (exec .sinkRowWrite (on { flights := [x] } { snk with count := 1 })) (fun t => (t.fab 1).miss == 1) = true ∧
    after (exec .sinkRowWrite (fabAt { st := 4, flights := [x] } 32 3)) (fun t => (t.fab 1).miss == 1) = true ∧
    stays (exec .sinkRowWrite (on { flights := [x] } acc)) = true ∧ stays (exec .accumulateSinkApply (on { flights := [x] } snk)) = true ∧
    (let c := sinkCmd (on { flights := [x] } acc) 32 3 acc 0 x.row x.sent
     (sinkTouches c).any (stripesBusy (on { flights := [x] } acc)) = false) ∧
    goesOn (exec .accumulateSinkApply (on { flights := [x] } acc)) = true ∧
    after (exec .accumulateSinkApply (on { flights := [h] } acc)) (fun t => (t.fab 1).engHole == 1) = true ∧
    after (exec .accumulateSinkApply (on { flights := [x] } { acc with count := 1 })) (fun t => (t.fab 1).miss == 1) = true ∧
    after (exec .fabricRecordDeliver (rd bf)) (fun t => (t.fab 1).lost == 1 && (t.fab 1).buffer == []) = true ∧
    after (exec .fabricRecordDeliver (rd { bf with handlers := [(0, (256, 3))] })) (fun t => (t.ring (t.myPcore 256) 3).fill == 1 &&
      winBytes t (t.windows 256) 0x1000 3 == [1, 2, 0]) = true ∧ stays (exec .fabricRecordDeliver (rd {})) = true ∧
    (match (readImage ld (ld.cmd 7)) with
      | .inl (c, _) => c == cFabImage
      | .inr _ => false) = true ∧
    after (exec .floadComplete ld) (fun t => (t.fab 1).st == 0 && (t.fab 1).loads == 1 && t.flogHead == 1) = true ∧
    stays (exec .floadComplete s0) = true := by decide +kernel

theorem witness_decode_encode :
    let i : Instr := .add 2 6 5 5
    i.wf = true ∧ (encode i).isSome = true := by decide +kernel

theorem witness_steps :
    let s := State.reset.withFetchWord 32 0x0080A010
    let f := s.setCtx 256 { s.ctx 256 with lanes := [], line := 0, pc := 0 }
    let cq : Lane := { q := .l, idx := 1, instr := .rwaitf Hdr.zero 0 1 0 }
    let q := s.setCtx 256 { s.ctx 256 with lanes := [cq] }
    let e : Entry := { instr := .barw Hdr.zero 0 0, q := .l }
    let w := s.setCtx 256 { s.ctx 256 with lanes := [], ql := [e], run := .draining }
    let goes := fun (u : State) (e : Entry) =>
      match scoreboard u 256 e with
      | .go => true
      | _ => false
    (∀ u : State, u ∈ [s, f, q, w] → dueEvents u = [] ∧ (scanned u).all (fun e => !possible u e) = true ∧ u.halted = false) ∧
    readyActs f = [(256, .fetch)] ∧ readyActs s = [(256, .lane true)] ∧ readyActs q = [(256, .lane false)] ∧
    readyActs w = [(256, .issue .l)] ∧ goes w e = true ∧ readyActs (enqueueLane q 256) = [(256, .issue .l)] ∧
    ((enqueueLane q 256).ctx 256).ql.all (goes (enqueueLane q 256)) = true ∧
    decodeLine .vector .flow (fget f.istore (8192 * 32) 0) = .lanes [⟨1, .x, .addi 0 5 0 16⟩] ∧ profileOf 32 = .vector ∧
    isControl (coreOf 256) = false ∧ after (step s) (fun t => (t.ctx 256).getX 5 == 16) = true ∧
    after (step f) (fun t => (t.ctx 256).lanes == [⟨1, .x, .addi 0 5 0 16⟩]) = true ∧ goesOn (step q) = true ∧ goesOn (step w) = true := by
  decide +kernel

theorem witness_time :
    let s : State := { State.reset with halted := true }
    let e : State := { State.reset with agenda := [] }
    let d := { e with tasks := [], msgs := [], clusters := [(3, { qstate := 1 })] }
    after (step s) (fun t => t.tb == 1) = true ∧ dueEvents State.reset = [⟨0, .reset, {}, none⟩] ∧
    (scanned d).filter (possible d) = [(.quiesceDone, { a := 3 })] ∧ dueEvents d = [] ∧
    dueEvents e = [] ∧ scanned e = [] ∧ readyActs e = [] ∧ after (step e) (fun t => t.tb == 1) = true ∧
    (let f := { e with clusters := [(3, { powered := true }), (4, {})] }
     hasClock f 3 = true ∧ hasClock f 4 = false ∧ f.swrs = [] ∧ f.banks = [] ∧ f.ctxs = [] ∧ f.tasks = [] ∧ f.seqs = [] ∧
      f.mxs = [] ∧ f.bankUse = [] ∧ f.sports = [] ∧ f.clusters.all (fun e => e.2.stat != 4) = true ∧
      after (step f) (fun t => (t.cluster 3).lag == 0 && (t.cluster 4).lag == 1) = true) ∧
    (let f := { e with clusters := [(3, { powered := true, stat := 4, pendF := 13, pendU := 25 })] }
     after (step f) (fun t => t.tb == 1 && (t.cluster 3).stat == 1) = true) ∧
    Memory.wf State.reset.mem = true ∧ goesOn (step State.reset) = true := by decide +kernel

/-! ### Clauses that need memory that is mapped, or more than one command -/

/-- A write of the stripe at 0x2000 whose delta is on its way. -/
def writing (s : State) : State := { s with writes := [(90, { dpa := 0x2000, bytes := [1], phase := 2, delta := [1] })] }

theorem witness_fills_meet :
    let f : Cmd := { kind := .fill, slot := 2, root := 0x100000, errDva := 0x2000, engine := clusterOf 32, home := homeOf (clusterOf 32)
                     part := 32, task := 1, ctx := 256 }
    let s := fun (f : Cmd) (st : SlotState) =>
      let t := { (mapped vs) with cmds := [(7, f)], ev := { a := clusterOf 32, b := 2 } }
      t.setCluster (clusterOf 32) { t.cluster (clusterOf 32) with slots := [(2, { st := st })] }
    let lost := fun (t : State) => (t.setStack (stripeMap 0x2000).z { lost := true })
    let busy := fun (t : State) => f.routed t && stripesBusy t ⟨f.errDva, 256, false, f.root, false⟩
    let ok := s f .filling
    busy ok = false ∧ busy (lost (writing ok)) = true ∧ f.routed { ok with cmds := [] } = true ∧
    (dvaLoad { ok with cmds := [] } f.root f.errDva 256).2.1 = none ∧
    after (exec .probeFillComplete ok) (fun t => ((t.cluster (clusterOf 32)).slot 2).st == .valid) = true ∧
    after (exec .probeFillComplete (lost (writing ok))) (fun t => t.agenda.length == 1) = true ∧
    after (exec .probeFillComplete (s { f with orphan := true } .filling)) (fun t => ((t.cluster (clusterOf 32)).slot 2).st == .filling) = true ∧
    after (exec .probeFillComplete (s { f with orphan := true } .invalid)) (fun t => t.cmds == []) = true := by decide +kernel

theorem witness_increment_leaves :
    let u : Sync := { kind := 3, part := 32, core := 10, ctx := 256, after := [0] }
    let s := fun (u : Sync) => { vs with syncs := [(9, u)], ev := { a := 10, b := 3, c := 4, v := 9 } }
    syncReady (s u) u = true ∧ u.core = posOf (coreOf u.ctx) ∧
    after (exec .semIncrementArrival (s { u with core := 11 })) (fun t => ((fget t.syncs 9 {}).after == []) && t.agenda.length == 1) = true ∧
    after (exec .semIncrementArrival (s { u with core := 11, after := [] })) (fun t => semCount t 10 3 == 4 && t.syncs == []) = true := by
  decide +kernel

theorem witness_peer_puts :
    let s := fun (w : Win) (b : Nat) => { (mapped vs) with wins := [(9, w)], ev := { a := 9, b := b, bytes := [5, 6], f := true } }
    let w : Win := { valid := true, base := 0x2000, len := 1, root := 0x100000 }
    stripesBusy (s w 8) ⟨0x2008, 2, true, 0x100000, false⟩ = false ∧ (dvaPut (s w 8) 0x100000 0x2008 [5, 6]).bad = none ∧
    (dvaPut (s { w with root := 0x300000 } 8) 0x300000 0x2008 [5, 6]).bad.isSome = true ∧
    after (exec .putArrival (s w 8)) (fun t => (t.win 9).arr == 1) = true ∧
    after (exec .putArrival (s { w with root := 0x300000 } 8)) (fun t => (t.win 9).arr == 0) = true ∧
    gives (exec .putArrival (s {} 8)) (s {} 8) = true ∧ gives (exec .putArrival (s w 0xFFFF)) (s w 0xFFFF) = true ∧
    stays (exec .putArrival (writing (s w 8))) = true := by decide +kernel

theorem witness_sources_and_loads :
    let src : SPort := { kind := 0, ctx := 256, b := { blockOf (pb 1 256 0x1000 0 1 4) with aux := BitVec.allOnes 64 } }
    let p : Pon := { ins := [⟨2, 0, 3⟩] }
    let on := fun (q : SPort) => (fabAt { st := 4, pons := [(0, p)] } 32 3).setSport (16 * 32 + 3) q
    let q := { src with ahead := [List.replicate 256 7, List.replicate 256 8] }
    let load : Cmd := { kind := .fload, task := 1, part := 32, ctx := 256, root := 0x100000, w0 := 0x2000 }
    let ld := fun (bs : List Byte) => { (devStore (mapped vs) 0x2000 bs).s with fabs := [(1, { st := 1 })], ev := { a := 7 }, cmds := [(7, load)] }
    let gone := ((ld []).setStack 0 { lost := true }).setStack 1 { lost := true }
    let gone := gone.setStack 2 { lost := true }
    sourceDue (on q) 1 0 q = true ∧
    after (exec .sourceRowEmit (on q)) (fun t => (t.sport (16 * 32 + 3)).map (fun x => (x.count, x.ahead.length)) == some (1, 1) &&
      ((t.fab 1).flights.map fun y => y.row.at_ 0) == [0x07070707]) = true ∧
    after (exec .sourceRowEmit (on src)) (fun t => ((t.fab 1).flights.map fun y => y.row.tag.cause) == [5] && (t.fab 1).faults == 1) = true ∧
    ((rowRead (on src) (16 * 32 + 3) src).sport (16 * 32 + 3)).map SPort.ahead = some [List.replicate 256 0] ∧
    (match readImage (ld (leBytes 8 1)) ((ld []).cmd 7) with
      | .inl _ => false
      | .inr (i, _) => i.links == []) = true ∧
    after (exec .floadComplete (ld (leBytes 8 1))) (fun t => (t.fab 1).st == 2 && (t.fab 1).loads == 1 && t.cmds == []) = true ∧
    (match readImage gone (gone.cmd 7) with
      | .inl (c, _) => c / 64 == 6
      | .inr _ => false) = true ∧ (gone.task 1).run ≠ .ending ∧
    after (exec .floadComplete gone) (fun t => (t.task 1).run == .ending && t.cmds == []) = true := by decide +kernel

theorem witness_partial_slots :
    let lk : FLink := { qidx := 3, ring := true }
    let f : Fab := { st := 4, p := 70, links := [lk], partial_ := [(3, 256), (4, 256)], flights := [⟨.link 0, 99, 60, rowOf 8⟩] }
    fabRuns (fabAt f 1 0) 1 = true ∧
    after (exec .fabricDrain (fabAt f 1 0)) (fun t => (t.fab 1).st == 5 && (t.fab 1).partial_ == [(3, 256)] && (t.fab 1).flights.length == 1) = true := by
  decide +kernel

theorem witness_traps_and_holds_at_issue :
    let s := State.reset.withFetchWord 32 0x0080A010
    let e : Entry := { instr := .vmov Hdr.zero 4 3 0 0, q := .c }
    let w := fun (m : Bool) => s.setCtx 256 { s.ctx 256 with lanes := [], qc := [e], run := .draining, sbmode := m, re := [(3, 9)] }
    let p : Pending := ⟨cRingField, 2, 5, 1, 1, 9⟩
    let g := s.setCtx 256 { s.ctx 256 with lanes := [], pend := [p], faultAt := some 0, fetchAt := 5 }
    (∀ u : State, u ∈ [w true, w false, g] → dueEvents u = [] ∧ (scanned u).all (fun e => !possible u e) = true) ∧
    readyActs (w true) = [(256, .issue .c)] ∧ readyActs (w false) = [(256, .issue .c)] ∧
    (match scoreboard (w true) 256 e with
      | .trap _ => true
      | _ => false) = true ∧
    (match scoreboard (w false) 256 e with
      | .hold _ => true
      | _ => false) = true ∧
    readyActs g = [] ∧ (trapEvents g).filter (possible g) = [(.trapEntry, { a := 256 })] ∧ goesOn (step g) = true := by decide +kernel

/-! ### Worked examples of the spec -/

/-- The registers before the lines of R138. -/
def r138 (x : List (Nat × DWord)) : State :=
  cx fun c => { c with x := [(5, 0x0123456789ABCDEF), (6, 0xFEDCBA9876543210), (7, 20), (8, 0x56789ABCDEFFEDCB), (9, 0xDEF)] ++ x }

/-- The table of R138. -/
theorem test_bit_stream_example :
    after (exec (.fshl 0 8 5 6 7 1 0 0) (r138 [])) (fun t => t.cc.getX 8 == 0x56789ABCDEFFEDCB) = true ∧
    after (exec (.bfxu 0 9 8 7 1 12 0) (r138 [])) (fun t => t.cc.getX 9 == 0xDEF) = true ∧
    after (exec (.bfxs 0 10 8 0 0 8 40) (r138 [])) (fun t => t.cc.getX 10 == 0xFFFFFFFFFFFFFF9A) = true ∧
    after (exec (.bfi 0 11 9 0 0 12 4) (r138 [(11, 0xFFFF0000)])) (fun t => t.cc.getX 11 == 0xFFFFDEF0) = true ∧
    after (exec (.clz 0 12 9) (r138 [])) (fun t => t.cc.getX 12 == 52) = true ∧
    after (exec (.popc 0 13 9) (r138 [])) (fun t => t.cc.getX 13 == 10) = true := by decide +kernel

/-- A request for one access to bank 5. -/
def asks5 (k : Nat) (q : Queue) : BankReq := { ctx := k, q := q, left := [(5, 1)], last := vs.clk 256, land := vs.clk 256 + 9, reg := some 3 }

/-- R114, R115: of two contexts the handler is served, unless it has had the bank for eight clks; in a context, L before S. What
is not served lands one clk later and its reader is held until the clk after that (R111). -/
theorem test_bank_order :
    let s := fun (rs : List BankReq) (b : Bank) => coreBanks { vs with banks := [(32, rs)], bankUse := [(64 * 32 + 5, b)] } 32
    let left := fun (t : State) => (fget t.banks 32 []).map fun r => (r.ctx, r.q)
    let t := s [asks5 0 .l, asks5 1 .s] {}
    left t = [(0, .l)] ∧ fget (t.ctx 256).late 3 0 = vs.clk 256 + 11 ∧
    left (s [asks5 0 .l, asks5 1 .s] { slot := { last := 1, run := 8 } }) = [(1, .s)] ∧
    left (s [asks5 0 .s, asks5 0 .l] {}) = [(0, .s)] ∧ left (coreBanks t 32) = [] := by decide +kernel

/-- R111: a reader of a register that lands after its bound is held in both settings of SBMODE, never trapped, and BKSTALL
counts the clk. -/
theorem test_held_reader :
    let e : Entry := { instr := .vmov Hdr.zero 4 3 0 0, q := .c }
    let held := fun (m : Bool) =>
      match scoreboard (cx fun c => { c with sbmode := m, late := [(3, vs.clk 256 + 1)] }) 256 e with
      | .hold t => (t.ctx 256).bkstall == 1
      | _ => false
    held false = true ∧ held true = true := by decide +kernel

/-- A line from its eight words. -/
def lineOf (ws : List Nat) : FetchLine := BitVec.ofNat 256 (leNat (ws.flatMap (leBytes 4)))

/-- The encoded lines after R138, after R280 and in the Jacobi program. -/
theorem test_line_examples :
    decodeLine .vector .flow (lineOf [0x00051510, 0x01190530, 0x00078000, 0x010D2800, 0x00078C00, 0, 0, 0]) =
      .lanes [⟨1, .x, .fshl 0 8 5 6 7 1 0 0⟩, ⟨3, .x, .bfxu 0 9 8 7 1 12 0⟩] ∧
    decodeLine .vector .flow (lineOf [0x00000540, 0x81080400, 0x00100C02, 0, 0, 0, 0, 0]) =
      .lanes [⟨1, .s, .cacc ⟨true, false, false, false, 0⟩ 4 ⟨false, false, true, true, 2⟩ 0 2⟩] ∧
    decodeLine .vector .flow (lineOf [0x44454540, 0x01001200, 0x800, 0x01000300, 0x401, 0x00601CE0, 0x00581D00, 0x005C1D00]) =
      .lanes [⟨1, .s, .cpy ⟨false, false, false, false, 0⟩ 18 ⟨false, false, true, false, 0⟩⟩,
        ⟨3, .s, .cpy ⟨false, false, false, false, 0⟩ 3 ⟨false, false, false, true, 1⟩⟩,
        ⟨5, .s, .semw ⟨false, false, false, false, 0⟩ 28 28⟩, ⟨6, .s, .pbara ⟨false, false, false, false, 0⟩ 29⟩,
        ⟨7, .s, .pbarw ⟨false, false, false, false, 0⟩ 29⟩] := by decide +kernel

/-- The first eight bytes of three nodes of the Jacobi graph. -/
theorem test_node_examples :
    leNat ((nd 6 0 2 0xFFFF 0 0 0).take 8) = 0xFFFF000200000106 ∧ leNat ((nd 2 0 4 3 0 0 0).take 8) = 0x0003000400000102 ∧
    nodeKind (leBytes 8 0x0004000000000103) = 3 ∧ nodeA (leBytes 8 0x0003000400000102) = 4 := by decide +kernel

/-- The aging example after R51. -/
theorem test_aging_example :
    let e := fun (p us : Nat) => effPrio { State.reset with ageK := 4, tb := 1250 * us } { launch := { prio := p } }
    (e 2 15, e 2 40, e 2 64, e 2 1000, e 7 1000) = (2, 4, 6, 6, 7) := by decide +kernel

/-- The hold of the example after R65, 1,024 ticks later: VN2 stands before 1,000 and issues it with the notice at 93, the release
comes at tick 232, HOLDCNT is 1 and HOLDTK 192. -/
theorem test_hold_example :
    let h : Hold := { at_ := 1000, stop := 1040, asked := 1024, stops := [(10, 1000)] }
    let k := { (vs.task 1) with t0 := 24, phi := 24 }
    let s := fun (h : Hold) (tb : Nat) => { vs with tb := 1024 + tb, ev := { a := 1, b := 1024 }, tasks := [(1, { k with hold := some h })] }
    let on := fun (tb pos : Nat) => (s { h with go := some (1024 + 93) } tb).schedAt 1 pos
    (s h 50).schedAt 1 10 = 1000 ∧ (s h 50).schedAt 1 11 = 1040 ∧ on 93 10 = 1000 ∧ on 133 10 = 1040 ∧
    after (exec .tideHoldResumeNotice (s h 93)) (fun t => (t.agenda.map Due.at_) == [1024 + 232]) = true ∧
    after (exec .tideHoldRelease (s { h with events := 0, reached := true } 232)) (fun t => (t.task 1).holdcnt == 1 &&
      (t.task 1).holdtk == 192) = true := by
  decide +kernel

/-- The voltage floors after R432. -/
theorem test_floor_examples : (floorOf 16, floorOf 20, floorOf 26) = (31, 39, 50) := by decide +kernel

/-- Group 2 of the worked Q4X block of 08_number_formats.md: its sixteen elements. -/
def q4xRow : List Nat :=
  [0x40AF0000, 0xC0AF0000, 0xC0910000, 0x40910000, 0x40AF0000, 0xC0AF0000, 0xC0910000, 0xC0910000,
   0xC0AF0000, 0xC0AF0000, 0x40910000, 0x40910000, 0xC0AF0000, 0x40AF0000, 0x40910000, 0xC0910000]

/-- Group 2 of the block in its bytes: header, scales, groups. -/
def q4xBlock : List Byte :=
  [0x31, 0, 0, 0x75, 0, 0, 0, 0] ++ List.replicate 16 0 ++ [0x68, 0x06, 0, 0, 0, 0, 0, 0] ++ List.replicate 32 0

/-- The seed hs3 of the example. -/
def q4xSeed : DWord := 0x0000010000000011

theorem test_q4x_signs : signVector q4xSeed 2 = 0x93E6 := by decide +kernel

theorem test_q4x_quantise :
    quantBlock 1 3 (List.replicate 32 (.fin false 0 0) ++ q4xRow.map fp32.value ++ List.replicate 64 (.fin false 0 0)) q4xSeed 0 =
      (q4xBlock, 0) := by decide +kernel

theorem test_q4x_dequantise : (dequantGroup q4xBlock 2 q4xSeed 2).1 = q4xRow := by decide +kernel

theorem test_q4x_pass : accBlocks false 0 (groupsOf q4xBlock) (groupsOf q4xBlock) = (0x41E4E1000000, false) := by decide +kernel

/-- VQNT itself on that row: the block stands at its destination. -/
theorem test_vqnt_example :
    let s := (put vs (0x100 + 4 * 32) (q4xRow.flatMap (leBytes 4))).onCtx fun c => { c with hs := [(3, q4xSeed)] }
    after (exec (.vqnt Hdr.zero 5 6 1) (ops s .s 0x0000080000000100 0x700301 0)) (fun t =>
      winBytes t (t.windows 256) 0x800 64 == q4xBlock) = true := by decide +kernel

/-- A register whose element 0 is given and whose other elements are zero. -/
def one0 (v : Int) : List Word := BitVec.ofInt 32 v :: List.replicate 1023 0

/-- The sources of the packed requantisation of 09_vector_elementwise.md. -/
def packed : State :=
  { (cx fun c => { c with v := [(8, one0 1000), (9, one0 (-1000)), (10, one0 5000), (11, one0 (-24)), (12, one0 4)], vm := [(0, 1)] }) with
    iss := { vs.iss with q := .c } }

/-- The packed requantisation of 09_vector_elementwise.md: v8 (0, 0) becomes 0xFE7FC23E, and SAT is set. -/
theorem test_requantise_example :
    after (exec (.vrshr Hdr.zero 8 8 12 1 0) packed) (fun t => (elem (t.cc.getV 8) 0).toNat == 0xFE7FC23E &&
      (t.agenda.map fun d => d.arg.v.toNat) == [flSat.toNat]) = true := by decide +kernel

/-- The reductions of a register of ones in 10_vector_axes_and_access.md: 64.0 in column 0, then 1,024.0 at (0, 0). -/
theorem test_reduction_example :
    let on := fun (r : Nat) (v : List Word) => { (cx fun c => { c with v := [(r, v)] }) with iss := { vs.iss with q := .c } }
    after (exec (.vredr Hdr.zero 3 2 0 0 0) (on 2 (List.replicate 1024 0x3F800000))) (fun t =>
      elem (t.cc.getV 3) 64 == 0x42800000 && elem (t.cc.getV 3) 65 == 0 && elem (t.cc.getV 3) 960 == 0x42800000) = true ∧
    after (exec (.vredc Hdr.zero 4 3 0 0 0) (on 3 ((List.range 1024).map fun j => if j % 64 = 0 then 0x42800000 else 0))) (fun t =>
      elem (t.cc.getV 4) 0 == 0x44800000 && elem (t.cc.getV 4) 64 == 0) = true := by decide +kernel

/-- A context whose v4 holds 4.0 everywhere. -/
def fours : State := { (cx fun c => { c with v := [(4, List.replicate 1024 0x40800000#32)] }) with iss := { vs.iss with q := .c } }

/-- The repeated reciprocal of 09_vector_elementwise.md: each iteration reads what the one before wrote. -/
theorem test_repeat_example :
    after (exec (.vrcp Hdr.zero 5 4 2 0 0) fours) (fun t => elem (t.cc.getV 5) 1023 == 0x3E800000#32 && elem (t.cc.getV 6) 7 == 0x40800000#32 &&
      elem (t.cc.getV 7) 0 == 0x3E800000#32) = true := by decide +kernel

end Sys2Proof.Tests
end

section
/-! SUPPORT. The values of the scalar instructions (06_scalar_instructions.md R127 to R138): the shared arithmetic of the X map
in terms of integers and of single bits, and the statements about what the instructions write. -/

namespace Sys2Proof.Machine

/-! ### Instructions by the value they write -/

/-- An instruction that writes x[d] completes with every value equal to the one it writes. -/
theorem wrX_gives_eq {s : State} {i : Instr} {d : BitVec 5} {v w : DWord} {n : Nat}
    (h : exec i s = .next (s.wrX d w n)) (e : w = v) : GivesX s i d v n := e ▸ wrX_gives h

/-- An instruction that writes p[k] completes with every truth value equal to the one it writes. -/
theorem wrP_gives_eq {s : State} {i : Instr} {k : BitVec 3} {b c : Bool}
    (h : exec i s = .next (s.wrP k.toNat c)) (e : c = b) : GivesP s i k b := e ▸ wrP_gives h

/-! ### Integer arithmetic (R127 to R129, R134) -/

theorem amt_eq_mod (v : DWord) : amt v = v.toNat % 64 := by
  simp [amt]

theorem sshiftRight_eq_ofInt_div (v : DWord) (n : Nat) : v.sshiftRight n = BitVec.ofInt 64 (v.toInt / 2 ^ n) := by
  rw [← BitVec.ofInt_toInt (x := v.sshiftRight n), BitVec.toInt_sshiftRight, Int.shiftRight_eq_div_pow]
  norm_cast

theorem shiftLeft_eq_ofNat_mul (v : DWord) (n : Nat) : v <<< n = BitVec.ofNat 64 (v.toNat * 2 ^ n) := by
  apply BitVec.eq_of_toNat_eq
  rw [BitVec.toNat_shiftLeft, BitVec.toNat_ofNat, Nat.shiftLeft_eq]

theorem mul_eq_ofNat (a b : DWord) : a * b = BitVec.ofNat 64 (a.toNat * b.toNat) := by
  rw [BitVec.ofNat_mul, BitVec.ofNat_toNat, BitVec.ofNat_toNat, BitVec.setWidth_eq, BitVec.setWidth_eq]

/-- Bits [127:64] of an integer. -/
theorem extractLsb'_ofInt_high (z : Int) : (BitVec.ofInt 128 z).extractLsb' 64 64 = BitVec.ofInt 64 (z / 2 ^ 64) := by
  apply BitVec.eq_of_toNat_eq
  rw [BitVec.extractLsb'_toNat, BitVec.toNat_ofInt, BitVec.toNat_ofInt, Nat.shiftRight_eq_div_pow]
  omega

theorem mulHigh_eq_ofInt (a b : DWord) : mulHigh a b = BitVec.ofInt 64 (a.toInt * b.toInt / 2 ^ 64) := by
  rw [← extractLsb'_ofInt_high, BitVec.ofInt_mul]
  rfl

theorem mulHighU_eq_ofNat (a b : DWord) : mulHighU a b = BitVec.ofNat 64 (a.toNat * b.toNat / 2 ^ 64) := by
  have hlt : a.toNat * b.toNat < 2 ^ 64 * 2 ^ 64 := Nat.mul_lt_mul'' a.isLt b.isLt
  apply BitVec.eq_of_toNat_eq
  simp only [mulHighU, BitVec.extractLsb'_toNat, BitVec.toNat_mul, BitVec.toNat_setWidth, BitVec.toNat_ofNat,
    Nat.shiftRight_eq_div_pow]
  rw [Nat.mod_eq_of_lt (by omega : a.toNat < 2 ^ 128), Nat.mod_eq_of_lt (by omega : b.toNat < 2 ^ 128),
    Nat.mod_eq_of_lt (by omega : a.toNat * b.toNat < 2 ^ 128)]

theorem smin_eq_ofInt (a b : DWord) : (if b.slt a then b else a) = BitVec.ofInt 64 (min a.toInt b.toInt) := by
  by_cases h : b.toInt < a.toInt
  · rw [if_pos (BitVec.slt_iff_toInt_lt.2 h), Int.min_eq_right (Int.le_of_lt h), BitVec.ofInt_toInt]
  · rw [if_neg (mt BitVec.slt_iff_toInt_lt.1 h), Int.min_eq_left (Int.not_lt.1 h), BitVec.ofInt_toInt]

theorem smax_eq_ofInt (a b : DWord) : (if a.slt b then b else a) = BitVec.ofInt 64 (max a.toInt b.toInt) := by
  by_cases h : a.toInt < b.toInt
  · rw [if_pos (BitVec.slt_iff_toInt_lt.2 h), Int.max_eq_right (Int.le_of_lt h), BitVec.ofInt_toInt]
  · rw [if_neg (mt BitVec.slt_iff_toInt_lt.1 h), Int.max_eq_left (Int.not_lt.1 h), BitVec.ofInt_toInt]

theorem umin_eq_ofNat (a b : DWord) : (if b.ult a then b else a) = BitVec.ofNat 64 (min a.toNat b.toNat) := by
  by_cases h : b.toNat < a.toNat
  · rw [if_pos (BitVec.ult_iff_lt.2 h), Nat.min_eq_right (Nat.le_of_lt h), BitVec.ofNat_toNat, BitVec.setWidth_eq]
  · rw [if_neg (mt BitVec.ult_iff_lt.1 h), Nat.min_eq_left (Nat.not_lt.1 h), BitVec.ofNat_toNat, BitVec.setWidth_eq]

theorem umax_eq_ofNat (a b : DWord) : (if a.ult b then b else a) = BitVec.ofNat 64 (max a.toNat b.toNat) := by
  by_cases h : a.toNat < b.toNat
  · rw [if_pos (BitVec.ult_iff_lt.2 h), Nat.max_eq_right (Nat.le_of_lt h), BitVec.ofNat_toNat, BitVec.setWidth_eq]
  · rw [if_neg (mt BitVec.ult_iff_lt.1 h), Nat.max_eq_left (Nat.not_lt.1 h), BitVec.ofNat_toNat, BitVec.setWidth_eq]

/-- The number of two words put together. -/
theorem toNat_append_eq_add {m n : Nat} (u : BitVec m) (v : BitVec n) : (u ++ v).toNat = u.toNat * 2 ^ n + v.toNat := by
  rw [BitVec.toNat_append, ← Nat.shiftLeft_add_eq_or_of_lt v.isLt, Nat.shiftLeft_eq]

theorem append_low_word_eq_ofNat (w : Word) (v : DWord) :
    w ++ v.extractLsb' 0 32 = BitVec.ofNat 64 (w.toNat * 2 ^ 32 + v.toNat % 2 ^ 32) := by
  apply BitVec.eq_of_toNat_eq
  rw [toNat_append_eq_add, BitVec.extractLsb'_toNat, BitVec.toNat_ofNat, Nat.shiftRight_zero]
  omega

/-! ### Counting and byte order (R133) -/

/-- The count from the top: at most n, with a set bit below it unless it is n, and no set bit in it. -/
theorem clzN_spec (n v : Nat) :
    clzN n v ≤ n ∧ (clzN n v < n → v.testBit (n - 1 - clzN n v) = true) ∧
      ∀ j, n - clzN n v ≤ j → j < n → v.testBit j = false := by
  induction n with
  | zero => simp [clzN]
  | succ k ih =>
    obtain ⟨hle, hset, hclear⟩ := ih
    by_cases hk : v.testBit k = true
    · simp only [clzN, if_pos hk]
      exact ⟨by omega, fun _ => by simpa using hk, fun j h1 h2 => by omega⟩
    · simp only [clzN, if_neg hk]
      refine ⟨by omega, fun h => ?_, fun j h1 h2 => ?_⟩
      · rw [show k + 1 - 1 - (1 + clzN k v) = k - 1 - clzN k v by omega]
        exact hset (by omega)
      · by_cases hj : j = k
        · rw [hj]; exact Bool.eq_false_iff.2 hk
        · exact hclear j (by omega) (by omega)

/-- The count from the bottom: at most n, with a set bit above it unless it is n, and no set bit in it. -/
theorem ctzN_spec (n v : Nat) :
    ctzN n v ≤ n ∧ (ctzN n v < n → v.testBit (ctzN n v) = true) ∧ ∀ j, j < ctzN n v → v.testBit j = false := by
  induction n generalizing v with
  | zero => simp [ctzN]
  | succ k ih =>
    obtain ⟨hle, hset, hclear⟩ := ih (v / 2)
    by_cases h0 : v.testBit 0 = true
    · simp only [ctzN, if_pos h0]
      exact ⟨by omega, fun _ => h0, fun j h => by omega⟩
    · simp only [ctzN, if_neg h0, Nat.add_comm 1]
      refine ⟨by omega, fun h => ?_, fun j h => ?_⟩
      · rw [Nat.testBit_succ]
        exact hset (by omega)
      · cases j with
        | zero => exact Bool.eq_false_iff.2 h0
        | succ j => rw [Nat.testBit_succ]; exact hclear j (by omega)

theorem popN_eq_countP (n v : Nat) : popN n v = (List.range n).countP fun j => v.testBit j := by
  induction n generalizing v with
  | zero => rfl
  | succ k ih =>
    have hbit : v % 2 = if v.testBit 0 then 1 else 0 := by
      rw [Nat.testBit_zero]; split <;> simp_all
    have hrest : (fun j => v.testBit j) ∘ Nat.succ = fun j => (v / 2).testBit j := funext fun j => Nat.testBit_succ v j
    rw [popN, ih, hbit, List.range_succ_eq_map, List.countP_cons, List.countP_map, hrest, Nat.add_comm]

/-- A word with no set bit below its width is zero. -/
theorem eq_zero_of_getLsbD_false {v : DWord} (h : ∀ j, j < 64 → v.getLsbD j = false) : v = 0 :=
  BitVec.eq_of_getLsbD_eq fun j hj => (h j hj).trans BitVec.getLsbD_zero.symm

theorem leadingZeros_clzN (v : DWord) : LeadingZeros v (clzN 64 v.toNat) := by
  obtain ⟨hle, hset, hclear⟩ := clzN_spec 64 v.toNat
  simp only [BitVec.testBit_toNat] at hset hclear
  refine ⟨fun h => ?_, fun h => ?_, fun j hj => ?_⟩
  · subst h; rfl
  · have hlt : clzN 64 v.toNat < 64 := by
      refine Nat.lt_of_le_of_ne hle fun he => h (eq_zero_of_getLsbD_false fun j hj => hclear j ?_ hj)
      omega
    exact ⟨hlt, hset hlt⟩
  · by_cases h : j < 64
    · exact hclear j hj h
    · exact BitVec.getLsbD_of_ge v j (Nat.not_lt.1 h)

theorem trailingZeros_ctzN (v : DWord) : TrailingZeros v (ctzN 64 v.toNat) := by
  obtain ⟨hle, hset, hclear⟩ := ctzN_spec 64 v.toNat
  simp only [BitVec.testBit_toNat] at hset hclear
  refine ⟨fun h => ?_, fun h => ?_, hclear⟩
  · subst h; rfl
  · have hlt : ctzN 64 v.toNat < 64 := by
      refine Nat.lt_of_le_of_ne hle fun he => h (eq_zero_of_getLsbD_false fun j hj => hclear j ?_)
      omega
    exact ⟨hlt, hset hlt⟩

theorem popN_eq_countP_getLsbD (v : DWord) :
    popN 64 v.toNat = (List.range 64).countP fun j => v.getLsbD j := by
  simp only [popN_eq_countP, BitVec.testBit_toNat]

/-- Byte 7 - j of the swapped word is byte j. -/
theorem byteSwap_byte (v : DWord) (j : Nat) (h : j < 8) :
    (byteSwap v).extractLsb' (8 * (7 - j)) 8 = v.extractLsb' (8 * j) 8 := by
  unfold byteSwap
  match j with
  | 0 | 1 | 2 | 3 | 4 | 5 | 6 | 7 =>
    simp (disch := decide) only [Laws.ex_low, Laws.ex_high, Laws.ex_all, Nat.reduceMul, Nat.reduceSub]

/-! ### Compares (R130, R131) -/

theorem cond_signed_iff (m : Nat) (a b : DWord) : cond true m a b = true ↔ Condition m a.toInt b.toInt := by
  match m with
  | 0 | 1 => simp [cond, Condition, BitVec.toInt_inj]
  | 2 | 3 | 4 | _ + 5 => simp [cond, Condition, BitVec.slt_eq_decide]

theorem cond_unsigned_iff (m : Nat) (a b : DWord) : cond false m a b = true ↔ Condition m a.toNat b.toNat := by
  have heq : a = b ↔ (a.toNat : Int) = b.toNat := BitVec.toNat_inj.symm.trans Int.ofNat_inj.symm
  match m with
  | 0 => exact beq_iff_eq.trans heq
  | 1 => exact bne_iff_ne.trans (not_congr heq)
  | 2 | 3 | 4 | _ + 5 => simp [cond, Condition, BitVec.ult_eq_decide]

/-- The truth value with the same outcome as a condition is the one a compare finds. -/
theorem cond_signed_eq {m : Nat} {a b : DWord} {c : Bool} (h : c = true ↔ Condition m a.toInt b.toInt) :
    cond true m a b = c := Bool.eq_iff_iff.2 ((cond_signed_iff m a b).trans h.symm)

theorem cond_unsigned_eq {m : Nat} {a b : DWord} {c : Bool} (h : c = true ↔ Condition m a.toNat b.toNat) :
    cond false m a b = c := Bool.eq_iff_iff.2 ((cond_unsigned_iff m a b).trans h.symm)

theorem comb_eq_ite (k : BitVec 2) (old c : Bool) (h : k ≠ 3) :
    comb k.toNat old c = if k = 0 then c else if k = 1 then old && c else old || c := by
  revert k old c; decide

/-- CMP and CMPU write the combination of the old predicate with the outcome (R130). -/
theorem comb_cond_eq {k : BitVec 2} {signed : Bool} {m : Nat} {a b : DWord} {old c : Bool} (hk : k ≠ 3)
    (h : cond signed m a b = c) :
    comb k.toNat old (cond signed m a b) = if k = 0 then c else if k = 1 then old && c else old || c :=
  h ▸ comb_eq_ite k old _ hk

theorem toInt_imm8 (i : BitVec 8) : (imm8 i).toInt = i.toInt := BitVec.toInt_signExtend_of_le (by decide)

theorem toNat_zeroExtend_imm8 (i : BitVec 8) : (i.zeroExtend 64).toNat = i.toNat :=
  BitVec.toNat_setWidth_of_le (by decide)

/-! ### Bit fields and funnel shifts (R135 to R138) -/

theorem fieldAmt_eq_amountOf (s : State) (xs : BitVec 5) (xr : BitVec 1) (im : BitVec 6) :
    s.fieldAmt xs xr im = amountOf s xs xr im := by
  rw [State.fieldAmt, amountOf, amt_eq_mod]

theorem getLsbD_lowMask {len : Nat} (h : len ≤ 64) (j : Nat) : (lowMask len).getLsbD j = decide (j < len) := by
  rw [lowMask, BitVec.getLsbD_ofNat, Nat.testBit_two_pow_sub_one, ← Bool.decide_and]
  exact decide_eq_decide.2 (by omega)

/-- BFXU bit by bit: past the field, and past bit 63, there are zeros. -/
theorem getLsbD_fieldOf (v : DWord) (n : Nat) {len : Nat} (h : len ≤ 64) (j : Nat) :
    (fieldOf v n len).getLsbD j = (decide (j < len) && v.getLsbD (n + j)) := by
  rw [fieldOf, BitVec.getLsbD_and, BitVec.getLsbD_ushiftRight, getLsbD_lowMask h, Bool.and_comm]

theorem sgn_eq_toInt {n : Nat} (v : Nat) (h : 1 ≤ n) : sgn n v = (BitVec.ofNat n v).toInt := by
  obtain ⟨k, rfl⟩ : ∃ k, n = k + 1 := ⟨n - 1, by omega⟩
  have hc : v % 2 ^ (k + 1) < 2 ^ k ↔ 2 * (v % 2 ^ (k + 1)) < 2 ^ (k + 1) := by
    rw [Nat.pow_succ]; omega
  rw [sgn, BitVec.toInt_eq_toNat_cond, BitVec.toNat_ofNat, Nat.add_sub_cancel, Int.natCast_emod, Int.natCast_pow]
  by_cases h : v % 2 ^ (k + 1) < 2 ^ k
  · rw [if_pos h, if_pos (hc.1 h)]; rfl
  · rw [if_neg h, if_neg (mt hc.2 h)]; rfl

/-- Sign extension bit by bit: bit n - 1 stands at every place above it. -/
theorem getLsbD_sext64 {n : Nat} (v : Nat) (h : 1 ≤ n) {j : Nat} (hj : j < 64) :
    (sext64 n v).getLsbD j = v.testBit (if j < n then j else n - 1) := by
  have hs : sext64 n v = (BitVec.ofNat n v).signExtend 64 := congrArg (BitVec.ofInt 64) (sgn_eq_toInt v h)
  rw [hs, BitVec.getLsbD_signExtend, BitVec.msb_eq_getLsbD_last, BitVec.getLsbD_ofNat, BitVec.getLsbD_ofNat,
    decide_eq_true hj, decide_eq_true (by omega : n - 1 < n), Bool.true_and, Bool.true_and]
  by_cases hn : j < n
  · rw [if_pos hn, if_pos hn, decide_eq_true hn, Bool.true_and]
  · rw [if_neg hn, if_neg hn]

/-- BFXS bit by bit: the field, and its last bit above it. -/
theorem getLsbD_sext64_fieldOf (v : DWord) (n : Nat) {len j : Nat} (h1 : 1 ≤ len) (h : len ≤ 64) (hj : j < 64) :
    (sext64 len (fieldOf v n len).toNat).getLsbD j = v.getLsbD (n + if j < len then j else len - 1) := by
  have hin : (if j < len then j else len - 1) < len := by split <;> omega
  rw [getLsbD_sext64 _ h1 hj, BitVec.testBit_toNat, getLsbD_fieldOf v n h, decide_eq_true hin, Bool.true_and]

/-- BFI bit by bit: the low bits of a from bit n on, what passes bit 63 being dropped, and d elsewhere. -/
theorem getLsbD_insertField (d a : DWord) (n : Nat) {len j : Nat} (h : len ≤ 64) (hj : j < 64) :
    (insertField d a n len).getLsbD j =
      if n ≤ j ∧ j < n + len then a.getLsbD (j - n) else d.getLsbD j := by
  have hmask : (lowMask len <<< n).getLsbD j = decide (n ≤ j ∧ j < n + len) := by
    rw [BitVec.getLsbD_shiftLeft, getLsbD_lowMask h, ← decide_not, ← Bool.decide_and, ← Bool.decide_and]
    exact decide_eq_decide.2 (by omega)
  simp only [insertField, BitVec.getLsbD_or, BitVec.getLsbD_and, BitVec.getLsbD_not, hmask, decide_eq_true hj]
  split
  · next hin =>
    rw [BitVec.getLsbD_shiftLeft, decide_eq_true hj, decide_eq_false (Nat.not_lt.2 hin.1), decide_eq_true hin]
    simp
  · next hout =>
    rw [decide_eq_false hout]
    simp

theorem funnelL_eq_ofNat (a b : DWord) (n : Nat) :
    funnelL a b n = BitVec.ofNat 64 ((a.toNat * 2 ^ 64 + b.toNat) * 2 ^ n / 2 ^ 64) := by
  apply BitVec.eq_of_toNat_eq
  rw [funnelL, BitVec.extractLsb'_toNat, BitVec.toNat_shiftLeft, toNat_append_eq_add, BitVec.toNat_ofNat,
    Nat.shiftLeft_eq, Nat.shiftRight_eq_div_pow]
  omega

theorem funnelR_eq_ofNat (a b : DWord) (n : Nat) :
    funnelR a b n = BitVec.ofNat 64 ((a.toNat * 2 ^ 64 + b.toNat) / 2 ^ n) := by
  apply BitVec.eq_of_toNat_eq
  rw [funnelR, BitVec.extractLsb'_toNat, BitVec.toNat_ushiftRight, toNat_append_eq_add, BitVec.toNat_ofNat,
    Nat.shiftRight_zero, Nat.shiftRight_eq_div_pow]

/-! ### The obligations -/

/-- Settles O1: every integer and immediate form writes x[d] by wrX, with the value that the rules give. -/
theorem integerResults : Obligations.IntegerResults := by
  unfold Obligations.IntegerResults
  refine ⟨fun s y d a b => ?_, fun s y d a i n w => ?_⟩
  · exact ⟨wrX_gives rfl, wrX_gives rfl, wrX_gives rfl, wrX_gives rfl, wrX_gives rfl, wrX_gives rfl,
      amt_eq_mod (s.rdX b) ▸ wrX_gives rfl,
      amt_eq_mod (s.rdX b) ▸ wrX_gives rfl,
      amt_eq_mod (s.rdX b) ▸ wrX_gives_eq rfl (sshiftRight_eq_ofInt_div _ _),
      wrX_gives_eq rfl (mul_eq_ofNat _ _),
      wrX_gives_eq rfl (mulHigh_eq_ofInt _ _),
      wrX_gives_eq rfl (mulHighU_eq_ofNat _ _),
      wrX_gives_eq rfl (smin_eq_ofInt _ _),
      wrX_gives_eq rfl (smax_eq_ofInt _ _),
      wrX_gives_eq rfl (umin_eq_ofNat _ _),
      wrX_gives_eq rfl (umax_eq_ofNat _ _),
      fun k => shiftLeft_eq_ofNat_mul (s.rdX b) k.toNat ▸ wrX_gives rfl⟩
  · exact ⟨wrX_gives rfl, wrX_gives rfl, wrX_gives rfl, wrX_gives rfl, wrX_gives rfl, wrX_gives rfl,
      wrX_gives_eq rfl (sshiftRight_eq_ofInt_div _ _),
      wrX_gives rfl,
      wrX_gives_eq rfl (append_low_word_eq_ofNat _ _),
      wrX_gives rfl⟩

/-- Settles O2: each instruction writes x[d] by wrX or p[k] by wrP, with the value that the rules give bit by bit. -/
theorem selectCompareFields : Obligations.SelectCompareFields := by
  unfold Obligations.SelectCompareFields
  refine ⟨fun s y d a b c => ?_, fun s y k p m a b i c hk => ?_, fun s y d a b xs xr len im => ?_⟩
  · exact ⟨wrX_gives rfl,
      ⟨_, leadingZeros_clzN _, wrX_gives rfl⟩,
      ⟨_, trailingZeros_ctzN _, wrX_gives rfl⟩,
      popN_eq_countP_getLsbD (s.rdX a) ▸ wrX_gives rfl,
      _, byteSwap_byte _, wrX_gives rfl⟩
  · exact ⟨fun _ h => wrP_gives_eq rfl (comb_cond_eq hk (cond_signed_eq h)),
      fun _ h => wrP_gives_eq rfl (comb_cond_eq hk (cond_unsigned_eq h)),
      fun q => ⟨fun h => wrP_gives_eq rfl (cond_signed_eq (toInt_imm8 i ▸ h)),
        fun h => wrP_gives_eq rfl (cond_unsigned_eq (toNat_zeroExtend_imm8 i ▸ h))⟩⟩
  · simp only [← fieldAmt_eq_amountOf]
    exact ⟨fun h1 h => ⟨⟨_, wrX_gives rfl, getLsbD_fieldOf _ _ h⟩,
        ⟨_, wrX_gives rfl, fun _ => getLsbD_sext64_fieldOf _ _ h1 h⟩,
        _, wrX_gives rfl, fun _ => getLsbD_insertField _ _ _ h⟩,
      funnelL_eq_ofNat (s.rdX a) (s.rdX b) _ ▸ wrX_gives rfl,
      funnelR_eq_ofNat (s.rdX a) (s.rdX b) _ ▸ wrX_gives rfl⟩

end Sys2Proof.Machine
end

section
/-! SUPPORT. Operations along the vector axes (10_vector_axes_and_access.md R235 to R238): what a move and a reduction write,
the tree of pairs of R236 in closed form, and the statement about them. -/

namespace Sys2Proof.Machine

/-! ### Moves (R235, R238) -/

theorem ofNat_el (s : State) (a : BitVec 5) (n j : Nat) : BitVec.ofNat 32 (s.el a n j) = s.word a n j :=
  (BitVec.ofNat_toNat 32 _).trans (BitVec.setWidth_eq _)

theorem flagsOf_zero (s : State) (k : BitVec 1) : FlagsOf s k (fun _ => 0) 0 := by
  intro m _
  simp

/-- Everything that writing values without flags under the mask and completing does. -/
theorem lanes_gives {s : State} {i : Instr} {h : Hdr} {d : BitVec 5} {k : BitVec 1} {b n : Nat} {cross : Bool}
    {f : Nat → Nat × Flags} {g : Nat → Word} {v : List Word} {fl : Flags} (hl : s.lanes k (s.rdV d) f = (v, fl))
    (he : exec i s = .next ((s.wrV d 0 v b cross).finish h n))
    (hv : ∀ j, j < 1024 → BitVec.ofNat 32 (f j).1 = g j) : GivesCross s i h d k g (fun _ => 0) n := by
  obtain ⟨hq, hc, hd, hother, hdone⟩ := wrV_finish s h d 0 v b n cross 0
  have helem := fun j (hj : j < 1024) => lanes_elem s k (s.rdV d) f hj
  rw [hl] at helem
  refine ⟨_, 0, he, hq, hc, fun j hj => ?_, hother, flagsOf_zero s k, hdone⟩
  rw [hd, helem j hj, hv j hj]

/-- What a rotate or a broadcast does: each element comes from the place its map names (R235). -/
theorem moveOp_gives {s : State} {i : Instr} {h : Hdr} {d a : BitVec 5} {k : BitVec 1} {b n : Nat} {cross : Bool}
    {src : Nat → Nat → Nat × Nat} {p : Nat → Nat} (he : exec i s = moveOp h d a k b cross src s)
    (hn : (if cross then b else b + 3) = n)
    (hp : ∀ j, j < 1024 → 64 * (src (j / 64) (j % 64)).1 + (src (j / 64) (j % 64)).2 = p j) :
    GivesCross s i h d k (fun j => s.word a 0 (p j)) (fun _ => 0) n := by
  unfold moveOp at he
  split at he
  next v fl hl =>
    refine lanes_gives (b := b) (cross := cross) hl (he.trans ?_) fun j hj => ?_
    · subst hn
      cases cross <;> rfl
    · rw [← hp j hj]
      exact ofNat_el s a 0 _

theorem exec_vrotr (h : Hdr) (d a : BitVec 5) (k : BitVec 1) (n : BitVec 6) (s : State) :
    exec (.vrotr h d a k n) s = moveOp h d a k 2 false (fun r c => (r, (c + 64 - n.toNat) % 64)) s := rfl

theorem exec_vrotc (h : Hdr) (d a : BitVec 5) (k : BitVec 1) (n : BitVec 4) (s : State) :
    exec (.vrotc h d a k n) s = moveOp h d a k 5 true (fun r c => ((r + 16 - n.toNat) % 16, c)) s := rfl

theorem exec_vbcr (h : Hdr) (d a : BitVec 5) (k : BitVec 1) (n : BitVec 6) (s : State) :
    exec (.vbcr h d a k n) s = moveOp h d a k 2 false (fun r _ => (r, n.toNat)) s := rfl

theorem exec_vbcc (h : Hdr) (d a : BitVec 5) (k : BitVec 1) (n : BitVec 4) (s : State) :
    exec (.vbcc h d a k n) s = moveOp h d a k 5 true (fun _ c => (n.toNat, c)) s := rfl

/-- An index with bit 31 set names no element (R238). -/
theorem bit_31_iff (w : Word) : bit w.toNat 31 = true ↔ 2 ^ 31 ≤ w.toNat := by
  have := w.isLt
  rw [bit, Nat.testBit_eq_decide_div_mod_eq, decide_eq_true_iff]
  omega

theorem permSrc_eq (row : Bool) (r : Nat) (w : Word) :
    permSrc row r w.toNat =
      if 2 ^ 31 ≤ w.toNat then none else some (if row then 64 * r + bits w.toNat 0 6 else bits w.toNat 0 10) := by
  by_cases h : 2 ^ 31 ≤ w.toNat
  · rw [if_pos h]
    exact if_pos ((bit_31_iff w).2 h)
  · rw [if_neg h]
    exact if_neg (mt (bit_31_iff w).1 h)

theorem bits_zero (v n : Nat) : bits v 0 n = v % 2 ^ n := by
  rw [bits, Nat.pow_zero, Nat.div_one]

theorem permSrc_row (r : Nat) (w : Word) :
    permSrc true r w.toNat = if 2 ^ 31 ≤ w.toNat then none else some (64 * r + w.toNat % 64) := by
  have h : w.toNat % 2 ^ 6 = w.toNat % 64 := rfl
  rw [permSrc_eq, if_pos rfl, bits_zero, h]

theorem permSrc_full (r : Nat) (w : Word) :
    permSrc false r w.toNat = if 2 ^ 31 ≤ w.toNat then none else some (64 * (w.toNat / 64 % 16) + w.toNat % 64) := by
  have h : w.toNat % 2 ^ 10 = 64 * (w.toNat / 64 % 16) + w.toNat % 64 := by omega
  rw [permSrc_eq, if_neg Bool.false_ne_true, bits_zero, h]

/-- What VPERM does: each element comes from the place its index names, or is 0 where it names none. -/
theorem vperm_gives {s : State} {h : Hdr} {d a b : BitVec 5} {k : BitVec 1} {o : BitVec 2} {p : Nat → Nat}
    (hp : ∀ j, permSrc (o == 1) (j / 64) (s.word b 0 j).toNat = if 2 ^ 31 ≤ (s.word b 0 j).toNat then none else some (p j)) :
    GivesCross s (.vperm h d a b k o) h d k
      (fun j => if 2 ^ 31 ≤ (s.word b 0 j).toNat then 0 else s.word a 0 (p j)) (fun _ => 0) 24 := by
  have he : exec (.vperm h d a b k o) s = execVperm h d a b k o s := rfl
  unfold execVperm at he
  split at he
  next v fl hl =>
    refine lanes_gives hl he fun j _ => ?_
    change BitVec.ofNat 32 (match permSrc (o == 1) (j / 64) (s.word b 0 j).toNat with
      | none => plain 0 | some j => plain (s.el a 0 j)).1 = _
    rw [hp j]
    by_cases hi : 2 ^ 31 ≤ (s.word b 0 j).toNat
    · rw [if_pos hi, if_pos hi]
      rfl
    · rw [if_neg hi, if_neg hi]
      exact ofNat_el s a 0 _

/-! ### The tree of pairs (R236) -/

/-- The value an operation gives, without its flags. -/
def valueOf (op : Nat → Nat → Nat × Flags) (x y : Nat) : Nat := (op x y).1

/-- One level of the tree puts the value of each pair of neighbours. -/
theorem reduceLevel_range (op : Nat → Nat → Nat × Flags) (n : Nat) (e : Nat → Nat) :
    (reduceLevel op ((List.range (2 * n)).map e)).1 =
      (List.range n).map fun i => valueOf op (e (2 * i)) (e (2 * i + 1)) := by
  induction n generalizing e with
  | zero => rfl
  | succ n ih =>
    have hl : (List.range (2 * (n + 1))).map e = e 0 :: e 1 :: (List.range (2 * n)).map fun j => e (j + 2) := by
      rw [Nat.mul_succ, List.range_succ_eq_map, List.range_succ_eq_map]
      simp [Function.comp_def]
    rw [hl, List.range_succ_eq_map, List.map_cons, List.map_map]
    exact congrArg (valueOf op (e 0) (e 1) :: ·) (ih fun j => e (j + 2))

theorem treeOf_succ (o : Nat → Nat → Nat) (e : Nat → Nat) (n i : Nat) :
    treeOf o e (n + 1) i = o (treeOf o e n (2 * i)) (treeOf o e n (2 * i + 1)) := rfl

/-- A tree over the values of pairs is the tree one level higher. -/
theorem treeOf_pairs (o : Nat → Nat → Nat) (e : Nat → Nat) (n i : Nat) :
    treeOf o (fun j => o (e (2 * j)) (e (2 * j + 1))) n i = treeOf o e (n + 1) i := by
  induction n generalizing i with
  | zero => rfl
  | succ n ih => rw [treeOf_succ _ _ n, treeOf_succ _ _ (n + 1), ih, ih]

/-- Reduce of R236, run level by level on a list, is the tree over its elements. -/
theorem reduceTree_eq_treeOf (op : Nat → Nat → Nat × Flags) (n : Nat) (e : Nat → Nat) (f : Flags) :
    (reduceTree op n ((List.range (2 ^ n)).map e, f)).1 = treeOf (valueOf op) e n 0 := by
  induction n generalizing e f with
  | zero => rfl
  | succ n ih =>
    change (reduceTree op n ((reduceLevel op _).1, _)).1 = _
    rw [Nat.pow_succ', reduceLevel_range, ih, treeOf_pairs]

/-! ### Reductions (R236) -/

theorem low_eq_toNat_ofInt (n : Nat) (v : Int) : low n v = (BitVec.ofInt n v).toNat := by
  rw [low, BitVec.toNat_ofInt]
  norm_cast

/-- Op of R236: the wrapping sum and the signed extrema of I32, else the operations of the format. -/
theorem valueOf_reduceOp {op : BitVec 2} (ty : BitVec 2) (h : op ≠ 3) (x y : Nat) :
    valueOf (reduceOp op.toNat ty.toNat) x y =
      if ty = 3 then
        (BitVec.ofInt 32 (if op = 0 then (BitVec.ofNat 32 x).toInt + (BitVec.ofNat 32 y).toInt
          else if op = 1 then max (BitVec.ofNat 32 x).toInt (BitVec.ofNat 32 y).toInt
          else min (BitVec.ofNat 32 x).toInt (BitVec.ofNat 32 y).toInt)).toNat
      else if op = 0 then (fAdd (fmtOf ty.toNat) x y).1 else if op = 1 then fMax (fmtOf ty.toNat) x y
      else fMin (fmtOf ty.toNat) x y := by
  have ht : ty.toNat = 3 ↔ ty = 3 := BitVec.toNat_inj (y := 3#2)
  have ho : op = 0 ∨ op = 1 ∨ op = 2 := by revert op; decide
  simp only [← low_eq_toNat_ofInt, ← sgn_eq_toInt _ (by decide : 1 ≤ 32)]
  unfold valueOf reduceOp
  by_cases hty : ty = 3
  · rw [if_pos (ht.2 hty), if_pos hty]
    obtain rfl | rfl | rfl := ho <;> rfl
  · rw [if_neg (mt ht.1 hty), if_neg hty]
    obtain rfl | rfl | rfl := ho <;> rfl

theorem asTy_eq (ty : BitVec 2) (v : Nat) : asTy ty.toNat v = if ty = 1 ∨ ty = 2 then v % 2 ^ 16 else v := by
  simp only [asTy, ← BitVec.toNat_inj]
  rfl

/-- The result of one line of a reduction. -/
theorem reduceLines_value (s : State) (a : BitVec 5) (op ty lines levels : Nat) (at_ : Nat → Nat → Nat) {l : Nat}
    (hl : l < lines) :
    ((reduceLines s a op ty lines levels at_).getD l (0, 0)).1 =
      treeOf (valueOf (reduceOp op ty)) (fun j => asTy ty (s.el a 0 (at_ l j))) levels 0 := by
  rw [reduceLines, List.getD_eq_getElem?_getD, List.getElem?_map, List.getElem?_range hl]
  exact reduceTree_eq_treeOf _ _ _ _

/-- Writing a vector register whole and completing. -/
theorem wrV_writes {s : State} {i : Instr} {h : Hdr} {d : BitVec 5} {f g : Nat → Word} {b n : Nat} {cross : Bool}
    {fl : BitVec 10} (he : exec i s = .next ((s.wrV d 0 (vecOf f) b cross).finish h n fl))
    (hv : ∀ j, j < 1024 → f j = g j) : WritesV s i d g := by
  obtain ⟨hq, hc, hd, hother, -⟩ := wrV_finish s h d 0 (vecOf f) b n cross fl
  refine ⟨_, he, hq, hc, fun j hj => ?_, hother⟩
  rw [hd, elem_vecOf f hj, hv j hj]

/-! ### The obligation -/

/-- Settles O17: the moves by the place each element comes from, the reductions by the tree that their levels build. -/
theorem vectorMoves : Obligations.VectorMoves := by
  unfold Obligations.VectorMoves
  refine ⟨fun s h d a b k n m => ?_, fun s h d a bc ty op hop => ?_⟩
  · exact ⟨moveOp_gives (exec_vrotr ..) rfl fun j _ => by have := n.isLt; dsimp only; omega,
      moveOp_gives (exec_vrotc ..) rfl fun j _ => by have := m.isLt; dsimp only; omega,
      moveOp_gives (exec_vbcr ..) rfl fun _ _ => rfl,
      moveOp_gives (exec_vbcc ..) rfl fun _ _ => rfl,
      vperm_gives fun _ => permSrc_full _ _,
      vperm_gives fun _ => permSrc_row _ _⟩
  · simp only [← asTy_eq, ← valueOf_reduceOp ty hop]
    refine ⟨wrV_writes rfl fun j hj => ?_, wrV_writes rfl fun j hj => ?_⟩
    · rw [reduceLines_value _ _ _ _ _ _ _ (by omega : j / 64 < 16)]
      rfl
    · rw [reduceLines_value _ _ _ _ _ _ _ (by omega : j % 64 < 64)]
      simp only [Nat.div_eq_zero_iff_lt (by decide : 0 < 64)]
      rfl

end Sys2Proof.Machine
end

section
/-! SUPPORT. One execution of a pontoon slot (13_pontoon_fabric.md R309 to R315): the rows it reads, the ways it can go, the
elements its operation writes, and the statement about them. -/

namespace Sys2Proof.Machine

/-! ### The rows an execution reads (R309, R310) -/

section
variable (w : Nat) (file consts : List Row) (port : Nat → Row)

/-- The row that selector i of a slot word names. -/
abbrev ponOperand (i : Nat) : Row := operandOf (slotSel w i) file consts port

/-- What an execution reads as A, B and C: the zero row where its operation uses none. -/
def ponReads (i : Nat) : Row := if i < slotUses (slotOp w) then ponOperand w file consts port i else zeroRow

/-- The operands that the operation uses. -/
def ponUsed : List Row :=
  [ponReads w file consts port 0, ponReads w file consts port 1, ponReads w file consts port 2].take (slotUses (slotOp w))

/-- The rows whose HOLE makes the result a HOLE: the operands, and F0 of an operation that runs on from it (R313). -/
def ponHoles : List Row :=
  (ponUsed w file consts port ++ if slotOp w = 14 ∨ slotOp w = 15 ∨ slotOp w = 16 then [file.getD 0 {}] else []).filter
    fun r => r.pres == .hole

/-- The result is EMPTY for an EMPTY operand; that of PMERGE, for two. -/
def ponSkips : Bool :=
  if slotOp w = 18 then
    (ponReads w file consts port 0).pres == .empty && (ponReads w file consts port 1).pres == .empty
  else (ponUsed w file consts port).any fun r => r.pres == .empty

/-- What the operation comes to on the rows read: PMERGE goes on with B for an EMPTY A. -/
def ponComputes : PonRes :=
  ponOp w (if slotOp w = 18 ∧ (ponReads w file consts port 0).pres = .empty then ponReads w file consts port 1
    else ponReads w file consts port 0) (ponReads w file consts port 1) (ponReads w file consts port 2) (file.getD 0 {})

/-- What a row fault comes to under the policy of the slot (R315, R319): the row, the fault, and whether PROUTE diverted. -/
def ponFaulted (tag : Origin) (cause m : Nat) :
    Row × Option (Nat × Nat × List Word × List Word × List Word) × Bool :=
  let els := (ponComputes w file consts port).els
  let off := List.replicate 64 (0 : Word)
  let fl := (cause, m, els, if slotUses (slotOp w) < 1 then off else (ponReads w file consts port 0).els,
    if slotUses (slotOp w) < 2 then off else (ponReads w file consts port 1).els)
  if (ponUsed w file consts port).any fun r => r.pres == .empty then (Row.of els, none, false)
  else if slotPol w = 2 then
    (holeRow (slotTy w) { tag with cause := cause }, some fl,
      slotOp w == 20 && slotOut w &&& ((ponReads w file consts port 1).at_ 0 % 16) == 0)
  else (Row.of els, some fl, false)

/-- The result of an execution with its row fault, by the three ways an execution can go. -/
def ponOutcome (tag : Origin) : Row × Option (Nat × Nat × List Word × List Word × List Word) × Bool :=
  if ponSkips w file consts port then ({}, none, false)
  else
    match ponHoles w file consts port with
    | h :: _ => (h, none, false)
    | [] =>
      match (ponComputes w file consts port).fault with
      | none => (Row.of (ponComputes w file consts port).els, none, false)
      | some (cause, m) => ponFaulted w file consts port tag cause m

theorem ponUsed_eq_map :
    ponUsed w file consts port = (List.range (slotUses (slotOp w))).map (ponOperand w file consts port) := by
  have huses : slotUses (slotOp w) ≤ 3 := by
    unfold slotUses
    split <;> decide
  unfold ponUsed ponReads
  generalize slotUses (slotOp w) = u at huses
  match u, huses with
  | 0, _ | 1, _ | 2, _ | 3, _ => rfl

end

section
variable {w : Nat} {file consts : List Row} {port : Nat → Row} {n : Nat} {tag : Origin}

theorem ponExec_res : (ponExec w file consts port n tag).res = (ponOutcome w file consts port tag).1 := rfl

theorem ponExec_fault : (ponExec w file consts port n tag).fault = (ponOutcome w file consts port tag).2.1 := rfl

theorem ponExec_out : (ponExec w file consts port n tag).out =
    if slotOp w = 17 then file.getD (slotParam w % 8) {} else (ponExec w file consts port n tag).res := rfl

theorem ponExec_ports_of_empty (h : (ponExec w file consts port n tag).out.pres = .empty) :
    (ponExec w file consts port n tag).ports = 0 := if_pos h

theorem ponExec_ports_pdly (hop : slotOp w = 17) (h : (ponExec w file consts port n tag).out.pres ≠ .empty) :
    (ponExec w file consts port n tag).ports = slotOut w := by
  refine (if_neg h).trans ?_
  simp only [portsOf, hop]

/-- Every operation but PDLY emits its result. -/
theorem ponExec_emits_res (hop : slotOp w ≠ 17) :
    (ponExec w file consts port n tag).out = (ponExec w file consts port n tag).res := by
  rw [ponExec_out, if_neg hop]

/-! ### When an execution skips, passes a HOLE on, or computes (R309, R312, R313) -/

theorem ponReads_of_lt {i : Nat} (h : i < slotUses (slotOp w)) :
    ponReads w file consts port i = ponOperand w file consts port i := if_pos h

theorem ponUsed_any_empty : ((ponUsed w file consts port).any fun r => r.pres == .empty) = true ↔
    ∃ i, i < slotUses (slotOp w) ∧ (ponOperand w file consts port i).pres = .empty := by
  simp [ponUsed_eq_map]

theorem ponSkips_iff (hop : slotOp w ≠ 18) : ponSkips w file consts port = true ↔
    ∃ i, i < slotUses (slotOp w) ∧ (ponOperand w file consts port i).pres = .empty := by
  rw [ponSkips, if_neg hop, ponUsed_any_empty]

theorem ponSkips_merge_iff (hop : slotOp w = 18) : ponSkips w file consts port = true ↔
    (ponOperand w file consts port 0).pres = .empty ∧ (ponOperand w file consts port 1).pres = .empty := by
  rw [ponSkips, if_pos hop, ponReads_of_lt (by rw [hop]; decide), ponReads_of_lt (by rw [hop]; decide)]
  simp

/-- Nothing stops an execution whose operands, and whose F0 where it runs on from it, are no HOLE. -/
theorem ponHoles_eq_nil
    (hx : ∀ i, i < slotUses (slotOp w) → (ponOperand w file consts port i).pres ≠ .hole)
    (hf : slotOp w = 14 ∨ slotOp w = 15 ∨ slotOp w = 16 → (file.getD 0 {}).pres ≠ .hole) :
    ponHoles w file consts port = [] := by
  rw [ponHoles, List.filter_eq_nil_iff, ponUsed_eq_map]
  intro r hr
  rcases List.mem_append.mp hr with hr | hr
  · obtain ⟨i, hi, rfl⟩ := List.mem_map.mp hr
    simpa using hx i (List.mem_range.mp hi)
  · split at hr
    case isTrue hop => rw [List.mem_singleton.mp hr]; simpa using hf hop
    case isFalse => cases hr

/-- The first HOLE among the operands is the first of the holes. -/
theorem ponHoles_head_operand {i : Nat} (hi : i < slotUses (slotOp w))
    (hole : (ponOperand w file consts port i).pres = .hole)
    (hbefore : ∀ j, j < i → (ponOperand w file consts port j).pres = .valid) :
    (ponHoles w file consts port).head? = some (ponOperand w file consts port i) := by
  have hfirst : (List.range (slotUses (slotOp w))).find?
      (fun j => (ponOperand w file consts port j).pres == .hole) = some i := by
    rw [List.find?_range_eq_some]
    refine ⟨by simpa using hole, List.mem_range.mpr hi, fun j hj => ?_⟩
    rw [hbefore j hj]
    rfl
  rw [ponHoles, List.head?_filter, List.find?_append, ponUsed_eq_map, List.find?_map]
  simp only [Function.comp_def, hfirst, Option.map_some, Option.some_or]

/-- A HOLE in F0 stops an operation that runs on from it, whose operands are VALID (R313). -/
theorem ponHoles_head_file (hop : slotOp w = 14 ∨ slotOp w = 15 ∨ slotOp w = 16)
    (hx : ∀ i, i < slotUses (slotOp w) → (ponOperand w file consts port i).pres = .valid)
    (hole : (file.getD 0 {}).pres = .hole) :
    (ponHoles w file consts port).head? = some (file.getD 0 {}) := by
  have hnone : (ponUsed w file consts port).find? (fun r => r.pres == .hole) = none := by
    rw [List.find?_eq_none, ponUsed_eq_map]
    intro r hr
    obtain ⟨i, hi, rfl⟩ := List.mem_map.mp hr
    simp [hx i (List.mem_range.mp hi)]
  rw [ponHoles, List.head?_filter, List.find?_append, hnone, if_pos hop, Option.none_or,
    List.find?_cons_of_pos (by simpa using hole)]

/-! ### The result of an execution, by the way it goes (R309, R315, R319) -/

theorem ponExec_of_skips (h : ponSkips w file consts port = true) :
    (ponExec w file consts port n tag).res = {} ∧ (ponExec w file consts port n tag).fault = none := by
  rw [ponExec_res, ponExec_fault, ponOutcome, if_pos h]
  exact ⟨rfl, rfl⟩

theorem ponExec_of_hole {r : Row} (h : ¬ ponSkips w file consts port = true)
    (hr : (ponHoles w file consts port).head? = some r) :
    (ponExec w file consts port n tag).res = r ∧ (ponExec w file consts port n tag).fault = none := by
  obtain ⟨rest, hrest⟩ := List.head?_eq_some_iff.mp hr
  rw [ponExec_res, ponExec_fault, ponOutcome, if_neg h, hrest]
  exact ⟨rfl, rfl⟩

/-- The elements of the operation are the result, but under DIVERT after a row fault. -/
theorem ponExec_computes (h : ¬ ponSkips w file consts port = true) (hh : ponHoles w file consts port = [])
    (hp : (ponComputes w file consts port).fault = none ∨ slotPol w ≠ 2 ∨
      ((ponUsed w file consts port).any fun r => r.pres == .empty) = true) :
    (ponExec w file consts port n tag).res = Row.of (ponComputes w file consts port).els := by
  rw [ponExec_res, ponOutcome, if_neg h, hh]
  dsimp only
  split
  case h_1 => rfl
  case h_2 cause m hf =>
    rw [ponFaulted]
    split
    · rfl
    case isFalse hany =>
      have hpol : slotPol w ≠ 2 := (hp.resolve_left (by simp [hf])).resolve_right hany
      rw [if_neg hpol]

/-- An execution that meets an EMPTY operand raises no row fault (R315). -/
theorem ponExec_fault_of_empty (h : ¬ ponSkips w file consts port = true) (hh : ponHoles w file consts port = [])
    (hany : ((ponUsed w file consts port).any fun r => r.pres == .empty) = true) :
    (ponExec w file consts port n tag).fault = none := by
  rw [ponExec_fault, ponOutcome, if_neg h, hh]
  dsimp only
  split
  · rfl
  · rw [ponFaulted, if_pos hany]

/-- A row fault under DIVERT makes the row a HOLE with the origin of this execution (R319). -/
theorem ponExec_diverts {cause m : Nat} (h : ¬ ponSkips w file consts port = true)
    (hh : ponHoles w file consts port = []) (hany : ¬ ((ponUsed w file consts port).any fun r => r.pres == .empty) = true)
    (hf : (ponComputes w file consts port).fault = some (cause, m)) (hpol : slotPol w = 2) :
    (ponExec w file consts port n tag).res = holeRow (slotTy w) { tag with cause := cause } := by
  rw [ponExec_res, ponOutcome, if_neg h, hh]
  dsimp only
  rw [hf]
  dsimp only
  rw [ponFaulted, if_neg hany, if_pos hpol]

end

/-! ### The file rotates (R309) -/

theorem length_rotateFile (file : List Row) (r : Row) : (rotateFile file r).length = 8 := by
  simp [rotateFile]

theorem rotateFile_getD_succ (file : List Row) (r : Row) {j : Nat} (h : j < 7) :
    (rotateFile file r).getD (j + 1) {} = file.getD j {} := by
  rw [rotateFile, List.getD_cons_succ, List.getD_eq_getElem?_getD, List.getD_eq_getElem?_getD, List.getElem?_take_of_lt h]
  rcases Nat.lt_or_ge j file.length with hj | hj
  · rw [List.getElem?_append_left hj]
  · rw [List.getElem?_append_right hj, List.getElem?_eq_none hj, List.getElem?_replicate]
    split <;> rfl

/-! ### The elements an operation writes (R311) -/

/-- F0 as an operation reads it: EMPTY, the zero row, in PAMAX A. -/
def ponF0 (w : Nat) (a f : Row) : Row := if f.pres = .empty then (if slotOp w = 15 then a else zeroRow) else f

theorem ponOp_els (w : Nat) (a b c f : Row) : (ponOp w a b c f).els = (List.range 64).map fun j => BitVec.ofNat 32
    (pelem (slotOp w) (slotTy w) (slotParam w) (a.at_ j) (b.at_ j) (c.at_ j) ((ponF0 w a f).at_ j)).1 :=
  List.map_map

/-- Each element of a result comes from the same element of the operands. -/
theorem ponOp_at (w : Nat) (a b c f : Row) {j : Nat} (h : j < 64) : ((ponOp w a b c f).els.getD j 0).toNat =
    (pelem (slotOp w) (slotTy w) (slotParam w) (a.at_ j) (b.at_ j) (c.at_ j) ((ponF0 w a f).at_ j)).1 % 2 ^ 32 := by
  rw [ponOp_els, List.getD_eq_getElem?_getD, List.getElem?_map, List.getElem?_range h]
  exact BitVec.toNat_ofNat ..

/-- PDLY and PMERGE hand the elements of their row on. -/
theorem ponOp_els_of_copy {w : Nat} (hop : slotOp w = 17 ∨ slotOp w = 18) (a b c f : Row) :
    (ponOp w a b c f).els = (List.range 64).map fun j => BitVec.ofNat 32 (a.at_ j) := by
  rw [ponOp_els]
  rcases hop with hop | hop <;> rw [hop] <;> rfl

theorem Row.at_lt (r : Row) (j : Nat) : r.at_ j < 2 ^ 32 := (r.els.getD j 0).isLt

theorem zeroRow_at (j : Nat) : zeroRow.at_ j = 0 := by
  simp only [Row.at_, zeroRow, Row.of, List.getD_eq_getElem?_getD, List.getElem?_replicate]
  split <;> rfl

/-- The exact arithmetic of I32, wrapped to 32 bits. -/
theorem ponOp_int {w op : Nat} (hty : slotTy w = 3) (hw : slotOp w = op)
    (hop : op ∈ [2, 3, 4, 5, 9, 14]) (a b c f : Row) {j : Nat} (h : j < 64) :
    ((ponOp w a b c f).els.getD j 0).toNat =
      (intElem op (sgn 32 (a.at_ j)) (sgn 32 (b.at_ j)) (sgn 32 (c.at_ j)) (sgn 32 ((ponF0 w a f).at_ j))
        % 2 ^ 32).toNat := by
  have helem : ∀ op ∈ [2, 3, 4, 5, 9, 14], ∀ p x y z v, (pelem op 3 p x y z v).1 =
      low 32 (intElem op (sgn 32 x) (sgn 32 y) (sgn 32 z) (sgn 32 v)) := by
    simp only [List.forall_mem_cons]
    exact ⟨fun _ _ _ _ _ => rfl, fun _ _ _ _ _ => rfl, fun _ _ _ _ _ => rfl, fun _ _ _ _ _ => rfl,
      fun _ _ _ _ _ => rfl, fun _ _ _ _ _ => rfl, fun _ h => nomatch h⟩
  rw [ponOp_at w a b c f h, hty, hw, helem op hop, low]
  omega

/-- The arithmetic of a floating type, on the elements as that type reads them. -/
theorem ponOp_float {w op : Nat} (hty : slotTy w < 3) (hw : slotOp w = op)
    (hop : op ∈ [2, 3, 4, 5, 6, 7]) (a b c f : Row) {j : Nat} (h : j < 64) :
    ((ponOp w a b c f).els.getD j 0).toNat =
      floatElem op (slotTy w) (asFt (slotTy w) (a.at_ j)) (asFt (slotTy w) (b.at_ j)) (asFt (slotTy w) (c.at_ j))
        (asFt (slotTy w) ((ponF0 w a f).at_ j)) % 2 ^ 32 := by
  have helem : ∀ op ∈ [2, 3, 4, 5, 6, 7], ∀ ty < 3, ∀ p x y z v, (pelem op ty p x y z v).1 =
      floatElem op ty (asFt ty x) (asFt ty y) (asFt ty z) (asFt ty v) := by
    intro op hop ty hty p x y z v
    have hne : ty ≠ 3 := by omega
    simp only [List.mem_cons, List.not_mem_nil, or_false] at hop
    rcases hop with rfl | rfl | rfl | rfl | rfl | rfl <;> simp only [pelem, if_neg hne]
  rw [ponOp_at w a b c f h, hw, helem op hop _ hty]

/-- PACC adds to F0, which reads as 0 while it is EMPTY (R312). -/
theorem ponOp_pacc_int {w : Nat} (hty : slotTy w = 3) (hw : slotOp w = 14) (a b c f : Row) {j : Nat} (h : j < 64) :
    ((ponOp w a b c f).els.getD j 0).toNat =
      ((sgn 32 (a.at_ j) + if f.pres = Pres.empty then 0 else sgn 32 (f.at_ j)) % 2 ^ 32).toNat := by
  have hf0 : sgn 32 ((ponF0 w a f).at_ j) = if f.pres = .empty then 0 else sgn 32 (f.at_ j) := by
    rw [ponF0, if_neg (show slotOp w ≠ 15 by omega)]
    split
    · rw [zeroRow_at]; rfl
    · rfl
  rw [ponOp_int hty hw (by decide) a b c f h, hf0, Int.add_comm]
  rfl

/-- An element that an operation gives as a number of 32 bits is written as it is. -/
theorem ponOp_bits {w op v : Nat} (hw : slotOp w = op) (a b c f : Row) {j : Nat} (h : j < 64) (hv : v < 2 ^ 32)
    (he : (pelem op (slotTy w) (slotParam w) (a.at_ j) (b.at_ j) (c.at_ j) ((ponF0 w a f).at_ j)).1 = v) :
    ((ponOp w a b c f).els.getD j 0).toNat = v := by
  rw [ponOp_at w a b c f h, hw, he, Nat.mod_eq_of_lt hv]

/-! ### The clauses of the obligation -/

section
variable {w : Nat} {file consts : List Row} {port : Nat → Row} {n : Nat} {tag : Origin}

/-- An EMPTY operand gives EMPTY and sends nothing (R309). -/
theorem ponExec_empty (h17 : slotOp w ≠ 17) (hskip : ponSkips w file consts port = true) :
    let r := ponExec w file consts port n tag
    r.res = {} ∧ r.ports = 0 ∧ r.fault = none := by
  obtain ⟨hres, hfault⟩ := ponExec_of_skips (n := n) (tag := tag) hskip
  exact ⟨hres, ponExec_ports_of_empty (by rw [ponExec_emits_res h17, hres]), hfault⟩

/-- A HOLE that goes through is both the result and the row emitted (R309). -/
theorem ponExec_hole {r : Row} (h17 : slotOp w ≠ 17) (hskip : ¬ ponSkips w file consts port = true)
    (hr : (ponHoles w file consts port).head? = some r) :
    let e := ponExec w file consts port n tag
    e.res = r ∧ e.out = r ∧ e.fault = none := by
  obtain ⟨hres, hfault⟩ := ponExec_of_hole (n := n) (tag := tag) hskip hr
  exact ⟨hres, (ponExec_emits_res h17).trans hres, hfault⟩

/-- The result of PDLY is A, EMPTY and HOLE included (R312). -/
theorem ponExec_pdly_res (hop : slotOp w = 17) :
    let x := ponOperand w file consts port 0
    let r := ponExec w file consts port n tag
    (x.pres = .hole → r.res = x) ∧ (x.pres = .empty → r.res = {}) ∧
      (x.pres = .valid → slotPol w ≠ 2 → r.res = Row.of ((List.range 64).map fun j => BitVec.ofNat 32 (x.at_ j))) := by
  intro x r
  have huses : slotUses (slotOp w) = 1 := by rw [hop]; rfl
  have hskips : ponSkips w file consts port = true ↔ x.pres = .empty := by
    simp [ponSkips_iff (show slotOp w ≠ 18 by omega), huses, x]
  refine ⟨fun hx => ?_, fun hx => (ponExec_of_skips (hskips.mpr hx)).1, fun hx hpol => ?_⟩
  · refine (ponExec_of_hole (mt hskips.mp (by simp [hx])) (ponHoles_head_operand (by omega) hx fun j hj => ?_)).1
    omega
  · have hcomputes : (ponComputes w file consts port).els = (List.range 64).map fun j => BitVec.ofNat 32 (x.at_ j) := by
      rw [ponComputes, if_neg (by omega), ponOp_els_of_copy (.inl hop), ponReads_of_lt (by omega)]
    rw [← hcomputes]
    refine ponExec_computes (mt hskips.mp (by simp [hx])) (ponHoles_eq_nil (fun i hi => ?_) (by omega)) (.inr (.inl hpol))
    rw [show i = 0 by omega]
    simp [x, hx]

/-- PMERGE gives A where it is there, else B (R309, R311). -/
theorem ponExec_pmerge (hop : slotOp w = 18) :
    let a := ponOperand w file consts port 0
    let b := ponOperand w file consts port 1
    let r := ponExec w file consts port n tag
    (a.pres = .empty → b.pres = .empty → r.res = {} ∧ r.ports = 0) ∧
      (a.pres = .empty → b.pres = .valid →
        r.res = Row.of ((List.range 64).map fun j => BitVec.ofNat 32 (b.at_ j)) ∧ r.fault = none) ∧
      (a.pres = .valid → b.pres ≠ .hole → slotPol w ≠ 2 →
        r.res = Row.of ((List.range 64).map fun j => BitVec.ofNat 32 (a.at_ j))) := by
  intro a b r
  have huses : slotUses (slotOp w) = 2 := by rw [hop]; rfl
  have hskips : ponSkips w file consts port = true ↔ a.pres = .empty ∧ b.pres = .empty := ponSkips_merge_iff hop
  have hnil (ha : a.pres ≠ .hole) (hb : b.pres ≠ .hole) : ponHoles w file consts port = [] := by
    refine ponHoles_eq_nil (fun i hi => ?_) (by omega)
    obtain rfl | rfl : i = 0 ∨ i = 1 := by omega
    · exact ha
    · exact hb
  have hels : (ponComputes w file consts port).els =
      (List.range 64).map fun j => BitVec.ofNat 32 ((if a.pres = .empty then b else a).at_ j) := by
    simp only [ponComputes, ponOp_els_of_copy (.inr hop), ponReads_of_lt (show 0 < slotUses (slotOp w) by omega),
      ponReads_of_lt (show 1 < slotUses (slotOp w) by omega), hop, true_and, a, b]
  refine ⟨fun ha hb => ?_, fun ha hb => ?_, fun ha hb hpol => ?_⟩
  · obtain ⟨hres, hports, -⟩ := ponExec_empty (n := n) (tag := tag) (by omega) (hskips.mpr ⟨ha, hb⟩)
    exact ⟨hres, hports⟩
  · have hskip := mt hskips.mp (by simp [hb])
    have hany := ponUsed_any_empty.mpr ⟨0, show 0 < slotUses (slotOp w) by omega, ha⟩
    have hholes := hnil (by simp [ha]) (by simp [hb])
    refine ⟨?_, ponExec_fault_of_empty hskip hholes hany⟩
    rw [if_pos ha] at hels
    rw [← hels]
    exact ponExec_computes hskip hholes (.inr (.inr hany))
  · have hskip := mt hskips.mp (by simp [ha])
    rw [if_neg (by simp [ha])] at hels
    rw [← hels]
    exact ponExec_computes hskip (hnil (by simp [ha]) hb) (.inr (.inl hpol))

/-- The elements of the operation are the result and go out, unless a row fault makes the row a HOLE under DIVERT. -/
theorem ponExec_valid (h17 : slotOp w ≠ 17) (h18 : slotOp w ≠ 18)
    (hx : ∀ i, i < slotUses (slotOp w) → (ponOperand w file consts port i).pres = .valid)
    (hf : slotOp w = 14 ∨ slotOp w = 15 ∨ slotOp w = 16 → (file.getD 0 {}).pres ≠ .hole) :
    let e := ponComputes w file consts port
    let r := ponExec w file consts port n tag
    (e.fault = none ∨ slotPol w ≠ 2 → r.res = Row.of e.els ∧ r.out = r.res) ∧
      ∀ cause m, e.fault = some (cause, m) → slotPol w = 2 →
        r.res = holeRow (slotTy w) { tag with cause := cause } ∧ r.out = r.res := by
  have hnone : ¬ ∃ i, i < slotUses (slotOp w) ∧ (ponOperand w file consts port i).pres = .empty := by
    rintro ⟨i, hi, hempty⟩
    simp [hx i hi] at hempty
  have hskip := mt (ponSkips_iff h18).mp hnone
  have hholes : ponHoles w file consts port = [] := ponHoles_eq_nil (fun i hi => by simp [hx i hi]) hf
  exact ⟨fun hp => ⟨ponExec_computes hskip hholes (hp.imp_right .inl), ponExec_emits_res h17⟩,
    fun cause m hfault hpol =>
      ⟨ponExec_diverts hskip hholes (mt ponUsed_any_empty.mp hnone) hfault hpol, ponExec_emits_res h17⟩⟩

end

/-- Settles O52: an execution goes one of three ways, EMPTY, HOLE or the elements of its operation, and its file rotates. -/
theorem slotExecutions : Obligations.SlotExecutions := by
  unfold Obligations.SlotExecutions
  intro w file consts port n tag op x f0 r used
  refine ⟨fun h17 h18 hempty => ponExec_empty h17 ((ponSkips_iff h18).mpr hempty), fun h17 => ?_, ponExec_pmerge,
    fun _ h17 h18 hthere => ?_, length_rotateFile file r.res, rfl, fun j => rotateFile_getD_succ file r.res, ?_⟩
  · exact ⟨ponExec_out.trans (if_pos h17), ponExec_ports_of_empty, ponExec_ports_pdly h17, ponExec_pdly_res h17⟩
  · have hskip : ¬ ponSkips w file consts port = true :=
      mt (ponSkips_iff h18).mp fun ⟨i, hi, hempty⟩ => hthere i hi hempty
    exact ⟨fun i hi hole hbefore => ponExec_hole h17 hskip (ponHoles_head_operand hi hole hbefore),
      fun hx hop hole => ponExec_hole h17 hskip (ponHoles_head_file hop hx hole),
      fun hx hf => by
        have hcomputes := ponExec_valid (n := n) (tag := tag) h17 h18 hx hf
        rw [ponComputes, if_neg (fun h => h18 h.1)] at hcomputes
        exact hcomputes⟩
  · intro a b c f j hj v int g t ty
    have ha := a.at_lt j
    have hb := b.at_lt j
    refine ⟨fun hty => ?_, fun hty => ?_, fun h => ponOp_bits h a b c f hj ha rfl,
      fun h => ponOp_bits h a b c f hj (Nat.and_lt_two_pow _ hb) rfl,
      fun h => ponOp_bits h a b c f hj (Nat.or_lt_two_pow ha hb) rfl,
      fun h => ponOp_bits h a b c f hj (Nat.xor_lt_two_pow ha hb) rfl⟩
    · have arith := fun op hop h => ponOp_int (op := op) hty h hop a b c f hj
      exact ⟨arith 2 (by decide), arith 3 (by decide), arith 4 (by decide), arith 5 (by decide), arith 9 (by decide),
        fun h => ponOp_pacc_int hty h a b c f hj⟩
    · have arith := fun op hop h => ponOp_float (op := op) hty h hop a b c f hj
      exact ⟨arith 2 (by decide), arith 3 (by decide), arith 4 (by decide), arith 5 (by decide), arith 6 (by decide),
        arith 7 (by decide)⟩

end Sys2Proof.Machine
end
